-- ==== Sys2Proof/Word.lean ====
section
/-! DEFINITION. The number types of the OW-416: the widths the manual gives its counters, masks and
numbers (00_scope.md, Conventions and Names of resources and circuits; 12_formats.md, 12.1). -/

namespace Sys2Proof

/-- One byte of a frame, a panel envelope or the configuration memory (12_formats.md). -/
abbrev Byte := BitVec 8

/-- A local count: milliseconds, 32 bits, wrapping (R3). -/
abbrev Count := BitVec 32

/-- A 16-bit generation of a plan or of a campus set (R1). -/
abbrev Generation := BitVec 16

/-- The 32-bit digest of a plan (R59, R209). -/
abbrev Digest := BitVec 32

/-- A station number, 0 to 15. -/
abbrev StationNo := Fin 16

/-- A bell circuit B0 to B5. -/
abbrev BellNo := Fin 6

/-- A clock circuit C0 to C3. -/
abbrev ClockNo := Fin 4

/-- A loudspeaker zone Z0 to Z7. -/
abbrev ZoneNo := Fin 8

/-- A position of the announcement table, 0 to 3 (R130). -/
abbrev TablePos := Fin 4

/-- One of the seven owner slots of the Zone Arbiter (R115): 0 the drill slot, 1 and 2 the bell slots,
3 to 6 the announcement slots. -/
abbrev SlotNo := Fin 7

/-- One of the two bell claim slots of the Bell Unit (R89). -/
abbrev BellSlotNo := Fin 2

/-- One of the nine audio resources (R114): 0 to 7 the zones Z0 to Z7, 8 the chime synth SYN. -/
abbrev ResNo := Fin 9

/-- A circuit mask: bit i is bell circuit Bi. -/
abbrev CircuitMask := BitVec 6

/-- A building mask: bit i is station i. -/
abbrev BuildingMask := BitVec 16

/-- A zone mask: bit i is zone Zi. -/
abbrev ZoneMask := BitVec 8

/-- The missing bitmap of a PLANREQ and the serve bitmap: bit i is fragment i (R70, R74). -/
abbrev FragmentMask := BitVec 48

end Sys2Proof
end

