-- ==== Sys2Proof/Syntax.lean ====
section
/-! DEFINITION. The commands of the station: one constructor of Instr for each row of
spec/opcode_table.json, with the row's operands, and the types those operands have. -/

namespace Sys2Proof

/-- A campus time: a day number, 0 to 65,535, and a millisecond of day (00_scope.md, Campus time). The
millisecond is a plain number, because a command may carry one that is out of range. -/
structure CampusTime where
  day : BitVec 16
  ms : Nat
deriving DecidableEq, Repr

/-- A plan key or a set key: a generation and the origin station (R1). -/
structure Key where
  gen : Generation
  origin : StationNo
deriving DecidableEq, Repr

/-- The five period kinds (R55). -/
inductive PeriodKind where
  | teaching
  | recess -- BREAK
  | assembly
  | quiet
  | closed
deriving DecidableEq, Repr

/-- The polarity of a clock impulse (R97). -/
inductive Polarity where
  | plus
  | minus
deriving DecidableEq, Repr

/-- What the line-sense input gives at half an impulse (R100). -/
inductive SenseResult where
  | delivered
  | openLine -- OPEN
  | short
deriving DecidableEq, Repr

/-- The damage a receiver finds first in a frame (R43, R180). -/
inductive Damage where
  | check
  | stopBit
  | short
  | length
  | kind
deriving DecidableEq, Repr

/-- The choice that LOAD BEGIN carries (R62). -/
inductive LoadChoice where
  | empty
  | copy
deriving DecidableEq, Repr

/-- The selector of READ DRILL RECORD (R174). -/
inductive RecordChoice where
  | current
  | last
deriving DecidableEq, Repr

/-- The item selector of READ PLAN ITEM, with its program and index (R68). -/
inductive PlanItem where
  | key
  | weekday
  | exception (i : Nat)
  | range (p i : Nat)
  | default (p : Nat)
  | bell (p i : Nat)
  | override (i : Nat)
  | pattern (n : Nat)
  | drill
  | staging
deriving DecidableEq, Repr

/-- The two levels of an announcement (R130). -/
inductive AnnLevel where
  | urgent
  | normal
deriving DecidableEq, Repr

/-- The three tone programs of a CHIME (R130, R150). -/
inductive Chime where
  | chime2
  | chime3Up
  | chime3Down
deriving DecidableEq, Repr

/-- The kind of an announcement: CHIME with a tone program and a repeat count, or LIVE with a duration
limit in seconds (R130). -/
inductive AnnKind where
  | chime (program : Chime) (repeats : Nat)
  | live (limit : Nat)
deriving DecidableEq, Repr

/-- What the panel command ANNOUNCE carries (R133). -/
structure AnnPost where
  kind : AnnKind
  level : AnnLevel
  buildings : BuildingMask
  zones : ZoneMask
deriving DecidableEq, Repr

/-- The commands of the OW-416, in the order of spec/opcode_table.json.

Received frames carry the sender's number and the payload bytes of 12_formats.md. Ends of memory reads
carry whether the memory reported a read failure. Rows about one circuit, table position or slot carry
its number. -/
inductive Instr where
  | setTime (t : CampusTime)
  | referenceLabel (t : CampusTime)
  | loadBegin (choice : LoadChoice)
  | loadFragment (index : Nat) (content : List Byte)
  | loadCommit (digest : Option Digest)
  | loadAbort
  | overrideAdd (first last : Nat) (kind : PeriodKind)
  | overrideRemove (position : Nat)
  | readPlanItem (item : PlanItem)
  | ring (circuits : CircuitMask) (pattern : Nat)
  | dialSet (circuit : Nat) (position : Option Nat) (polarity : Polarity)
  | clockClear (circuit : Nat)
  | readClockCircuit (circuit : Nat)
  | announce (post : AnnPost)
  | announceEnd (sequence : Byte)
  | drillStart (force : Bool)
  | signalStop
  | buildingClear
  | drillEnd
  | alarmReset
  | readDrillRecord (choice : RecordChoice)
  | readStatus
  | readRosterEntry (number : Nat)
  | readBank (bank : Nat)
  | clearBank (bank : Nat)
  | readNotices
  | restart
  | panelRequest (bytes : List Byte)
  | fetch (clocks : Nat)
  | transactionEnd (partialBytes : List Byte)
  | ownerAnswer
  | minuteMark
  | referenceLapse
  | beaconTimer
  | slewTick
  | secondBoundary
  | minuteBoundary
  | settimeCopy
  | contentionInstant
  | frameSent
  | echoMismatch
  | deferenceLapse
  | stuckWatch
  | damagedFrame (damage : Damage)
  | duplicateStation
  | absenceDeadline (peer : StationNo)
  | beacon (sender : StationNo) (payload : List Byte)
  | settime (sender : StationNo) (payload : List Byte)
  | plan (sender : StationNo) (payload : List Byte)
  | planreq (sender : StationNo) (payload : List Byte)
  | servePause
  | loadTimer
  | noProgressTimer
  | announceFrame (sender : StationNo) (payload : List Byte)
  | annend (sender : StationNo) (payload : List Byte)
  | startTrigger (entry : TablePos)
  | gatherLimit (entry : TablePos)
  | endDeadline (entry : TablePos)
  | liveRecordExpiry
  | chimeComplete (entry : TablePos)
  | announceClaimNotice (entry : TablePos)
  | endAllOrder
  | waitDeadline (slot : SlotNo)
  | pulseOnEnd (circuit : BellNo)
  | pulseOffEnd (circuit : BellNo)
  | restEnd (circuit : BellNo)
  | evacPattern
  | bellButtonPress
  | bellClaimNotice (slot : BellSlotNo)
  | suppressOrder
  | evacuationOrder
  | stopOrder
  | resumeOrder
  | impulseMidpoint (circuit : ClockNo) (sense : SenseResult)
  | impulseEnd (circuit : ClockNo)
  | impulseRestEnd (circuit : ClockNo)
  | codeFrameEnd (circuit : ClockNo)
  | faActivation
  | faRelease
  | dkActivation
  | drillStateFrame (sender : StationNo) (payload : List Byte)
  | endFrame (sender : StationNo) (payload : List Byte)
  | periodicFrameTimer
  | endCopy
  | evacuationDeadline
  | assembleDeadline
  | endOfAllClear
  | allClearComplete
  | drillClaimNotice
  | powerOn
  | resetAssert
  | resetRelease
  | powerFailWarning
  | pfwEnd
  | imageRead (readFailure : Bool)
  | planRecordRead (readFailure : Bool)
  | dialRecordRead (readFailure : Bool)
  | markingEnd
  | joinTimer
  | planSaveComplete
  | writeFailure
  | dialWriteComplete
  | startMark
  | lineBecomesBusy
  | lineBecomesIdle
  | lossOfPower
  | validMarkCleared
deriving DecidableEq, Repr

end Sys2Proof
end

