-- ==== Sys2Proof/Config.lean ====
section
/-! DEFINITION. What the manual leaves open and the model leaves free: constants without a body. Nothing
can prove a value of one, so a statement about the model holds whatever they are. -/

namespace Sys2Proof

/-- FREE VALUE (log 15): the sequence named in the fault detail of a posted announcement that admission
refused. R180 names the detail, and R131 gives a sequence only to an announcement that is admitted. -/
opaque Config.refusedPostSequence : Nat → BitVec 8

/-- FREE VALUE (log 16): how many of the bytes of a dial write had been written when the write was cut
short or failed (R211 gives the order of the bytes and not how far the write came). -/
opaque Config.cutDialWriteBytes : Nat → Nat

end Sys2Proof
end

