-- ==== Sys2Proof/Machine/State.lean ====
section
/-! DEFINITION. The state of one OW-416 station as plain data, block by block, and its value at the
power-on start event. Fault and Refusal name the ways a step can stop. -/

namespace Sys2Proof.Machine

open Sys2Proof

/-- Why a step can fault. No rule of the manual lets a command or an event stop the station: what goes
wrong becomes a record of a fault bank (R175) and the station goes on. So there is no fault, and nobody
raises one. -/
inductive Fault where
deriving DecidableEq, Repr

/-- Why a step can be refused. -/
inductive Refusal where
  /-- Raised by exec for a command that has no meaning yet. Safe: the machine stops where the station
  goes on. -/
  | notModelled (mnemonic : String)
deriving DecidableEq, Repr

/-! ## Common data -/

/-- A campus time reading: a time and its validity flag (R5). -/
structure Reading where
  time : CampusTime
  valid : Bool
deriving DecidableEq, Repr

/-- A mark reading: the local count and the campus reading at a start mark; the campus part is absent
when it was flagged invalid or a step has discarded it (R8, R11). -/
structure MarkReading where
  count : Count
  campus : Option CampusTime
deriving DecidableEq, Repr

/-- A drill id or an announcement id: origin station and sequence (R130, R152). -/
structure Id where
  origin : StationNo
  seq : Byte
deriving DecidableEq, Repr

/-- The quality of campus time (R6). -/
inductive Quality where
  | unset
  | synced
  | referenced
  | isolated
deriving DecidableEq, Repr

/-- The kind of a drill (R152). -/
inductive DrillKind where
  | practice
  | real
deriving DecidableEq, Repr

/-- The drill states (R152). -/
inductive DrillState where
  | idle
  | evacuate
  | assemble
  | allClear
deriving DecidableEq, Repr

/-- The outcomes of a drill (R159). -/
inductive DrillOutcome where
  | complete
  | endedEarly
  | timedOut
  | reset
  | alarmOverride
deriving DecidableEq, Repr

/-- The reasons of plan validation, in the order of the checks (R60). -/
inductive PlanFault where
  | fragments
  | calendar
  | ranges
  | bellOrder
  | bellClash
  | patternRef
  | patterns
  | overrides
  | drillLimits
deriving DecidableEq, Repr

/-- The kinds of campus frame (R31). -/
inductive FrameKind where
  | drill
  | beacon
  | settime
  | announce
  | annend
  | plan
  | planreq
deriving DecidableEq, Repr

/-! ## Station and image -/

/-- The four operating states of the station (00_scope.md). -/
inductive OpState where
  | start
  | join
  | run
  | halt
deriving DecidableEq, Repr

/-- The station as a whole (R198 to R204), and the place of the model's bit-time clock inside the
millisecond and inside the sample period (log 2). `inputPhase` counts the milliseconds since FA, DK and BB were
sampled (R88, R151, log 57). `joinOvertaken` says that a RESTART came before an expiry of
the JOIN timer with which it fell together (R201, log 55). `faClosedSeen`, `faOpenSeen` and `faRow` hold what
is known of FA before the image gives its polarity (R151, log 40): the valid levels that there have been, and
whether a row has said the contact active or inactive. -/
structure StartUnit where
  opState : OpState
  powered : Bool
  resetHeld : Bool
  station : StationNo
  straps : StationNo
  joinDeadline : Option Count
  joinOvertaken : Bool
  faClosedSeen : Bool
  faOpenSeen : Bool
  faRow : Option Bool
  faLatched : Bool
  dkLatched : Bool
  dialRestored : Bool
  startAfterWrite : Bool
  usPhase : Nat
  samplePhase : Nat
  inputPhase : Nat
deriving DecidableEq, Repr

/-- The kinds of a bell circuit (R77). -/
inductive BellKind where
  | absent -- NONE
  | relay
  | tone
deriving DecidableEq, Repr

/-- The image's settings of a bell circuit (R77). -/
structure BellConfig where
  kind : BellKind
  alarmCapable : Bool
  button : Bool
  zone : ZoneNo
deriving DecidableEq, Repr

/-- The kinds of a clock circuit (R96). -/
inductive ClockKind where
  | absent -- NONE
  | impulse
  | coded
deriving DecidableEq, Repr

/-- The image's settings of a clock circuit: impulse length in ms and hold limit in minutes (R96). -/
structure ClockConfig where
  kind : ClockKind
  impulseLength : Nat
  holdLimit : Nat
deriving DecidableEq, Repr

/-- The station image as it was taken at the last START, or its built-in defaults (R199). -/
structure Image where
  bells : Vector BellConfig 6
  clocks : Vector ClockConfig 4
  zoneCount : Nat
  beaconPeriod : Nat
  faActiveOpen : Bool
  levels : Vector Nat 12
  threshold : Nat
  enables : Vector Byte 6
deriving DecidableEq, Repr

/-- The built-in defaults (11_start_up_power_fail_and_restart.md, 11.2). -/
def Image.builtIn : Image where
  bells := Vector.replicate 6 ⟨.absent, false, false, 0⟩
  clocks := Vector.replicate 4 ⟨.absent, 1000, 60⟩
  zoneCount := 8
  beaconPeriod := 2
  faActiveOpen := false
  levels := Vector.replicate 12 4
  threshold := 1
  enables := Vector.replicate 6 0xFF#8

/-! ## Time Unit -/

/-- The last own beacon sent: its sequence and the capture of its start mark (R9). -/
structure OwnBeacon where
  seq : Byte
  mark : Option MarkReading
deriving DecidableEq, Repr

/-- The SETTIME copies of a set: how many have been offered, and when the next one is offered, once the
outcome of the last has been told (R26). -/
structure SetCopies where
  key : Key
  delta : Int
  offered : Nat
  nextAt : Option Count
deriving DecidableEq, Repr

/-- A minute-boundary event: its reading, and the midnight mark of the minute at which the day number increases
(R18). -/
structure MinuteBoundary where
  reading : Reading
  midnight : Bool
deriving DecidableEq, Repr

/-- The Time Unit (01_campus_time.md). -/
structure TimeUnit where
  localCount : Count
  quality : Quality
  campus : CampusTime
  stepCounter : Byte
  slewRemainder : Int
  slewPhase : Nat
  emptyRounds : Nat
  lastSet : Option (Key × Int)
  pendingSet : Option Key
  label : Option CampusTime
  prevMark : Option Count
  ownSeq : Byte
  lastBeacon : Option OwnBeacon
  beaconDeadline : Option Count
  setCopies : Option SetCopies
  capture : Option MarkReading
  secondDue : Option Reading
  minuteDue : Option MinuteBoundary
deriving DecidableEq, Repr

/-- The Time Unit after START: R6, with the local count at 0 (R3). -/
def TimeUnit.initial : TimeUnit where
  localCount := 0
  quality := .unset
  campus := ⟨0, 0⟩
  stepCounter := 0
  slewRemainder := 0
  slewPhase := 0
  emptyRounds := 0
  lastSet := none
  pendingSet := none
  label := none
  prevMark := none
  ownSeq := 0
  lastBeacon := none
  beaconDeadline := none
  setCopies := none
  capture := none
  secondDue := none
  minuteDue := none

/-! ## Line Unit -/

/-- A drill summary, as a beacon and READ STATUS carry it (R174). -/
structure DrillSummary where
  id : Id
  start : CampusTime
  kind : DrillKind
  state : DrillState
deriving DecidableEq, Repr

/-- A fault summary: a valid and an uncorrected flag for each bank, bit n for bank n (R182). -/
structure FaultSummary where
  valid : BitVec 6
  uncorrected : BitVec 6
deriving DecidableEq, Repr

/-- The content of a BEACON (R9, 12.2). -/
structure BeaconContent where
  seq : Byte
  prevSeq : Byte
  prevMark : Option CampusTime
  stepCounter : Byte
  quality : Quality
  setKey : Option Key
  plan : Option (Key × Digest)
  faults : FaultSummary
  drill : Option DrillSummary
deriving DecidableEq, Repr

/-- The content of an ANNOUNCE frame; the sender is the origin (R134). -/
structure AnnContent where
  seq : Byte
  start : CampusTime
  post : AnnPost
deriving DecidableEq, Repr

/-- The content of a DRILL state frame (R160): the phase is ASSEMBLE or EVACUATE; `cleared` is the
sender's clear elapsed in ms when it has cleared. -/
structure DrillContent where
  id : Id
  start : CampusTime
  sure : Bool
  kind : DrillKind
  assemble : Bool
  cleared : Option Nat
  fa : Bool
  stop : Option CampusTime
deriving DecidableEq, Repr

/-- What an owner offers to the Line Unit. `copy` is the Drill Unit's own mark, not sent: it tells the
END copies of R161 from a single reply (R162). -/
inductive FrameBody where
  | beacon (c : BeaconContent)
  | settime (key : Key) (delta : Int)
  | announce (c : AnnContent)
  | annend (seq : Byte) (start : CampusTime)
  | plan (key : Key) (index total : Nat) (content : List Byte)
  | planreq (key : Key) (missing : FragmentMask)
  | drillState (c : DrillContent)
  | drillEnd (id : Id) (start : CampusTime) (outcome : DrillOutcome) (copy : Bool)
deriving DecidableEq, Repr

/-- The outcomes of a frame in the Line Unit (R38). -/
inductive TxOutcome where
  | sent
  | dropped
  | replaced
  | evicted
  | refused
  | suppressed
  | discarded
deriving DecidableEq, Repr

/-- A frame of the transmit queue, with its failed attempts (R36) and whether it is in flight. -/
structure TxEntry where
  body : FrameBody
  attempts : Nat
  inFlight : Bool
deriving DecidableEq, Repr

/-- The activity state of the Line Unit (R29). -/
inductive Activity where
  | idle
  | busy
  | sending
deriving DecidableEq, Repr

/-- An offset sample with its age in rounds (R10, R11). -/
structure Sample where
  value : Int
  age : Nat
deriving DecidableEq, Repr

/-- The FA flag of a peer's last DRILL state frame, with that frame's drill id and start time (R50). -/
structure FaActive where
  flag : Bool
  id : Id
  start : CampusTime
deriving DecidableEq, Repr

/-- A roster entry (R48). -/
structure RosterEntry where
  present : Bool
  lastHeard : Count
  beaconSeq : Option Byte
  mark : Option MarkReading
  stepCount : Option Byte
  sample : Option Sample
  quality : Option Quality
  setKey : Option Key
  plan : Option (Key × Digest)
  faults : Option FaultSummary
  drill : Option DrillSummary
  fa : Option FaActive
deriving DecidableEq, Repr

/-- A roster entry after START and RESTART (R48). -/
def RosterEntry.initial : RosterEntry :=
  ⟨false, 0, none, none, none, none, none, none, none, none, none, none⟩

/-- The Line Unit (02_the_campus_line.md). `dominant` is activity on the line now that is not
the station's own; while it lasts, and while the station is SENDING, the quiet time stays 0. -/
structure LineUnit where
  quiet : Nat
  dominant : Bool
  activity : Activity
  deference : Bool
  listenOnly : Bool
  queue : List TxEntry
  holdBeacon : Option FrameBody
  holdDrill : Option FrameBody
  stuckFrom : Count
  stuckRecorded : Bool
  roster : Vector RosterEntry 16
deriving DecidableEq, Repr

/-- The Line Unit after START (R29, R34, R38, R45, R48). -/
def LineUnit.initial : LineUnit where
  quiet := 0
  dominant := false
  activity := .busy
  deference := false
  listenOnly := false
  queue := []
  holdBeacon := none
  holdDrill := none
  stuckFrom := 0
  stuckRecorded := false
  roster := Vector.replicate 16 RosterEntry.initial

/-! ## Plan Unit -/

/-- A plan as the station holds it: key, digest, total and fragments (R56). -/
structure ActivePlan where
  key : Key
  digest : Digest
  total : Nat
  frags : List (List Byte)
deriving DecidableEq, Repr

/-- The fragments staged, by index 0 to 40 (R59). -/
abbrev Fragments := Vector (Option (List Byte)) 41

/-- A fetch under way (R70). -/
structure Fetch where
  target : Key
  digest : Digest
  total : Option Nat
  frags : Fragments
  timer : Count
  requests : Nat
deriving DecidableEq, Repr

/-- The staging area (R61). -/
inductive Staging where
  | free
  | loading (frags : Fragments) (timer : Count)
  | fetching (f : Fetch)
deriving DecidableEq, Repr

/-- The Plan Unit (03_the_day_plan.md). `overtaken` says that the staging area's timer was restarted or
stopped by what came before an expiry with which it fell together (R65, R72, log 55). -/
structure PlanUnit where
  active : Option ActivePlan
  staging : Staging
  overtaken : Bool
  unobtainable : Option Key
  serve : FragmentMask
  queued : List Nat
  pausedUntil : Option Count
deriving DecidableEq, Repr

/-- The Plan Unit after START, before the plan record is read (R61, R69, R74, R75). -/
def PlanUnit.initial : PlanUnit := ⟨none, .free, false, none, 0, [], none⟩

/-! ## Bell Unit -/

/-- A bell entry (R54). -/
structure BellEntry where
  second : Nat
  pattern : Nat
  circuits : CircuitMask
  buildings : BuildingMask
  always : Bool
deriving DecidableEq, Repr

/-- A pulse: on and off times in units of 100 ms (R55). -/
structure Pulse where
  on : Nat
  off : Nat
deriving DecidableEq, Repr

/-- The source of a ring request, with the tag of a SCHEDULED one (R78). -/
inductive RingSource where
  | scheduled (key : Key) (program index second : Nat)
  | panel
  | button
deriving DecidableEq, Repr

/-- A ring request (R78). -/
structure RingRequest where
  pattern : Nat
  source : RingSource
deriving DecidableEq, Repr

/-- The states of a pulse generator (R79); pulses are counted from 0 here. -/
inductive GenState where
  | idle
  | on (i : Nat)
  | off (i : Nat)
  | rest
  | evac
deriving DecidableEq, Repr

/-- A pulse generator with its own copy of the pulses, its running request and its pending slot. -/
structure Generator where
  state : GenState
  pulses : List Pulse
  running : Option RingRequest
  waiting : Option RingRequest
  deadline : Option Count
deriving DecidableEq, Repr

/-- A generator after START and RESTART (R79). -/
def Generator.initial : Generator := ⟨.idle, [], none, none, none⟩

/-- What an owner knows of one resource of its claim, from the arbiter's answers and notices it has
taken (R116, R123). -/
inductive Known where
  | nothing
  | holds
  | waits
deriving DecidableEq, Repr

/-- A bell claim slot in use (R89). -/
structure BellSlot where
  pattern : Nat
  second : Nat
  members : List BellNo
  zones : List ZoneNo
  claimNo : Byte
  known : Vector Known 9
deriving DecidableEq, Repr

/-- Today's program: its number and its bell list (R82). -/
structure TodayProgram where
  program : Nat
  entries : List BellEntry
deriving DecidableEq, Repr

/-- The Bell Unit (04_bells.md). -/
structure BellUnit where
  gens : Vector Generator 6
  hwm : Option Nat
  dayOfProgram : Option (BitVec 16)
  today : Option TodayProgram
  drillCount : Nat
  quietCount : Nat
  drillFlag : Bool
  slots : Vector (Option BellSlot) 2
  evacPhase : Nat
  evacDeadline : Option Count
deriving DecidableEq, Repr

/-- The Bell Unit after START and RESTART (R79, R82, R89, R93). -/
def BellUnit.initial : BellUnit where
  gens := Vector.replicate 6 Generator.initial
  hwm := none
  dayOfProgram := none
  today := none
  drillCount := 0
  quietCount := 0
  drillFlag := false
  slots := Vector.replicate 2 none
  evacPhase := 0
  evacDeadline := none

/-! ## Clock Unit -/

/-- The states of an impulse circuit (R97). -/
inductive ClockState where
  | stopped
  | running
  | advancing
  | holding
  | faulted
deriving DecidableEq, Repr

/-- The cycle of an impulse circuit (R97). -/
inductive ClockCycle where
  | none
  | impulse
  | rest
deriving DecidableEq, Repr

/-- The status of a coded circuit (R109). -/
inductive CodeStatus where
  | normal
  | quiet
  | closed
  | timeUnsure
  | drill
  | alarm
deriving DecidableEq, Repr

/-- The record of an IMPULSE circuit (R97). `midAt` is the count of the midpoint, `deadline` the end of
the impulse or of the rest. -/
structure ImpulseRecord where
  position : Option Nat
  polarity : Polarity
  failCount : Nat
  state : ClockState
  cycle : ClockCycle
  midpoint : Option SenseResult
  midAt : Option Count
  deadline : Option Count
deriving DecidableEq, Repr

/-- The record of a CODED circuit (R107), with the frame on the circuit and, of the frame, the 16 µs bit times that have
passed since it began (R108, log 14). -/
structure CodedRecord where
  sending : Bool
  resend : Bool
  lastStatus : Option CodeStatus
  frame : List Byte
  frameTicks : Nat
deriving DecidableEq, Repr

/-- A clock circuit: the image's kind says which of the two records is in use. -/
structure ClockCircuit where
  impulse : ImpulseRecord
  coded : CodedRecord
deriving DecidableEq, Repr

/-- An impulse record with nothing known of the dial (R112, R206). -/
def ImpulseRecord.initial : ImpulseRecord :=
  ⟨none, .plus, 0, .stopped, .none, none, none, none⟩

/-- A coded record after START and RESTART (R107). -/
def CodedRecord.initial : CodedRecord := ⟨false, false, none, [], 0⟩

/-- A clock circuit at the start event. -/
def ClockCircuit.initial : ClockCircuit := ⟨.initial, .initial⟩

/-! ## Zone Arbiter -/

/-- The claim levels, most urgent first (R115). -/
inductive ClaimLevel where
  | alarm
  | urgent
  | bell
  | normal
deriving DecidableEq, Repr

/-- The two audio buses. -/
inductive Bus where
  | a
  | b
deriving DecidableEq, Repr

/-- Why a claim's status for a resource is NONE (R115). -/
inductive LossCause where
  | refused
  | preempted
  | evicted
  | expired
  | withdrawn
deriving DecidableEq, Repr

/-- A claim's status for a resource; `notAsked` is NONE without a cause, for a resource outside the
requested set (R115). -/
inductive ResStatus where
  | notAsked
  | holding
  | waiting
  | lost (cause : LossCause)
deriving DecidableEq, Repr

/-- A resource record (R114). A slot holds one claim, so a claim is named by its slot. -/
structure Resource where
  holder : Option SlotNo
  waiting : List SlotNo
deriving DecidableEq, Repr

/-- A claim (R115). `passed` says that the expiry of its wait deadline has been taken (R122). -/
structure Claim where
  level : ClaimLevel
  bus : Bus
  status : Vector ResStatus 9
  deadline : Option Count
  passed : Bool
  sounding : Bool
deriving DecidableEq, Repr

/-- An owner slot: its claim number and its claim (R115). -/
structure OwnerSlot where
  number : Byte
  claim : Option Claim
deriving DecidableEq, Repr

/-- The kinds of arbiter notice (R123). -/
inductive ClaimNoticeKind where
  | granted
  | preempted
  | evicted
  | expired
deriving DecidableEq, Repr

/-- An arbiter notice on its way to an owner slot (R123). -/
structure ClaimNotice where
  slot : SlotNo
  number : Byte
  res : ResNo
  kind : ClaimNoticeKind
deriving DecidableEq, Repr

/-- The Zone Arbiter (06_zones_and_the_zone_arbiter.md). -/
structure Arbiter where
  res : Vector Resource 9
  slots : Vector OwnerSlot 7
  notices : List ClaimNotice
deriving DecidableEq, Repr

/-- The Zone Arbiter after START and RESTART (R114, R115). -/
def Arbiter.initial : Arbiter :=
  ⟨Vector.replicate 9 ⟨none, []⟩, Vector.replicate 7 ⟨0, none⟩, []⟩

/-! ## Chime synth -/

/-- The programs of the synth (R147, R150). -/
inductive SynthProgram where
  | chime (c : Chime)
  | bellTone
  | evacuation
  | allClear
deriving DecidableEq, Repr

/-- The chime synth (R147 to R149). -/
structure Synth where
  playing : Option (SlotNo × Byte)
  sounding : Bool
  program : Option SynthProgram
  repeats : Nat
  repetition : Nat
  note : Nat
  sample : Nat
  phase1 : BitVec 16
  phase2 : BitVec 16
  env1 : Nat
  env2 : Nat
  complete : Bool
  out : Int
deriving DecidableEq, Repr

/-- The synth after START and RESTART: no holder, silent (R147). -/
def Synth.initial : Synth := ⟨none, false, none, 0, 0, 0, 0, 0, 0, 0, 0, false, 0⟩

/-! ## Announcement Unit -/

/-- The outcomes of an announcement entry (R130). -/
inductive AnnOutcome where
  | completed
  | ended
  | limit
  | preempted
  | cancelled
  | zonesUnavailable
deriving DecidableEq, Repr

/-- The start trigger of an entry (R130). -/
inductive AnnTrigger where
  | campus
  | localAt (at_ : Count)
deriving DecidableEq, Repr

/-- The two states of an entry (R130). -/
inductive AnnState where
  | gathering
  | playing
deriving DecidableEq, Repr

/-- An entry of the announcement table (R130). -/
structure AnnEntry where
  id : Id
  start : CampusTime
  level : AnnLevel
  kind : AnnKind
  zones : ZoneMask
  claimNo : Byte
  state : AnnState
  trigger : AnnTrigger
  deadline : Option Count
  known : Vector Known 9
deriving DecidableEq, Repr

/-- The last own outcome (R131). -/
structure OwnOutcome where
  seq : Byte
  start : CampusTime
  kind : AnnKind
  outcome : AnnOutcome
deriving DecidableEq, Repr

/-- The campus live record (R132). -/
structure LiveRecord where
  id : Id
  start : CampusTime
  limit : Nat
  expiry : Count
deriving DecidableEq, Repr

/-- The Announcement Unit (07_announcements_and_chimes.md). -/
structure AnnUnit where
  table : Vector (Option AnnEntry) 4
  ownSeq : Byte
  lastOwn : Option OwnOutcome
  live : Option LiveRecord
deriving DecidableEq, Repr

/-- The Announcement Unit after START and RESTART (R130 to R132). -/
def AnnUnit.initial : AnnUnit := ⟨Vector.replicate 4 none, 0, none, none⟩

/-! ## Drill Unit -/

/-- A roll table entry; CLEARED carries the clear elapsed time in ms (R152). -/
inductive RollEntry where
  | notExpected
  | pending
  | silent
  | cleared (elapsed : Nat)
deriving DecidableEq, Repr

/-- A drill record (R152). -/
structure DrillRecord where
  id : Id
  start : CampusTime
  sure : Bool
  kind : DrillKind
  evacLimit : Nat
  assembleLimit : Nat
  localStart : Count
  stop : Option CampusTime
  roll : Vector RollEntry 16
  endTime : Option CampusTime
  outcome : Option DrillOutcome
deriving DecidableEq, Repr

/-- An entry of the ended-drill list (R153). -/
structure EndedDrill where
  id : Id
  start : CampusTime
  outcome : DrillOutcome
deriving DecidableEq, Repr

/-- The END copies of one drill ended by this station (R161). -/
structure EndCopies where
  drill : EndedDrill
  offered : Nat
  nextAt : Option Count
deriving DecidableEq, Repr

/-- The Drill Unit (08_fire_drills_and_alarms.md). -/
structure DrillUnit where
  state : DrillState
  record : Option DrillRecord
  ownSeq : Byte
  last : Option DrillRecord
  ended : List EndedDrill
  periodic : Option Count
  copies : List EndCopies
  assembleAt : Option Count
  allClearAt : Option Count
deriving DecidableEq, Repr

/-- The Drill Unit after START (R152, R153). -/
def DrillUnit.initial : DrillUnit := ⟨.idle, none, 0, none, [], none, [], none, none⟩

/-! ## Fault Unit -/

/-- The six banks (R175). -/
inductive BankId where
  | line
  | time
  | plan
  | output
  | audio
  | drill
deriving DecidableEq, Repr

/-- The details that fault codes carry (R180). -/
inductive Detail where
  | damage (d : Damage)
  | frame (k : FrameKind)
  | seconds (n : Int)
  | noLabel
  | spacing
  | setKey (k : Key)
  | number (n : Nat)
  | recordBad -- RECORD
  | validation (r : PlanFault)
  | impulse (circuit : ClockNo) (result : SenseResult)
  | announcement (id : Id)
  | drill (id : Id)
deriving DecidableEq, Repr

/-- A fault bank (R175). -/
structure Bank where
  valid : Bool
  overflow : Bool
  uncorrected : Bool
  code : Nat
  detail : Option Detail
  time : Option CampusTime
  count : Nat
deriving DecidableEq, Repr

/-- An empty bank (R175). -/
def Bank.empty : Bank := ⟨false, false, false, 0, none, none, 0⟩

/-- The twelve notice kinds, in kind order (R183). -/
inductive NoticeKind where
  | alarmChange
  | drillChange
  | rollChange
  | announceGo
  | announceEnded
  | planAdopted
  | planSuperseded
  | loadAbandoned
  | timeChange
  | clockAttention
  | faultRecorded
  | peerChange
deriving DecidableEq, Repr

/-- The Fault Unit (09_fault_banks_and_notices.md). `pending` says for each kind, in kind order, whether
it is pending. -/
structure FaultUnit where
  taking : Bool
  banks : Vector Bank 6
  pending : Vector Bool 12
deriving DecidableEq, Repr

/-- The Fault Unit after START, before the image is taken (R175, R176, R183). -/
def FaultUnit.initial : FaultUnit := ⟨false, Vector.replicate 6 .empty, Vector.replicate 12 false⟩

/-! ## Panel responses -/

/-- The causes of BAD (R192). -/
inductive BadCause where
  | length
  | check
  | command
  | argument
deriving DecidableEq, Repr

/-- The refusal reasons, in the reading order of the table of R192. -/
inductive Reason where
  | timeUnset
  | listenOnly
  | notAddressed
  | noZones
  | drill
  | tableFull
  | liveConflict
  | period
  | noPlan
  | notLoading
  | validation (r : PlanFault)
  | generation
  | overridesFull
  | noSuchItem
  | noDrill
  | phase
  | useAlarmReset
  | useDrillEnd
  | faActive
deriving DecidableEq, Repr

/-- A range of a program (R54), or an override (R55): start, end and kind, as the plan holds them. -/
structure Span where
  first : Nat
  last : Nat
  kind : Nat
deriving DecidableEq, Repr

/-- What READ PLAN ITEM with STAGING returns (R68). -/
structure StagingData where
  staging : Staging
  unobtainable : Option Key
  serve : FragmentMask
deriving DecidableEq, Repr

/-- What READ PLAN ITEM returns (R68). -/
inductive PlanItemData where
  | key (key : Key) (digest : Digest) (total : Nat)
  | weekday (programs : List Nat)
  | exception (day : Nat) (program : Nat)
  | range (r : Span)
  | default (kind : Nat)
  | bell (e : BellEntry)
  | override (o : Span)
  | pattern (pulses : Option (List Pulse))
  | drill (evacLimit assembleLimit : Nat)
  | staging (d : StagingData)
deriving DecidableEq, Repr

/-- What READ CLOCK CIRCUIT returns (R104). -/
inductive ClockData where
  | absent
  | impulse (r : ImpulseRecord) (impulseLength holdLimit : Nat)
  | coded (r : CodedRecord)
deriving DecidableEq, Repr

/-- The status set (R196). -/
structure StatusSet where
  station : StationNo
  opState : OpState
  listenOnly : Bool
  reading : Reading
  quality : Quality
  stepCounter : Byte
  lastSet : Option Key
  labelHeld : Bool
  planKey : Option Key
  staging : Staging
  drill : Option DrillSummary
  lastOwn : Option OwnOutcome
  drillCount : Nat
  quietCount : Nat
  faults : FaultSummary
  ntc : Bool
deriving DecidableEq, Repr

/-- What READ ROSTER ENTRY returns (R197). -/
structure RosterData where
  present : Bool
  sinceHeard : Option Nat
  beaconSeq : Option Byte
  stepCount : Option Byte
  quality : Option Quality
  setKey : Option Key
  plan : Option (Key × Digest)
  faults : Option FaultSummary
  drill : Option DrillSummary
  fa : Option FaActive
  markHeld : Bool
  sample : Option Sample
deriving DecidableEq, Repr

/-- The data of a DONE response (R195). -/
inductive DoneData where
  | nothing
  | set (made : Option (Key × Int))
  | planKey (key : Key) (digest : Digest)
  | planItem (d : PlanItemData)
  | clock (d : ClockData)
  | announcement (seq : Byte) (start : CampusTime)
  | drillStarted (id : Id) (start : CampusTime)
  | drillRecord (r : DrillRecord) (ended : List EndedDrill)
  | status (s : StatusSet)
  | roster (r : RosterData)
  | bank (b : Bank)
  | notices (kinds : List NoticeKind)
deriving DecidableEq, Repr

/-- A response of the station to a request (R192). -/
inductive Response where
  | done (d : DoneData)
  | busy
  | refused (r : Reason)
  | bad (c : BadCause)
deriving DecidableEq, Repr

/-! ## Panel Port -/

/-- A checked request that waits to be dispatched, or one that the checks made BAD (R189). -/
inductive HeldRequest where
  | valid (i : Instr)
  | bad (c : BadCause)
deriving DecidableEq, Repr

/-- The port state (R186). -/
inductive PortState where
  | idle
  | working
deriving DecidableEq, Repr

/-- The response buffer (R186). -/
inductive Buffer where
  | empty
  | pending
  | ready (r : Response)
deriving DecidableEq, Repr

/-- A transaction under way: the buffer as it stood at its start, whether a request has been taken in
it, the bytes of the READY response shifted out so far, every byte received in it, which may begin a request that
is not complete yet, and every byte shifted out (R187, R191). -/
structure Transaction where
  source : Buffer
  taken : Bool
  responseOut : Nat
  received : List Byte
  shifted : List Byte
deriving DecidableEq, Repr

/-- The Panel Port (R186). `dispatched` is the request whose owner has not taken it yet, `answer` the
answer of the owner that the port has not taken yet. -/
structure PanelPort where
  state : PortState
  held : Option HeldRequest
  buffer : Buffer
  dispatched : Option Instr
  answer : Option Response
  transaction : Option Transaction
deriving DecidableEq, Repr

/-- The Panel Port at START (R186). -/
def PanelPort.initial : PanelPort := ⟨.idle, none, .empty, none, none, none⟩

/-! ## Record Store and configuration memory -/

/-- The three records of the configuration memory (12.5). -/
inductive RecordName where
  | image
  | plan
  | dial
deriving DecidableEq, Repr

/-- An entry of the dial record (R111). -/
structure DialEntry where
  impulse : Bool
  position : Option Nat
  polarity : Polarity
  uncertain : Bool
deriving DecidableEq, Repr

/-- The state of the Record Store (R205). A save holds the plan as it stood when the save began, and
whether part 1 has ended; a dial write holds its entries. -/
inductive StoreState where
  | idle
  | reading (r : RecordName)
  | marking
  | saving (p : ActivePlan) (markCleared : Bool)
  | dialWrite (entries : List DialEntry)
deriving DecidableEq, Repr

/-- The Record Store (R205). -/
structure RecordStore where
  state : StoreState
  wanted : Bool
deriving DecidableEq, Repr

/-- The configuration memory: cells at strictly rising addresses, none of them equal to what an unlisted
address reads as (Memory.wf, in Machine/Ops.lean). -/
abbrev Memory := List Host.Cell

/-! ## Inputs -/

/-- A sampled input: the level on the line, the last sample, and the valid level (R19, R88, R151,
R198). -/
structure Input where
  line : Bool
  last : Option Bool
  valid : Option Bool
deriving DecidableEq, Repr

/-- The five sampled inputs; a level is true when FA's contact is closed, the key is turned, the button
is pressed, REF is high, the warning is asserted. -/
structure Pins where
  fa : Input
  dk : Input
  bb : Input
  ref : Input
  pfw : Input
deriving DecidableEq, Repr

/-- Every input at rest and not yet sampled. -/
def Pins.initial : Pins :=
  ⟨⟨false, none, none⟩, ⟨false, none, none⟩, ⟨false, none, none⟩, ⟨false, none, none⟩,
    ⟨false, none, none⟩⟩

/-- The station. `fresh` counts the free values drawn (log 15), `pending` is the queue of the commands
that are waiting, first in, first out. -/
structure State where
  start : StartUnit
  image : Image
  time : TimeUnit
  line : LineUnit
  plan : PlanUnit
  bells : BellUnit
  clocks : Vector ClockCircuit 4
  arb : Arbiter
  synth : Synth
  ann : AnnUnit
  drill : DrillUnit
  faults : FaultUnit
  port : PanelPort
  store : RecordStore
  mem : Memory
  pins : Pins
  fresh : Nat
  pending : List Instr
deriving DecidableEq, Repr

/-- The station as a whole at a start event: in START (R198, R200). -/
def StartUnit.initial (straps : StationNo) : StartUnit :=
  ⟨.start, true, false, straps, straps, none, false, false, false, none, false, false, false, false, 0, 0, 0⟩

/-- The station right after the power-on start event: START, with the Record Store reading the station
image (R198, R200, R205). The values no rule gives are named in log 4 and log 5. -/
def State.reset : State where
  start := StartUnit.initial 0
  image := Image.builtIn
  time := TimeUnit.initial
  line := LineUnit.initial
  plan := PlanUnit.initial
  bells := BellUnit.initial
  clocks := Vector.replicate 4 ClockCircuit.initial
  arb := Arbiter.initial
  synth := Synth.initial
  ann := AnnUnit.initial
  drill := DrillUnit.initial
  faults := FaultUnit.initial
  port := PanelPort.initial
  store := ⟨.reading .image, false⟩
  mem := []
  pins := Pins.initial
  fresh := 0
  pending := []

end Sys2Proof.Machine
end

