-- ==== Sys2Proof/Machine/Arith.lean ====
section
/-! DEFINITION. The arithmetic of campus times, local counts, keys and the campus precedence order
(R1 to R5), and the byte order of 12_formats.md. -/

namespace Sys2Proof.Machine

open Sys2Proof

/-- Milliseconds in a day. -/
def dayMs : Nat := 86400000

/-- Absolute seconds repeat after this many seconds (R82). -/
def secondsWrap : Nat := 5662310400

/-- A campus time plus a signed number of milliseconds; the carry goes into the day number (R4). -/
def campusAdd (t : CampusTime) (d : Int) : CampusTime :=
  let total : Int := (t.ms : Int) + d
  ⟨t.day + BitVec.ofInt 16 (total / 86400000), (total % 86400000).toNat⟩

/-- The difference of two campus times in milliseconds, positive when the first is later (R4). -/
def campusDiff (a b : CampusTime) : Int :=
  (a.day - b.day).toInt * 86400000 + ((a.ms : Int) - (b.ms : Int))

/-- The first time is at or past the second (R4). -/
def campusReached (now t : CampusTime) : Bool := decide (0 ≤ campusDiff now t)

/-- The absolute second (00_scope.md, Campus time). -/
def absSecond (t : CampusTime) : Nat := t.day.toNat * 86400 + t.ms / 1000

/-- The campus minute of day, 0 to 1439. -/
def minuteOfDay (t : CampusTime) : Nat := t.ms / 60000

/-- The absolute campus minute. -/
def absMinute (t : CampusTime) : Nat := t.day.toNat * 1440 + minuteOfDay t

/-- The weekday, 0 for Monday. -/
def weekday (d : BitVec 16) : Nat := d.toNat % 7

/-- The start of a day's second, as a campus time. -/
def secondTime (d : BitVec 16) (second : Nat) : CampusTime := ⟨d, second * 1000⟩

/-- How far absolute second a lies past absolute second b, modulo the wrap (R82). -/
def secondsPast (a b : Nat) : Nat := (a + secondsWrap - b % secondsWrap) % secondsWrap

/-- Absolute second a is later than absolute second b (R82). -/
def secondLater (a b : Nat) : Bool :=
  decide (1 ≤ secondsPast a b) && decide (secondsPast a b ≤ 2831155199)

/-- A campus time cut to its whole second (R18). -/
def wholeSecond (t : CampusTime) : CampusTime := ⟨t.day, t.ms / 1000 * 1000⟩

/-- A campus time cut to its whole minute (R18). -/
def wholeMinute (t : CampusTime) : CampusTime := ⟨t.day, t.ms / 60000 * 60000⟩

/-- A local duration: the difference of two local counts modulo 2^32 (R3). -/
def countSince (now start : Count) : Nat := (now - start).toNat

/-- The local count has reached a deadline; durations are shorter than 2^31 ms (R3). -/
def countReached (now deadline : Count) : Bool := decide (countSince now deadline < 2147483648)

/-- A local count so many milliseconds later (R3). -/
def countAfter (now : Count) (ms : Nat) : Count := now + BitVec.ofNat 32 ms

/-- A running deadline has been reached. -/
def deadlineReached (now : Count) (deadline : Option Count) : Bool :=
  deadline.any (countReached now)

/-- The local count written as a campus time (R154). -/
def countAsCampus (c : Count) : CampusTime :=
  ⟨BitVec.ofNat 16 (c.toNat / 86400000), c.toNat % 86400000⟩

/-- Generation a is newer than generation b (R1). -/
def genNewer (a b : Generation) : Bool :=
  decide (1 ≤ (a - b).toNat) && decide ((a - b).toNat ≤ 32767)

/-- Key k is newer than key j (R1). -/
def keyNewer (k j : Key) : Bool :=
  genNewer k.gen j.gen || (decide (k.gen = j.gen) && decide (k.origin < j.origin))

/-- The newest generation of a list, moving to each that is newer than the one held so far (R24, R64). -/
def newestGen (known : List Generation) : Option Generation :=
  known.foldl (fun held g => match held with
    | none => some g
    | some h => if genNewer g h then some g else some h) none

/-- The generation after the newest known one; 1 when none is known (R24, R64). -/
def nextGen (known : List Generation) : Generation :=
  match newestGen known with
  | none => 1
  | some g => g + 1

/-- The first time is earlier than the second: the second is later, their difference being positive (R4). Of two
times whose days lie 32,768 apart neither is later, and so neither earlier (log 61, DEDUCED). -/
def earlier (a b : CampusTime) : Bool := decide (0 < campusDiff b a)

/-- The first entry comes before the second by start time, then origin (R2, parts 2 and 3). Two entries of one origin
whose start days lie 32,768 apart R2 leaves without an order: neither comes before the other, a DESIGN CHOICE
(log 70). -/
def startPrecedes (startA : CampusTime) (originA : StationNo) (startB : CampusTime)
    (originB : StationNo) : Bool :=
  earlier startA startB || (!earlier startB startA && decide (originA < originB))

/-- Drill a wins against drill b in the campus precedence order (R2); neither of two that R2 does not rank wins, a DESIGN
CHOICE (logs 21, 70). -/
def drillPrecedes (kindA : DrillKind) (startA : CampusTime) (originA : StationNo)
    (kindB : DrillKind) (startB : CampusTime) (originB : StationNo) : Bool :=
  if kindA = kindB then startPrecedes startA originA startB originB else decide (kindA = .real)

/-- A number in so many bytes, most significant first; what does not fit is dropped. -/
def beBytes : Nat → Nat → List Byte
  | 0, _ => []
  | k + 1, n => BitVec.ofNat 8 (n / 256 ^ k) :: beBytes k n

/-- The number that a list of bytes spells, most significant first. -/
def beValue (bs : List Byte) : Nat := bs.foldl (fun acc b => acc * 256 + b.toNat) 0

/-- Bytes from offset o, n of them. -/
def field (bs : List Byte) (o n : Nat) : List Byte := (bs.drop o).take n

/-- The number in the bytes from offset o, n of them. -/
def fieldValue (bs : List Byte) (o n : Nat) : Nat := beValue (field bs o n)

/-- Bit i of a byte taken as a number. -/
def bitOf (n i : Nat) : Bool := n.testBit i

end Sys2Proof.Machine
end

