-- ==== Sys2Proof/Machine/Ops.lean ====
section
/-! DEFINITION. The operations on the parts of State: the configuration memory (R211, 12.5) and one
update for each field. -/

namespace Sys2Proof.Machine

open Sys2Proof

/-! ## Configuration memory -/

/-- What an address that nothing has written reads as (log 5). -/
def memDefault : Byte := 0

/-- The byte at an address. -/
def memRead : Memory → Nat → Byte
  | [], _ => memDefault
  | (x, v) :: m, a => if a = x then v else memRead m a

/-- The memory with one byte written; the canonical form is kept. -/
def memWrite : Memory → Nat → Byte → Memory
  | [], a, v => if v = memDefault then [] else [(a, v)]
  | (x, w) :: m, a, v =>
    if a < x then (if v = memDefault then (x, w) :: m else (a, v) :: (x, w) :: m)
    else if a = x then (if v = memDefault then m else (a, v) :: m)
    else (x, w) :: memWrite m a v

/-- The bytes from an address on, n of them. -/
def memReadBytes (m : Memory) (a n : Nat) : List Byte := (List.range n).map fun i => memRead m (a + i)

/-- The memory with a list of bytes written from an address on. -/
def memWriteBytes : Memory → Nat → List Byte → Memory
  | m, _, [] => m
  | m, a, b :: bs => memWriteBytes (memWrite m a b) (a + 1) bs

/-- The cells stand at rising addresses from a bound on, and none holds the default. -/
def memWfFrom : Nat → Memory → Bool
  | _, [] => true
  | lo, (a, v) :: m => decide (lo ≤ a) && decide (v ≠ memDefault) && memWfFrom (a + 1) m

/-- The canonical form of the memory. -/
def Memory.wf (m : Memory) : Bool := memWfFrom 0 m

/-- The address of the station image (12.5). -/
def imageAddress : Nat := 0x0000

/-- The address of the dial record (12.5). -/
def dialAddress : Nat := 0x0040

/-- The address of the plan record (12.5). -/
def planAddress : Nat := 0x0100

/-- The value of a set valid mark (R211). -/
def markSet : Byte := 0xA5

/-- The value that clears a valid mark (R211). -/
def markClear : Byte := 0x00

/-! ## One update for each field of State -/

/-- The state with another `start`. -/
def State.withStart (s : State) (x : StartUnit) : State := { s with start := x }

/-- The state with another `image`. -/
def State.withImage (s : State) (x : Image) : State := { s with image := x }

/-- The state with another `time`. -/
def State.withTime (s : State) (x : TimeUnit) : State := { s with time := x }

/-- The state with another `line`. -/
def State.withLine (s : State) (x : LineUnit) : State := { s with line := x }

/-- The state with another `plan`. -/
def State.withPlan (s : State) (x : PlanUnit) : State := { s with plan := x }

/-- The state with another `bells`. -/
def State.withBells (s : State) (x : BellUnit) : State := { s with bells := x }

/-- The state with another `clocks`. -/
def State.withClocks (s : State) (x : Vector ClockCircuit 4) : State := { s with clocks := x }

/-- The state with another `arb`. -/
def State.withArb (s : State) (x : Arbiter) : State := { s with arb := x }

/-- The state with another `synth`. -/
def State.withSynth (s : State) (x : Synth) : State := { s with synth := x }

/-- The state with another `ann`. -/
def State.withAnn (s : State) (x : AnnUnit) : State := { s with ann := x }

/-- The state with another `drill`. -/
def State.withDrill (s : State) (x : DrillUnit) : State := { s with drill := x }

/-- The state with another `faults`. -/
def State.withFaults (s : State) (x : FaultUnit) : State := { s with faults := x }

/-- The state with another `port`. -/
def State.withPort (s : State) (x : PanelPort) : State := { s with port := x }

/-- The state with another `store`. -/
def State.withStore (s : State) (x : RecordStore) : State := { s with store := x }

/-- The state with another `mem`. -/
def State.withMem (s : State) (x : Memory) : State := { s with mem := x }

/-- The state with another `pins`. -/
def State.withPins (s : State) (x : Pins) : State := { s with pins := x }

/-- The state with another `fresh`. -/
def State.withFresh (s : State) (x : Nat) : State := { s with fresh := x }

/-- The state with another `pending`. -/
def State.withPending (s : State) (x : List Instr) : State := { s with pending := x }

/-! ## Readings of the state -/

/-- The current campus reading (R5). -/
def currentReading (s : State) : Reading := ⟨s.time.campus, decide (s.time.quality ≠ .unset)⟩

/-- The current mark reading: the campus part is absent when the reading is invalid (R8). -/
def markReading (s : State) : MarkReading :=
  ⟨s.time.localCount, if s.time.quality = .unset then none else some s.time.campus⟩

/-- The station is in JOIN or in RUN, the states in which its blocks take events. -/
def working (s : State) : Bool := decide (s.start.opState = .join) || decide (s.start.opState = .run)

/-- The station is in RUN. -/
def inRun (s : State) : Bool := decide (s.start.opState = .run)

/-- The start sequence has not taken the station image yet (R199, R200). -/
def beforeImage (s : State) : Bool :=
  decide (s.start.opState = .start) && decide (s.store.state = .reading .image)

/-- The station has its supply and RESET is not held, so that events reach it. -/
def alive (s : State) : Bool := s.start.powered && !s.start.resetHeld

/-- Zone Zi exists when i is below the zone count (R114). -/
def zoneExists (img : Image) (z : ZoneNo) : Bool := decide (z.val < img.zoneCount)

/-- The existing zones, in order. -/
def existingZones (img : Image) : List ZoneNo := (List.finRange 8).filter (zoneExists img)

/-- A bell circuit exists when it is a RELAY or a TONE circuit (R77). -/
def bellExists (img : Image) (c : BellNo) : Bool := decide (img.bells[c].kind ≠ .absent)

/-- The beacon period in milliseconds (R9). -/
def beaconMs (img : Image) : Nat := img.beaconPeriod * 1000

/-- A roster entry replaced. -/
def setRoster (l : LineUnit) (p : StationNo) (e : RosterEntry) : LineUnit :=
  { l with roster := l.roster.set p e }

/-- The peer counts as present: present in the roster, or the own number (R48). -/
def isPresent (s : State) (p : StationNo) : Bool :=
  decide (p = s.start.station) || s.line.roster[p].present

end Sys2Proof.Machine
end

