-- ==== Sys2Proof/Machine/Flags.lean ====
section
/-! DEFINITION. The Fault Unit: what each fault code is, recording a fault, raising a notice, the fault
summary and the notice line (09_fault_banks_and_notices.md). -/

namespace Sys2Proof.Machine

open Sys2Proof

/-- The class of a frame kind, 0 the most urgent (R31). -/
def frameClass : FrameKind → Nat
  | .drill => 0
  | .beacon | .settime => 1
  | .announce | .annend => 2
  | .plan | .planreq => 3

/-- The fault codes with their details (R180). -/
inductive FaultCode where
  | damagedFrame (d : Damage)
  | collision (k : FrameKind)
  | frameDropped (k : FrameKind)
  | queueOverflow (k : FrameKind)
  | duplicateStation
  | lineStuck
  | stepApplied (seconds : Int)
  | markRejected (labelHeld : Bool)
  | referenceLapsed
  | isolated
  | settimeSuperseded (k : Key)
  | loadAbandoned (fragments : Nat)
  | planRecordBad (reason : Option PlanFault)
  | fetchFailed (g : Generation)
  | receivedPlanInvalid (r : PlanFault)
  | planSaveFailed (g : Generation)
  | ringMerged (c : BellNo)
  | toneRingLost (c : BellNo)
  | bellsSkipped (n : Nat)
  | clockImpulseFailed (c : ClockNo) (r : SenseResult)
  | clockCircuitFaulted (c : ClockNo)
  | dialUncertain (c : ClockNo)
  | imageBad
  | announcementTableFull (a : Id)
  | zonesUnavailable (a : Id)
  | liveConflict (a : Id)
  | drillMerged (d : Id)
  | rollStationSilent (p : StationNo)
  | assembleTimedOut (entries : Nat)
deriving DecidableEq, Repr

/-- The bank of a code (R180). -/
def faultBank : FaultCode → BankId
  | .damagedFrame _ | .collision _ | .frameDropped _ | .queueOverflow _ | .duplicateStation
  | .lineStuck => .line
  | .stepApplied _ | .markRejected _ | .referenceLapsed | .isolated | .settimeSuperseded _ => .time
  | .loadAbandoned _ | .planRecordBad _ | .fetchFailed _ | .receivedPlanInvalid _
  | .planSaveFailed _ => .plan
  | .ringMerged _ | .toneRingLost _ | .bellsSkipped _ | .clockImpulseFailed _ _
  | .clockCircuitFaulted _ | .dialUncertain _ | .imageBad => .output
  | .announcementTableFull _ | .zonesUnavailable _ | .liveConflict _ => .audio
  | .drillMerged _ | .rollStationSilent _ | .assembleTimedOut _ => .drill

/-- The number of a code within its bank (R180). -/
def faultNumber : FaultCode → Nat
  | .damagedFrame _ => 1
  | .collision _ => 2
  | .frameDropped _ => 3
  | .queueOverflow _ => 4
  | .duplicateStation => 5
  | .lineStuck => 6
  | .stepApplied _ => 1
  | .markRejected _ => 2
  | .referenceLapsed => 3
  | .isolated => 4
  | .settimeSuperseded _ => 5
  | .loadAbandoned _ => 1
  | .planRecordBad _ => 2
  | .fetchFailed _ => 3
  | .receivedPlanInvalid _ => 4
  | .planSaveFailed _ => 5
  | .ringMerged _ => 1
  | .toneRingLost _ => 2
  | .bellsSkipped _ => 3
  | .clockImpulseFailed _ _ => 4
  | .clockCircuitFaulted _ => 5
  | .dialUncertain _ => 6
  | .imageBad => 7
  | .announcementTableFull _ => 1
  | .zonesUnavailable _ => 2
  | .liveConflict _ => 3
  | .drillMerged _ => 1
  | .rollStationSilent _ => 2
  | .assembleTimedOut _ => 3

/-- The class of a code: true for uncorrected (R180). -/
def faultUncorrected : FaultCode → Bool
  | .frameDropped k => decide (frameClass k ≤ 1)
  | .queueOverflow _ | .duplicateStation | .lineStuck | .fetchFailed _ | .receivedPlanInvalid _
  | .planSaveFailed _ | .clockCircuitFaulted _ | .dialUncertain _ | .imageBad
  | .assembleTimedOut _ => true
  | _ => false

/-- The detail a code carries (R180). -/
def faultDetail : FaultCode → Option Detail
  | .damagedFrame d => some (.damage d)
  | .collision k | .frameDropped k | .queueOverflow k => some (.frame k)
  | .duplicateStation | .lineStuck | .referenceLapsed | .isolated | .imageBad => none
  | .stepApplied n => some (.seconds n)
  | .markRejected labelHeld => some (if labelHeld then .spacing else .noLabel)
  | .settimeSuperseded k => some (.setKey k)
  | .loadAbandoned n | .bellsSkipped n | .assembleTimedOut n => some (.number n)
  | .planRecordBad none => some .recordBad
  | .planRecordBad (some r) | .receivedPlanInvalid r => some (.validation r)
  | .fetchFailed g | .planSaveFailed g => some (.number g.toNat)
  | .ringMerged c | .toneRingLost c => some (.number c.val)
  | .clockImpulseFailed c r => some (.impulse c r)
  | .clockCircuitFaulted c | .dialUncertain c => some (.number c.val)
  | .announcementTableFull a | .zonesUnavailable a | .liveConflict a => some (.announcement a)
  | .drillMerged d => some (.drill d)
  | .rollStationSilent p => some (.number p.val)

/-- The place of a bank, by its number (12.1). -/
def bankIndex : BankId → Fin 6
  | .line => 0
  | .time => 1
  | .plan => 2
  | .output => 3
  | .audio => 4
  | .drill => 5

/-- The place of a notice kind in kind order (R183). -/
def noticeIndex : NoticeKind → Fin 12
  | .alarmChange => 0
  | .drillChange => 1
  | .rollChange => 2
  | .announceGo => 3
  | .announceEnded => 4
  | .planAdopted => 5
  | .planSuperseded => 6
  | .loadAbandoned => 7
  | .timeChange => 8
  | .clockAttention => 9
  | .faultRecorded => 10
  | .peerChange => 11

/-- The notice kinds in kind order (R183). -/
def noticeKinds : List NoticeKind :=
  [.alarmChange, .drillChange, .rollChange, .announceGo, .announceEnded, .planAdopted,
    .planSuperseded, .loadAbandoned, .timeChange, .clockAttention, .faultRecorded, .peerChange]

/-- The image enables this code (R176, 12.5). -/
def faultEnabled (img : Image) (c : FaultCode) : Bool :=
  (img.enables[bankIndex (faultBank c)]).getLsbD (faultNumber c)

/-- A bank after a fault of its own has been taken (R177, R178, R179). -/
def bankTake (b : Bank) (r : Reading) (c : FaultCode) : Bank :=
  let time := if r.valid then some r.time else none
  if faultUncorrected c then
    if !b.valid then
      { b with valid := true, uncorrected := true, code := faultNumber c,
               detail := faultDetail c, time := time }
    else if !b.uncorrected then
      { b with uncorrected := true, code := faultNumber c, detail := faultDetail c,
               time := time, overflow := true }
    else { b with overflow := true }
  else
    let count := min 255 (b.count + 1)
    if !b.valid then
      { b with valid := true, uncorrected := false, code := faultNumber c,
               detail := faultDetail c, time := time, count := count }
    else { b with overflow := true, count := count }

/-- The fault writes a record into this bank (R177, R178). -/
def bankWrites (b : Bank) (c : FaultCode) : Bool :=
  !b.valid || (faultUncorrected c && !b.uncorrected)

/-- A notice raised: its kind becomes pending, or coalesces (R183); nothing while the unit does not take
(R175, R176). -/
def faultsRaise (f : FaultUnit) (k : NoticeKind) : FaultUnit :=
  if f.taking then { f with pending := f.pending.set (noticeIndex k) true } else f

/-- A fault reported: recorded when the unit takes faults and the code is enabled (R175 to R179). -/
def faultsReport (f : FaultUnit) (img : Image) (r : Reading) (c : FaultCode) : FaultUnit :=
  if f.taking && faultEnabled img c then
    let i := bankIndex (faultBank c)
    let b := f.banks[i]
    let g : FaultUnit := { f with banks := f.banks.set i (bankTake b r c) }
    if bankWrites b c then faultsRaise g .faultRecorded else g
  else f

/-- A block reports a fault (R177, R178). -/
def report (s : State) (c : FaultCode) : State :=
  s.withFaults (faultsReport s.faults s.image (currentReading s) c)

/-- A block raises a notice (R183). -/
def raise (s : State) (k : NoticeKind) : State := s.withFaults (faultsRaise s.faults k)

/-- The fault summary (R182). -/
def faultSummary (f : FaultUnit) : FaultSummary :=
  ⟨BitVec.ofBoolListLE (f.banks.toList.map (·.valid)) |>.setWidth 6,
   BitVec.ofBoolListLE (f.banks.toList.map (·.uncorrected)) |>.setWidth 6⟩

/-- A notice kind is pending. -/
def noticePending (f : FaultUnit) (k : NoticeKind) : Bool := f.pending[noticeIndex k]

/-- The level of a notice kind (R184). -/
def noticeLevel (img : Image) (k : NoticeKind) : Nat := img.levels[noticeIndex k]

/-- The notice line NTC: asserted while a pending kind reaches the threshold, never in HALT (R184). -/
def ntc (s : State) : Bool :=
  s.start.powered && decide (s.start.opState ≠ .halt) &&
    noticeKinds.any fun k => noticePending s.faults k &&
      decide (s.image.threshold ≤ noticeLevel s.image k)

/-- The pending kinds, highest level first, and in kind order within a level (R185). -/
def noticesInOrder (img : Image) (f : FaultUnit) : List NoticeKind :=
  [7, 6, 5, 4, 3, 2, 1, 0].flatMap fun l =>
    noticeKinds.filter fun k => noticePending f k && decide (noticeLevel img k = l)

end Sys2Proof.Machine
end

