-- ==== Sys2Proof/Machine/Operands.lean ====
section
/-! DEFINITION. The byte layouts of campus frames, panel requests, the station image, the dial record and
the coded clock frame, and the cyclic checks (12_formats.md). -/

namespace Sys2Proof.Machine

open Sys2Proof

/-! ## Cyclic checks (R208, R209) -/

/-- One bit of the 16-bit cyclic check, generator x^16 + x^12 + x^5 + 1. -/
def crc16Shift (r : BitVec 16) : BitVec 16 :=
  if r.msb then (r <<< 1) ^^^ 0x1021#16 else r <<< 1

/-- One byte of the 16-bit cyclic check, most significant bit first. -/
def crc16Byte (r : BitVec 16) (b : Byte) : BitVec 16 :=
  let x := r ^^^ (b.zeroExtend 16 <<< 8)
  crc16Shift (crc16Shift (crc16Shift (crc16Shift
    (crc16Shift (crc16Shift (crc16Shift (crc16Shift x)))))))

/-- The 16-bit cyclic check with initial value FFFFh (R208). -/
def crc16 (bs : List Byte) : BitVec 16 := bs.foldl crc16Byte 0xFFFF#16

/-- One bit of the 32-bit cyclic check, generator 04C11DB7h. -/
def crc32Shift (r : BitVec 32) : BitVec 32 :=
  if r.msb then (r <<< 1) ^^^ 0x04C11DB7#32 else r <<< 1

/-- One byte of the 32-bit cyclic check, most significant bit first. -/
def crc32Byte (r : BitVec 32) (b : Byte) : BitVec 32 :=
  let x := r ^^^ (b.zeroExtend 32 <<< 24)
  crc32Shift (crc32Shift (crc32Shift (crc32Shift
    (crc32Shift (crc32Shift (crc32Shift (crc32Shift x)))))))

/-- The 32-bit cyclic check with initial value FFFFFFFFh and no final inversion (R209). -/
def crc32 (bs : List Byte) : BitVec 32 := bs.foldl crc32Byte 0xFFFFFFFF#32

/-- The two check bytes of a list of bytes, high byte first (R208). -/
def checkBytes (bs : List Byte) : List Byte := beBytes 2 (crc16 bs).toNat

/-- The last two bytes are the check of the bytes before them. -/
def checkMatches (bs check : List Byte) : Bool := decide (check = checkBytes bs)

/-! ## Common fields (12.1) -/

/-- A campus time in six bytes; the millisecond field of an absent one is FFFFFFFFh, and its day number is sent
as 0, a DESIGN CHOICE (log 65). -/
def campusBytes : Option CampusTime → List Byte
  | none => beBytes 2 0 ++ beBytes 4 0xFFFFFFFF
  | some t => beBytes 2 t.day.toNat ++ beBytes 4 t.ms

/-- A campus time field: absent, a campus time, or (outer none) a code that 12.1 does not define. -/
def campusField (bs : List Byte) (o : Nat) : Option (Option CampusTime) :=
  let ms := fieldValue bs (o + 2) 4
  if ms = 0xFFFFFFFF then some none
  else if ms < dayMs then some (some ⟨BitVec.ofNat 16 (fieldValue bs o 2), ms⟩)
  else none

/-- A campus time field that must hold a time. -/
def campusPresent (bs : List Byte) (o : Nat) : Option CampusTime := (campusField bs o).join

/-- A plan key or set key in three bytes; the origin of none is FFh, and its generation is sent as 0, a DESIGN
CHOICE (log 65). -/
def keyBytes : Option Key → List Byte
  | none => beBytes 2 0 ++ [0xFF]
  | some k => beBytes 2 k.gen.toNat ++ beBytes 1 k.origin.val

/-- A station number field; none for a number above 15. -/
def stationField (bs : List Byte) (o : Nat) : Option StationNo :=
  let n := fieldValue bs o 1
  if h : n < 16 then some ⟨n, h⟩ else none

/-- A key field: none, a key, or (outer none) an origin that is neither a station nor FFh. -/
def keyField (bs : List Byte) (o : Nat) : Option (Option Key) :=
  if fieldValue bs (o + 2) 1 = 0xFF then some none
  else (stationField bs (o + 2)).map fun origin =>
    some ⟨BitVec.ofNat 16 (fieldValue bs o 2), origin⟩

/-- A key field that must hold a key. -/
def keyPresent (bs : List Byte) (o : Nat) : Option Key := (keyField bs o).join

/-- A drill id or announcement id in two bytes. -/
def idBytes (i : Id) : List Byte := beBytes 1 i.origin.val ++ [i.seq]

/-- An id field; none for an origin above 15. -/
def idField (bs : List Byte) (o : Nat) : Option Id :=
  (stationField bs o).map fun origin => ⟨origin, BitVec.ofNat 8 (fieldValue bs (o + 1) 1)⟩

/-- Signed milliseconds in six bytes, two's complement. -/
def signedMsBytes (d : Int) : List Byte := beBytes 6 (BitVec.ofInt 48 d).toNat

/-- A signed milliseconds field. -/
def signedMsField (bs : List Byte) (o : Nat) : Int := (BitVec.ofNat 48 (fieldValue bs o 6)).toInt

/-- The code of a quality. -/
def qualityCode : Quality → Nat
  | .unset => 0
  | .synced => 1
  | .referenced => 2
  | .isolated => 3

/-- The quality of a code. -/
def qualityOf : Nat → Option Quality
  | 0 => some .unset
  | 1 => some .synced
  | 2 => some .referenced
  | 3 => some .isolated
  | _ => none

/-- The code of a period kind. -/
def periodCode : PeriodKind → Nat
  | .teaching => 0
  | .recess => 1
  | .assembly => 2
  | .quiet => 3
  | .closed => 4

/-- The period kind of a code. -/
def periodOf : Nat → Option PeriodKind
  | 0 => some .teaching
  | 1 => some .recess
  | 2 => some .assembly
  | 3 => some .quiet
  | 4 => some .closed
  | _ => none

/-- The code of a drill state. -/
def drillStateCode : DrillState → Nat
  | .idle => 0
  | .evacuate => 1
  | .assemble => 2
  | .allClear => 3

/-- The drill state of a code. -/
def drillStateOf : Nat → Option DrillState
  | 0 => some .idle
  | 1 => some .evacuate
  | 2 => some .assemble
  | 3 => some .allClear
  | _ => none

/-- The code of a drill outcome. -/
def outcomeCode : DrillOutcome → Nat
  | .complete => 0
  | .endedEarly => 1
  | .timedOut => 2
  | .reset => 3
  | .alarmOverride => 4

/-- The drill outcome of a code. -/
def outcomeOf : Nat → Option DrillOutcome
  | 0 => some .complete
  | 1 => some .endedEarly
  | 2 => some .timedOut
  | 3 => some .reset
  | 4 => some .alarmOverride
  | _ => none

/-- The kind of a drill as a bit: 1 for REAL. -/
def realBit : DrillKind → Nat
  | .practice => 0
  | .real => 1

/-- The kind of a drill from its bit. -/
def drillKindOf (real : Bool) : DrillKind := if real then .real else .practice

/-- A flag as a bit. -/
def bitValue (b : Bool) : Nat := if b then 1 else 0

/-- A fault summary in two bytes. -/
def faultSummaryBytes (f : FaultSummary) : List Byte :=
  beBytes 1 f.valid.toNat ++ beBytes 1 f.uncorrected.toNat

/-- A fault summary field; none when bit 7 or 6 of a byte is set. -/
def faultSummaryField (bs : List Byte) (o : Nat) : Option FaultSummary :=
  let v := fieldValue bs o 1
  let u := fieldValue bs (o + 1) 1
  if v < 64 && u < 64 then some ⟨BitVec.ofNat 6 v, BitVec.ofNat 6 u⟩ else none

/-- The code of a chime program (12.2). -/
def chimeCode : Chime → Nat
  | .chime2 => 0
  | .chime3Up => 1
  | .chime3Down => 2

/-- The chime program of a code. -/
def chimeOf : Nat → Option Chime
  | 0 => some .chime2
  | 1 => some .chime3Up
  | 2 => some .chime3Down
  | _ => none

/-! ## Campus frames (12.2) -/

/-- The kind of a frame body (R31). -/
def bodyKind : FrameBody → FrameKind
  | .beacon _ => .beacon
  | .settime _ _ => .settime
  | .announce _ => .announce
  | .annend _ _ => .annend
  | .plan _ _ _ _ => .plan
  | .planreq _ _ => .planreq
  | .drillState _ | .drillEnd _ _ _ _ => .drill

/-- The code of a frame kind in the header. -/
def kindCode : FrameKind → Nat
  | .drill => 1
  | .beacon => 2
  | .settime => 3
  | .announce => 4
  | .annend => 5
  | .plan => 6
  | .planreq => 7

/-- Bytes 7 to 12 of an ANNOUNCE payload, which the panel command ANNOUNCE carries too (R210). -/
def postBytes (p : AnnPost) : List Byte :=
  let level := bitValue (decide (p.level = .normal)) * 2
  (match p.kind with
    | .chime c r => beBytes 1 level ++ beBytes 1 (chimeCode c) ++ beBytes 1 r
    | .live l => beBytes 1 (level + 1) ++ beBytes 2 l) ++
  beBytes 2 p.buildings.toNat ++ beBytes 1 p.zones.toNat

/-- The post in six bytes; none for a flag bit or a program that 12.2 does not define. -/
def postField (bs : List Byte) (o : Nat) : Option AnnPost :=
  let flags := fieldValue bs o 1
  if flags ≥ 4 then none
  else
    let level := if bitOf flags 1 then AnnLevel.normal else AnnLevel.urgent
    let buildings := BitVec.ofNat 16 (fieldValue bs (o + 3) 2)
    let zones := BitVec.ofNat 8 (fieldValue bs (o + 5) 1)
    if bitOf flags 0 then
      some ⟨.live (fieldValue bs (o + 1) 2), level, buildings, zones⟩
    else
      (chimeOf (fieldValue bs (o + 1) 1)).map fun c =>
        ⟨.chime c (fieldValue bs (o + 2) 1), level, buildings, zones⟩

/-- The numbers of an announcement lie in their ranges: repeat count 1 to 3, limit 1 to 300 s (R130). -/
def postInRange (p : AnnPost) : Bool :=
  match p.kind with
  | .chime _ r => decide (1 ≤ r) && decide (r ≤ 3)
  | .live l => decide (1 ≤ l) && decide (l ≤ 300)

/-- The payload of a frame body (12.2). Of a drill summary of none 12.2 gives the origin FFh; that its sequence
and its kind and state byte are 0 and its start time absent is a DESIGN CHOICE (log 65). -/
def payloadBytes : FrameBody → List Byte
  | .beacon c =>
    [c.seq, c.prevSeq] ++ campusBytes c.prevMark ++ [c.stepCounter] ++
    beBytes 1 (qualityCode c.quality) ++ keyBytes c.setKey ++ keyBytes (c.plan.map (·.1)) ++
    beBytes 4 (match c.plan with | none => 0 | some p => p.2.toNat) ++ faultSummaryBytes c.faults ++
    (match c.drill with
      | none => [0xFF, 0] ++ campusBytes none ++ [0]
      | some d => idBytes d.id ++ campusBytes (some d.start) ++
          beBytes 1 (realBit d.kind * 16 + drillStateCode d.state))
  | .settime k d => keyBytes (some k) ++ signedMsBytes d
  | .announce c => [c.seq] ++ campusBytes (some c.start) ++ postBytes c.post
  | .annend seq start => [seq] ++ campusBytes (some start)
  | .plan k index total content =>
    keyBytes (some k) ++ beBytes 1 index ++ beBytes 1 total ++ content
  | .planreq k missing => keyBytes (some k) ++ beBytes 6 missing.toNat
  | .drillState c =>
    [0x00] ++ idBytes c.id ++ campusBytes (some c.start) ++
    beBytes 1 (bitValue c.sure + realBit c.kind * 2 + bitValue c.assemble * 4 +
      bitValue c.cleared.isSome * 8 + bitValue c.fa * 16) ++
    campusBytes c.stop ++ beBytes 4 (min (c.cleared.getD 0) 0xFFFFFFFF)
  | .drillEnd i start o _ =>
    [0x01] ++ idBytes i ++ campusBytes (some start) ++ beBytes 1 (outcomeCode o)

/-- A whole frame as its sender drives it: header, payload and check (R30, R208). -/
def frameBytes (station : StationNo) (body : FrameBody) : List Byte :=
  let payload := payloadBytes body
  let front := beBytes 1 (kindCode (bodyKind body) * 16 + station.val) ++
    beBytes 1 payload.length ++ payload
  front ++ checkBytes front

/-- The time of a frame on the line in bit times (R30). -/
def frameBitTimes (n : Nat) : Nat := 20 + 10 * (n + 4)

/-- A byte on the line, level by level: the dominant start bit, eight data bits with the least significant first
and 0 dominant, and the recessive stop bit; true is dominant (R30, R208). -/
def byteLevels (b : Byte) : List Bool :=
  true :: ((List.range 8).map fun i => !b.getLsbD i) ++ [false]

/-- The bit times of a start mark (R30). -/
def startMarkBits : Nat := 20

/-- A whole frame on the line, one level for each bit time: the start mark and the bytes (R30, R208). -/
def frameLevels (station : StationNo) (body : FrameBody) : List Bool :=
  List.replicate startMarkBits true ++ (frameBytes station body).flatMap byteLevels

/-- The payload has the length its kind requires; for a DRILL frame, with its form byte (R208). -/
def lengthAllowed (k : FrameKind) (payload : List Byte) : Bool :=
  let n := payload.length
  match k with
  | .beacon => n = 31
  | .settime => n = 9
  | .announce => n = 13
  | .annend => n = 7
  | .plan => decide (6 ≤ n) && decide (n ≤ 48)
  | .planreq => n = 9
  | .drill =>
    (decide (n = 20) && decide (fieldValue payload 0 1 = 0)) ||
    (decide (n = 10) && decide (fieldValue payload 0 1 = 1))

/-- The drill summary of a BEACON: none, a summary, or (outer none) an undefined code. -/
def drillSummaryField (p : List Byte) : Option (Option DrillSummary) :=
  if fieldValue p 22 1 = 0xFF then some none
  else do
    let i ← idField p 22
    let start ← campusPresent p 24
    let b := fieldValue p 30 1
    let state ← drillStateOf (b % 4)
    if b / 4 % 4 = 0 ∧ b < 32 then some (some ⟨i, start, drillKindOf (bitOf b 4), state⟩) else none

/-- A BEACON payload; none when a field holds an undefined code (R208). -/
def beaconOf (p : List Byte) : Option BeaconContent := do
  let prevMark ← campusField p 2
  let quality ← qualityOf (fieldValue p 9 1)
  let setKey ← keyField p 10
  let planKey ← keyField p 13
  let faults ← faultSummaryField p 20
  let drill ← drillSummaryField p
  some {
    seq := BitVec.ofNat 8 (fieldValue p 0 1)
    prevSeq := BitVec.ofNat 8 (fieldValue p 1 1)
    prevMark := prevMark
    stepCounter := BitVec.ofNat 8 (fieldValue p 8 1)
    quality := quality
    setKey := setKey
    plan := planKey.map fun k => (k, BitVec.ofNat 32 (fieldValue p 16 4))
    faults := faults
    drill := drill }

/-- A SETTIME payload. -/
def settimeOf (p : List Byte) : Option (Key × Int) :=
  (keyPresent p 0).map fun k => (k, signedMsField p 3)

/-- An ANNOUNCE payload. -/
def announceOf (p : List Byte) : Option AnnContent := do
  let start ← campusPresent p 1
  let post ← postField p 7
  if postInRange post then some ⟨BitVec.ofNat 8 (fieldValue p 0 1), start, post⟩ else none

/-- An ANNEND payload. -/
def annendOf (p : List Byte) : Option (Byte × CampusTime) :=
  (campusPresent p 1).map fun t => (BitVec.ofNat 8 (fieldValue p 0 1), t)

/-- A PLAN frame: key, index, total and section. -/
structure PlanFrame where
  key : Key
  index : Nat
  total : Nat
  content : List Byte
deriving DecidableEq, Repr

/-- A PLAN payload. -/
def planFrameOf (p : List Byte) : Option PlanFrame :=
  (keyPresent p 0).map fun k => ⟨k, fieldValue p 3 1, fieldValue p 4 1, p.drop 5⟩

/-- A PLANREQ payload. -/
def planreqOf (p : List Byte) : Option (Key × FragmentMask) :=
  (keyPresent p 0).map fun k => (k, BitVec.ofNat 48 (fieldValue p 3 6))

/-- A DRILL state frame payload. -/
def drillStateFrameOf (p : List Byte) : Option DrillContent := do
  let i ← idField p 1
  let start ← campusPresent p 3
  let flags := fieldValue p 9 1
  let stop ← campusField p 10
  if flags < 32 then
    some ⟨i, start, bitOf flags 0, drillKindOf (bitOf flags 1), bitOf flags 2,
      if bitOf flags 3 then some (fieldValue p 16 4) else none, bitOf flags 4, stop⟩
  else none

/-- A DRILL END frame payload. -/
def endFrameOf (p : List Byte) : Option EndedDrill := do
  let i ← idField p 1
  let start ← campusPresent p 3
  let o ← outcomeOf (fieldValue p 9 1)
  some ⟨i, start, o⟩

/-! ## The receiver (R43, R208) -/

/-- The kind that header bits 7 to 4 name; none for 0 and 8 to 15, which is the damage KIND (R208). -/
def kindOf : Nat → Option FrameKind
  | 1 => some .drill
  | 2 => some .beacon
  | 3 => some .settime
  | 4 => some .announce
  | 5 => some .annend
  | 6 => some .plan
  | 7 => some .planreq
  | _ => none

/-- The byte that ten levels spell, from its data bits (R208). -/
def levelsByte (l : List Bool) : Byte :=
  BitVec.ofBoolListLE (((l.drop 1).take 8).map (!·)) |>.setWidth 8

/-- The levels behind a start mark as bytes, each with whether its stop bit is recessive (R30, R43). -/
def levelBytes (l : List Bool) : List (Byte × Bool) :=
  (List.range (l.length / 10)).map fun k =>
    (levelsByte ((l.drop (10 * k)).take 10), !((l[10 * k + 9]?).getD true))

/-- Some byte of these has a stop bit that is not recessive. -/
def stopDamaged (l : List (Byte × Bool)) : Bool := l.any fun x => !x.2

/-- The length byte is one that the kind allows (R208). -/
def lengthNamed (k : FrameKind) (n : Nat) : Bool :=
  match k with
  | .drill => n = 10 || n = 20
  | .plan => decide (6 ≤ n) && decide (n ≤ 48)
  | k => lengthAllowed k (List.replicate n 0)

/-- The damage of the bytes behind the header, in the order in which they end: a stop bit, the end of the activity
before the last byte, a DRILL form byte of the other length, the check (R43, R208). -/
def bodyDamage (k : FrameKind) (front : List Byte) (l : List (Byte × Bool)) (n : Nat) : Option Damage :=
  let payload := (l.take n).map (·.1)
  if stopDamaged (l.take (n + 2)) then some .stopBit
  else if l.length < n + 2 then some .short
  else if !lengthAllowed k payload then some .length
  else if !checkMatches (front ++ payload) (((l.drop n).take 2).map (·.1)) then some .check
  else none

/-- The first damage that the receiver finds in the bytes of a frame, by the order in which they end (R43, R180,
R208; log 56); none for a valid frame. -/
def frameDamage (l : List (Byte × Bool)) : Option Damage :=
  match l with
  | [] => some .short
  | (h, ok) :: rest =>
    if !ok then some .stopBit
    else match kindOf (h.toNat / 16), rest with
      | none, _ => some .kind
      | some _, [] => some .short
      | some k, (n, ok2) :: more =>
        if !ok2 then some .stopBit
        else if !lengthNamed k n.toNat then some .length
        else bodyDamage k [h, n] more n.toNat

/-- The row by which a valid frame reaches the station, from its bytes: its kind, sender and payload (R44,
R46). -/
def validRow (bs : List Byte) : Option Instr :=
  let payload := field bs 2 (fieldValue bs 1 1)
  let p : StationNo := ⟨fieldValue bs 0 1 % 16, Nat.mod_lt _ (by decide)⟩
  (kindOf (fieldValue bs 0 1 / 16)).map fun k => match k with
    | .drill => if fieldValue payload 0 1 = 0 then .drillStateFrame p payload else .endFrame p payload
    | .beacon => .beacon p payload
    | .settime => .settime p payload
    | .announce => .announceFrame p payload
    | .annend => .annend p payload
    | .plan => .plan p payload
    | .planreq => .planreq p payload

/-- The row by which the levels of a frame on the line, its start mark left out, reach the station: DAMAGED_FRAME
with the damage found first, or the row of the frame (R43, R44, R208). -/
def receivedRow (levels : List Bool) : Option Instr :=
  match frameDamage (levelBytes levels) with
  | some d => some (.damagedFrame d)
  | none => validRow ((levelBytes levels).map (·.1))

/-! ## Panel requests (R188, R210) -/

/-- The code of a refusal reason of plan validation among the nine (R192). -/
def planFaultCode : PlanFault → Nat
  | .fragments => 0
  | .calendar => 1
  | .ranges => 2
  | .bellOrder => 3
  | .bellClash => 4
  | .patternRef => 5
  | .patterns => 6
  | .overrides => 7
  | .drillLimits => 8

/-- The number of argument bytes that a command takes (R188 check 4, R210). Where 12.1 and 12.4 give an argument's values
and no width, the width is a DESIGN CHOICE: 4 bytes for each minute of OVERRIDE ADD, one byte for the others (log 73). -/
def argumentCountOk (code n : Nat) : Bool :=
  match code with
  | 1 | 2 => n = 6
  | 3 => n = 1
  | 4 => decide (2 ≤ n) && decide (n ≤ 44)
  | 5 => n = 0 || n = 4
  | 6 => n = 0
  | 7 => n = 9
  | 8 => n = 1
  | 9 => n = 3
  | 10 => n = 2
  | 11 => n = 4
  | 12 | 13 => n = 1
  | 14 => n = 6
  | 15 | 16 => n = 1
  | 17 | 18 | 19 | 20 => n = 0
  | 21 => n = 1
  | 22 => n = 0
  | 23 | 24 | 25 => n = 1
  | 26 | 27 => n = 0
  | _ => false

/-- A number in the encoding that 12.1 gives it, 0 to `last`; none above (R188 check 5, R210). -/
def encoded {α : Type} (last n : Nat) (x : α) : Option α := if n ≤ last then some x else none

/-- The last code of a program: NONE (12.1). -/
def lastProgram : Nat := 4

/-- The last bank (12.1). -/
def lastBank : Nat := 5

/-- The item of READ PLAN ITEM from its three bytes; none for an item, or a program that the item uses, that has no
such code (R210). -/
def planItemOf (item p i : Nat) : Option PlanItem :=
  match item with
  | 0 => some .key
  | 1 => some .weekday
  | 2 => some (.exception i)
  | 3 => encoded lastProgram p (.range p i)
  | 4 => encoded lastProgram p (.default p)
  | 5 => encoded lastProgram p (.bell p i)
  | 6 => some (.override i)
  | 7 => some (.pattern i)
  | 8 => some .drill
  | 9 => some .staging
  | _ => none

/-- A one-byte choice between two values (R210). -/
def choiceOf {α : Type} (a b : α) : Nat → Option α
  | 0 => some a
  | 1 => some b
  | _ => none

/-- The campus time argument of SET TIME and REFERENCE LABEL, its millisecond as carried. -/
def campusArgument (a : List Byte) : CampusTime :=
  ⟨BitVec.ofNat 16 (fieldValue a 0 2), fieldValue a 2 4⟩

/-- The command of a code with its argument bytes; none when an argument has no encoding (R188 check 5, R210). The places
of the arguments follow the widths of `argumentCountOk` (log 73). -/
def commandOf (code : Nat) (a : List Byte) : Option Instr :=
  let byte (i : Nat) : Nat := fieldValue a i 1
  match code with
  | 1 => some (.setTime (campusArgument a))
  | 2 => some (.referenceLabel (campusArgument a))
  | 3 => (choiceOf LoadChoice.empty .copy (byte 0)).map .loadBegin
  | 4 => some (.loadFragment (byte 0) (a.drop 1))
  | 5 => some (.loadCommit (if a = [] then none else some (BitVec.ofNat 32 (beValue a))))
  | 6 => some .loadAbort
  | 7 => (periodOf (byte 8)).map fun k => .overrideAdd (fieldValue a 0 4) (fieldValue a 4 4) k
  | 8 => some (.overrideRemove (byte 0))
  | 9 => (planItemOf (byte 0) (byte 1) (byte 2)).map .readPlanItem
  | 10 => if byte 0 < 64 then some (.ring (BitVec.ofNat 6 (byte 0)) (byte 1)) else none
  | 11 =>
    (choiceOf Polarity.plus .minus (byte 3)).map fun p =>
      .dialSet (byte 0) (if fieldValue a 1 2 = 0xFFFF then none else some (fieldValue a 1 2)) p
  | 12 => some (.clockClear (byte 0))
  | 13 => some (.readClockCircuit (byte 0))
  | 14 => (postField a 0).map .announce
  | 15 => some (.announceEnd (BitVec.ofNat 8 (byte 0)))
  | 16 => (choiceOf false true (byte 0)).map .drillStart
  | 17 => some .signalStop
  | 18 => some .buildingClear
  | 19 => some .drillEnd
  | 20 => some .alarmReset
  | 21 => (choiceOf RecordChoice.current .last (byte 0)).map .readDrillRecord
  | 22 => some .readStatus
  | 23 => some (.readRosterEntry (byte 0))
  | 24 => encoded lastBank (byte 0) (.readBank (byte 0))
  | 25 => encoded lastBank (byte 0) (.clearBank (byte 0))
  | 26 => some .readNotices
  | 27 => some .restart
  | _ => none

/-- The largest request length that the port accepts (R210). -/
def maxRequestLength : Nat := 46

/-- The sum of the bytes modulo 256 (R210). -/
def byteSum (bs : List Byte) : Byte := bs.foldl (· + ·) 0

/-- A complete request checked in the order of R188: the command, or the cause of BAD. -/
def checkRequest (bs : List Byte) : HeldRequest :=
  let len := fieldValue bs 0 1
  if len < 2 ∨ maxRequestLength < len then .bad .length
  else if byteSum bs ≠ 0 then .bad .check
  else
    let code := fieldValue bs 1 1
    if code < 1 ∨ 27 < code then .bad .command
    else if !argumentCountOk code (len - 2) then .bad .length
    else match commandOf code (field bs 2 (len - 2)) with
      | none => .bad .argument
      | some i => .valid i

/-! ## Configuration memory records (12.5) -/

/-- The bell circuit of an image byte; none when its kind is 3 or its zone is above 7 (R211). -/
def bellConfigOf (b : Byte) : Option BellConfig :=
  let n := b.toNat
  let kind := match n % 4 with
    | 0 => some BellKind.absent
    | 1 => some .relay
    | 2 => some .tone
    | _ => none
  let zone := n / 16
  kind.bind fun k => if h : zone < 8 then some ⟨k, bitOf n 2, bitOf n 3, ⟨zone, h⟩⟩ else none

/-- The clock circuit of four image bytes; none when out of range (R96, R199, R211). -/
def clockConfigOf (bs : List Byte) : Option ClockConfig :=
  let len := fieldValue bs 1 2
  let hold := fieldValue bs 3 1
  match fieldValue bs 0 1 with
  | 0 => some ⟨.absent, len, hold⟩
  | 1 =>
    if 500 ≤ len ∧ len ≤ 2000 ∧ len % 100 = 0 ∧ hold ≤ 120 then some ⟨.impulse, len, hold⟩ else none
  | 2 => some ⟨.coded, len, hold⟩
  | _ => none

/-- A vector of options as an option of a vector. -/
def allSome {α : Type} {n : Nat} (v : Vector (Option α) n) : Option (Vector α n) :=
  match v.toList.mapM id with
  | none => none
  | some l => if h : l.length = n then some ⟨l.toArray, by simp [h]⟩ else none

/-- The station image of its 40 bytes; none when it is bad (R199, R211). -/
def imageOf (bs : List Byte) : Option Image := do
  let bells ← allSome (Vector.ofFn fun i : Fin 6 => bellConfigOf (BitVec.ofNat 8 (fieldValue bs i.val 1)))
  let clocks ← allSome (Vector.ofFn fun i : Fin 4 => clockConfigOf (field bs (6 + 4 * i.val) 4))
  let zones := fieldValue bs 22 1
  let period := fieldValue bs 23 1
  let polarity := fieldValue bs 24 1
  let levels := Vector.ofFn fun i : Fin 12 =>
    let b := fieldValue bs (25 + i.val / 2) 1
    if i.val % 2 = 0 then b / 16 else b % 16
  let threshold := fieldValue bs 31 1
  let enables := Vector.ofFn fun i : Fin 6 => BitVec.ofNat 8 (fieldValue bs (32 + i.val) 1)
  if checkMatches (field bs 0 38) (field bs 38 2) ∧ 1 ≤ zones ∧ zones ≤ 8 ∧ 1 ≤ period ∧ period ≤ 8 ∧
      polarity ≤ 1 ∧ levels.toList.all (fun l => decide (l ≤ 7)) ∧ 1 ≤ threshold ∧ threshold ≤ 7 then
    some ⟨bells, clocks, zones, period, decide (polarity = 1), levels, threshold, enables⟩
  else none

/-- The three bytes of a dial entry (12.5). -/
def dialEntryBytes (e : DialEntry) : List Byte :=
  beBytes 1 (bitValue e.impulse + bitValue (decide (e.polarity = .minus)) * 2 +
    bitValue e.uncertain * 4) ++
  beBytes 2 (e.position.getD 0xFFFF)

/-- The bytes 1 to 14 of a dial record: the entries and the check (R211). -/
def dialBytes (entries : List DialEntry) : List Byte :=
  let body := entries.flatMap dialEntryBytes
  body ++ checkBytes body

/-- The dial entry of three bytes. A position that is no minute of the dial is taken as unknown (log 5). -/
def dialEntryOf (bs : List Byte) : DialEntry :=
  let flags := fieldValue bs 0 1
  let p := fieldValue bs 1 2
  ⟨bitOf flags 0, if p < 720 then some p else none, if bitOf flags 1 then .minus else .plus,
    bitOf flags 2⟩

/-- The dial record of its 15 bytes; none when it is bad (R200, R211). -/
def dialOf (bs : List Byte) : Option (List DialEntry) :=
  if fieldValue bs 0 1 = markSet.toNat ∧ checkMatches (field bs 1 12) (field bs 13 2) then
    some ((List.range 4).map fun i => dialEntryOf (field bs (1 + 3 * i) 3))
  else none

/-! ## Coded clock frame (R108, 12.6) -/

/-- The code of a status of a coded circuit. -/
def codeStatusCode : CodeStatus → Nat
  | .normal => 0
  | .quiet => 1
  | .closed => 2
  | .timeUnsure => 3
  | .drill => 4
  | .alarm => 5

/-- The eight bytes of a code frame (R108, 12.6). -/
def codeFrameBytes (r : Reading) (status : CodeStatus) (station : StationNo) : List Byte :=
  let front : List Byte := [0x3A] ++
    (if r.valid then
      [1] ++ beBytes 1 (minuteOfDay r.time / 60) ++ beBytes 1 (minuteOfDay r.time % 60) ++
        beBytes 1 (weekday r.time.day)
    else [0, 0xFF, 0xFF, 0xFF]) ++
    beBytes 1 (codeStatusCode status) ++ beBytes 1 station.val
  front ++ [0 - byteSum front]

/-- A byte of a code frame in bits: a start bit, eight data bits least significant first, and a stop bit (12.6). That
the start bit is a 0 and the stop bit a 1 is PRESUMED (log 74). -/
def codeByteBits (b : Byte) : List Bool :=
  false :: (List.range 8).map b.getLsbD ++ [true]

/-- The bits of a code frame, in the order in which they are sent (R108, 12.6). -/
def codeBits (frame : List Byte) : List Bool := frame.flatMap codeByteBits

end Sys2Proof.Machine
end

