-- ==== Sys2Proof/Machine/PlanData.lean ====
section
/-! DEFINITION. What a plan says: the shapes of its sections, their assembly, validation, the plan record
and the queries the other blocks make (R53 to R60, R209, 12.3). -/

namespace Sys2Proof.Machine

open Sys2Proof

/-- A section of a plan, parsed (12.3). -/
inductive Section where
  | header (total : Nat) (patterns : List (Option (List Pulse))) (evacLimit assembleLimit : Nat)
  | calendar (weekdays : List Nat) (exceptions : List (Nat × Nat))
  | ranges (program : Nat) (default : Nat) (ranges : List Span)
  | bells (program : Nat) (first : Nat) (entries : List BellEntry)
  | overrides (list : List Span)
deriving DecidableEq, Repr

/-- The list cut into pieces of k bytes, n of them. -/
def chunks (k : Nat) : Nat → List Byte → List (List Byte)
  | 0, _ => []
  | n + 1, bs => bs.take k :: chunks k n (bs.drop k)

/-- Every element of a list of options, or none. -/
def allOptions {α : Type} (l : List (Option α)) : Option (List α) := l.mapM id

/-- The pulses of two bytes each. -/
def pulsesOf (n : Nat) (bs : List Byte) : List Pulse :=
  (chunks 2 n bs).map fun p => ⟨fieldValue p 0 1, fieldValue p 1 1⟩

/-- The eight patterns of the header, by their pulse counts; a count of 0 is an absent pattern. -/
def patternsOf : List Nat → List Byte → List (Option (List Pulse))
  | [], _ => []
  | 0 :: counts, bs => none :: patternsOf counts bs
  | n :: counts, bs => some (pulsesOf n bs) :: patternsOf counts (bs.drop (2 * n))

/-- The pulse counts of patterns 0 to 7 (12.3). -/
def pulseCounts (bs : List Byte) : List Nat :=
  (field bs 2 4).flatMap fun b => [b.toNat / 16, b.toNat % 16]

/-- A HEADER section, when it is shaped as one. -/
def headerOf (bs : List Byte) : Option Section :=
  let counts := pulseCounts bs
  let p := counts.sum
  if fieldValue bs 0 1 = 0 ∧ 10 ≤ bs.length ∧ counts.all (fun c => decide (c ≤ 6)) ∧
      bs.length = 10 + 2 * p then
    some (.header (fieldValue bs 1 1) (patternsOf counts (field bs 6 (2 * p)))
      (fieldValue bs (6 + 2 * p) 2) (fieldValue bs (8 + 2 * p) 2))
  else none

/-- A CALENDAR section, when it is shaped as one. -/
def calendarOf (bs : List Byte) : Option Section :=
  let e := fieldValue bs 8 1
  if fieldValue bs 0 1 = 16 ∧ 9 ≤ bs.length ∧ e ≤ 8 ∧ bs.length = 9 + 3 * e then
    some (.calendar ((field bs 1 7).map (·.toNat))
      ((chunks 3 e (bs.drop 9)).map fun x => (fieldValue x 0 2, fieldValue x 2 1)))
  else none

/-- A span of start and end of w bytes each and a kind. -/
def spanOf (w : Nat) (x : List Byte) : Span := ⟨fieldValue x 0 w, fieldValue x w w, fieldValue x (2 * w) 1⟩

/-- A RANGES section, when it is shaped as one. -/
def rangesOf (bs : List Byte) : Option Section :=
  let t := fieldValue bs 0 1
  let c := fieldValue bs 1 1
  let r := c % 16
  if t / 16 = 2 ∧ 2 ≤ bs.length ∧ r ≤ 8 ∧ bs.length = 2 + 5 * r then
    some (.ranges (t % 16) (c / 16) ((chunks 5 r (bs.drop 2)).map (spanOf 2)))
  else none

/-- A bell entry of six bytes; none when a bit shown as 0 is set. -/
def bellEntryOf (x : List Byte) : Option BellEntry :=
  let w := fieldValue x 0 3
  let mask := fieldValue x 3 1
  if w / 131072 % 8 = 0 ∧ mask < 64 then
    some ⟨w % 131072, w / 1048576 % 8, BitVec.ofNat 6 mask, BitVec.ofNat 16 (fieldValue x 4 2),
      bitOf w 23⟩
  else none

/-- A BELLS section, when it is shaped as one. -/
def bellsOf (bs : List Byte) : Option Section :=
  let t := fieldValue bs 0 1
  let n := fieldValue bs 2 1
  if t / 16 = 3 ∧ 3 ≤ bs.length ∧ 1 ≤ n ∧ n ≤ 6 ∧ bs.length = 3 + 6 * n then
    (allOptions ((chunks 6 n (bs.drop 3)).map bellEntryOf)).map fun es =>
      .bells (t % 16) (fieldValue bs 1 1) es
  else none

/-- An OVERRIDES section, when it is shaped as one. -/
def overridesOf (bs : List Byte) : Option Section :=
  let v := fieldValue bs 1 1
  if fieldValue bs 0 1 = 64 ∧ 2 ≤ bs.length ∧ v ≤ 4 ∧ bs.length = 2 + 9 * v then
    some (.overrides ((chunks 9 v (bs.drop 2)).map (spanOf 4)))
  else none

/-- A section, when it is shaped as its type requires (R209). -/
def sectionOf (bs : List Byte) : Option Section :=
  match bs with
  | [] => none
  | b :: _ =>
    match b.toNat / 16 with
    | 0 => headerOf bs
    | 1 => calendarOf bs
    | 2 => rangesOf bs
    | 3 => bellsOf bs
    | 4 => overridesOf bs
    | _ => none

/-- The bytes of an OVERRIDES section (12.3). -/
def overridesBytes (l : List Span) : List Byte :=
  [0x40] ++ beBytes 1 l.length ++
  l.flatMap fun o => beBytes 4 o.first ++ beBytes 4 o.last ++ beBytes 1 o.kind

/-- A program of the plan (R54). -/
structure Program where
  default : Nat
  ranges : List Span
  bells : List BellEntry
deriving DecidableEq, Repr

/-- The whole content of a plan (R53 to R55). -/
structure PlanContent where
  total : Nat
  patterns : List (Option (List Pulse))
  evacLimit : Nat
  assembleLimit : Nat
  weekdays : List (List Nat)
  exceptions : List (Nat × Nat)
  programs : List Program
  overrides : List Span
deriving DecidableEq, Repr

/-- The CALENDAR sections at the front, and the rest. -/
def takeCalendars : List Section → List (List Nat × List (Nat × Nat)) × List Section
  | .calendar w e :: rest => let (cs, r) := takeCalendars rest; ((w, e) :: cs, r)
  | rest => ([], rest)

/-- The BELLS sections of program p at the front, and the rest. -/
def takeBells (p : Nat) : List Section → List (Nat × List BellEntry) × List Section
  | .bells q f es :: rest =>
    if q = p then let (bs, r) := takeBells p rest; ((f, es) :: bs, r)
    else ([], .bells q f es :: rest)
  | rest => ([], rest)

/-- Every list but the last is of this length. -/
def filledBut {α : Type} (n : Nat) (l : List (List α)) : Bool :=
  l.dropLast.all fun x => decide (x.length = n)

/-- The BELLS fragments of a program carry rising first-entry indices, six entries in each but the last,
at most eight fragments (R59). -/
def bellsFilled (l : List (Nat × List BellEntry)) : Bool :=
  decide (l.length ≤ 8) && filledBut 6 (l.map (·.2)) &&
    decide (l.map (·.1) = (List.range l.length).map (6 * ·))

/-- The BELLS of the four programs in order, with what follows. -/
def takePrograms : List (Nat × Nat × List Span) → List Section → Option (List Program × List Section)
  | [], rest => some ([], rest)
  | (p, d, rs) :: ps, rest =>
    let (bs, rest') := takeBells p rest
    if bellsFilled bs then
      (takePrograms ps rest').map fun (qs, r) => (⟨d, rs, bs.flatMap (·.2)⟩ :: qs, r)
    else none

/-- The sections in the order and counts of R59, as a plan's content. -/
def assemblePlan : List Section → Option PlanContent
  | .header total patterns evac asm :: rest =>
    let (cals, rest1) := takeCalendars rest
    if cals.length < 1 ∨ 3 < cals.length ∨ !filledBut 8 (cals.map (·.2)) then none
    else match rest1 with
      | .ranges p0 d0 r0 :: .ranges p1 d1 r1 :: .ranges p2 d2 r2 :: .ranges p3 d3 r3 :: rest2 =>
        if p0 = 0 ∧ p1 = 1 ∧ p2 = 2 ∧ p3 = 3 then
          match takePrograms [(0, d0, r0), (1, d1, r1), (2, d2, r2), (3, d3, r3)] rest2 with
          | some (programs, [.overrides os]) =>
            some ⟨total, patterns, evac, asm, cals.map (·.1), cals.flatMap (·.2), programs, os⟩
          | _ => none
        else none
      | _ => none
  | _ => none

/-- The digest of a plan's fragments (R209). -/
def planDigest (frags : List (List Byte)) : Digest := crc32 frags.flatten

/-- The content of a list of whole fragments, when they are shaped and stand in order. -/
def contentOf (frags : List (List Byte)) : Option PlanContent :=
  (allOptions (frags.map sectionOf)).bind assemblePlan

/-! ## Validation (R60) -/

/-- A program code of the calendar: P0 to P3 or NONE. -/
def programCodeOk (n : Nat) : Bool := decide (n ≤ 4)

/-- Check 2 of R60. -/
def calendarOk (c : PlanContent) : Bool :=
  c.weekdays.all (fun w => w.all programCodeOk) && c.exceptions.all (fun e => programCodeOk e.2) &&
    c.weekdays.all (fun w => decide (some w = c.weekdays.head?)) &&
    decide (c.exceptions.map (·.1)).Nodup

/-- A span lies within [0, bound] and its kind is one of the five. -/
def spanOk (bound : Nat) (r : Span) : Bool :=
  decide (r.first < r.last) && decide (r.last ≤ bound) && (periodOf r.kind).isSome

/-- Check 3 of R60. -/
def rangesOk (c : PlanContent) : Bool :=
  c.programs.all fun p => decide (p.ranges.length ≤ 8) && p.ranges.all (spanOk 1440) &&
    (periodOf p.default).isSome

/-- The seconds of a bell list rise, equal ones allowed. -/
def sortedSeconds : List BellEntry → Bool
  | a :: b :: rest => decide (a.second ≤ b.second) && sortedSeconds (b :: rest)
  | _ => true

/-- Check 4 of R60. -/
def bellOrderOk (c : PlanContent) : Bool :=
  c.programs.all fun p => sortedSeconds p.bells && p.bells.all fun e => decide (e.second ≤ 86399)

/-- No later entry of the list has the same second and shares a circuit bit. -/
def noClash : List BellEntry → Bool
  | [] => true
  | e :: rest =>
    rest.all (fun f => !(decide (e.second = f.second) && decide (e.circuits &&& f.circuits ≠ 0#6))) &&
      noClash rest

/-- Check 5 of R60. -/
def bellClashOk (c : PlanContent) : Bool := c.programs.all fun p => noClash p.bells

/-- Pattern n of a table of patterns, when it is present. -/
def patternAt (patterns : List (Option (List Pulse))) (n : Nat) : Option (List Pulse) :=
  (patterns[n]?).join

/-- Check 6 of R60. -/
def patternRefOk (c : PlanContent) : Bool :=
  c.programs.all fun p => p.bells.all fun e => (patternAt c.patterns e.pattern).isSome

/-- A pulse's times are 1 to 100. -/
def pulseOk (p : Pulse) : Bool :=
  decide (1 ≤ p.on) && decide (p.on ≤ 100) && decide (1 ≤ p.off) && decide (p.off ≤ 100)

/-- Check 7 of R60. -/
def patternsOk (c : PlanContent) : Bool :=
  let present := c.patterns.filterMap id
  (patternAt c.patterns 0).isSome &&
    present.all (fun l => decide (1 ≤ l.length) && decide (l.length ≤ 6) && l.all pulseOk) &&
    decide ((present.map List.length).sum ≤ 16)

/-- Absolute campus minutes end here (R55). -/
def minuteBound : Nat := 94371840

/-- Check 8 of R60. -/
def overridesOk (c : PlanContent) : Bool :=
  decide (c.overrides.length ≤ 4) && c.overrides.all (spanOk minuteBound)

/-- Check 9 of R60. -/
def drillLimitsOk (c : PlanContent) : Bool :=
  decide (60 ≤ c.evacLimit) && decide (c.evacLimit ≤ 900) && decide (300 ≤ c.assembleLimit) &&
    decide (c.assembleLimit ≤ 3600)

/-- The checks 2 to 9 of R60 in order. -/
def contentFault (c : PlanContent) : Option PlanFault :=
  if !calendarOk c then some .calendar
  else if !rangesOk c then some .ranges
  else if !bellOrderOk c then some .bellOrder
  else if !bellClashOk c then some .bellClash
  else if !patternRefOk c then some .patternRef
  else if !patternsOk c then some .patterns
  else if !overridesOk c then some .overrides
  else if !drillLimitsOk c then some .drillLimits
  else none

/-- The total that fragment 0 announces, when it is a HEADER. -/
def headerTotal (frag0 : Option (List Byte)) : Option Nat :=
  match frag0.bind sectionOf with
  | some (.header total _ _ _) => some total
  | _ => none

/-- The candidate: fragments 0 to total − 1, all held; the total of the HEADER is 7 to 41 and is the one
the PLAN frames carried, when they did (R60 check 1, R209). -/
def candidate (frags : List (Option (List Byte))) (carried : Option Nat) : Option (List (List Byte)) :=
  match headerTotal (frags.head?.join) with
  | none => none
  | some total =>
    if 7 ≤ total ∧ total ≤ 41 ∧ total ≤ frags.length ∧ (carried = none ∨ carried = some total) then
      allOptions (frags.take total)
    else none

/-- Validation of a fragment set, with a carried total and an expected digest where there are any: the
fragments of the candidate, or the reason of the first check that fails (R60). -/
def validate (frags : List (Option (List Byte))) (carried : Option Nat) (expected : Option Digest) :
    Except PlanFault (List (List Byte)) :=
  match candidate frags carried with
  | none => .error .fragments
  | some fs =>
    match contentOf fs with
    | none => .error .fragments
    | some c =>
      if expected ≠ none ∧ expected ≠ some (planDigest fs) then .error .fragments
      else match contentFault c with
        | some r => .error r
        | none => .ok fs

/-! ## Plan record (R211, 12.5) -/

/-- A plan as the plan record holds it: key, digest, total and fragments. -/
structure PlanRecord where
  key : Key
  digest : Digest
  total : Nat
  frags : List (List Byte)
deriving DecidableEq, Repr

/-- The largest plan record (12.5). -/
def maxPlanRecord : Nat := 1815

/-- The bytes of a plan record after its valid mark (12.5, R211). -/
def planRecordBytes (p : ActivePlan) : List Byte :=
  let body := keyBytes (some p.key) ++ beBytes 4 p.digest.toNat ++ beBytes 1 p.total ++
    p.frags.flatMap fun f => beBytes 1 f.length ++ f
  body ++ checkBytes body

/-- The fragments of a record, each its length and its section, and the bytes that follow them. -/
def takeFragments : Nat → List Byte → Option (List (List Byte) × List Byte)
  | 0, bs => some ([], bs)
  | _ + 1, [] => none
  | n + 1, b :: bs =>
    if b.toNat ≤ bs.length then
      (takeFragments n (bs.drop b.toNat)).map fun (fs, r) => (bs.take b.toNat :: fs, r)
    else none

/-- The plan record of the bytes of its place in memory; none when it is bad (R200, R211). -/
def planRecordOf (bs : List Byte) : Option PlanRecord := do
  let total := fieldValue bs 8 1
  let key ← keyPresent bs 1
  let (frags, rest) ← takeFragments total (bs.drop 9)
  let size := bs.length - rest.length
  if fieldValue bs 0 1 = markSet.toNat ∧ checkMatches (field bs 1 (size - 1)) (field bs size 2) then
    some ⟨key, BitVec.ofNat 32 (fieldValue bs 4 4), total, frags⟩
  else none

/-! ## Queries (R57, R58) -/

/-- The content of the active plan. -/
def planContent (p : PlanUnit) : Option PlanContent := p.active.bind fun a => contentOf a.frags

/-- The program of a day: 0 to 3, or 4 for NONE (R53). -/
def programOfDay (c : PlanContent) (d : BitVec 16) : Nat :=
  match c.exceptions.find? (fun e => decide (e.1 = d.toNat)) with
  | some e => e.2
  | none => ((c.weekdays.head?).bind (·[weekday d]?)).getD 4

/-- The kind of the highest precedence among codes: the highest code (R55, 12.1). -/
def highestKind (codes : List Nat) : Option PeriodKind :=
  match codes with
  | [] => none
  | c :: cs => periodOf (cs.foldl max c)

/-- The kinds of the spans that cover a minute. -/
def covering (spans : List Span) (m : Nat) : List Nat :=
  (spans.filter fun r => decide (r.first ≤ m) && decide (m < r.last)).map (·.kind)

/-- The effective kind at a campus time under a plan (R57). -/
def effectiveKindIn (c : PlanContent) (t : CampusTime) : PeriodKind :=
  match highestKind (covering c.overrides (absMinute t)) with
  | some k => k
  | none =>
    match c.programs[programOfDay c t.day]? with
    | none => .closed
    | some p =>
      match highestKind (covering p.ranges (minuteOfDay t)) with
      | some k => k
      | none => (periodOf p.default).getD .teaching

/-- The effective kind that the Plan Unit answers to a reading (R57). -/
def effectiveKind (p : PlanUnit) (r : Reading) : PeriodKind :=
  if r.valid then
    match planContent p with
    | none => .teaching
    | some c => effectiveKindIn c r.time
  else .teaching

/-- The kind is QUIET or CLOSED. -/
def quietKind (k : PeriodKind) : Bool := decide (k = .quiet) || decide (k = .closed)

/-- The program of a day with its bell list, or none (R58). -/
def programQuery (p : PlanUnit) (d : BitVec 16) : Option TodayProgram :=
  match planContent p with
  | none => none
  | some c =>
    let n := programOfDay c d
    (c.programs[n]?).map fun q => ⟨n, q.bells⟩

/-- Ring pattern n, or absent (R58). -/
def patternQuery (p : PlanUnit) (n : Nat) : Option (List Pulse) :=
  match planContent p with
  | none => if n = 0 then some [⟨30, 10⟩] else none
  | some c => patternAt c.patterns n

/-- The evacuation and assemble limits in seconds (R58). -/
def drillQuery (p : PlanUnit) : Nat × Nat :=
  match planContent p with
  | none => (180, 1800)
  | some c => (c.evacLimit, c.assembleLimit)

end Sys2Proof.Machine
end

