-- ==== Sys2Proof/Machine/Arbiter.lean ====
section
/-! DEFINITION. The Zone Arbiter: claims, requests, preemption, waiting lists, releases, withdrawals, wait
deadlines, notices, and the outputs that follow (06_zones_and_the_zone_arbiter.md). -/

namespace Sys2Proof.Machine

open Sys2Proof

/-- The resource of a zone. -/
def zoneRes (z : ZoneNo) : ResNo := ⟨z.val, by omega⟩

/-- The chime synth as a resource. -/
def synRes : ResNo := 8

/-- The resources in the order Z0 to Z7, then SYN (R116). -/
def resOrder : List ResNo := List.finRange 9

/-- The drill slot. -/
def drillSlot : SlotNo := 0

/-- The slot of a bell claim slot. -/
def bellSlot (k : BellSlotNo) : SlotNo := ⟨1 + k.val, by omega⟩

/-- The slot of a position of the announcement table. -/
def annSlot (i : TablePos) : SlotNo := ⟨3 + i.val, by omega⟩

/-- The rank of a claim level, 0 the most urgent (R115). -/
def levelRank : ClaimLevel → Nat
  | .alarm => 0
  | .urgent => 1
  | .bell => 2
  | .normal => 3

/-- The wait deadline of a level in milliseconds (R116). -/
def waitLimit : ClaimLevel → Option Nat
  | .alarm => none
  | .urgent => some 10000
  | .bell => some 5000
  | .normal => some 60000

/-- The claim in a slot. -/
def claimIn (a : Arbiter) (slot : SlotNo) : Option Claim := a.slots[slot].claim

/-- The status of a slot's claim for a resource. -/
def statusOf (a : Arbiter) (slot : SlotNo) (r : ResNo) : ResStatus :=
  match claimIn a slot with
  | none => .notAsked
  | some c => c.status[r]

/-- The rank of a slot's claim, less urgent than every level when the slot is free. -/
def slotRank (a : Arbiter) (slot : SlotNo) : Nat :=
  match claimIn a slot with
  | none => 4
  | some c => levelRank c.level

/-- A slot's claim replaced. -/
def setClaim (a : Arbiter) (slot : SlotNo) (c : Option Claim) : Arbiter :=
  { a with slots := a.slots.set slot { a.slots[slot] with claim := c } }

/-- A slot's status for a resource set. -/
def setStatus (a : Arbiter) (slot : SlotNo) (r : ResNo) (st : ResStatus) : Arbiter :=
  match claimIn a slot with
  | none => a
  | some c => setClaim a slot (some { c with status := c.status.set r st })

/-- A resource record replaced. -/
def setRes (a : Arbiter) (r : ResNo) (x : Resource) : Arbiter := { a with res := a.res.set r x }

/-- A notice sent to a slot, after the notices already sent (R123). -/
def notify (a : Arbiter) (slot : SlotNo) (r : ResNo) (k : ClaimNoticeKind) : Arbiter :=
  { a with notices := a.notices ++ [⟨slot, a.slots[slot].number, r, k⟩] }

/-- A waiting list with a slot placed after every claim of its own level or more urgent (R119). -/
def insertWaiter (a : Arbiter) (slot : SlotNo) (l : List SlotNo) : List SlotNo :=
  l.takeWhile (fun w => decide (slotRank a w ≤ slotRank a slot)) ++
    slot :: l.dropWhile (fun w => decide (slotRank a w ≤ slotRank a slot))

/-- A claim takes a resource from its holder (R118). -/
def preempt (a : Arbiter) (slot holder : SlotNo) (r : ResNo) : Arbiter :=
  let a1 := setStatus a holder r (.lost .preempted)
  let a2 := setRes a1 r { a1.res[r] with holder := some slot }
  notify (setStatus a2 slot r .holding) holder r .preempted

/-- A claim joins a waiting list (R119). -/
def joinWaiting (a : Arbiter) (slot : SlotNo) (r : ResNo) : Arbiter :=
  let l := a.res[r].waiting
  if l.length < 4 then
    setStatus (setRes a r { a.res[r] with waiting := insertWaiter a slot l }) slot r .waiting
  else match l.getLast? with
    | none => a
    | some w =>
      if slotRank a slot < slotRank a w then
        let a1 := notify (setStatus a w r (.lost .evicted)) w r .evicted
        setStatus (setRes a1 r { a1.res[r] with waiting := insertWaiter a1 slot l.dropLast })
          slot r .waiting
      else setStatus a slot r (.lost .refused)

/-- A request of a slot's claim for a resource (R117). -/
def request (a : Arbiter) (slot : SlotNo) (r : ResNo) : Arbiter :=
  match claimIn a slot with
  | none => a
  | some c =>
    match c.status[r] with
    | .holding | .waiting => a
    | _ =>
      match a.res[r].holder with
      | none => setStatus (setRes a r { a.res[r] with holder := some slot }) slot r .holding
      | some h =>
        if c.passed then setStatus a slot r (.lost .expired)
        else if levelRank c.level ≤ 1 ∧ levelRank c.level < slotRank a h then preempt a slot h r
        else joinWaiting a slot r

/-- A resource released passes to the first of its waiting list (R120). -/
def release (a : Arbiter) (r : ResNo) : Arbiter :=
  match a.res[r].waiting with
  | [] => setRes a r ⟨none, []⟩
  | g :: rest => notify (setStatus (setRes a r ⟨some g, rest⟩) g r .holding) g r .granted

/-- A slot's claim withdrawn from one resource (R121). -/
def withdrawFrom (a : Arbiter) (slot : SlotNo) (r : ResNo) : Arbiter :=
  match statusOf a slot r with
  | .holding => release (setStatus a slot r (.lost .withdrawn)) r
  | .waiting =>
    let a1 := setStatus a slot r (.lost .withdrawn)
    setRes a1 r { a1.res[r] with waiting := a1.res[r].waiting.filter (fun w => decide (w ≠ slot)) }
  | _ => a

/-- A slot's claim withdrawn whole: from every resource in order, and the slot is free (R121). -/
def withdrawWhole (a : Arbiter) (slot : SlotNo) : Arbiter :=
  setClaim (resOrder.foldl (fun a r => withdrawFrom a slot r) a) slot none

/-- Requests of a slot's claim for resources, in the order given (R116, R117). -/
def requestAll (a : Arbiter) (slot : SlotNo) (rs : List ResNo) : Arbiter :=
  rs.foldl (fun a r => request a slot r) a

/-- A slot without a claim takes the next claim number and a new claim record (R116, steps 2 and 3). -/
def openClaim (a : Arbiter) (now : Count) (slot : SlotNo) (level : ClaimLevel) (bus : Bus) : Arbiter :=
  let c : Claim :=
    ⟨level, bus, Vector.replicate 9 .notAsked, (waitLimit level).map (countAfter now), false, false⟩
  { a with slots := a.slots.set slot ⟨a.slots[slot].number + 1, some c⟩ }

/-- An owner makes a claim in its slot (R116). -/
def makeClaim (a : Arbiter) (now : Count) (slot : SlotNo) (level : ClaimLevel) (bus : Bus)
    (want : ResNo → Bool) : Arbiter :=
  let a1 := if (claimIn a slot).isSome then withdrawWhole a slot else a
  requestAll (openClaim a1 now slot level bus) slot (resOrder.filter want)

/-- One resource of a claim whose wait deadline is reached (R122). -/
def expireOne (a : Arbiter) (slot : SlotNo) (r : ResNo) : Arbiter :=
  match statusOf a slot r with
  | .waiting =>
    let a1 := setRes a r
      { a.res[r] with waiting := a.res[r].waiting.filter (fun w => decide (w ≠ slot)) }
    notify (setStatus a1 slot r (.lost .expired)) slot r .expired
  | _ => a

/-- A claim's wait deadline is reached (R122); a claim with none never expires. -/
def expireWaits (a : Arbiter) (slot : SlotNo) : Arbiter :=
  match claimIn a slot with
  | none => a
  | some c =>
    if c.deadline.isNone then a
    else
      let a1 := setClaim a slot (some { c with passed := true })
      resOrder.foldl (fun a r => expireOne a slot r) a1

/-- A report that a claim of this number starts or stops sounding (R124). -/
def reportSounding (a : Arbiter) (slot : SlotNo) (number : Byte) (b : Bool) : Arbiter :=
  match claimIn a slot with
  | none => a
  | some c =>
    if a.slots[slot].number = number then setClaim a slot (some { c with sounding := b }) else a

/-- The oldest notice sent to a slot. -/
def firstNotice (a : Arbiter) (slot : SlotNo) : Option ClaimNotice :=
  a.notices.find? fun n => decide (n.slot = slot)

/-- The notices without the oldest one sent to a slot. -/
def dropNotice (a : Arbiter) (slot : SlotNo) : Arbiter :=
  { a with notices := a.notices.eraseP fun n => decide (n.slot = slot) }

/-- A notice is acted on when the slot still holds the claim of its number (R123). -/
def noticeLive (a : Arbiter) (n : ClaimNotice) : Bool :=
  (claimIn a n.slot).isSome && decide (a.slots[n.slot].number = n.number)

/-- What the arbiter's answer tells an owner of its claim's resources (R116, step 5). -/
def knownFrom (a : Arbiter) (slot : SlotNo) : Vector Known 9 :=
  Vector.ofFn fun r => match statusOf a slot r with
    | .holding => .holds
    | .waiting => .waits
    | _ => .nothing

/-- What an owner knows after a notice (R123); a grant of a resource for which it no longer waits, since it
has withdrawn from it, concerns a resource no longer held (R121). -/
def knownAfter (k : Vector Known 9) (n : ClaimNotice) : Vector Known 9 :=
  k.set n.res (match n.kind with
    | .granted => if k[n.res] = .waits then .holds else k[n.res]
    | _ => .nothing)

/-- The owner knows of a zone that it holds or waits for. -/
def knowsZone (k : Vector Known 9) : Bool :=
  (List.finRange 8).any fun z => decide (k[zoneRes z] ≠ .nothing)

/-- The owner knows that it holds or waits for SYN. -/
def knowsSyn (k : Vector Known 9) : Bool := decide (k[synRes] ≠ .nothing)

/-! ## Outputs (R125 to R127) -/

/-- Gates are driven for the holder in this operating state: for every claim in RUN, for the drill slot's
claim in JOIN, for none in START and HALT (R127, 11.8). -/
def gatesFor (op : OpState) (slot : SlotNo) : Bool :=
  match op with
  | .run => true
  | .join => decide (slot = drillSlot)
  | _ => false

/-- The claim sounds into its zones: bus B, or bus A with SYN held (R125). -/
def soundsOut (a : Arbiter) (slot : SlotNo) : Bool :=
  match claimIn a slot with
  | none => false
  | some c => c.sounding && (decide (c.bus = .b) || decide (c.status[synRes] = .holding))

/-- The gate of zone Zi (R125, R127). -/
def zoneGate (s : State) (z : ZoneNo) : Bool :=
  zoneExists s.image z && alive s &&
    match s.arb.res[zoneRes z].holder with
    | none => false
    | some h => gatesFor s.start.opState h && soundsOut s.arb h

/-- The bus select of zone Zi: the holder's bus while the gate is on, A otherwise (R125). -/
def busSelect (s : State) (z : ZoneNo) : Bus :=
  if zoneGate s z then
    match (s.arb.res[zoneRes z].holder).bind (claimIn s.arb) with
    | none => .a
    | some c => c.bus
  else .a

/-- The gate of the campus audio pair (R126). -/
def pairGate (s : State) : Bool :=
  (List.finRange 8).any fun z => zoneGate s z && decide (busSelect s z = .b)

end Sys2Proof.Machine
end

