-- ==== Sys2Proof/Machine/SynthPlay.lean ====
section
/-! DEFINITION. The chime synth: its programs, oscillators and envelopes, and how it follows the holder of
SYN (R126, R147 to R150). -/

namespace Sys2Proof.Machine

open Sys2Proof

/-- A part of a program: a note of one or two oscillators, or a silence. Lengths are in samples; no
length is without end. `decay` is the decay half-time in samples. -/
structure Note where
  step1 : BitVec 16
  step2 : BitVec 16
  decay : Option Nat
  length : Option Nat
  silent : Bool
deriving DecidableEq, Repr

/-- A note of oscillator 1 alone; times in ms. -/
def oneTone (step : BitVec 16) (ms decay : Nat) : Note :=
  ⟨step, 0, some (16 * decay), some (16 * ms), false⟩

/-- A silence; its time in ms. -/
def silence (ms : Nat) : Note := ⟨0, 0, none, some (16 * ms), true⟩

/-- The notes of a chime program (R150). -/
def chimeNotes : Chime → List Note
  | .chime2 => [oneTone 3211 600 300, oneTone 2699 900 450]
  | .chime3Up => [oneTone 2142 500 250, oneTone 2699 500 250, oneTone 3211 500 250]
  | .chime3Down => [oneTone 3211 500 250, oneTone 2699 500 250, oneTone 2142 500 250]

/-- An on part of EVACUATION (R150). -/
def evacuationTone : Note := ⟨4096, 0, none, some 8000, false⟩

/-- The parts of one repetition of a program; a chime's repetitions are separated by 500 ms (R150). -/
def programNotes : SynthProgram → List Note
  | .chime c => chimeNotes c ++ [silence 500]
  | .bellTone => [⟨3604, 5407, some 6400, none, false⟩]
  | .evacuation =>
    [evacuationTone, silence 500, evacuationTone, silence 500, evacuationTone, silence 1500]
  | .allClear => [⟨2142, 2699, some 12800, some 32000, false⟩]

/-- The table of amplitudes: entry i is 4095 × sin((2i + 1) × π / 256), rounded (R148). -/
def sineTable : List Nat :=
  [50, 151, 251, 351, 451, 551, 651, 750, 848, 946, 1044, 1141, 1237, 1332, 1427, 1521] ++
  [1613, 1705, 1796, 1886, 1975, 2062, 2148, 2233, 2317, 2399, 2480, 2559, 2636, 2713, 2787, 2860] ++
  [2931, 3000, 3068, 3133, 3197, 3259, 3319, 3377, 3433, 3486, 3538, 3588, 3635, 3680, 3723, 3764] ++
  [3802, 3838, 3872, 3904, 3933, 3960, 3984, 4006, 4026, 4043, 4058, 4070, 4080, 4087, 4092, 4095]

/-- The value of an oscillator at a phase (R148). -/
def oscillator (phase : BitVec 16) : Int :=
  let q := phase.toNat / 16384
  let i := phase.toNat / 256 % 64
  let entry (k : Nat) : Int := (sineTable[k]?.getD 0 : Nat)
  match q with
  | 0 => entry i
  | 1 => entry (63 - i)
  | 2 => -entry i
  | _ => -entry (63 - i)

/-- e is at most 4096 × 2^(−m / H). -/
def belowDecay (h m e : Nat) : Bool := decide (e ^ h * 2 ^ m ≤ 2 ^ (12 * h))

/-- The greatest e at most 4096 × 2^(−m / H), found bit by bit from the top (R149). -/
def decayed (h m : Nat) : Nat :=
  if 12 * h < m then 0
  else [4096, 2048, 1024, 512, 256, 128, 64, 32, 16, 8, 4, 2, 1].foldl
    (fun e b => if e + b ≤ 4096 ∧ belowDecay h m (e + b) then e + b else e) 0

/-- The envelope factor of sample n of a note (R149). -/
def envelope (n : Note) (sample : Nat) : Nat :=
  if n.silent then 0
  else if sample < 160 then 4096 * sample / 160
  else match n.decay with
    | none => 4096
    | some h => decayed h (sample - 160)

/-- The scaled value of an oscillator; one that the note does not use gives 0 (R148, R149). -/
def scaled (step phase : BitVec 16) (e : Nat) : Int :=
  if step = 0 then 0 else (oscillator phase * (e : Int)).tdiv 4096

/-- The program of a holder of SYN: by its slot and level (R147). -/
def programFor (s : State) (slot : SlotNo) : Option SynthProgram × Nat :=
  if slot = drillSlot then
    match claimIn s.arb slot with
    | some c => (some (if c.level = .alarm then .evacuation else .allClear), 1)
    | none => (none, 1)
  else if slot.val ≤ 2 then (some .bellTone, 1)
  else
    let i : TablePos := ⟨slot.val - 3, by omega⟩
    match s.ann.table[i] with
    | some e =>
      match e.kind with
      | .chime c n => (some (.chime c), n)
      | .live _ => (none, 1)
    | none => (none, 1)

/-- The position at the beginning of a note, silent until its first sample. -/
def noteBegin (y : Synth) (note : Nat) : Synth :=
  { y with note := note, sample := 0, phase1 := 0, phase2 := 0, env1 := 0, env2 := 0, out := 0 }

/-- The holder of SYN with its claim number. -/
def synHolder (a : Arbiter) : Option (SlotNo × Byte) :=
  a.res[synRes].holder.map fun slot => (slot, a.slots[slot].number)

/-- The sounding flag of the holder of SYN. -/
def synSounding (a : Arbiter) : Bool :=
  match (a.res[synRes].holder).bind (claimIn a) with
  | none => false
  | some c => c.sounding

/-- The synth takes the holder of SYN and its sounding flag from the arbiter (R126, R147). -/
def followSynth (s : State) : State :=
  let holder := synHolder s.arb
  let sounding := synSounding s.arb
  let y := s.synth
  if holder ≠ y.playing then
    let p := match holder with
      | none => (none, 1)
      | some (slot, _) => programFor s slot
    s.withSynth { Synth.initial with playing := holder, sounding := sounding, program := p.1, repeats := p.2 }
  else if sounding ≠ y.sounding then
    let y1 := { y with sounding := sounding, env1 := 0, env2 := 0, out := 0 }
    s.withSynth (if sounding ∧ y.program = some .bellTone then noteBegin y1 0 else y1)
  else s

/-- The arbiter changed, and the synth follows (R126). -/
def withArbiter (s : State) (a : Arbiter) : State := followSynth (s.withArb a)

/-- The synth plays: its holder is sounding, and in JOIN only for the drill slot (R126, R127). -/
def synthAudible (op : OpState) (y : Synth) : Bool :=
  match y.playing with
  | none => false
  | some (slot, _) => y.sounding && !y.complete && gatesFor op slot

/-- The place after a note: the next note, the next repetition, or complete (R147, R150). -/
def noteEnd (y : Synth) (p : SynthProgram) : Synth :=
  let count := (programNotes p).length
  match p with
  | .chime _ =>
    if y.note + 2 = count ∧ y.repeats ≤ y.repetition + 1 then { y with complete := true }
    else if y.note + 1 < count then noteBegin y (y.note + 1)
    else noteBegin { y with repetition := y.repetition + 1 } 0
  | .allClear => { y with complete := true }
  | _ => noteBegin y (if y.note + 1 < count then y.note + 1 else 0)

/-- One sample period: the output sample at the position, and the position one sample on (R147 to R149). -/
def synthSample (op : OpState) (y : Synth) : Synth :=
  match y.program.bind (fun p => ((programNotes p)[y.note]?).map fun n => (p, n)) with
  | none => { y with env1 := 0, env2 := 0, out := 0 }
  | some (p, n) =>
    if synthAudible op y then
      let e := envelope n y.sample
      let e2 := if n.step2 = 0 then 0 else e
      let v := (scaled n.step1 y.phase1 e + scaled n.step2 y.phase2 e2).tdiv 2
      let y1 := { y with sample := y.sample + 1, phase1 := y.phase1 + n.step1,
                         phase2 := y.phase2 + n.step2 }
      let y2 := if n.length = some (y.sample + 1) then noteEnd y1 p else y1
      { y2 with env1 := e, env2 := e2, out := v }
    else { y with env1 := 0, env2 := 0, out := 0 }

/-- The part of a pulse period for which bus A is high, in 8192nds (R149). -/
def busAHigh (y : Synth) : Int := y.out + 4096

end Sys2Proof.Machine
end

