-- ==== Sys2Proof/Machine/LineOps.lean ====
section
/-! DEFINITION. The transmit queue of the Line Unit, the outcomes told to the owners of its frames, the
serve cursor, and contention (R29, R32 to R42, R75). -/

namespace Sys2Proof.Machine

open Sys2Proof

/-- The class of a frame body. -/
def bodyClass (b : FrameBody) : Nat := frameClass (bodyKind b)

/-- The most frames that the transmit queue holds (R38). -/
def queueMax : Nat := 12

/-- The attempt at which a failing frame is dropped (R36). -/
def attemptMax : Nat := 8

/-- Two frames of the sort of which the queue holds at most one: two BEACONs or two DRILL state frames
(R38, R39). -/
def sameSort : FrameBody → FrameBody → Bool
  | .beacon _, .beacon _ => true
  | .drillState _, .drillState _ => true
  | _, _ => false

/-- A frame's place in the queue: after the frames of its own class or more urgent (R38). -/
def queueInsert (q : List TxEntry) (e : TxEntry) : List TxEntry :=
  q.takeWhile (fun x => decide (bodyClass x.body ≤ bodyClass e.body)) ++
    e :: q.dropWhile (fun x => decide (bodyClass x.body ≤ bodyClass e.body))

/-- A frame as it enters the queue. -/
def newEntry (b : FrameBody) : TxEntry := ⟨b, 0, false⟩

/-- The frames that an offer could evict: of a less urgent class and not in flight (R40). -/
def evictable (b : FrameBody) (e : TxEntry) : Bool :=
  !e.inFlight && decide (bodyClass b < bodyClass e.body)

/-- The list without its last element that satisfies p. -/
def eraseLast {α : Type} (p : α → Bool) (l : List α) : List α := (l.reverse.eraseP p).reverse

/-- A Line Unit after an offer, and the outcomes to be told (R38). -/
structure LineOffer where
  line : LineUnit
  told : List (FrameBody × TxOutcome)
deriving DecidableEq, Repr

/-- An offer that is not a replacement (R40). -/
def offerNew (l : LineUnit) (b : FrameBody) : LineOffer :=
  if l.queue.length < queueMax then
    ⟨{ l with queue := queueInsert l.queue (newEntry b) }, []⟩
  else match l.queue.reverse.find? (evictable b) with
    | some e =>
      ⟨{ l with queue := queueInsert (eraseLast (evictable b) l.queue) (newEntry b) },
        [(e.body, .evicted)]⟩
    | none => ⟨l, [(b, .refused)]⟩

/-- The frame held aside of the sort of b (R39). -/
def heldFor (l : LineUnit) (b : FrameBody) : Option FrameBody :=
  match b with
  | .beacon _ => l.holdBeacon
  | .drillState _ => l.holdDrill
  | _ => none

/-- The hold of the sort of b replaced (R39). -/
def setHold (l : LineUnit) (b : FrameBody) (x : Option FrameBody) : LineUnit :=
  match b with
  | .beacon _ => { l with holdBeacon := x }
  | .drillState _ => { l with holdDrill := x }
  | _ => l

/-- An unsent frame of the sort of b replaced in its place (R39). -/
def replaceSort (q : List TxEntry) (b : FrameBody) : List TxEntry :=
  q.map fun e => if sameSort b e.body then newEntry b else e

/-- An offer where the station sends (R39, R40). -/
def lineOffer (l : LineUnit) (b : FrameBody) : LineOffer :=
  match l.queue.find? (fun e => sameSort b e.body) with
  | some e =>
    if e.inFlight then
      ⟨setHold l b (some b), ((heldFor l b).toList).map fun h => (h, TxOutcome.replaced)⟩
    else ⟨{ l with queue := replaceSort l.queue b }, [(e.body, .replaced)]⟩
  | none => offerNew l b

/-- The station takes offers: in JOIN and RUN, not in LISTEN-ONLY (R42). -/
def takesOffers (s : State) : Bool := working s && !s.line.listenOnly

/-! ## The serve cursor (R75) -/

/-- The active plan's fragment i as a PLAN frame. -/
def planBody (a : ActivePlan) (i : Nat) : FrameBody := .plan a.key i a.total (a.frags[i]?.getD [])

/-- The lowest set serve bit whose fragment is not queued. -/
def nextToServe (p : PlanUnit) : Option Nat :=
  (List.range 48).find? fun i => p.serve.getLsbD i && !p.queued.contains i

/-- The cursor's pause after a refusal, in milliseconds. -/
def servePauseMs : Nat := 1000

/-- One offer of the serve cursor, when there is one to make (R75). -/
def cursorStep (s : State) : State :=
  match s.plan.active, nextToServe s.plan with
  | some a, some i =>
    if s.plan.pausedUntil.isNone ∧ s.plan.queued.length < 2 ∧ takesOffers s then
      let o := offerNew s.line (planBody a i)
      if o.told = [] then
        (s.withLine o.line).withPlan { s.plan with queued := s.plan.queued ++ [i] }
      else
        report (s.withPlan { s.plan with
          pausedUntil := some (countAfter s.time.localCount servePauseMs) }) (.queueOverflow .plan)
    else s
  | _, _ => s

/-- The serve cursor runs: while fewer than two of its fragments are queued (R75). -/
def runCursor (s : State) : State := cursorStep (cursorStep s)

/-! ## Outcomes told to the owners -/

/-- The outcome ends a frame's life as a sent one would, for the spacing of copies (R26, R161). -/
def countsAsSent : TxOutcome → Bool
  | .sent | .dropped | .evicted | .refused => true
  | _ => false

/-- The Time Unit is told the outcome of a SETTIME copy (R26). -/
def toldSettime (t : TimeUnit) (k : Key) (o : TxOutcome) : TimeUnit :=
  match t.setCopies with
  | none => t
  | some c =>
    if c.key = k then
      if countsAsSent o ∧ c.offered < 3 then
        { t with setCopies := some { c with nextAt := some (countAfter t.localCount 2000) } }
      else { t with setCopies := none }
    else t

/-- The Drill Unit is told the outcome of an END copy (R161). -/
def toldEnd (d : DrillUnit) (now : Count) (i : Id) (start : CampusTime) (o : TxOutcome) : DrillUnit :=
  { d with copies := d.copies.filterMap fun c =>
      if c.drill.id = i ∧ c.drill.start = start then
        if countsAsSent o ∧ c.offered < 3 then some { c with nextAt := some (countAfter now 4000) }
        else none
      else some c }

/-- A fragment of the active plan ends its life in the queue (R75). -/
def toldPlan (s : State) (k : Key) (i : Nat) (o : TxOutcome) : State :=
  if (s.plan.active.map (·.key)) = some k ∧ s.plan.queued.contains i then
    let p := { s.plan with queued := s.plan.queued.filter (fun j => decide (j ≠ i)) }
    let cleared := { p with serve := p.serve &&& ~~~(1#48 <<< i) }
    match o with
    | .sent | .suppressed => runCursor (s.withPlan cleared)
    | .dropped | .evicted | .replaced => runCursor (s.withPlan p)
    | .refused =>
      s.withPlan { p with pausedUntil := some (countAfter s.time.localCount servePauseMs) }
    | .discarded => s.withPlan p
  else s

/-- The owner of a frame is told its outcome (R38). -/
def told (s : State) (b : FrameBody) (o : TxOutcome) : State :=
  match b with
  | .settime k _ => s.withTime (toldSettime s.time k o)
  | .drillEnd i start _ true => s.withDrill (toldEnd s.drill s.time.localCount i start o)
  | .plan k i _ _ => toldPlan s k i o
  | _ => s

/-- The owners are told a list of outcomes, in order. -/
def tellAll (s : State) (l : List (FrameBody × TxOutcome)) : State :=
  l.foldl (fun s x => told s x.1 x.2) s

/-- The refused frames of a list of outcomes are recorded as QUEUE OVERFLOW (R40). -/
def reportRefusals (s : State) (l : List (FrameBody × TxOutcome)) : State :=
  l.foldl (fun s x => if x.2 = .refused then report s (.queueOverflow (bodyKind x.1)) else s) s

/-- An owner offers a frame (R38 to R42). -/
def offer (s : State) (b : FrameBody) : State :=
  if takesOffers s then
    let o := lineOffer s.line b
    tellAll (reportRefusals (s.withLine o.line) o.told) o.told
  else told s b .discarded

/-! ## Contention and attempts (R32 to R36) -/

/-- The contention instant of a head frame, as a quiet time in bit times (R32). -/
def contentionAt (l : LineUnit) (station : StationNo) (b : FrameBody) : Nat :=
  16 + 64 * bodyClass b + 2 * station.val +
    (if l.deference ∧ 2 ≤ bodyClass b then 32 else 0)

/-- The station may begin its head frame: RUN, not LISTEN-ONLY, line IDLE (R32, R42). -/
def mayContend (s : State) : Bool :=
  inRun s && !s.line.listenOnly && decide (s.line.activity = .idle) && !s.line.queue.isEmpty

/-- The head frame's contention instant has come (R32, R33). -/
def contentionDue (s : State) : Bool :=
  mayContend s && match s.line.queue with
    | [] => false
    | e :: _ => decide (contentionAt s.line s.start.station e.body ≤ s.line.quiet)

/-- The head of the queue goes into flight (R35). -/
def beginAttempt (l : LineUnit) : LineUnit :=
  match l.queue with
  | [] => l
  | e :: rest => { l with queue := { e with inFlight := true } :: rest, activity := .sending, quiet := 0 }

/-- The frame in flight. -/
def inFlight (l : LineUnit) : Option TxEntry := l.queue.find? (·.inFlight)

/-- The queue without the frame in flight. -/
def withoutFlight (q : List TxEntry) : List TxEntry := q.eraseP (·.inFlight)

/-- The activity of a frame has ended: the quiet time starts from 0 (R29). -/
def activityEnded (l : LineUnit) : LineUnit :=
  { l with quiet := 0, activity := .busy, dominant := false }

/-- A valid frame has ended: the stuck watch runs from now (R47). -/
def validFrameEnded (l : LineUnit) (now : Count) : LineUnit :=
  { activityEnded l with stuckFrom := now }

/-- The capture of the frame on the line is gone (R8). -/
def dropCapture (s : State) : State := s.withTime { s.time with capture := none }

/-- The held frame of a sort enters the queue as a new offer, after its like was sent or dropped (R39). -/
def offerHeld (s : State) (b : FrameBody) : State :=
  match heldFor s.line b with
  | none => s
  | some h => offer (s.withLine (setHold s.line b none)) h

/-- Activity that is not the station's own stands on the line, or does not: the level that is kept while the
station does not watch the line (R29, R200). -/
def lineLevel (s : State) (b : Bool) : State := s.withLine { s.line with dominant := b }

/-- A line that was idle is busy from now on (R47). -/
def busyFrom (l : LineUnit) (now : Count) : LineUnit :=
  if l.activity = .idle then { l with stuckFrom := now } else l

/-- The levels that the station drives on the campus line, one for each bit time of the frame in flight; true
is dominant (R30, R35, R208). -/
def drivenLevels (s : State) : List Bool :=
  match s.line.activity, inFlight s.line with
  | .sending, some e => frameLevels s.start.station e.body
  | _, _ => []

/-- The queue emptied, with the holds; a frame in flight is cut off (R42). -/
def emptyQueue (l : LineUnit) : LineUnit :=
  { l with queue := [], holdBeacon := none, holdDrill := none,
           activity := if l.activity = .sending then .busy else l.activity }

end Sys2Proof.Machine
end

