-- ==== Sys2Proof/Machine/BellOps.lean ====
section
/-! DEFINITION. The Bell Unit: pulse generators, ring requests, tone bells, the drill orders and the
scheduler (04_bells.md). -/

namespace Sys2Proof.Machine

open Sys2Proof

/-! ## Generators and claim slots -/

/-- A generator replaced. -/
def setGen (b : BellUnit) (c : BellNo) (g : Generator) : BellUnit := { b with gens := b.gens.set c g }

/-- A bell claim slot replaced. -/
def setSlot (b : BellUnit) (k : BellSlotNo) (x : Option BellSlot) : BellUnit :=
  { b with slots := b.slots.set k x }

/-- The generator is in ON. -/
def genOn (g : Generator) : Bool :=
  match g.state with
  | .on _ => true
  | _ => false

/-- The output of a bell circuit: asserted for a RELAY circuit in ON in RUN, or in the ON part of the evacuation
pattern in JOIN and RUN (R77, R94, 11.8). -/
def bellOutput (s : State) (c : BellNo) : Bool :=
  alive s && decide (s.image.bells[c].kind = .relay) &&
    match s.bells.gens[c].state with
    | .on _ => inRun s
    | .evac => working s && decide (s.bells.evacPhase % 2 = 0)
    | _ => false

/-- Two ring requests are equal (R78). -/
def sameRequest (a b : RingRequest) : Bool :=
  match a.source, b.source with
  | .scheduled .., .scheduled .. => decide (a = b)
  | _, _ => false

/-- A circuit's usable zone: a TONE circuit with a zone below the zone count (R77). -/
def usableZone (img : Image) (c : BellNo) : Option ZoneNo :=
  let b := img.bells[c]
  if b.kind = .tone ∧ zoneExists img b.zone then some b.zone else none

/-- A bell claim sounds while it holds SYN and a member is in ON (R90). -/
def slotSounds (b : BellUnit) (x : BellSlot) : Bool :=
  decide (x.known[synRes] = .holds) && x.members.any fun c => genOn b.gens[c]

/-- The Bell Unit reports whether a bell claim sounds (R90, R124). -/
def reportBell (s : State) (k : BellSlotNo) : State :=
  match s.bells.slots[k] with
  | none => s
  | some x =>
    withArbiter s (reportSounding s.arb (bellSlot k) x.claimNo (slotSounds s.bells x))

/-- Both bell claims' sounding reported. -/
def reportBells (s : State) : State := reportBell (reportBell s 0) 1

/-- A bell claim withdrawn whole; its slot is free (R91, R92). -/
def freeBellSlot (s : State) (k : BellSlotNo) : State :=
  match s.bells.slots[k] with
  | none => s
  | some _ =>
    withArbiter (s.withBells (setSlot s.bells k none)) (withdrawWhole s.arb (bellSlot k))

/-- A bell claim that has lost SYN or its last zone is withdrawn (R91). -/
def checkBellSlot (s : State) (k : BellSlotNo) : State :=
  match s.bells.slots[k] with
  | none => s
  | some x => if knowsZone x.known && knowsSyn x.known then s else freeBellSlot s k

/-- A slot in use with this pattern and campus second (R89, step 1). -/
def matchingSlot (b : BellUnit) (pattern second : Nat) : Option BellSlotNo :=
  (List.finRange 2).find? fun k => match b.slots[k] with
    | none => false
    | some x => decide (x.pattern = pattern) && decide (x.second = second)

/-- The free slot with the lower number (R89, step 2). -/
def freeSlot (b : BellUnit) : Option BellSlotNo :=
  (List.finRange 2).find? fun k => b.slots[k].isNone

/-- A circuit joins a slot in use, whose claim asks for its zone when it has not yet (R89, step 1). -/
def joinSlot (s : State) (k : BellSlotNo) (c : BellNo) (z : ZoneNo) : State :=
  match s.bells.slots[k] with
  | none => s
  | some x =>
    if x.zones.contains z then
      s.withBells (setSlot s.bells k (some { x with members := x.members ++ [c] }))
    else
      let a := request s.arb (bellSlot k) (zoneRes z)
      let known := x.known.set (zoneRes z) (knownFrom a (bellSlot k))[zoneRes z]
      let y := { x with members := x.members ++ [c], zones := x.zones ++ [z], known := known }
      checkBellSlot (withArbiter (s.withBells (setSlot s.bells k (some y))) a) k

/-- A circuit takes a free slot, with a claim for SYN and its zone (R89, step 2). -/
def takeSlot (s : State) (k : BellSlotNo) (c : BellNo) (z : ZoneNo) (pattern second : Nat) : State :=
  let a := makeClaim s.arb s.time.localCount (bellSlot k) .bell .a
    fun r => decide (r = zoneRes z) || decide (r = synRes)
  let x : BellSlot :=
    ⟨pattern, second, [c], [z], a.slots[bellSlot k].number, knownFrom a (bellSlot k)⟩
  checkBellSlot (withArbiter (s.withBells (setSlot s.bells k (some x))) a) k

/-- A ring that starts on a TONE circuit with a usable zone is carried by a bell claim, or runs silent
(R89). A further ring whose pattern and campus second are those of a slot, after backward steps of campus time,
joins that slot as any ring does: a DESIGN CHOICE (R92, log 62). -/
def carryTone (s : State) (c : BellNo) (z : ZoneNo) (pattern : Nat) : State :=
  let second := absSecond s.time.campus
  match matchingSlot s.bells pattern second with
  | some k => joinSlot s k c z
  | none =>
    match freeSlot s.bells with
    | some k => takeSlot s k c z pattern second
    | none => report s (.toneRingLost c)

/-- The pulses of a pattern as a ring copies them: an absent pattern gives pattern 0 (R79). -/
def ringPulses (p : PlanUnit) (n : Nat) : List Pulse :=
  match patternQuery p n with
  | some l => l
  | none => (patternQuery p 0).getD []

/-- The length of a time in units of 100 ms. -/
def tenths (n : Nat) : Nat := n * 100

/-- A ring starts: ON of the first pulse (R79), and its claim on a TONE circuit (R89). -/
def ringStart (s : State) (c : BellNo) (r : RingRequest) : State :=
  let pulses := ringPulses s.plan r.pattern
  let g : Generator := { s.bells.gens[c] with
    state := .on 0, pulses := pulses, running := some r,
    deadline := (pulses.head?).map fun p => countAfter s.time.localCount (tenths p.on) }
  let s1 := s.withBells (setGen s.bells c g)
  match usableZone s.image c with
  | none => s1
  | some z => reportBells (carryTone s1 c z r.pattern)

/-- A ring request given to a circuit's generator (R80). -/
def takeRequest (s : State) (c : BellNo) (r : RingRequest) : State :=
  if bellExists s.image c then
    let g := s.bells.gens[c]
    match g.state with
    | .idle => ringStart s c r
    | .evac => s
    | _ =>
      if g.running.any (sameRequest r) || g.waiting.any (sameRequest r) then s
      else
        let s1 := s.withBells (setGen s.bells c { g with waiting := some r })
        if g.waiting.isSome then report s1 (.ringMerged c) else s1
  else s

/-- A request given to each existing circuit of a list, in order (R84, R87, R88). -/
def giveRequests (s : State) (cs : List BellNo) (r : RingRequest) : State :=
  cs.foldl (fun s c => takeRequest s c r) s

/-- The circuits of a mask, in circuit order. -/
def circuitsOf (m : CircuitMask) : List BellNo := (List.finRange 6).filter fun c => m.getLsbD c

/-- A circuit's ring has ended: it leaves its slot, and the slot of no member is withdrawn (R92). -/
def endMembership (s : State) (k : BellSlotNo) (c : BellNo) : State :=
  match s.bells.slots[k] with
  | none => s
  | some x =>
    if x.members.contains c then
      let y := { x with members := x.members.filter (fun d => decide (d ≠ c)) }
      let s1 := s.withBells (setSlot s.bells k (some y))
      if y.members = [] then freeBellSlot s1 k else s1
    else s

/-- The circuit leaves both slots. -/
def leaveSlots (s : State) (c : BellNo) : State := endMembership (endMembership s 0 c) 1 c

/-- The on time of a pulse has passed (R79). -/
def pulseOnEnd (s : State) (c : BellNo) : State :=
  let g := s.bells.gens[c]
  match g.state with
  | .on i =>
    reportBells (s.withBells (setGen s.bells c { g with
      state := .off i,
      deadline := (g.pulses[i]?).map fun p => countAfter s.time.localCount (tenths p.off) }))
  | _ => s

/-- The REST of a ring in milliseconds (R79). -/
def restMs : Nat := 1000

/-- The off time of a pulse has passed: the next pulse, or REST after the last (R79, R92). -/
def pulseOffEnd (s : State) (c : BellNo) : State :=
  let g := s.bells.gens[c]
  match g.state with
  | .off i =>
    match g.pulses[i + 1]? with
    | some p =>
      reportBells (s.withBells (setGen s.bells c { g with
        state := .on (i + 1), deadline := some (countAfter s.time.localCount (tenths p.on)) }))
    | none =>
      leaveSlots (s.withBells (setGen s.bells c { g with
        state := .rest, deadline := some (countAfter s.time.localCount restMs) })) c
  | _ => s

/-- The 1 s of REST has passed (R81). -/
def genRestEnd (s : State) (c : BellNo) : State :=
  let g := s.bells.gens[c]
  match g.state with
  | .rest =>
    let s1 := s.withBells (setGen s.bells c Generator.initial)
    match g.waiting with
    | none => s1
    | some r => if s.bells.drillFlag then s1 else ringStart s1 c r
  | _ => s

/-! ## Drill orders (R93 to R95) -/

/-- Every generator changed. -/
def mapGens (b : BellUnit) (f : BellNo → Generator → Generator) : BellUnit :=
  { b with gens := Vector.ofFn fun c => f c b.gens[c] }

/-- The suppress order: the drill flag set, every pending slot empty (R93). -/
def suppressBells (b : BellUnit) : BellUnit :=
  { mapGens b (fun _ g => { g with waiting := none }) with drillFlag := true }

/-- The resume order: the drill flag clear (R93). -/
def resumeBells (b : BellUnit) : BellUnit := { b with drillFlag := false }

/-- The times of the evacuation pattern in milliseconds: on, off, on, off, on, off (R94). -/
def evacTime (phase : Nat) : Nat := if phase = 5 then 1500 else 500

/-- A generator under the evacuation order (R94). -/
def evacGen (img : Image) (c : BellNo) (_ : Generator) : Generator :=
  if img.bells[c].kind = .relay ∧ img.bells[c].alarmCapable then
    { Generator.initial with state := .evac }
  else Generator.initial

/-- Some generator is in EVAC. -/
def anyEvac (b : BellUnit) : Bool := b.gens.toList.any fun g => decide (g.state = .evac)

/-- The evacuation order (R94). -/
def evacuateBells (s : State) : State :=
  let s1 := freeBellSlot (freeBellSlot s 0) 1
  let b := mapGens s1.bells (evacGen s1.image)
  s1.withBells { b with
    evacPhase := 0,
    evacDeadline := if anyEvac b then some (countAfter s1.time.localCount (evacTime 0)) else none }

/-- The stop order: every EVAC generator goes IDLE (R95). -/
def stopBells (b : BellUnit) : BellUnit :=
  { mapGens b (fun _ g => if g.state = .evac then Generator.initial else g) with
    evacPhase := 0, evacDeadline := none }

/-- The evacuation pattern moves to its next part (R94). -/
def evacStep (b : BellUnit) (now : Count) : BellUnit :=
  if anyEvac b then
    let phase := (b.evacPhase + 1) % 6
    { b with evacPhase := phase, evacDeadline := some (countAfter now (evacTime phase)) }
  else b

/-! ## The scheduler (R82 to R86) -/

/-- A scheduled entry as it is found: its day, program, index and entry. -/
structure Scheduled where
  day : BitVec 16
  program : Nat
  index : Nat
  entry : BellEntry
deriving DecidableEq, Repr

/-- The absolute second of a scheduled entry (R83). -/
def scheduledSecond (e : Scheduled) : Nat := e.day.toNat * 86400 + e.entry.second

/-- The scheduler takes up a day: its program, and both counts 0 (R83, step 1). -/
def takeDay (b : BellUnit) (p : PlanUnit) (d : BitVec 16) : BellUnit :=
  if b.dayOfProgram = some d then b
  else { b with dayOfProgram := some d, today := programQuery p d, drillCount := 0, quietCount := 0 }

/-- The bell list of a day: today's program, or the Plan Unit's answer for another day (R83). -/
def dayProgram (b : BellUnit) (p : PlanUnit) (d : BitVec 16) : Option TodayProgram :=
  if b.dayOfProgram = some d then b.today else programQuery p d

/-- The entries of a day's program, with their indices. -/
def dayEntries (b : BellUnit) (p : PlanUnit) (d : BitVec 16) : List Scheduled :=
  match dayProgram b p d with
  | none => []
  | some t => t.entries.zipIdx.map fun (e, i) => ⟨d, t.program, i, e⟩

/-- The day of an absolute second. -/
def dayOfSecond (n : Nat) : BitVec 16 := BitVec.ofNat 16 (n / 86400)

/-- The entries whose absolute second is later than lo and not later than hi, in order (R83, R85). -/
def entriesBetween (b : BellUnit) (p : PlanUnit) (lo hi : Nat) : List Scheduled :=
  let d0 := dayOfSecond lo
  let days := (dayOfSecond hi - d0).toNat + 1
  ((List.range days).flatMap fun k => dayEntries b p (d0 + BitVec.ofNat 16 k)).filter fun e =>
    secondLater (scheduledSecond e) lo && !secondLater (scheduledSecond e) hi

/-- The station is named by a building mask. -/
def addressed (s : State) (m : BuildingMask) : Bool := m.getLsbD s.start.station

/-- A count one higher, stopping at 65,535 (R82). -/
def saturate16 (n : Nat) : Nat := min 65535 n

/-- A scheduled entry fires (R84). -/
def fireEntry (s : State) (e : Scheduled) : State :=
  if addressed s e.entry.buildings then
    if s.bells.drillFlag then
      s.withBells { s.bells with drillCount := saturate16 (s.bells.drillCount + 1) }
    else if quietKind (effectiveKind s.plan ⟨secondTime e.day e.entry.second, true⟩) &&
        !e.entry.always then
      s.withBells { s.bells with quietCount := saturate16 (s.bells.quietCount + 1) }
    else match s.plan.active with
      | none => s
      | some a => giveRequests s (circuitsOf e.entry.circuits)
          ⟨e.entry.pattern, .scheduled a.key e.program e.index (scheduledSecond e)⟩
  else s

/-- The scheduler fires the entries up to second n and the high-water mark becomes n (R83, R85). -/
def fireUpTo (s : State) (hwm n : Nat) : State :=
  let s1 := (entriesBetween s.bells s.plan hwm n).foldl fireEntry s
  s1.withBells { s1.bells with hwm := some n }

/-- The scheduler takes up a day (R83, step 1). -/
def schedulerDay (s : State) (d : BitVec 16) : State := s.withBells (takeDay s.bells s.plan d)

/-- A second boundary reaches the scheduler (R83). -/
def bellSecond (s : State) (r : Reading) : State :=
  if inRun s && r.valid then
    let s1 := schedulerDay s r.time.day
    match s1.bells.hwm with
    | none => s1
    | some h =>
      if secondLater (absSecond r.time) h then fireUpTo s1 h (absSecond r.time) else s1
  else s

/-- The entries dropped by a long step are counted and recorded (R85). -/
def skipUpTo (s : State) (hwm n : Nat) : State :=
  let skipped := (entriesBetween s.bells s.plan hwm n).filter fun e => addressed s e.entry.buildings
  let count := saturate16 skipped.length
  let s1 := s.withBells { s.bells with hwm := some n }
  if count = 0 then s1 else report s1 (.bellsSkipped count)

/-- A step notice reaches the scheduler (R85, R86). -/
def bellStep (s : State) (old new : CampusTime) : State :=
  if inRun s then
    match s.bells.hwm with
    | none => s
    | some h =>
      let s1 := schedulerDay s new.day
      let n := absSecond new
      let d := campusDiff new old
      if 0 < d ∧ secondLater n h then
        if d ≤ 120000 then fireUpTo s1 h n else skipUpTo s1 h n
      else s1
  else s

/-- An establish notice reaches the scheduler (R82, R86). -/
def bellEstablish (s : State) (t : CampusTime) : State :=
  if inRun s ∧ s.bells.hwm = none then
    s.withBells { s.bells with
      hwm := some (absSecond t), dayOfProgram := some t.day, today := programQuery s.plan t.day,
      drillCount := 0, quietCount := 0 }
  else s

/-- Entry to RUN: the high-water mark is set when campus time is valid (R82, R202). -/
def bellEnterRun (s : State) : State :=
  if (currentReading s).valid ∧ s.bells.hwm = none then
    s.withBells { s.bells with hwm := some (absSecond s.time.campus) }
  else s

/-- The plan has changed: today's program is looked up again (R86). -/
def bellPlanChange (s : State) : State :=
  s.withBells { s.bells with today := s.bells.dayOfProgram.bind (programQuery s.plan) }

end Sys2Proof.Machine
end

