-- ==== Sys2Proof/Machine/ClockOps.lean ====
section
/-! DEFINITION. The Clock Unit: evaluation and impulses, code frames and their status, the dial record
(05_room_clock_circuits.md). -/

namespace Sys2Proof.Machine

open Sys2Proof

/-- The kind of a clock circuit. -/
def clockKind (s : State) (c : ClockNo) : ClockKind := s.image.clocks[c].kind

/-- An impulse record replaced. -/
def setImpulse (s : State) (c : ClockNo) (r : ImpulseRecord) : State :=
  s.withClocks (s.clocks.set c { s.clocks[c] with impulse := r })

/-- A coded record replaced. -/
def setCoded (s : State) (c : ClockNo) (r : CodedRecord) : State :=
  s.withClocks (s.clocks.set c { s.clocks[c] with coded := r })

/-! ## Impulse circuits -/

/-- The drive pair of an impulse circuit: energised with the next polarity during an impulse (R100). -/
def impulseDrive (s : State) (c : ClockNo) : Option Polarity :=
  let r := s.clocks[c].impulse
  if alive s && inRun s && decide (clockKind s c = .impulse) && decide (r.cycle = .impulse) then
    some r.polarity
  else none

/-- The distance from a believed position to a campus time's minute (R98). -/
def dialDistance (t : CampusTime) (p : Nat) : Nat := (minuteOfDay t % 720 + 720 - p) % 720

/-- The state of an evaluation and whether it wants an impulse, by the distance and the hold limit (R98). -/
def evaluationOf (d hold : Nat) : ClockState × Bool :=
  if d = 0 then (.running, false)
  else if d = 1 then (.running, true)
  else if d ≤ 719 - hold then (.advancing, true)
  else (.holding, false)

/-- An impulse record with an impulse begun (R100). -/
def impulseBegun (r : ImpulseRecord) (now : Count) (len : Nat) : ImpulseRecord :=
  { r with cycle := .impulse, midpoint := none, midAt := some (countAfter now (len / 2)),
           deadline := some (countAfter now len) }

/-- An impulse record after an evaluation (R98). -/
def evaluated (r : ImpulseRecord) (cfg : ClockConfig) (now : Count) (run : Bool) (t : Reading) :
    ImpulseRecord :=
  if r.state = .faulted then r
  else match r.position with
    | none => { r with state := .stopped }
    | some p =>
      if t.valid then
        let e := evaluationOf (dialDistance t.time p) cfg.holdLimit
        let r1 := { r with state := e.1 }
        if e.2 && decide (r.cycle = .none) && run then impulseBegun r1 now cfg.impulseLength else r1
      else { r with state := .stopped }

/-- An IMPULSE circuit is evaluated with a reading (R98, R99). -/
def evaluate (s : State) (c : ClockNo) (t : Reading) : State :=
  if clockKind s c = .impulse then
    setImpulse s c (evaluated s.clocks[c].impulse s.image.clocks[c] s.time.localCount (inRun s) t)
  else s

/-- Every IMPULSE circuit is evaluated (R99). -/
def evaluateAll (s : State) (t : Reading) : State :=
  (List.finRange 4).foldl (fun s c => evaluate s c t) s

/-- The polarity reversed. -/
def reversed : Polarity → Polarity
  | .plus => .minus
  | .minus => .plus

/-- An impulse record whose impulse was delivered, apart from its cycle (R101). -/
def delivered (r : ImpulseRecord) : ImpulseRecord :=
  { r with position := r.position.map (fun p => (p + 1) % 720), polarity := reversed r.polarity,
           failCount := 0 }

/-- An impulse record at the start of its rest (R101). -/
def resting (r : ImpulseRecord) (now : Count) (len : Nat) : ImpulseRecord :=
  { r with cycle := .rest, midpoint := none, midAt := none, deadline := some (countAfter now len) }

/-- An impulse record with its cycle over (R102, R103). -/
def cycleOver (r : ImpulseRecord) : ImpulseRecord :=
  { r with cycle := .none, midpoint := none, midAt := none, deadline := none }

/-- The impulse of a circuit ends with this midpoint result (R101, R102). -/
def endImpulse (s : State) (c : ClockNo) (result : SenseResult) : State :=
  let r := s.clocks[c].impulse
  let now := s.time.localCount
  let len := s.image.clocks[c].impulseLength
  match result with
  | .delivered => setImpulse s c (resting (delivered r) now len)
  | _ =>
    let n := r.failCount + 1
    let failed := { r with failCount := n }
    if n < 3 then
      report (setImpulse s c (resting failed now len)) (.clockImpulseFailed c result)
    else
      raise (report (report (setImpulse s c (cycleOver { failed with state := .faulted }))
        (.clockImpulseFailed c result)) (.clockCircuitFaulted c)) .clockAttention

/-- The circuit is an IMPULSE circuit with an impulse in progress. -/
def impulseRunning (s : State) (c : ClockNo) : Bool :=
  decide (clockKind s c = .impulse) && decide (s.clocks[c].impulse.cycle = .impulse)

/-- Half the impulse length has passed and the line sense gives its result (R100). -/
def impulseMid (s : State) (c : ClockNo) (result : SenseResult) : State :=
  if impulseRunning s c ∧ s.clocks[c].impulse.midpoint = none then
    let s1 := setImpulse s c { s.clocks[c].impulse with midpoint := some result, midAt := none }
    if result = .short then endImpulse s1 c .short else s1
  else s

/-- The impulse's length has run out (R101). -/
def impulseOver (s : State) (c : ClockNo) : State :=
  if impulseRunning s c then
    match s.clocks[c].impulse.midpoint with
    | none => s
    | some result => endImpulse s c result
  else s

/-- The rest of a circuit has ended: it is evaluated (R101). -/
def restOver (s : State) (c : ClockNo) : State :=
  if clockKind s c = .impulse ∧ s.clocks[c].impulse.cycle = .rest then
    evaluate (setImpulse s c (cycleOver s.clocks[c].impulse)) c (currentReading s)
  else s

/-- An impulse record at RESTART: an impulse in progress is cut, p and polarity are kept (R103, R113). After a midpoint
result of OPEN, which R103 does not name, the cut counts no failure either: a DESIGN CHOICE (log 68). -/
def restartImpulse (r : ImpulseRecord) : ImpulseRecord :=
  let r1 := if r.cycle = .impulse ∧ r.midpoint = some .delivered then delivered r else r
  { cycleOver r1 with failCount := 0, state := .stopped }

/-- An impulse record at entry to HALT: an impulse in progress is cut, the rest is as before (R103). -/
def haltImpulse (r : ImpulseRecord) : ImpulseRecord :=
  if r.cycle = .impulse then cycleOver r else r

/-! ## Coded circuits -/

/-- The status of the coded circuits (R109). -/
def codeStatus (s : State) (r : Reading) : CodeStatus :=
  match s.drill.state, s.drill.record with
  | .idle, _ | _, none =>
    if s.time.quality = .unset ∨ s.time.quality = .isolated then .timeUnsure
    else match effectiveKind s.plan r with
      | .closed => .closed
      | .quiet => .quiet
      | _ => .normal
  | _, some d => if d.kind = .real then .alarm else .drill

/-- The bit of a code frame that stands on the line after these 16 µs bit times, counted from its first start bit: at
1200 baud 12 bits take 625 of them (R108, 12.6, log 14). -/
def codeBitNow (ticks : Nat) : Nat := ticks * 12 / 625

/-- The drive pair of a coded circuit: the bit of its frame that is being sent, and off between frames (R96, R108,
12.6); that a bit drives the pair with its own value, the start bit a 0 and the stop bit a 1, is PRESUMED (log 74). -/
def codeDrive (s : State) (c : ClockNo) : Option Bool :=
  let x := s.clocks[c].coded
  if alive s && inRun s && decide (clockKind s c = .coded) && x.sending then
    (codeBits x.frame)[codeBitNow x.frameTicks]?
  else none

/-- The frame of a coded circuit has been sent to its last bit (R108). -/
def codeSent (x : CodedRecord) : Bool := decide ((codeBits x.frame).length ≤ codeBitNow x.frameTicks)

/-- A coded record one bit time later: a frame on the circuit goes on (R108). -/
def codePassed (x : CodedRecord) : CodedRecord :=
  if x.sending then { x with frameTicks := x.frameTicks + 1 } else x

/-- A coded record with the frame of this reading and status begun (R110). -/
def codeBegun (x : CodedRecord) (r : Reading) (st : CodeStatus) (station : StationNo) : CodedRecord :=
  { x with sending := true, lastStatus := some st, frame := codeFrameBytes r st station, frameTicks := 0 }

/-- A coded record with no frame on the circuit: the drive pair is off (R110, R113). -/
def codeOff (x : CodedRecord) : CodedRecord :=
  { x with sending := false, resend := false, frame := [], frameTicks := 0 }

/-- A coded circuit begins a frame with a reading, or sets its resend flag while it is sending (R110). -/
def beginCode (s : State) (r : Reading) (c : ClockNo) : State :=
  let x := s.clocks[c].coded
  if clockKind s c = .coded ∧ inRun s then
    if x.sending then setCoded s c { x with resend := true }
    else setCoded s c (codeBegun x r (codeStatus s r) s.start.station)
  else s

/-- Every coded circuit begins a frame (R110). -/
def beginCodes (s : State) (r : Reading) : State :=
  (List.finRange 4).foldl (fun s c => beginCode s r c) s

/-- A status computation: a circuit whose last frame carried another status begins a frame (R110). -/
def statusCode (s : State) (r : Reading) (c : ClockNo) : State :=
  if s.clocks[c].coded.lastStatus = some (codeStatus s r) then s else beginCode s r c

/-- The status of every coded circuit is computed (R109, R110). -/
def computeStatus (s : State) : State :=
  (List.finRange 4).foldl (fun s c => statusCode s (currentReading s) c) s

/-- A code frame ends, and the next begins when the resend flag is set (R110). -/
def codeEnd (s : State) (c : ClockNo) : State :=
  let x := s.clocks[c].coded
  if clockKind s c = .coded ∧ x.sending then
    let s1 := setCoded s c (codeOff x)
    if x.resend then beginCode s1 (currentReading s1) c else s1
  else s

/-! ## Notices of the other blocks -/

/-- The Clock Unit at a reading that all its circuits take: evaluations and code frames (R99, R110). The frame that an
event begins takes the status of that moment, so the status computation of the same event differs from no last status
and sets no resend flag: a DESIGN CHOICE (R109, R110, log 71). -/
def clockAll (s : State) (r : Reading) : State := beginCodes (evaluateAll s r) r

/-! ## Dial record (R111, R112) -/

/-- The entry of a circuit in the dial record (R111). The position, polarity and uncertain flag of a circuit that
is not IMPULSE have no values in R111: unknown, + and not uncertain are a DESIGN CHOICE (log 52). -/
def dialEntry (s : State) (c : ClockNo) : DialEntry :=
  let r := s.clocks[c].impulse
  if clockKind s c = .impulse then ⟨true, r.position, r.polarity, decide (r.cycle = .impulse)⟩
  else ⟨false, none, .plus, false⟩

/-- The entries of the dial record (R111). -/
def dialEntries (s : State) : List DialEntry := (List.finRange 4).map (dialEntry s)

/-- The position and polarity that a record gives a circuit, and whether it was uncertain (R112). -/
def restoredFrom (e : Option DialEntry) : Option Nat × Polarity × Bool :=
  match e with
  | none => (none, .plus, false)
  | some e =>
    if !e.impulse then (none, .plus, false)
    else if e.uncertain then (none, e.polarity, true)
    else (e.position, e.polarity, false)

/-- An IMPULSE circuit takes its position and polarity from the dial record (R112). -/
def restoreDial (s : State) (entries : Option (List DialEntry)) (c : ClockNo) : State :=
  if clockKind s c = .impulse then
    let x := restoredFrom (entries.bind (·[c.val]?))
    let s1 := setImpulse s c { ImpulseRecord.initial with position := x.1, polarity := x.2.1 }
    let s2 := if x.2.2 then report s1 (.dialUncertain c) else s1
    if x.1.isNone then raise s2 .clockAttention else s2
  else s

/-- Every IMPULSE circuit takes its position from the dial record (R112), C0 first: the order of their records is a
DESIGN CHOICE (log 53). -/
def restoreDials (s : State) (entries : Option (List DialEntry)) : State :=
  (List.finRange 4).foldl (fun s c => restoreDial s entries c) s

/-- Some IMPULSE circuit has its position unknown. -/
def dialUnknown (s : State) : Bool :=
  (List.finRange 4).any fun c =>
    decide (clockKind s c = .impulse) && s.clocks[c].impulse.position.isNone

end Sys2Proof.Machine
end

