-- ==== Sys2Proof/Machine/AnnounceOps.lean ====
section
/-! DEFINITION. The Announcement Unit: the table, admission, LIVE precedence, starting, hope and ending
(07_announcements_and_chimes.md, 7.1 to 7.7). -/

namespace Sys2Proof.Machine

open Sys2Proof

/-- An announcement as admission and LIVE precedence see it: its origin and what its frame carries. -/
structure Announcement where
  id : Id
  start : CampusTime
  post : AnnPost
deriving DecidableEq, Repr

/-- A table position replaced. -/
def setEntry (s : State) (i : TablePos) (x : Option AnnEntry) : State :=
  s.withAnn { s.ann with table := s.ann.table.set i x }

/-- The position of the entry with this id and start time (R130). -/
def findEntry (a : AnnUnit) (id : Id) (start : CampusTime) : Option TablePos :=
  (List.finRange 4).find? fun i => match a.table[i] with
    | none => false
    | some e => decide (e.id = id) && decide (e.start = start)

/-- The free position with the lowest number (R137). -/
def freePosition (a : AnnUnit) : Option TablePos :=
  (List.finRange 4).find? fun i => a.table[i].isNone

/-- The entry is LIVE. -/
def isLive (k : AnnKind) : Bool :=
  match k with
  | .live _ => true
  | .chime _ _ => false

/-- The position of the LIVE entry of the table (R132). -/
def liveEntry (a : AnnUnit) : Option TablePos :=
  (List.finRange 4).find? fun i => match a.table[i] with
    | none => false
    | some e => isLive e.kind

/-- The campus live record holds this announcement. -/
def isLiveRecord (a : AnnUnit) (id : Id) (start : CampusTime) : Bool :=
  match a.live with
  | none => false
  | some r => decide (r.id = id) && decide (r.start = start)

/-- The campus live record becomes none, when no LIVE entry stands in the table: such an entry is the announcement
in the record (R132, log 58). -/
def dropLive (s : State) : State :=
  if (liveEntry s.ann).isSome then s else s.withAnn { s.ann with live := none }

/-- The campus live record none when it holds this announcement (R144, R145). -/
def clearLive (s : State) (id : Id) (start : CampusTime) : State :=
  if isLiveRecord s.ann id start then dropLive s else s

/-- An entry ends with an outcome (R143). -/
def endEntry (s : State) (i : TablePos) (o : AnnOutcome) : State :=
  match s.ann.table[i] with
  | none => s
  | some e =>
    let s1 := withArbiter s (withdrawWhole s.arb (annSlot i))
    let s2 := setEntry s1 i none
    if e.id.origin = s.start.station then
      raise (s2.withAnn { s2.ann with lastOwn := some ⟨e.id.seq, e.start, e.kind, o⟩ })
        .announceEnded
    else s2

/-- The entry neither holds nor waits for a zone, or is a CHIME without SYN (R140). -/
def hopeless (e : AnnEntry) : Bool := !knowsZone e.known || (!isLive e.kind && !knowsSyn e.known)

/-- An entry that ends ZONES UNAVAILABLE records it (R139, R140). -/
def endUnavailable (s : State) (i : TablePos) (id : Id) : State :=
  report (endEntry s i .zonesUnavailable) (.zonesUnavailable id)

/-- The check for hope after the arbiter's answer or a notice (R140). -/
def checkHope (s : State) (i : TablePos) (preempted : Bool) : State :=
  match s.ann.table[i] with
  | none => s
  | some e =>
    if hopeless e then
      if preempted then endEntry s i .preempted else endUnavailable s i e.id
    else s

/-! ## Starting (R138, R139) -/

/-- A resource for which an entry waits is withdrawn (R139, step 1). -/
def dropWait (known : Vector Known 9) (slot : SlotNo) (a : Arbiter) (r : ResNo) : Arbiter :=
  if known[r] = .waits then withdrawFrom a slot r else a

/-- What an entry knows once its waits are withdrawn. -/
def withoutWaits (known : Vector Known 9) : Vector Known 9 :=
  Vector.ofFn fun r : Fin 9 => if known[r] = .waits then .nothing else known[r]

/-- The limit of a LIVE entry as it plays, in seconds: at most 60 when NORMAL in TEACHING (R139). -/
def playingLimit (level : AnnLevel) (k : PeriodKind) (limit : Nat) : Nat :=
  if level = .normal ∧ k = .teaching then min limit 60 else limit

/-- The kind of an entry as it plays: a LIVE entry's limit is cut (R139, step 5). -/
def playingKind (level : AnnLevel) (k : PeriodKind) : AnnKind → AnnKind
  | .live limit => .live (playingLimit level k limit)
  | .chime c n => .chime c n

/-- The end deadline of an entry that begins to play now: its limit away for LIVE, none for CHIME (R139,
step 5). -/
def playingDeadline (now : Count) : AnnKind → Option Count
  | .live limit => some (countAfter now (1000 * limit))
  | .chime _ _ => none

/-- The entry becomes PLAYING (R139, steps 5 and 6). -/
def playEntry (s : State) (i : TablePos) (e : AnnEntry) : State :=
  let kind := playingKind e.level (effectiveKind s.plan (currentReading s)) e.kind
  let s1 := setEntry s i (some { e with
    kind := kind, state := .playing, deadline := playingDeadline s.time.localCount kind })
  let s2 := withArbiter s1 (reportSounding s1.arb (annSlot i) e.claimNo true)
  if e.id.origin = s.start.station then raise s2 .announceGo else s2

/-- A GATHERING entry starts (R139). -/
def startEntry (s : State) (i : TablePos) : State :=
  match s.ann.table[i] with
  | none => s
  | some e =>
    if e.state = .gathering then
      let e1 := { e with known := withoutWaits e.known }
      let s1 := withArbiter (setEntry s i (some e1))
        (resOrder.foldl (dropWait e.known (annSlot i)) s.arb)
      if hopeless e1 then endUnavailable s1 i e.id
      else if s1.drill.state ≠ .idle ∧ e.level = .normal then endEntry s1 i .cancelled
      else if quietKind (effectiveKind s1.plan (currentReading s1)) ∧ e.level = .normal then
        endEntry s1 i .cancelled
      else playEntry s1 i e1
    else s

/-- A step notice reaches an entry: one whose start the new time has reached starts (R138). -/
def stepEntry (new : CampusTime) (s : State) (i : TablePos) : State :=
  match s.ann.table[i] with
  | none => s
  | some e =>
    if e.trigger = .campus ∧ campusReached new e.start then startEntry s i else s

/-- A step notice reaches the Announcement Unit; entries that it starts together start in order of position, a
DESIGN CHOICE (R138, log 59). -/
def annStep (s : State) (new : CampusTime) : State := (List.finRange 4).foldl (stepEntry new) s

/-! ## LIVE precedence (R136) -/

/-- The campus live record of an announcement set now (R132). -/
def liveRecordOf (s : State) (id : Id) (start : CampusTime) (limit : Nat) : LiveRecord :=
  ⟨id, start, limit, countAfter s.time.localCount (10000 + 1000 * limit)⟩

/-- A LIVE announcement wins the campus audio pair against the record (R136). The record is kept against one of its own
origin whose start day lies 32,768 from its own, which R2 does not rank: a DESIGN CHOICE (log 70). -/
def winsLive (a : AnnUnit) (id : Id) (start : CampusTime) : Bool :=
  match a.live with
  | none => true
  | some r => startPrecedes start id.origin r.start r.id.origin

/-- An entry that is LIVE ends CANCELLED; an own one is announced ended first (R136). -/
def cancelEntry (s : State) (i : TablePos) : State :=
  match s.ann.table[i] with
  | none => s
  | some e =>
    if isLive e.kind then
      let s1 := if e.id.origin = s.start.station then offer s (.annend e.id.seq e.start) else s
      report (endEntry s1 i .cancelled) (.liveConflict e.id)
    else s

/-- The LIVE entry of the table, of which there is at most one, ends CANCELLED (R132, R136). -/
def cancelLive (s : State) : State := (List.finRange 4).foldl cancelEntry s

/-- A LIVE announcement is judged against the campus live record (R136). -/
def judgeLive (s : State) (id : Id) (start : CampusTime) (limit : Nat) : State :=
  if winsLive s.ann id start then
    let s1 := cancelLive s
    s1.withAnn { s1.ann with live := some (liveRecordOf s id start limit) }
  else s

/-! ## Admission (R135) -/

/-- The existing zones of a zone mask (R130). -/
def maskZones (img : Image) (m : ZoneMask) : ZoneMask :=
  (existingZones img).foldl (fun acc (z : ZoneNo) => if m.getLsbD z.val then acc ||| (1#8 <<< z.val) else acc) 0

/-- The drill state admits a level (R135, condition 3). -/
def drillAdmits (d : DrillState) (l : AnnLevel) : Bool :=
  match d with
  | .idle => true
  | .evacuate => false
  | .assemble | .allClear => decide (l = .urgent)

/-- The period kind admits a level (R135, condition 4). -/
def periodAdmits (k : PeriodKind) (l : AnnLevel) : Bool := !quietKind k || decide (l = .urgent)

/-- The first condition of admission that fails; `liveOk` is condition 6 as the caller judges it (R135). -/
def admissionRefusal (s : State) (p : AnnPost) (liveOk : Bool) : Option Reason :=
  if !addressed s p.buildings then some .notAddressed
  else if maskZones s.image p.zones = 0 then some .noZones
  else if !drillAdmits s.drill.state p.level then some .drill
  else if !periodAdmits (effectiveKind s.plan (currentReading s)) p.level then some .period
  else if (freePosition s.ann).isNone then some .tableFull
  else if isLive p.kind && !liveOk then some .liveConflict
  else none

/-- A refused admission records the fault of its condition (R135). -/
def admissionFault (s : State) (r : Reason) (id : Id) : State :=
  match r with
  | .tableFull => report s (.announcementTableFull id)
  | .liveConflict => report s (.liveConflict id)
  | _ => s

/-- The claim level of an announcement level (R137). -/
def annClaimLevel : AnnLevel → ClaimLevel
  | .urgent => .urgent
  | .normal => .normal

/-- The resources that an entry claims: its zones, and SYN for a CHIME (R137). -/
def annWants (k : AnnKind) (zones : ZoneMask) (r : ResNo) : Bool :=
  if r.val < 8 then zones.getLsbD r.val else !isLive k

/-- A new entry, GATHERING (R137). -/
def newAnnEntry (s : State) (a : Announcement) (claimNo : Byte) : AnnEntry where
  id := a.id
  start := a.start
  level := a.post.level
  kind := a.post.kind
  zones := maskZones s.image a.post.zones
  claimNo := claimNo
  state := .gathering
  trigger := if s.time.quality = .unset then .localAt (countAfter s.time.localCount 3000) else .campus
  deadline := some (countAfter s.time.localCount 10000)
  known := Vector.replicate 9 .nothing

/-- An admitted announcement takes the lowest free position and makes its claim (R137). -/
def gatherAt (s : State) (i : TablePos) (a : Announcement) : State :=
  let slot := annSlot i
  let e := newAnnEntry s a (s.arb.slots[slot].number + 1)
  let arb := makeClaim s.arb s.time.localCount slot (annClaimLevel a.post.level)
    (if isLive a.post.kind then .b else .a) (annWants a.post.kind e.zones)
  checkHope (withArbiter (setEntry s i (some { e with known := knownFrom arb slot })) arb) i false

/-- An admitted announcement's entry is made and gathers (R137). -/
def takeAnnouncement (s : State) (a : Announcement) : State :=
  match freePosition s.ann with
  | none => s
  | some i => gatherAt s i a

/-- A received entry whose start time has already passed starts at once after its claim is made (R138). An entry with
trigger LOCAL, at an UNSET station, waits for its trigger wherever the invalid campus time stands: a DESIGN CHOICE
(log 72). -/
def admitReceived (s : State) (a : Announcement) : State :=
  match freePosition s.ann with
  | none => s
  | some i =>
    let s1 := gatherAt s i a
    match s1.ann.table[i] with
    | some e =>
      if e.trigger = .campus ∧ campusReached s1.time.campus e.start then startEntry s1 i else s1
    | none => s1

/-! ## The drill's end-all order (R146) -/

/-- The entry with this id and start time ends, and the campus live record of it becomes none (R144, R145). -/
def endAnnouncement (s : State) (id : Id) (start : CampusTime) : State :=
  let s1 := match findEntry s.ann id start with
    | none => s
    | some i => endEntry s i .ended
  clearLive s1 id start

/-- Every entry ends PREEMPTED in position order, and the campus live record becomes none (R146). -/
def endAllEntries (s : State) : State :=
  let s1 := (List.finRange 4).foldl (fun s i => endEntry s i .preempted) s
  s1.withAnn { s1.ann with live := none }

end Sys2Proof.Machine
end

