-- ==== Sys2Proof/Machine/DrillOps.lean ====
section
/-! DEFINITION. The Drill Unit: orders, beginning, ending, frames, merging, phases and the roll
(08_fire_drills_and_alarms.md). -/

namespace Sys2Proof.Machine

open Sys2Proof

/-! ## Inputs, frames and notices -/

/-- The FA level that counts as active: contact closed, or open when the image says so (R151). -/
def faActiveLevel (img : Image) : Bool := !img.faActiveOpen

/-- The own FA flag: the valid FA level is active (R151). -/
def ownFaFlag (s : State) : Bool := decide (s.pins.fa.valid = some (faActiveLevel s.image))

/-- The clear elapsed of a roll entry, when it is CLEARED. -/
def rollElapsed : RollEntry → Option Nat
  | .cleared e => some e
  | _ => none

/-- The content of a DRILL state frame, taken now (R160). -/
def stateContent (s : State) (r : DrillRecord) : DrillContent where
  id := r.id
  start := r.start
  sure := r.sure
  kind := r.kind
  assemble := decide (s.drill.state ≠ .evacuate)
  cleared := rollElapsed r.roll[s.start.station]
  fa := ownFaFlag s
  stop := r.stop

/-- The period of the periodic state frame in milliseconds (R160). -/
def periodicMs : Nat := 4000

/-- A DRILL state frame is offered while a drill runs, and the periodic timer restarts (R160). -/
def offerState (s : State) : State :=
  match s.drill.record with
  | none => s
  | some r =>
    if s.drill.state = .idle then s
    else
      let d := { s.drill with periodic := some (countAfter s.time.localCount periodicMs) }
      offer (s.withDrill d) (.drillState (stateContent s r))

/-- The notice of a drill of this kind (R155). -/
def drillNotice : DrillKind → NoticeKind
  | .real => .alarmChange
  | .practice => .drillChange

/-- The drill summary, none in IDLE (R174). -/
def drillSummary (d : DrillUnit) : Option DrillSummary :=
  match d.state, d.record with
  | .idle, _ | _, none => none
  | st, some r => some ⟨r.id, r.start, r.kind, st⟩

/-! ## Orders (R155) -/

/-- The resources of the drill's claims: every existing zone and SYN (R155, R168). -/
def drillWants (img : Image) (r : ResNo) : Bool := if h : r.val < 8 then zoneExists img ⟨r.val, h⟩ else true

/-- A claim in the drill slot for every existing zone and SYN, reported sounding at once (R155, R168). -/
def drillClaim (s : State) (level : ClaimLevel) : State :=
  let a := makeClaim s.arb s.time.localCount drillSlot level .a (drillWants s.image)
  withArbiter s (reportSounding a drillSlot a.slots[drillSlot].number true)

/-- The drill slot's claim withdrawn whole (R155, R168). -/
def dropDrillClaim (s : State) : State := withArbiter s (withdrawWhole s.arb drillSlot)

/-- The all-clear claim, withdrawn at once when SYN is refused (R168). -/
def allClearClaim (s : State) : State :=
  let s1 := drillClaim s .urgent
  match statusOf s1.arb drillSlot synRes with
  | .holding | .waiting => s1
  | _ => dropDrillClaim s1

/-- The orders for the state left (R155). -/
def leaveOrders (s : State) : DrillState → State
  | .idle => s.withBells (suppressBells s.bells)
  | .evacuate =>
    let s1 := dropDrillClaim s
    s1.withBells (stopBells s1.bells)
  | .assemble => s
  | .allClear => dropDrillClaim s

/-- The orders for the state entered (R155). -/
def enterOrders (s : State) : DrillState → State
  | .idle => s.withBells (resumeBells s.bells)
  | .evacuate => endAllEntries (evacuateBells (drillClaim s .alarm))
  | .assemble => s
  | .allClear => allClearClaim s

/-- The Drill Unit in a new state, with the counts at entry (R154). -/
def enterState (d : DrillUnit) (new : DrillState) (now : Count) : DrillUnit :=
  { d with
    state := new,
    periodic := if new = .idle then none else d.periodic,
    assembleAt := match new with
      | .assemble => some now
      | .allClear => d.assembleAt
      | _ => none,
    allClearAt := if new = .allClear then some now else none }

/-- The drill state changes with the orders of R155; where old and new are equal, only the report to the
Clock Unit is made. -/
def moveDrill (s : State) (new : DrillState) : State :=
  let old := s.drill.state
  if old = new then computeStatus s
  else
    let s1 := s.withDrill (enterState s.drill new s.time.localCount)
    computeStatus (enterOrders (leaveOrders s1 old) new)

/-- The current drill record replaced. -/
def setRecord (s : State) (r : Option DrillRecord) : State := s.withDrill { s.drill with record := r }

/-! ## The roll (R156, R169, R171) -/

/-- A roll table as it is built: PENDING for every present station (R156). -/
def builtRoll (s : State) : Vector RollEntry 16 :=
  Vector.ofFn fun p : Fin 16 => if isPresent s p then .pending else .notExpected

/-- No roll entry is PENDING and at least one is CLEARED (R169). -/
def rollComplete (roll : Vector RollEntry 16) : Bool :=
  roll.toList.all (fun e => decide (e ≠ .pending)) && roll.toList.any fun e => (rollElapsed e).isSome

/-- The number of PENDING entries (R167). -/
def rollPending (roll : Vector RollEntry 16) : Nat :=
  (roll.toList.filter fun e => decide (e = .pending)).length

/-- The ALL-CLEAR test (R169). -/
def allClearTest (s : State) : State :=
  match s.drill.record with
  | none => s
  | some r =>
    if s.drill.state = .assemble ∧ rollComplete r.roll then
      offerState (raise (moveDrill s .allClear) (drillNotice r.kind))
    else s

/-- A roll entry changed: ROLL CHANGE is raised (R171). -/
def setRoll (s : State) (r : DrillRecord) (p : StationNo) (e : RollEntry) : State :=
  raise (setRecord s (some { r with roll := r.roll.set p e })) .rollChange

/-- A peer's change of presence reaches the roll table (R171). -/
def rollPresence (s : State) (p : StationNo) (present : Bool) : State :=
  match s.drill.record with
  | none => s
  | some r =>
    if s.drill.state = .idle then s
    else match r.roll[p], present with
      | .notExpected, true | .silent, true => allClearTest (setRoll s r p .pending)
      | .pending, false => allClearTest (report (setRoll s r p .silent) (.rollStationSilent p))
      | _, _ => s

/-! ## Beginning (R156 to R158) -/

/-- The record of a drill begun here (R156). -/
def ownRecord (s : State) (kind : DrillKind) : DrillRecord :=
  let limits := drillQuery s.plan
  let r := currentReading s
  { id := ⟨s.start.station, s.drill.ownSeq + 1⟩
    start := if r.valid then r.time else countAsCampus s.time.localCount
    sure := r.valid
    kind := kind
    evacLimit := limits.1
    assembleLimit := limits.2
    localStart := s.time.localCount
    stop := none
    roll := builtRoll s
    endTime := none
    outcome := none }

/-- A drill is begun at this station (R156). -/
def beginDrill (s : State) (kind : DrillKind) : State :=
  let r := ownRecord s kind
  let s1 := s.withDrill { s.drill with ownSeq := s.drill.ownSeq + 1, record := some r }
  offerState (raise (raise (moveDrill s1 .evacuate) .rollChange) (drillNotice kind))

/-- The most entries of the ended-drill list (R153). -/
def endedMax : Nat := 4

/-- The ended-drill list with an entry added, the oldest gone when it was full (R153). -/
def addEnded (l : List EndedDrill) (e : EndedDrill) : List EndedDrill :=
  if l.any (fun x => decide (x.id = e.id) && decide (x.start = e.start)) then l
  else (if endedMax ≤ l.length then l.drop (l.length + 1 - endedMax) else l) ++ [e]

/-- The entry of the ended-drill list for a drill (R162, R165). -/
def findEnded (d : DrillUnit) (id : Id) (start : CampusTime) : Option EndedDrill :=
  d.ended.find? fun x => decide (x.id = id) && decide (x.start = start)

/-- A record with its end time and outcome (R159, step 1). -/
def closedRecord (s : State) (r : DrillRecord) (o : DrillOutcome) : DrillRecord :=
  let t := currentReading s
  { r with endTime := if t.valid then some t.time else none, outcome := some o }

/-- The closed record becomes the last drill record, and its drill is listed (R159, steps 3 and 4). -/
def listDrill (d : DrillUnit) (r : DrillRecord) (o : DrillOutcome) : DrillUnit :=
  { d with record := none, last := some r, ended := addEnded d.ended ⟨r.id, r.start, o⟩ }

/-- A practice overtaken by an alarm is closed; the state is left for the alarm's begin (R158). -/
def overridePractice (s : State) (r : DrillRecord) : State :=
  raise (s.withDrill (listDrill s.drill (closedRecord s r .alarmOverride) .alarmOverride)) .drillChange

/-! ## Ending (R159) -/

/-- The first END copy of a drill ended here is offered (R161). -/
def firstEndCopy (s : State) (e : EndedDrill) : State :=
  let s1 := s.withDrill { s.drill with copies := s.drill.copies ++ [⟨e, 1, none⟩] }
  offer s1 (.drillEnd e.id e.start e.outcome true)

/-- The running drill ends with an outcome; `here` says that this station ended it (R159). -/
def finishDrill (s : State) (o : DrillOutcome) (here : Bool) : State :=
  match s.drill.record with
  | none => s
  | some r =>
    let closed := closedRecord s r o
    let s1 := moveDrill (setRecord s (some closed)) .idle
    let s2 := s1.withDrill (listDrill s1.drill closed o)
    let s3 := if here then firstEndCopy s2 ⟨r.id, r.start, o⟩ else s2
    raise s3 (drillNotice r.kind)

/-! ## Phases (R166, R170) -/

/-- The drill moves from EVACUATE to ASSEMBLE with a signal stop time; the notice, a state frame and the
ALL-CLEAR test follow (R166). -/
def toAssemble (s : State) (r : DrillRecord) (stop : Option CampusTime) : State :=
  let s1 := moveDrill (setRecord s (some { r with stop := stop })) .assemble
  allClearTest (offerState (raise s1 (drillNotice r.kind)))

/-- The signal stop time of SIGNAL STOP and of the evacuation deadline (R166). -/
def stopNow (s : State) : Option CampusTime :=
  let t := currentReading s
  if t.valid then some t.time else none

/-- Campus time can be measured against the drill (R154). -/
def measuresCampus (s : State) (r : DrillRecord) : Bool := (currentReading s).valid && r.sure

/-- The clear elapsed time now, in milliseconds (R154). -/
def clearElapsed (s : State) (r : DrillRecord) : Nat :=
  if measuresCampus s r then (campusDiff s.time.campus r.start).toNat
  else countSince s.time.localCount r.localStart

/-- The evacuation deadline of a PRACTICE drill is reached (R154). -/
def evacuationReached (s : State) (r : DrillRecord) : Bool :=
  decide (r.kind = .practice) && decide (s.drill.state = .evacuate) &&
    (if measuresCampus s r then
      campusReached s.time.campus (campusAdd r.start (1000 * (r.evacLimit : Int)))
    else countReached s.time.localCount (countAfter r.localStart (1000 * r.evacLimit)))

/-- The assemble deadline of a PRACTICE drill is reached (R154, R167). -/
def assembleReached (s : State) (r : DrillRecord) : Bool :=
  decide (r.kind = .practice) && decide (s.drill.state = .assemble) &&
    (match measuresCampus s r, r.stop with
    | true, some t => campusReached s.time.campus (campusAdd t (1000 * (r.assembleLimit : Int)))
    | _, _ => deadlineReached s.time.localCount
        (s.drill.assembleAt.map fun c => countAfter c (1000 * r.assembleLimit)))

/-- The end of ALL-CLEAR of a PRACTICE drill is reached (R154, R168). -/
def allClearReached (s : State) (r : DrillRecord) : Bool :=
  decide (r.kind = .practice) && decide (s.drill.state = .allClear) &&
    deadlineReached s.time.localCount (s.drill.allClearAt.map fun c => countAfter c 120000)

/-! ## Received frames (R162 to R165) -/

/-- The record of a drill taken from a peer's state frame (R162). -/
def recordFrom (s : State) (p : StationNo) (c : DrillContent) : DrillRecord :=
  let limits := drillQuery s.plan
  let roll := builtRoll s
  { id := c.id
    start := c.start
    sure := c.sure
    kind := c.kind
    evacLimit := limits.1
    assembleLimit := limits.2
    localStart := s.time.localCount
    stop := c.stop
    roll := match c.cleared with
      | none => roll
      | some e => roll.set p (.cleared e)
    endTime := none
    outcome := none }

/-- The state of a carried phase (R160). -/
def phaseState (c : DrillContent) : DrillState := if c.assemble then .assemble else .evacuate

/-- The station takes a drill from a state frame: its record, its phase with the orders, the roll's notice,
a state frame, and the ALL-CLEAR test (R162, R164). -/
def takeDrill (s : State) (p : StationNo) (c : DrillContent) : State :=
  let s1 := moveDrill (setRecord s (some (recordFrom s p c))) (phaseState c)
  let s2 := if c.assemble then
      s1.withDrill { s1.drill with assembleAt := some s1.time.localCount } else s1
  allClearTest (offerState (raise s2 .rollChange))

/-- An IDLE station adopts a drill (R162). -/
def adoptDrill (s : State) (p : StationNo) (c : DrillContent) : State :=
  raise (takeDrill s p c) (drillNotice c.kind)

/-- The station merges into the drill of a frame that wins (R164). -/
def mergeDrill (s : State) (r : DrillRecord) (p : StationNo) (c : DrillContent) : State :=
  let s1 := raise (report s (.drillMerged r.id)) .drillChange
  let s2 := if r.kind = .real ∨ c.kind = .real then raise s1 .alarmChange else s1
  takeDrill s2 p c

/-- The signal stop time kept after a same-drill frame that moves no phase: of two the earlier when both sides are past
EVACUATE, `past`, and otherwise the one held; the carried one where this station holds none, whatever the phases (R163,
step 2). -/
def keptStop (past : Bool) (held carried : Option CampusTime) : Option CampusTime :=
  match held, carried with
  | some a, some b => if past && earlier b a then some b else some a
  | none, b => b
  | some a, none => some a

/-- A state frame of the running drill: the phase and the signal stop time (R163, steps 1 and 2). A frame of phase
ASSEMBLE that carries no signal stop time leaves a station that moves on by it without one (log 66, DEDUCED). -/
def samePhase (s : State) (r : DrillRecord) (c : DrillContent) : State :=
  if c.assemble ∧ s.drill.state = .evacuate then
    let s1 := moveDrill (setRecord s (some { r with stop := c.stop })) .assemble
    offerState (raise s1 (drillNotice r.kind))
  else setRecord s (some { r with stop := keptStop c.assemble r.stop c.stop })

/-- A state frame of the running drill: the sender's clear (R163, step 3). -/
def sameClear (s : State) (p : StationNo) (c : DrillContent) : State :=
  match s.drill.record, c.cleared with
  | some r, some e => if (rollElapsed r.roll[p]).isSome then s else setRoll s r p (.cleared e)
  | _, _ => s

/-- A state frame of the running drill (R163), with the ALL-CLEAR test that follows (R169). -/
def sameDrill (s : State) (r : DrillRecord) (p : StationNo) (c : DrillContent) : State :=
  allClearTest (sameClear (samePhase s r c) p c)

/-- A DRILL state frame taken from a peer (R162 to R164). The running drill is kept against one that R2 does not rank: a
DESIGN CHOICE (logs 21, 70). -/
def takeStateFrame (s : State) (p : StationNo) (c : DrillContent) : State :=
  match findEnded s.drill c.id c.start with
  | some e => offer s (.drillEnd e.id e.start e.outcome false)
  | none =>
    match s.drill.state, s.drill.record with
    | .idle, _ | _, none => adoptDrill s p c
    | _, some r =>
      if r.id = c.id ∧ r.start = c.start then sameDrill s r p c
      else if drillPrecedes c.kind c.start c.id.origin r.kind r.start r.id.origin then
        mergeDrill s r p c
      else offerState s

/-- The running drill is this one. -/
def isRunning (d : DrillUnit) (id : Id) (start : CampusTime) : Bool :=
  match d.state, d.record with
  | .idle, _ | _, none => false
  | _, some r => decide (r.id = id) && decide (r.start = start)

/-- An END frame taken from a peer, but for what the own FA flag then does (R165). -/
def takeEndFrame (s : State) (e : EndedDrill) : State :=
  if isRunning s.drill e.id e.start then finishDrill s e.outcome false
  else s.withDrill { s.drill with ended := addEnded s.drill.ended e }

end Sys2Proof.Machine
end

