-- ==== Sys2Proof/Machine/TimeOps.lean ====
section
/-! DEFINITION. The Time Unit: advance and slew, step and establishment, agreement rounds, beacons, the
reference input and campus sets (01_campus_time.md). -/

namespace Sys2Proof.Machine

open Sys2Proof

/-! ## Advance, slew and boundaries (R3, R4, R16, R18) -/

/-- By how much campus time advances at the end of a millisecond: 1, or 2 or 0 at the end of an interval
of a slew (R16). -/
def msAdvance (t : TimeUnit) : Int :=
  if t.slewRemainder ≠ 0 ∧ t.slewPhase = 99 then (if 0 < t.slewRemainder then 2 else 0) else 1

/-- The slew remainder and the place in the slew interval after a millisecond (R16). -/
def slewAfter (t : TimeUnit) : Int × Nat :=
  if t.slewRemainder = 0 then (0, 0)
  else if t.slewPhase = 99 then
    (if 0 < t.slewRemainder then t.slewRemainder - 1 else t.slewRemainder + 1, 0)
  else (t.slewRemainder, t.slewPhase + 1)

/-- Campus time passes from one whole period of milliseconds to the next (R18). -/
def crosses (period : Nat) (old new : CampusTime) : Bool :=
  decide (old.day ≠ new.day) || decide (old.ms / period ≠ new.ms / period)

/-- One millisecond passes: the local count and campus time advance, and the boundaries that campus time
passes are emitted (R3, R4, R16, R18). -/
def msTick (t : TimeUnit) : TimeUnit :=
  let new := campusAdd t.campus (msAdvance t)
  let valid := decide (t.quality ≠ .unset)
  let slew := slewAfter t
  { t with
    localCount := t.localCount + 1,
    campus := new,
    slewRemainder := slew.1,
    slewPhase := slew.2,
    secondDue := if crosses 1000 t.campus new then some ⟨wholeSecond new, valid⟩ else t.secondDue,
    minuteDue := if crosses 60000 t.campus new then
        some ⟨⟨wholeMinute new, valid⟩, decide (t.campus.day ≠ new.day)⟩ else t.minuteDue }

/-- The reading of the second boundary to be taken: the one emitted, or the whole second reached. -/
def secondReading (s : State) : Reading :=
  s.time.secondDue.getD ⟨wholeSecond s.time.campus, (currentReading s).valid⟩

/-- The minute boundary to be taken: the one emitted, or the whole minute reached, with a midnight mark when it
is the first of a day (R18). -/
def minuteBoundary (s : State) : MinuteBoundary :=
  let t := wholeMinute s.time.campus
  s.time.minuteDue.getD ⟨⟨t, (currentReading s).valid⟩, decide (t.ms = 0)⟩

/-- The reading of the minute boundary to be taken; no rule acts on its midnight mark. -/
def minuteReading (s : State) : Reading := (minuteBoundary s).reading

/-! ## Quality, step and establishment (R6, R7, R17) -/

/-- The quality changes: TIME CHANGE is raised and the coded status computed (R6, R109). -/
def setQuality (s : State) (q : Quality) : State :=
  if s.time.quality = q then s
  else computeStatus (raise (s.withTime { s.time with quality := q }) .timeChange)

/-- Campus time is established: no step is made, and an establish notice goes out (R7, R22, R25). -/
def establish (s : State) (t : CampusTime) (q : Quality) : State :=
  let s1 := s.withTime { s.time with campus := t, quality := q }
  let s2 := bellEstablish s1 t
  let s3 := clockAll s2 ⟨t, true⟩
  computeStatus (raise s3 .timeChange)

/-- A roster entry whose mark reading and sample a step has discarded (R11). -/
def stepDiscards (e : RosterEntry) : RosterEntry := { e with mark := none, sample := none }

/-- The Time Unit after a step (R11, R17). -/
def steppedTime (t : TimeUnit) (c : Int) : TimeUnit :=
  { t with
    campus := campusAdd t.campus c,
    stepCounter := t.stepCounter + 1,
    slewRemainder := 0,
    slewPhase := 0,
    capture := none,
    lastBeacon := t.lastBeacon.map fun b => { b with mark := b.mark.map fun m => { m with campus := none } } }

/-- Every mark reading and sample of the roster discarded (R11). -/
def stepRoster (l : LineUnit) : LineUnit :=
  { l with roster := Vector.ofFn fun p : Fin 16 => stepDiscards l.roster[p] }

/-- The step in whole seconds, truncated and limited (R17). -/
def stepSeconds (c : Int) : Int := max (-32768) (min 32767 (c.tdiv 1000))

/-- The notices of a step to the Bell, Clock and Announcement Units (R17). -/
def stepNotices (s : State) (old new : CampusTime) : State :=
  annStep (clockAll (bellStep s old new) ⟨new, true⟩) new

/-- A step of campus time by c milliseconds (R17). -/
def stepBy (s : State) (c : Int) : State :=
  if c = 0 then s
  else
    let s1 := (s.withTime (steppedTime s.time c)).withLine (stepRoster s.line)
    let s2 := stepNotices s1 s.time.campus (campusAdd s.time.campus c)
    raise (report s2 (.stepApplied (stepSeconds c))) .timeChange

/-- A slew by c: it replaces what remains of another and restarts the interval (R16). -/
def slewBy (t : TimeUnit) (c : Int) : TimeUnit := { t with slewRemainder := c, slewPhase := 0 }

/-- A correction is a step (R14). -/
def isStep (c : Int) : Bool := decide (250 ≤ c.natAbs)

/-- A correction applied by its magnitude (R14). -/
def applyCorrection (s : State) (c : Int) : State :=
  if c.natAbs < 2 then s
  else if isStep c then stepBy s c
  else s.withTime (slewBy s.time c)

/-! ## Set keys (R24 to R28) -/

/-- A key becomes the last applied one: a pending key not newer is cleared, and the copies of another set
are cancelled (R24, R26, R27, R28). -/
def applyKey (t : TimeUnit) (k : Key) (delta : Int) : TimeUnit :=
  { t with
    lastSet := some (k, delta),
    pendingSet := t.pendingSet.filter (fun p => keyNewer p k),
    setCopies := t.setCopies.filter (fun c => decide (c.key = k)) }

/-- A key is newer than the last applied one, or there is none (R27, R28). -/
def newerThanLast (t : TimeUnit) (k : Key) : Bool :=
  match t.lastSet with
  | none => true
  | some l => keyNewer k l.1

/-- A set key carried in a peer's beacon (R28). -/
def takeCarriedKey (t : TimeUnit) (k : Option Key) : TimeUnit :=
  match k with
  | none => t
  | some k =>
    if newerThanLast t k then
      if t.quality = .unset then applyKey t k 0
      else
        { t with pendingSet := match t.pendingSet with
          | none => some k
          | some p => if keyNewer k p then some k else some p }
    else t

/-- The set generations that the station knows (R24). -/
def knownSetGens (s : State) : List Generation :=
  (s.time.lastSet.map (·.1.gen)).toList ++ (s.time.pendingSet.map (·.gen)).toList ++
    s.line.roster.toList.filterMap fun e => e.setKey.map (·.gen)

/-- The step of a received SETTIME: back over the delta of a set of the same generation (R27). -/
def settimeStep (t : TimeUnit) (k : Key) (d : Int) : Int :=
  match t.lastSet with
  | none => d
  | some l => if k.gen = l.1.gen then d - l.2 else d

/-- The last applied key is one that this station made. -/
def ownLastKey (s : State) : Bool :=
  match s.time.lastSet with
  | none => false
  | some l => decide (l.1.origin = s.start.station)

/-- A SETTIME taken from a peer (R27). -/
def takeSettime (s : State) (k : Key) (d : Int) : State :=
  if newerThanLast s.time k then
    let own := ownLastKey s
    let s1 := if s.time.quality = .unset then s else stepBy s (settimeStep s.time k d)
    let s2 := s1.withTime (applyKey s1.time k d)
    if own then raise (report s2 (.settimeSuperseded k)) .timeChange else s2
  else s

/-! ## Agreement rounds (R12 to R15) -/

/-- The eligible samples, each with whether its peer is REFERENCED (R12). -/
def eligible (s : State) : List (Bool × Int) :=
  (List.finRange 16).filterMap fun p =>
    let e := s.line.roster[p]
    match e.present, e.quality, e.sample with
    | true, some q, some x => if q = .unset then none else some (decide (q = .referenced), x.value)
    | _, _, _ => none

/-- The working set (R12). -/
def workingSet (q : Quality) (el : List (Bool × Int)) : List Int :=
  let refs := (el.filter (·.1)).map (·.2)
  if q = .referenced then refs ++ [0]
  else if refs ≠ [] then refs
  else el.map (·.2) ++ [0]

/-- A value put in its place in a rising list. -/
def insertSorted (x : Int) : List Int → List Int
  | [] => [x]
  | y :: ys => if x ≤ y then x :: y :: ys else y :: insertSorted x ys

/-- A list in rising order. -/
def sorted (l : List Int) : List Int := l.foldr insertSorted []

/-- The correction of a working set (R13). -/
def correction (w : List Int) : Int :=
  let l := sorted w
  let kept := if 4 ≤ l.length then (l.drop 1).dropLast else l
  ((kept.head?.getD 0) + (kept.getLast?.getD 0)).tdiv 2

/-- The empty-round count after a round (R15). -/
def roundCount (n : Nat) (empty : Bool) : Nat := if empty then min 5 (n + 1) else 0

/-- The quality changes of a round by its count (R15). -/
def roundQuality (s : State) (empty : Bool) : State :=
  match s.time.quality with
  | .synced => if s.time.emptyRounds = 5 then setQuality (report s .isolated) .isolated else s
  | .isolated => if empty then s else setQuality s .synced
  | _ => s

/-- A sample one round older, gone at age 3 (R11). -/
def agedSample (x : Option Sample) : Option Sample :=
  x.bind fun x => if 3 ≤ x.age + 1 then none else some { x with age := x.age + 1 }

/-- Every sample one round older (R11). -/
def ageSamples (l : LineUnit) : LineUnit :=
  { l with roster := Vector.ofFn fun p : Fin 16 =>
      let e := l.roster[p]
      { e with sample := agedSample e.sample } }

/-- A stepping round applies the pending set key (R14, R28). -/
def applyPending (t : TimeUnit) (c : Int) : TimeUnit :=
  match t.pendingSet with
  | none => t
  | some k => { applyKey t k c with pendingSet := none }

/-- An agreement round (R12 to R15); an UNSET station runs none. -/
def agreementRound (s : State) : State :=
  if s.time.quality = .unset then s
  else
    let el := eligible s
    let empty := decide (el = [])
    let c := correction (workingSet s.time.quality el)
    let s1 := s.withTime { s.time with emptyRounds := roundCount s.time.emptyRounds empty }
    let s2 := applyCorrection (roundQuality s1 empty) c
    let s3 := if isStep c then s2.withTime (applyPending s2.time c) else s2
    s3.withLine (ageSamples s3.line)

/-! ## Beacons (R7, R9, R10) -/

/-- The content of the next own BEACON (R9, R56, R174, R182). -/
def beaconContent (s : State) : BeaconContent where
  seq := s.time.ownSeq + 1
  prevSeq := match s.time.lastBeacon with
    | none => 0
    | some b => b.seq
  prevMark := (s.time.lastBeacon.bind (·.mark)).bind (·.campus)
  stepCounter := s.time.stepCounter
  quality := s.time.quality
  setKey := s.time.lastSet.map (·.1)
  plan := s.plan.active.map fun a => (a.key, a.digest)
  faults := faultSummary s.faults
  drill := drillSummary s.drill

/-- A BEACON is offered with the next own sequence (R9). -/
def offerBeacon (s : State) : State :=
  let c := beaconContent s
  offer (s.withTime { s.time with ownSeq := c.seq }) (.beacon c)

/-- The beacon timer started for the next period (R9). -/
def startBeaconTimer (s : State) : State :=
  s.withTime { s.time with beaconDeadline := some (countAfter s.time.localCount (beaconMs s.image)) }

/-- The roster holds this beacon's predecessor, in the same count of steps (R7, R10). -/
def followsStored (e : RosterEntry) (c : BeaconContent) : Bool :=
  decide (e.beaconSeq = some c.prevSeq) && decide (e.stepCount = some c.stepCounter)

/-- The offset sample that a beacon forms (R10). -/
def beaconSample (e : RosterEntry) (c : BeaconContent) : Option Sample :=
  if followsStored e c then
    match c.prevMark, e.mark.bind (·.campus) with
    | some t, some own => some ⟨campusDiff t own, 0⟩
    | _, _ => none
  else none

/-- The time that an UNSET station establishes from a beacon (R7). -/
def establishTime (e : RosterEntry) (c : BeaconContent) (now : Count) : Option CampusTime :=
  if c.quality ≠ .unset ∧ followsStored e c then
    match c.prevMark, e.mark with
    | some t, some m => some (campusAdd t (countSince now m.count : Nat))
    | _, _ => none
  else none

/-- A roster entry after a beacon (R10, R49). -/
def beaconEntry (e : RosterEntry) (c : BeaconContent) (capture : Option MarkReading) : RosterEntry :=
  { e with
    beaconSeq := some c.seq,
    mark := capture,
    stepCount := some c.stepCounter,
    sample := match beaconSample e c with
      | none => e.sample
      | some x => some x,
    quality := some c.quality,
    setKey := c.setKey,
    plan := c.plan,
    faults := some c.faults,
    drill := c.drill }

/-- The Time Unit takes a beacon from peer p, and the Line Unit its roster fields (R7, R10, R28, R49). -/
def takeBeacon (s : State) (p : StationNo) (c : BeaconContent) : State :=
  let e := s.line.roster[p]
  let s1 := s.withLine (setRoster s.line p (beaconEntry e c s.time.capture))
  let s2 := s1.withTime (takeCarriedKey s1.time c.setKey)
  if s.time.quality = .unset then
    match establishTime e c s.time.localCount with
    | none => s2
    | some t => establish s2 t .synced
  else s2

/-! ## Reference input (R19 to R23) -/

/-- A mark has a label and the right spacing (R21). -/
def markAccepted (t : TimeUnit) : Bool :=
  t.label.isSome &&
    match t.prevMark with
    | none => true
    | some p =>
      let d := countSince t.localCount p
      decide (59500 ≤ d) && decide (d ≤ 60500)

/-- An accepted mark with its label (R21, R22). -/
def acceptMark (s : State) (label : CampusTime) : State :=
  let s1 := s.withTime { s.time with label := none, prevMark := some s.time.localCount }
  if s.time.quality = .unset then establish s1 label .referenced
  else setQuality (applyCorrection s1 (campusDiff label s.time.campus)) .referenced

/-- A minute mark is decided (R21). A mark without a label is recorded with NO LABEL whatever its spacing: a
DESIGN CHOICE (log 54), since R180 gives no precedence between NO LABEL and SPACING. -/
def decideMark (s : State) : State :=
  match s.time.label with
  | some l => if markAccepted s.time then acceptMark s l else report s (.markRejected true)
  | none => report s (.markRejected false)

/-- The reference lapses (R23). -/
def lapseReference (s : State) : State :=
  let s1 := s.withTime { s.time with prevMark := none }
  if s.time.quality = .referenced then
    let s2 := report s1 .referenceLapsed
    if s.time.emptyRounds < 5 then setQuality s2 .synced
    else setQuality (report s2 .isolated) .isolated
  else s1

/-- The lapse time of the reference in milliseconds (R23). -/
def lapseMs : Nat := 125000

end Sys2Proof.Machine
end

