-- ==== Sys2Proof/Machine/PlanOps.lean ====
section
/-! DEFINITION. The Plan Unit and the Record Store's saves: the staging area, fetching, serving, changes of
the active plan (03_the_day_plan.md, 3.5 to 3.8; R205, R206). -/

namespace Sys2Proof.Machine

open Sys2Proof

/-! ## Saves (R205, R206) -/

/-- A save of the active plan begins (R205); there is nothing to save without one. -/
def beginSave (s : State) : State :=
  match s.plan.active with
  | none => s.withStore ⟨.idle, false⟩
  | some p => s.withStore ⟨.saving p false, false⟩

/-- A save is asked for (R206). -/
def requestSave (s : State) : State :=
  match s.store.state with
  | .idle => if working s then beginSave s else s
  | .saving _ _ | .marking => s.withStore { s.store with wanted := true }
  | .reading _ | .dialWrite _ => s

/-- An operation of the Record Store ends: a wanted save begins (R206). -/
def storeDone (s : State) : State :=
  if s.store.wanted then beginSave s else s.withStore ⟨.idle, false⟩

/-! ## Fetching (R69 to R72) -/

/-- No fragment staged. -/
def noFragments : Fragments := Vector.replicate 41 none

/-- The no-progress time of a fetch in milliseconds (R70). -/
def noProgressMs : Nat := 10000

/-- The time a load may stand still in milliseconds (R62). -/
def loadMs : Nat := 60000

/-- The plan keys and digests that present peers report, in station order (R69). -/
def reportedPlans (s : State) : List (Key × Digest) :=
  (List.finRange 16).filterMap fun p =>
    let e := s.line.roster[p]
    if e.present ∧ p ≠ s.start.station then e.plan else none

/-- A reported key is a candidate for a fetch (R69). -/
def fetchCandidate (p : PlanUnit) (k : Key) : Bool :=
  (match p.active with
    | none => true
    | some a => keyNewer k a.key) && decide (p.unobtainable ≠ some k)

/-- The newer of a key held and a key met (R69). -/
def newerOf (held : Option Key) (k : Key) : Option Key :=
  match held with
  | none => some k
  | some h => if keyNewer k h then some k else some h

/-- The target of a fetch evaluation: the newest candidate (R69, log 11). -/
def targetKey (s : State) : Option Key :=
  (((reportedPlans s).map (·.1)).filter (fetchCandidate s.plan)).foldl newerOf none

/-- The fetch target with its expected digest, that of the lowest-numbered present peer that reports the key
(R69, R70). -/
def fetchTarget (s : State) : Option (Key × Digest) :=
  (targetKey s).bind fun k => (reportedPlans s).find? fun x => decide (x.1 = k)

/-- The missing bitmap of a fetch (R70). -/
def missingMask (f : Fetch) : FragmentMask :=
  match f.total with
  | none => BitVec.allOnes 48
  | some n =>
    BitVec.ofBoolListLE ((List.range 48).map fun i =>
      decide (i < n) && ((f.frags.toList[i]?).join).isNone) |>.setWidth 48

/-- The deadline of the staging area's timer: the load timer, or the no-progress timer (R62, R70). -/
def stagingTimer : Staging → Option Count
  | .free => none
  | .loading _ t => some t
  | .fetching f => some f.timer

/-- Setting the staging area so restarts or stops a timer whose deadline has been reached, so that the expiry
with which it fell together does not occur (R65, R72, log 55). -/
def overtakes (s : State) (x : Staging) : Bool :=
  deadlineReached s.time.localCount (stagingTimer s.plan.staging) &&
    decide (stagingTimer x ≠ stagingTimer s.plan.staging)

/-- A staging area set. -/
def setStaging (s : State) (x : Staging) : State :=
  s.withPlan { s.plan with staging := x, overtaken := s.plan.overtaken || overtakes s x }

/-- An expiry of the staging area's timer: it does not occur when it has been overtaken and the timer now runs to
a later deadline; otherwise it has its effect (R65, R72, log 55). -/
def stagingExpiry (s : State) (timer : Count) (act : State) : State :=
  let t := if s.plan.overtaken && !countReached s.time.localCount timer then s else act
  t.withPlan { t.plan with overtaken := false }

/-- A fetch toward a key is started (R70). -/
def startFetch (s : State) (k : Key) (d : Digest) : State :=
  let f : Fetch := ⟨k, d, none, noFragments, countAfter s.time.localCount noProgressMs, 1⟩
  offer (setStaging s (.fetching f)) (.planreq k (missingMask f))

/-- A fetch evaluation (R69); in JOIN no fetch is started. -/
def evaluateFetch (s : State) : State :=
  if inRun s then
    match fetchTarget s with
    | none => s
    | some (k, d) =>
      match s.plan.staging with
      | .free => startFetch s k d
      | .loading _ _ => s
      | .fetching f => if keyNewer k f.target then startFetch s k d else s
  else s

/-- The staging area returns to FREE, and a fetch evaluation follows (R61). -/
def freeStaging (s : State) : State := evaluateFetch (setStaging s .free)

/-! ## Changes of the active plan (R76) -/

/-- The unobtainable key under a new active key: none when the active key is equal to it or newer (R69). -/
def keptUnobtainable (u : Option Key) (k : Key) : Option Key :=
  u.filter fun x => !(decide (k = x) || keyNewer k x)

/-- The active plan changes (R76): the serve bitmap is cleared, a save is asked for, the Bell and Clock
Units are told. -/
def changePlan (s : State) (a : ActivePlan) : State :=
  let p := { s.plan with active := some a, serve := 0, queued := [],
                         unobtainable := keptUnobtainable s.plan.unobtainable a.key }
  computeStatus (bellPlanChange (requestSave (s.withPlan p)))

/-- The key of a plan made here (R64). -/
def newPlanKey (s : State) : Key :=
  let known := (s.plan.active.map (·.key.gen)).toList ++
    s.line.roster.toList.filterMap fun e => e.plan.map (·.1.gen)
  ⟨nextGen known, s.start.station⟩

/-- A new key is newer than the active one, or there is none (R64). -/
def newerThanActive (p : PlanUnit) (k : Key) : Bool :=
  match p.active with
  | none => true
  | some a => keyNewer k a.key

/-- A plan as it becomes active. -/
def planOf (k : Key) (frags : List (List Byte)) : ActivePlan := ⟨k, planDigest frags, frags.length, frags⟩

/-! ## Adoption (R71 to R73) -/

/-- A fetch that failed: its target is the unobtainable key, and the staging area becomes FREE
(R72, R73). -/
def failFetch (s : State) (k : Key) (c : FaultCode) : State :=
  let s1 := report s c
  freeStaging (s1.withPlan { s1.plan with unobtainable := some k })

/-- The notice of an adoption (R73). -/
def adoptionNotice (s : State) : NoticeKind :=
  match s.plan.active with
  | none => .planAdopted
  | some a => if a.key.origin = s.start.station then .planSuperseded else .planAdopted

/-- A complete fetch is validated: the plan is adopted or given up (R73). -/
def completeFetch (s : State) (f : Fetch) : State :=
  match validate f.frags.toList f.total (some f.digest) with
  | .error r => failFetch s f.target (.receivedPlanInvalid r)
  | .ok frags =>
    let s1 := raise (setStaging s .free) (adoptionNotice s)
    freeStaging (changePlan s1 (planOf f.target frags))

/-- Every index below n is held (R71). -/
def allHeld (frags : Fragments) (n : Nat) : Bool := (frags.toList.take n).all (·.isSome)

/-- A PLAN frame of the target key reaches a fetch (R71). -/
def fetchFragment (s : State) (f : Fetch) (x : PlanFrame) : State :=
  if x.total < 7 ∨ 41 < x.total ∨ x.total ≤ x.index ∨ (f.total ≠ none ∧ f.total ≠ some x.total) then s
  else if h : x.index < 41 then
    let i : Fin 41 := ⟨x.index, h⟩
    if f.frags[i].isSome then setStaging s (.fetching { f with total := some x.total })
    else
      let g : Fetch := { f with
        total := some x.total, frags := f.frags.set i (some x.content), requests := 0,
        timer := countAfter s.time.localCount noProgressMs }
      let s1 := setStaging s (.fetching g)
      if allHeld g.frags x.total then completeFetch s1 g else s1
  else s

/-- The no-progress timer of a fetch expires (R72). -/
def fetchExpired (s : State) (f : Fetch) : State :=
  if f.requests < 6 then
    let g := { f with requests := f.requests + 1,
                      timer := countAfter s.time.localCount noProgressMs }
    offer (setStaging s (.fetching g)) (.planreq f.target (missingMask f))
  else failFetch s f.target (.fetchFailed f.target.gen)

/-! ## Serving and received plan frames (R41, R71, R74) -/

/-- A queued PLAN frame of this key and index that is not in flight (R41). -/
def suppressible (k : Key) (i : Nat) (e : TxEntry) : Bool :=
  !e.inFlight && match e.body with
    | .plan k' i' _ _ => decide (k' = k) && decide (i' = i)
    | _ => false

/-- Queued PLAN frames that another station has sent are removed and told SUPPRESSED (R41). -/
def suppressPlan (s : State) (k : Key) (i : Nat) : State :=
  let gone := s.line.queue.filter (suppressible k i)
  let l := { s.line with queue := s.line.queue.filter fun e => !suppressible k i e }
  tellAll (s.withLine l) (gone.map fun e => (e.body, TxOutcome.suppressed))

/-- A PLAN frame taken from a peer (R71, R74). -/
def takePlanFrame (s : State) (x : PlanFrame) : State :=
  let s1 := if (s.plan.active.map (·.key)) = some x.key then
      s.withPlan { s.plan with serve := s.plan.serve &&& ~~~(1#48 <<< x.index) } else s
  match s1.plan.staging with
  | .fetching f => if f.target = x.key then fetchFragment s1 f x else s1
  | _ => s1

/-- The bits below n. -/
def bitsBelow (n : Nat) : FragmentMask := BitVec.ofNat 48 (2 ^ min n 48 - 1)

/-- A PLANREQ taken from a peer (R74). -/
def takePlanreq (s : State) (k : Key) (missing : FragmentMask) : State :=
  match s.plan.active with
  | none => s
  | some a =>
    if a.key = k ∧ !s.line.listenOnly then
      runCursor (s.withPlan { s.plan with serve := s.plan.serve ||| (missing &&& bitsBelow a.total) })
    else s

/-- The station is told that a peer's plan key may be newer (R49, R52, R69). -/
def planReported (s : State) : State := evaluateFetch s

/-! ## Presence (R46, R51, R52) -/

/-- A valid frame from peer p: it is heard, and becomes present when it was not (R46, R52). -/
def hearPeer (s : State) (p : StationNo) : State :=
  let e := s.line.roster[p]
  let s1 := s.withLine (setRoster s.line p { e with lastHeard := s.time.localCount, present := true })
  if e.present then s1
  else
    let s2 := rollPresence s1 p true
    let s3 := if e.plan.isSome then planReported s2 else s2
    raise s3 .peerChange

/-- A present peer becomes absent (R51). -/
def losePeer (s : State) (p : StationNo) : State :=
  let e := s.line.roster[p]
  let s1 := s.withLine (setRoster s.line p
    { e with present := false, mark := none, sample := none, fa := none })
  raise (rollPresence s1 p false) .peerChange

end Sys2Proof.Machine
end

