-- ==== Sys2Proof/Machine/StartOps.lean ====
section
/-! DEFINITION. The operating states: start events, the start sequence, JOIN, RUN, HALT, RESTART, and the
Record Store's operations on the configuration memory
(11_start_up_power_fail_and_restart.md). -/

namespace Sys2Proof.Machine

open Sys2Proof

/-! ## Start events (R198, R200) -/

/-- An input with no sample and no valid level (R19, R88, R151, R198). -/
def unsampled (i : Input) : Input := ⟨i.line, none, none⟩

/-- Every input with no sample and no valid level. -/
def unsampledPins (p : Pins) : Pins :=
  ⟨unsampled p.fa, unsampled p.dk, unsampled p.bb, unsampled p.ref, unsampled p.pfw⟩

/-- A start event: START, with the Record Store reading the station image; what is kept is the
configuration memory, the lines' levels, the straps and the queue (R198, R200, R205). A transaction of the
panel port under way is dropped, and a later byte of the same selection is read as a length byte: a DESIGN
CHOICE (log 64). -/
def startEvent (s : State) : State :=
  { State.reset with
    start := StartUnit.initial s.start.straps,
    line := { LineUnit.initial with dominant := s.line.dominant },
    mem := s.mem,
    pins := unsampledPins s.pins,
    fresh := s.fresh,
    pending := s.pending }

/-- RESET held: in START, and the sequence does not run (R198). -/
def heldInReset (s : State) : State :=
  let t := startEvent s
  (t.withStart { t.start with powered := s.start.powered, resetHeld := true }).withStore ⟨.idle, false⟩

/-! ## Configuration memory (R205 to R207, R211) -/

/-- A dial write cut short or failed: some of the bytes before the mark are written, the mark is not
(R211, log 16). -/
def cutDialWrite (s : State) : State :=
  match s.store.state with
  | .dialWrite entries =>
    let n := Config.cutDialWriteBytes s.fresh % 15
    ((s.withMem (memWriteBytes s.mem (dialAddress + 1) ((dialBytes entries).take n))).withFresh
      (s.fresh + 1)).withStore ⟨.idle, false⟩
  | _ => s

/-- The dial write whole: the entries and the check, then the mark (R207, R211). -/
def writeDial (m : Memory) (entries : List DialEntry) : Memory :=
  memWrite (memWriteBytes m (dialAddress + 1) (dialBytes entries)) dialAddress markSet

/-- Parts 2 and 3 of a plan save (R205, R211). -/
def writePlan (m : Memory) (p : ActivePlan) : Memory :=
  memWrite (memWriteBytes m (planAddress + 1) (planRecordBytes p)) planAddress markSet

/-- The station image that a read gives; none when it is bad (R199). -/
def readImage (m : Memory) (failed : Bool) : Option Image :=
  if failed then none else imageOf (memReadBytes m imageAddress 40)

/-- The plan record that a read gives; none when it is bad (R200). -/
def readPlan (m : Memory) (failed : Bool) : Option PlanRecord :=
  if failed then none else planRecordOf (memReadBytes m planAddress maxPlanRecord)

/-- The dial record that a read gives; none when it is bad (R200). -/
def readDial (m : Memory) (failed : Bool) : Option (List DialEntry) :=
  if failed then none else dialOf (memReadBytes m dialAddress 15)

/-! ## Entry to RUN (R202) -/

/-- The station enters RUN (R202). What R202 lets take effect together is done in this order: the first BEACON is
offered before the fetch evaluation offers its PLANREQ, a DESIGN CHOICE (log 69), and the code frames begin with the
status of the entry, whose own computation sets no resend flag, a DESIGN CHOICE (log 71). -/
def enterRun (s : State) : State :=
  let s1 := s.withStart { s.start with opState := .run, joinDeadline := none }
  let s2 := offerBeacon (startBeaconTimer s1)
  let s3 := bellEnterRun (evaluateFetch s2)
  clockAll s3 (currentReading s3)

/-- A REAL drill begins here; a station in JOIN enters RUN at once (R156, R201). -/
def beginReal (s : State) : State :=
  let s1 := beginDrill s .real
  if s1.start.opState = .join then enterRun s1 else s1

/-! ## Activations (R151, R157, R158) -/

/-- What an FA activation does (R158). -/
def faAct (s : State) : State :=
  match s.drill.state, s.drill.record with
  | .idle, _ | _, none => beginReal s
  | _, some r => if r.kind = .real then offerState s else beginReal (overridePractice s r)

/-- What a DK activation does (R157). -/
def dkAct (s : State) : State := if s.drill.state = .idle then beginDrill s .practice else s

/-! ## Entry to JOIN (R201) -/

/-- The station enters JOIN with a fresh timer of 3 B (R201); an expiry of the timer before it is overtaken
(log 55); the stuck watch runs from here (R47). -/
def joinState (s : State) : State :=
  (s.withStart { s.start with
    opState := .join,
    joinDeadline := some (countAfter s.time.localCount (3 * beaconMs s.image)),
    joinOvertaken := s.start.joinOvertaken ||
      deadlineReached s.time.localCount s.start.joinDeadline }).withLine
    { s.line with stuckFrom := s.time.localCount, stuckRecorded := false }

/-- The activations taken during START are acted on at entry to JOIN (R200). -/
def actLatched (s : State) : State :=
  let fa := s.start.faLatched
  let dk := s.start.dkLatched
  let s1 := s.withStart { s.start with faLatched := false, dkLatched := false }
  let s2 := if fa then faAct s1 else s1
  if dk then dkAct s2 else s2

/-- The station enters JOIN (R200, R201). -/
def enterJoin (s : State) : State := actLatched (joinState s)

/-! ## The start sequence (R199, R200) -/

/-- The FA input once the polarity is there: a row before it said active or inactive, or the samples gave the
level (log 40). -/
def judgedInput (img : Image) (row : Option Bool) (i : Input) : Input :=
  match row with
  | none => i
  | some b =>
    let level := if b then faActiveLevel img else !faActiveLevel img
    ⟨level, some level, some level⟩

/-- The image gives the polarity of FA: an activation has been taken when the level that it makes active has been
valid (R151, R200, log 40). -/
def judgeFa (s : State) (img : Image) : State :=
  let u := s.start
  (s.withStart { u with
    faClosedSeen := false, faOpenSeen := false, faRow := none,
    faLatched := u.faLatched || if faActiveLevel img then u.faClosedSeen else u.faOpenSeen }).withPins
    { s.pins with fa := judgedInput img u.faRow s.pins.fa }

/-- The image, or the defaults, in place (R151, R199). -/
def placeImage (s : State) (img : Image) : State := (judgeFa s img).withImage img

/-- Step 3: the station image, or the defaults with IMAGE BAD (R199). -/
def takeImage (s : State) (failed : Bool) : State :=
  let s1 := s.withFaults { s.faults with taking := true }
  let s2 := s1.withStore ⟨.reading .plan, s.store.wanted⟩
  match readImage s.mem failed with
  | some i => placeImage s2 i
  | none => report (placeImage s2 Image.builtIn) .imageBad

/-- Step 4: the plan record, validated (R200). -/
def takePlanRecord (s : State) (failed : Bool) : State :=
  let s1 := s.withStore ⟨.reading .dial, s.store.wanted⟩
  match readPlan s.mem failed with
  | none => report s1 (.planRecordBad none)
  | some r =>
    match validate (r.frags.map some) (some r.total) (some r.digest) with
    | .error e => report s1 (.planRecordBad (some e))
    | .ok frags => s1.withPlan { s1.plan with active := some ⟨r.key, r.digest, r.total, frags⟩ }

/-- Step 5: the dial record; marking begins, and the station enters JOIN (R112, R200). -/
def takeDialRecord (s : State) (failed : Bool) : State :=
  let s1 := restoreDials s (readDial s.mem failed)
  let s2 := s1.withStart { s1.start with dialRestored := true }
  enterJoin (s2.withStore ⟨.marking, s.store.wanted⟩)

/-! ## HALT (R204, R207) -/

/-- The Drill Unit at entry to HALT: the drill is dropped (R152, R161). -/
def haltDrill (d : DrillUnit) : DrillUnit :=
  { d with state := .idle, record := none, periodic := none, copies := [], assembleAt := none,
           allClearAt := none }

/-- A clock circuit at entry to HALT: what is on the line is cut off (R96, R103). -/
def haltClock (c : ClockCircuit) : ClockCircuit :=
  ⟨haltImpulse c.impulse, codeOff c.coded⟩

/-- The Record Store at entry to HALT: the dial write, where the positions had been restored (R207). -/
def haltStore (s : State) : RecordStore :=
  if s.start.dialRestored then ⟨.dialWrite (dialEntries s), false⟩ else ⟨.idle, false⟩

/-- The station enters HALT (R204). A transaction of the panel port under way is dropped, as at a start event: a
DESIGN CHOICE (R186, log 64). -/
def enterHalt (s : State) : State :=
  { s with
    start := { s.start with opState := .halt, joinDeadline := none },
    store := haltStore s,
    clocks := Vector.ofFn fun c : Fin 4 => haltClock s.clocks[c],
    line := { emptyQueue s.line with deference := false },
    time := { s.time with setCopies := none, beaconDeadline := none, capture := none },
    plan := { s.plan with queued := [] },
    drill := haltDrill s.drill,
    synth := { s.synth with env1 := 0, env2 := 0, out := 0 },
    faults := { s.faults with taking := false },
    port := PanelPort.initial }

/-! ## RESTART (R203) -/

/-- A clock circuit at RESTART (R113). -/
def restartClock (c : ClockCircuit) : ClockCircuit := ⟨restartImpulse c.impulse, CodedRecord.initial⟩

/-- The inputs at RESTART: the levels of FA, DK, BB and REF are not valid (R203). -/
def restartPins (p : Pins) : Pins :=
  ⟨unsampled p.fa, unsampled p.dk, unsampled p.bb, unsampled p.ref, p.pfw⟩

/-- The blocks at RESTART (R203, steps 1 and 2). -/
def restartBlocks (s : State) : State :=
  { s with
    start := { s.start with faLatched := false, dkLatched := false },
    time := { TimeUnit.initial with localCount := s.time.localCount },
    line := { LineUnit.initial with dominant := s.line.dominant },
    plan := { PlanUnit.initial with active := s.plan.active },
    bells := BellUnit.initial,
    clocks := Vector.ofFn fun c : Fin 4 => restartClock s.clocks[c],
    arb := Arbiter.initial,
    synth := Synth.initial,
    ann := AnnUnit.initial,
    drill := { DrillUnit.initial with last := s.drill.last },
    faults := { FaultUnit.initial with taking := true },
    pins := restartPins s.pins }

/-- The notices of a RESTART, raised after the notice set was emptied: TIME CHANGE where a valid time became UNSET,
CLOCK ATTENTION for an unknown position (R6, R113, R175, R203, log 50). That the drop of a running drill raises no
ALARM CHANGE or DRILL CHANGE, and that of present peers no PEER CHANGE, is a DESIGN CHOICE (log 67). -/
def restartNotices (before : Quality) (s : State) : State :=
  let s1 := if before = .unset then s else raise s .timeChange
  if dialUnknown s1 then raise s1 .clockAttention else s1

/-- The RESTART of the station (R203). -/
def restartStation (s : State) : State := joinState (restartNotices s.time.quality (restartBlocks s))

end Sys2Proof.Machine
end

