-- ==== Sys2Proof/Machine/PortOps.lean ====
section
/-! DEFINITION. The Panel Port: requests, dispatch, answers, transactions, the bytes of responses, and what
READ STATUS and READ ROSTER ENTRY gather (10_the_panel_port.md, 12.4). -/

namespace Sys2Proof.Machine

open Sys2Proof

/-! ## Response bytes (R192, R195, R210; codes of log 19) -/

/-- A field that may be absent: a presence byte, then the field or zeros of its length (log 19). -/
def optField {α : Type} (n : Nat) (enc : α → List Byte) : Option α → List Byte
  | none => 0 :: List.replicate n 0
  | some x => 1 :: enc x

/-- A flag in a byte. -/
def flagByte (b : Bool) : List Byte := beBytes 1 (bitValue b)

/-- The number of a refusal reason in the reading order of the table of R192, from 1 (R210). -/
def reasonNumber : Reason → Nat
  | .timeUnset => 1
  | .listenOnly => 2
  | .notAddressed => 3
  | .noZones => 4
  | .drill => 5
  | .tableFull => 6
  | .liveConflict => 7
  | .period => 8
  | .noPlan => 9
  | .notLoading => 10
  | .validation r => 11 + planFaultCode r
  | .generation => 20
  | .overridesFull => 21
  | .noSuchItem => 22
  | .noDrill => 23
  | .phase => 24
  | .useAlarmReset => 25
  | .useDrillEnd => 26
  | .faActive => 27

/-- The number of a cause of BAD (R210). -/
def causeNumber : BadCause → Nat
  | .length => 1
  | .check => 2
  | .command => 3
  | .argument => 4

/-- The code of an operating state (log 19). -/
def opStateCode : OpState → Nat
  | .start => 0
  | .join => 1
  | .run => 2
  | .halt => 3

/-- The code of a staging state (log 19). -/
def stagingCode : Staging → Nat
  | .free => 0
  | .loading _ _ => 1
  | .fetching _ => 2

/-- The count of fragments held. -/
def heldCount (f : Fragments) : Nat := (f.toList.filter (·.isSome)).length

/-- The code of a polarity (R210). -/
def polarityCode : Polarity → Nat
  | .plus => 0
  | .minus => 1

/-- The code of a line-sense result (log 19). -/
def senseCode : SenseResult → Nat
  | .delivered => 0
  | .openLine => 1
  | .short => 2

/-- The code of the state of an impulse circuit (log 19). -/
def clockStateCode : ClockState → Nat
  | .stopped => 0
  | .running => 1
  | .advancing => 2
  | .holding => 3
  | .faulted => 4

/-- The code of a cycle (log 19). -/
def cycleCode : ClockCycle → Nat
  | .none => 0
  | .impulse => 1
  | .rest => 2

/-- The code of an announcement outcome, in the order of R130 (log 19). -/
def annOutcomeCode : AnnOutcome → Nat
  | .completed => 0
  | .ended => 1
  | .limit => 2
  | .preempted => 3
  | .cancelled => 4
  | .zonesUnavailable => 5

/-- The code of a damage, in the order of R180 (log 19). -/
def damageCode : Damage → Nat
  | .check => 0
  | .stopBit => 1
  | .short => 2
  | .length => 3
  | .kind => 4

/-- The bytes of a key that is there. -/
def keyField3 (k : Key) : List Byte := keyBytes (some k)

/-- The bytes of a drill summary: id, start time, kind and state, each field in its encoding of 12.1 (R210); the
kind's byte is a DESIGN CHOICE (log 19). -/
def summaryBytes (d : DrillSummary) : List Byte :=
  idBytes d.id ++ campusBytes (some d.start) ++ beBytes 1 (realBit d.kind) ++ beBytes 1 (drillStateCode d.state)

/-- The bytes of a drill summary or none; none is marked by the origin byte FFh, as in a BEACON (12.2, log 19). -/
def summaryField : Option DrillSummary → List Byte
  | none => [0xFF, 0] ++ campusBytes none ++ [0, 0]
  | some d => summaryBytes d

/-- The bytes of a roll entry: its status and its elapsed (log 19). -/
def rollBytes : RollEntry → List Byte
  | .notExpected => 0 :: beBytes 4 0
  | .pending => 1 :: beBytes 4 0
  | .silent => 2 :: beBytes 4 0
  | .cleared e => 3 :: beBytes 4 (min e 0xFFFFFFFF)

/-- The bytes of an ended drill. -/
def endedBytes (e : EndedDrill) : List Byte :=
  idBytes e.id ++ campusBytes (some e.start) ++ beBytes 1 (outcomeCode e.outcome)

/-- The bytes of a drill record (R152, R174). -/
def recordBytes (r : DrillRecord) : List Byte :=
  idBytes r.id ++ campusBytes (some r.start) ++ flagByte r.sure ++ beBytes 1 (realBit r.kind) ++
  beBytes 2 r.evacLimit ++ beBytes 2 r.assembleLimit ++ beBytes 4 r.localStart.toNat ++
  campusBytes r.stop ++ r.roll.toList.flatMap rollBytes ++ campusBytes r.endTime ++
  optField 1 (fun o => beBytes 1 (outcomeCode o)) r.outcome

/-- The bytes of a fault detail: a byte that names its form, then its value in three bytes (log 19). -/
def detailBytes : Option Detail → List Byte
  | none => [0, 0, 0, 0]
  | some d =>
    match d with
    | .damage x => 1 :: beBytes 3 (damageCode x)
    | .frame k => 2 :: beBytes 3 (kindCode k)
    | .seconds n => 3 :: beBytes 3 (BitVec.ofInt 24 n).toNat
    | .noLabel => [4, 0, 0, 0]
    | .spacing => [4, 0, 0, 1]
    | .setKey k => 5 :: keyField3 k
    | .number n => 6 :: beBytes 3 n
    | .recordBad => [7, 0, 0, 0]
    | .validation r => 8 :: beBytes 3 (planFaultCode r)
    | .impulse c r => 9 :: 0 :: (beBytes 1 c.val ++ beBytes 1 (senseCode r))
    | .announcement i => 10 :: 0 :: idBytes i
    | .drill i => 11 :: 0 :: idBytes i

/-- The bytes of a fault bank (R175, R181). -/
def bankBytes (b : Bank) : List Byte :=
  flagByte b.valid ++ flagByte b.overflow ++ flagByte b.uncorrected ++ beBytes 1 b.code ++
  detailBytes b.detail ++ campusBytes b.time ++ beBytes 1 b.count

/-- The bytes of an FA active field: its flag, drill id and start time. -/
def faActiveBytes (f : FaActive) : List Byte :=
  flagByte f.flag ++ idBytes f.id ++ campusBytes (some f.start)

/-- The bytes of a plan key and digest, the key none and the digest 0 when absent (12.2). -/
def planKeyBytes (p : Option (Key × Digest)) : List Byte :=
  keyBytes (p.map (·.1)) ++ beBytes 4 ((p.map (·.2.toNat)).getD 0)

/-- The bytes of a roster entry (R197). -/
def rosterBytes (r : RosterData) : List Byte :=
  flagByte r.present ++ optField 4 (beBytes 4) r.sinceHeard ++ optField 1 (fun b => [b]) r.beaconSeq ++
  optField 1 (fun b => [b]) r.stepCount ++ optField 1 (fun q => beBytes 1 (qualityCode q)) r.quality ++
  keyBytes r.setKey ++ planKeyBytes r.plan ++ optField 2 faultSummaryBytes r.faults ++
  summaryField r.drill ++ optField 9 faActiveBytes r.fa ++ flagByte r.markHeld ++
  optField 7 (fun (x : Sample) => signedMsBytes x.value ++ beBytes 1 x.age) r.sample

/-- The bytes of an announcement kind, as bytes 7 to 9 of an ANNOUNCE payload, URGENT. -/
def annKindBytes : AnnKind → List Byte
  | .chime c r => [0] ++ beBytes 1 (chimeCode c) ++ beBytes 1 r
  | .live l => [1] ++ beBytes 2 l

/-- The bytes of the status set, in the order of R196. -/
def statusBytes (x : StatusSet) : List Byte :=
  beBytes 1 x.station.val ++ beBytes 1 (opStateCode x.opState) ++ flagByte x.listenOnly ++
  campusBytes (some x.reading.time) ++ flagByte x.reading.valid ++ beBytes 1 (qualityCode x.quality) ++
  [x.stepCounter] ++ keyBytes x.lastSet ++ flagByte x.labelHeld ++ keyBytes x.planKey ++
  beBytes 1 (stagingCode x.staging) ++ summaryField x.drill ++
  optField 11 (fun (o : OwnOutcome) => [o.seq] ++ campusBytes (some o.start) ++ annKindBytes o.kind ++
    beBytes 1 (annOutcomeCode o.outcome)) x.lastOwn ++
  beBytes 2 x.drillCount ++ beBytes 2 x.quietCount ++ faultSummaryBytes x.faults ++ flagByte x.ntc

/-- The bytes of a span with times of w bytes. -/
def spanBytes (w : Nat) (r : Span) : List Byte :=
  beBytes w r.first ++ beBytes w r.last ++ beBytes 1 r.kind

/-- The bytes of the staging item (R68). -/
def stagingBytes (d : StagingData) : List Byte :=
  beBytes 1 (stagingCode d.staging) ++
  (match d.staging with
    | .fetching f =>
      keyField3 f.target ++ beBytes 4 f.digest.toNat ++ optField 1 (beBytes 1) f.total ++
      beBytes 1 (heldCount f.frags) ++ beBytes 1 f.requests
    | _ => []) ++
  keyBytes d.unobtainable ++ beBytes 6 d.serve.toNat

/-- The bytes of a plan item (R68). -/
def planItemBytes : PlanItemData → List Byte
  | .key k d total => keyField3 k ++ beBytes 4 d.toNat ++ beBytes 1 total
  | .weekday ps => ps.flatMap (beBytes 1)
  | .exception d p => beBytes 2 d ++ beBytes 1 p
  | .range r => spanBytes 2 r
  | .default k => beBytes 1 k
  | .bell e =>
    beBytes 4 e.second ++ beBytes 1 e.pattern ++ beBytes 1 e.circuits.toNat ++
    beBytes 2 e.buildings.toNat ++ flagByte e.always
  | .override o => spanBytes 4 o
  | .pattern p =>
    match p with
    | none => [0]
    | some l => 1 :: (beBytes 1 l.length ++ l.flatMap fun x => beBytes 1 x.on ++ beBytes 1 x.off)
  | .drill a b => beBytes 2 a ++ beBytes 2 b
  | .staging d => stagingBytes d

/-- The bytes of a clock circuit (R104). -/
def clockBytes : ClockData → List Byte
  | .absent => [0]
  | .impulse r len hold =>
    [1] ++ beBytes 2 (r.position.getD 0xFFFF) ++ beBytes 1 (polarityCode r.polarity) ++
    beBytes 1 r.failCount ++ beBytes 1 (clockStateCode r.state) ++ beBytes 1 (cycleCode r.cycle) ++
    optField 1 (fun x => beBytes 1 (senseCode x)) r.midpoint ++ beBytes 2 len ++ beBytes 1 hold
  | .coded r =>
    [2] ++ flagByte r.sending ++ flagByte r.resend ++
    optField 1 (fun x => beBytes 1 (codeStatusCode x)) r.lastStatus

/-- The data of SET TIME: the new set key and delta, and none at a station that was UNSET (R195). -/
def setBytes : Option (Key × Int) → List Byte
  | none => []
  | some (k, d) => keyField3 k ++ signedMsBytes d

/-- The data bytes of a DONE response (R195). -/
def doneBytes : DoneData → List Byte
  | .nothing => []
  | .set m => setBytes m
  | .planKey k d => keyField3 k ++ beBytes 4 d.toNat
  | .planItem d => planItemBytes d
  | .clock d => clockBytes d
  | .announcement seq start => [seq] ++ campusBytes (some start)
  | .drillStarted i start => idBytes i ++ campusBytes (some start)
  | .drillRecord r l => recordBytes r ++ beBytes 1 l.length ++ l.flatMap endedBytes
  | .status x => statusBytes x
  | .roster r => rosterBytes r
  | .bank b => bankBytes b
  | .notices ks => beBytes 1 ks.length ++ ks.map fun k => BitVec.ofNat 8 ((noticeIndex k).val + 1)

/-- The status byte and the data of a response (R210). -/
def statusAndData : Response → List Byte
  | .done d => 1 :: doneBytes d
  | .busy => [2]
  | .refused r => 3 :: beBytes 1 (reasonNumber r)
  | .bad c => 4 :: beBytes 1 (causeNumber c)

/-- A whole response: length, status, data and check (R210). -/
def responseBytes (r : Response) : List Byte :=
  let body := statusAndData r
  let front := beBytes 1 (body.length + 1) ++ body
  front ++ [0 - byteSum front]

/-- The empty marker (12.4). -/
def emptyMarker : Byte := 0x00

/-- The PENDING marker (12.4). -/
def pendingMarker : Byte := 0xFF

/-! ## Requests and answers (R189, R190, R193) -/

/-- A request is dispatched, or answered at the port: BAD, or BUSY in START (R189, R190, R193). -/
def portDispatch (p : PanelPort) (op : OpState) : HeldRequest → PanelPort
  | .bad c => { p with state := .idle, buffer := .ready (.bad c) }
  | .valid i =>
    match op with
    | .start => { p with state := .idle, buffer := .ready .busy }
    | _ => { p with state := .working, buffer := .pending, dispatched := some i }

/-- A checked request is taken (R189). -/
def postRequest (p : PanelPort) (op : OpState) (h : HeldRequest) : PanelPort :=
  match p.state with
  | .idle => portDispatch p op h
  | .working => { p with held := some h, buffer := .pending }

/-- The answer of an owner is placed, or discarded for a held request (R190). -/
def placeAnswer (p : PanelPort) (op : OpState) (r : Response) : PanelPort :=
  match p.held with
  | none => { p with state := .idle, buffer := .ready r, answer := none }
  | some h => portDispatch { p with held := none, buffer := .pending, answer := none } op h

/-- The owner of the dispatched request has taken it and answers; the answer waits for the port. -/
def answerWith (s : State) (r : Response) : State :=
  s.withPort { s.port with dispatched := none, answer := some r }

/-- A panel command reaches its owner: in JOIN and RUN the owner acts and answers, in START it is answered
BUSY, in HALT and without supply nothing happens (R193). -/
def panelTake (s : State) (f : State → State × Response) : State :=
  if alive s then
    match s.start.opState with
    | .halt => s
    | .start => answerWith s .busy
    | _ => answerWith (f s).1 (f s).2
  else s

/-- Answered DONE without data. -/
def done : Response := .done .nothing

/-! ## Transactions (R187, R191) -/

/-- Byte n that a buffer shifts out. -/
def bufferByte (b : Buffer) (n : Nat) : Byte :=
  match b with
  | .empty => emptyMarker
  | .pending => pendingMarker
  | .ready r => ((responseBytes r)[n]?).getD emptyMarker

/-- The bytes that a buffer shifts out from byte n on, k of them. -/
def bufferBytes (b : Buffer) (n k : Nat) : List Byte := (List.range k).map fun j => bufferByte b (n + j)

/-- A READY response has been fetched whole once so many bytes have been shifted out (R191). -/
def wholeFetched (b : Buffer) (out : Nat) : Bool :=
  match b with
  | .ready r => decide ((responseBytes r).length ≤ out)
  | _ => false

/-- The bytes that have left a READY response. -/
def responseOutOf (b : Buffer) (out : Nat) : Nat :=
  match b with
  | .ready r => min out (responseBytes r).length
  | _ => 0

/-- A transaction that opens now: it shifts out the buffer as it stands, in HALT the PENDING marker (R191, R193). -/
def openTransaction (p : PanelPort) (op : OpState) : Transaction :=
  ⟨if op = .halt then .pending else p.buffer, false, 0, [], []⟩

/-- The complete request at the front of the bytes of a transaction; none for a length byte of 0 and while bytes of
the request are missing (R187). -/
def completeRequest (bytes : List Byte) : Option (List Byte) :=
  match bytes with
  | [] => none
  | b :: rest => if b ≠ 0 ∧ b.toNat ≤ rest.length then some (b :: rest.take b.toNat) else none

/-- More bytes of a transaction, with which it holds no complete request: a READY response may have left whole
(R187, R191). -/
def clockFetch (p : PanelPort) (t : Transaction) (bytes : List Byte) : PanelPort :=
  let n := t.received.length
  let k := bytes.length
  { p with
    buffer := if wholeFetched t.source (n + k) ∧ p.buffer = t.source then .empty else p.buffer,
    transaction := some { t with
      responseOut := responseOutOf t.source (n + k),
      received := t.received ++ bytes,
      shifted := t.shifted ++ bufferBytes t.source n k } }

/-- More bytes of a transaction, with which its request is complete: it is checked and taken, and what comes after it
is ignored (R187 to R189, R191). -/
def clockRequest (p : PanelPort) (op : OpState) (t : Transaction) (bytes request : List Byte) : PanelPort :=
  let n := t.received.length
  let k := request.length - n
  { postRequest p op (checkRequest request) with
    transaction := some ⟨t.source, true, responseOutOf t.source request.length, t.received ++ bytes,
      t.shifted ++ bufferBytes t.source n k ++ List.replicate (bytes.length - k) pendingMarker⟩ }

/-- More bytes of a transaction that has taken its request, or in HALT: they are ignored (R187, R191, R193). -/
def clockIgnored (p : PanelPort) (t : Transaction) (bytes : List Byte) : PanelPort :=
  { p with transaction := some { t with
      received := t.received ++ bytes,
      shifted := t.shifted ++ List.replicate bytes.length pendingMarker } }

/-- The host sends more bytes in a transaction; they go on with a request that earlier ones began (R187). -/
def clockMore (p : PanelPort) (op : OpState) (t : Transaction) (bytes : List Byte) : PanelPort :=
  if op = .halt ∨ t.taken then clockIgnored p t bytes
  else match completeRequest (t.received ++ bytes) with
    | none => clockFetch p t bytes
    | some request => clockRequest p op t bytes request

/-- A new transaction with the bytes that the host sends in it (R187). -/
def clockIn (p : PanelPort) (op : OpState) (bytes : List Byte) : PanelPort :=
  clockMore p op (openTransaction p op) bytes

/-- The host ends the transaction, after the bytes it sent last; a request not complete by then is discarded (R187,
R191). -/
def endTransaction (p : PanelPort) (op : OpState) (bytes : List Byte) : PanelPort :=
  let p1 := if bytes = [] then p else clockMore p op (p.transaction.getD (openTransaction p op)) bytes
  { p1 with transaction := none }

/-! ## Status and roster (R196, R197) -/

/-- The status set, gathered now (R196). -/
def statusSet (s : State) : StatusSet where
  station := s.start.station
  opState := s.start.opState
  listenOnly := s.line.listenOnly
  reading := currentReading s
  quality := s.time.quality
  stepCounter := s.time.stepCounter
  lastSet := s.time.lastSet.map (·.1)
  labelHeld := s.time.label.isSome
  planKey := s.plan.active.map (·.key)
  staging := s.plan.staging
  drill := drillSummary s.drill
  lastOwn := s.ann.lastOwn
  drillCount := s.bells.drillCount
  quietCount := s.bells.quietCount
  faults := faultSummary s.faults
  ntc := ntc s

/-- The own FA flag with the running drill, as the own roster entry gives it (R48, R174). -/
def ownFaActive (s : State) : Option FaActive :=
  (drillSummary s.drill).map fun d => ⟨ownFaFlag s, d.id, d.start⟩

/-- The own roster entry, from the station's current state (R48, R197). -/
def ownRosterData (s : State) : RosterData where
  present := true
  sinceHeard := none
  beaconSeq := some s.time.ownSeq
  stepCount := some s.time.stepCounter
  quality := some s.time.quality
  setKey := s.time.lastSet.map (·.1)
  plan := s.plan.active.map fun a => (a.key, a.digest)
  faults := some (faultSummary s.faults)
  drill := drillSummary s.drill
  fa := ownFaActive s
  markHeld := false
  sample := none

/-- A peer's roster entry as it stands (R197). -/
def peerRosterData (s : State) (e : RosterEntry) : RosterData where
  present := e.present
  sinceHeard := some (countSince s.time.localCount e.lastHeard)
  beaconSeq := e.beaconSeq
  stepCount := e.stepCount
  quality := e.quality
  setKey := e.setKey
  plan := e.plan
  faults := e.faults
  drill := e.drill
  fa := e.fa
  markHeld := e.mark.isSome
  sample := e.sample

/-- A roster entry as READ ROSTER ENTRY returns it (R197). -/
def rosterData (s : State) (p : StationNo) : RosterData :=
  if p = s.start.station then ownRosterData s else peerRosterData s s.line.roster[p]

end Sys2Proof.Machine
end

