-- ==== Sys2Proof/Machine/PanelCommands.lean ====
section
/-! DEFINITION. The meanings of the panel commands: what the owner does and answers (R195). -/

namespace Sys2Proof.Machine

open Sys2Proof

/-- The outcome of a step of this machine. -/
abbrev Result := Host.Outcome State Fault Refusal

/-- Answered BAD with cause ARGUMENT by the owner (R188). -/
def badArgument : Response := .bad .argument

/-! ## Time Unit -/

/-- SET TIME at a station with valid time: the step, the new key and the first SETTIME copy (R24). -/
def makeSet (s : State) (t : CampusTime) : State × Response :=
  let key : Key := ⟨nextGen (knownSetGens s), s.start.station⟩
  let d := campusDiff t s.time.campus
  let s1 := stepBy (s.withTime { s.time with setCopies := none }) d
  let s2 := s1.withTime { applyKey s1.time key d with setCopies := some ⟨key, d, 1, none⟩ }
  (offer s2 (.settime key d), .done (.set (some (key, d))))

/-- SET TIME as the Time Unit takes it (R24, R25). -/
def setTimeTake (t : CampusTime) (s : State) : State × Response :=
  if 86399999 < t.ms then (s, badArgument)
  else if s.time.quality = .unset then (establish s t .synced, .done (.set none))
  else makeSet s t

/-- SET_TIME (R24, R25). -/
def execSetTime (t : CampusTime) (s : State) : Result := .next (panelTake s (setTimeTake t))

/-- The argument of REFERENCE LABEL is a whole minute (R20). -/
def labelOk (t : CampusTime) : Bool := decide (t.ms % 60000 = 0) && decide (t.ms ≤ 86340000)

/-- REFERENCE LABEL as the Time Unit takes it (R20). -/
def labelTake (t : CampusTime) (s : State) : State × Response :=
  if labelOk t then (s.withTime { s.time with label := some t }, done) else (s, badArgument)

/-- REFERENCE_LABEL (R20). -/
def execReferenceLabel (t : CampusTime) (s : State) : Result := .next (panelTake s (labelTake t))

/-! ## Plan Unit -/

/-- The fragments of a plan by index (R62). -/
def stagedCopy (a : ActivePlan) : Fragments :=
  Vector.ofFn fun i : Fin 41 => a.frags[i.val]?

/-- The staging area LOADING with a fresh load timer (R62, R63). -/
def loadingNow (s : State) (f : Fragments) : State :=
  setStaging s (.loading f (countAfter s.time.localCount loadMs))

/-- LOAD BEGIN as the Plan Unit takes it (R62). -/
def loadBeginTake (choice : LoadChoice) (s : State) : State × Response :=
  match s.plan.staging with
  | .free =>
    match choice, s.plan.active with
    | .empty, _ => (loadingNow s noFragments, done)
    | .copy, some a => (loadingNow s (stagedCopy a), done)
    | .copy, none => (s, .refused .noPlan)
  | _ => (s, .busy)

/-- LOAD_BEGIN (R62). -/
def execLoadBegin (choice : LoadChoice) (s : State) : Result :=
  .next (panelTake s (loadBeginTake choice))

/-- LOAD FRAGMENT as the Plan Unit takes it (R63). -/
def loadFragmentTake (index : Nat) (content : List Byte) (s : State) : State × Response :=
  if h : index < 41 then
    if (sectionOf content).isSome then
      match s.plan.staging with
      | .loading f _ => (loadingNow s (f.set index (some content)), done)
      | .free => (s, .refused .notLoading)
      | .fetching _ => (s, .busy)
    else (s, badArgument)
  else (s, badArgument)

/-- LOAD_FRAGMENT (R63). -/
def execLoadFragment (index : Nat) (content : List Byte) (s : State) : Result :=
  .next (panelTake s (loadFragmentTake index content))

/-- Validated fragments become the active plan under a new key, or are refused with GENERATION (R64,
R66); `free` says that the staging area is given back. -/
def commitPlan (s : State) (frags : List (List Byte)) (free : Bool) : State × Response :=
  let key := newPlanKey s
  if newerThanActive s.plan key then
    let a := planOf key frags
    let s1 := if free then setStaging s .free else s
    let s2 := changePlan s1 a
    (if free then freeStaging s2 else s2, .done (.planKey key a.digest))
  else (s, .refused .generation)

/-- The staged fragments below n: those from the total upward are discarded when the candidate passes
(R60). -/
def fragmentsBelow (f : Fragments) (n : Nat) : Fragments :=
  Vector.ofFn fun i : Fin 41 => if i.val < n then f[i] else none

/-- LOAD COMMIT as the Plan Unit takes it (R60, R64). -/
def loadCommitTake (digest : Option Digest) (s : State) : State × Response :=
  match s.plan.staging with
  | .free => (s, .refused .notLoading)
  | .fetching _ => (s, .busy)
  | .loading f _ =>
    match validate f.toList none digest with
    | .error r => (loadingNow s f, .refused (.validation r))
    | .ok frags => commitPlan (loadingNow s (fragmentsBelow f frags.length)) frags true

/-- LOAD_COMMIT (R64). -/
def execLoadCommit (digest : Option Digest) (s : State) : Result :=
  .next (panelTake s (loadCommitTake digest))

/-- LOAD ABORT as the Plan Unit takes it (R65). -/
def loadAbortTake (s : State) : State × Response :=
  match s.plan.staging with
  | .free => (s, .refused .notLoading)
  | .fetching _ => (s, .busy)
  | .loading _ _ => (freeStaging s, done)

/-- LOAD_ABORT (R65). -/
def execLoadAbort (s : State) : Result := .next (panelTake s loadAbortTake)

/-- A plan's fragments with another override list (R66, R67). -/
def withOverrides (a : ActivePlan) (l : List Span) : List (List Byte) :=
  a.frags.dropLast ++ [overridesBytes l]

/-- The override list of the active plan. -/
def planOverrides (a : ActivePlan) : List Span := ((contentOf a.frags).map (·.overrides)).getD []

/-- A copy of the active plan with another override list is validated and committed (R66, R67). -/
def commitOverrides (s : State) (a : ActivePlan) (l : List Span) : State × Response :=
  match validate ((withOverrides a l).map some) none none with
  | .error r => (s, .refused (.validation r))
  | .ok frags => commitPlan s frags false

/-- OVERRIDE ADD as the Plan Unit takes it (R66). -/
def overrideAddTake (o : Span) (s : State) : State × Response :=
  if !spanOk minuteBound o then (s, badArgument)
  else match s.plan.staging with
    | .free =>
      match s.plan.active with
      | none => (s, .refused .noPlan)
      | some a =>
        if 4 ≤ (planOverrides a).length then (s, .refused .overridesFull)
        else commitOverrides s a (planOverrides a ++ [o])
    | _ => (s, .busy)

/-- OVERRIDE_ADD (R66). -/
def execOverrideAdd (first last : Nat) (kind : PeriodKind) (s : State) : Result :=
  .next (panelTake s (overrideAddTake ⟨first, last, periodCode kind⟩))

/-- OVERRIDE REMOVE as the Plan Unit takes it (R67); a position above 3 has no encoding in R195. -/
def overrideRemoveTake (position : Nat) (s : State) : State × Response :=
  if 3 < position then (s, badArgument)
  else match s.plan.staging with
    | .free =>
      match s.plan.active with
      | none => (s, .refused .noPlan)
      | some a =>
        if (planOverrides a).length ≤ position then (s, .refused .noSuchItem)
        else commitOverrides s a ((planOverrides a).eraseIdx position)
    | _ => (s, .busy)

/-- OVERRIDE_REMOVE (R67). -/
def execOverrideRemove (position : Nat) (s : State) : Result :=
  .next (panelTake s (overrideRemoveTake position))

/-- The indices of an item lie in the ranges of R68. -/
def itemInRange : PlanItem → Bool
  | .exception i => decide (i ≤ 23)
  | .range p i => decide (p ≤ 3) && decide (i ≤ 7)
  | .default p => decide (p ≤ 3)
  | .bell p i => decide (p ≤ 3) && decide (i ≤ 47)
  | .override i => decide (i ≤ 3)
  | .pattern n => decide (n ≤ 7)
  | _ => true

/-- An item of the active plan; none when the list has no such position (R68). -/
def planItem (a : ActivePlan) (c : PlanContent) : PlanItem → Option PlanItemData
  | .key => some (.key a.key a.digest a.total)
  | .weekday => (c.weekdays.head?).map .weekday
  | .exception i => (c.exceptions[i]?).map fun e => .exception e.1 e.2
  | .range p i => (c.programs[p]?).bind fun q => (q.ranges[i]?).map .range
  | .default p => (c.programs[p]?).map fun q => .default q.default
  | .bell p i => (c.programs[p]?).bind fun q => (q.bells[i]?).map .bell
  | .override i => (c.overrides[i]?).map .override
  | .pattern n => some (.pattern (patternAt c.patterns n))
  | .drill => some (.drill c.evacLimit c.assembleLimit)
  | .staging => none

/-- What READ PLAN ITEM answers (R68). An index outside the ranges is BAD also where there is no active plan, a DESIGN
CHOICE (log 60). -/
def planItemAnswer (item : PlanItem) (p : PlanUnit) : Response :=
  if !itemInRange item then badArgument
  else if item = .staging then
    .done (.planItem (.staging ⟨p.staging, p.unobtainable, p.serve⟩))
  else match p.active with
    | none => .refused .noPlan
    | some a =>
      match (contentOf a.frags).bind (fun c => planItem a c item) with
      | none => .refused .noSuchItem
      | some d => .done (.planItem d)

/-- READ_PLAN_ITEM (R68). -/
def execReadPlanItem (item : PlanItem) (s : State) : Result :=
  .next (panelTake s fun s => (s, planItemAnswer item s.plan))

/-! ## Bell Unit -/

/-- RING as the Bell Unit takes it (R87). -/
def ringTake (circuits : CircuitMask) (pattern : Nat) (s : State) : State × Response :=
  if 7 < pattern then (s, badArgument)
  else if !inRun s || s.bells.drillFlag then (s, .busy)
  else if (patternQuery s.plan pattern).isNone then (s, .refused .noSuchItem)
  else (giveRequests s (circuitsOf circuits) ⟨pattern, .panel⟩, done)

/-- RING (R87). -/
def execRing (circuits : CircuitMask) (pattern : Nat) (s : State) : Result :=
  .next (panelTake s (ringTake circuits pattern))

/-! ## Clock Unit -/

/-- A command about an IMPULSE circuit: a number above 3 is BAD, another kind is refused (R105, R106). -/
def onImpulse (s : State) (circuit : Nat) (f : ClockNo → State × Response) : State × Response :=
  if h : circuit < 4 then
    let c : ClockNo := ⟨circuit, h⟩
    if clockKind s c = .impulse then f c else (s, .refused .noSuchItem)
  else (s, badArgument)

/-- DIAL SET on an IMPULSE circuit (R105). -/
def dialSetOn (position : Option Nat) (polarity : Polarity) (s : State) (c : ClockNo) :
    State × Response :=
  let r := s.clocks[c].impulse
  if r.cycle = .impulse then (s, .busy)
  else
    let s1 := setImpulse s c { r with position := position, polarity := polarity }
    (evaluate s1 c (currentReading s1), done)

/-- DIAL SET as the Clock Unit takes it (R105). -/
def dialSetTake (circuit : Nat) (position : Option Nat) (polarity : Polarity) (s : State) :
    State × Response :=
  if position.any (fun p => decide (720 ≤ p)) then (s, badArgument)
  else onImpulse s circuit (dialSetOn position polarity s)

/-- DIAL_SET (R105). -/
def execDialSet (circuit : Nat) (position : Option Nat) (polarity : Polarity) (s : State) : Result :=
  .next (panelTake s (dialSetTake circuit position polarity))

/-- CLOCK CLEAR on an IMPULSE circuit (R106). -/
def clockClearOn (s : State) (c : ClockNo) : State × Response :=
  let r := s.clocks[c].impulse
  let s1 := setImpulse s c
    { r with failCount := 0, state := if r.state = .faulted then .stopped else r.state }
  (evaluate s1 c (currentReading s1), done)

/-- CLOCK_CLEAR (R106). -/
def execClockClear (circuit : Nat) (s : State) : Result :=
  .next (panelTake s fun s => onImpulse s circuit (clockClearOn s))

/-- What READ CLOCK CIRCUIT returns (R104). -/
def clockData (s : State) (c : ClockNo) : ClockData :=
  match clockKind s c with
  | .absent => .absent
  | .impulse =>
    .impulse s.clocks[c].impulse s.image.clocks[c].impulseLength s.image.clocks[c].holdLimit
  | .coded => .coded s.clocks[c].coded

/-- What READ CLOCK CIRCUIT answers (R104). -/
def clockAnswer (circuit : Nat) (s : State) : Response :=
  if h : circuit < 4 then .done (.clock (clockData s ⟨circuit, h⟩)) else badArgument

/-- READ_CLOCK_CIRCUIT (R104). -/
def execReadClockCircuit (circuit : Nat) (s : State) : Result :=
  .next (panelTake s fun s => (s, clockAnswer circuit s))

/-! ## Announcement Unit -/

/-- The start time of a post: the current campus reading plus 3 s (R133). -/
def postStart (s : State) : CampusTime := campusAdd s.time.campus 3000

/-- A post that admission refuses: the fault of its condition is recorded, with a free sequence (R133,
R180, log 15). -/
def refusePost (s : State) (r : Reason) : State :=
  if r = .tableFull ∨ r = .liveConflict then
    let id : Id := ⟨s.start.station, Config.refusedPostSequence s.fresh⟩
    admissionFault (s.withFresh (s.fresh + 1)) r id
  else s

/-- A post that is admitted (R133, step 6). -/
def admitPost (s : State) (post : AnnPost) : State × Response :=
  let seq := s.ann.ownSeq + 1
  let a : Announcement := ⟨⟨s.start.station, seq⟩, postStart s, post⟩
  let s1 := s.withAnn { s.ann with ownSeq := seq }
  let s2 := match post.kind with
    | .live limit => judgeLive s1 a.id a.start limit
    | .chime _ _ => s1
  let s3 := offer (takeAnnouncement s2 a) (.announce ⟨seq, a.start, post⟩)
  (s3, .done (.announcement seq a.start))

/-- ANNOUNCE as the Announcement Unit takes it (R133). -/
def announceTake (post : AnnPost) (s : State) : State × Response :=
  if !postInRange post then (s, badArgument)
  else if !inRun s then (s, .busy)
  else if s.line.listenOnly then (s, .refused .listenOnly)
  else if s.time.quality = .unset then (s, .refused .timeUnset)
  else
    let wins := winsLive s.ann ⟨s.start.station, s.ann.ownSeq + 1⟩ (postStart s)
    match admissionRefusal s post wins with
    | some r => (refusePost s r, .refused r)
    | none => admitPost s post

/-- ANNOUNCE (R133). -/
def execAnnounce (post : AnnPost) (s : State) : Result := .next (panelTake s (announceTake post))

/-- The own entry of the table with this sequence (R144); of two that carry one sequence, its numbers having
wrapped, the one in the lowest position, a DESIGN CHOICE (log 63). -/
def ownEntry (s : State) (seq : Byte) : Option TablePos :=
  (List.finRange 4).find? fun i => match s.ann.table[i] with
    | none => false
    | some e => decide (e.id = ⟨s.start.station, seq⟩)

/-- The start time of the own announcement that a sequence names (R144); a table entry comes before a last own
outcome of the same sequence, a DESIGN CHOICE (log 63). -/
def ownStart (s : State) (seq : Byte) : Option CampusTime :=
  match (ownEntry s seq).bind (fun i => s.ann.table[i]) with
  | some e => some e.start
  | none =>
    match s.ann.lastOwn with
    | some o => if o.seq = seq then some o.start else none
    | none => none

/-- An own announcement is ended everywhere (R144, steps 1 to 3). -/
def endOwn (s : State) (seq : Byte) (start : CampusTime) : State :=
  endAnnouncement (offer s (.annend seq start)) ⟨s.start.station, seq⟩ start

/-- ANNOUNCE END as the Announcement Unit takes it (R144). -/
def announceEndTake (seq : Byte) (s : State) : State × Response :=
  if !inRun s then (s, .busy)
  else match ownStart s seq with
    | none => (s, .refused .noSuchItem)
    | some start => (endOwn s seq start, done)

/-- ANNOUNCE_END (R144). -/
def execAnnounceEnd (sequence : Byte) (s : State) : Result :=
  .next (panelTake s (announceEndTake sequence))

/-! ## Drill Unit -/

/-- The id and start time of the current drill record. -/
def drillStartedData (s : State) : DoneData :=
  match s.drill.record with
  | none => .nothing
  | some r => .drillStarted r.id r.start

/-- DRILL START as the Drill Unit takes it (R157). -/
def drillStartTake (force : Bool) (s : State) : State × Response :=
  if s.drill.state ≠ .idle then (s, .busy)
  else if quietKind (effectiveKind s.plan (currentReading s)) && !force then (s, .refused .period)
  else
    let t := beginDrill s .practice
    (t, .done (drillStartedData t))

/-- DRILL_START (R157). -/
def execDrillStart (force : Bool) (s : State) : Result := .next (panelTake s (drillStartTake force))

/-- SIGNAL STOP as the Drill Unit takes it (R166). -/
def signalStopTake (s : State) : State × Response :=
  match s.drill.state, s.drill.record with
  | .idle, _ | _, none => (s, .refused .noDrill)
  | .evacuate, some r => (toAssemble s r (stopNow s), done)
  | _, some _ => (s, .refused .phase)

/-- SIGNAL_STOP (R166). -/
def execSignalStop (s : State) : Result := .next (panelTake s signalStopTake)

/-- The own building reported clear (R170). -/
def clearBuilding (s : State) (r : DrillRecord) : State :=
  let s1 := setRoll s r s.start.station (.cleared (clearElapsed s r))
  allClearTest (offerState s1)

/-- BUILDING CLEAR as the Drill Unit takes it (R170). -/
def buildingClearTake (s : State) : State × Response :=
  match s.drill.state, s.drill.record with
  | .idle, _ | _, none => (s, .refused .noDrill)
  | .allClear, some _ => (s, .refused .phase)
  | _, some r =>
    if (rollElapsed r.roll[s.start.station]).isSome then (s, done) else (clearBuilding s r, done)

/-- BUILDING_CLEAR (R170). -/
def execBuildingClear (s : State) : Result := .next (panelTake s buildingClearTake)

/-- The outcome of DRILL END by the state (R172). -/
def endOutcome (d : DrillState) : DrillOutcome := if d = .allClear then .complete else .endedEarly

/-- DRILL END as the Drill Unit takes it (R172). -/
def drillEndTake (s : State) : State × Response :=
  match s.drill.state, s.drill.record with
  | .idle, _ | _, none => (s, .refused .noDrill)
  | st, some r =>
    if r.kind = .real then (s, .refused .useAlarmReset)
    else (finishDrill s (endOutcome st) true, done)

/-- DRILL_END (R172). -/
def execDrillEnd (s : State) : Result := .next (panelTake s drillEndTake)

/-- A present peer's FA active is set for this drill (R173). -/
def peerFaActive (s : State) (r : DrillRecord) : Bool :=
  s.line.roster.toList.any fun e => e.present &&
    match e.fa with
    | none => false
    | some f => f.flag && decide (f.id = r.id) && decide (f.start = r.start)

/-- ALARM RESET as the Drill Unit takes it (R173). -/
def alarmResetTake (s : State) : State × Response :=
  match s.drill.state, s.drill.record with
  | .idle, _ | _, none => (s, .refused .noDrill)
  | _, some r =>
    if r.kind = .practice then (s, .refused .useDrillEnd)
    else if ownFaFlag s || peerFaActive s r then (s, .refused .faActive)
    else (finishDrill s .reset true, done)

/-- ALARM_RESET (R173). -/
def execAlarmReset (s : State) : Result := .next (panelTake s alarmResetTake)

/-- The record that READ DRILL RECORD selects (R174). -/
def selectedRecord (d : DrillUnit) : RecordChoice → Option DrillRecord
  | .current => if d.state = .idle then none else d.record
  | .last => d.last

/-- What READ DRILL RECORD answers (R174). -/
def drillRecordAnswer (choice : RecordChoice) (d : DrillUnit) : Response :=
  match selectedRecord d choice with
  | none => .refused .noDrill
  | some r => .done (.drillRecord r d.ended)

/-- READ_DRILL_RECORD (R174). -/
def execReadDrillRecord (choice : RecordChoice) (s : State) : Result :=
  .next (panelTake s fun s => (s, drillRecordAnswer choice s.drill))

/-! ## Status, roster, banks and notices -/

/-- READ_STATUS (R196). -/
def execReadStatus (s : State) : Result :=
  .next (panelTake s fun s => (s, .done (.status (statusSet s))))

/-- What READ ROSTER ENTRY answers (R197). -/
def rosterAnswer (number : Nat) (s : State) : Response :=
  if h : number < 16 then .done (.roster (rosterData s ⟨number, h⟩)) else badArgument

/-- READ_ROSTER_ENTRY (R197). -/
def execReadRosterEntry (number : Nat) (s : State) : Result :=
  .next (panelTake s fun s => (s, rosterAnswer number s))

/-- What READ BANK answers (R181). -/
def bankAnswer (bank : Nat) (f : FaultUnit) : Response :=
  if h : bank < 6 then .done (.bank f.banks[bank]) else badArgument

/-- READ_BANK (R181). -/
def execReadBank (bank : Nat) (s : State) : Result :=
  .next (panelTake s fun s => (s, bankAnswer bank s.faults))

/-- CLEAR BANK as the Fault Unit takes it (R181). -/
def clearBankTake (bank : Nat) (s : State) : State × Response :=
  if h : bank < 6 then
    (s.withFaults { s.faults with banks := s.faults.banks.set bank Bank.empty }, done)
  else (s, badArgument)

/-- CLEAR_BANK (R181). -/
def execClearBank (bank : Nat) (s : State) : Result := .next (panelTake s (clearBankTake bank))

/-- READ NOTICES as the Fault Unit takes it (R185). -/
def readNoticesTake (s : State) : State × Response :=
  (s.withFaults { s.faults with pending := Vector.replicate 12 false },
    .done (.notices (noticesInOrder s.image s.faults)))

/-- READ_NOTICES (R185). -/
def execReadNotices (s : State) : Result := .next (panelTake s readNoticesTake)

/-! ## RESTART -/

/-- RESTART where it is taken: DONE is placed, and the restart follows (R194, R203). -/
def restartTaken (s : State) : State :=
  let p := placeAnswer { s.port with dispatched := none } s.start.opState done
  restartStation (s.withPort p)

/-- RESTART (R194, R203). -/
def execRestart (s : State) : Result :=
  .next (if alive s && working s then restartTaken s else panelTake s fun s => (s, .busy))

end Sys2Proof.Machine
end

