-- ==== Sys2Proof/Machine/PortEvents.lean ====
section
/-! DEFINITION. The meanings of the panel port's events (R186 to R191). -/

namespace Sys2Proof.Machine

open Sys2Proof

/-- The station lives: events of the port reach it. -/
def whenAlive (s t : State) : State := if alive s then t else s

/-- The port with the bytes of a new transaction (R187, R188, R191). -/
def portClocked (s : State) (bytes : List Byte) : State :=
  s.withPort (clockIn s.port s.start.opState bytes)

/-- PANEL_REQUEST (R187 to R189). -/
def execPanelRequest (bytes : List Byte) (s : State) : Result :=
  .next (whenAlive s (portClocked s bytes))

/-- FETCH: a transaction of length 0 (R187, R191). -/
def execFetch (clocks : Nat) (s : State) : Result :=
  .next (whenAlive s (portClocked s (List.replicate clocks 0)))

/-- TRANSACTION_END (R187, R191). -/
def execTransactionEnd (bytes : List Byte) (s : State) : Result :=
  .next (whenAlive s (s.withPort (endTransaction s.port s.start.opState bytes)))

/-- The answer that waits is placed (R190). -/
def takeAnswer (s : State) : State :=
  match s.port.answer with
  | none => s
  | some r => s.withPort (placeAnswer s.port s.start.opState r)

/-- OWNER_ANSWER (R190). -/
def execOwnerAnswer (s : State) : Result :=
  .next (if alive s ∧ s.start.opState ≠ .halt then takeAnswer s else s)

end Sys2Proof.Machine
end

