-- ==== Sys2Proof/Machine/TimeEvents.lean ====
section
/-! DEFINITION. The meanings of the Time Unit's events (01_campus_time.md). -/

namespace Sys2Proof.Machine

open Sys2Proof

/-- In JOIN and RUN the event has its effect; in START, HALT and without supply it has none. -/
def whenWorking (s t : State) : State := if alive s && working s then t else s

/-- The REF input with its valid level high (R19). -/
def refHigh (s : State) : State :=
  s.withPins { s.pins with ref := ⟨true, some true, some true⟩ }

/-- MINUTE_MARK: taken in every operating state but HALT (R19, R21). -/
def execMinuteMark (s : State) : Result :=
  .next (if alive s ∧ s.start.opState ≠ .halt then decideMark (refHigh s) else s)

/-- REFERENCE_LAPSE: when a previous accepted mark is recorded (R23). -/
def execReferenceLapse (s : State) : Result :=
  .next (whenWorking s (if s.time.prevMark.isSome then lapseReference s else s))

/-- BEACON_TIMER: a round, then a BEACON (R9). -/
def execBeaconTimer (s : State) : Result :=
  .next (if alive s && inRun s then offerBeacon (agreementRound (startBeaconTimer s)) else s)

/-- The millisecond that ends a slew interval (R16). -/
def slewTickState (s : State) : State :=
  s.withTime (msTick { s.time with slewPhase := 99 })

/-- SLEW_TICK: while a slew is in progress (R16). -/
def execSlewTick (s : State) : Result :=
  .next (whenWorking s (if s.time.slewRemainder = 0 then s else slewTickState s))

/-- The second boundary has been taken. -/
def clearSecond (s : State) : State := s.withTime { s.time with secondDue := none }

/-- The minute boundary has been taken. -/
def clearMinute (s : State) : State := s.withTime { s.time with minuteDue := none }

/-- SECOND_BOUNDARY (R18, R83). -/
def execSecondBoundary (s : State) : Result :=
  .next (whenWorking s (bellSecond (clearSecond s) (secondReading s)))

/-- MINUTE_BOUNDARY (R18, R99, R110): the code frames begin with the status of the boundary, whose own computation sets no
resend flag, a DESIGN CHOICE (log 71). -/
def execMinuteBoundary (s : State) : Result :=
  .next (whenWorking s (clockAll (clearMinute s) (minuteReading s)))

/-- The next SETTIME copy of a set is offered (R26). -/
def nextSetCopy (s : State) : State :=
  match s.time.setCopies with
  | none => s
  | some c =>
    if c.nextAt.isSome then
      let c1 := { c with offered := c.offered + 1, nextAt := none }
      offer (s.withTime { s.time with setCopies := some c1 }) (.settime c.key c.delta)
    else s

/-- SETTIME_COPY (R26). -/
def execSettimeCopy (s : State) : Result := .next (whenWorking s (nextSetCopy s))

/-- START_MARK: the capture of the frame on the line (R8). -/
def execStartMark (s : State) : Result :=
  .next (whenWorking s (s.withTime { s.time with capture := some (markReading s) }))

end Sys2Proof.Machine
end

