-- ==== Sys2Proof/Machine/LineEvents.lean ====
section
/-! DEFINITION. The meanings of the Line Unit's events (02_the_campus_line.md, 2.2 to 2.7). -/

namespace Sys2Proof.Machine

open Sys2Proof

/-- CONTENTION_INSTANT: an IDLE station in RUN begins its head frame (R32, R35). -/
def execContentionInstant (s : State) : Result :=
  .next (if alive s && mayContend s then
      s.withLine { beginAttempt s.line with stuckFrom := s.time.localCount }
    else s)

/-- The Time Unit's record of the last own beacon sent, for a BEACON (R9, R36). -/
def recordSent (t : TimeUnit) (b : FrameBody) : TimeUnit :=
  match b with
  | .beacon c => { t with lastBeacon := some ⟨c.seq, t.capture⟩ }
  | _ => t

/-- The Line Unit when the frame in flight has been sent (R34, R36). -/
def sentLine (l : LineUnit) (now : Count) (b : FrameBody) : LineUnit :=
  let l1 := validFrameEnded { l with queue := withoutFlight l.queue } now
  { l1 with deference := if 2 ≤ bodyClass b then true else l.deference }

/-- A frame is sent: its owner is told, and a held frame enters (R36, R39). -/
def frameSent (s : State) (e : TxEntry) : State :=
  let s1 := (s.withLine (sentLine s.line s.time.localCount e.body)).withTime
    { recordSent s.time e.body with capture := none }
  offerHeld (told s1 e.body .sent) e.body

/-- FRAME_SENT (R36). -/
def execFrameSent (s : State) : Result :=
  .next (whenWorking s (match s.line.activity, inFlight s.line with
    | .sending, some e => frameSent s e
    | _, _ => s))

/-- The Line Unit when the station stops driving: another frame goes on on the line (R35). -/
def stoppedLine (l : LineUnit) : LineUnit := { l with activity := .busy, quiet := 0, dominant := true }

/-- The frame in flight with a failed attempt, back in the queue (R36). -/
def failFlight (q : List TxEntry) : List TxEntry :=
  q.map fun e => if e.inFlight then { e with attempts := e.attempts + 1, inFlight := false } else e

/-- A frame held aside replaces the frame whose attempt failed (R39). -/
def replaceHeld (s : State) (b : FrameBody) : State :=
  match heldFor s.line b with
  | none => s
  | some h =>
    let l := setHold s.line b none
    told (s.withLine { l with queue := replaceSort l.queue h }) b .replaced

/-- An attempt fails: the frame is dropped at the 8th, or contends again (R35, R36). -/
def attemptFailed (s : State) (e : TxEntry) : State :=
  let s1 := report (dropCapture (s.withLine (stoppedLine s.line))) (.collision (bodyKind e.body))
  if attemptMax ≤ e.attempts + 1 then
    let s2 := s1.withLine { s1.line with queue := withoutFlight s1.line.queue }
    offerHeld (told (report s2 (.frameDropped (bodyKind e.body))) e.body .dropped) e.body
  else replaceHeld (s1.withLine { s1.line with queue := failFlight s1.line.queue }) e.body

/-- ECHO_MISMATCH (R35, R36). -/
def execEchoMismatch (s : State) : Result :=
  .next (whenWorking s (match s.line.activity, inFlight s.line with
    | .sending, some e => attemptFailed s e
    | _, _ => s))

/-- DEFERENCE_LAPSE (R34). -/
def execDeferenceLapse (s : State) : Result :=
  .next (whenWorking s (s.withLine { s.line with deference := false }))

/-- The line has been busy for 50 ms: LINE STUCK, once for each stretch (R47). -/
def stuckLine (s : State) : State :=
  if s.line.activity ≠ .idle ∧ !s.line.stuckRecorded then
    report (s.withLine { s.line with stuckRecorded := true }) .lineStuck
  else s

/-- STUCK_WATCH (R47). -/
def execStuckWatch (s : State) : Result := .next (whenWorking s (stuckLine s))

/-- A received frame that fails a check is discarded; one of the station's own attempt is an echo mismatch, and
has ended (R43). -/
def damagedFrame (s : State) (d : Damage) : State :=
  match s.line.activity, inFlight s.line with
  | .sending, some e => lineLevel (attemptFailed s e) false
  | _, _ => report (dropCapture (s.withLine (activityEnded (busyFrom s.line s.time.localCount)))) (.damagedFrame d)

/-- What the end of a frame does where the line is watched, in JOIN and RUN; elsewhere the frame is not taken
and the line rests (R29, R200). -/
def whenListening (s t : State) : State := if alive s && working s then t else lineLevel s false

/-- DAMAGED_FRAME (R43). -/
def execDamagedFrame (damage : Damage) (s : State) : Result :=
  .next (whenListening s (damagedFrame s damage))

/-- Entry to LISTEN-ONLY (R26, R42, R45, R74, R161). -/
def enterListenOnly (s : State) : State :=
  { s with
    line := { emptyQueue s.line with listenOnly := true },
    time := { s.time with setCopies := none },
    drill := { s.drill with copies := [] },
    plan := { s.plan with serve := 0, queued := [] } }

/-- The line when a valid frame of another station has ended (R29, R47). -/
def receivedEnd (l : LineUnit) (now : Count) : LineUnit :=
  if l.activity = .sending then { l with stuckFrom := now } else validFrameEnded l now

/-- A valid frame bearing the station's own number (R45). -/
def duplicateFrame (s : State) : State :=
  let s1 := dropCapture (s.withLine (receivedEnd s.line s.time.localCount))
  if s.line.listenOnly then s1 else enterListenOnly (report s1 .duplicateStation)

/-- DUPLICATE_STATION (R45). -/
def execDuplicateStation (s : State) : Result := .next (whenListening s (duplicateFrame s))

/-- ABSENCE_DEADLINE of a peer that is present (R51). -/
def execAbsenceDeadline (peer : StationNo) (s : State) : Result :=
  .next (whenWorking s
    (if peer ≠ s.start.station ∧ s.line.roster[peer].present then losePeer s peer else s))

/-- Activity begins: on an idle line the stuck watch starts (R29, R47). -/
def lineBusy (s : State) : State :=
  match s.line.activity with
  | .sending => s
  | .idle => s.withLine { s.line with
      activity := .busy, quiet := 0, dominant := true, stuckFrom := s.time.localCount }
  | .busy => s.withLine { s.line with quiet := 0, dominant := true }

/-- LINE_BECOMES_BUSY (R29, R33, R47): a line that is not watched only keeps its level. -/
def execLineBecomesBusy (s : State) : Result :=
  .next (if alive s && working s then lineBusy s else lineLevel s true)

/-- The quiet time has reached 10 bit times: the line is idle and a stuck stretch ends (R29, R47). -/
def lineIdle (s : State) : State :=
  match s.line.activity with
  | .sending => s
  | _ => s.withLine { s.line with
      activity := .idle, quiet := max 10 s.line.quiet, dominant := false, stuckRecorded := false }

/-- LINE_BECOMES_IDLE (R29, R47): a line that is not watched only keeps its level. -/
def execLineBecomesIdle (s : State) : Result := .next (whenListening s (lineIdle s))

end Sys2Proof.Machine
end

