-- ==== Sys2Proof/Machine/ReceivedFrames.lean ====
section
/-! DEFINITION. The meanings of received frames: the steps common to every valid frame (R44 to R46, R208),
and what the owner of each kind does. -/

namespace Sys2Proof.Machine

open Sys2Proof

/-- The frame of a peer is heard: its roster entry takes it, and the deference flag is cleared (R46,
steps 1 and 2). -/
def frameHeard (s : State) (p : StationNo) : State :=
  let s1 := hearPeer (s.withLine (receivedEnd s.line s.time.localCount)) p
  s1.withLine { s1.line with deference := false }

/-- A received frame of a kind: damaged by its length, or a duplicate's, or heard and handed to its owner,
when it holds no undefined code (R44 to R46, R208). -/
def receive (s : State) (kind : FrameKind) (p : StationNo) (payload : List Byte)
    (hand : Option (State → State)) : State :=
  if !lengthAllowed kind payload then damagedFrame s .length
  else if p = s.start.station then duplicateFrame s
  else
    let s1 := frameHeard s p
    dropCapture (match hand with
      | none => s1
      | some f => f s1)

/-- A beacon handed to the Time Unit and the Line Unit, which tells the Plan Unit of another plan key
(R10, R49). -/
def handBeacon (p : StationNo) (c : BeaconContent) (s : State) : State :=
  let before : Option Key := s.line.roster[p].plan.map (·.1)
  let s1 := takeBeacon s p c
  let after : Option Key := c.plan.map (·.1)
  if after ≠ before then planReported s1 else s1

/-- BEACON (R7, R10, R28, R49). -/
def execBeacon (sender : StationNo) (payload : List Byte) (s : State) : Result :=
  .next (whenListening s
    (receive s .beacon sender payload ((beaconOf payload).map (handBeacon sender))))

/-- A SETTIME handed to the Time Unit (R27). -/
def handSettime (x : Key × Int) (s : State) : State := takeSettime s x.1 x.2

/-- SETTIME (R27). -/
def execSettime (sender : StationNo) (payload : List Byte) (s : State) : Result :=
  .next (whenListening s (receive s .settime sender payload ((settimeOf payload).map handSettime)))

/-- A PLAN frame: queued copies are suppressed, then the Plan Unit takes it (R41, R46, R71, R74). -/
def handPlan (x : PlanFrame) (s : State) : State := takePlanFrame (suppressPlan s x.key x.index) x

/-- PLAN (R41, R71, R74). -/
def execPlan (sender : StationNo) (payload : List Byte) (s : State) : Result :=
  .next (whenListening s (receive s .plan sender payload ((planFrameOf payload).map handPlan)))

/-- A PLANREQ handed to the Plan Unit (R74). -/
def handPlanreq (x : Key × FragmentMask) (s : State) : State := takePlanreq s x.1 x.2

/-- PLANREQ (R74). -/
def execPlanreq (sender : StationNo) (payload : List Byte) (s : State) : Result :=
  .next (whenListening s (receive s .planreq sender payload ((planreqOf payload).map handPlanreq)))

/-- The LIVE judgement of a received announcement (R134, R136). -/
def judgeReceived (a : Announcement) (s : State) : State :=
  match a.post.kind with
  | .live limit => judgeLive s a.id a.start limit
  | .chime _ _ => s

/-- Admission of a received announcement (R134, R135). -/
def admission (a : Announcement) (s : State) : State :=
  match admissionRefusal s a.post (isLiveRecord s.ann a.id a.start) with
  | some r => admissionFault s r a.id
  | none => admitReceived s a

/-- An ANNOUNCE frame handed to the Announcement Unit (R134). -/
def handAnnounce (p : StationNo) (c : AnnContent) (s : State) : State :=
  let a : Announcement := ⟨⟨p, c.seq⟩, c.start, c.post⟩
  if (findEntry s.ann a.id a.start).isSome || isLiveRecord s.ann a.id a.start then s
  else
    let s1 := judgeReceived a s
    if inRun s then admission a s1 else s1

/-- ANNOUNCE_FRAME (R134). -/
def execAnnounceFrame (sender : StationNo) (payload : List Byte) (s : State) : Result :=
  .next (whenListening s
    (receive s .announce sender payload ((announceOf payload).map (handAnnounce sender))))

/-- An ANNEND handed to the Announcement Unit (R145). -/
def handAnnend (p : StationNo) (x : Byte × CampusTime) (s : State) : State :=
  endAnnouncement s ⟨p, x.1⟩ x.2

/-- ANNEND (R145). -/
def execAnnend (sender : StationNo) (payload : List Byte) (s : State) : Result :=
  .next (whenListening s
    (receive s .annend sender payload ((annendOf payload).map (handAnnend sender))))

/-- The FA active field of a peer set (R50). -/
def setFaActive (s : State) (p : StationNo) (f : Option FaActive) : State :=
  s.withLine (setRoster s.line p { s.line.roster[p] with fa := f })

/-- A DRILL state frame: its FA flag goes to the roster, and the Drill Unit takes it (R46, R50, R162). -/
def handDrillState (p : StationNo) (c : DrillContent) (s : State) : State :=
  takeStateFrame (setFaActive s p (some ⟨c.fa, c.id, c.start⟩)) p c

/-- A DRILL state frame has form byte 00h; one with the form of an END frame is no state frame (R208). -/
def drillPayload (form : Nat) (payload : List Byte) : List Byte :=
  if fieldValue payload 0 1 = form then payload else []

/-- DRILL_STATE_FRAME (R162 to R164). -/
def execDrillStateFrame (sender : StationNo) (payload : List Byte) (s : State) : Result :=
  .next (whenListening s (receive s .drill sender (drillPayload 0 payload)
    ((drillStateFrameOf payload).map (handDrillState sender))))

/-- An END frame: the sender's FA active is cleared, and the Drill Unit takes it; a set own FA flag begins a
REAL drill when the drill has ended by it (R50, R158, R165). -/
def handEnd (p : StationNo) (e : EndedDrill) (s : State) : State :=
  let ends := isRunning s.drill e.id e.start
  let s1 := takeEndFrame (setFaActive s p none) e
  if ends && ownFaFlag s1 then beginReal s1 else s1

/-- END_FRAME (R165). -/
def execEndFrame (sender : StationNo) (payload : List Byte) (s : State) : Result :=
  .next (whenListening s (receive s .drill sender (drillPayload 1 payload)
    ((endFrameOf payload).map (handEnd sender))))

end Sys2Proof.Machine
end

