-- ==== Sys2Proof/Machine/PlanEvents.lean ====
section
/-! DEFINITION. The meanings of the Plan Unit's timers (R65, R72, R75). -/

namespace Sys2Proof.Machine

open Sys2Proof

/-- SERVE_PAUSE: the pause after a refusal ends and the cursor runs (R75). -/
def execServePause (s : State) : Result :=
  .next (whenWorking s (if s.plan.pausedUntil.isSome then
      runCursor (s.withPlan { s.plan with pausedUntil := none })
    else s))

/-- A load is abandoned (R65); the fetch evaluation of R61 follows in the same step, so that a load command taken
after it can meet FETCHING, and is then answered as there (DEDUCED, log 51). -/
def abandonLoad (s : State) (f : Fragments) : State :=
  freeStaging (raise (report s (.loadAbandoned (heldCount f))) .loadAbandoned)

/-- LOAD_TIMER (R65): when a load command that was taken first has restarted the timer, the load goes on. -/
def execLoadTimer (s : State) : Result :=
  .next (whenWorking s (match s.plan.staging with
    | .loading f t => stagingExpiry s t (abandonLoad s f)
    | _ => s))

/-- NO_PROGRESS_TIMER (R72): when a new fragment that was taken first has restarted the timer, the expiry does not
occur. -/
def execNoProgressTimer (s : State) : Result :=
  .next (whenWorking s (match s.plan.staging with
    | .fetching f => stagingExpiry s f.timer (fetchExpired s f)
    | _ => s))

end Sys2Proof.Machine
end

