-- ==== Sys2Proof/Machine/AnnounceEvents.lean ====
section
/-! DEFINITION. The meanings of the events of announcements and of the Zone Arbiter (R122, R123, R132,
R138 to R146). -/

namespace Sys2Proof.Machine

open Sys2Proof

/-- START_TRIGGER of a GATHERING entry (R138). -/
def execStartTrigger (entry : TablePos) (s : State) : Result :=
  .next (whenWorking s (startEntry s entry))

/-- GATHER_LIMIT of a GATHERING entry (R138). -/
def execGatherLimit (entry : TablePos) (s : State) : Result :=
  .next (whenWorking s (startEntry s entry))

/-- A PLAYING entry of LIVE, or of CHIME, ends with an outcome. -/
def endPlaying (s : State) (i : TablePos) (live : Bool) (o : AnnOutcome) : State :=
  match s.ann.table[i] with
  | none => s
  | some e => if e.state = .playing ∧ isLive e.kind = live then endEntry s i o else s

/-- END_DEADLINE of a PLAYING LIVE entry (R142). -/
def execEndDeadline (entry : TablePos) (s : State) : Result :=
  .next (whenWorking s (endPlaying s entry true .limit))

/-- LIVE_RECORD_EXPIRY: every entry of the announcement has ended by then (R132, log 58). -/
def execLiveRecordExpiry (s : State) : Result := .next (whenWorking s (dropLive s))

/-- CHIME_COMPLETE of a PLAYING CHIME (R141). -/
def execChimeComplete (entry : TablePos) (s : State) : Result :=
  .next (whenWorking s (endPlaying s entry false .completed))

/-- A notice that an announcement slot's owner takes (R123, R140). -/
def annNotice (s : State) (i : TablePos) (n : ClaimNotice) : State :=
  match s.ann.table[i] with
  | none => s
  | some e =>
    checkHope (setEntry s i (some { e with known := knownAfter e.known n })) i
      (decide (n.kind = .preempted))

/-- The oldest notice to a slot is taken, or dropped when the claim it names is gone (R123). -/
def takeNotice (s : State) (slot : SlotNo) (act : State → ClaimNotice → State) : State :=
  match firstNotice s.arb slot with
  | none => s
  | some n =>
    let s1 := s.withArb (dropNotice s.arb slot)
    if noticeLive s.arb n then act s1 n else s1

/-- ANNOUNCE_CLAIM_NOTICE (R123, R140). -/
def execAnnounceClaimNotice (entry : TablePos) (s : State) : Result :=
  .next (whenWorking s (takeNotice s (annSlot entry) fun s n => annNotice s entry n))

/-- END_ALL_ORDER (R146). -/
def execEndAllOrder (s : State) : Result := .next (whenWorking s (endAllEntries s))

/-- WAIT_DEADLINE of a slot's claim (R122). -/
def execWaitDeadline (slot : SlotNo) (s : State) : Result :=
  .next (whenWorking s (withArbiter s (expireWaits s.arb slot)))

end Sys2Proof.Machine
end

