-- ==== Sys2Proof/Machine/BellEvents.lean ====
section
/-! DEFINITION. The meanings of the Bell Unit's events and of the drill's orders to it (R79, R81, R88, R91,
R93 to R95). -/

namespace Sys2Proof.Machine

open Sys2Proof

/-- PULSE_ON_END (R79). -/
def execPulseOnEnd (circuit : BellNo) (s : State) : Result :=
  .next (whenWorking s (pulseOnEnd s circuit))

/-- PULSE_OFF_END (R79, R92). -/
def execPulseOffEnd (circuit : BellNo) (s : State) : Result :=
  .next (whenWorking s (pulseOffEnd s circuit))

/-- REST_END (R81). -/
def execRestEnd (circuit : BellNo) (s : State) : Result :=
  .next (whenWorking s (genRestEnd s circuit))

/-- EVAC_PATTERN (R94). -/
def execEvacPattern (s : State) : Result :=
  .next (whenWorking s (s.withBells (evacStep s.bells s.time.localCount)))

/-- The BB input with its valid level pressed (R88). -/
def buttonPressed (s : State) : State :=
  s.withPins { s.pins with bb := ⟨true, some true, some true⟩ }

/-- The circuits that the button rings (R88). -/
def buttonCircuits (img : Image) : List BellNo := (List.finRange 6).filter fun c => img.bells[c].button

/-- What a press does in RUN while the drill is IDLE (R88). -/
def pressRings (s : State) : State :=
  if inRun s && !s.bells.drillFlag then giveRequests s (buttonCircuits s.image) ⟨0, .button⟩ else s

/-- BELL_BUTTON_PRESS: the press is ignored in START and HALT (R88). -/
def execBellButtonPress (s : State) : Result :=
  .next (if alive s ∧ s.start.opState ≠ .halt then pressRings (buttonPressed s) else s)

/-- A notice that a bell slot's owner takes (R91, R123). -/
def bellNotice (s : State) (k : BellSlotNo) (n : ClaimNotice) : State :=
  match s.bells.slots[k] with
  | none => s
  | some x =>
    let s1 := s.withBells (setSlot s.bells k (some { x with known := knownAfter x.known n }))
    reportBell (checkBellSlot s1 k) k

/-- BELL_CLAIM_NOTICE (R91, R123). -/
def execBellClaimNotice (slot : BellSlotNo) (s : State) : Result :=
  .next (whenWorking s (takeNotice s (bellSlot slot) fun s n => bellNotice s slot n))

/-- SUPPRESS_ORDER (R93). -/
def execSuppressOrder (s : State) : Result :=
  .next (whenWorking s (s.withBells (suppressBells s.bells)))

/-- EVACUATION_ORDER (R94). -/
def execEvacuationOrder (s : State) : Result := .next (whenWorking s (evacuateBells s))

/-- STOP_ORDER (R95). -/
def execStopOrder (s : State) : Result := .next (whenWorking s (s.withBells (stopBells s.bells)))

/-- RESUME_ORDER (R93). -/
def execResumeOrder (s : State) : Result := .next (whenWorking s (s.withBells (resumeBells s.bells)))

end Sys2Proof.Machine
end

