-- ==== Sys2Proof/Machine/ClockEvents.lean ====
section
/-! DEFINITION. The meanings of the Clock Unit's events (R100, R101, R110). -/

namespace Sys2Proof.Machine

open Sys2Proof

/-- IMPULSE_MIDPOINT (R100). -/
def execImpulseMidpoint (circuit : ClockNo) (sense : SenseResult) (s : State) : Result :=
  .next (whenWorking s (impulseMid s circuit sense))

/-- IMPULSE_END (R101, R102). -/
def execImpulseEnd (circuit : ClockNo) (s : State) : Result :=
  .next (whenWorking s (impulseOver s circuit))

/-- IMPULSE_REST_END (R101). -/
def execImpulseRestEnd (circuit : ClockNo) (s : State) : Result :=
  .next (whenWorking s (restOver s circuit))

/-- CODE_FRAME_END (R110). -/
def execCodeFrameEnd (circuit : ClockNo) (s : State) : Result :=
  .next (whenWorking s (codeEnd s circuit))

end Sys2Proof.Machine
end

