-- ==== Sys2Proof/Machine/DrillEvents.lean ====
section
/-! DEFINITION. The meanings of the Drill Unit's events (R151, R157, R158, R160, R161, R166 to R168). -/

namespace Sys2Proof.Machine

open Sys2Proof

/-- The FA input with this valid level (R151). -/
def faLevel (s : State) (b : Bool) : State := s.withPins { s.pins with fa := ⟨b, some b, some b⟩ }

/-- The DK input with its valid level active (R151). -/
def dkActive (s : State) : State := s.withPins { s.pins with dk := ⟨true, some true, some true⟩ }

/-- An activation by operating state: kept for JOIN in START, acted on in JOIN and RUN, not taken in HALT
(R151, R200). -/
def activation (s kept acted : State) : State :=
  match s.start.opState with
  | .start => kept
  | .halt => s
  | _ => acted

/-- The contact is active, or inactive, by a row: the valid FA level is the one that the polarity says, once the
image is there; before that the row is kept until the image gives the polarity (R151, log 40). -/
def faIs (s : State) (active : Bool) : State :=
  if beforeImage s then s.withStart { s.start with faRow := some active }
  else faLevel s (if active then faActiveLevel s.image else !faActiveLevel s.image)

/-- FA_ACTIVATION (R151, R158, R200). -/
def execFaActivation (s : State) : Result :=
  let t := faIs s true
  .next (whenAlive s (activation s (t.withStart { t.start with faLatched := true }) (faAct t)))

/-- FA_RELEASE: the own FA flag clears, and a state frame is offered while a drill runs (R151, R160). -/
def execFaRelease (s : State) : Result :=
  let t := faIs s false
  .next (whenAlive s (activation s t (offerState t)))

/-- DK_ACTIVATION (R151, R157). -/
def execDkActivation (s : State) : Result :=
  let t := dkActive s
  .next (whenAlive s (activation s (t.withStart { t.start with dkLatched := true }) (dkAct t)))

/-- PERIODIC_FRAME_TIMER (R160). -/
def execPeriodicFrameTimer (s : State) : Result := .next (whenWorking s (offerState s))

/-- The END copies whose next copy is due, or else the first that waits for its time. -/
def copyToSend (d : DrillUnit) (now : Count) : Option EndCopies :=
  match d.copies.find? (fun c => deadlineReached now c.nextAt) with
  | some c => some c
  | none => d.copies.find? (·.nextAt.isSome)

/-- One more copy of a drill's END has been offered (R161). -/
def copyOffered (d : DrillUnit) (e : EndedDrill) : DrillUnit :=
  { d with copies := d.copies.map fun c =>
      if c.drill.id = e.id ∧ c.drill.start = e.start then
        { c with offered := c.offered + 1, nextAt := none }
      else c }

/-- The next END copy is offered (R161). -/
def nextEndCopy (s : State) : State :=
  match copyToSend s.drill s.time.localCount with
  | none => s
  | some c =>
    offer (s.withDrill (copyOffered s.drill c.drill))
      (.drillEnd c.drill.id c.drill.start c.drill.outcome true)

/-- END_COPY (R161). -/
def execEndCopy (s : State) : Result := .next (whenWorking s (nextEndCopy s))

/-- The running drill is a PRACTICE in this state: its deadline acts on its record. -/
def practiceIn (s : State) (st : DrillState) (f : DrillRecord → State) : State :=
  match s.drill.record with
  | none => s
  | some r => if r.kind = .practice ∧ s.drill.state = st then f r else s

/-- EVACUATION_DEADLINE (R166). -/
def execEvacuationDeadline (s : State) : Result :=
  .next (whenWorking s (practiceIn s .evacuate fun r => toAssemble s r (stopNow s)))

/-- The assemble limit ends the drill TIMED-OUT (R167). -/
def timeOut (s : State) (r : DrillRecord) : State :=
  report (finishDrill s .timedOut true) (.assembleTimedOut (rollPending r.roll))

/-- ASSEMBLE_DEADLINE (R167). -/
def execAssembleDeadline (s : State) : Result :=
  .next (whenWorking s (practiceIn s .assemble (timeOut s)))

/-- END_OF_ALL_CLEAR (R168). -/
def execEndOfAllClear (s : State) : Result :=
  .next (whenWorking s (practiceIn s .allClear fun _ => finishDrill s .complete true))

/-- The drill slot holds the all-clear claim (R168). -/
def allClearHeld (a : Arbiter) : Bool :=
  match claimIn a drillSlot with
  | none => false
  | some c => decide (c.level = .urgent)

/-- ALL_CLEAR_COMPLETE: the all-clear claim is withdrawn whole (R168). -/
def execAllClearComplete (s : State) : Result :=
  .next (whenWorking s (if allClearHeld s.arb then dropDrillClaim s else s))

/-- A notice that the drill slot's owner takes: a lost SYN ends the claim (R168). -/
def drillClaimNotice (s : State) (n : ClaimNotice) : State :=
  if n.res = synRes ∧ n.kind ≠ .granted ∧ allClearHeld s.arb then dropDrillClaim s else s

/-- DRILL_CLAIM_NOTICE (R123, R168). -/
def execDrillClaimNotice (s : State) : Result :=
  .next (whenWorking s (takeNotice s drillSlot drillClaimNotice))

end Sys2Proof.Machine
end

