-- ==== Sys2Proof/Machine/StartEvents.lean ====
section
/-! DEFINITION. The meanings of the events of supply, RESET, PFW and the configuration memory (R198 to R207,
R211). -/

namespace Sys2Proof.Machine

open Sys2Proof

/-- POWER_ON: START, held while RESET is asserted (R198). -/
def execPowerOn (s : State) : Result :=
  .next (if s.start.resetHeld then heldInReset (s.withStart { s.start with powered := true })
    else startEvent s)

/-- RESET_ASSERT: the current state ends at once, a dial write with it (R198, R211). -/
def execResetAssert (s : State) : Result := .next (heldInReset (cutDialWrite s))

/-- The release of RESET: a start event, when there is supply (R198). -/
def released (s : State) : State :=
  if s.start.powered then startEvent s else s.withStart { s.start with resetHeld := false }

/-- RESET_RELEASE (R198). -/
def execResetRelease (s : State) : Result := .next (if s.start.resetHeld then released s else s)

/-- The PFW input with this valid level (R198). -/
def pfwLevel (s : State) (b : Bool) : State := s.withPins { s.pins with pfw := ⟨b, some b, some b⟩ }

/-- POWER_FAIL_WARNING: entry to HALT from START, JOIN and RUN (R198, R204). -/
def execPowerFailWarning (s : State) : Result :=
  let t := pfwLevel s true
  .next (whenAlive s (if s.start.opState = .halt then t else enterHalt t))

/-- The warning ends in HALT: a start event, once a dial write is complete (R198, R204). -/
def warningOver (s : State) : State :=
  match s.store.state with
  | .dialWrite _ => s.withStart { s.start with startAfterWrite := true }
  | _ => startEvent s

/-- PFW_END (R198, R204). -/
def execPfwEnd (s : State) : Result :=
  let t := pfwLevel s false
  .next (whenAlive s (if s.start.opState = .halt then warningOver t else t))

/-- The start sequence is at the read of this record (R200). -/
def readingNow (s : State) (r : RecordName) : Bool :=
  alive s && decide (s.start.opState = .start) && decide (s.store.state = .reading r)

/-- IMAGE_READ (R199, R200). -/
def execImageRead (readFailure : Bool) (s : State) : Result :=
  .next (if readingNow s .image then takeImage s readFailure else s)

/-- PLAN_RECORD_READ (R56, R200). -/
def execPlanRecordRead (readFailure : Bool) (s : State) : Result :=
  .next (if readingNow s .plan then takePlanRecord s readFailure else s)

/-- DIAL_RECORD_READ (R112, R200). -/
def execDialRecordRead (readFailure : Bool) (s : State) : Result :=
  .next (if readingNow s .dial then takeDialRecord s readFailure else s)

/-- The dial record marked invalid; a wanted save begins (R200, R206, R211). -/
def markingDone (s : State) : State :=
  match s.store.state with
  | .marking => storeDone (s.withMem (memWrite s.mem dialAddress markClear))
  | _ => s

/-- MARKING_END (R200, R206). -/
def execMarkingEnd (s : State) : Result := .next (whenAlive s (markingDone s))

/-- The expiry of the JOIN timer: it does not occur when a RESTART with which it fell together was taken first and
the fresh timer runs; otherwise the station enters RUN (R201, R202, log 55). -/
def joinExpiry (s : State) : State :=
  let t := s.withStart { s.start with joinOvertaken := false }
  if s.start.joinOvertaken && !deadlineReached s.time.localCount s.start.joinDeadline then t else enterRun t

/-- JOIN_TIMER: the station in JOIN enters RUN (R201, R202). -/
def execJoinTimer (s : State) : Result :=
  .next (if alive s ∧ s.start.opState = .join then joinExpiry s else s)

/-- A plan save is complete; a wanted save begins (R205, R206). -/
def saveDone (s : State) : State :=
  match s.store.state with
  | .saving p _ => storeDone (s.withMem (writePlan s.mem p))
  | _ => s

/-- PLAN_SAVE_COMPLETE (R205, R206). -/
def execPlanSaveComplete (s : State) : Result := .next (whenAlive s (saveDone s))

/-- A dial write is over: a start event when the warning has ended meanwhile (R204, R207). -/
def dialWriteOver (s : State) : State :=
  if s.start.startAfterWrite then startEvent s else s.withStore ⟨.idle, false⟩

/-- A write fails: a save ends with PLAN SAVE FAILED, the marking and the dial write end without a record
(R200, R206, R207). That a failed marking leaves the mark byte as it stood, where R200 only lets the record
stay valid, is the model's choice (log 75, DESIGN CHOICE). -/
def writeFailed (s : State) : State :=
  match s.store.state with
  | .saving p _ => storeDone (report s (.planSaveFailed p.key.gen))
  | .marking => storeDone s
  | .dialWrite _ => dialWriteOver (cutDialWrite s)
  | _ => s

/-- WRITE_FAILURE (R200, R206, R207). -/
def execWriteFailure (s : State) : Result := .next (whenAlive s (writeFailed s))

/-- The dial write is complete (R207, R211). -/
def dialWritten (s : State) : State :=
  match s.store.state with
  | .dialWrite entries => dialWriteOver (s.withMem (writeDial s.mem entries))
  | _ => s

/-- DIAL_WRITE_COMPLETE (R204, R207). -/
def execDialWriteComplete (s : State) : Result := .next (whenAlive s (dialWritten s))

/-- LOSS_OF_POWER: the station stops, a dial write is cut short (R204, R211). -/
def execLossOfPower (s : State) : Result :=
  let t := cutDialWrite s
  .next ((t.withStart { t.start with powered := false }).withStore ⟨.idle, false⟩)

/-- Part 1 of a save has ended: the valid mark is cleared (R205, R211). -/
def markCleared (s : State) : State :=
  match s.store.state with
  | .saving p _ =>
    (s.withMem (memWrite s.mem planAddress markClear)).withStore ⟨.saving p true, s.store.wanted⟩
  | _ => s

/-- VALID_MARK_CLEARED (R205, R211). -/
def execValidMarkCleared (s : State) : Result := .next (whenAlive s (markCleared s))

end Sys2Proof.Machine
end

