-- ==== Sys2Proof/Machine/Dispatch.lean ====
section
/-! DEFINITION. One arm for each command: its meaning. -/

namespace Sys2Proof.Machine

open Sys2Proof

/-- The effect of a command on everything but the queue. -/
def exec (i : Instr) (s : State) : Host.Outcome State Fault Refusal :=
  match i with
  | .setTime t => Sys2Proof.Machine.execSetTime t s
  | .referenceLabel t => Sys2Proof.Machine.execReferenceLabel t s
  | .loadBegin choice => Sys2Proof.Machine.execLoadBegin choice s
  | .loadFragment index content => Sys2Proof.Machine.execLoadFragment index content s
  | .loadCommit digest => Sys2Proof.Machine.execLoadCommit digest s
  | .loadAbort => Sys2Proof.Machine.execLoadAbort s
  | .overrideAdd first last kind => Sys2Proof.Machine.execOverrideAdd first last kind s
  | .overrideRemove position => Sys2Proof.Machine.execOverrideRemove position s
  | .readPlanItem item => Sys2Proof.Machine.execReadPlanItem item s
  | .ring circuits pattern => Sys2Proof.Machine.execRing circuits pattern s
  | .dialSet circuit position polarity => Sys2Proof.Machine.execDialSet circuit position polarity s
  | .clockClear circuit => Sys2Proof.Machine.execClockClear circuit s
  | .readClockCircuit circuit => Sys2Proof.Machine.execReadClockCircuit circuit s
  | .announce post => Sys2Proof.Machine.execAnnounce post s
  | .announceEnd sequence => Sys2Proof.Machine.execAnnounceEnd sequence s
  | .drillStart force => Sys2Proof.Machine.execDrillStart force s
  | .signalStop => Sys2Proof.Machine.execSignalStop s
  | .buildingClear => Sys2Proof.Machine.execBuildingClear s
  | .drillEnd => Sys2Proof.Machine.execDrillEnd s
  | .alarmReset => Sys2Proof.Machine.execAlarmReset s
  | .readDrillRecord choice => Sys2Proof.Machine.execReadDrillRecord choice s
  | .readStatus => Sys2Proof.Machine.execReadStatus s
  | .readRosterEntry number => Sys2Proof.Machine.execReadRosterEntry number s
  | .readBank bank => Sys2Proof.Machine.execReadBank bank s
  | .clearBank bank => Sys2Proof.Machine.execClearBank bank s
  | .readNotices => Sys2Proof.Machine.execReadNotices s
  | .restart => Sys2Proof.Machine.execRestart s
  | .panelRequest bytes => Sys2Proof.Machine.execPanelRequest bytes s
  | .fetch clocks => Sys2Proof.Machine.execFetch clocks s
  | .transactionEnd partialBytes => Sys2Proof.Machine.execTransactionEnd partialBytes s
  | .ownerAnswer => Sys2Proof.Machine.execOwnerAnswer s
  | .minuteMark => Sys2Proof.Machine.execMinuteMark s
  | .referenceLapse => Sys2Proof.Machine.execReferenceLapse s
  | .beaconTimer => Sys2Proof.Machine.execBeaconTimer s
  | .slewTick => Sys2Proof.Machine.execSlewTick s
  | .secondBoundary => Sys2Proof.Machine.execSecondBoundary s
  | .minuteBoundary => Sys2Proof.Machine.execMinuteBoundary s
  | .settimeCopy => Sys2Proof.Machine.execSettimeCopy s
  | .contentionInstant => Sys2Proof.Machine.execContentionInstant s
  | .frameSent => Sys2Proof.Machine.execFrameSent s
  | .echoMismatch => Sys2Proof.Machine.execEchoMismatch s
  | .deferenceLapse => Sys2Proof.Machine.execDeferenceLapse s
  | .stuckWatch => Sys2Proof.Machine.execStuckWatch s
  | .damagedFrame damage => Sys2Proof.Machine.execDamagedFrame damage s
  | .duplicateStation => Sys2Proof.Machine.execDuplicateStation s
  | .absenceDeadline peer => Sys2Proof.Machine.execAbsenceDeadline peer s
  | .beacon sender payload => Sys2Proof.Machine.execBeacon sender payload s
  | .settime sender payload => Sys2Proof.Machine.execSettime sender payload s
  | .plan sender payload => Sys2Proof.Machine.execPlan sender payload s
  | .planreq sender payload => Sys2Proof.Machine.execPlanreq sender payload s
  | .servePause => Sys2Proof.Machine.execServePause s
  | .loadTimer => Sys2Proof.Machine.execLoadTimer s
  | .noProgressTimer => Sys2Proof.Machine.execNoProgressTimer s
  | .announceFrame sender payload => Sys2Proof.Machine.execAnnounceFrame sender payload s
  | .annend sender payload => Sys2Proof.Machine.execAnnend sender payload s
  | .startTrigger entry => Sys2Proof.Machine.execStartTrigger entry s
  | .gatherLimit entry => Sys2Proof.Machine.execGatherLimit entry s
  | .endDeadline entry => Sys2Proof.Machine.execEndDeadline entry s
  | .liveRecordExpiry => Sys2Proof.Machine.execLiveRecordExpiry s
  | .chimeComplete entry => Sys2Proof.Machine.execChimeComplete entry s
  | .announceClaimNotice entry => Sys2Proof.Machine.execAnnounceClaimNotice entry s
  | .endAllOrder => Sys2Proof.Machine.execEndAllOrder s
  | .waitDeadline slot => Sys2Proof.Machine.execWaitDeadline slot s
  | .pulseOnEnd circuit => Sys2Proof.Machine.execPulseOnEnd circuit s
  | .pulseOffEnd circuit => Sys2Proof.Machine.execPulseOffEnd circuit s
  | .restEnd circuit => Sys2Proof.Machine.execRestEnd circuit s
  | .evacPattern => Sys2Proof.Machine.execEvacPattern s
  | .bellButtonPress => Sys2Proof.Machine.execBellButtonPress s
  | .bellClaimNotice slot => Sys2Proof.Machine.execBellClaimNotice slot s
  | .suppressOrder => Sys2Proof.Machine.execSuppressOrder s
  | .evacuationOrder => Sys2Proof.Machine.execEvacuationOrder s
  | .stopOrder => Sys2Proof.Machine.execStopOrder s
  | .resumeOrder => Sys2Proof.Machine.execResumeOrder s
  | .impulseMidpoint circuit sense => Sys2Proof.Machine.execImpulseMidpoint circuit sense s
  | .impulseEnd circuit => Sys2Proof.Machine.execImpulseEnd circuit s
  | .impulseRestEnd circuit => Sys2Proof.Machine.execImpulseRestEnd circuit s
  | .codeFrameEnd circuit => Sys2Proof.Machine.execCodeFrameEnd circuit s
  | .faActivation => Sys2Proof.Machine.execFaActivation s
  | .faRelease => Sys2Proof.Machine.execFaRelease s
  | .dkActivation => Sys2Proof.Machine.execDkActivation s
  | .drillStateFrame sender payload => Sys2Proof.Machine.execDrillStateFrame sender payload s
  | .endFrame sender payload => Sys2Proof.Machine.execEndFrame sender payload s
  | .periodicFrameTimer => Sys2Proof.Machine.execPeriodicFrameTimer s
  | .endCopy => Sys2Proof.Machine.execEndCopy s
  | .evacuationDeadline => Sys2Proof.Machine.execEvacuationDeadline s
  | .assembleDeadline => Sys2Proof.Machine.execAssembleDeadline s
  | .endOfAllClear => Sys2Proof.Machine.execEndOfAllClear s
  | .allClearComplete => Sys2Proof.Machine.execAllClearComplete s
  | .drillClaimNotice => Sys2Proof.Machine.execDrillClaimNotice s
  | .powerOn => Sys2Proof.Machine.execPowerOn s
  | .resetAssert => Sys2Proof.Machine.execResetAssert s
  | .resetRelease => Sys2Proof.Machine.execResetRelease s
  | .powerFailWarning => Sys2Proof.Machine.execPowerFailWarning s
  | .pfwEnd => Sys2Proof.Machine.execPfwEnd s
  | .imageRead readFailure => Sys2Proof.Machine.execImageRead readFailure s
  | .planRecordRead readFailure => Sys2Proof.Machine.execPlanRecordRead readFailure s
  | .dialRecordRead readFailure => Sys2Proof.Machine.execDialRecordRead readFailure s
  | .markingEnd => Sys2Proof.Machine.execMarkingEnd s
  | .joinTimer => Sys2Proof.Machine.execJoinTimer s
  | .planSaveComplete => Sys2Proof.Machine.execPlanSaveComplete s
  | .writeFailure => Sys2Proof.Machine.execWriteFailure s
  | .dialWriteComplete => Sys2Proof.Machine.execDialWriteComplete s
  | .startMark => Sys2Proof.Machine.execStartMark s
  | .lineBecomesBusy => Sys2Proof.Machine.execLineBecomesBusy s
  | .lineBecomesIdle => Sys2Proof.Machine.execLineBecomesIdle s
  | .lossOfPower => Sys2Proof.Machine.execLossOfPower s
  | .validMarkCleared => Sys2Proof.Machine.execValidMarkCleared s

end Sys2Proof.Machine
end

