-- ==== Sys2Proof/Machine/Tick.lean ====
section
/-! DEFINITION. What a step does while no command waits (log 2): one bit time of 16 µs passes, and the events
whose time has come are put in the queue. -/

namespace Sys2Proof.Machine

open Sys2Proof

/-! ## The inputs (R19, R88, R151, R198) -/

/-- One sample of an input: its level becomes valid when it equals the sample before. -/
def sampleInput (i : Input) : Input :=
  ⟨i.line, some i.line, if i.last = some i.line then some i.line else i.valid⟩

/-- The milliseconds between two samples of FA, DK and BB (R88, R151). -/
def slowSampleMs : Nat := 10

/-- The millisecond that ends now is one in which FA, DK and BB are sampled: every tenth from the start event on, a
phase that the rules leave open: a DESIGN CHOICE (log 57). -/
def slowSampleDue (u : StartUnit) : Bool := decide (slowSampleMs ≤ u.inputPhase + 1)

/-- The milliseconds since FA, DK and BB were sampled, once one more has passed. -/
def inputsPassed (u : StartUnit) : StartUnit :=
  { u with inputPhase := if slowSampleDue u then 0 else u.inputPhase + 1 }

/-- The inputs at the end of a millisecond: REF and PFW are sampled every millisecond, FA, DK and BB where `slow`
says so (log 57); in HALT only PFW is taken. -/
def samplePins (op : OpState) (slow : Bool) (p : Pins) : Pins :=
  let q := { p with pfw := sampleInput p.pfw }
  if op = .halt then q
  else
    let r := { q with ref := sampleInput q.ref }
    if slow then
      { r with fa := sampleInput r.fa, dk := sampleInput r.dk, bb := sampleInput r.bb }
    else r

/-- A valid level changed to this level; the first valid level counts where `first` says so. -/
def became (level first : Bool) (old new : Input) : Bool :=
  decide (new.valid = some level) && (decide (old.valid = some !level) || (first && old.valid.isNone))

/-- The event of an input when its condition holds. -/
def eventIf (b : Bool) (i : Instr) : List Instr := if b then [i] else []

/-- The events of the inputs between two samples (R19, R88, R151, R198); FA has its events once the image has
given its polarity. -/
def pinEvents (img : Image) (faJudged : Bool) (old new : Pins) : List Instr :=
  eventIf (became true true old.pfw new.pfw) .powerFailWarning ++
  eventIf (became false false old.pfw new.pfw) .pfwEnd ++
  eventIf (faJudged && became (faActiveLevel img) true old.fa new.fa) .faActivation ++
  eventIf (faJudged && became (!faActiveLevel img) false old.fa new.fa) .faRelease ++
  eventIf (became true false old.dk new.dk) .dkActivation ++
  eventIf (became true false old.bb new.bb) .bellButtonPress ++
  eventIf (became true false old.ref new.ref) .minuteMark

/-! ## The passing of time (R3, R4, R29, R148) -/

/-- The boundaries emitted outside JOIN and RUN reach no block. -/
def dropBoundaries (s : State) : State :=
  if working s then s
  else s.withTime { s.time with secondDue := none, minuteDue := none }

/-- The valid FA level of the samples is kept until the image gives its polarity, unless a row has given it
(R151, log 40). -/
def faSeen (u : StartUnit) (before : Bool) (fa : Input) : StartUnit :=
  if before && u.faRow.isNone then
    { u with faClosedSeen := u.faClosedSeen || decide (fa.valid = some true),
             faOpenSeen := u.faOpenSeen || decide (fa.valid = some false) }
  else u

/-- A millisecond ends: the clocks of the Time Unit advance and the inputs are sampled. -/
def millisecond (s : State) : State :=
  let s1 := dropBoundaries (s.withTime (msTick s.time))
  let p := samplePins s.start.opState (slowSampleDue s.start) s.pins
  ((s1.withPins p).withStart (faSeen (inputsPassed s.start) (beforeImage s) p.fa)).withPending
    (s.pending ++ pinEvents s.image (!beforeImage s) s.pins p)

/-- The bit time in the millisecond: 16 of its 1000 µs. -/
def passMillisecond (s : State) : State :=
  let n := s.start.usPhase + 16
  if 1000 ≤ n then millisecond (s.withStart { s.start with usPhase := n - 1000 })
  else s.withStart { s.start with usPhase := n }

/-- The bit time in the sample period: 32 of its 125 half microseconds (R148). -/
def passSample (s : State) : State :=
  let n := s.start.samplePhase + 32
  if 125 ≤ n then
    (s.withStart { s.start with samplePhase := n - 125 }).withSynth (synthSample s.start.opState s.synth)
  else s.withStart { s.start with samplePhase := n }

/-- The bit time in the quiet time: it counts in JOIN and RUN while the line stays recessive and the station sends
nothing itself (R29). -/
def passQuiet (s : State) : State :=
  if working s && !s.line.dominant && decide (s.line.activity ≠ .sending) then
    s.withLine { s.line with quiet := s.line.quiet + 1 }
  else s

/-- The bit time in the code frames: each frame on a circuit goes on by 16 µs (R108, log 14). -/
def passCodes (s : State) : State :=
  s.withClocks (s.clocks.map fun c => { c with coded := codePassed c.coded })

/-! ## The events whose time has come -/

/-- The events of the Time Unit (R9, R18, R23, R26). -/
def timeDue (s : State) : List Instr :=
  let now := s.time.localCount
  eventIf s.time.secondDue.isSome .secondBoundary ++
  eventIf s.time.minuteDue.isSome .minuteBoundary ++
  eventIf (s.time.prevMark.any fun c => countReached now (countAfter c lapseMs)) .referenceLapse ++
  eventIf (inRun s && deadlineReached now s.time.beaconDeadline) .beaconTimer ++
  eventIf (deadlineReached now (s.time.setCopies.bind (·.nextAt))) .settimeCopy

/-- Peer p's absence deadline is reached (R51). -/
def absenceReached (s : State) (p : StationNo) : Bool :=
  decide (p ≠ s.start.station) && s.line.roster[p].present &&
    countReached s.time.localCount (countAfter s.line.roster[p].lastHeard (5 * beaconMs s.image))

/-- The events of the Line Unit and of JOIN (R29, R32, R34, R47, R51, R201). -/
def lineDue (s : State) : List Instr :=
  let now := s.time.localCount
  let l := s.line
  eventIf (decide (l.activity = .busy) && !l.dominant && decide (10 ≤ l.quiet)) .lineBecomesIdle ++
  eventIf (contentionDue s) .contentionInstant ++
  eventIf (l.deference && decide (300 ≤ l.quiet)) .deferenceLapse ++
  eventIf (decide (l.activity ≠ .idle) && !l.stuckRecorded &&
    countReached now (countAfter l.stuckFrom 50)) .stuckWatch ++
  ((List.finRange 16).filter (absenceReached s)).map .absenceDeadline ++
  eventIf (decide (s.start.opState = .join) && deadlineReached now s.start.joinDeadline) .joinTimer

/-- The events of the Plan Unit (R65, R72, R75). -/
def planDue (s : State) : List Instr :=
  let now := s.time.localCount
  (match s.plan.staging with
    | .free => []
    | .loading _ t => eventIf (countReached now t) .loadTimer
    | .fetching f => eventIf (countReached now f.timer) .noProgressTimer) ++
  eventIf (deadlineReached now s.plan.pausedUntil) .servePause

/-- The synth has played its program for the claim of this slot (R147). -/
def synthDone (s : State) (slot : SlotNo) : Bool :=
  s.synth.complete && decide (s.synth.playing.map (·.1) = some slot)

/-- The events of one position of the announcement table (R138, R141, R142). -/
def entryDue (s : State) (i : TablePos) : List Instr :=
  match s.ann.table[i] with
  | none => []
  | some e =>
    let now := s.time.localCount
    match e.state with
    | .gathering =>
      let reached := match e.trigger with
        | .campus => campusReached s.time.campus e.start
        | .localAt at_ => countReached now at_
      if reached then [.startTrigger i] else eventIf (deadlineReached now e.deadline) (.gatherLimit i)
    | .playing =>
      if isLive e.kind then eventIf (deadlineReached now e.deadline) (.endDeadline i)
      else eventIf (synthDone s (annSlot i)) (.chimeComplete i)

/-- The events of the Announcement Unit; the LIVE entry has ended by the live record's expiry, which therefore comes
last (R132, R138, R141, R142). -/
def annDue (s : State) : List Instr :=
  (List.finRange 4).flatMap (entryDue s) ++
  eventIf (s.ann.live.any fun r => countReached s.time.localCount r.expiry) .liveRecordExpiry

/-- The row by which the owner of a slot takes a notice (R123). -/
def noticeRow (slot : SlotNo) : Instr :=
  if slot.val = 0 then .drillClaimNotice
  else if h : slot.val ≤ 2 then .bellClaimNotice ⟨slot.val - 1, by omega⟩
  else .announceClaimNotice ⟨slot.val - 3, by omega⟩

/-- A claim's wait deadline is reached and has not been taken yet (R122). -/
def waitReached (s : State) (slot : SlotNo) : Bool :=
  match claimIn s.arb slot with
  | none => false
  | some c => !c.passed && deadlineReached s.time.localCount c.deadline

/-- The events of the Zone Arbiter: the wait deadlines, and its notices in the order it sent them
(R122, R123). -/
def arbDue (s : State) : List Instr :=
  ((List.finRange 7).filter (waitReached s)).map .waitDeadline ++
  s.arb.notices.map fun n => noticeRow n.slot

/-- The event of one pulse generator (R79, R81). -/
def genDue (s : State) (c : BellNo) : List Instr :=
  let g := s.bells.gens[c]
  if deadlineReached s.time.localCount g.deadline then
    match g.state with
    | .on _ => [.pulseOnEnd c]
    | .off _ => [.pulseOffEnd c]
    | .rest => [.restEnd c]
    | _ => []
  else []

/-- The events of the Bell Unit (R79, R81, R94). -/
def bellDue (s : State) : List Instr :=
  (List.finRange 6).flatMap (genDue s) ++
  eventIf (anyEvac s.bells && deadlineReached s.time.localCount s.bells.evacDeadline) .evacPattern

/-- The events of one clock circuit; the line sense of a midpoint comes from outside, and so the midpoint
does (R100, R101, R110). -/
def circuitDue (s : State) (c : ClockNo) : List Instr :=
  let now := s.time.localCount
  match clockKind s c with
  | .absent => []
  | .impulse =>
    let r := s.clocks[c].impulse
    if deadlineReached now r.deadline then
      match r.cycle with
      | .none => []
      | .impulse => eventIf r.midpoint.isSome (.impulseEnd c)
      | .rest => [.impulseRestEnd c]
    else []
  | .coded =>
    let x := s.clocks[c].coded
    eventIf (x.sending && codeSent x) (.codeFrameEnd c)

/-- The events of the Clock Unit. -/
def clockDue (s : State) : List Instr := (List.finRange 4).flatMap (circuitDue s)

/-- The deadlines of the running drill (R154). -/
def recordDue (s : State) : List Instr :=
  match s.drill.record with
  | none => []
  | some r =>
    eventIf (evacuationReached s r) .evacuationDeadline ++
    eventIf (assembleReached s r) .assembleDeadline ++
    eventIf (allClearReached s r) .endOfAllClear

/-- The events of the Drill Unit (R154, R160, R161, R168). -/
def drillDue (s : State) : List Instr :=
  let now := s.time.localCount
  recordDue s ++
  eventIf (decide (s.drill.state ≠ .idle) && deadlineReached now s.drill.periodic) .periodicFrameTimer ++
  eventIf (s.drill.copies.any fun c => deadlineReached now c.nextAt) .endCopy ++
  eventIf (allClearHeld s.arb && synthDone s drillSlot) .allClearComplete

/-- The events of the Panel Port: the owner takes the dispatched request, the port its answer (R189,
R190). -/
def portDue (s : State) : List Instr :=
  s.port.dispatched.toList ++ eventIf s.port.answer.isSome .ownerAnswer

/-- The events whose time has come in JOIN and RUN. -/
def workingDue (s : State) : List Instr :=
  timeDue s ++ lineDue s ++ planDue s ++ arbDue s ++ annDue s ++ bellDue s ++ clockDue s ++ drillDue s

/-- The events whose time has come; those of the port come after the expiries with which they fall together
(log 2). -/
def due (s : State) : List Instr := (if working s then workingDue s else []) ++ portDue s

/-- One bit time passes, and the events whose time has come wait in the queue (log 2); a station without
supply or in RESET stands still. -/
def tick (s : State) : State :=
  if alive s then
    let t := passCodes (passSample (passQuiet (passMillisecond s)))
    t.withPending (t.pending ++ due t)
  else s

end Sys2Proof.Machine
end

