-- ==== Sys2Proof/Machine/Step.lean ====
section
/-! DEFINITION. One step of the machine: the command at the front of the queue, or a bit time when no command
waits. -/

namespace Sys2Proof.Machine

open Sys2Proof

/-- One step: the command at the front of the queue, on the state with the queue's rest; on an empty queue
one bit time passes (log 2). -/
def step (s : State) : Host.Outcome State Fault Refusal :=
  match s.pending with
  | [] => .next (tick s)
  | i :: rest => exec i (s.withPending rest)

/-- The state with the command that a word spells put at the front of the queue; no word spells one
(log 3). -/
def State.withFetchWord (s : State) (nbits w : Nat) : State :=
  match decodeTableWord nbits w with
  | none => s
  | some i => s.withPending (i :: s.pending)

end Sys2Proof.Machine
end

