-- ==== Sys2Proof/Safety.lean ====
section
/-! DEFINITION. The words in which statements about the machine are made: safe steps, kept properties, the
parts of State that a command may change, and the properties that hold of each part. -/

namespace Sys2Proof.Machine

open Sys2Proof

/-- The step neither faults nor is refused. -/
def stepSafe (s : State) : Prop := ∃ t, step s = .next t

/-- Every step from a state with the property leads to a state with the property. -/
def Keeps (p : State → Prop) : Prop := ∀ s t, p s → step s = .next t → p t

/-- The station has its supply, RESET is not held, and it is in JOIN or RUN. -/
abbrev Active (s : State) : Prop := alive s = true ∧ working s = true

/-- The station has its supply, RESET is not held, and it is in RUN. -/
abbrev Running (s : State) : Prop := alive s = true ∧ inRun s = true

/-- The station after its owner has answered the dispatched request. -/
def answered (s : State) (r : Response) : State :=
  s.withPort { s.port with dispatched := none, answer := some r }

/-! ## Offered frames and recorded faults -/

/-- The frame waits in the transmit queue, or is held aside for it (R38, R39). -/
abbrev Queued (l : LineUnit) (b : FrameBody) : Prop :=
  b ∈ l.queue.map (·.body) ∨ heldFor l b = some b

/-- The station takes offers, and its queue has room for one more frame (R40, R42). -/
abbrev HasRoom (s : State) : Prop := takesOffers s = true ∧ s.line.queue.length < 12

/-- The Fault Unit takes faults and notices (R175, R176). -/
abbrev Taking (s : State) : Prop := s.faults.taking = true

/-- The notice kind is pending. -/
abbrev Pending (s : State) (k : NoticeKind) : Prop := noticePending s.faults k = true

/-- A fault bank after a corrected fault of its own at this campus time: the fault is the record of an empty bank;
where a record stands it stays, with overflow; either way one more is counted, up to 255 (R177, R178). -/
def corrected (b : Bank) (code : Nat) (detail : Option Detail) (now : Option CampusTime) : Bank :=
  if b.valid then { b with
    overflow := true
    count := min 255 (b.count + 1) }
  else { b with
    valid := true
    uncorrected := false
    code := code
    detail := detail
    time := now
    count := min 255 (b.count + 1) }

/-- From s to t the AUDIO bank has taken this corrected fault with the announcement of this id as its detail, and stays
as it is where the fault's code is disabled (R176 to R180). -/
def AudioRecorded (s t : State) (f : FaultCode) (code : Nat) (id : Id) : Prop :=
  Taking s → let b := s.faults.banks[bankIndex .audio]
    t.faults.banks[bankIndex .audio] = if faultEnabled s.image f = true then corrected b code (some (.announcement id))
      (if s.time.quality = .unset then none else some s.time.campus) else b

/-- The TIME bank after a step by c ms has been taken as STEP APPLIED: the step in whole seconds, truncated toward 0
and limited to 16 bits (R17, R177, R178, R180). -/
def stepRecorded (img : Image) (b : Bank) (c : Int) (now : Option CampusTime) : Bank :=
  let seconds : Int :=
    if c.tdiv 1000 < -32768 then -32768 else if 32767 < c.tdiv 1000 then 32767 else c.tdiv 1000
  if faultEnabled img (.stepApplied 0) = true then corrected b 1 (some (.seconds seconds)) now else b

/-! ## The serve cursor -/

/-- From s to t the serve cursor has run (R75). With an active plan, not paused and where the station takes offers,
the lowest set fragments that are not queued have been offered, as many as make two queued: those for which the
transmit queue had room stand at its end and are counted as queued, and the first for which it had none is recorded
as QUEUE OVERFLOW and pauses the cursor for 1 s. Otherwise nothing has been offered. -/
def CursorRan (s t : State) : Prop :=
  (∀ a, s.plan.active = some a → s.plan.pausedUntil = none → takesOffers s = true →
    let open_ := (List.range 48).filter fun i => s.plan.serve.getLsbD i && !s.plan.queued.contains i
    let offered := open_.take (2 - s.plan.queued.length)
    let taken := offered.take (12 - s.line.queue.length)
    t.line = { s.line with
      queue := s.line.queue ++ taken.map fun i => ⟨.plan a.key i a.total (a.frags[i]?.getD []), 0, false⟩ } ∧
    t.plan = { s.plan with
      queued := s.plan.queued ++ taken
      pausedUntil := if taken.length < offered.length then some (s.time.localCount + 1000#32) else none } ∧
    t.faults = if taken.length < offered.length then (report s (.queueOverflow .plan)).faults else s.faults) ∧
  ((s.plan.active = none ∨ s.plan.pausedUntil ≠ none ∨ takesOffers s = false) →
    t.line = s.line ∧ t.plan = s.plan ∧ t.faults = s.faults)

/-! ## Frames of peers -/

/-- The state in which its owner takes a frame of peer p, as far as presence goes: s itself, and where p was not
present, s with p heard and become present, the first step of the frame's handling (R46, R52). -/
def handOver (s : State) (p : StationNo) : State := if s.line.roster[p].present = true then s else frameHeard s p

/-- From s to t a fetch evaluation has been made in RUN that has the plan key k with digest d, held at peer p, before
it. Where k is a candidate, newer than every candidate of the other present peers, and p the lowest station that
reports it, a fetch toward k has replaced a FREE staging area and a fetch toward an older key, with a PLANREQ of all
ones where there was room; a load and any other fetch have gone on (R69, R70). -/
def FetchEvaluated (s t : State) (p : StationNo) (k : Key) (d : Digest) : Prop :=
  let candidate := fun x : Key =>
    (∀ a, s.plan.active = some a → keyNewer x a.key = true) ∧ s.plan.unobtainable ≠ some x
  let fetching := t.plan.staging = .fetching ⟨k, d, none, Vector.replicate 41 none,
      s.time.localCount + 10000#32, 1⟩ ∧ (HasRoom s → Queued t.line (.planreq k (BitVec.allOnes 48)))
  candidate k → (∀ (q : StationNo) (x : Key) (e : Digest), q ≠ p → q ≠ s.start.station →
    s.line.roster[q].present = true → s.line.roster[q].plan = some (x, e) →
    (x = k → p < q) ∧ (candidate x → x = k ∨ keyNewer k x = true)) →
  (s.plan.staging = .free → fetching) ∧
  (∀ f, s.plan.staging = .fetching f → (keyNewer k f.target = true → fetching) ∧
    (keyNewer k f.target = false → t.plan = s.plan)) ∧
  (∀ f u, s.plan.staging = .loading f u → t.plan = s.plan)

/-! ## The content of a plan -/

/-- The sections stand in the order and counts of R59 and carry the content c: the HEADER; one to three CALENDAR
sections with the weekday tables of c and eight exceptions in each but the last; the four RANGES; at most eight
BELLS for each program, with six entries in each but the last and the index of the first entry; the OVERRIDES. -/
def LaidOut (sections : List Section) (c : PlanContent) : Prop :=
  ∃ (exceptions : List (List (Nat × Nat))) (bells : List (List (List BellEntry))),
    1 ≤ exceptions.length ∧ exceptions.length ≤ 3 ∧ exceptions.length = c.weekdays.length ∧
    (∀ x ∈ exceptions.dropLast, x.length = 8) ∧ exceptions.flatten = c.exceptions ∧
    c.programs.length = 4 ∧ bells.length = 4 ∧ bells.map List.flatten = c.programs.map (·.bells) ∧
    (∀ x ∈ bells, x.length ≤ 8 ∧ ∀ y ∈ x.dropLast, y.length = 6) ∧
    sections = [.header c.total c.patterns c.evacLimit c.assembleLimit] ++
      List.zipWith Section.calendar c.weekdays exceptions ++
      (c.programs.mapIdx fun p q => .ranges p q.default q.ranges) ++
      (bells.mapIdx fun p x => x.mapIdx fun j y => .bells p (6 * j) y).flatten ++ [.overrides c.overrides]

/-- Check 1 of R60 passes with these fragments and this content: fragments 0 to total − 1 are held, the total of the
HEADER is 7 to 41 and the one that the PLAN frames carried, the sections are in order, and the digest is the expected
one. -/
def FragmentsRight (frags : List (Option (List Byte))) (carried : Option Nat) (expected : Option Digest)
    (l : List (List Byte)) (c : PlanContent) : Prop :=
  frags.take l.length = l.map some ∧ 7 ≤ l.length ∧ l.length ≤ 41 ∧ contentOf l = some c ∧ c.total = l.length ∧
  (∀ n, carried = some n → n = l.length) ∧ ∀ d, expected = some d → d = planDigest l

/-- A span lies below a bound, and its kind is one of the five. -/
def SpanRight (bound : Nat) (o : Span) : Prop :=
  o.first < o.last ∧ o.last ≤ bound ∧ o.kind ≤ 4

/-- The checks 2 to 9 of R60 in their order, each with its reason. -/
def planChecks (c : PlanContent) : List (PlanFault × Prop) :=
  [(.calendar, (∀ w ∈ c.weekdays, ∀ n ∈ w, n ≤ 4) ∧ (∀ e ∈ c.exceptions, e.2 ≤ 4) ∧
      (∀ v ∈ c.weekdays, ∀ w ∈ c.weekdays, v = w) ∧ (c.exceptions.map (·.1)).Nodup),
    (.ranges, ∀ q ∈ c.programs, q.ranges.length ≤ 8 ∧ (∀ o ∈ q.ranges, SpanRight 1440 o) ∧ q.default ≤ 4),
    (.bellOrder, ∀ q ∈ c.programs, (q.bells.map (·.second)).Pairwise (· ≤ ·) ∧ ∀ e ∈ q.bells, e.second ≤ 86399),
    (.bellClash, ∀ q ∈ c.programs, q.bells.Pairwise fun d e => ¬ (d.second = e.second ∧
      ∃ i, d.circuits.getLsbD i = true ∧ e.circuits.getLsbD i = true)),
    (.patternRef, ∀ q ∈ c.programs, ∀ e ∈ q.bells, ∃ l, c.patterns[e.pattern]? = some (some l)),
    (.patterns, (∃ l, c.patterns[0]? = some (some l)) ∧
      (∀ l, some l ∈ c.patterns → 1 ≤ l.length ∧ l.length ≤ 6 ∧
        ∀ x ∈ l, 1 ≤ x.on ∧ x.on ≤ 100 ∧ 1 ≤ x.off ∧ x.off ≤ 100) ∧
      ((c.patterns.filterMap id).map List.length).sum ≤ 16),
    (.overrides, c.overrides.length ≤ 4 ∧ ∀ o ∈ c.overrides, SpanRight 94371840 o),
    (.drillLimits, 60 ≤ c.evacLimit ∧ c.evacLimit ≤ 900 ∧ 300 ≤ c.assembleLimit ∧ c.assembleLimit ≤ 3600)]

/-- The first check of a list that fails is the one with this reason. -/
def FirstFailing (checks : List (PlanFault × Prop)) (r : PlanFault) : Prop :=
  ∃ pre p post, checks = pre ++ (r, p) :: post ∧ (∀ x ∈ pre, x.2) ∧ ¬ p

/-- The span covers a minute. -/
def Covers (o : Span) (minute : Nat) : Prop := o.first ≤ minute ∧ minute < o.last

/-- The kind is the one of the highest precedence among the spans that cover a minute (R55). -/
def HighestOf (spans : List Span) (minute : Nat) (k : PeriodKind) : Prop :=
  (∃ o ∈ spans, Covers o minute ∧ o.kind = periodCode k) ∧ ∀ o ∈ spans, Covers o minute → o.kind ≤ periodCode k

/-- Program n, or NONE for 4, is the program of a day: the one of the day's exception, else that of its weekday
(R53). -/
def DayProgram (c : PlanContent) (day n : Nat) : Prop :=
  ((day, n) ∈ c.exceptions ∧ (c.exceptions.map (·.1)).Nodup) ∨
  ((∀ e ∈ c.exceptions, e.1 ≠ day) ∧ (c.weekdays.head?.bind (·[day % 7]?)) = some n)

/-! ## Frames -/

/-- The parts of State; `mark` is a part of a part, the scheduler's high-water mark (R82). -/
inductive Field where
  | start
  | image
  | time
  | line
  | plan
  | bells
  | clocks
  | arb
  | synth
  | ann
  | drill
  | faults
  | port
  | store
  | mem
  | pins
  | fresh
  | pending
  | mark
deriving DecidableEq, Repr

/-- Two states have the same part. -/
def Field.Same : Field → State → State → Prop
  | .start, s, t => t.start = s.start
  | .image, s, t => t.image = s.image
  | .time, s, t => t.time = s.time
  | .line, s, t => t.line = s.line
  | .plan, s, t => t.plan = s.plan
  | .bells, s, t => t.bells = s.bells
  | .clocks, s, t => t.clocks = s.clocks
  | .arb, s, t => t.arb = s.arb
  | .synth, s, t => t.synth = s.synth
  | .ann, s, t => t.ann = s.ann
  | .drill, s, t => t.drill = s.drill
  | .faults, s, t => t.faults = s.faults
  | .port, s, t => t.port = s.port
  | .store, s, t => t.store = s.store
  | .mem, s, t => t.mem = s.mem
  | .pins, s, t => t.pins = s.pins
  | .fresh, s, t => t.fresh = s.fresh
  | .pending, s, t => t.pending = s.pending
  | .mark, s, t => t.bells.hwm = s.bells.hwm

/-- The frame of a command: from s to t, no part of State other than the named ones has changed. -/
def Changes (fs : List Field) (s t : State) : Prop := ∀ f, f ∉ fs → f.Same s t

/-! ## Notices of the Time Unit -/

/-- A CODED circuit's record after a notice or a minute boundary with this reading in RUN: it begins a frame with the
status of that moment, `begun`, or sets its resend flag while it is sending, and sets it too where the status computed
afterwards, `later`, is another one (R110). The frame comes before the status computation of the same event, which then
differs from nothing: DESIGN CHOICE (logs 13, 71). Of a frame begun no bit time has passed (R108; log 14, DEDUCED). -/
def codeNoticed (s : State) (c : ClockNo) (r : Reading) (begun later : CodeStatus) : CodedRecord :=
  let x := s.clocks[c].coded
  if x.sending then { x with resend := true }
  else { x with
    sending := true
    resend := x.resend || decide (later ≠ begun)
    lastStatus := some begun
    frame := codeFrameBytes r begun s.start.station
    frameTicks := 0 }

/-- From s to t the Clock Unit has taken a step or establish notice, or a minute boundary, of this reading: every
IMPULSE circuit has been evaluated with it, and in RUN every CODED circuit has taken it (R99, R110). -/
def ClocksNoticed (s t : State) (r : Reading) (begun later : CodeStatus) : Prop :=
  ∀ c : ClockNo, let kind := s.image.clocks[c].kind
    t.clocks[c] = { s.clocks[c] with
      impulse := if kind = .impulse
        then evaluated s.clocks[c].impulse s.image.clocks[c] s.time.localCount (inRun s) r else s.clocks[c].impulse
      coded := if kind = .coded ∧ s.start.opState = .run
        then codeNoticed s c r begun later else s.clocks[c].coded }

/-- From s to t the entry at position i has taken a step notice of the new time: a GATHERING entry with trigger CAMPUS
whose start time it has reached starts, as START_TRIGGER starts it; any other entry stays (R138). -/
def StepTaken (new : CampusTime) (i : TablePos) (s t : State) : Prop :=
  let reached := ∃ e, s.ann.table[i] = some e ∧ e.state = .gathering ∧ e.trigger = .campus ∧
    0 ≤ campusDiff new e.start
  (reached → exec (.startTrigger i) s = .next t) ∧ (¬ reached → t = s)

/-- From s to t campus time has been established at `now` with this quality: no step is made, TIME CHANGE is raised, in
RUN a high-water mark not yet set becomes the second of `now`, with the program of its day and both counts 0, the Clock
Unit takes the establish notice, and no announcement changes (R7, R22, R25, R82, R99, R110, R138). -/
def Established (s t : State) (now : CampusTime) (q : Quality) : Prop :=
  let status := codeStatus (s.withTime { s.time with quality := q }) ⟨now, true⟩
  t.time.campus = now ∧ t.time.quality = q ∧ t.time.stepCounter = s.time.stepCounter ∧
  (Taking s → Pending t .timeChange) ∧
  t.bells = (if s.start.opState = .run ∧ s.bells.hwm = none then { s.bells with
    hwm := some (now.day.toNat * 86400 + now.ms / 1000)
    dayOfProgram := some now.day
    today := programQuery s.plan now.day
    drillCount := 0
    quietCount := 0 } else s.bells) ∧
  ClocksNoticed s t ⟨now, true⟩ status status ∧
  t.ann = s.ann ∧ t.arb = s.arb

/-! ## Properties of the parts -/

/-- The order of the transmit queue, and the sorts of which it holds at most one frame (R38). -/
def queuedBefore (a b : TxEntry) : Prop :=
  bodyClass a.body ≤ bodyClass b.body ∧ sameSort a.body b.body = false

/-- The transmit queue: at most twelve frames, in order of class, at most one BEACON and one DRILL state
frame (R38). -/
def LineOk (l : LineUnit) : Prop := l.queue.length ≤ 12 ∧ l.queue.Pairwise queuedBefore

/-- Campus time and a held label stay within a day, and the count of empty rounds stops at 5 (00_scope.md,
R15, R20). -/
def TimeOk (t : TimeUnit) : Prop :=
  t.campus.ms < dayMs ∧ (∀ l, t.label = some l → l.ms < dayMs) ∧ t.emptyRounds ≤ 5

/-- One resource of the arbiter (R114): the claims that hold it are its holder and no other, the claims that
wait for it are those on its list, no claim stands twice on the list, which has at most four places and stands
in order of level; a resource without a holder has an empty list; an ALARM claim never waits. -/
structure ResOk (a : Arbiter) (r : ResNo) : Prop where
  holding : ∀ k, statusOf a k r = .holding ↔ a.res[r].holder = some k
  waiting : ∀ k, statusOf a k r = .waiting ↔ k ∈ a.res[r].waiting
  nodup : a.res[r].waiting.Nodup
  length : a.res[r].waiting.length ≤ 4
  free : a.res[r].holder = none → a.res[r].waiting = []
  sorted : a.res[r].waiting.Pairwise fun v w => slotRank a v ≤ slotRank a w
  urgent : ∀ k ∈ a.res[r].waiting, slotRank a k ≠ 0

/-- Every resource is as R114 says, and only the drill slot's claim is at level ALARM (R118, R128). -/
def ArbOk (a : Arbiter) : Prop :=
  (∀ r, ResOk a r) ∧ ∀ k c, claimIn a k = some c → c.level = .alarm → k = drillSlot

/-- The ended-drill list has at most four entries (R153). -/
def DrillOk (d : DrillUnit) : Prop := d.ended.length ≤ 4

/-- A bank that is not valid is empty, and the corrected count stops at 255 (R175, R178). -/
def BankOk (b : Bank) : Prop := (b.valid = false → b = Bank.empty) ∧ b.count ≤ 255

/-- Every fault bank is as R175 to R179 leave it. -/
def FaultsOk (f : FaultUnit) : Prop := ∀ i : Fin 6, BankOk f.banks[i]

/-- An uncorrected record stays as it is in its bank (R178). -/
def RecordsStay (f g : FaultUnit) : Prop :=
  ∀ i : Fin 6, f.banks[i].valid = true → f.banks[i].uncorrected = true →
    g.banks[i].valid = true ∧ g.banks[i].uncorrected = true ∧ g.banks[i].code = f.banks[i].code ∧
    g.banks[i].detail = f.banks[i].detail ∧ g.banks[i].time = f.banks[i].time

/-- The table holds at most one LIVE entry, and that entry is the announcement in the campus live record (R132). -/
def AnnOk (a : AnnUnit) : Prop :=
  (∀ (i : TablePos) (e : AnnEntry), a.table[i] = some e → isLive e.kind = true →
    isLiveRecord a e.id e.start = true) ∧
  ∀ (i j : TablePos) (d e : AnnEntry), a.table[i] = some d → a.table[j] = some e → isLive d.kind = true →
    isLive e.kind = true → i = j

/-- Both suppression counts stop at 65,535 (R82). -/
def BellsOk (b : BellUnit) : Prop := b.drillCount ≤ 65535 ∧ b.quietCount ≤ 65535

/-- Every known position is a minute of the twelve-hour dial (R97). -/
def ClocksOk (v : Vector ClockCircuit 4) : Prop :=
  ∀ (c : ClockNo) (p : Nat), v[c].impulse.position = some p → p < 720

/-- The station image as the check of R199 leaves it: zone count, beacon period, notice levels and threshold,
and the settings of each IMPULSE circuit in their ranges (R96, R184). -/
def ImageOk (img : Image) : Prop :=
  1 ≤ img.zoneCount ∧ img.zoneCount ≤ 8 ∧ 1 ≤ img.beaconPeriod ∧ img.beaconPeriod ≤ 8 ∧
  1 ≤ img.threshold ∧ img.threshold ≤ 7 ∧ (∀ k, noticeLevel img k ≤ 7) ∧
  ∀ c : ClockNo, img.clocks[c].kind = .impulse → 500 ≤ img.clocks[c].impulseLength ∧
    img.clocks[c].impulseLength ≤ 2000 ∧ img.clocks[c].holdLimit ≤ 120

/-! ## Bell claims -/

/-- The slot x knows that it holds SYN, and a member's generator is in ON (R90). -/
def BellPlays (s : State) (x : BellSlot) : Prop :=
  x.known[synRes] = .holds ∧ ∃ (c : BellNo) (i : Nat), c ∈ x.members ∧ s.bells.gens[c].state = .on i

/-- The claim of bell claim slot k, where the slot is in use, is sounding exactly while the slot plays (R90, R124). -/
def BellSounding (s : State) (k : BellSlotNo) : Prop :=
  ∀ (x : BellSlot) (q : Claim), s.bells.slots[k] = some x →
    claimIn s.arb (bellSlot k) = some q → s.arb.slots[bellSlot k].number = x.claimNo →
    (q.sounding = true ↔ BellPlays s x)

/-- The claim of every bell claim slot in use is sounding exactly while the slot knows that it holds SYN and a member's
generator is in ON (R90, R124). -/
def BellsSounding (s : State) : Prop := ∀ k : BellSlotNo, BellSounding s k

/-! ## Announcements -/

/-- Some existing zone is named by the mask (R135, condition 2). -/
def NamesZone (s : State) (m : ZoneMask) : Prop :=
  ∃ z : ZoneNo, z.val < s.image.zoneCount ∧ m.getLsbD z.val = true

/-- The drill state admits the level (R135, condition 3). -/
def DrillAllows (s : State) (l : AnnLevel) : Prop :=
  match s.drill.state with
  | .idle => True
  | .evacuate => False
  | _ => l = .urgent

/-- The effective kind admits the level (R135, condition 4). -/
def PeriodAllows (s : State) (l : AnnLevel) : Prop :=
  quietKind (effectiveKind s.plan (currentReading s)) = false ∨ l = .urgent

/-- A LIVE announcement wins against the campus live record, or there is none (R136). Of two start times whose days lie
32,768 apart neither is earlier (log 61, DEDUCED), and the record is kept against one of its own origin (log 70, DESIGN
CHOICE). -/
def LiveWins (s : State) (start : CampusTime) (origin : StationNo) : Prop :=
  ∀ r, s.ann.live = some r → 0 < campusDiff r.start start ∨
    (¬ 0 < campusDiff start r.start ∧ origin.val < r.id.origin.val)

/-- The table holds no LIVE entry. -/
def NoLiveEntry (s : State) : Prop :=
  ∀ (j : TablePos) (e : AnnEntry) (l : Nat), s.ann.table[j] = some e → e.kind ≠ .live l

/-- The campus live record of a LIVE announcement set at s (R132). -/
def liveRecordAt (s : State) (id : Id) (start : CampusTime) (limit : Nat) : LiveRecord :=
  ⟨id, start, limit, s.time.localCount + BitVec.ofNat 32 (10000 + 1000 * limit)⟩

/-- From s to t an admitted announcement has taken position i: it made its claim in its slot and gathers, or
ended ZONES UNAVAILABLE, recorded in the AUDIO bank, when the arbiter's answer left it without hope (R137, R139,
R140). -/
def Gathers (s t : State) (i : TablePos) (id : Id) (start : CampusTime) (p : AnnPost)
    (trigger : AnnTrigger) : Prop :=
  let zones := maskZones s.image p.zones
  let arb := makeClaim s.arb s.time.localCount (annSlot i)
    (match p.level with | .urgent => .urgent | .normal => .normal)
    (match p.kind with | .live _ => .b | .chime _ _ => .a)
    (fun r => if r.val < 8 then zones.getLsbD r.val else (match p.kind with | .live _ => false | .chime _ _ => true))
  let known := knownFrom arb (annSlot i)
  let hope := (∃ z : ZoneNo, known[zoneRes z] ≠ .nothing) ∧
    ∀ c n, p.kind = .chime c n → known[synRes] ≠ .nothing
  (hope → t.arb = arb ∧ t.ann.table = s.ann.table.set i (some ⟨id, start, p.level, p.kind, zones,
    s.arb.slots[annSlot i].number + 1, .gathering, trigger, some (s.time.localCount + 10000#32), known⟩)) ∧
  (¬ hope → t.arb = withdrawWhole arb (annSlot i) ∧ t.ann.table = s.ann.table ∧
    AudioRecorded s t (.zonesUnavailable id) 2 id ∧
    (id.origin = s.start.station → t.ann.lastOwn = some ⟨id.seq, start, p.kind, .zonesUnavailable⟩) ∧
    (id.origin ≠ s.start.station → t.faults = (report s (.zonesUnavailable id)).faults))

/-- From s to t an announcement of a peer has been admitted at position i: it gathers, or, where its start time has
already passed, it has started at once after its claim, as START_TRIGGER starts it (R137, R138). At an UNSET station it
gathers until its LOCAL trigger: DESIGN CHOICE (log 72). -/
def Admitted (s t : State) (i : TablePos) (id : Id) (start : CampusTime) (p : AnnPost) : Prop :=
  let passed := s.time.quality ≠ .unset ∧ 0 ≤ campusDiff s.time.campus start
  (¬ passed → Gathers s t i id start p
    (if s.time.quality = .unset then .localAt (s.time.localCount + 3000#32) else .campus)) ∧
  (passed → ∃ u v, Gathers s u i id start p .campus ∧ Changes [.line, .time, .ann, .arb, .synth, .faults] s u ∧
    currentReading u = currentReading s ∧ u.time.localCount = s.time.localCount ∧
    (u.ann.table[i] ≠ none → u.ann.lastOwn = s.ann.lastOwn ∧ u.faults = s.faults) ∧
    exec (.startTrigger i) u = .next v ∧ t.ann = v.ann ∧ t.arb = v.arb ∧ t.synth = v.synth ∧ t.faults = v.faults)

/-- From s to t the entry e at position i has ended with an outcome (R143). -/
def EntryEnded (s t : State) (i : TablePos) (e : AnnEntry) (o : AnnOutcome) : Prop :=
  t.ann.table = s.ann.table.set i none ∧ t.ann.ownSeq = s.ann.ownSeq ∧
  t.arb = withdrawWhole s.arb (annSlot i) ∧
  t.ann.lastOwn =
    (if e.id.origin = s.start.station then some ⟨e.id.seq, e.start, e.kind, o⟩ else s.ann.lastOwn) ∧
  (e.id.origin = s.start.station → Taking s → Pending t .announceEnded)

/-- From s to u the LIVE entry e at position i has given way to the LIVE announcement of this id, start time and
limit: it ended CANCELLED, announced ended first when it is an own one, with LIVE CONFLICT, and the campus live
record is the new announcement's (R136). -/
def LiveTakes (s u : State) (i : TablePos) (e : AnnEntry) (id : Id) (start : CampusTime) (limit : Nat) : Prop :=
  EntryEnded s u i e .cancelled ∧ u.ann.live = some (liveRecordAt s id start limit) ∧
  (e.id.origin = s.start.station → HasRoom s → Queued u.line (.annend e.id.seq e.start)) ∧
  (e.id.origin ≠ s.start.station → u.faults = (report s (.liveConflict e.id)).faults) ∧
  AudioRecorded s u (.liveConflict e.id) 3 e.id ∧
  u.time.localCount = s.time.localCount ∧ u.time.campus = s.time.campus ∧ u.time.quality = s.time.quality ∧
  Changes [.ann, .arb, .synth, .faults, .line, .plan, .time, .drill] s u

/-! ## Drills -/

/-- From arbiter a to b the all-clear claim is made: URGENT, on bus A, for every existing zone and SYN, sounding at
once, with a wait deadline of 10 s; where SYN is refused it is withdrawn whole again (R168). -/
def AllClearClaimed (img : Image) (now : Count) (a b : Arbiter) : Prop :=
  let m := makeClaim a now drillSlot .urgent .a fun r => decide (r = synRes) || decide (r.val < img.zoneCount)
  let sounding := reportSounding m drillSlot m.slots[drillSlot].number true
  let has := statusOf m drillSlot synRes = .holding ∨ statusOf m drillSlot synRes = .waiting
  (has → b = sounding ∧ ∃ c, claimIn b drillSlot = some c ∧ c.level = .urgent ∧ c.bus = .a ∧ c.sounding = true ∧
    c.deadline = some (now + 10000#32)) ∧
  (¬ has → b = withdrawWhole sounding drillSlot ∧ claimIn b drillSlot = none)

/-- The arbiter at s with the drill slot's claim of EVACUATE or ALL-CLEAR withdrawn, when the drill leaves that state
for another one (R155). -/
def arbAfterLeaving (s : State) (new : DrillState) : Arbiter :=
  if s.drill.state ≠ new ∧ (s.drill.state = .evacuate ∨ s.drill.state = .allClear)
    then withdrawWhole s.arb drillSlot else s.arb

/-- The notice of a drill's start, change of state and end, by its kind (R155). -/
def noticeOf (k : DrillKind) : NoticeKind := match k with | .real => .alarmChange | .practice => .drillChange

/-- The own roll entry's clear elapsed, as a state frame carries it. -/
def ownClear (s : State) (r : DrillRecord) : Option Nat :=
  match r.roll[s.start.station] with
  | .cleared e => some e
  | _ => none

/-- The parts of State that a change of the drill may change. -/
def drillFields : List Field := [.drill, .bells, .arb, .synth, .ann, .faults, .clocks, .line, .plan, .time]

/-- From s to t the drill of r moved from EVACUATE to ASSEMBLE, and on to ALL-CLEAR when its roll is complete, with
the all-clear claim (R155, R166, R168, R169). -/
def Assembled (s t : State) (r : DrillRecord) : Prop :=
  t.drill.state = (if rollComplete r.roll = true then .allClear else .assemble) ∧
  t.drill.assembleAt = some s.time.localCount ∧
  (rollComplete r.roll = true → t.drill.allClearAt = some s.time.localCount ∧
    AllClearClaimed s.image s.time.localCount (withdrawWhole s.arb drillSlot) t.arb) ∧
  (rollComplete r.roll = false → t.arb = withdrawWhole s.arb drillSlot ∧ claimIn t.arb drillSlot = none) ∧
  (∀ c : BellNo, t.bells.gens[c] =
    if s.bells.gens[c].state = .evac then Generator.initial else s.bells.gens[c]) ∧
  t.bells.drillFlag = s.bells.drillFlag ∧ (Taking s → Pending t (noticeOf r.kind)) ∧
  Changes (.port :: drillFields) s t

/-- From s to t the running drill, whose record is r, ended with an outcome (R159); `here` says that this
station ended it. -/
def DrillEnded (s t : State) (r : DrillRecord) (o : DrillOutcome) (here : Bool) : Prop :=
  t.drill.state = .idle ∧ t.drill.record = none ∧ t.drill.periodic = none ∧
  t.drill.last = some { r with
    endTime := if s.time.quality = .unset then none else some s.time.campus
    outcome := some o } ∧
  ((∀ x ∈ s.drill.ended, ¬ (x.id = r.id ∧ x.start = r.start)) →
    (s.drill.ended.length < 4 → t.drill.ended = s.drill.ended ++ [⟨r.id, r.start, o⟩]) ∧
    (s.drill.ended.length = 4 → t.drill.ended = s.drill.ended.drop 1 ++ [⟨r.id, r.start, o⟩])) ∧
  t.bells.drillFlag = false ∧
  (∀ c : BellNo, t.bells.gens[c] = if s.drill.state = .evacuate ∧ s.bells.gens[c].state = .evac then
    Generator.initial else s.bells.gens[c]) ∧
  t.arb = (if s.drill.state = .assemble then s.arb else withdrawWhole s.arb drillSlot) ∧
  t.ann = s.ann ∧ (Taking s → Pending t (noticeOf r.kind)) ∧
  (here = false → t.drill.copies = s.drill.copies) ∧
  (here = true → HasRoom s → t.drill.copies = s.drill.copies ++ [⟨⟨r.id, r.start, o⟩, 1, none⟩] ∧
    Queued t.line (.drillEnd r.id r.start o true))

/-- The orders of a drill taken in EVACUATE by a station of another state (R155): the ALARM claim holds every existing
zone and SYN, alarm-capable RELAY circuits are in EVAC and every other generator IDLE, every announcement has ended,
and the live record is none. -/
def EvacuationOrdered (s t : State) : Prop :=
  (∃ c, claimIn t.arb drillSlot = some c ∧ c.level = .alarm ∧ c.bus = .a ∧ c.sounding = true) ∧
  (ArbOk s.arb → ∀ r : ResNo, (r = synRes ∨ r.val < s.image.zoneCount) → t.arb.res[r].holder = some drillSlot) ∧
  (∀ c : BellNo, t.bells.gens[c] =
    if s.image.bells[c].kind = .relay ∧ s.image.bells[c].alarmCapable = true then
      { Generator.initial with state := .evac } else Generator.initial) ∧
  t.ann.live = none ∧ ∀ i : TablePos, t.ann.table[i] = none

/-- The orders of a drill taken in ASSEMBLE or ALL-CLEAR (R155, R168): the claim of the state left is withdrawn, EVAC
bells are IDLE, a pending ring of an IDLE station is discarded, and ALL-CLEAR makes its claim; the announcements
stay. -/
def AssemblyOrdered (s t : State) : Prop :=
  (t.drill.state = .assemble → t.arb = arbAfterLeaving s .assemble) ∧
  (t.drill.state = .allClear →
    AllClearClaimed s.image s.time.localCount (arbAfterLeaving s .assemble) t.arb) ∧
  (∀ c : BellNo, t.bells.gens[c] =
    if s.drill.state = .idle then { s.bells.gens[c] with waiting := none }
    else if s.drill.state = .evacuate ∧ s.bells.gens[c].state = .evac then Generator.initial
    else s.bells.gens[c]) ∧ t.ann = s.ann

/-- From s to t the station took the drill of a peer's state frame, with the orders of the states left and entered
(R155, R162, R164). -/
def DrillTaken (s t : State) (p : StationNo) (c : DrillContent) : Prop :=
  ∃ r, t.drill.record = some r ∧ r.id = c.id ∧ r.start = c.start ∧ r.sure = c.sure ∧ r.kind = c.kind ∧
    r.stop = c.stop ∧ r.localStart = s.time.localCount ∧
    (r.evacLimit, r.assembleLimit) = drillQuery s.plan ∧ r.endTime = none ∧ r.outcome = none ∧
    (∀ e, c.cleared = some e → r.roll[p] = .cleared e) ∧
    (∀ q : StationNo, (q ≠ p ∨ c.cleared = none) → r.roll[q] =
      if q = s.start.station ∨ s.line.roster[q].present = true then .pending else .notExpected) ∧
    t.drill.state =
      (if c.assemble then (if rollComplete r.roll = true then .allClear else .assemble) else .evacuate) ∧
    t.bells.drillFlag = (if s.drill.state = .idle then true else s.bells.drillFlag) ∧
    (c.assemble = false → s.drill.state = .evacuate → t.arb = s.arb ∧ t.bells = s.bells ∧ t.ann = s.ann) ∧
    (c.assemble = false → s.drill.state ≠ .evacuate → EvacuationOrdered s t) ∧
    (c.assemble = true → AssemblyOrdered s t) ∧
    (Taking s → Pending t .rollChange) ∧
    (HasRoom s → Queued t.line
      (.drillState ⟨r.id, r.start, r.sure, r.kind, c.assemble, ownClear s r, ownFaFlag s, r.stop⟩)) ∧
    t.drill.last = s.drill.last ∧ t.drill.ended = s.drill.ended ∧ t.drill.ownSeq = s.drill.ownSeq

/-! ## The panel port -/

/-- A request is given out at the port: to its owner, or answered BUSY in START, or answered BAD (R189, R190,
R193). -/
def Dispatched (p : PanelPort) (op : OpState) (h : HeldRequest) : PanelPort :=
  match h with
  | .bad c => { p with
      state := .idle
      buffer := .ready (.bad c) }
  | .valid i =>
    if op = .start then { p with
      state := .idle
      buffer := .ready .busy }
    else { p with
      state := .working
      buffer := .pending
      dispatched := some i }

/-- Byte n of a transaction that found this buffer and in which no request has been taken (R191). -/
def shiftedOut (b : Buffer) (n : Nat) : Byte :=
  match b with
  | .empty => 0x00
  | .pending => 0xFF
  | .ready r => ((responseBytes r)[n]?).getD 0x00

end Sys2Proof.Machine
end

