-- ==== Sys2Proof/Certificates/Slice0/Obligations.lean ====
section
/-! DEFINITION. The statements about the machine: one proposition for each, as OBLIGATIONS.json lists them. -/

open Sys2Proof Sys2Proof.Machine

/-- A step runs the command at the front of the queue (00_scope.md, Block overview). -/
def Obligations.StepTakesTheFrontCommand : Prop :=
  ∀ (c : Instr) (rest : List Instr) (s : State), s.pending = c :: rest →
    step s = exec c (s.withPending rest)

/-- Every step answers next; on an empty queue a bit time passes: the inputs are sampled and the rows
that are due queue (logs 2, 6, 14, 16, 17, 24, 57) (01_campus_time.md 1.1 (R3, R4), 1.3 (R9), 1.5 (R16), 1.6
(R18), 1.7 (R19, R23), 1.8 (R26), 02_the_campus_line.md 2.1 (R29), 2.2 (R32, R34), 2.6 (R47), 2.7 (R51),
03_the_day_plan.md (R65, R72, R75), 04_bells.md (R79, R81, R88, R94), 05_room_clock_circuits.md (R100,
R101, R108, R110), 06_zones_and_the_zone_arbiter.md (R122, R123), 07_announcements_and_chimes.md (R132, R138,
R141, R142, R147), 08_fire_drills_and_alarms.md (R151, R154, R160, R161, R168),
09_fault_banks_and_notices.md 9.1 (R175), 10_the_panel_port.md (R189, R190),
11_start_up_power_fail_and_restart.md (R198, R201)). The model's choices (DESIGN CHOICE): the bit time of
an empty queue (log 2), the phase of the 10 ms samples (log 57), an IMPULSE_END only once the midpoint
has been sensed (log 24), a dispatched request whose row the idle step queues (log 6), and no byte of
memory in a bit time of a save or a dial write (logs 16, 17). Its reading: a code frame is counted in whole bit
times of 16 µs (log 14, DEDUCED). -/
def Obligations.EveryStepAnswersNext : Prop :=
  (∀ s : State, stepSafe s) ∧ ∀ s : State, s.pending = [] → step s = .next (tick s) ∧
    (alive s = false → tick s = s) ∧
    (alive s = true → (tick s).mem = s.mem ∧ (tick s).time.localCount =
      if 1000 ≤ s.start.usPhase + 16 then s.time.localCount + 1 else s.time.localCount) ∧
    (alive s = true → Changes [.time, .line, .synth, .pins, .start, .pending, .clocks] s (tick s) ∧
      (∀ c : ClockNo, let x := s.clocks[c].coded
        (tick s).clocks[c] = { s.clocks[c] with
          coded := { x with frameTicks := if x.sending then x.frameTicks + 1 else x.frameTicks } }) ∧
      (tick s).time = if 1000 ≤ s.start.usPhase + 16 then
        (if working s = true then msTick s.time else { msTick s.time with
          secondDue := none
          minuteDue := none })
      else s.time) ∧
    (alive s = true → let t := tick s
      let passed := 1000 ≤ s.start.usPhase + 16
      let sampled := fun i : Input => (⟨i.line, some i.line,
        if i.last = some i.line then some i.line else i.valid⟩ : Input)
      let rises := fun old new : Input => old.valid = some false ∧ new.valid = some true
      let falls := fun old new : Input => old.valid = some true ∧ new.valid = some false
      let queues := fun (i : Instr) (p : Prop) => (i ∈ t.pending ↔ p)
      (¬ passed → t.pins = s.pins ∧ t.start.inputPhase = s.start.inputPhase) ∧
      (passed → t.pins.pfw = sampled s.pins.pfw ∧
        (s.start.opState = .halt → t.pins = { s.pins with pfw := sampled s.pins.pfw }) ∧
        (s.start.opState ≠ .halt → t.pins.ref = sampled s.pins.ref ∧
          (s.start.inputPhase < 9 → t.pins.fa = s.pins.fa ∧ t.pins.dk = s.pins.dk ∧ t.pins.bb = s.pins.bb) ∧
          (9 ≤ s.start.inputPhase → t.pins.fa = sampled s.pins.fa ∧ t.pins.dk = sampled s.pins.dk ∧
            t.pins.bb = sampled s.pins.bb)) ∧
        t.start.inputPhase = (if s.start.inputPhase < 9 then s.start.inputPhase + 1 else 0)) ∧
      (∀ i, s.port.dispatched = some i → i ∈ t.pending) ∧
      (s.port.dispatched = none →
        queues .powerFailWarning (s.pins.pfw.valid ≠ some true ∧ t.pins.pfw.valid = some true) ∧
        queues .pfwEnd (falls s.pins.pfw t.pins.pfw) ∧
        (¬ (s.start.opState = .start ∧ s.store.state = .reading .image) → let active := !s.image.faActiveOpen
          queues .faActivation (s.pins.fa.valid ≠ some active ∧ t.pins.fa.valid = some active) ∧
          queues .faRelease (s.pins.fa.valid = some active ∧ t.pins.fa.valid = some (!active))) ∧
        queues .dkActivation (rises s.pins.dk t.pins.dk) ∧ queues .bellButtonPress (rises s.pins.bb t.pins.bb) ∧
        queues .minuteMark (rises s.pins.ref t.pins.ref) ∧ queues .ownerAnswer (s.port.answer.isSome = true)) ∧
      (working s = true → s.port.dispatched = none → let now := t.time.localCount
        let reached := fun c : Count => (now - c).toNat < 2147483648
        let due := fun x : Option Count => ∃ c, x = some c ∧ reached c
        queues .secondBoundary (t.time.secondDue.isSome = true) ∧
        queues .minuteBoundary (t.time.minuteDue.isSome = true) ∧
        queues .referenceLapse (due (t.time.prevMark.map (· + 125000#32))) ∧
        queues .beaconTimer (s.start.opState = .run ∧ due t.time.beaconDeadline) ∧
        queues .settimeCopy (due (t.time.setCopies.bind (·.nextAt))) ∧
        queues .lineBecomesIdle (t.line.activity = .busy ∧ t.line.dominant = false ∧ 10 ≤ t.line.quiet) ∧
        queues .contentionInstant (s.start.opState = .run ∧ t.line.listenOnly = false ∧ t.line.activity = .idle ∧
          ∃ e rest, t.line.queue = e :: rest ∧ contentionAt t.line s.start.station e.body ≤ t.line.quiet) ∧
        queues .deferenceLapse (t.line.deference = true ∧ 300 ≤ t.line.quiet) ∧
        queues .stuckWatch (t.line.activity ≠ .idle ∧ t.line.stuckRecorded = false ∧
          reached (t.line.stuckFrom + 50#32)) ∧
        (∀ p, queues (.absenceDeadline p) (p ≠ s.start.station ∧ t.line.roster[p].present = true ∧
          reached (t.line.roster[p].lastHeard + BitVec.ofNat 32 (5 * (s.image.beaconPeriod * 1000))))) ∧
        queues .joinTimer (s.start.opState = .join ∧ due t.start.joinDeadline) ∧
        queues .loadTimer (∃ f c, t.plan.staging = .loading f c ∧ reached c) ∧
        queues .noProgressTimer (∃ f, t.plan.staging = .fetching f ∧ reached f.timer) ∧
        queues .servePause (due t.plan.pausedUntil) ∧
        (∀ k, queues (.waitDeadline k) (∃ c, claimIn t.arb k = some c ∧ c.passed = false ∧ due c.deadline)) ∧
        (∀ k, queues (.bellClaimNotice k) (∃ n ∈ t.arb.notices, n.slot = bellSlot k)) ∧
        (∀ i, queues (.announceClaimNotice i) (∃ n ∈ t.arb.notices, n.slot = annSlot i)) ∧
        queues .drillClaimNotice (∃ n ∈ t.arb.notices, n.slot = drillSlot) ∧
        (∀ i, let reaches := fun e : AnnEntry => (e.trigger = .campus ∧ 0 ≤ campusDiff t.time.campus e.start) ∨
            ∃ c, e.trigger = .localAt c ∧ reached c
          queues (.startTrigger i) (∃ e, t.ann.table[i] = some e ∧ e.state = .gathering ∧ reaches e) ∧
          queues (.gatherLimit i) (∃ e, t.ann.table[i] = some e ∧ e.state = .gathering ∧ ¬ reaches e ∧
            due e.deadline) ∧
          queues (.endDeadline i) (∃ e l, t.ann.table[i] = some e ∧ e.state = .playing ∧ e.kind = .live l ∧
            due e.deadline) ∧
          queues (.chimeComplete i) (∃ e c n, t.ann.table[i] = some e ∧ e.state = .playing ∧ e.kind = .chime c n ∧
            t.synth.complete = true ∧ t.synth.playing.map (·.1) = some (annSlot i))) ∧
        queues .liveRecordExpiry (due (t.ann.live.map (·.expiry))) ∧
        (∀ c, let g := t.bells.gens[c]
          queues (.pulseOnEnd c) ((∃ n, g.state = .on n) ∧ due g.deadline) ∧
          queues (.pulseOffEnd c) ((∃ n, g.state = .off n) ∧ due g.deadline) ∧
          queues (.restEnd c) (g.state = .rest ∧ due g.deadline)) ∧
        queues .evacPattern ((∃ c : BellNo, t.bells.gens[c].state = .evac) ∧ due t.bells.evacDeadline) ∧
        (∀ c, let k := s.image.clocks[c].kind
          let r := t.clocks[c].impulse
          queues (.impulseEnd c) (k = .impulse ∧ r.cycle = .impulse ∧ r.midpoint.isSome = true ∧ due r.deadline) ∧
          queues (.impulseRestEnd c) (k = .impulse ∧ r.cycle = .rest ∧ due r.deadline) ∧
          queues (.codeFrameEnd c) (k = .coded ∧ t.clocks[c].coded.sending = true ∧
            6250 * t.clocks[c].coded.frame.length ≤ 12 * t.clocks[c].coded.frameTicks)) ∧
        queues .evacuationDeadline (∃ r, t.drill.record = some r ∧ evacuationReached t r = true) ∧
        queues .assembleDeadline (∃ r, t.drill.record = some r ∧ assembleReached t r = true) ∧
        queues .endOfAllClear (∃ r, t.drill.record = some r ∧ allClearReached t r = true) ∧
        queues .periodicFrameTimer (t.drill.state ≠ .idle ∧ due t.drill.periodic) ∧
        queues .endCopy (∃ x ∈ t.drill.copies, due x.nextAt) ∧
        queues .allClearComplete (allClearHeld t.arb = true ∧ t.synth.complete = true ∧
          t.synth.playing.map (·.1) = some drillSlot)))

/-- What State.reset holds in each block: the values that the rules give for START and, as the model's choice,
values that no rule gives; each part is in order there. The model's choices (log 4, DESIGN CHOICE): a roster
entry's last heard is 0, in the clause on `RosterEntry.initial`, where R48 gives none for a peer not heard; and
the image that `ImageOk` speaks of is the built-in one, held until the image has been read. That the memory
lists no byte, on which `mem.wf` rests, is the model's choice too (log 5, DESIGN CHOICE)
(01_campus_time.md 1.2 (R6), 02_the_campus_line.md (R29, R38, R48), 06_zones_and_the_zone_arbiter.md
(R114, R115), 09_fault_banks_and_notices.md (R175, R183), 10_the_panel_port.md (R186),
11_start_up_power_fail_and_restart.md (R200, R205)). -/
def Obligations.ResetHoldsTheStartValues : Prop :=
  State.reset.start.opState = .start ∧ State.reset.store = ⟨.reading .image, false⟩ ∧
    State.reset.time.localCount = 0 ∧ State.reset.time.quality = .unset ∧
    State.reset.time.campus = ⟨0, 0⟩ ∧ State.reset.time.stepCounter = 0 ∧
    State.reset.time.slewRemainder = 0 ∧ State.reset.time.emptyRounds = 0 ∧
    State.reset.time.lastSet = none ∧ State.reset.time.pendingSet = none ∧
    State.reset.time.label = none ∧ State.reset.time.prevMark = none ∧
    State.reset.pins.ref.valid = none ∧ State.reset.time.lastBeacon = none ∧
    State.reset.time.ownSeq = 0 ∧ State.reset.time.beaconDeadline = none ∧
    State.reset.time.setCopies = none ∧
    State.reset.line.activity = .busy ∧ State.reset.line.quiet = 0 ∧ State.reset.line.queue = [] ∧
    State.reset.line.listenOnly = false ∧
    (∀ p : StationNo, State.reset.line.roster[p] = RosterEntry.initial) ∧
    (∀ c : BellNo, State.reset.bells.gens[c].state = .idle) ∧
    (∀ r : ResNo, State.reset.arb.res[r] = ⟨none, []⟩) ∧
    (∀ k : SlotNo, State.reset.arb.slots[k].claim = none) ∧
    (∀ i : TablePos, State.reset.ann.table[i] = none) ∧
    State.reset.drill.state = .idle ∧ State.reset.drill.record = none ∧
    (∀ b : Fin 6, State.reset.faults.banks[b] = Bank.empty) ∧
    (∀ k : NoticeKind, noticePending State.reset.faults k = false) ∧
    State.reset.port.state = .idle ∧ State.reset.port.buffer = .empty ∧ State.reset.pending = [] ∧
    State.reset.mem.wf = true ∧ LineOk State.reset.line ∧ TimeOk State.reset.time ∧ ArbOk State.reset.arb ∧
    DrillOk State.reset.drill ∧ FaultsOk State.reset.faults ∧ BellsOk State.reset.bells ∧
    ClocksOk State.reset.clocks ∧ ImageOk State.reset.image ∧ AnnOk State.reset.ann

/-- Newer generations and keys, and the campus precedence order of drills and live announcements
(00_scope.md (R1, R2), 01_campus_time.md 1.1 (R4)). The model's reading (log 61, DEDUCED): of two start
times whose days lie exactly 32,768 apart neither is later by R4, and so neither earlier, and the origins
decide. Of two entries of one origin R2 orders neither such a pair nor one of equal start times; that neither
precedes the other is the model's choice (logs 21, 70, DESIGN CHOICE). -/
def Obligations.KeysAndPrecedenceCompare : Prop :=
  (∀ a b : Generation, genNewer a b = true ↔
      1 ≤ (a.toNat + 65536 - b.toNat) % 65536 ∧ (a.toNat + 65536 - b.toNat) % 65536 ≤ 32767) ∧
    genNewer 3 65530 = true ∧
    (∀ k j : Key, keyNewer k j = true ↔
      genNewer k.gen j.gen = true ∨ (k.gen = j.gen ∧ k.origin.val < j.origin.val)) ∧
    (∀ k j : Key, k.gen = j.gen → k.origin = j.origin → k = j) ∧
    (∀ (kA kB : DrillKind) (sA sB : CampusTime) (oA oB : StationNo),
      drillPrecedes kA sA oA kB sB oB = true ↔
        (kA = .real ∧ kB = .practice) ∨
        (kA = kB ∧ (0 < campusDiff sB sA ∨ (¬ 0 < campusDiff sA sB ∧ oA.val < oB.val)))) ∧
    (∀ (sA sB : CampusTime) (oA oB : StationNo),
      startPrecedes sA oA sB oB = true ↔
        0 < campusDiff sB sA ∨ (¬ 0 < campusDiff sA sB ∧ oA.val < oB.val)) ∧
    (∀ (kA kB : DrillKind) (sA sB : CampusTime) (oA oB : StationNo), oA ≠ oB → sA.ms < 86400000 →
      sB.ms < 86400000 →
      (startPrecedes sA oA sB oB = true ↔ ¬ startPrecedes sB oB sA oA = true) ∧
      (drillPrecedes kA sA oA kB sB oB = true ↔ ¬ drillPrecedes kB sB oB kA sA oA = true))

/-- Campus time advances with the local count, wraps at midnight and at day 65,535, and adds and
subtracts as R4 says (R4). -/
def Obligations.CampusTimeAdvancesAddsAndDiffers : Prop :=
  (∀ t : TimeUnit, t.slewRemainder = 0 → t.campus.ms < 86400000 →
      (msTick t).localCount = t.localCount + 1 ∧
      (msTick t).campus = if t.campus.ms = 86399999 then ⟨t.campus.day + 1, 0⟩
        else ⟨t.campus.day, t.campus.ms + 1⟩) ∧
    (65535#16 + 1 = 0#16) ∧
    (∀ (t : CampusTime) (d : Int), campusAdd t d =
      ⟨t.day + BitVec.ofInt 16 (((t.ms : Int) + d) / 86400000),
        (((t.ms : Int) + d) % 86400000).toNat⟩) ∧
    (∀ a b : CampusTime, ∃ n : Int, -32768 ≤ n ∧ n ≤ 32767 ∧
      (65536 : Int) ∣ (n - ((a.day.toNat : Int) - (b.day.toNat : Int))) ∧
      campusDiff a b = n * 86400000 + ((a.ms : Int) - (b.ms : Int)))

/-- The correction of an agreement round: one largest and one smallest dropped, then the midpoint (R13). -/
def Obligations.RoundCorrectionIsTheTrimmedMidpoint : Prop :=
  (∀ w : List Int, w ≠ [] → ∃ l : List Int, l.Perm w ∧ l.Pairwise (· ≤ ·) ∧
      ∀ a b : Int,
        (if 4 ≤ w.length then (l.drop 1).dropLast else l).head? = some a →
        (if 4 ≤ w.length then (l.drop 1).dropLast else l).getLast? = some b →
        correction w = (a + b).tdiv 2) ∧
    (∀ x : Int, correction [x] = x) ∧ correction [0] = 0

/-- A round's correction is nothing below 2 ms, a slew below 250 ms, a step from 250 ms on; a step
applies the pending key (R14). -/
def Obligations.RoundAppliesItsCorrection : Prop :=
  (∀ (s : State) (c : Int),
      (c.natAbs ≤ 1 → applyCorrection s c = s) ∧
      (2 ≤ c.natAbs → c.natAbs ≤ 249 →
        applyCorrection s c = s.withTime { s.time with slewRemainder := c, slewPhase := 0 }) ∧
      (250 ≤ c.natAbs → applyCorrection s c = stepBy s c ∧
        (applyCorrection s c).time.campus = campusAdd s.time.campus c)) ∧
    (∀ s : State, s.time.quality ≠ .unset →
      let c := correction (workingSet s.time.quality (eligible s))
      (∀ k, 250 ≤ c.natAbs → s.time.pendingSet = some k →
        (agreementRound s).time.lastSet = some (k, c) ∧ (agreementRound s).time.pendingSet = none) ∧
      (250 ≤ c.natAbs → s.time.pendingSet = none → (agreementRound s).time.lastSet = s.time.lastSet ∧
        (agreementRound s).time.pendingSet = none) ∧
      (c.natAbs ≤ 249 → (agreementRound s).time.lastSet = s.time.lastSet ∧
        (agreementRound s).time.pendingSet = s.time.pendingSet))

/-- A round: the eligible samples, the working set, the ageing of samples, the empty-round count and the
changes of quality (01_campus_time.md 1.3 (R11), 1.4 (R12, R15), 09_fault_banks_and_notices.md (R180)). -/
def Obligations.RoundCountsEmptyRounds : Prop :=
  (∀ s : State, ∃ ps : List StationNo, ps.Nodup ∧
      (∀ p, p ∈ ps ↔ s.line.roster[p].present = true ∧ s.line.roster[p].sample.isSome = true ∧
        ∃ q, s.line.roster[p].quality = some q ∧ q ≠ .unset) ∧
      eligible s = ps.map fun p => (decide (s.line.roster[p].quality = some .referenced),
        (s.line.roster[p].sample.map (·.value)).getD 0)) ∧
    (∀ (q : Quality) (el : List (Bool × Int)), let refs := (el.filter (·.1)).map (·.2)
      (q = .referenced → (workingSet q el).Perm (0 :: refs)) ∧
      (q ≠ .referenced → refs ≠ [] → (workingSet q el).Perm refs) ∧
      (q ≠ .referenced → refs = [] → (workingSet q el).Perm (0 :: el.map (·.2)))) ∧
    ∀ s : State, s.time.quality ≠ .unset →
    (∀ p : StationNo, let c := correction (workingSet s.time.quality (eligible s))
      (c.natAbs ≤ 249 → (agreementRound s).line.roster[p] = { s.line.roster[p] with
        sample := s.line.roster[p].sample.bind fun x =>
          if x.age < 2 then some { x with age := x.age + 1 } else none }) ∧
      (250 ≤ c.natAbs → (agreementRound s).line.roster[p] =
        { s.line.roster[p] with mark := none, sample := none })) ∧
    (agreementRound s).time.emptyRounds =
      (if eligible s = [] then min 5 (s.time.emptyRounds + 1) else 0) ∧
    (agreementRound s).time.quality =
      (match s.time.quality with
        | .synced => if (agreementRound s).time.emptyRounds = 5 then .isolated else .synced
        | .isolated => if eligible s = [] then .isolated else .synced
        | q => q) ∧
    (s.time.quality = .synced → (agreementRound s).time.emptyRounds = 5 → Taking s →
      faultEnabled s.image .isolated = true →
      (agreementRound s).faults.banks[bankIndex .time].valid = true ∧
      (s.faults.banks[bankIndex .time].valid = false →
        (agreementRound s).faults.banks[bankIndex .time].uncorrected = false ∧
        (agreementRound s).faults.banks[bankIndex .time].code = 4 ∧
        (agreementRound s).faults.banks[bankIndex .time].detail = none)) ∧
    (Taking s → (agreementRound s).time.quality ≠ s.time.quality → Pending (agreementRound s) .timeChange)

/-- What a step of campus time does, and that a step by 0 is not made (01_campus_time.md 1.3 (R11), 1.5
(R17), 1.6 (R18), 05_room_clock_circuits.md (R99, R110), 07_announcements_and_chimes.md (R138),
09_fault_banks_and_notices.md (R177, R180)). The model's: the order of the units that take the notice, Bell,
Clock and Announcement Unit, with STEP APPLIED recorded after them (log 13, DESIGN CHOICE), since R17 lists
them without an order; a code frame begun before the status computation of the same event, which then sets no
resend flag (log 71, DESIGN CHOICE), and entries that one step starts start in order of position (log 59, DESIGN
CHOICE). -/
def Obligations.AStepOfCampusTime : Prop :=
  ∀ (s : State) (c : Int), stepBy s 0 = s ∧ (c ≠ 0 →
    (stepBy s c).time.campus = campusAdd s.time.campus c ∧
    (stepBy s c).time.stepCounter = s.time.stepCounter + 1 ∧
    (stepBy s c).time.slewRemainder = 0 ∧ (stepBy s c).time.capture = none ∧
    (∀ p : StationNo, (stepBy s c).line.roster[p] =
      { s.line.roster[p] with mark := none, sample := none }) ∧
    (∀ b m, (stepBy s c).time.lastBeacon = some b → b.mark = some m → m.campus = none) ∧
    (stepBy s c).time.secondDue = s.time.secondDue ∧ (stepBy s c).time.minuteDue = s.time.minuteDue ∧
    (stepBy s c).time.quality = s.time.quality ∧ (stepBy s c).time.localCount = s.time.localCount ∧
    (stepBy s c).time.lastSet = s.time.lastSet ∧ (stepBy s c).time.pendingSet = s.time.pendingSet ∧
    (Taking s → Pending (stepBy s c) .timeChange) ∧
    (Taking s → faultEnabled s.image (.stepApplied 0) = true →
      let b := s.faults.banks[bankIndex .time]
      let seconds : Int := if c.tdiv 1000 < -32768 then -32768 else if 32767 < c.tdiv 1000 then 32767 else c.tdiv 1000
      (b.valid = false → (stepBy s c).faults.banks[bankIndex .time] = { b with
        valid := true
        uncorrected := false
        code := 1
        detail := some (.seconds seconds)
        time := if s.time.quality = .unset then none else some (campusAdd s.time.campus c)
        count := min 255 (b.count + 1) }) ∧
      (b.valid = true → (stepBy s c).faults.banks[bankIndex .time] =
        { b with overflow := true, count := min 255 (b.count + 1) })) ∧
    (let new := campusAdd s.time.campus c
      let status := codeStatus s ⟨new, true⟩
      ClocksNoticed s (stepBy s c) ⟨new, true⟩ status status ∧
      (∀ (i : TablePos) (e : AnnEntry), s.ann.table[i] = some e →
        let reached := e.state = .gathering ∧ e.trigger = .campus ∧ 0 ≤ campusDiff new e.start
        (¬ reached → (stepBy s c).ann.table[i] = some e) ∧
        (reached → (stepBy s c).ann.table[i] = none ∨
          ∃ x, (stepBy s c).ann.table[i] = some x ∧ x.id = e.id ∧ x.start = e.start ∧ x.state = .playing)) ∧
      (Active s → ∃ w u a b d v : State, Changes [.time, .line] s w ∧ w.time.campus = new ∧
        w.time.quality = s.time.quality ∧ w.time.localCount = s.time.localCount ∧
        Changes [.clocks] (bellStep w s.time.campus new) u ∧ StepTaken new 0 u a ∧ StepTaken new 1 a b ∧
        StepTaken new 2 b d ∧ StepTaken new 3 d v ∧ Changes [.faults] v (stepBy s c))) ∧
    Changes [.time, .line, .bells, .mark, .arb, .synth, .ann, .clocks, .faults] s (stepBy s c))

/-- SET TIME: BAD, establishment at an UNSET station, or a step with a new key and the first SETTIME copy
(01_campus_time.md 1.5 (R17), 1.8 (R24, R25, R26), 04_bells.md 4.3 (R82), 4.4 (R86),
05_room_clock_circuits.md (R99, R110), 07_announcements_and_chimes.md (R138),
09_fault_banks_and_notices.md (R177, R178, R180)). The model's: the generation after known ones of which
none is newer than every other (log 10, DESIGN CHOICE), and a code frame begun before the status computation
of the same event (log 71, DESIGN CHOICE). -/
def Obligations.SetTimeSetsTheCampus : Prop :=
  ∀ (s : State) (t : CampusTime), Active s → TimeOk s.time →
    (86399999 < t.ms → exec (.setTime t) s = .next (answered s (.bad .argument))) ∧
    (t.ms ≤ 86399999 → s.time.quality = .unset → ∃ u, exec (.setTime t) s = .next u ∧
      Established s u t .synced ∧
      u.time.lastSet = s.time.lastSet ∧ u.time.setCopies = s.time.setCopies ∧
      u.time.pendingSet = s.time.pendingSet ∧ u.port = (answered s (.done (.set none))).port ∧
      Changes [.time, .bells, .mark, .arb, .synth, .clocks, .faults, .port] s u) ∧
    (t.ms ≤ 86399999 → s.time.quality ≠ .unset →
      let key : Key := ⟨nextGen (knownSetGens s), s.start.station⟩
      let delta := campusDiff t s.time.campus
      let knows := fun g : Generation => (∃ l, s.time.lastSet = some l ∧ l.1.gen = g) ∨
        (∃ k, s.time.pendingSet = some k ∧ k.gen = g) ∨
        ∃ (p : StationNo) (k : Key), s.line.roster[p].setKey = some k ∧ k.gen = g
      ((∀ g, ¬ knows g) → key.gen = 1) ∧
      (∀ g, knows g → (∀ h, knows h → h = g ∨ genNewer g h = true) → key.gen = g + 1) ∧
      ∃ u, exec (.setTime t) s = .next u ∧
      u.time.campus = t ∧ u.time.quality = s.time.quality ∧
      u.time.lastSet = some (key, delta) ∧
      u.time.pendingSet = s.time.pendingSet.filter (fun x => keyNewer x key) ∧
      u.time.stepCounter = (if delta = 0 then s.time.stepCounter else s.time.stepCounter + 1) ∧
      (HasRoom s → Queued u.line (.settime key delta) ∧ u.time.setCopies = some ⟨key, delta, 1, none⟩) ∧
      (takesOffers s = true → u.time.setCopies = some ⟨key, delta, 1, none⟩ ∨
        u.time.setCopies = some ⟨key, delta, 1, some (s.time.localCount + 2000#32)⟩) ∧
      (takesOffers s = false → u.time.setCopies = none ∧ u.line.queue = s.line.queue) ∧
      Changes [.time, .line, .plan, .drill, .faults, .port]
        (stepBy (s.withTime { s.time with setCopies := none }) delta) u ∧
      (delta ≠ 0 → Taking s → Pending u .timeChange ∧ u.faults.banks[bankIndex .time] =
        stepRecorded s.image s.faults.banks[bankIndex .time] delta (some t)) ∧
      (delta = 0 → u.faults.banks[bankIndex .time] = s.faults.banks[bankIndex .time]) ∧
      u.port = (answered s (.done (.set (some (key, delta))))).port ∧
      Changes [.time, .line, .bells, .mark, .arb, .synth, .ann, .clocks, .faults, .plan, .drill, .port] s u)

/-- REFERENCE LABEL: a whole minute becomes the held label in every quality; a mark, START and RESTART
clear it (R20). -/
def Obligations.ReferenceLabelIsHeld : Prop :=
  (∀ (s : State) (t : CampusTime), Active s →
      exec (.referenceLabel t) s = .next (answered
        (if t.ms % 60000 = 0 ∧ t.ms ≤ 86340000 then s.withTime { s.time with label := some t } else s)
        (if t.ms % 60000 = 0 ∧ t.ms ≤ 86340000 then .done .nothing else .bad .argument))) ∧
    (∀ (s : State) (l : CampusTime), (acceptMark s l).time.label = none) ∧
    (∀ s t : State, exec .powerOn s = .next t → t.time.label = none) ∧
    (∀ s t : State, Active s → exec .restart s = .next t → t.time.label = none)

/-- A minute mark is accepted with a label and the right spacing, else rejected (01_campus_time.md 1.7
(R21), 09_fault_banks_and_notices.md (R180)). The model's choices: a mark without a label has the detail
NO LABEL whatever its spacing (log 54, DESIGN CHOICE), and the row sets the REF pin at once (log 31,
DESIGN CHOICE). -/
def Obligations.AMinuteMarkIsAcceptedOrRejected : Prop :=
  ∀ s : State, alive s = true → s.start.opState ≠ .halt →
    ((s.time.label.isSome ∧ ∀ p, s.time.prevMark = some p →
        59500 ≤ countSince s.time.localCount p ∧ countSince s.time.localCount p ≤ 60500) →
      ∃ t, exec .minuteMark s = .next t ∧ t.time.label = none ∧
        t.time.prevMark = some s.time.localCount ∧ t.time.quality = .referenced) ∧
    (¬ (s.time.label.isSome ∧ ∀ p, s.time.prevMark = some p →
        59500 ≤ countSince s.time.localCount p ∧ countSince s.time.localCount p ≤ 60500) →
      exec .minuteMark s = .next (report
        (s.withPins { s.pins with ref := ⟨true, some true, some true⟩ })
        (.markRejected s.time.label.isSome)))

/-- What an accepted minute mark does to campus time (01_campus_time.md 1.2 (R6, R7), 1.5 (R17), 1.7
(R22), 05_room_clock_circuits.md (R99, R109, R110), 09_fault_banks_and_notices.md (R177, R178, R180)).
The model's reading (log 44, DEDUCED): the row stands at the mark instant, so that at an UNSET station
nothing is added to the label. Its choice: a code frame begun before the status computation of the same event
(logs 13, 71, DESIGN CHOICE). -/
def Obligations.AnAcceptedMarkCorrectsTheTime : Prop :=
  ∀ (s : State) (l : CampusTime), alive s = true → s.start.opState ≠ .halt →
    s.time.label = some l → markAccepted s.time = true →
    ∃ t, exec .minuteMark s = .next t ∧ t.time.pendingSet = s.time.pendingSet ∧
      t.time.lastSet = s.time.lastSet ∧
      t.time.quality = .referenced ∧ (Taking s → s.time.quality ≠ .referenced → Pending t .timeChange) ∧
      (s.time.quality = .unset → Established s t l .referenced ∧ t.line = s.line ∧
        t.faults.banks = s.faults.banks) ∧
      (s.time.quality ≠ .unset →
        ((campusDiff l s.time.campus).natAbs < 250 → Changes [.pins, .time, .clocks, .faults] s t ∧
          t.faults.banks = s.faults.banks ∧ t.time.stepCounter = s.time.stepCounter ∧
          ∀ c : ClockNo, t.clocks[c].impulse = s.clocks[c].impulse) ∧
        ((campusDiff l s.time.campus).natAbs < 2 →
          t.time.campus = s.time.campus ∧ t.time.slewRemainder = s.time.slewRemainder) ∧
        (2 ≤ (campusDiff l s.time.campus).natAbs → (campusDiff l s.time.campus).natAbs < 250 →
          t.time.campus = s.time.campus ∧ t.time.slewRemainder = campusDiff l s.time.campus) ∧
        (250 ≤ (campusDiff l s.time.campus).natAbs →
          t.time.campus = campusAdd s.time.campus (campusDiff l s.time.campus) ∧
          t.time.stepCounter = s.time.stepCounter + 1 ∧
          (let delta := campusDiff l s.time.campus
            let r : Reading := ⟨campusAdd s.time.campus delta, true⟩
            ClocksNoticed s t r (codeStatus s r) (codeStatus (s.withTime { s.time with quality := .referenced }) r) ∧
            (∃ v : State, Changes [.pins, .time] s v ∧ v.time = { s.time with
                label := none
                prevMark := some s.time.localCount } ∧ Changes [.time, .clocks, .faults] (stepBy v delta) t) ∧
            (Taking s → Pending t .timeChange ∧ t.faults.banks[bankIndex .time] =
              stepRecorded s.image s.faults.banks[bankIndex .time] delta (some r.time))))) ∧
      Changes [.pins, .time, .line, .bells, .mark, .arb, .synth, .ann, .clocks, .faults] s t

/-- REFERENCE_LAPSE, BEACON_TIMER, START_MARK, the boundaries, and SLEW_TICK, a millisecond of its own by
the model's choice (log 25) (01_campus_time.md 1.3 (R8, R9), 1.4 (R12 to R15), 1.5 (R16), 1.6 (R18), 1.7
(R23), 05_room_clock_circuits.md (R99, R109, R110), 04_bells.md (R82, R83), 09_fault_banks_and_notices.md
(R177, R178, R180), 9.5 (R182), 08_fire_drills_and_alarms.md (R174), 03_the_day_plan.md (R56)). The model's
readings: SLEW_TICK is a millisecond (log 25, DESIGN CHOICE); a BEACON
carries the sequence after the increase, which every offer makes (log 9, DEDUCED); a code frame begins at a
minute boundary before the status computation of the same boundary, which then sets no resend flag (log 71,
DESIGN CHOICE). -/
def Obligations.TimersOfTheTimeUnit : Prop :=
  (∀ s : State, Active s → s.time.prevMark.isSome → ∃ t, exec .referenceLapse s = .next t ∧
      t.time.prevMark = none ∧
      t.time.quality = (if s.time.quality = .referenced then
        (if s.time.emptyRounds < 5 then .synced else .isolated) else s.time.quality) ∧
      t.time.campus = s.time.campus ∧ Changes [.time, .clocks, .faults] s t ∧
      (s.time.quality ≠ .referenced → Changes [.time] s t) ∧
      (s.time.quality = .referenced → Taking s → Pending t .timeChange ∧
        let now := some s.time.campus
        let b := s.faults.banks[bankIndex .time]
        let lapsed := if faultEnabled s.image .referenceLapsed = true then corrected b 3 none now else b
        t.faults.banks[bankIndex .time] = if 5 ≤ s.time.emptyRounds ∧ faultEnabled s.image .isolated = true
          then corrected lapsed 4 none now else lapsed)) ∧
    (∀ s : State, Running s → ∃ t, exec .beaconTimer s = .next t ∧
      t = offerBeacon (agreementRound (s.withTime { s.time with
        beaconDeadline := some (s.time.localCount + BitVec.ofNat 32 (s.image.beaconPeriod * 1000)) })) ∧
      (∀ u : State, u.time.quality = .unset → agreementRound u = u) ∧
      t.time.ownSeq = s.time.ownSeq + 1 ∧
      t.time.beaconDeadline = some (s.time.localCount + BitVec.ofNat 32 (s.image.beaconPeriod * 1000)) ∧
      (s.time.quality = .unset → t.time.campus = s.time.campus) ∧
      (HasRoom s → ∃ c : BeaconContent, c.seq = s.time.ownSeq + 1 ∧ c.quality = t.time.quality ∧
        c.stepCounter = t.time.stepCounter ∧ c.setKey = t.time.lastSet.map (·.1) ∧
        (t.time.lastBeacon = none → c.prevSeq = 0 ∧ c.prevMark = none) ∧
        (∀ b, t.time.lastBeacon = some b → c.prevSeq = b.seq ∧ c.prevMark = b.mark.bind (·.campus)) ∧
        c.plan = s.plan.active.map (fun a => (a.key, a.digest)) ∧
        (let u := agreementRound (s.withTime { s.time with
            beaconDeadline := some (s.time.localCount + BitVec.ofNat 32 (s.image.beaconPeriod * 1000)) })
          ∀ i : Fin 6, c.faults.valid.getLsbD i = u.faults.banks[i].valid ∧
            c.faults.uncorrected.getLsbD i = u.faults.banks[i].uncorrected) ∧
        (s.drill.state = .idle → c.drill = none) ∧
        (∀ r, s.drill.state ≠ .idle → s.drill.record = some r →
          c.drill = some ⟨r.id, r.start, r.kind, s.drill.state⟩) ∧
        Queued t.line (.beacon c)) ∧
      Changes [.time, .line, .bells, .mark, .arb, .synth, .ann, .clocks, .faults, .plan, .drill] s t) ∧
    (∀ s : State, Active s → s.time.slewRemainder ≠ 0 → ∃ t, exec .slewTick s = .next t ∧
      t.time.campus = campusAdd s.time.campus (if 0 < s.time.slewRemainder then 2 else 0) ∧
      t.time.slewRemainder =
        (if 0 < s.time.slewRemainder then s.time.slewRemainder - 1 else s.time.slewRemainder + 1) ∧
      t.time.localCount = s.time.localCount + 1 ∧ Changes [.time] s t) ∧
    (∀ s : State, Active s → exec .startMark s = .next (s.withTime { s.time with
      capture := some ⟨s.time.localCount,
        if s.time.quality = .unset then none else some s.time.campus⟩ })) ∧
    (∀ t : TimeUnit, let u := msTick t
      u = { t with
        localCount := t.localCount + 1
        campus := u.campus
        slewRemainder := u.slewRemainder
        slewPhase := u.slewPhase
        secondDue := u.secondDue
        minuteDue := u.minuteDue } ∧
      (t.slewRemainder = 0 → u.campus = campusAdd t.campus 1 ∧ u.slewRemainder = 0) ∧
      (t.slewRemainder ≠ 0 → t.slewPhase ≠ 99 → u.campus = campusAdd t.campus 1 ∧
        u.slewRemainder = t.slewRemainder ∧ u.slewPhase = t.slewPhase + 1) ∧
      (t.slewRemainder ≠ 0 → t.slewPhase = 99 →
        u.campus = campusAdd t.campus (if 0 < t.slewRemainder then 2 else 0) ∧
        u.slewRemainder = (if 0 < t.slewRemainder then t.slewRemainder - 1 else t.slewRemainder + 1) ∧
        u.slewPhase = 0) ∧
      u.secondDue = (if t.campus.day ≠ u.campus.day ∨ t.campus.ms / 1000 ≠ u.campus.ms / 1000 then
        some ⟨⟨u.campus.day, u.campus.ms / 1000 * 1000⟩, decide (t.quality ≠ .unset)⟩ else t.secondDue) ∧
      u.minuteDue = (if t.campus.day ≠ u.campus.day ∨ t.campus.ms / 60000 ≠ u.campus.ms / 60000 then
        some ⟨⟨⟨u.campus.day, u.campus.ms / 60000 * 60000⟩, decide (t.quality ≠ .unset)⟩,
          decide (t.campus.day ≠ u.campus.day)⟩ else t.minuteDue)) ∧
    (∀ s : State, Active s →
    (∃ t, exec .secondBoundary s = .next t ∧ t.time = { s.time with secondDue := none } ∧
      (s.start.opState = .join → t.bells = s.bells) ∧
      Changes [.time, .bells, .mark, .arb, .synth, .faults] s t) ∧
    (∃ t, exec .minuteBoundary s = .next t ∧ t.time = { s.time with minuteDue := none } ∧
      (∀ b, s.time.minuteDue = some b → minuteReading s = b.reading) ∧
      ClocksNoticed s t (minuteReading s) (codeStatus s (minuteReading s)) (codeStatus s (minuteReading s)) ∧
      Changes [.time, .clocks] s t))

/-- SETTIME_COPY, and a SETTIME taken from a peer (01_campus_time.md 1.5 (R17), 1.8 (R26, R27, R28),
09_fault_banks_and_notices.md (R177, R178, R180)). -/
def Obligations.SettimeCopiesAndSettimeFrames : Prop :=
  (∀ (t : TimeUnit) (k : Key), newerThanLast t k = false ↔ ∃ l, t.lastSet = some l ∧ keyNewer k l.1 = false) ∧
    (∀ (s : State) (c : SetCopies), Active s → s.time.setCopies = some c → c.nextAt.isSome → HasRoom s →
      ∃ t, exec .settimeCopy s = .next t ∧
        t.time.setCopies = some { c with offered := c.offered + 1, nextAt := none } ∧
        Queued t.line (.settime c.key c.delta) ∧ Changes [.time, .line] s t) ∧
    (∀ (s : State) (p : StationNo) (payload : List Byte) (k : Key) (d : Int), Active s →
      p ≠ s.start.station → payload.length = 9 → settimeOf payload = some (k, d) →
      let delta : Int := if s.time.quality = .unset then 0 else match s.time.lastSet with
        | none => d
        | some l => if k.gen = l.1.gen then d - l.2 else d
      let own := s.time.lastSet.map (·.1.origin) = some s.start.station
      ∃ t, exec (.settime p payload) s = .next t ∧ t.time.quality = s.time.quality ∧
        t.line.roster[p].present = true ∧
        (newerThanLast s.time k = false → t.time = { s.time with capture := none } ∧
          (∀ q : StationNo, t.line.roster[q].mark = s.line.roster[q].mark ∧
            t.line.roster[q].sample = s.line.roster[q].sample) ∧
          (s.line.roster[p].present = true → Changes [.line, .time] s t)) ∧
        (newerThanLast s.time k = true → t.time.lastSet = some (k, d) ∧
          t.time.pendingSet = s.time.pendingSet.filter (fun x => keyNewer x k) ∧
          t.time.setCopies = s.time.setCopies.filter (fun c => decide (c.key = k)) ∧
          (delta = 0 → t.time.campus = s.time.campus ∧ t.time.stepCounter = s.time.stepCounter ∧
            t.time.slewRemainder = s.time.slewRemainder ∧ t.time.slewPhase = s.time.slewPhase) ∧
          (delta ≠ 0 → t.time.campus = campusAdd s.time.campus delta ∧
            t.time.stepCounter = s.time.stepCounter + 1 ∧ t.time.slewRemainder = 0 ∧
            ∀ q : StationNo, t.line.roster[q].mark = none ∧ t.line.roster[q].sample = none) ∧
          (Taking s → ((delta ≠ 0 ∨ own) → Pending t .timeChange) ∧
            let now := if s.time.quality = .unset then none else
              some (if delta = 0 then s.time.campus else campusAdd s.time.campus delta)
            let b := s.faults.banks[bankIndex .time]
            let stepped := if delta = 0 then b else stepRecorded s.image b delta now
            t.faults.banks[bankIndex .time] = if own ∧ faultEnabled s.image (.settimeSuperseded k) = true
              then corrected stepped 5 (some (.setKey k)) now else stepped)))

/-- When a station may begin its head frame, and that it then begins it (02_the_campus_line.md 2.2 (R32),
2.3 (R35), 2.4 (R42)). -/
def Obligations.ContentionBeginsTheHeadFrame : Prop :=
  (∀ (l : LineUnit) (st : StationNo) (b : FrameBody), contentionAt l st b =
      16 + 64 * frameClass (bodyKind b) + 2 * st.val +
        (if l.deference = true ∧ (frameClass (bodyKind b) = 2 ∨ frameClass (bodyKind b) = 3) then 32 else 0)) ∧
    (∀ (s : State) (e : TxEntry) (rest : List TxEntry), Running s → s.line.listenOnly = false →
      s.line.activity = .idle → s.line.queue = e :: rest →
      exec .contentionInstant s = .next (s.withLine { s.line with
        queue := { e with inFlight := true } :: rest, activity := .sending, quiet := 0,
        stuckFrom := s.time.localCount })) ∧
    (∀ s : State, (s.start.opState ≠ .run ∨ s.line.listenOnly = true ∨ s.line.activity ≠ .idle ∨
      s.line.queue = []) → exec .contentionInstant s = .next s)

/-- What the transmit queue does with an offered frame (02_the_campus_line.md 2.4 (R38, R39, R40, R42),
01_campus_time.md 1.8 (R26), 03_the_day_plan.md 3.7 (R75), 08_fire_drills_and_alarms.md 8.6 (R161),
09_fault_banks_and_notices.md (R180)). -/
def Obligations.AnOfferEntersReplacesEvictsOrIsRefused : Prop :=
  (∀ (l : LineUnit) (b : FrameBody), LineOk l →
    ((∀ e ∈ l.queue, sameSort b e.body = false) → l.queue.length < 12 →
      (lineOffer l b).told = [] ∧ ∃ pre post, l.queue = pre ++ post ∧
        (lineOffer l b).line = { l with queue := pre ++ newEntry b :: post } ∧
        (∀ e ∈ pre, bodyClass e.body ≤ bodyClass b) ∧ (∀ e ∈ post, bodyClass b < bodyClass e.body)) ∧
    (∀ pre e post, l.queue = pre ++ e :: post → sameSort b e.body = true → e.inFlight = false →
      lineOffer l b = ⟨{ l with queue := pre ++ newEntry b :: post }, [(e.body, .replaced)]⟩) ∧
    (∀ e ∈ l.queue, sameSort b e.body = true → e.inFlight = true →
      (lineOffer l b).line.queue = l.queue ∧ heldFor (lineOffer l b).line b = some b ∧
      (lineOffer l b).told = (heldFor l b).toList.map fun h => (h, TxOutcome.replaced)) ∧
    ((∀ e ∈ l.queue, sameSort b e.body = false) → l.queue.length = 12 →
      ((∀ e ∈ l.queue, evictable b e = false) → lineOffer l b = ⟨l, [(b, .refused)]⟩) ∧
      (∀ pre e post, l.queue = pre ++ e :: post → evictable b e = true →
        (∀ x ∈ post, evictable b x = false) →
        lineOffer l b = ⟨{ l with queue := queueInsert (pre ++ post) (newEntry b) }, [(e.body, .evicted)]⟩))) ∧
    ∀ (s : State) (b : FrameBody),
    let takes := (s.start.opState = .join ∨ s.start.opState = .run) ∧ s.line.listenOnly = false
    (takes → (lineOffer s.line b).told = [] → offer s b = s.withLine (lineOffer s.line b).line) ∧
    (takes → (lineOffer s.line b).told = [(b, .refused)] → (offer s b).line = s.line ∧
      (offer s b).faults = (report s (.queueOverflow (bodyKind b))).faults ∧
      Changes [.time, .plan, .drill, .faults] s (offer s b) ∧
      (Taking s → faultEnabled s.image (.queueOverflow (bodyKind b)) = true →
        s.faults.banks[bankIndex .line] = Bank.empty → (offer s b).faults.banks[bankIndex .line] =
          ⟨true, false, true, 4, some (.frame (bodyKind b)),
            if s.time.quality = .unset then none else some s.time.campus, 0⟩)) ∧
    (takes → ∀ e, sameSort b e = true → (lineOffer s.line b).told = [(e, .replaced)] →
      offer s b = s.withLine (lineOffer s.line b).line) ∧
    (takes → ∀ e o, (lineOffer s.line b).told = [(e, o)] → o = .evicted ∨ o = .refused →
      let now := s.time.localCount
      let u := s.withLine (lineOffer s.line b).line
      let v := if o = .refused then report u (.queueOverflow (bodyKind b)) else u
      let less := fun i : Nat => s.plan.queued.filter fun j => decide (j ≠ i)
      let counted := fun (k : Key) (i : Nat) => s.plan.active.map (·.key) = some k ∧ i ∈ s.plan.queued
      (∀ k d, e = .settime k d → offer s b = v.withTime { s.time with
        setCopies := s.time.setCopies.bind fun c =>
          if c.key = k then (if c.offered < 3 then some { c with nextAt := some (now + 2000#32) } else none)
          else some c }) ∧
      (∀ i start x, e = .drillEnd i start x true → offer s b = v.withDrill { s.drill with
        copies := s.drill.copies.filterMap fun c =>
          if c.drill.id = i ∧ c.drill.start = start then
            (if c.offered < 3 then some { c with nextAt := some (now + 4000#32) } else none)
          else some c }) ∧
      (∀ k i n content, e = .plan k i n content → (¬ counted k i → offer s b = v) ∧
        (counted k i → (o = .evicted → CursorRan (u.withPlan { s.plan with queued := less i }) (offer s b)) ∧
          (o = .refused → offer s b = v.withPlan { s.plan with
            queued := less i
            pausedUntil := some (now + 1000#32) }))) ∧
      ((∀ k d, e ≠ .settime k d) → (∀ i start x, e ≠ .drillEnd i start x true) →
        (∀ k i n content, e ≠ .plan k i n content) → offer s b = v)) ∧
    (¬ takes → offer s b = match b with
      | .settime k _ => s.withTime { s.time with setCopies := s.time.setCopies.filter fun c => decide (c.key ≠ k) }
      | .drillEnd i start _ true => s.withDrill { s.drill with
          copies := s.drill.copies.filter fun c => !(decide (c.drill.id = i) && decide (c.drill.start = start)) }
      | .plan k i _ _ => if s.plan.active.map (·.key) = some k ∧ i ∈ s.plan.queued then
          s.withPlan { s.plan with queued := s.plan.queued.filter fun j => decide (j ≠ i) } else s
      | _ => s)

/-- FRAME_SENT and ECHO_MISMATCH of the frame in flight (02_the_campus_line.md 2.2 (R34), 2.3 (R35, R36),
2.4 (R38, R39), 01_campus_time.md 1.3 (R9), 1.8 (R26), 03_the_day_plan.md 3.7 (R75),
08_fire_drills_and_alarms.md 8.6 (R161)). -/
def Obligations.AnAttemptIsSentOrFails : Prop :=
  (∀ (s : State) (e : TxEntry), Active s → s.line.activity = .sending → inFlight s.line = some e →
    heldFor s.line e.body = none →
    (∃ t, exec .frameSent s = .next t ∧ t.line.activity = .busy ∧ t.line.quiet = 0 ∧
      t.line.deference = (if bodyClass e.body = 2 ∨ bodyClass e.body = 3 then true else s.line.deference) ∧
      (bodyKind e.body ≠ .plan → t.line.queue = s.line.queue.eraseP (·.inFlight)) ∧
      (∀ c, e.body = .beacon c → t.time.lastBeacon = some ⟨c.seq, s.time.capture⟩) ∧
      (bodyKind e.body ≠ .beacon → t.time.lastBeacon = s.time.lastBeacon) ∧
      Changes [.line, .time, .plan, .drill, .faults] s t) ∧
    (e.attempts + 1 < 8 → ∃ t, exec .echoMismatch s = .next t ∧
      t.line = { s.line with activity := .busy, quiet := 0, dominant := true, queue := s.line.queue.map fun x =>
        if x.inFlight then { x with attempts := x.attempts + 1, inFlight := false } else x } ∧
      t.time = { s.time with capture := none } ∧
      t.faults = (report s (.collision (bodyKind e.body))).faults ∧ Changes [.line, .time, .faults] s t) ∧
    (8 ≤ e.attempts + 1 → ∃ t, exec .echoMismatch s = .next t ∧ t.line.activity = .busy ∧
      (bodyKind e.body ≠ .plan → t.line.queue = s.line.queue.eraseP (·.inFlight) ∧ t.faults =
        (report (report s (.collision (bodyKind e.body))) (.frameDropped (bodyKind e.body))).faults) ∧
      Changes [.line, .time, .plan, .drill, .faults] s t)) ∧
    (∀ (s : State) (e : TxEntry), Active s → s.line.activity = .sending → inFlight s.line = some e →
      let now := s.time.localCount
      let copies := fun t : State =>
        (∀ k d, e.body = .settime k d → t.time.setCopies = s.time.setCopies.bind fun c =>
          if c.key = k then (if c.offered < 3 then some { c with nextAt := some (now + 2000#32) } else none)
          else some c) ∧
        (∀ i start o, e.body = .drillEnd i start o true → t.drill.copies = s.drill.copies.filterMap fun c =>
          if c.drill.id = i ∧ c.drill.start = start then
            (if c.offered < 3 then some { c with nextAt := some (now + 4000#32) } else none)
          else some c)
      let counted := fun (k : Key) (i : Nat) => s.plan.active.map (·.key) = some k ∧ i ∈ s.plan.queued
      (∃ t, exec .frameSent s = .next t ∧ copies t ∧
        ∀ k i n content, e.body = .plan k i n content → (¬ counted k i → t.plan = s.plan) ∧
          (counted k i → (∀ j, j < 48 → t.plan.serve.getLsbD j = (s.plan.serve.getLsbD j && decide (j ≠ i))) ∧
            CursorRan (((s.withLine { s.line with
              queue := s.line.queue.eraseP (·.inFlight)
              activity := .busy
              quiet := 0
              dominant := false
              deference := true
              stuckFrom := now }).withTime { s.time with capture := none }).withPlan { s.plan with
                serve := s.plan.serve &&& ~~~(1#48 <<< i)
                queued := s.plan.queued.filter fun j => decide (j ≠ i) }) t)) ∧
      (8 ≤ e.attempts + 1 → ∃ t, exec .echoMismatch s = .next t ∧ copies t ∧
        ∀ k i n content, e.body = .plan k i n content → (¬ counted k i → t.plan = s.plan) ∧
          t.plan.serve = s.plan.serve ∧
          (counted k i → CursorRan ((((s.withLine { s.line with
              queue := s.line.queue.eraseP (·.inFlight)
              activity := .busy
              quiet := 0
              dominant := true }).withTime { s.time with capture := none }).withPlan { s.plan with
                queued := s.plan.queued.filter fun j => decide (j ≠ i) }).withFaults
            (report (report s (.collision .plan)) (.frameDropped .plan)).faults) t))) ∧
    ∀ (s : State) (e : TxEntry) (h : FrameBody), Active s → s.line.activity = .sending →
      inFlight s.line = some e → LineOk s.line → s.line.listenOnly = false → heldFor s.line e.body = some h →
      sameSort e.body h = true →
      (∃ t, exec .frameSent s = .next t ∧ Queued t.line h ∧ heldFor t.line e.body = none ∧
        Changes [.line, .time, .plan, .drill, .faults] s t) ∧
      (8 ≤ e.attempts + 1 → ∃ t, exec .echoMismatch s = .next t ∧ Queued t.line h ∧
        heldFor t.line e.body = none ∧ Changes [.line, .time, .plan, .drill, .faults] s t) ∧
      (e.attempts + 1 < 8 → ∃ t, exec .echoMismatch s = .next t ∧ heldFor t.line e.body = none ∧
        t.line.queue = (s.line.queue.map fun x => if sameSort h x.body then ⟨h, 0, false⟩
          else if x.inFlight then { x with attempts := x.attempts + 1, inFlight := false } else x) ∧
        Changes [.line, .time, .plan, .drill, .faults] s t)

/-- LINE_BECOMES_BUSY, LINE_BECOMES_IDLE, DEFERENCE_LAPSE, STUCK_WATCH, DAMAGED_FRAME and
DUPLICATE_STATION; an unwatched line keeps its level (log 4) (02_the_campus_line.md 2.1 (R29), 2.2 (R34),
2.4 (R42), 2.5 (R43, R45), 2.6 (R47)). -/
def Obligations.LineActivityAndDuplicates : Prop :=
  (∀ s : State, Active s → s.line.activity ≠ .sending →
    (∃ t, exec .lineBecomesBusy s = .next t ∧ t.line.activity = .busy ∧ t.line.quiet = 0 ∧
      (s.line.activity = .idle → t.line.stuckFrom = s.time.localCount) ∧
      t.line.queue = s.line.queue ∧ Changes [.line] s t) ∧
    (∃ t, exec .lineBecomesIdle s = .next t ∧ t.line.activity = .idle ∧ 10 ≤ t.line.quiet ∧
      t.line.stuckRecorded = false ∧ t.line.queue = s.line.queue ∧ Changes [.line] s t) ∧
    exec .deferenceLapse s = .next (s.withLine { s.line with deference := false }) ∧
    (s.line.activity = .busy → s.line.stuckRecorded = false → exec .stuckWatch s =
      .next (report (s.withLine { s.line with stuckRecorded := true }) .lineStuck)) ∧
    (s.line.activity = .idle ∨ s.line.stuckRecorded = true → exec .stuckWatch s = .next s) ∧
    (∀ d : Damage, exec (.damagedFrame d) s = .next (report ((s.withLine { s.line with
      quiet := 0, activity := .busy, dominant := false
      stuckFrom := if s.line.activity = .idle then s.time.localCount else s.line.stuckFrom }).withTime
        { s.time with capture := none }) (.damagedFrame d)))) ∧
  (∀ s : State, Active s → s.pending = [] → (tick s).line = if s.line.dominant = true ∨ s.line.activity = .sending
    then s.line else { s.line with quiet := s.line.quiet + 1 }) ∧
  (∀ s : State, ¬ Active s → exec .lineBecomesBusy s = .next (s.withLine { s.line with dominant := true }) ∧
    exec .lineBecomesIdle s = .next (s.withLine { s.line with dominant := false }) ∧
    exec .duplicateStation s = .next (s.withLine { s.line with dominant := false }) ∧
    ∀ d : Damage, exec (.damagedFrame d) s = .next (s.withLine { s.line with dominant := false })) ∧
  ∀ s : State, Active s → ∃ t, exec .duplicateStation s = .next t ∧ t.line.listenOnly = true ∧
    t.line.roster = s.line.roster ∧ Changes [.line, .time, .drill, .plan, .faults] s t ∧
    (s.line.listenOnly = false → t.line.queue = [] ∧ t.line.holdBeacon = none ∧
      t.line.holdDrill = none ∧ t.time.setCopies = none ∧ t.drill.copies = [] ∧ t.plan.serve = 0 ∧
      t.faults = (report s .duplicateStation).faults) ∧
    (s.line.listenOnly = true → t.faults = s.faults ∧ t.plan = s.plan ∧ t.drill = s.drill ∧
      t.line.queue = s.line.queue)

/-- A valid frame of any kind is heard, what it does where its sender was not present, and that it is then taken as
the frame of a present peer is; and ABSENCE_DEADLINE of a present peer (02_the_campus_line.md 2.5 (R46), 2.7 (R49,
R51, R52), 03_the_day_plan.md 3.7 (R69, R70), 08_fire_drills_and_alarms.md (R171)). -/
def Obligations.PeersAreHeardAndBecomeAbsent : Prop :=
  (∀ (s : State) (p : StationNo), Active s → p ≠ s.start.station → s.line.roster[p].present = true →
      ∃ t, exec (.absenceDeadline p) s = .next t ∧
      t.line.roster[p] =
        { s.line.roster[p] with present := false, mark := none, sample := none, fa := none } ∧
      (∀ q, q ≠ p → t.line.roster[q] = s.line.roster[q]) ∧
      (Taking s → Pending t .peerChange) ∧
      (s.drill.state = .idle → Changes [.line, .faults] s t) ∧
      (∀ r, s.drill.state ≠ .idle → s.drill.record = some r → r.roll[p] = .pending →
        t.drill.record = some { r with roll := r.roll.set p .silent })) ∧
    (∀ (s : State) (p : StationNo), Active s → p ≠ s.start.station →
      let e := s.line.roster[p]
      let u := frameHeard s p
      u.line.roster = s.line.roster.set p { e with
        present := true
        lastHeard := s.time.localCount } ∧ u.line.deference = false ∧
      (e.present = true → u.line.queue = s.line.queue ∧ Changes [.line] s u) ∧
      (e.present = false → (Taking s → Pending u .peerChange) ∧
        currentReading u = currentReading s ∧ u.time.localCount = s.time.localCount ∧ u.time.capture = s.time.capture ∧
        u.plan.active = s.plan.active ∧ u.drill.state = s.drill.state ∧
        (∀ r, s.drill.state ≠ .idle → s.drill.record = some r →
          let pends := r.roll[p] = .silent ∨ r.roll[p] = .notExpected
          (pends → u.drill.record = some { r with roll := r.roll.set p .pending } ∧ (Taking s → Pending u .rollChange)) ∧
          (¬ pends → u.drill.record = some r)) ∧
        ((s.start.opState = .join ∨ e.plan = none) → u.plan = s.plan ∧ u.time = s.time ∧ u.line.queue = s.line.queue ∧
          (s.drill.state = .idle → u.drill = s.drill ∧ u.faults = (raise s .peerChange).faults)) ∧
        (∀ k d, s.start.opState = .run → e.plan = some (k, d) → FetchEvaluated s u p k d) ∧
        Changes [.line, .time, .plan, .drill, .faults] s u)) ∧
    (∀ (s : State) (p : StationNo) (payload : List Byte) (i : Instr), Active s → p ≠ s.start.station →
    ((i = .beacon p payload ∧ lengthAllowed .beacon payload = true) ∨
      (i = .settime p payload ∧ lengthAllowed .settime payload = true) ∨
      (i = .plan p payload ∧ lengthAllowed .plan payload = true) ∨
      (i = .planreq p payload ∧ lengthAllowed .planreq payload = true) ∨
      (i = .announceFrame p payload ∧ lengthAllowed .announce payload = true) ∨
      (i = .annend p payload ∧ lengthAllowed .annend payload = true) ∨
      (i = .drillStateFrame p payload ∧ payload.length = 20 ∧ fieldValue payload 0 1 = 0) ∨
      (i = .endFrame p payload ∧ payload.length = 10 ∧ fieldValue payload 0 1 = 1)) →
    exec i s = exec i (frameHeard s p) ∧ ∃ t, exec i s = .next t ∧ t.line.roster[p].present = true ∧
      t.line.roster[p].lastHeard = s.time.localCount ∧ t.line.deference = false ∧
      (s.line.roster[p].present = false → (Taking s → Pending t .peerChange) ∧
        ((∀ x, i ≠ .drillStateFrame p x) → (∀ x, i ≠ .endFrame p x) → ∀ r, s.drill.state ≠ .idle →
          s.drill.record = some r → t.drill.state = s.drill.state ∧
          ((r.roll[p] = .silent ∨ r.roll[p] = .notExpected) →
            t.drill.record = some { r with roll := r.roll.set p .pending } ∧ (Taking s → Pending t .rollChange)) ∧
          (∀ n, r.roll[p] = .cleared n → t.drill.record = some r))))

/-- A BEACON taken from a peer: the roster, the sample, the time of an UNSET station, the set key and the
fetch evaluation, also of a peer that becomes present with it, after what its presence does
(PeersAreHeardAndBecomeAbsent) (01_campus_time.md 1.2 (R6, R7), 1.3 (R10), 1.8 (R28), 02_the_campus_line.md 2.5
(R46), 2.7 (R49, R52), 03_the_day_plan.md 3.7 (R69, R70), 04_bells.md 4.3 (R82), 4.4 (R86),
05_room_clock_circuits.md (R99, R110)). The model's reading (log 12, DEDUCED): the set key of the very BEACON that establishes the time
is recorded with delta 0. Its choice: a code frame begun before the status computation of the same event
(logs 13, 71, DESIGN CHOICE). -/
def Obligations.ABeaconGivesASampleOrTheTime : Prop :=
  ∀ (s : State) (p : StationNo) (payload : List Byte) (c : BeaconContent), Active s →
    p ≠ s.start.station → payload.length = 31 → beaconOf payload = some c →
    ∃ t, exec (.beacon p payload) s = .next t ∧
      t.line.roster[p].beaconSeq = some c.seq ∧ t.line.roster[p].mark = s.time.capture ∧
      t.line.roster[p].stepCount = some c.stepCounter ∧ t.line.roster[p].quality = some c.quality ∧
      t.line.roster[p].setKey = c.setKey ∧ t.line.roster[p].plan = c.plan ∧
      t.line.roster[p].faults = some c.faults ∧ t.line.roster[p].drill = c.drill ∧
      t.line.roster[p].sample =
        (match c.prevMark, s.line.roster[p].mark.bind (·.campus) with
          | some a, some b =>
            if s.line.roster[p].beaconSeq = some c.prevSeq ∧ s.line.roster[p].stepCount = some c.stepCounter
            then some ⟨campusDiff a b, 0⟩ else s.line.roster[p].sample
          | _, _ => s.line.roster[p].sample) ∧
      (s.time.quality ≠ .unset → t.time.quality = s.time.quality ∧ t.time.campus = s.time.campus) ∧
      (∀ a m, s.time.quality = .unset → c.quality ≠ .unset → c.prevMark = some a →
        s.line.roster[p].mark = some m → s.line.roster[p].beaconSeq = some c.prevSeq →
        s.line.roster[p].stepCount = some c.stepCounter →
        t.time.quality = .synced ∧ t.time.stepCounter = s.time.stepCounter ∧
        t.time.campus = campusAdd a (countSince s.time.localCount m.count : Nat) ∧
        Established s t (campusAdd a (countSince s.time.localCount m.count : Nat)) .synced) ∧
      (s.time.quality = .unset → (c.quality = .unset ∨ c.prevMark = none ∨ s.line.roster[p].mark = none ∨
          s.line.roster[p].beaconSeq ≠ some c.prevSeq ∨ s.line.roster[p].stepCount ≠ some c.stepCounter) →
        t.time.quality = .unset ∧ t.time.campus = s.time.campus ∧ t.time.stepCounter = s.time.stepCounter) ∧
      (∀ k, c.setKey = some k → newerThanLast s.time k = true →
        (s.time.quality = .unset → t.time.lastSet = some (k, 0)) ∧
        (s.time.quality ≠ .unset → t.time.lastSet = s.time.lastSet ∧
          t.time.pendingSet = some (match s.time.pendingSet with
            | none => k
            | some q => if keyNewer k q then k else q))) ∧
      ((∀ k, c.setKey = some k → newerThanLast s.time k = false) → t.time.lastSet = s.time.lastSet ∧
        t.time.pendingSet = s.time.pendingSet) ∧
      ((s.start.opState = .join ∨ c.plan.map (·.1) = s.line.roster[p].plan.map (·.1)) →
        t.plan = (handOver s p).plan) ∧
      (∀ k d, s.start.opState = .run → c.plan = some (k, d) → s.line.roster[p].plan.map (·.1) ≠ some k →
        FetchEvaluated (handOver s p) t p k d)

/-- LOAD BEGIN and LOAD FRAGMENT in each staging state (R62, R63). -/
def Obligations.LoadBeginAndLoadFragment : Prop :=
  (∀ s : State, Active s →
      (s.plan.staging = .free →
        exec (.loadBegin .empty) s = .next (answered (s.withPlan { s.plan with
          staging := .loading (Vector.replicate 41 none) (s.time.localCount + 60000#32) }) (.done .nothing)) ∧
        (s.plan.active = none → exec (.loadBegin .copy) s = .next (answered s (.refused .noPlan))) ∧
        (∀ a, s.plan.active = some a → ∃ f : Fragments, (∀ i : Fin 41, f[i] = a.frags[i.val]?) ∧
          exec (.loadBegin .copy) s = .next (answered (s.withPlan { s.plan with
            staging := .loading f (s.time.localCount + 60000#32) }) (.done .nothing)))) ∧
      (s.plan.staging ≠ .free → ∀ c, exec (.loadBegin c) s = .next (answered s .busy))) ∧
    (∀ (s : State) (index : Nat) (content : List Byte), Active s →
      (40 < index ∨ sectionOf content = none →
        exec (.loadFragment index content) s = .next (answered s (.bad .argument))) ∧
      (∀ h : index < 41, sectionOf content ≠ none →
        (∀ f t, s.plan.staging = .loading f t → ∃ late, exec (.loadFragment index content) s =
          .next (answered (s.withPlan { s.plan with
            staging := .loading (f.set index (some content)) (s.time.localCount + 60000#32)
            overtaken := late }) (.done .nothing))) ∧
        (s.plan.staging = .free →
          exec (.loadFragment index content) s = .next (answered s (.refused .notLoading))) ∧
        (∀ f, s.plan.staging = .fetching f →
          exec (.loadFragment index content) s = .next (answered s .busy))))

/-- LOAD COMMIT: refusals, and the staged plan becoming the active plan under a new key
(00_scope.md (R1), 03_the_day_plan.md 3.4 (R59, R60), 3.5 (R64), 03_the_day_plan.md (R76), 12_formats.md
12.3 (R209)). The model's reading (log 37, DEDUCED): the count of fragments staged that check 1 compares
with the total (R209) is that of the indices below the total, since R60 leaves the others out of the
candidate. The model's own mark `late` is log 55. -/
def Obligations.LoadCommitMakesThePlanActive : Prop :=
  (∀ s : State, (newPlanKey s).origin = s.start.station ∧ ∃ held : Nat → Option Generation,
      held 0 = s.plan.active.map (·.key.gen) ∧
      (∀ p : StationNo, held (p.val + 1) = match s.line.roster[p].plan.map (·.1.gen), held p.val with
        | none, h => h
        | some g, none => some g
        | some g, some h => if genNewer g h = true then some g else some h) ∧
      (newPlanKey s).gen = match held 16 with
        | none => 1
        | some g => g + 1) ∧
    (∀ (p : PlanUnit) (k : Key), newerThanActive p k = false ↔
      ∃ a, p.active = some a ∧ keyNewer k a.key = false) ∧
    (∀ (s : State) (d : Option Digest), Active s →
    (s.plan.staging = .free → exec (.loadCommit d) s = .next (answered s (.refused .notLoading))) ∧
    (∀ f, s.plan.staging = .fetching f → exec (.loadCommit d) s = .next (answered s .busy)) ∧
    (∀ f t0, s.plan.staging = .loading f t0 →
      (∀ r, validate f.toList none d = .error r → ∃ late, exec (.loadCommit d) s = .next (answered
        (s.withPlan { s.plan with
          staging := .loading f (s.time.localCount + 60000#32)
          overtaken := late }) (.refused (.validation r)))) ∧
      (∀ frags, validate f.toList none d = .ok frags →
        (newerThanActive s.plan (newPlanKey s) = false → ∃ late, exec (.loadCommit d) s = .next (answered
          (s.withPlan { s.plan with
            staging := .loading (fragmentsBelow f frags.length) (s.time.localCount + 60000#32)
            overtaken := late }) (.refused .generation))) ∧
        (newerThanActive s.plan (newPlanKey s) = true → ∃ t, exec (.loadCommit d) s = .next t ∧
          t.plan.active = some ⟨newPlanKey s, planDigest frags, frags.length, frags⟩ ∧
          (t.plan.staging = .free ∨ ∃ g, t.plan.staging = .fetching g) ∧ t.plan.serve = 0 ∧
          t.port = (answered s (.done (.planKey (newPlanKey s) (planDigest frags)))).port ∧
          Changes [.plan, .store, .bells, .clocks, .line, .time, .drill, .faults, .port] s t)))) ∧
    (∀ (frags : List (Option (List Byte))) (carried : Option Nat) (expected : Option Digest),
      let judged := validate frags carried expected
      ((∀ l c, ¬ FragmentsRight frags carried expected l c) → judged = .error .fragments) ∧
      ∀ l c, FragmentsRight frags carried expected l c →
        ((∀ x ∈ planChecks c, x.2) → judged = .ok l) ∧
        ∀ r, FirstFailing (planChecks c) r → judged = .error r) ∧
    ∀ frags : List (List Byte), planDigest frags =
      (frags.flatten.flatMap fun b => (List.range 8).map fun i => b.getLsbD (7 - i)).foldl
        (fun (r : BitVec 32) bit => if r.msb ≠ bit then (r <<< 1) ^^^ 0x04C11DB7#32 else r <<< 1) 0xFFFFFFFF#32

/-- OVERRIDE ADD and OVERRIDE REMOVE; a position above 3 is BAD by the model's reading (log 35, DEDUCED)
(03_the_day_plan.md 3.4 (R60), 3.5 (R64, R66, R67), 10_the_panel_port.md 10.6 (R195)). -/
def Obligations.OverrideCommandsRebuildThePlan : Prop :=
  (∀ (s : State) (first last : Nat) (kind : PeriodKind), Active s →
      (¬ (first < last ∧ last ≤ 94371840) →
        exec (.overrideAdd first last kind) s = .next (answered s (.bad .argument))) ∧
      (first < last → last ≤ 94371840 →
        (s.plan.staging ≠ .free → exec (.overrideAdd first last kind) s = .next (answered s .busy)) ∧
        (s.plan.staging = .free →
          (s.plan.active = none →
            exec (.overrideAdd first last kind) s = .next (answered s (.refused .noPlan))) ∧
          (∀ a, s.plan.active = some a →
            (4 ≤ (planOverrides a).length →
              exec (.overrideAdd first last kind) s = .next (answered s (.refused .overridesFull))) ∧
            (∀ frags, (planOverrides a).length < 4 →
              frags = withOverrides a (planOverrides a ++ [⟨first, last, periodCode kind⟩]) →
              (∀ r, validate (frags.map some) none none = .error r →
                exec (.overrideAdd first last kind) s = .next (answered s (.refused (.validation r)))) ∧
              (∀ g, validate (frags.map some) none none = .ok g →
                newerThanActive s.plan (newPlanKey s) = false →
                exec (.overrideAdd first last kind) s = .next (answered s (.refused .generation)))) ∧
            (∀ frags, (planOverrides a).length < 4 →
              frags = withOverrides a (planOverrides a ++ [⟨first, last, periodCode kind⟩]) →
              validate (frags.map some) none none = .ok frags →
              newerThanActive s.plan (newPlanKey s) = true →
              ∃ t, exec (.overrideAdd first last kind) s = .next t ∧
                t.plan.active = some ⟨newPlanKey s, planDigest frags, frags.length, frags⟩ ∧
                t.plan.staging = .free ∧
                t.port = (answered s (.done (.planKey (newPlanKey s) (planDigest frags)))).port ∧
                Changes [.plan, .store, .bells, .clocks, .port] s t))))) ∧
    (∀ (s : State) (n : Nat), Active s → 3 < n →
      exec (.overrideRemove n) s = .next (answered s (.bad .argument))) ∧
    (∀ (s : State) (n : Nat), Active s → n ≤ 3 →
      (s.plan.staging ≠ .free → exec (.overrideRemove n) s = .next (answered s .busy)) ∧
      (s.plan.staging = .free →
        (s.plan.active = none → exec (.overrideRemove n) s = .next (answered s (.refused .noPlan))) ∧
        (∀ a, s.plan.active = some a →
          ((planOverrides a).length ≤ n →
            exec (.overrideRemove n) s = .next (answered s (.refused .noSuchItem))) ∧
          (∀ frags, n < (planOverrides a).length →
            frags = withOverrides a ((planOverrides a).eraseIdx n) →
            (∀ r, validate (frags.map some) none none = .error r →
              exec (.overrideRemove n) s = .next (answered s (.refused (.validation r)))) ∧
            (∀ g, validate (frags.map some) none none = .ok g →
              newerThanActive s.plan (newPlanKey s) = false →
              exec (.overrideRemove n) s = .next (answered s (.refused .generation)))) ∧
          (∀ frags, n < (planOverrides a).length →
            frags = withOverrides a ((planOverrides a).eraseIdx n) →
            validate (frags.map some) none none = .ok frags →
            newerThanActive s.plan (newPlanKey s) = true →
            ∃ t, exec (.overrideRemove n) s = .next t ∧
              t.plan.active = some ⟨newPlanKey s, planDigest frags, frags.length, frags⟩ ∧
              t.plan.staging = .free ∧
              t.port = (answered s (.done (.planKey (newPlanKey s) (planDigest frags)))).port ∧
              Changes [.plan, .store, .bells, .clocks, .port] s t))))

/-- READ PLAN ITEM returns the selected item of the active plan and changes nothing; the content is that
of the sections in the order of R59 (03_the_day_plan.md 3.4 (R59), 3.5 (R68), 12_formats.md 12.3 (R209)).
The model's choice (log 60, DESIGN CHOICE): an index outside its range is BAD also while there is no
active plan. -/
def Obligations.ReadPlanItemReturnsTheItem : Prop :=
  (∀ (frags : List (List Byte)) (c : PlanContent), contentOf frags = some c ↔
      ∃ sections, frags.map sectionOf = sections.map some ∧ LaidOut sections c) ∧
    ∀ s : State, Active s →
    (∀ i, 23 < i → exec (.readPlanItem (.exception i)) s = .next (answered s (.bad .argument))) ∧
    (∀ p i, 3 < p ∨ 7 < i → exec (.readPlanItem (.range p i)) s = .next (answered s (.bad .argument))) ∧
    (∀ p, 3 < p → exec (.readPlanItem (.default p)) s = .next (answered s (.bad .argument))) ∧
    (∀ p i, 3 < p ∨ 47 < i → exec (.readPlanItem (.bell p i)) s = .next (answered s (.bad .argument))) ∧
    (∀ i, 3 < i → exec (.readPlanItem (.override i)) s = .next (answered s (.bad .argument))) ∧
    (∀ n, 7 < n → exec (.readPlanItem (.pattern n)) s = .next (answered s (.bad .argument))) ∧
    exec (.readPlanItem .staging) s = .next (answered s (.done (.planItem
      (.staging ⟨s.plan.staging, s.plan.unobtainable, s.plan.serve⟩)))) ∧
    (∀ item, item ≠ .staging → itemInRange item = true → s.plan.active = none →
      exec (.readPlanItem item) s = .next (answered s (.refused .noPlan))) ∧
    (∀ a c, s.plan.active = some a → contentOf a.frags = some c →
      exec (.readPlanItem .key) s = .next (answered s (.done (.planItem (.key a.key a.digest a.total)))) ∧
      exec (.readPlanItem .drill) s =
        .next (answered s (.done (.planItem (.drill c.evacLimit c.assembleLimit)))) ∧
      (∀ w, c.weekdays.head? = some w →
        exec (.readPlanItem .weekday) s = .next (answered s (.done (.planItem (.weekday w))))) ∧
      (∀ i, i ≤ 23 → exec (.readPlanItem (.exception i)) s = .next (answered s
        (match c.exceptions[i]? with
          | some e => .done (.planItem (.exception e.1 e.2))
          | none => .refused .noSuchItem))) ∧
      (∀ p i q, p ≤ 3 → i ≤ 7 → c.programs[p]? = some q → exec (.readPlanItem (.range p i)) s =
        .next (answered s (match q.ranges[i]? with
          | some r => .done (.planItem (.range r))
          | none => .refused .noSuchItem))) ∧
      (∀ p q, p ≤ 3 → c.programs[p]? = some q → exec (.readPlanItem (.default p)) s =
        .next (answered s (.done (.planItem (.default q.default))))) ∧
      (∀ p i q, p ≤ 3 → i ≤ 47 → c.programs[p]? = some q → exec (.readPlanItem (.bell p i)) s =
        .next (answered s (match q.bells[i]? with
          | some e => .done (.planItem (.bell e))
          | none => .refused .noSuchItem))) ∧
      (∀ i, i ≤ 3 → exec (.readPlanItem (.override i)) s = .next (answered s
        (match c.overrides[i]? with
          | some o => .done (.planItem (.override o))
          | none => .refused .noSuchItem))) ∧
      (∀ n, n ≤ 7 → exec (.readPlanItem (.pattern n)) s =
        .next (answered s (.done (.planItem (.pattern ((c.patterns[n]?).join)))))))

/-- A PLAN frame taken from a peer: suppression, the serve bit, the fetch, and the fetch that it
completes, also of a peer that becomes present with it, after what its presence does
(PeersAreHeardAndBecomeAbsent) (03_the_day_plan.md 3.7 (R71, R73, R74, R75), 3.8 (R76), 02_the_campus_line.md 2.4
(R41), 2.5 (R46), 2.7 (R52)). -/
def Obligations.PlanFramesFillTheFetch : Prop :=
  ∀ (s : State) (p : StationNo) (payload : List Byte) (x : PlanFrame), Active s →
    p ≠ s.start.station → 6 ≤ payload.length → payload.length ≤ 48 → planFrameOf payload = some x →
    let u := handOver s p
    ∃ t, exec (.plan p payload) s = .next t ∧
      (∀ e ∈ t.line.queue, e.inFlight = false → ∀ n c, e.body ≠ .plan x.key x.index n c) ∧
      (∀ a, s.plan.active = some a → a.key = x.key → t.plan.serve.getLsbD x.index = false) ∧
      (∀ (f : Fetch) (h : x.index < 41), u.plan.staging = .fetching f → f.target = x.key →
        7 ≤ x.total → x.total ≤ 41 → x.index < x.total → (f.total = none ∨ f.total = some x.total) →
        f.frags[x.index] = none → allHeld (f.frags.set x.index (some x.content)) x.total = false →
        t.plan.staging = .fetching { f with
          total := some x.total
          requests := 0
          frags := f.frags.set x.index (some x.content)
          timer := u.time.localCount + 10000#32 }) ∧
      (∀ f : Fetch, u.plan.staging = .fetching f →
        (f.target ≠ x.key → t.plan.staging = .fetching f) ∧
        (f.target = x.key → (x.total < 7 ∨ 41 < x.total ∨ x.total ≤ x.index ∨
          (∃ n, f.total = some n ∧ n ≠ x.total)) → t.plan.staging = .fetching f) ∧
        (∀ h : x.index < 41, f.target = x.key → 7 ≤ x.total → x.total ≤ 41 → x.index < x.total →
          (f.total = none ∨ f.total = some x.total) → f.frags[x.index].isSome = true →
          t.plan.staging = .fetching { f with total := some x.total })) ∧
      (∀ (f : Fetch) (h : x.index < 41), u.plan.staging = .fetching f → f.target = x.key →
        7 ≤ x.total → x.total ≤ 41 → x.index < x.total → (f.total = none ∨ f.total = some x.total) →
        f.frags[x.index] = none → let staged := f.frags.set x.index (some x.content)
        allHeld staged x.total = true →
        (∀ l, validate staged.toList (some x.total) (some f.digest) = .ok l →
          let a : ActivePlan := ⟨f.target, planDigest l, l.length, l⟩
          t.plan.active = some a ∧ t.plan.serve = 0 ∧
          (t.plan.staging = .free ∨ ∃ g, t.plan.staging = .fetching g) ∧
          (u.store.state = .idle → t.store = ⟨.saving a false, false⟩) ∧
          (Taking u → Pending t
            (if u.plan.active.map (·.key.origin) = some u.start.station then .planSuperseded else .planAdopted))) ∧
        (∀ r, validate staged.toList (some x.total) (some f.digest) = .error r →
          t.plan.active = u.plan.active ∧ t.plan.unobtainable = some f.target ∧
          (t.plan.staging = .free ∨ ∃ g, t.plan.staging = .fetching g ∧ g.target ≠ f.target) ∧
          (Taking u → faultEnabled u.image (.receivedPlanInvalid r) = true →
            t.faults.banks[bankIndex .plan].valid = true ∧
            t.faults.banks[bankIndex .plan].uncorrected = true ∧
            (u.faults.banks[bankIndex .plan].valid = false → t.faults.banks[bankIndex .plan].code = 4 ∧
              t.faults.banks[bankIndex .plan].detail = some (.validation r)))))

/-- A PLANREQ taken from a peer, the serve cursor that it runs, and the end of the cursor's pause
(03_the_day_plan.md 3.7 (R74, R75), 02_the_campus_line.md 2.4 (R38, R40, R42)). -/
def Obligations.PlanRequestsAreServed : Prop :=
  (∀ (s : State) (p : StationNo) (payload : List Byte) (k : Key) (m : FragmentMask), Active s →
      p ≠ s.start.station → payload.length = 9 → planreqOf payload = some (k, m) →
      ∃ t, exec (.planreq p payload) s = .next t ∧ t.plan.active = s.plan.active ∧
        (∀ a, s.plan.active = some a → a.key = k → s.line.listenOnly = false → ∀ i, i < 48 →
          t.plan.serve.getLsbD i = (s.plan.serve.getLsbD i || (m.getLsbD i && decide (i < a.total)))) ∧
        (((∀ a, s.plan.active = some a → a.key ≠ k) ∨ s.line.listenOnly = true) → t.plan.serve = s.plan.serve) ∧
        (s.line.roster[p].present = true → Changes [.line, .time, .plan, .faults] s t ∧
          (((∀ a, s.plan.active = some a → a.key ≠ k) ∨ s.line.listenOnly = true) → t.plan = s.plan ∧
            t.line.queue = s.line.queue ∧ t.faults = s.faults) ∧
          (∀ a, s.plan.active = some a → a.key = k → s.line.listenOnly = false → ∃ u : State,
            u = (s.withLine u.line).withPlan { s.plan with serve := t.plan.serve } ∧
            u.line.queue = s.line.queue ∧ u.line.listenOnly = false ∧ CursorRan u t))) ∧
    (∀ s : State, Active s → (s.plan.pausedUntil = none → exec .servePause s = .next s) ∧
      (s.plan.pausedUntil.isSome = true → ∃ t, exec .servePause s = .next t ∧ t.plan.serve = s.plan.serve ∧
        CursorRan (s.withPlan { s.plan with pausedUntil := none }) t ∧ Changes [.plan, .line, .faults] s t))

/-- LOAD ABORT, LOAD_TIMER and NO_PROGRESS_TIMER; an expiry that has been overtaken does not occur (log
55, DEDUCED) (03_the_day_plan.md 3.5 (R65), 03_the_day_plan.md 3.7 (R69, R72),
09_fault_banks_and_notices.md (R178, R180)). -/
def Obligations.LoadAndFetchTimers : Prop :=
  ∀ s : State, Active s →
    (s.plan.staging = .free → exec .loadAbort s = .next (answered s (.refused .notLoading))) ∧
    (∀ f, s.plan.staging = .fetching f → exec .loadAbort s = .next (answered s .busy)) ∧
    (∀ f t0, s.plan.staging = .loading f t0 → ∃ t, exec .loadAbort s = .next t ∧
      t.port = (answered s (.done .nothing)).port ∧
      (fetchTarget s = none → ∃ late, t = answered (s.withPlan { s.plan with
        staging := .free
        overtaken := late }) (.done .nothing)) ∧
      (t.plan.staging = .free ∨ ∃ g, t.plan.staging = .fetching g)) ∧
    (∀ f t0, s.plan.staging = .loading f t0 →
      (s.plan.overtaken = false ∨ countReached s.time.localCount t0 = true) → ∃ u, exec .loadTimer s = .next u ∧
      (Taking s → Pending u .loadAbandoned ∧ (faultEnabled s.image (.loadAbandoned 0) = true →
        u.faults.banks[bankIndex .plan] = corrected s.faults.banks[bankIndex .plan] 1
          (some (.number (f.toList.filter (·.isSome)).length))
          (if s.time.quality = .unset then none else some s.time.campus))) ∧
      (fetchTarget s = none → u = (raise (report s (.loadAbandoned (heldCount f))) .loadAbandoned).withPlan
        { s.plan with
          staging := .free
          overtaken := false }) ∧
      (u.plan.staging = .free ∨ ∃ g, u.plan.staging = .fetching g)) ∧
    (∀ timer, (∃ f, s.plan.staging = .loading f timer) ∨ (∃ f, s.plan.staging = .fetching f ∧ f.timer = timer) →
      s.plan.overtaken = true → countReached s.time.localCount timer = false →
      let u := s.withPlan { s.plan with overtaken := false }
      ((∃ f, s.plan.staging = .loading f timer) → exec .loadTimer s = .next u) ∧
      ((∃ f, s.plan.staging = .fetching f) → exec .noProgressTimer s = .next u)) ∧
    (∀ f t0, s.plan.staging = .loading f t0 → countReached s.time.localCount t0 = true →
      ∀ (i : Nat) (content : List Byte), i ≤ 40 → sectionOf content ≠ none → ∃ t,
        exec (.loadFragment i content) s = .next t ∧ t.plan.overtaken = true ∧
        ∃ g, t.plan.staging = .loading g (s.time.localCount + 60000#32)) ∧
    (∀ f, s.plan.staging = .fetching f → f.requests < 6 → HasRoom s →
      (s.plan.overtaken = false ∨ countReached s.time.localCount f.timer = true) →
      ∃ t, exec .noProgressTimer s = .next t ∧ Queued t.line (.planreq f.target (missingMask f)) ∧
        t.plan = { s.plan with
          staging := .fetching { f with
            requests := f.requests + 1
            timer := s.time.localCount + 10000#32 }
          overtaken := false } ∧ Changes [.plan, .line] s t) ∧
    (∀ f, s.plan.staging = .fetching f → 6 ≤ f.requests →
      (s.plan.overtaken = false ∨ countReached s.time.localCount f.timer = true) →
      ∃ t, exec .noProgressTimer s = .next t ∧ t.plan.unobtainable = some f.target ∧
        (t.plan.staging = .free ∨ ∃ g, t.plan.staging = .fetching g ∧ g.target ≠ f.target) ∧
        (Taking s → faultEnabled s.image (.fetchFailed f.target.gen) = true →
          t.faults.banks[bankIndex .plan].uncorrected = true ∧
          (s.faults.banks[bankIndex .plan].valid = false → t.faults.banks[bankIndex .plan].code = 3 ∧
            t.faults.banks[bankIndex .plan].detail = some (.number f.target.gen.toNat))))

/-- The outputs: bells, clock drives, zone gates, bus selects, audio pair gate, NTC, and bus A as the
chime synth plays it (04_bells.md 4.1 (R77), 4.8 (R94), 05_room_clock_circuits.md (R96, R100, R108),
06_zones_and_the_zone_arbiter.md 6.4 (R125, R126, R127), 07_announcements_and_chimes.md 7.8 (R147, R148,
R149, R150), 09_fault_banks_and_notices.md 9.6 (R184), 11_start_up_power_fail_and_restart.md 11.8,
12_formats.md 12.6). The model's: a code frame counted in whole bit times of 16 µs (log 14, DEDUCED), and a start
bit of 0 and a stop bit of 1 on the drive pair of a coded circuit (log 74, PRESUMED). -/
def Obligations.OutputsFollowTheState : Prop :=
  ∀ s : State,
    (∀ c : BellNo, bellOutput s c = true ↔ alive s = true ∧ s.image.bells[c].kind = .relay ∧
      ((s.start.opState = .run ∧ ∃ i, s.bells.gens[c].state = .on i) ∨
        (working s = true ∧ s.bells.gens[c].state = .evac ∧ s.bells.evacPhase % 2 = 0))) ∧
    (∀ (c : ClockNo) (p : Polarity), impulseDrive s c = some p ↔ Running s ∧
      s.image.clocks[c].kind = .impulse ∧ s.clocks[c].impulse.cycle = .impulse ∧
      s.clocks[c].impulse.polarity = p) ∧
    (∀ (c : ClockNo) (b : Bool), let x := s.clocks[c].coded
      let n := 12 * x.frameTicks / 625
      codeDrive s c = some b ↔ Running s ∧ s.image.clocks[c].kind = .coded ∧ x.sending = true ∧
        ∃ byte, x.frame[n / 10]? = some byte ∧
          b = if n % 10 = 0 then false else if n % 10 = 9 then true else byte.getLsbD (n % 10 - 1)) ∧
    (∀ z : ZoneNo, zoneGate s z = true ↔ z.val < s.image.zoneCount ∧ alive s = true ∧
      ∃ h c, s.arb.res[zoneRes z].holder = some h ∧ claimIn s.arb h = some c ∧ c.sounding = true ∧
        (c.bus = .b ∨ c.status[synRes] = .holding) ∧
        (s.start.opState = .run ∨ (s.start.opState = .join ∧ h = drillSlot))) ∧
    (∀ z : ZoneNo, (zoneGate s z = false → busSelect s z = .a) ∧
      (∀ h c, zoneGate s z = true → s.arb.res[zoneRes z].holder = some h → claimIn s.arb h = some c →
        busSelect s z = c.bus)) ∧
    (pairGate s = true ↔ ∃ z, zoneGate s z = true ∧ busSelect s z = .b) ∧
    (ntc s = true ↔ s.start.powered = true ∧ s.start.opState ≠ .halt ∧
      ∃ k, Pending s k ∧ s.image.threshold ≤ noticeLevel s.image k) ∧
    (alive s = true → (tick s).synth =
      if 125 ≤ s.start.samplePhase + 32 then synthSample s.start.opState s.synth else s.synth) ∧
    busAHigh s.synth = s.synth.out + 4096 ∧
    (∀ a : Arbiter, let t := withArbiter s a
      let holder := a.res[synRes].holder.map fun k => (k, a.slots[k].number)
      let sounds := ∃ h c, a.res[synRes].holder = some h ∧ claimIn a h = some c ∧ c.sounding = true
      t.arb = a ∧ Changes [.arb, .synth] s t ∧ t.synth.playing = holder ∧ (t.synth.sounding = true ↔ sounds) ∧
      (holder ≠ s.synth.playing →
        (t.synth.repetition, t.synth.note, t.synth.sample, t.synth.phase1, t.synth.phase2) = (0, 0, 0, 0, 0) ∧
        t.synth.out = 0 ∧ t.synth.complete = false ∧ (holder = none → t.synth.program = none) ∧
        (∀ k c, a.res[synRes].holder = some k → claimIn a k = some c →
          (k = bellSlot 0 ∨ k = bellSlot 1 → t.synth.program = some .bellTone) ∧
          (k = drillSlot → t.synth.program = some (if c.level = .alarm then .evacuation else .allClear)) ∧
          (∀ (i : TablePos) (e : AnnEntry) (x : Chime) (n : Nat), k = annSlot i → s.ann.table[i] = some e →
            e.kind = .chime x n → t.synth.program = some (.chime x) ∧ t.synth.repeats = n))) ∧
      (holder = s.synth.playing → t.synth.program = s.synth.program ∧ t.synth.repeats = s.synth.repeats ∧
        t.synth.repetition = s.synth.repetition ∧ t.synth.complete = s.synth.complete ∧
        ((sounds ↔ s.synth.sounding = true) → t.synth = s.synth) ∧
        (s.synth.program ≠ some .bellTone → t.synth.note = s.synth.note ∧ t.synth.sample = s.synth.sample ∧
          t.synth.phase1 = s.synth.phase1 ∧ t.synth.phase2 = s.synth.phase2) ∧
        (s.synth.program = some .bellTone → sounds → s.synth.sounding = false →
          (t.synth.note, t.synth.sample, t.synth.phase1, t.synth.phase2) = (0, 0, 0, 0)))) ∧
    (∀ (op : OpState) (y : Synth) (p : SynthProgram) (n : Note), y.program = some p →
      (programNotes p)[y.note]? = some n →
      let audible := y.sounding = true ∧ y.complete = false ∧
        ∃ k q, y.playing = some (k, q) ∧ (op = .run ∨ (op = .join ∧ k = drillSlot))
      let u := synthSample op y
      let e : Int := (envelope n y.sample : Nat)
      let value := fun step phase : BitVec 16 => if step = 0 then 0 else (oscillator phase * e).tdiv 4096
      let begun := u.sample = 0 ∧ u.phase1 = 0 ∧ u.phase2 = 0 ∧ u.complete = false
      (¬ audible → u = { y with env1 := 0, env2 := 0, out := 0 }) ∧
      (audible → u.out = (value n.step1 y.phase1 + value n.step2 y.phase2).tdiv 2 ∧
        u.playing = y.playing ∧ u.sounding = true ∧ u.program = some p ∧ u.repeats = y.repeats ∧
        (n.length ≠ some (y.sample + 1) → u.sample = y.sample + 1 ∧ u.phase1 = y.phase1 + n.step1 ∧
          u.phase2 = y.phase2 + n.step2 ∧ u.note = y.note ∧ u.repetition = y.repetition ∧ u.complete = false) ∧
        (n.length = some (y.sample + 1) →
          (p = .allClear → u.complete = true) ∧
          (p = .evacuation → begun ∧ u.note = (y.note + 1) % 6 ∧ u.repetition = y.repetition) ∧
          (∀ c, p = .chime c → let last := (programNotes p).length - 1
            (y.note + 1 = last → y.repeats ≤ y.repetition + 1 → u.complete = true) ∧
            (y.note + 1 < last ∨ (y.note + 1 = last ∧ y.repetition + 1 < y.repeats) →
              begun ∧ u.note = y.note + 1 ∧ u.repetition = y.repetition) ∧
            (y.note = last → begun ∧ u.note = 0 ∧ u.repetition = y.repetition + 1))))) ∧
    (programNotes (.chime .chime2) = [⟨3211, 0, some 4800, some 9600, false⟩, ⟨2699, 0, some 7200, some 14400, false⟩,
        ⟨0, 0, none, some 8000, true⟩] ∧
      programNotes (.chime .chime3Up) = [⟨2142, 0, some 4000, some 8000, false⟩,
        ⟨2699, 0, some 4000, some 8000, false⟩, ⟨3211, 0, some 4000, some 8000, false⟩,
        ⟨0, 0, none, some 8000, true⟩] ∧
      programNotes (.chime .chime3Down) = [⟨3211, 0, some 4000, some 8000, false⟩,
        ⟨2699, 0, some 4000, some 8000, false⟩, ⟨2142, 0, some 4000, some 8000, false⟩,
        ⟨0, 0, none, some 8000, true⟩] ∧
      programNotes .bellTone = [⟨3604, 5407, some 6400, none, false⟩] ∧
      programNotes .allClear = [⟨2142, 2699, some 12800, some 32000, false⟩] ∧
      (programNotes .evacuation).map (fun n => (n.step1, n.decay, n.length, n.silent)) =
        [(4096, none, some 8000, false), (0, none, some 8000, true), (4096, none, some 8000, false),
          (0, none, some 8000, true), (4096, none, some 8000, false), (0, none, some 24000, true)]) ∧
    (∀ phase : BitVec 16, let q := phase.toNat / 16384
      let i := phase.toNat / 256 % 64
      let entry := fun j => (([
        50, 151, 251, 351, 451, 551, 651, 750, 848, 946, 1044, 1141, 1237, 1332, 1427, 1521,
        1613, 1705, 1796, 1886, 1975, 2062, 2148, 2233, 2317, 2399, 2480, 2559, 2636, 2713, 2787, 2860,
        2931, 3000, 3068, 3133, 3197, 3259, 3319, 3377, 3433, 3486, 3538, 3588, 3635, 3680, 3723, 3764,
        3802, 3838, 3872, 3904, 3933, 3960, 3984, 4006, 4026, 4043, 4058, 4070, 4080, 4087, 4092, 4095] :
          List Int)[j]?).getD 0
      oscillator phase = if q = 0 then entry i else if q = 1 then entry (63 - i) else if q = 2 then -entry i
        else -entry (63 - i)) ∧
    (∀ (n : Note) (k : Nat), (n.silent = true → envelope n k = 0) ∧ (n.silent = false →
      (k < 160 → envelope n k = 4096 * k / 160) ∧ (160 ≤ k → n.decay = none → envelope n k = 4096) ∧
      (∀ h, 160 ≤ k → n.decay = some h → 1 ≤ h → (envelope n k) ^ h * 2 ^ (k - 160) ≤ 4096 ^ h ∧
        4096 ^ h < (envelope n k + 1) ^ h * 2 ^ (k - 160))))

/-- A ring request for an existing circuit, by the state of its generator (R80). -/
def Obligations.ARingRequestIsTakenByItsGenerator : Prop :=
  ∀ (s : State) (c : BellNo) (r : RingRequest), bellExists s.image c = true →
    (s.bells.gens[c].state = .idle →
      (takeRequest s c r).bells.gens[c] = { s.bells.gens[c] with
        state := .on 0
        pulses := ringPulses s.plan r.pattern
        running := some r
        deadline := (ringPulses s.plan r.pattern).head?.map fun p =>
          s.time.localCount + BitVec.ofNat 32 (p.on * 100) }) ∧
    (s.bells.gens[c].state = .evac → takeRequest s c r = s) ∧
    (s.bells.gens[c].state ≠ .idle → s.bells.gens[c].state ≠ .evac →
      ((∃ q, (s.bells.gens[c].running = some q ∨ s.bells.gens[c].waiting = some q) ∧
          q = r ∧ ∃ k p i n, r.source = .scheduled k p i n) → takeRequest s c r = s) ∧
      ((¬ ∃ q, (s.bells.gens[c].running = some q ∨ s.bells.gens[c].waiting = some q) ∧
          q = r ∧ ∃ k p i n, r.source = .scheduled k p i n) →
        (takeRequest s c r).bells =
          { s.bells with gens := s.bells.gens.set c { s.bells.gens[c] with waiting := some r } } ∧
        (takeRequest s c r).faults =
          (if s.bells.gens[c].waiting.isSome then (report s (.ringMerged c)).faults else s.faults) ∧
        Changes [.bells, .faults] s (takeRequest s c r)))

/-- RING and BELL_BUTTON_PRESS: the ring requests that they make (04_bells.md 4.6 (R87, R88)). The
model's choice (log 31, DESIGN CHOICE): the row BELL_BUTTON_PRESS sets line, last sample and valid level
of BB at once. -/
def Obligations.RingAndTheBellButton : Prop :=
  (∀ (s : State) (m : CircuitMask) (n : Nat), Active s →
      (7 < n → exec (.ring m n) s = .next (answered s (.bad .argument))) ∧
      (n ≤ 7 → (s.start.opState = .join ∨ s.bells.drillFlag = true) →
        exec (.ring m n) s = .next (answered s .busy)) ∧
      (n ≤ 7 → s.start.opState = .run → s.bells.drillFlag = false →
        (patternQuery s.plan n = none → exec (.ring m n) s = .next (answered s (.refused .noSuchItem))) ∧
        (patternQuery s.plan n ≠ none → ∃ t, exec (.ring m n) s = .next t ∧
          t.port = (answered s (.done .nothing)).port ∧
          (∀ c : BellNo, t.bells.gens[c] =
            (if m.getLsbD c.val = true ∧ s.image.bells[c].kind ≠ .absent then
            (match s.bells.gens[c].state with
              | .idle => { s.bells.gens[c] with
                  state := .on 0
                  pulses := ringPulses s.plan n
                  running := some ⟨n, .panel⟩
                  deadline := (ringPulses s.plan n).head?.map fun p =>
                    s.time.localCount + BitVec.ofNat 32 (p.on * 100) }
              | .evac => s.bells.gens[c]
              | _ => { s.bells.gens[c] with waiting := some ⟨n, .panel⟩ })
          else s.bells.gens[c])) ∧
          Changes [.bells, .arb, .synth, .faults, .port] s t))) ∧
    (∀ s : State, alive s = true → s.start.opState ≠ .halt → ∃ t, exec .bellButtonPress s = .next t ∧
      t.pins = { s.pins with bb := ⟨true, some true, some true⟩ } ∧
      (s.start.opState = .run → s.bells.drillFlag = false → ∀ c : BellNo, t.bells.gens[c] =
            (if s.image.bells[c].button = true ∧ s.image.bells[c].kind ≠ .absent then
            (match s.bells.gens[c].state with
              | .idle => { s.bells.gens[c] with
                  state := .on 0
                  pulses := ringPulses s.plan 0
                  running := some ⟨0, .button⟩
                  deadline := (ringPulses s.plan 0).head?.map fun p =>
                    s.time.localCount + BitVec.ofNat 32 (p.on * 100) }
              | .evac => s.bells.gens[c]
              | _ => { s.bells.gens[c] with waiting := some ⟨0, .button⟩ })
          else s.bells.gens[c])) ∧
      ((s.start.opState ≠ .run ∨ s.bells.drillFlag = true) → t.bells = s.bells) ∧
      Changes [.pins, .bells, .arb, .synth, .faults] s t)

/-- PULSE_ON_END, PULSE_OFF_END and REST_END of a pulse generator, with the sounding and the end of the bell
claims (04_bells.md 4.2 (R79, R80, R81), 4.7 (R89, R90, R92), 06_zones_and_the_zone_arbiter.md 6.3 (R121),
6.4 (R124)). That a claim holds SYN is read from the slot's view `known`, to which notices still under way
have not come: log 8 (DEDUCED). A further ring is carried as any ring is, also where its campus second is
that of its old slot again: log 62 (DESIGN CHOICE). -/
def Obligations.PulsesOfARing : Prop :=
  ∀ (s : State) (c : BellNo), Active s →
    (∀ i, s.bells.gens[c].state = .on i → ∃ t, exec (.pulseOnEnd c) s = .next t ∧
      t.bells = { s.bells with gens := s.bells.gens.set c { s.bells.gens[c] with
        state := .off i
        deadline := (s.bells.gens[c].pulses[i]?).map fun p =>
          s.time.localCount + BitVec.ofNat 32 (p.off * 100) } } ∧
      t.arb.res = s.arb.res ∧ t.arb.notices = s.arb.notices ∧ BellsSounding t ∧
      Changes [.bells, .arb, .synth] s t) ∧
    (∀ i, s.bells.gens[c].state = .off i → ∃ t, exec (.pulseOffEnd c) s = .next t ∧
      (∀ p, s.bells.gens[c].pulses[i + 1]? = some p → t.bells = { s.bells with
          gens := s.bells.gens.set c { s.bells.gens[c] with
            state := .on (i + 1)
            deadline := some (s.time.localCount + BitVec.ofNat 32 (p.on * 100)) } } ∧
        t.arb.res = s.arb.res ∧ t.arb.notices = s.arb.notices ∧ BellsSounding t) ∧
      (s.bells.gens[c].pulses[i + 1]? = none →
        let ends := fun k : BellSlotNo => ∃ x, s.bells.slots[k] = some x ∧ c ∈ x.members ∧ ∀ d ∈ x.members, d = c
        t.bells = { s.bells with
          slots := t.bells.slots
          gens := s.bells.gens.set c { s.bells.gens[c] with
            state := .rest
            deadline := some (s.time.localCount + 1000#32) } } ∧
        (∀ k : BellSlotNo, s.bells.slots[k] = none → t.bells.slots[k] = none) ∧
        (∀ (k : BellSlotNo) x, s.bells.slots[k] = some x → ¬ ends k →
          t.bells.slots[k] = some { x with members := x.members.filter fun d => decide (d ≠ c) }) ∧
        (∀ k, ends k → t.bells.slots[k] = none ∧ claimIn t.arb (bellSlot k) = none ∧
          ((∀ j, ends j → j = k) → t.arb = withdrawWhole s.arb (bellSlot k))) ∧
        ((∀ k, ¬ ends k) → t.arb = s.arb)) ∧
      Changes [.bells, .arb, .synth] s t) ∧
    (s.bells.gens[c].state = .rest →
      let u := s.withBells { s.bells with gens := s.bells.gens.set c Generator.initial }
      ∃ t, exec (.restEnd c) s = .next t ∧
      ((s.bells.gens[c].waiting = none ∨ s.bells.drillFlag = true) → t = u) ∧
      (∀ r, s.bells.gens[c].waiting = some r → s.bells.drillFlag = false →
        t.bells.gens = s.bells.gens.set c ⟨.on 0, ringPulses s.plan r.pattern, some r, none,
          (ringPulses s.plan r.pattern).head?.map fun p =>
            s.time.localCount + BitVec.ofNat 32 (p.on * 100)⟩ ∧
        (s.image.bells[c].kind ≠ .absent → t = takeRequest u c r)) ∧
      Changes [.bells, .arb, .synth, .faults] s t)

/-- SUPPRESS_ORDER, EVACUATION_ORDER, STOP_ORDER, RESUME_ORDER and EVAC_PATTERN (04_bells.md 4.8 (R93,
R94, R95)). -/
def Obligations.DrillOrdersToTheBells : Prop :=
  ∀ s : State, Active s →
    (∃ t, exec .suppressOrder s = .next t ∧ t.bells.drillFlag = true ∧
      (∀ c : BellNo, t.bells.gens[c] = { s.bells.gens[c] with waiting := none }) ∧
      t = s.withBells { s.bells with gens := t.bells.gens, drillFlag := true }) ∧
    exec .resumeOrder s = .next (s.withBells { s.bells with drillFlag := false }) ∧
    (∃ t, exec .evacuationOrder s = .next t ∧
      (∀ c : BellNo, t.bells.gens[c] =
        if s.image.bells[c].kind = .relay ∧ s.image.bells[c].alarmCapable = true
          then ⟨.evac, [], none, none, none⟩ else ⟨.idle, [], none, none, none⟩) ∧
      (∀ k : BellSlotNo, t.bells.slots[k] = none) ∧
      (∀ k : BellSlotNo, s.bells.slots[k] ≠ none → claimIn t.arb (bellSlot k) = none) ∧
      t.bells.evacPhase = 0 ∧
      ((∃ c : BellNo, s.image.bells[c].kind = .relay ∧ s.image.bells[c].alarmCapable = true) →
        t.bells.evacDeadline = some (s.time.localCount + 500#32)) ∧
      t.bells.drillFlag = s.bells.drillFlag ∧ t.bells.hwm = s.bells.hwm ∧
      Changes [.bells, .arb, .synth] s t) ∧
    (∃ t, exec .stopOrder s = .next t ∧
      (∀ c : BellNo, t.bells.gens[c] =
        if s.bells.gens[c].state = .evac then ⟨.idle, [], none, none, none⟩ else s.bells.gens[c]) ∧
      t = s.withBells { s.bells with gens := t.bells.gens, evacPhase := 0, evacDeadline := none }) ∧
    ((∃ c : BellNo, s.bells.gens[c].state = .evac) →
      exec .evacPattern s = .next (s.withBells { s.bells with
        evacPhase := (s.bells.evacPhase + 1) % 6
        evacDeadline := some (s.time.localCount +
          if (s.bells.evacPhase + 1) % 6 = 5 then 1500#32 else 500#32) }))

/-- The four checks of a scheduled entry that fires (04_bells.md 4.3 (R84), 03_the_day_plan.md 3.1 (R53,
R55), 3.2 (R57)). -/
def Obligations.AScheduledEntryFires : Prop :=
  (∀ (s : State) (e : Scheduled), let b := e.entry
    let k := effectiveKind s.plan ⟨⟨e.day, b.second * 1000⟩, true⟩
    (b.buildings.getLsbD s.start.station.val = false → fireEntry s e = s) ∧
    (b.buildings.getLsbD s.start.station.val = true →
      (s.bells.drillFlag = true → fireEntry s e =
        s.withBells { s.bells with drillCount := min 65535 (s.bells.drillCount + 1) }) ∧
      (s.bells.drillFlag = false → (k = .quiet ∨ k = .closed) → b.always = false → fireEntry s e =
        s.withBells { s.bells with quietCount := min 65535 (s.bells.quietCount + 1) }) ∧
      (s.bells.drillFlag = false → ¬ ((k = .quiet ∨ k = .closed) ∧ b.always = false) →
        ∀ a, s.plan.active = some a → fireEntry s e =
          ((List.finRange 6).filter fun c => b.circuits.getLsbD c.val).foldl
            (fun s c => takeRequest s c ⟨b.pattern,
              .scheduled a.key e.program e.index (e.day.toNat * 86400 + b.second)⟩) s))) ∧
    ∀ (p : PlanUnit) (r : Reading), ((r.valid = false ∨ p.active = none) → effectiveKind p r = .teaching) ∧
      ∀ (a : ActivePlan) (c : PlanContent), r.valid = true → p.active = some a → contentOf a.frags = some c →
        let minute := r.time.ms / 60000
        let abs := r.time.day.toNat * 1440 + minute
        (∀ k, HighestOf c.overrides abs k → effectiveKind p r = k) ∧
        ((∀ o ∈ c.overrides, ¬ Covers o abs) → ∀ n, DayProgram c r.time.day.toNat n →
          (n = 4 → effectiveKind p r = .closed) ∧
          ∀ q, c.programs[n]? = some q →
            (∀ k, HighestOf q.ranges minute k → effectiveKind p r = k) ∧
            ((∀ o ∈ q.ranges, ¬ Covers o minute) → ∀ k, q.default = periodCode k → effectiveKind p r = k))

/-- A second boundary with a valid reading at a station in RUN (04_bells.md 4.3 (R82, R83)). -/
def Obligations.TheSchedulerFiresOnceForEachSecond : Prop :=
  ∀ (s : State) (r : Reading), Running s → s.time.secondDue = some r → r.time.ms < 86400000 →
    let taken := s.withTime { s.time with secondDue := none }
    let s1 := taken.withBells (takeDay s.bells s.plan r.time.day)
    let n := r.time.day.toNat * 86400 + r.time.ms / 1000
    (r.valid = false → exec .secondBoundary s = .next taken) ∧
    (r.valid = true →
      s1.bells.dayOfProgram = some r.time.day ∧
      (s.bells.dayOfProgram = some r.time.day → s1 = taken) ∧
      (s.bells.dayOfProgram ≠ some r.time.day → s1.bells.today = programQuery s.plan r.time.day ∧
        s1.bells.drillCount = 0 ∧ s1.bells.quietCount = 0) ∧
      (s.bells.hwm = none → exec .secondBoundary s = .next s1) ∧
      (∀ h, s.bells.hwm = some h →
        (secondLater n h = false → exec .secondBoundary s = .next s1) ∧
        (secondLater n h = true → let es := entriesBetween s1.bells s.plan h n
          let t := es.foldl fireEntry s1
          exec .secondBoundary s = .next (t.withBells { t.bells with hwm := some n }) ∧
          (∀ e ∈ es, secondLater (scheduledSecond e) h = true ∧ secondLater (scheduledSecond e) n = false ∧
            e ∈ dayEntries s1.bells s.plan e.day) ∧
          let d := BitVec.ofNat 16 (h / 86400)
          let fires := fun e => secondLater (scheduledSecond e) h && !secondLater (scheduledSecond e) n
          (r.time.day = d → es = (dayEntries s1.bells s.plan d).filter fires) ∧
          (r.time.day = d + 1 → es = (dayEntries s1.bells s.plan d).filter fires ++
            (dayEntries s1.bells s.plan r.time.day).filter fires) ∧
          (∀ k, k < 65536 → r.time.day = d + BitVec.ofNat 16 k → es = (List.range (k + 1)).flatMap fun j =>
            (dayEntries s1.bells s.plan (d + BitVec.ofNat 16 j)).filter fires))) ∧
      (∀ (b : BellUnit) (d : BitVec 16), dayEntries b s.plan d =
        match (if b.dayOfProgram = some d then b.today else programQuery s.plan d) with
        | none => []
        | some t => t.entries.zipIdx.map fun (e, i) => ⟨d, t.program, i, e⟩))

/-- A step of campus time and the scheduler: back, up to 120 s forward, and further; SET TIME makes such
a step (04_bells.md 4.4 (R85, R86), 01_campus_time.md 1.5 (R17), 1.8 (R24)). That the Bell Unit takes the
notice of a step before the Announcement Unit, with the arbiter as it stood (u.arb = s.arb), is the
model's: log 13 (DESIGN CHOICE), since R17 names the units without an order. -/
def Obligations.StepsOfTimeAndTheScheduler : Prop :=
  (∀ (s : State) (old new : CampusTime), (inRun s = false ∨ s.bells.hwm = none) → bellStep s old new = s) ∧
    (∀ (s : State) (old new : CampusTime) (h : Nat), s.bells.hwm = some h → inRun s = true →
      let n := new.day.toNat * 86400 + new.ms / 1000
      let s1 := s.withBells (takeDay s.bells s.plan new.day)
      let es := entriesBetween s1.bells s.plan h n
      s1.bells.dayOfProgram = some new.day ∧ s1.bells.gens = s.bells.gens ∧ s1.bells.hwm = some h ∧
      (s.bells.dayOfProgram = some new.day → s1 = s) ∧
      (s.bells.dayOfProgram ≠ some new.day → s1.bells.today = programQuery s.plan new.day ∧
        s1.bells.drillCount = 0 ∧ s1.bells.quietCount = 0) ∧
      (campusDiff new old ≤ 0 ∨ secondLater n h = false → bellStep s old new = s1) ∧
      (0 < campusDiff new old → secondLater n h = true →
        (campusDiff new old ≤ 120000 → bellStep s old new =
          (es.foldl fireEntry s1).withBells { (es.foldl fireEntry s1).bells with hwm := some n }) ∧
        (120000 < campusDiff new old →
          let c := min 65535 (es.filter fun e => e.entry.buildings.getLsbD s.start.station.val).length
          let s2 := s1.withBells { s1.bells with hwm := some n }
          bellStep s old new = if c = 0 then s2 else report s2 (.bellsSkipped c)))) ∧
    (∀ (s : State) (c : Int), c ≠ 0 → ∃ u : State, u.bells = s.bells ∧ u.plan = s.plan ∧ u.arb = s.arb ∧
      u.start = s.start ∧ u.image = s.image ∧ u.time.campus = campusAdd s.time.campus c ∧
      u.time.localCount = s.time.localCount ∧
      (stepBy s c).bells = (bellStep u s.time.campus (campusAdd s.time.campus c)).bells) ∧
    (∀ (s : State) (t : CampusTime), Active s → TimeOk s.time → t.ms ≤ 86399999 → s.time.quality ≠ .unset →
      t ≠ s.time.campus → ∃ u v : State, u.bells = s.bells ∧ u.plan = s.plan ∧ u.arb = s.arb ∧
        u.start = s.start ∧ u.image = s.image ∧ u.time.campus = t ∧ u.time.localCount = s.time.localCount ∧
        exec (.setTime t) s = .next v ∧ v.bells = (bellStep u s.time.campus t).bells)

/-- The bell claim of a starting ring; BELL_CLAIM_NOTICE, ANNOUNCE_CLAIM_NOTICE and DRILL_CLAIM_NOTICE:
the notice taken, or dropped (04_bells.md 4.7 (R89, R90, R91), 06_zones_and_the_zone_arbiter.md 6.3
(R121, R123), 6.4 (R124), 08_fire_drills_and_alarms.md 8.8 (R168)). What a claim still holds or waits for,
and so whether its slot goes on and sounds, is read from the owner's view `known`, to which notices still
under way have not come: log 8 (DEDUCED). That every ring joins a slot in use of its pattern and campus
second, a further ring that meets its old second again included, is log 62 (DESIGN CHOICE). -/
def Obligations.TakenNoticesOfTheArbiter : Prop :=
  (∀ (s : State) (c : BellNo) (r : RingRequest), s.image.bells[c].kind = .tone →
      s.bells.gens[c].state = .idle → let z := s.image.bells[c].zone
      let t := takeRequest s c r
      let second := s.time.campus.day.toNat * 86400 + s.time.campus.ms / 1000
      let carries := fun x : BellSlot => x.pattern = r.pattern ∧ x.second = second
      t.bells.gens[c].state = .on 0 ∧ Changes [.bells, .arb, .synth, .faults] s t ∧
      (s.image.zoneCount ≤ z.val → t.bells.slots = s.bells.slots ∧ t.arb = s.arb ∧ t.faults = s.faults) ∧
      (z.val < s.image.zoneCount →
        BellsSounding t ∧
        (∀ (k : BellSlotNo) (x : BellSlot), s.bells.slots[k] = some x → carries x →
          (∀ j y, j < k → s.bells.slots[j] = some y → ¬ carries y) → t.faults = s.faults ∧
          (z ∈ x.zones → t.arb.res = s.arb.res ∧ t.arb.notices = s.arb.notices ∧
            t.bells.slots = s.bells.slots.set k (some { x with members := x.members ++ [c] })) ∧
          (z ∉ x.zones → let a := request s.arb (bellSlot k) (zoneRes z)
            let known := x.known.set (zoneRes z) (knownFrom a (bellSlot k))[zoneRes z]
            (knowsZone known = true ∧ knowsSyn known = true → t.arb.res = a.res ∧ t.arb.notices = a.notices ∧
              t.bells.slots = s.bells.slots.set k (some { x with
                members := x.members ++ [c]
                zones := x.zones ++ [z]
                known := known })) ∧
            (¬ (knowsZone known = true ∧ knowsSyn known = true) →
              t.bells.slots = s.bells.slots.set k none ∧ claimIn t.arb (bellSlot k) = none))) ∧
        ((∀ (k : BellSlotNo) (x : BellSlot), s.bells.slots[k] = some x → ¬ carries x) →
          (∀ k : BellSlotNo, s.bells.slots[k] = none → (∀ j, j < k → s.bells.slots[j] ≠ none) →
            let a := makeClaim s.arb s.time.localCount (bellSlot k) .bell .a
              fun q => decide (q = zoneRes z) || decide (q = synRes)
            let known := knownFrom a (bellSlot k)
            t.faults = s.faults ∧
            (knowsZone known = true ∧ knowsSyn known = true → t.arb.res = a.res ∧ t.arb.notices = a.notices ∧
              t.bells.slots = s.bells.slots.set k
                (some ⟨r.pattern, second, [c], [z], a.slots[bellSlot k].number, known⟩)) ∧
            (¬ (knowsZone known = true ∧ knowsSyn known = true) →
              t.bells.slots = s.bells.slots ∧ claimIn t.arb (bellSlot k) = none)) ∧
          ((∀ k : BellSlotNo, s.bells.slots[k] ≠ none) → t.bells.slots = s.bells.slots ∧
            t.arb.res = s.arb.res ∧ t.arb.notices = s.arb.notices ∧
            t.faults = (report s (.toneRingLost c)).faults)))) ∧
    ∀ s : State, Active s →
    (∀ k : BellSlotNo,
      (firstNotice s.arb (bellSlot k) = none → exec (.bellClaimNotice k) s = .next s) ∧
      (∀ n, firstNotice s.arb (bellSlot k) = some n →
        (noticeLive s.arb n = false →
          exec (.bellClaimNotice k) s = .next (s.withArb (dropNotice s.arb (bellSlot k)))) ∧
        (s.bells.slots[k] = none →
          exec (.bellClaimNotice k) s = .next (s.withArb (dropNotice s.arb (bellSlot k)))) ∧
        (∀ x, noticeLive s.arb n = true → s.bells.slots[k] = some x →
          ∃ t, exec (.bellClaimNotice k) s = .next t ∧ Changes [.bells, .arb, .synth] s t ∧
            t.synth = (withArbiter s t.arb).synth ∧
            let known := x.known.set n.res (if n.kind = .granted then
              (if x.known[n.res] = .waits then .holds else x.known[n.res]) else .nothing)
            let y := { x with known := known }
            (knowsZone known = true ∧ knowsSyn known = true →
              t.bells = { s.bells with slots := s.bells.slots.set k (some y) } ∧
              (∃ b, (b = true ↔ BellPlays s y) ∧
                t.arb = reportSounding (dropNotice s.arb (bellSlot k)) (bellSlot k) x.claimNo b) ∧
              BellSounding t k ∧ (BellsSounding s → BellsSounding t)) ∧
            (¬ (knowsZone known = true ∧ knowsSyn known = true) →
              t.bells = { s.bells with slots := s.bells.slots.set k none } ∧
              t.arb = withdrawWhole (dropNotice s.arb (bellSlot k)) (bellSlot k) ∧
              claimIn t.arb (bellSlot k) = none)))) ∧
    (∀ i : TablePos,
      (firstNotice s.arb (annSlot i) = none → exec (.announceClaimNotice i) s = .next s) ∧
      (∀ n, firstNotice s.arb (annSlot i) = some n → noticeLive s.arb n = false →
        exec (.announceClaimNotice i) s = .next (s.withArb (dropNotice s.arb (annSlot i))))) ∧
    (firstNotice s.arb drillSlot = none → exec .drillClaimNotice s = .next s) ∧
    (∀ n, firstNotice s.arb drillSlot = some n →
      ((noticeLive s.arb n = false ∨ n.res ≠ synRes ∨ n.kind = .granted ∨ allClearHeld s.arb = false) →
        exec .drillClaimNotice s = .next (s.withArb (dropNotice s.arb drillSlot))) ∧
      (noticeLive s.arb n = true → n.res = synRes → n.kind ≠ .granted → allClearHeld s.arb = true →
        ∃ t, exec .drillClaimNotice s = .next t ∧
          t.arb = withdrawWhole (dropNotice s.arb drillSlot) drillSlot ∧ claimIn t.arb drillSlot = none ∧
          t.synth = (withArbiter s t.arb).synth ∧ Changes [.arb, .synth] s t))

/-- An evaluation of an IMPULSE circuit (R98). -/
def Obligations.AnEvaluationSetsTheClockState : Prop :=
  ∀ (s : State) (c : ClockNo) (t : Reading), s.image.clocks[c].kind = .impulse →
    s.image.clocks[c].holdLimit ≤ 120 →
    let r := s.clocks[c].impulse
    let x := (evaluate s c t).clocks[c].impulse
    (r.state = .faulted → x = r) ∧
    (r.state ≠ .faulted → (t.valid = false ∨ r.position = none) → x = { r with state := .stopped }) ∧
    (∀ p d, r.state ≠ .faulted → t.valid = true → r.position = some p → p < 720 → d < 720 →
      (p + d) % 720 = (t.time.ms / 60000) % 720 →
      let h := s.image.clocks[c].holdLimit
      let st : ClockState := if d ≤ 1 then .running else if d + h ≤ 719 then .advancing else .holding
      ((d = 1 ∨ st = .advancing) → r.cycle = .none → s.start.opState = .run →
        x = { r with
          state := st
          cycle := .impulse
          midpoint := none
          midAt := some (s.time.localCount + BitVec.ofNat 32 (s.image.clocks[c].impulseLength / 2))
          deadline := some (s.time.localCount + BitVec.ofNat 32 s.image.clocks[c].impulseLength) }) ∧
      (¬ ((d = 1 ∨ st = .advancing) ∧ r.cycle = .none ∧ s.start.opState = .run) →
        x = { r with state := st })) ∧
    (∀ e : ClockNo, e ≠ c → (evaluate s c t).clocks[e] = s.clocks[e]) ∧ Changes [.clocks] s (evaluate s c t)

/-- IMPULSE_MIDPOINT, IMPULSE_END, IMPULSE_REST_END and CODE_FRAME_END (05_room_clock_circuits.md 5.3
(R100, R101, R102), 5.5 (R108, R109, R110), 12_formats.md 12.6). -/
def Obligations.TheImpulseCycleAndTheCodeFrame : Prop :=
  (∀ (s : State) (c : ClockNo), Active s → (∀ d : ClockNo, ∀ t, (∃ r, exec (.impulseMidpoint c r) s = .next t) ∨
      exec (.impulseEnd c) s = .next t ∨ exec (.impulseRestEnd c) s = .next t ∨
      exec (.codeFrameEnd c) s = .next t → (d ≠ c → t.clocks[d] = s.clocks[d]) ∧
      Changes [.clocks, .faults] s t) ∧
    let r := s.clocks[c].impulse
    let rest := fun q : ImpulseRecord => { q with
      cycle := .rest
      midpoint := none
      midAt := none
      deadline := some (s.time.localCount + BitVec.ofNat 32 s.image.clocks[c].impulseLength) }
    let failed := fun (res : SenseResult) (t : State) =>
      (r.failCount + 1 < 3 → t.clocks[c].impulse = rest { r with failCount := r.failCount + 1 } ∧
        t.faults = (report s (.clockImpulseFailed c res)).faults) ∧
      (3 ≤ r.failCount + 1 → t.clocks[c].impulse = { r with
          failCount := r.failCount + 1
          state := .faulted
          cycle := .none
          midpoint := none
          midAt := none
          deadline := none } ∧
        t.faults = (raise (report (report s (.clockImpulseFailed c res)) (.clockCircuitFaulted c))
          .clockAttention).faults)
    (s.image.clocks[c].kind = .impulse → r.cycle = .impulse → r.midpoint = none →
      (∀ res, res ≠ .short → ∃ t, exec (.impulseMidpoint c res) s = .next t ∧ t.faults = s.faults ∧
        t.clocks[c].impulse = { r with midpoint := some res, midAt := none }) ∧
      (∃ t, exec (.impulseMidpoint c .short) s = .next t ∧ failed .short t)) ∧
    (s.image.clocks[c].kind = .impulse → r.cycle = .impulse →
      (r.midpoint = some .delivered → ∃ t, exec (.impulseEnd c) s = .next t ∧ t.faults = s.faults ∧
        t.clocks[c].impulse = rest { r with
          position := r.position.map fun p => (p + 1) % 720
          polarity := reversed r.polarity
          failCount := 0 }) ∧
      (∀ res, r.midpoint = some res → res ≠ .delivered → ∃ t, exec (.impulseEnd c) s = .next t ∧ failed res t)) ∧
    (s.image.clocks[c].kind = .impulse → r.cycle = .rest → ∃ t, exec (.impulseRestEnd c) s = .next t ∧
      t.faults = s.faults ∧ t.clocks[c].impulse = evaluated
        { r with cycle := .none, midpoint := none, midAt := none, deadline := none } s.image.clocks[c]
        s.time.localCount (inRun s) (currentReading s)) ∧
    (s.image.clocks[c].kind = .coded → s.clocks[c].coded.sending = true →
      ∃ t, exec (.codeFrameEnd c) s = .next t ∧ t.faults = s.faults ∧
        ((s.clocks[c].coded.resend = false ∨ s.start.opState = .join) → t.clocks[c].coded =
          { s.clocks[c].coded with sending := false, resend := false, frame := [], frameTicks := 0 }) ∧
        (s.clocks[c].coded.resend = true → s.start.opState = .run → t.clocks[c].coded = {
          sending := true
          resend := false
          lastStatus := some (codeStatus s (currentReading s))
          frame := codeFrameBytes (currentReading s) (codeStatus s (currentReading s)) s.start.station
          frameTicks := 0 }))) ∧
    (∀ (r : Reading) (status : CodeStatus) (n : StationNo), ∃ check : Byte,
      codeFrameBytes r status n = [0x3A] ++ (if r.valid = true then [1, BitVec.ofNat 8 (r.time.ms / 3600000),
          BitVec.ofNat 8 (r.time.ms / 60000 % 60), BitVec.ofNat 8 (r.time.day.toNat % 7)]
        else [0, 0xFF, 0xFF, 0xFF]) ++ [match status with
          | .normal => 0
          | .quiet => 1
          | .closed => 2
          | .timeUnsure => 3
          | .drill => 4
          | .alarm => 5, BitVec.ofNat 8 n.val, check] ∧
      ((codeFrameBytes r status n).map BitVec.toNat).sum % 256 = 0) ∧
    ∀ (s : State) (r : Reading), (s.drill.state ≠ .idle → s.drill.record ≠ none) → codeStatus s r =
      if s.drill.state ≠ .idle ∧ s.drill.record.map (·.kind) = some .real then .alarm
      else if s.drill.state ≠ .idle then .drill
      else if s.time.quality = .unset ∨ s.time.quality = .isolated then .timeUnsure
      else if effectiveKind s.plan r = .closed then .closed
      else if effectiveKind s.plan r = .quiet then .quiet
      else .normal

/-- READ CLOCK CIRCUIT, DIAL SET and CLOCK CLEAR (R104, R105, R106). -/
def Obligations.ClockCommands : Prop :=
  ∀ (s : State) (n : Nat) (position : Option Nat) (polarity : Polarity), Active s →
    let small := ∀ p, position = some p → p ≤ 719
    (3 < n → exec (.readClockCircuit n) s = .next (answered s (.bad .argument)) ∧
      exec (.clockClear n) s = .next (answered s (.bad .argument))) ∧
    (3 < n ∨ ¬ small → exec (.dialSet n position polarity) s = .next (answered s (.bad .argument))) ∧
    (∀ h : n < 4, let c : ClockNo := ⟨n, h⟩
      let r := s.clocks[c].impulse
      let eval := fun x : ImpulseRecord =>
        evaluated x s.image.clocks[c] s.time.localCount (inRun s) (currentReading s)
      exec (.readClockCircuit n) s = .next (answered s (.done (.clock (match s.image.clocks[c].kind with
        | .absent => .absent
        | .impulse => .impulse r s.image.clocks[c].impulseLength s.image.clocks[c].holdLimit
        | .coded => .coded s.clocks[c].coded)))) ∧
      (s.image.clocks[c].kind ≠ .impulse →
        exec (.clockClear n) s = .next (answered s (.refused .noSuchItem)) ∧
        (small → exec (.dialSet n position polarity) s = .next (answered s (.refused .noSuchItem)))) ∧
      (s.image.clocks[c].kind = .impulse →
        (small → r.cycle = .impulse → exec (.dialSet n position polarity) s = .next (answered s .busy)) ∧
        (small → r.cycle ≠ .impulse → exec (.dialSet n position polarity) s = .next (answered
          (setImpulse s c (eval { r with position := position, polarity := polarity })) (.done .nothing))) ∧
        exec (.clockClear n) s = .next (answered (setImpulse s c (eval { r with
          failCount := 0
          state := if r.state = .faulted then .stopped else r.state })) (.done .nothing))))

/-- What the Zone Arbiter does with a claim that is made, a request, a release, a withdrawal whole and a
WAIT_DEADLINE (06_zones_and_the_zone_arbiter.md 6.1 (R115, R116), 6.2 (R117, R118, R119), 6.3 (R120, R121, R122,
R123)). A wait deadline counts as passed, for a later request of its claim, once its row WAIT_DEADLINE has been taken (the field
`passed`), and not by the count: the model's reading, log 42 (DEDUCED). -/
def Obligations.RequestsReleasesAndWaitDeadlines : Prop :=
  (∀ (a : Arbiter) (now : Count) (slot : SlotNo) (level : ClaimLevel) (bus : Bus) (want : ResNo → Bool),
    let m := makeClaim a now slot level bus want
    let base := if (claimIn a slot).isSome = true then withdrawWhole a slot else a
    let deadline : Option Count := match level with
      | .alarm => none
      | .urgent => some (now + 10000#32)
      | .bell => some (now + 5000#32)
      | .normal => some (now + 60000#32)
    let fresh : Claim := ⟨level, bus, Vector.replicate 9 .notAsked, deadline, false, false⟩
    let opened := { base with slots := base.slots.set slot ⟨a.slots[slot].number + 1, some fresh⟩ }
    m = (([0, 1, 2, 3, 4, 5, 6, 7, 8] : List ResNo).filter want).foldl (fun b q => request b slot q) opened ∧
      m.slots[slot].number = a.slots[slot].number + 1 ∧
      ∃ c, claimIn m slot = some c ∧ c.level = level ∧ c.bus = bus ∧ c.deadline = deadline ∧ c.passed = false ∧
        c.sounding = false ∧ (∀ q, want q = true → c.status[q] ≠ .notAsked) ∧
        (∀ q, want q = false → c.status[q] = .notAsked ∧ m.res[q] = base.res[q])) ∧
  (∀ (a : Arbiter) (slot : SlotNo),
    let b := ([0, 1, 2, 3, 4, 5, 6, 7, 8] : List ResNo).foldl (fun b q => withdrawFrom b slot q) a
    withdrawWhole a slot = { b with slots := b.slots.set slot ⟨a.slots[slot].number, none⟩ }) ∧
  ∀ (a : Arbiter) (slot : SlotNo) (r : ResNo) (c : Claim), ArbOk a → claimIn a slot = some c →
    (c.status[r] = .holding ∨ c.status[r] = .waiting → request a slot r = a) ∧
    (c.status[r] ≠ .holding → c.status[r] ≠ .waiting →
      (∀ q, q ≠ r → (request a slot r).res[q] = a.res[q]) ∧
      (a.res[r].holder = none → (request a slot r).res[r] = ⟨some slot, []⟩ ∧
        statusOf (request a slot r) slot r = .holding ∧ (request a slot r).notices = a.notices) ∧
      (∀ h, a.res[r].holder = some h →
        (c.passed = true → (request a slot r).res = a.res ∧
          statusOf (request a slot r) slot r = .lost .expired ∧ (request a slot r).notices = a.notices) ∧
        (c.passed = false → c.level = .alarm ∨ c.level = .urgent → slotRank a slot < slotRank a h →
          (request a slot r).res[r] = ⟨some slot, a.res[r].waiting⟩ ∧
          statusOf (request a slot r) slot r = .holding ∧
          statusOf (request a slot r) h r = .lost .preempted ∧
          (request a slot r).notices = a.notices ++ [⟨h, a.slots[h].number, r, .preempted⟩]) ∧
        (c.passed = false → ¬ ((c.level = .alarm ∨ c.level = .urgent) ∧ slotRank a slot < slotRank a h) →
          (request a slot r).res[r].holder = some h ∧
          (a.res[r].waiting.length < 4 → ∃ pre post, a.res[r].waiting = pre ++ post ∧
            (request a slot r).res[r].waiting = pre ++ slot :: post ∧
            (∀ w ∈ pre, slotRank a w ≤ slotRank a slot) ∧ (∀ w ∈ post, slotRank a slot < slotRank a w) ∧
            statusOf (request a slot r) slot r = .waiting ∧ (request a slot r).notices = a.notices) ∧
          (∀ front w, a.res[r].waiting = front ++ [w] → front.length = 3 →
            (slotRank a slot < slotRank a w →
              (∃ pre post, front = pre ++ post ∧ (request a slot r).res[r].waiting = pre ++ slot :: post ∧
                (∀ v ∈ pre, slotRank a v ≤ slotRank a slot) ∧ (∀ v ∈ post, slotRank a slot < slotRank a v)) ∧
              statusOf (request a slot r) slot r = .waiting ∧
              statusOf (request a slot r) w r = .lost .evicted ∧
              (request a slot r).notices = a.notices ++ [⟨w, a.slots[w].number, r, .evicted⟩]) ∧
            (slotRank a w ≤ slotRank a slot → (request a slot r).res = a.res ∧
              statusOf (request a slot r) slot r = .lost .refused ∧
              (request a slot r).notices = a.notices))))) ∧
    (c.status[r] = .holding →
      (∀ q, q ≠ r → (withdrawFrom a slot r).res[q] = a.res[q]) ∧
      statusOf (withdrawFrom a slot r) slot r = .lost .withdrawn ∧
      (a.res[r].waiting = [] → (withdrawFrom a slot r).res[r] = ⟨none, []⟩ ∧
        (withdrawFrom a slot r).notices = a.notices) ∧
      (∀ g rest, a.res[r].waiting = g :: rest → (withdrawFrom a slot r).res[r] = ⟨some g, rest⟩ ∧
        statusOf (withdrawFrom a slot r) g r = .holding ∧
        (withdrawFrom a slot r).notices = a.notices ++ [⟨g, a.slots[g].number, r, .granted⟩])) ∧
    (c.status[r] = .waiting →
      (∀ q, q ≠ r → (withdrawFrom a slot r).res[q] = a.res[q]) ∧
      (withdrawFrom a slot r).res[r] = ⟨a.res[r].holder, a.res[r].waiting.filter (fun w => decide (w ≠ slot))⟩ ∧
      statusOf (withdrawFrom a slot r) slot r = .lost .withdrawn ∧
      (∀ k q, k ≠ slot ∨ q ≠ r → statusOf (withdrawFrom a slot r) k q = statusOf a k q) ∧
      (withdrawFrom a slot r).notices = a.notices) ∧
    (c.status[r] ≠ .holding → c.status[r] ≠ .waiting → withdrawFrom a slot r = a) ∧
    (∀ s : State, Active s → s.arb = a → c.deadline ≠ none → ∃ t, exec (.waitDeadline slot) s = .next t ∧
      (∀ q : ResNo, t.arb.res[q].holder = a.res[q].holder ∧
        t.arb.res[q].waiting = a.res[q].waiting.filter (fun w => decide (w ≠ slot)) ∧
        statusOf t.arb slot q = (if c.status[q] = .waiting then .lost .expired else c.status[q])) ∧
      (∃ d, claimIn t.arb slot = some d ∧ d.passed = true ∧ d.level = c.level ∧ d.bus = c.bus ∧
        d.sounding = c.sounding ∧ d.deadline = c.deadline) ∧
      (∀ k, t.arb.slots[k].number = a.slots[k].number ∧ (k ≠ slot → claimIn t.arb k = claimIn a k)) ∧
      t.arb.notices = a.notices ++ (((List.finRange 9).filter fun q => decide (c.status[q] = .waiting)).map
        fun q => ⟨slot, a.slots[slot].number, q, .expired⟩) ∧
      Changes [.arb, .synth] s t)

/-- The panel command ANNOUNCE: the order of its checks, and what an admitted post does; a refused post's
sequence is a free value (log 15) (07_announcements_and_chimes.md 7.2 (R133, R135), 7.3 (R136), 7.4 (R137, R139,
R140), 09_fault_banks_and_notices.md (R177, R180)). The model's: of two start times whose days lie 32,768 apart
neither is earlier (log 61, DEDUCED), and a record of the station's own with such a start is kept (log 70, DESIGN
CHOICE). -/
def Obligations.APostIsCheckedAndAdmitted : Prop :=
  ∀ (s : State) (p : AnnPost), Active s →
    let id : Id := ⟨s.start.station, s.ann.ownSeq + 1⟩
    let start := campusAdd s.time.campus 3000
    let inRange := match p.kind with
      | .chime _ n => 1 ≤ n ∧ n ≤ 3
      | .live l => 1 ≤ l ∧ l ≤ 300
    let wins := ∀ l, p.kind = .live l → LiveWins s start s.start.station
    let turned := fun r => exec (.announce p) s = .next (answered s r)
    let faulted := fun (r : Reason) (f : Id → FaultCode) => ∃ t, exec (.announce p) s = .next t ∧ t.port = (answered s (.refused r)).port ∧
      (∃ q, t.faults = (report s (f ⟨s.start.station, q⟩)).faults) ∧ Changes [.faults, .port, .fresh] s t
    (¬ inRange → turned (.bad .argument)) ∧
    (inRange → s.start.opState = .join → turned .busy) ∧
    (inRange → s.start.opState = .run → (s.line.listenOnly = true → turned (.refused .listenOnly)) ∧
      (s.line.listenOnly = false → (s.time.quality = .unset → turned (.refused .timeUnset)) ∧
      (s.time.quality ≠ .unset →
        (p.buildings.getLsbD s.start.station = false → turned (.refused .notAddressed)) ∧
        (p.buildings.getLsbD s.start.station = true → (¬ NamesZone s p.zones → turned (.refused .noZones)) ∧
        (NamesZone s p.zones → (¬ DrillAllows s p.level → turned (.refused .drill)) ∧
        (DrillAllows s p.level → (¬ PeriodAllows s p.level → turned (.refused .period)) ∧
        (PeriodAllows s p.level →
          ((∀ i : TablePos, s.ann.table[i] ≠ none) → faulted .tableFull .announcementTableFull) ∧
          ((∃ i : TablePos, s.ann.table[i] = none) → (¬ wins → faulted .liveConflict .liveConflict) ∧
            (wins → ∃ t, exec (.announce p) s = .next t ∧
              t.port = (answered s (.done (.announcement id.seq start))).port ∧ t.ann.ownSeq = id.seq ∧
              t.ann.live = (match p.kind with
                | .chime _ _ => s.ann.live
                | .live l => some (liveRecordAt s id start l)) ∧
              (((∀ l, p.kind ≠ .live l) ∨ NoLiveEntry s) →
                (∀ i : TablePos, s.ann.table[i] = none → (∀ j : TablePos, j < i → s.ann.table[j] ≠ none) →
                  Gathers s t i id start p .campus) ∧
                (HasRoom s → Queued t.line (.announce ⟨id.seq, start, p⟩))) ∧
              (∀ (i : TablePos) (e : AnnEntry) (l m : Nat), p.kind = .live l → AnnOk s.ann →
                s.ann.table[i] = some e → e.kind = .live m → ∃ u,
                  LiveTakes (s.withAnn { s.ann with ownSeq := id.seq }) u i e id start l ∧
                  (∀ j : TablePos, u.ann.table[j] = none → (∀ k : TablePos, k < j → u.ann.table[k] ≠ none) →
                    Gathers u t j id start p .campus) ∧
                  (takesOffers s = true → s.line.queue.length ≤ 10 →
                    Queued t.line (.announce ⟨id.seq, start, p⟩) ∧
                    (e.id.origin = s.start.station → Queued t.line (.annend e.id.seq e.start)))) ∧
              Changes [.ann, .arb, .synth, .faults, .line, .plan, .time, .drill, .port] s t)))))))))

/-- ANNOUNCE_FRAME of a peer, also of one that becomes present with it, after what its presence does
(PeersAreHeardAndBecomeAbsent): LIVE precedence, then admission in RUN (02_the_campus_line.md 2.5 (R46), 2.7 (R52),
07_announcements_and_chimes.md 7.2 (R134, R135), 7.3 (R136), 7.4 (R137, R138, R139, R140),
09_fault_banks_and_notices.md (R177, R180)). The model's: of two start times whose days lie 32,768 apart neither is
earlier (log 61, DEDUCED), and the record is kept against one of its own origin (log 70, DESIGN CHOICE); at an
UNSET station an entry gathers until its LOCAL trigger, wherever its start time stands to the invalid campus time
(log 72, DESIGN CHOICE). -/
def Obligations.AnAnnounceFrameIsJudgedAndAdmitted : Prop :=
  ∀ (s : State) (p : StationNo) (payload : List Byte) (c : AnnContent), Active s → p ≠ s.start.station →
    lengthAllowed .announce payload = true → announceOf payload = some c →
    let u := handOver s p
    let id : Id := ⟨p, c.seq⟩
    let known := (∃ (i : TablePos) (e : AnnEntry), u.ann.table[i] = some e ∧ e.id = id ∧ e.start = c.start) ∨
      ∃ r, u.ann.live = some r ∧ r.id = id ∧ r.start = c.start
    let live := ∃ l, c.post.kind = .live l
    let toHere := c.post.buildings.getLsbD u.start.station = true ∧ NamesZone u c.post.zones ∧
      DrillAllows u c.post.level ∧ PeriodAllows u c.post.level
    ∃ t, exec (.announceFrame p payload) s = .next t ∧
      Changes [.line, .time, .ann, .arb, .synth, .faults, .plan, .drill] u t ∧
      ((known ∨ (u.start.opState = .join ∧ ¬ live)) → t.ann = u.ann ∧ Changes [.line, .time] u t) ∧
      (¬ known → live → ¬ LiveWins u c.start p → t.ann = u.ann ∧ t.arb = u.arb ∧
        (u.start.opState = .join → t.faults = u.faults)) ∧
      (¬ known → (∀ l, c.post.kind = .live l → LiveWins u c.start p) →
        (∀ l, c.post.kind = .live l → t.ann.live = some (liveRecordAt u id c.start l)) ∧
        (∀ (i : TablePos) (e : AnnEntry) (l m : Nat), c.post.kind = .live l → AnnOk u.ann →
          u.ann.table[i] = some e → e.kind = .live m →
          ((u.start.opState = .join ∨ ¬ toHere) → LiveTakes u t i e id c.start l) ∧
          (u.start.opState = .run → toHere → ∃ v,
              LiveTakes u v i e id c.start l ∧ (e.id.origin = u.start.station → HasRoom u →
                Queued t.line (.annend e.id.seq e.start)) ∧
              ∀ j : TablePos, v.ann.table[j] = none → (∀ k : TablePos, k < j → v.ann.table[k] ≠ none) →
                Admitted v t j id c.start c.post))) ∧
      (¬ known → u.start.opState = .run →
        (¬ toHere → (¬ live ∨ ¬ LiveWins u c.start p) → t.ann = u.ann ∧ t.faults = u.faults) ∧
        (toHere → (∀ i : TablePos, u.ann.table[i] ≠ none) →
          ((¬ live ∨ ¬ LiveWins u c.start p) →
            t.ann = u.ann ∧ t.faults = (report u (.announcementTableFull id)).faults) ∧
          (∀ l, c.post.kind = .live l → LiveWins u c.start p → NoLiveEntry u →
            t.ann = { u.ann with live := some (liveRecordAt u id c.start l) } ∧
            t.faults = (report u (.announcementTableFull id)).faults)) ∧
        (toHere → (∃ i : TablePos, u.ann.table[i] = none) → live → ¬ LiveWins u c.start p →
          t.faults = (report u (.liveConflict id)).faults) ∧
        (toHere → (¬ live ∨ (LiveWins u c.start p ∧ NoLiveEntry u)) →
          ∀ i : TablePos, u.ann.table[i] = none → (∀ j : TablePos, j < i → u.ann.table[j] ≠ none) →
            Admitted u t i id c.start c.post))

/-- ANNOUNCE END, ANNEND, LIVE_RECORD_EXPIRY and END_ALL_ORDER; which own entry a wrapped sequence names
is the model's choice (log 63) (07_announcements_and_chimes.md 7.1 (R132), 7.6 (R144, R145), 7.7 (R146)).
The model's: the record stays while a LIVE entry stands in the table (log 58, DESIGN CHOICE); of two own
announcements of one sequence ANNOUNCE END takes the own entry in the lowest table position, and an entry
of the table before the last own outcome (log 63, DESIGN CHOICE); an ANNEND ends an entry in JOIN too
(log 46, DEDUCED). -/
def Obligations.EndingsFromThePanelTheLineAndTheDrill : Prop :=
  ∀ s : State, Active s →
    let others := fun i : TablePos => ∃ (j : TablePos) (x : AnnEntry) (l : Nat), j ≠ i ∧
      s.ann.table[j] = some x ∧ x.kind = .live l
    (∀ seq : Byte, let id : Id := ⟨s.start.station, seq⟩
      let cleared := fun start : CampusTime => s.ann.live.filter fun r => !(decide (r.id = id) && decide (r.start = start))
      (s.start.opState = .join → exec (.announceEnd seq) s = .next (answered s .busy)) ∧
      (s.start.opState = .run →
        (∀ (i : TablePos) (e : AnnEntry), s.ann.table[i] = some e → e.id = id →
          (∀ (j : TablePos) (x : AnnEntry), j < i → s.ann.table[j] = some x → x.id ≠ id) →
          ∃ t, exec (.announceEnd seq) s = .next t ∧ t.port = (answered s (.done .nothing)).port ∧
            EntryEnded s t i e .ended ∧ (¬ others i → t.ann.live = cleared e.start) ∧
            (others i → t.ann.live = s.ann.live) ∧ (HasRoom s → Queued t.line (.annend seq e.start)) ∧
            Changes [.ann, .arb, .synth, .faults, .line, .plan, .time, .drill, .port] s t) ∧
        ((∀ (i : TablePos) (e : AnnEntry), s.ann.table[i] = some e → e.id ≠ id) →
          (∀ o, s.ann.lastOwn = some o → o.seq = seq →
            ∃ t, exec (.announceEnd seq) s = .next t ∧ t.port = (answered s (.done .nothing)).port ∧
              (NoLiveEntry s → t.ann = { s.ann with live := cleared o.start }) ∧
              (¬ NoLiveEntry s → t.ann = s.ann) ∧
              (HasRoom s → Queued t.line (.annend seq o.start)) ∧
              Changes [.ann, .faults, .line, .plan, .time, .drill, .port] s t) ∧
          ((∀ o, s.ann.lastOwn = some o → o.seq ≠ seq) →
            exec (.announceEnd seq) s = .next (answered s (.refused .noSuchItem)))))) ∧
    (∀ (p : StationNo) (payload : List Byte) (seq : Byte) (start : CampusTime), p ≠ s.start.station →
      lengthAllowed .annend payload = true → annendOf payload = some (seq, start) →
      s.line.roster[p].present = true →
      let id : Id := ⟨p, seq⟩
      ∃ t, exec (.annend p payload) s = .next t ∧
        let cleared := s.ann.live.filter fun r => !(decide (r.id = id) && decide (r.start = start))
        (∀ (i : TablePos) (e : AnnEntry), s.ann.table[i] = some e → e.id = id → e.start = start →
          (∀ (j : TablePos) (x : AnnEntry), j < i → s.ann.table[j] = some x → ¬ (x.id = id ∧ x.start = start)) →
          EntryEnded s t i e .ended ∧ (¬ others i → t.ann.live = cleared) ∧
          (others i → t.ann.live = s.ann.live)) ∧
        ((∀ (i : TablePos) (e : AnnEntry), s.ann.table[i] = some e → ¬ (e.id = id ∧ e.start = start)) →
          t.ann.table = s.ann.table ∧ t.arb = s.arb ∧ (NoLiveEntry s → t.ann.live = cleared) ∧
          (¬ NoLiveEntry s → t.ann.live = s.ann.live)) ∧
        t.ann.ownSeq = s.ann.ownSeq ∧ t.ann.lastOwn = s.ann.lastOwn ∧
        Changes [.line, .time, .ann, .arb, .synth] s t) ∧
    (NoLiveEntry s → exec .liveRecordExpiry s = .next (s.withAnn { s.ann with live := none })) ∧
    (¬ NoLiveEntry s → exec .liveRecordExpiry s = .next s) ∧
    (∃ t, exec .endAllOrder s = .next t ∧ t.ann.live = none ∧ t.ann.ownSeq = s.ann.ownSeq ∧
      (∀ i : TablePos, t.ann.table[i] = none) ∧
      (∀ (i : TablePos) (e : AnnEntry), s.ann.table[i] = some e → claimIn t.arb (annSlot i) = none) ∧
      (∀ (i : TablePos) (e : AnnEntry), s.ann.table[i] = some e → e.id.origin = s.start.station →
        (∀ (j : TablePos) (x : AnnEntry), i < j → s.ann.table[j] = some x → x.id.origin ≠ s.start.station) →
        t.ann.lastOwn = some ⟨e.id.seq, e.start, e.kind, .preempted⟩ ∧ (Taking s → Pending t .announceEnded)) ∧
      Changes [.ann, .arb, .synth, .faults] s t)

/-- START_TRIGGER and GATHER_LIMIT of a GATHERING entry (07_announcements_and_chimes.md 7.4 (R138, R139),
06_zones_and_the_zone_arbiter.md 6.1 (R116), 6.3 (R121, R123), 09_fault_banks_and_notices.md (R177, R180)).
That a zone or SYN is held, and which waits are withdrawn, is read from the owner's view e.known, to which a GRANTED or lost notice still under
way has not come: log 8 (DEDUCED from R116, R121 and R123). -/
def Obligations.StartOfAnEntry : Prop :=
  ∀ (s : State) (i : TablePos), Active s → exec (.gatherLimit i) s = exec (.startTrigger i) s ∧
    ((∀ e, s.ann.table[i] = some e → e.state ≠ .gathering) → exec (.startTrigger i) s = .next s) ∧
    (∀ e, s.ann.table[i] = some e → e.state = .gathering →
      let held := (∃ z : ZoneNo, e.known[zoneRes z] = .holds) ∧
        ∀ c n, e.kind = .chime c n → e.known[synRes] = .holds
      let kind := effectiveKind s.plan (currentReading s)
      let cancelled := e.level = .normal ∧ (s.drill.state ≠ .idle ∨ quietKind kind = true)
      ∃ t, exec (.startTrigger i) s = .next t ∧ Changes [.ann, .arb, .synth, .faults] s t ∧
        t.ann.live = s.ann.live ∧ t.ann.ownSeq = s.ann.ownSeq ∧
        (∀ j : TablePos, j ≠ i → t.ann.table[j] = s.ann.table[j]) ∧
        (ArbOk s.arb → ∀ r : ResNo, e.known[r] = .waits → annSlot i ∉ t.arb.res[r].waiting) ∧
        (¬ held → AudioRecorded s t (.zonesUnavailable e.id) 2 e.id) ∧
        ((¬ held ∨ cancelled) → t.ann.table[i] = none ∧ claimIn t.arb (annSlot i) = none ∧
          (e.id.origin = s.start.station → (Taking s → Pending t .announceEnded) ∧
            (held → t.ann.lastOwn = some ⟨e.id.seq, e.start, e.kind, .cancelled⟩) ∧
            (¬ held → t.ann.lastOwn = some ⟨e.id.seq, e.start, e.kind, .zonesUnavailable⟩)) ∧
          (e.id.origin ≠ s.start.station → t.ann.lastOwn = s.ann.lastOwn ∧ (held → t.faults = s.faults) ∧
            (¬ held → t.faults = (report s (.zonesUnavailable e.id)).faults))) ∧
        (held → ¬ cancelled → t.ann.lastOwn = s.ann.lastOwn ∧
          let cut := fun l => if e.level = .normal ∧ kind = .teaching ∧ 60 < l then 60 else l
          t.ann.table[i] = some { e with
            kind := match e.kind with
              | .chime x n => .chime x n
              | .live l => .live (cut l)
            state := .playing
            deadline := match e.kind with
              | .chime _ _ => none
              | .live l => some (s.time.localCount + BitVec.ofNat 32 (1000 * cut l))
            known := Vector.ofFn fun r => if e.known[r] = .waits then .nothing else e.known[r] } ∧
          (∀ c, claimIn s.arb (annSlot i) = some c → s.arb.slots[annSlot i].number = e.claimNo →
            ∃ d, claimIn t.arb (annSlot i) = some d ∧ d.sounding = true ∧ d.level = c.level ∧ d.bus = c.bus) ∧
          (e.id.origin = s.start.station → Taking s → Pending t .announceGo) ∧
          (e.id.origin ≠ s.start.station → t.faults = s.faults)))

/-- END_DEADLINE, CHIME_COMPLETE and ANNOUNCE_CLAIM_NOTICE (07_announcements_and_chimes.md 7.5 (R140,
R141, R142, R143), 06_zones_and_the_zone_arbiter.md 6.3 (R121, R123), 09_fault_banks_and_notices.md (R177,
R180)). Whether an entry goes on after a
notice is read from the owner's view e.known with that notice, to which later notices still under way have
not come: log 8 (DEDUCED). -/
def Obligations.EndsAndLossesOfAnEntry : Prop :=
  ∀ (s : State) (i : TablePos), Active s →
    (∀ e l, s.ann.table[i] = some e → e.state = .playing → e.kind = .live l →
      ∃ t, exec (.endDeadline i) s = .next t ∧ EntryEnded s t i e .limit ∧ t.ann.live = s.ann.live ∧
        Changes [.ann, .arb, .synth, .faults] s t) ∧
    (∀ e c n, s.ann.table[i] = some e → e.state = .playing → e.kind = .chime c n →
      ∃ t, exec (.chimeComplete i) s = .next t ∧ EntryEnded s t i e .completed ∧ t.ann.live = s.ann.live ∧
        Changes [.ann, .arb, .synth, .faults] s t) ∧
    ((∀ e, s.ann.table[i] = some e → e.state ≠ .playing) →
      exec (.endDeadline i) s = .next s ∧ exec (.chimeComplete i) s = .next s) ∧
    (∀ n, firstNotice s.arb (annSlot i) = some n →
      let u := s.withArb (dropNotice s.arb (annSlot i))
      ((claimIn s.arb (annSlot i) = none ∨ s.arb.slots[annSlot i].number ≠ n.number) →
        exec (.announceClaimNotice i) s = .next u) ∧
      (∀ e, claimIn s.arb (annSlot i) ≠ none → s.arb.slots[annSlot i].number = n.number →
        s.ann.table[i] = some e →
        let known := e.known.set n.res (if n.kind = .granted then
          (if e.known[n.res] = .waits then .holds else e.known[n.res]) else .nothing)
        let hope := (∃ z : ZoneNo, known[zoneRes z] ≠ .nothing) ∧
          ∀ c k, e.kind = .chime c k → known[synRes] ≠ .nothing
        (hope → exec (.announceClaimNotice i) s =
          .next (u.withAnn { s.ann with table := s.ann.table.set i (some { e with known := known }) })) ∧
        (¬ hope → ∃ t, exec (.announceClaimNotice i) s = .next t ∧ t.ann.live = s.ann.live ∧
          Changes [.ann, .arb, .synth, .faults] s t ∧
          (n.kind = .preempted → EntryEnded u t i e .preempted) ∧
          (n.kind ≠ .preempted → EntryEnded u t i e .zonesUnavailable ∧
            AudioRecorded s t (.zonesUnavailable e.id) 2 e.id ∧
            (e.id.origin ≠ s.start.station → t.faults = (report s (.zonesUnavailable e.id)).faults)))))

/-- Beginning a drill here, and DRILL START and DK_ACTIVATION (08_fire_drills_and_alarms.md 8.1 (R151),
8.2 (R154), 8.3 (R155), 8.4 (R156, R157), 07_announcements_and_chimes.md 7.7 (R146)). The model's choice
(log 31, DESIGN CHOICE): the row DK_ACTIVATION sets line, last sample and valid level of DK at once. -/
def Obligations.BeginningADrill : Prop :=
  (∀ (s : State) (k : DrillKind), let t := beginDrill s k
      let id : Id := ⟨s.start.station, s.drill.ownSeq + 1⟩
      t.drill.state = .evacuate ∧ t.drill.ownSeq = id.seq ∧
      t.drill.periodic = some (s.time.localCount + 4000#32) ∧
      (∃ r, t.drill.record = some r ∧ r.id = id ∧ r.kind = k ∧ (r.sure = true ↔ s.time.quality ≠ .unset) ∧
        (s.time.quality ≠ .unset → r.start = s.time.campus) ∧
        (s.time.quality = .unset → r.start = ⟨BitVec.ofNat 16 (s.time.localCount.toNat / 86400000),
          s.time.localCount.toNat % 86400000⟩) ∧ r.localStart = s.time.localCount ∧ r.stop = none ∧
        (s.plan.active = none → r.evacLimit = 180 ∧ r.assembleLimit = 1800) ∧
        (r.evacLimit, r.assembleLimit) = drillQuery s.plan ∧ r.endTime = none ∧ r.outcome = none ∧
        (∀ p : StationNo, r.roll[p] =
          if p = s.start.station ∨ s.line.roster[p].present = true then .pending else .notExpected) ∧
        (HasRoom s → Queued t.line
          (.drillState ⟨id, r.start, r.sure, k, false, none, ownFaFlag s, none⟩))) ∧
      (s.drill.state = .evacuate → t.bells = s.bells ∧ t.arb = s.arb ∧ t.ann = s.ann) ∧
      (s.drill.state ≠ .evacuate →
        t.bells.drillFlag = (if s.drill.state = .idle then true else s.bells.drillFlag) ∧
        (∀ c : BellNo, t.bells.gens[c] =
          if s.image.bells[c].kind = .relay ∧ s.image.bells[c].alarmCapable = true then
            { Generator.initial with state := .evac } else Generator.initial) ∧
        t.ann.live = none ∧ (∀ i : TablePos, t.ann.table[i] = none) ∧
        (∃ c, claimIn t.arb drillSlot = some c ∧ c.level = .alarm ∧ c.bus = .a ∧ c.sounding = true) ∧
        (ArbOk s.arb → ∀ r : ResNo, (r = synRes ∨ r.val < s.image.zoneCount) →
          t.arb.res[r].holder = some drillSlot)) ∧
      (Taking s → Pending t .rollChange ∧ Pending t (noticeOf k)) ∧ Changes drillFields s t) ∧
    (∀ (s : State) (force : Bool), Active s →
      (s.drill.state ≠ .idle → exec (.drillStart force) s = .next (answered s .busy)) ∧
      (s.drill.state = .idle → quietKind (effectiveKind s.plan (currentReading s)) = true → force = false →
        exec (.drillStart force) s = .next (answered s (.refused .period))) ∧
      (s.drill.state = .idle → (quietKind (effectiveKind s.plan (currentReading s)) = false ∨ force = true) →
        ∃ r, (beginDrill s .practice).drill.record = some r ∧ exec (.drillStart force) s =
          .next (answered (beginDrill s .practice) (.done (.drillStarted r.id r.start))))) ∧
    (∀ s : State, alive s = true → let u := s.withPins { s.pins with dk := ⟨true, some true, some true⟩ }
      (working s = true → s.drill.state = .idle → exec .dkActivation s = .next (beginDrill u .practice)) ∧
      (working s = true → s.drill.state ≠ .idle → exec .dkActivation s = .next u) ∧
      (s.start.opState = .start →
        exec .dkActivation s = .next (u.withStart { s.start with dkLatched := true })))

/-- FA_ACTIVATION, FA_RELEASE, PERIODIC_FRAME_TIMER, END_COPY and ALL_CLEAR_COMPLETE; before the image FA
is kept unjudged (log 40) (08_fire_drills_and_alarms.md 8.1 (R151), 8.4 (R156, R158), 8.6 (R160, R161),
8.8 (R168), 11_start_up_power_fail_and_restart.md 11.3 (R200), 11.4 (R201)). The model's choices: the
contact before the image (log 40, DESIGN CHOICE), and an FA row that sets line, last sample and valid
level at once (log 31, DESIGN CHOICE). -/
def Obligations.FireContactFramesAndCopies : Prop :=
  (∀ s : State, alive s = true → let active := !s.image.faActiveOpen
      let u := s.withPins { s.pins with fa := ⟨active, some active, some active⟩ }
      let v := s.withPins { s.pins with fa := ⟨!active, some (!active), some (!active)⟩ }
      (s.start.opState = .start → s.store.state = .reading .image → exec .faActivation s =
        .next (s.withStart { s.start with
          faLatched := true
          faRow := some true }) ∧ exec .faRelease s = .next (s.withStart { s.start with faRow := some false })) ∧
      (s.start.opState = .start → s.store.state ≠ .reading .image → exec .faActivation s =
        .next (u.withStart { s.start with faLatched := true }) ∧ exec .faRelease s = .next v) ∧
      (working s = true → exec .faRelease s = .next (offerState v)) ∧
      (s.start.opState = .run → s.drill.state = .idle → exec .faActivation s = .next (beginDrill u .real)) ∧
      (s.start.opState = .join → s.drill.state = .idle → ∃ t r, exec .faActivation s = .next t ∧
        t.start.opState = .run ∧ t.drill.state = .evacuate ∧ t.drill.record = some r ∧ r.kind = .real ∧
        r.id = ⟨s.start.station, s.drill.ownSeq + 1⟩) ∧
      (∀ r, s.start.opState = .run → s.drill.state ≠ .idle → s.drill.record = some r →
        (r.kind = .real → exec .faActivation s = .next (offerState u)) ∧
        (r.kind = .practice → exec .faActivation s = .next (beginDrill (raise (u.withDrill { s.drill with
          record := none
          last := some { r with
            endTime := if s.time.quality = .unset then none else some s.time.campus
            outcome := some .alarmOverride }
          ended := addEnded s.drill.ended ⟨r.id, r.start, .alarmOverride⟩ }) .drillChange) .real))) ∧
      (∀ r, s.start.opState = .join → s.drill.state ≠ .idle → s.drill.record = some r →
        (r.kind = .real → exec .faActivation s = .next (offerState u)) ∧
        (r.kind = .practice → ∃ t q, exec .faActivation s = .next t ∧ t.start.opState = .run ∧
          t.drill.state = .evacuate ∧ t.drill.record = some q ∧ q.kind = .real ∧
          q.id = ⟨s.start.station, s.drill.ownSeq + 1⟩ ∧ t.drill.last = some { r with
            endTime := if s.time.quality = .unset then none else some s.time.campus
            outcome := some .alarmOverride } ∧
          t.drill.ended = addEnded s.drill.ended ⟨r.id, r.start, .alarmOverride⟩ ∧
          (Taking s → Pending t .drillChange ∧ Pending t .alarmChange)))) ∧
    (∀ s : State, Active s → exec .periodicFrameTimer s = .next (offerState s) ∧
      (s.drill.state = .idle → offerState s = s) ∧
      (∀ r, s.drill.state ≠ .idle → s.drill.record = some r →
        (offerState s).drill = { s.drill with periodic := some (s.time.localCount + 4000#32) } ∧
        (HasRoom s → Queued (offerState s).line (.drillState ⟨r.id, r.start, r.sure, r.kind,
          decide (s.drill.state ≠ .evacuate), ownClear s r, ownFaFlag s, r.stop⟩)) ∧
        Changes [.line, .plan, .time, .drill, .faults] s (offerState s)) ∧
      ((∀ x ∈ s.drill.copies, x.nextAt = none) → exec .endCopy s = .next s) ∧
      (∀ pre x post, s.drill.copies = pre ++ x :: post → x.nextAt ≠ none →
        (∀ y ∈ pre ++ post, y.nextAt = none ∧ ¬ (y.drill.id = x.drill.id ∧ y.drill.start = x.drill.start)) →
        HasRoom s → ∃ t, exec .endCopy s = .next t ∧
          t.drill = { s.drill with copies := pre ++ ⟨x.drill, x.offered + 1, none⟩ :: post } ∧
          Queued t.line (.drillEnd x.drill.id x.drill.start x.drill.outcome true) ∧
          Changes [.line, .drill] s t) ∧
      (∀ c, claimIn s.arb drillSlot = some c → c.level = .urgent → ∃ t, exec .allClearComplete s = .next t ∧
        t.arb = withdrawWhole s.arb drillSlot ∧ Changes [.arb, .synth] s t) ∧
      ((∀ c, claimIn s.arb drillSlot = some c → c.level ≠ .urgent) → exec .allClearComplete s = .next s))

/-- SIGNAL_STOP, EVACUATION_DEADLINE, BUILDING_CLEAR, the ALL-CLEAR test, and when the limits of a PRACTICE
are reached; a clear own entry in ALL-CLEAR gives PHASE (log 22) (01_campus_time.md 1.1 (R3),
08_fire_drills_and_alarms.md 8.2 (R154), 8.3 (R155), 8.8 (R166, R167, R168, R169), 8.9 (R170)). -/
def Obligations.PhasesOfADrill : Prop :=
  ∀ s : State, Active s →
    (∀ roll : Vector RollEntry 16, rollComplete roll = true ↔
      (∀ p : StationNo, roll[p] ≠ .pending) ∧ ∃ (p : StationNo) (e : Nat), roll[p] = .cleared e) ∧
    (∀ r : DrillRecord, let onCampus := s.time.quality ≠ .unset ∧ r.sure = true
      let past := fun (from_ : CampusTime) (seconds : Nat) =>
        0 ≤ campusDiff s.time.campus (campusAdd from_ (1000 * (seconds : Int)))
      let pastCount := fun (from_ : Count) (seconds : Nat) =>
        (s.time.localCount - (from_ + BitVec.ofNat 32 (1000 * seconds))).toNat < 2147483648
      (evacuationReached s r = true ↔ r.kind = .practice ∧ s.drill.state = .evacuate ∧
        (onCampus → past r.start r.evacLimit) ∧ (¬ onCampus → pastCount r.localStart r.evacLimit)) ∧
      (assembleReached s r = true ↔ r.kind = .practice ∧ s.drill.state = .assemble ∧
        (∀ stop, onCampus → r.stop = some stop → past stop r.assembleLimit) ∧
        (¬ (onCampus ∧ r.stop.isSome = true) →
          ∃ c, s.drill.assembleAt = some c ∧ pastCount c r.assembleLimit)) ∧
      (allClearReached s r = true ↔ r.kind = .practice ∧ s.drill.state = .allClear ∧
        ∃ c, s.drill.allClearAt = some c ∧ pastCount c 120)) ∧
    (s.drill.state = .idle → exec .signalStop s = .next (answered s (.refused .noDrill)) ∧
      exec .buildingClear s = .next (answered s (.refused .noDrill)) ∧
      exec .evacuationDeadline s = .next s) ∧
    (∀ r, s.drill.state ≠ .idle → s.drill.record = some r →
      let stop := if s.time.quality = .unset then none else some s.time.campus
      let moved := fun t => Assembled s t r ∧ t.drill.record = some { r with stop := stop } ∧
        (HasRoom s → Queued t.line
          (.drillState ⟨r.id, r.start, r.sure, r.kind, true, ownClear s r, ownFaFlag s, stop⟩))
      let elapsed := if s.time.quality ≠ .unset ∧ r.sure = true then
          (campusDiff s.time.campus r.start).toNat else (s.time.localCount - r.localStart).toNat
      let cleared := { r with roll := r.roll.set s.start.station (.cleared elapsed) }
      (s.drill.state ≠ .evacuate → exec .signalStop s = .next (answered s (.refused .phase))) ∧
      (s.drill.state = .evacuate → ∃ t, exec .signalStop s = .next t ∧ moved t ∧
        t.port = (answered s (.done .nothing)).port) ∧
      (s.drill.state = .evacuate → r.kind = .practice → ∃ t, exec .evacuationDeadline s = .next t ∧ moved t ∧
        t.port = s.port) ∧
      ((s.drill.state ≠ .evacuate ∨ r.kind = .real) → exec .evacuationDeadline s = .next s) ∧
      (s.drill.state = .allClear → exec .buildingClear s = .next (answered s (.refused .phase))) ∧
      (s.drill.state ≠ .allClear → ownClear s r ≠ none →
        exec .buildingClear s = .next (answered s (.done .nothing))) ∧
      (s.drill.state ≠ .allClear → ownClear s r = none → ∃ t, exec .buildingClear s = .next t ∧
        t.port = (answered s (.done .nothing)).port ∧ t.drill.record = some cleared ∧
        t.drill.state =
          (if s.drill.state = .assemble ∧ rollComplete cleared.roll = true then .allClear else s.drill.state) ∧
        (s.drill.state = .assemble → rollComplete cleared.roll = true →
          AllClearClaimed s.image s.time.localCount s.arb t.arb) ∧
        (¬ (s.drill.state = .assemble ∧ rollComplete cleared.roll = true) → t.arb = s.arb) ∧
        (Taking s → Pending t .rollChange) ∧
        (HasRoom s → Queued t.line (.drillState ⟨r.id, r.start, r.sure, r.kind,
          decide (s.drill.state ≠ .evacuate), some elapsed, ownFaFlag s, r.stop⟩)) ∧
        Changes (.port :: drillFields) s t))

/-- DRILL_END, ALARM_RESET, ASSEMBLE_DEADLINE, END_OF_ALL_CLEAR, END_FRAME and READ_DRILL_RECORD
(08_fire_drills_and_alarms.md 8.5 (R159), 8.7 (R165), 8.8 (R167, R168), 8.10 (R172, R173), 8.11 (R174)). -/
def Obligations.EndingsOfADrill : Prop :=
  ∀ s : State, Active s →
    (s.drill.state = .idle → exec .drillEnd s = .next (answered s (.refused .noDrill)) ∧
      exec .alarmReset s = .next (answered s (.refused .noDrill)) ∧
      exec (.readDrillRecord .current) s = .next (answered s (.refused .noDrill))) ∧
    (exec (.readDrillRecord .last) s = .next (answered s (match s.drill.last with
      | none => .refused .noDrill
      | some r => .done (.drillRecord r s.drill.ended)))) ∧
    (∀ r, s.drill.state ≠ .idle → s.drill.record = some r →
      let done := fun i o => ∃ t, exec i s = .next t ∧ DrillEnded s t r o true ∧
        t.port = (answered s (.done .nothing)).port ∧ Changes (.port :: drillFields) s t
      let flagged := s.pins.fa.valid = some (!s.image.faActiveOpen) ∨
        ∃ (p : StationNo) (f : FaActive), s.line.roster[p].present = true ∧ s.line.roster[p].fa = some f ∧
          f.flag = true ∧ f.id = r.id ∧ f.start = r.start
      exec (.readDrillRecord .current) s = .next (answered s (.done (.drillRecord r s.drill.ended))) ∧
      (r.kind = .real → exec .drillEnd s = .next (answered s (.refused .useAlarmReset)) ∧
        exec .assembleDeadline s = .next s ∧ exec .endOfAllClear s = .next s ∧
        (flagged → exec .alarmReset s = .next (answered s (.refused .faActive))) ∧
        (¬ flagged → done .alarmReset .reset)) ∧
      (r.kind = .practice → exec .alarmReset s = .next (answered s (.refused .useDrillEnd)) ∧
        done .drillEnd (if s.drill.state = .allClear then .complete else .endedEarly) ∧
        (s.drill.state ≠ .assemble → exec .assembleDeadline s = .next s) ∧
        (s.drill.state ≠ .allClear → exec .endOfAllClear s = .next s) ∧
        (s.drill.state = .assemble → ∃ t, exec .assembleDeadline s = .next t ∧ DrillEnded s t r .timedOut true ∧
          Changes drillFields s t ∧
          (Taking s → faultEnabled s.image (.assembleTimedOut 0) = true →
            t.faults.banks[bankIndex .drill].valid = true ∧ t.faults.banks[bankIndex .drill].uncorrected = true ∧
            (s.faults.banks[bankIndex .drill].valid = false → t.faults.banks[bankIndex .drill].detail =
              some (.number (r.roll.toList.filter fun e => decide (e = .pending)).length)))) ∧
        (s.drill.state = .allClear → ∃ t, exec .endOfAllClear s = .next t ∧ DrillEnded s t r .complete true ∧
          Changes drillFields s t))) ∧
    (∀ (p : StationNo) (payload : List Byte) (e : EndedDrill), p ≠ s.start.station →
      lengthAllowed .drill (drillPayload 1 payload) = true → endFrameOf payload = some e →
      s.line.roster[p].present = true →
      let running := s.drill.state ≠ .idle ∧ ∃ r, s.drill.record = some r ∧ r.id = e.id ∧ r.start = e.start
      ∃ t, exec (.endFrame p payload) s = .next t ∧ t.line.roster[p].fa = none ∧
        Changes (.start :: .mark :: drillFields) s t ∧
        (∀ r, running → s.drill.record = some r → ownFaFlag s = false → DrillEnded s t r e.outcome false) ∧
        (running → ownFaFlag s = true → t.drill.state = .evacuate ∧ t.start.opState = .run ∧
          ∃ r, t.drill.record = some r ∧ r.kind = .real ∧ r.id = ⟨s.start.station, s.drill.ownSeq + 1⟩) ∧
        (¬ running → ((∃ x ∈ s.drill.ended, x.id = e.id ∧ x.start = e.start) → t.drill = s.drill) ∧
          ((∀ x ∈ s.drill.ended, ¬ (x.id = e.id ∧ x.start = e.start)) →
            (s.drill.ended.length < 4 → t.drill = { s.drill with ended := s.drill.ended ++ [e] }) ∧
            (s.drill.ended.length = 4 → t.drill = { s.drill with ended := s.drill.ended.drop 1 ++ [e] }))))

/-- DRILL_STATE_FRAME: ended drills, adoption, the running drill, and merging by precedence
(08_fire_drills_and_alarms.md 8.3 (R155), 8.7 (R162, R163, R164), 8.8 (R168, R169), 02_the_campus_line.md
2.7 (R50)). The model's choices: of two drills equal in kind, start time and origin, which R2 and R164 do
not order, and of two equal in kind and origin whose start days lie 32,768 apart, the running one is kept (logs
21, 70, DESIGN CHOICE); a same-drill frame that moves the station on to
ASSEMBLE without a signal stop time leaves it without one (log 66, DEDUCED); of two stop times 32,768 days
apart the one held stays (log 61, DEDUCED). -/
def Obligations.ADrillFrameIsAdoptedFollowedOrMerged : Prop :=
  ∀ (s : State) (p : StationNo) (payload : List Byte) (c : DrillContent), Active s → p ≠ s.start.station →
    lengthAllowed .drill (drillPayload 0 payload) = true → drillStateFrameOf payload = some c →
    s.line.roster[p].present = true →
    let listed := fun x : EndedDrill => x.id = c.id ∧ x.start = c.start
    ∃ t, exec (.drillStateFrame p payload) s = .next t ∧ Changes drillFields s t ∧
      t.line.roster[p].fa = some ⟨c.fa, c.id, c.start⟩ ∧
      (∀ pre e post, s.drill.ended = pre ++ e :: post → listed e → (∀ x ∈ pre, ¬ listed x) →
        t.drill = s.drill ∧ (HasRoom s → Queued t.line (.drillEnd e.id e.start e.outcome false)) ∧
        Changes [.line, .time, .plan, .faults] s t) ∧
      ((∀ x ∈ s.drill.ended, ¬ listed x) →
        (s.drill.state = .idle → DrillTaken s t p c ∧ (Taking s → Pending t (noticeOf c.kind))) ∧
        (∀ r, s.drill.state ≠ .idle → s.drill.record = some r →
          (r.id = c.id → r.start = c.start →
            let moves := c.assemble = true ∧ s.drill.state = .evacuate
            let stop := if moves then c.stop else
              match r.stop, c.stop with
                | some a, some b => some (if c.assemble = true ∧ 0 < campusDiff a b then b else a)
                | none, b => b
                | a, none => a
            let roll := match c.cleared, r.roll[p] with
              | some _, .cleared _ => r.roll
              | some e, _ => r.roll.set p (.cleared e)
              | none, _ => r.roll
            t.drill.record = some { r with
              stop := stop
              roll := roll } ∧
            t.drill.state = (if moves ∨ s.drill.state = .assemble then
              (if rollComplete roll = true then .allClear else .assemble) else s.drill.state) ∧
            (roll ≠ r.roll → Taking s → Pending t .rollChange) ∧
            (moves → (Taking s → Pending t (noticeOf r.kind)) ∧
              ∀ d : BellNo, s.bells.gens[d].state = .evac → t.bells.gens[d] = Generator.initial)) ∧
          (¬ (r.id = c.id ∧ r.start = c.start) →
            (drillPrecedes c.kind c.start c.id.origin r.kind r.start r.id.origin = false →
              t.drill.record = some r ∧ t.drill.state = s.drill.state ∧ t.bells = s.bells ∧ t.arb = s.arb ∧
              (HasRoom s → Queued t.line (.drillState ⟨r.id, r.start, r.sure, r.kind,
                decide (s.drill.state ≠ .evacuate), ownClear s r, ownFaFlag s, r.stop⟩))) ∧
            (drillPrecedes c.kind c.start c.id.origin r.kind r.start r.id.origin = true →
              DrillTaken s t p c ∧ (Taking s → Pending t .drillChange ∧
                ((r.kind = .real ∨ c.kind = .real) → Pending t .alarmChange) ∧
                (faultEnabled s.image (.drillMerged r.id) = true →
                  t.faults.banks[bankIndex .drill].valid = true ∧
                  (s.faults.banks[bankIndex .drill].valid = false →
                    t.faults.banks[bankIndex .drill].detail = some (.drill r.id))))))))

/-- How the Fault Unit takes a fault, and the notices it raises (09_fault_banks_and_notices.md 9.1 (R175, R176), 9.2
(R177, R178, R179), 9.6 (R183)). -/
def Obligations.AFaultIsTakenByItsBank : Prop :=
  (∀ (s : State) (c : FaultCode),
      let i := bankIndex (faultBank c)
      let b := s.faults.banks[i]
      let b' := (report s c).faults.banks[i]
      let time := if s.time.quality = .unset then none else some s.time.campus
      Changes [.faults] s (report s c) ∧ (report s c).faults.taking = s.faults.taking ∧
      (∀ j : Fin 6, j ≠ i → (report s c).faults.banks[j] = s.faults.banks[j]) ∧
      ((s.faults.taking = false ∨ faultEnabled s.image c = false) → report s c = s) ∧
      (Taking s → faultEnabled s.image c = true → FaultsOk s.faults →
        (faultUncorrected c = false →
          (b.valid = false → b' = ⟨true, false, false, faultNumber c, faultDetail c, time, 1⟩ ∧
            Pending (report s c) .faultRecorded) ∧
          (b.valid = true → b' = { b with
              overflow := true
              count := if b.count = 255 then 255 else b.count + 1 } ∧
            (report s c).faults.pending = s.faults.pending)) ∧
        (faultUncorrected c = true → b'.count = b.count ∧
          (b.valid = false → b' = ⟨true, false, true, faultNumber c, faultDetail c, time, 0⟩ ∧
            Pending (report s c) .faultRecorded) ∧
          (b.valid = true → b.uncorrected = false → b' = ⟨true, true, true, faultNumber c, faultDetail c,
            time, b.count⟩ ∧ Pending (report s c) .faultRecorded) ∧
          (b.valid = true → b.uncorrected = true → b' = { b with overflow := true } ∧
            (report s c).faults.pending = s.faults.pending)))) ∧
    (∀ (s : State) (k j : NoticeKind), Changes [.faults] s (raise s k) ∧
      (raise s k).faults.banks = s.faults.banks ∧ (Taking s → Pending (raise s k) k) ∧
      (j ≠ k → (Pending (raise s k) j ↔ Pending s j)) ∧ (Pending s k → raise s k = s) ∧
      (s.faults.taking = false → raise s k = s))

/-- READ_STATUS, READ_ROSTER_ENTRY, READ_BANK, CLEAR_BANK, READ_NOTICES (the own FA field with no drill
is the model's, DEDUCED in log 38) (09_fault_banks_and_notices.md 9.4 (R181), 9.5 (R182), 9.6 (R183,
R184, R185), 10_the_panel_port.md 10.7 (R196, R197)). The time since last heard that READ ROSTER ENTRY
gives of a peer never heard rests on the last heard count of 0 at a start: log 4 (DESIGN CHOICE). -/
def Obligations.ReadsOfTheStation : Prop :=
  (∀ (f : FaultUnit) (i : Fin 6), (faultSummary f).valid.getLsbD i = f.banks[i].valid ∧
      (faultSummary f).uncorrected.getLsbD i = f.banks[i].uncorrected) ∧
    ∀ s : State, Active s →
    let drill := match s.drill.state, s.drill.record with
      | .idle, _ => none
      | _, none => none
      | st, some r => some ⟨r.id, r.start, r.kind, st⟩
    exec .readStatus s = .next (answered s (.done (.status {
      station := s.start.station
      opState := s.start.opState
      listenOnly := s.line.listenOnly
      reading := ⟨s.time.campus, decide (s.time.quality ≠ .unset)⟩
      quality := s.time.quality
      stepCounter := s.time.stepCounter
      lastSet := s.time.lastSet.map (·.1)
      labelHeld := s.time.label.isSome
      planKey := s.plan.active.map (·.key)
      staging := s.plan.staging
      drill := drill
      lastOwn := s.ann.lastOwn
      drillCount := s.bells.drillCount
      quietCount := s.bells.quietCount
      faults := faultSummary s.faults
      ntc := ntc s }))) ∧
    (∀ n, (15 < n → exec (.readRosterEntry n) s = .next (answered s (.bad .argument))) ∧
      (∀ h : n < 16, let p : StationNo := ⟨n, h⟩
        let e := s.line.roster[p]
        (p ≠ s.start.station → exec (.readRosterEntry n) s = .next (answered s (.done (.roster
          ⟨e.present, some (s.time.localCount - e.lastHeard).toNat, e.beaconSeq, e.stepCount, e.quality, e.setKey,
            e.plan, e.faults, e.drill, e.fa, e.mark.isSome, e.sample⟩)))) ∧
        (p = s.start.station → exec (.readRosterEntry n) s = .next (answered s (.done (.roster
          ⟨true, none, some s.time.ownSeq, some s.time.stepCounter, some s.time.quality, s.time.lastSet.map (·.1),
            s.plan.active.map (fun a => (a.key, a.digest)), some (faultSummary s.faults), drill,
            drill.map (fun d => ⟨ownFaFlag s, d.id, d.start⟩), false, none⟩)))))) ∧
    (∀ n, (5 < n → exec (.readBank n) s = .next (answered s (.bad .argument)) ∧
        exec (.clearBank n) s = .next (answered s (.bad .argument))) ∧
      (∀ h : n < 6, exec (.readBank n) s = .next (answered s (.done (.bank s.faults.banks[n]))) ∧
        exec (.clearBank n) s = .next (answered (s.withFaults { s.faults with
          banks := s.faults.banks.set n ⟨false, false, false, 0, none, none, 0⟩ }) (.done .nothing)))) ∧
    (ImageOk s.image → ∃ ks : List NoticeKind, exec .readNotices s =
        .next (answered (s.withFaults { s.faults with pending := Vector.replicate 12 false })
          (.done (.notices ks))) ∧ (∀ k, k ∈ ks ↔ Pending s k) ∧
        ks.Pairwise fun j k => noticeLevel s.image k < noticeLevel s.image j ∨
          (noticeLevel s.image j = noticeLevel s.image k ∧ noticeIndex j < noticeIndex k))

/-- PANEL_REQUEST, FETCH, TRANSACTION_END, OWNER_ANSWER and the requests decoded; where a transaction
begins and ends is the model's choice (log 26) (10_the_panel_port.md 10.1 (R186, R187), 10.2 (R188, R189,
R190), 10.3 (R191), 10.4 (R192), 10.5 (R193), 10.6 (R195), 03_the_day_plan.md 3.5 (R63), 12_formats.md 12.1, 12.2, 12.3, 12.4
(R210)). LOAD FRAGMENT takes 2 to 44 bytes of arguments, so that one byte alone is BAD LENGTH: a reading
of R63, R188, R210 and 12.3 together, log 20 (DEDUCED). The widths of the arguments that 12.1 and 12.4 give none
for (the minutes of OVERRIDE ADD, the one-byte arguments) are the model's choice, log 73 (DESIGN CHOICE). The
response bytes are the envelope of R210; of the data of DONE those of SET TIME, LOAD COMMIT and the override
commands, ANNOUNCE and DRILL START are stated, whose encodings 12.1 gives, and the drill summary of READ STATUS,
where the byte of the kind is log 19 and the bytes of an absent summary are log 65 (DESIGN CHOICE). -/
def Obligations.ThePanelPort : Prop :=
  ∀ s : State, alive s = true →
    (∀ b : Byte, ∀ rest : List Byte, b ≠ 0 →
      (b.toNat < 2 ∨ 46 < b.toNat → checkRequest (b :: rest) = .bad .length) ∧
      (2 ≤ b.toNat → b.toNat ≤ 46 → (b :: rest).foldl (· + ·) 0 ≠ 0 → checkRequest (b :: rest) = .bad .check) ∧
      (∀ code args, rest = code :: args → 2 ≤ b.toNat → b.toNat ≤ 46 → (b :: rest).foldl (· + ·) 0 = 0 →
        code = 0 ∨ 27 < code.toNat → checkRequest (b :: rest) = .bad .command)) ∧
    (let asks := fun (code : Byte) (args : List Byte) =>
        let front : List Byte := BitVec.ofNat 8 (args.length + 2) :: code :: args
        checkRequest (front ++ [0 - front.foldl (· + ·) 0])
      let decoded := fun (o : Option Instr) => match o with
        | some i => HeldRequest.valid i
        | none => .bad .argument
      let counts : List (List Nat) := [[6], [6], [1], (List.range 43).map (· + 2), [0, 4], [0], [9], [1], [3], [2], [4],
        [1], [1], [6], [1], [1], [0], [0], [0], [0], [1], [0], [1], [1], [1], [0], [0]]
      (∀ (code : Byte) args ns, code ≠ 0 → counts[code.toNat - 1]? = some ns → args.length ≤ 44 → args.length ∉ ns →
        asks code args = .bad .length) ∧
      (∀ a b c d e f : Byte, let t : CampusTime := ⟨a ++ b, (c ++ d ++ e ++ f).toNat⟩
        asks 1 [a, b, c, d, e, f] = .valid (.setTime t) ∧
        asks 2 [a, b, c, d, e, f] = .valid (.referenceLabel t) ∧
        asks 14 [a, b, c, d, e, f] = decoded (
          let post := fun kind => Instr.announce ⟨kind, if a.getLsbD 1 then .normal else .urgent, d ++ e, f⟩
          if 4 ≤ a.toNat then none
          else if a.getLsbD 0 then some (post (.live (b ++ c).toNat))
          else ([.chime2, .chime3Up, .chime3Down] : List Chime)[b.toNat]?.map fun x => post (.chime x c.toNat))) ∧
      (∀ a b c d e f g h k : Byte, asks 7 [a, b, c, d, e, f, g, h, k] = decoded
        (([.teaching, .recess, .assembly, .quiet, .closed] : List PeriodKind)[k.toNat]?.map
          (.overrideAdd (a ++ b ++ c ++ d).toNat (e ++ f ++ g ++ h).toNat))) ∧
      (∀ (i : Byte) content, 1 ≤ content.length → content.length ≤ 43 →
        asks 4 (i :: content) = .valid (.loadFragment i.toNat content)) ∧
      (∀ a b c d : Byte, asks 5 [a, b, c, d] = .valid (.loadCommit (some (a ++ b ++ c ++ d))) ∧
        asks 11 [a, b, c, d] = decoded (([.plus, .minus] : List Polarity)[d.toNat]?.map
          (.dialSet a.toNat (if b = 0xFF ∧ c = 0xFF then none else some (b ++ c).toNat))) ∧
        asks 10 [a, b] = decoded (if a.toNat < 64 then some (.ring (a.setWidth 6) b.toNat) else none) ∧
        asks 9 [a, b, c] = decoded ((([some .key, some .weekday, some (.exception c.toNat),
          if b.toNat ≤ 4 then some (.range b.toNat c.toNat) else none,
          if b.toNat ≤ 4 then some (.default b.toNat) else none,
          if b.toNat ≤ 4 then some (.bell b.toNat c.toNat) else none, some (.override c.toNat),
          some (.pattern c.toNat), some .drill, some .staging] : List (Option PlanItem))[a.toNat]?.join).map
            .readPlanItem)) ∧
      (∀ a : Byte, let n := a.toNat
        asks 3 [a] = decoded ([.loadBegin .empty, .loadBegin .copy][n]?) ∧
        asks 16 [a] = decoded ([.drillStart false, .drillStart true][n]?) ∧
        asks 21 [a] = decoded ([.readDrillRecord .current, .readDrillRecord .last][n]?) ∧
        asks 24 [a] = decoded (if n ≤ 5 then some (.readBank n) else none) ∧
        asks 25 [a] = decoded (if n ≤ 5 then some (.clearBank n) else none) ∧
        asks 8 [a] = .valid (.overrideRemove n) ∧ asks 12 [a] = .valid (.clockClear n) ∧
        asks 13 [a] = .valid (.readClockCircuit n) ∧ asks 15 [a] = .valid (.announceEnd a) ∧
        asks 23 [a] = .valid (.readRosterEntry n)) ∧
      asks 5 [] = .valid (.loadCommit none) ∧ asks 6 [] = .valid .loadAbort ∧ asks 17 [] = .valid .signalStop ∧
      asks 18 [] = .valid .buildingClear ∧ asks 19 [] = .valid .drillEnd ∧ asks 20 [] = .valid .alarmReset ∧
      asks 22 [] = .valid .readStatus ∧ asks 26 [] = .valid .readNotices ∧ asks 27 [] = .valid .restart) ∧
    (let reasons : List Reason := [.timeUnset, .listenOnly, .notAddressed, .noZones, .drill, .tableFull, .liveConflict,
        .period, .noPlan, .notLoading, .validation .fragments, .validation .calendar, .validation .ranges,
        .validation .bellOrder, .validation .bellClash, .validation .patternRef, .validation .patterns,
        .validation .overrides, .validation .drillLimits, .generation, .overridesFull, .noSuchItem, .noDrill, .phase,
        .useAlarmReset, .useDrillEnd, .faActive]
      let causes : List BadCause := [.length, .check, .command, .argument]
      let timeBytes := fun t : CampusTime => [t.day.extractLsb' 8 8, t.day.extractLsb' 0 8] ++
        [16777216, 65536, 256, 1].map fun n => BitVec.ofNat 8 (t.ms / n)
      let keyOf := fun k : Key => [k.gen.extractLsb' 8 8, k.gen.extractLsb' 0 8, BitVec.ofNat 8 k.origin.val]
      (∀ r : Response, let body : List Byte := match r with
          | .done d => 1 :: doneBytes d
          | .busy => [2]
          | .refused x => [3, BitVec.ofNat 8 (reasons.idxOf x + 1)]
          | .bad c => [4, BitVec.ofNat 8 (causes.idxOf c + 1)]
        (∃ check, responseBytes r = [BitVec.ofNat 8 (body.length + 1)] ++ body ++ [check]) ∧
          (responseBytes r).foldl (· + ·) 0 = 0) ∧
      (∀ x : Reason, x ∈ reasons) ∧ doneBytes .nothing = [] ∧ doneBytes (.set none) = [] ∧
      (∀ x : StatusSet, ((doneBytes (.status x)).drop 20).take 10 = match x.drill with
        | none => [0xFF, 0, 0, 0, 0xFF, 0xFF, 0xFF, 0xFF, 0, 0]
        | some d => [BitVec.ofNat 8 d.id.origin.val, d.id.seq] ++ timeBytes d.start ++ [match d.kind with
            | .practice => 0
            | .real => 1, match d.state with
            | .idle => 0
            | .evacuate => 1
            | .assemble => 2
            | .allClear => 3]) ∧
      (∀ (k : Key) (d : Int), doneBytes (.set (some (k, d))) =
        keyOf k ++ [40, 32, 24, 16, 8, 0].map fun n => (BitVec.ofInt 48 d).extractLsb' n 8) ∧
      (∀ (k : Key) (d : Digest), doneBytes (.planKey k d) =
        keyOf k ++ [24, 16, 8, 0].map fun n => d.extractLsb' n 8) ∧
      (∀ (q : Byte) (t : CampusTime), doneBytes (.announcement q t) = [q] ++ timeBytes t) ∧
      ∀ (i : Id) (t : CampusTime), doneBytes (.drillStarted i t) =
        [BitVec.ofNat 8 i.origin.val, i.seq] ++ timeBytes t) ∧
    (s.start.opState = .halt → (∀ bytes, exec (.panelRequest bytes) s = .next (s.withPort { s.port with
        transaction := some ⟨.pending, false, 0, bytes, List.replicate bytes.length 0xFF⟩ })) ∧
      exec .ownerAnswer s = .next s) ∧
    let taken := fun (h : HeldRequest) => match s.port.state with
      | .idle => Dispatched s.port s.start.opState h
      | .working => { s.port with
          held := some h
          buffer := .pending }
    let fetched := fun (n : Nat) => match s.port.buffer with
      | .ready r => min n (responseBytes r).length
      | _ => 0
    (s.start.opState ≠ .halt →
      (∀ b rest more, b ≠ 0 → rest.length = b.toNat → ∃ t, exec (.panelRequest (b :: rest ++ more)) s = .next t ∧
        Changes [.port] s t ∧
        { t.port with transaction := none } = { taken (checkRequest (b :: rest)) with transaction := none } ∧
        t.port.transaction = some ⟨s.port.buffer, true, fetched (rest.length + 1), b :: rest ++ more,
          (List.range (rest.length + 1)).map (shiftedOut s.port.buffer) ++ List.replicate more.length 0xFF⟩) ∧
      (∀ b rest, (b = 0 ∨ rest.length < b.toNat) → ∃ t, exec (.panelRequest (b :: rest)) s = .next t ∧
        Changes [.port] s t ∧ t.port = { s.port with
          buffer := match s.port.buffer with
            | .ready r => if (responseBytes r).length ≤ rest.length + 1 then .empty else .ready r
            | x => x
          transaction := some ⟨s.port.buffer, false, fetched (rest.length + 1), b :: rest,
            (List.range (rest.length + 1)).map (shiftedOut s.port.buffer)⟩ }) ∧
      (s.port.answer = none → exec .ownerAnswer s = .next s) ∧
      (∀ r, s.port.answer = some r →
        (s.port.held = none → exec .ownerAnswer s = .next (s.withPort { s.port with
          state := .idle
          buffer := .ready r
          answer := none })) ∧
        (∀ h, s.port.held = some h → exec .ownerAnswer s =
          .next (s.withPort (Dispatched { s.port with
            held := none
            buffer := .pending
            answer := none } s.start.opState h))))) ∧
    (∀ k, 1 ≤ k → exec (.fetch k) s = exec (.panelRequest (List.replicate k 0)) s) ∧
    (exec (.transactionEnd []) s = .next (s.withPort { s.port with transaction := none })) ∧
    (∀ bytes x, bytes ≠ [] → s.port.transaction = some x → (x.taken = true ∨ s.start.opState = .halt) →
      exec (.transactionEnd bytes) s = .next (s.withPort { s.port with transaction := none })) ∧
    (∀ bytes x b rest, bytes ≠ [] → s.port.transaction = some x → x.taken = false → s.start.opState ≠ .halt →
      (∀ more, x.received ++ bytes = b :: rest ++ more → b ≠ 0 → rest.length = b.toNat →
        exec (.transactionEnd bytes) s = .next (s.withPort { taken (checkRequest (b :: rest)) with
          transaction := none })) ∧
      (x.received ++ bytes = b :: rest → (b = 0 ∨ rest.length < b.toNat) →
        exec (.transactionEnd bytes) s = .next (s.withPort { s.port with
          buffer := match x.source with
            | .ready r => if (responseBytes r).length ≤ x.received.length + bytes.length ∧ s.port.buffer = .ready r
                then .empty else s.port.buffer
            | _ => s.port.buffer
          transaction := none }))) ∧
    (∀ bytes, bytes ≠ [] → s.port.transaction = none → ∀ t, exec (.panelRequest bytes) s = .next t →
      exec (.transactionEnd bytes) s = .next (s.withPort { t.port with transaction := none }))

/-- Supply, RESET, the power-fail warning, RESTART and JOIN_TIMER; the model's own: logs 4, 9, 28, 31,
41, 43, 50, 52, 55, 64, 67, 68, 71 (11_start_up_power_fail_and_restart.md 11.1 (R198), 11.3 (R200), 11.4 (R201,
R202), 11.5 (R203), 11.6 (R204), 11.7 (R207), 10_the_panel_port.md 10.5 (R194), 01_campus_time.md (R6,
R9), 03_the_day_plan.md 3.7 (R69, R70), 04_bells.md (R82), 05_room_clock_circuits.md (R99, R103, R109,
R110, R113), 09_fault_banks_and_notices.md (R175)). Also the model's: a PFW row that sets line, last sample and valid
level at once (log 31) and the dial entry of a circuit that is not IMPULSE (log 52), DESIGN CHOICE; TIME
CHANGE after RESTART (log 50) and the sequence of the first BEACON (log 9), DEDUCED; that a cut impulse
with the midpoint result OPEN counts no failure at RESTART (log 68), and a CODED circuit's frame at the entry
to RUN that begins before the status computation of that entry (log 71), DESIGN CHOICE. -/
def Obligations.SupplyResetHaltAndRestart : Prop :=
  (∀ s : State, let u := startEvent s
      u.start = { State.reset.start with
        station := s.start.straps
        straps := s.start.straps } ∧ u.store = ⟨.reading .image, false⟩ ∧ u.mem = s.mem ∧ u.pending = s.pending ∧
      u.time = State.reset.time ∧ u.line = { State.reset.line with dominant := s.line.dominant } ∧
      u.plan = State.reset.plan ∧ u.bells = State.reset.bells ∧ u.clocks = State.reset.clocks ∧
      u.arb = State.reset.arb ∧ u.synth = State.reset.synth ∧ u.ann = State.reset.ann ∧
      u.drill = State.reset.drill ∧ u.faults = State.reset.faults ∧ u.port = State.reset.port ∧
      u.pins.fa = ⟨s.pins.fa.line, none, none⟩ ∧ u.pins.pfw = ⟨s.pins.pfw.line, none, none⟩ ∧
      (s.start.resetHeld = false → exec .powerOn s = .next u) ∧
      (s.start.resetHeld = true → (∃ t, exec .powerOn s = .next t ∧ t.start.powered = true ∧ alive t = false ∧
        t.start.opState = .start ∧ t.mem = s.mem) ∧
        (s.start.powered = true → exec .resetRelease s = .next u) ∧
        (s.start.powered = false →
          exec .resetRelease s = .next (s.withStart { s.start with resetHeld := false }))) ∧
      (s.start.resetHeld = false → exec .resetRelease s = .next s) ∧
      (∃ t, exec .resetAssert s = .next t ∧ alive t = false ∧ t.start.opState = .start ∧
        t.start.powered = s.start.powered ∧ t.start.resetHeld = true ∧ t.store = ⟨.idle, false⟩ ∧
        t.drill = State.reset.drill ∧ t.arb = State.reset.arb ∧ t.time = State.reset.time ∧
        ((∀ d, s.store.state ≠ .dialWrite d) → t.mem = s.mem)) ∧
      (∃ t, exec .lossOfPower s = .next t ∧ alive t = false ∧
        t.start = { s.start with powered := false } ∧ t.store = ⟨.idle, false⟩ ∧
        ((∀ d, s.store.state ≠ .dialWrite d) → Changes [.start, .store] s t))) ∧
    (∀ s : State, alive s = true → let u := fun b => s.withPins { s.pins with pfw := ⟨b, some b, some b⟩ }
      (s.start.opState = .halt → exec .powerFailWarning s = .next (u true) ∧
        ((∀ d, s.store.state ≠ .dialWrite d) → exec .pfwEnd s = .next (startEvent (u false))) ∧
        (∀ d, s.store.state = .dialWrite d → exec .pfwEnd s =
          .next ((u false).withStart { s.start with startAfterWrite := true }))) ∧
      (s.start.opState ≠ .halt → exec .pfwEnd s = .next (u false) ∧
        ∃ t, exec .powerFailWarning s = .next t ∧ t.start.opState = .halt ∧ t.start.joinDeadline = none ∧
          (∀ c : BellNo, bellOutput t c = false) ∧ (∀ c : ClockNo, impulseDrive t c = none ∧ codeDrive t c = none) ∧
          (∀ z : ZoneNo, zoneGate t z = false ∧ busSelect t z = .a) ∧ pairGate t = false ∧ t.synth.out = 0 ∧
          ntc t = false ∧ t.line.queue = [] ∧ t.line.activity ≠ .sending ∧ t.drill.state = .idle ∧
          t.drill.record = none ∧ t.drill.copies = [] ∧ t.drill.last = s.drill.last ∧
          t.port = State.reset.port ∧ t.faults = { s.faults with taking := false } ∧
          t.pins = (u true).pins ∧ t.mem = s.mem ∧
          t.store = ⟨if s.start.dialRestored then .dialWrite ((List.finRange 4).map fun c : ClockNo =>
            if s.image.clocks[c].kind = .impulse then ⟨true, s.clocks[c].impulse.position,
              s.clocks[c].impulse.polarity, decide (s.clocks[c].impulse.cycle = .impulse)⟩
            else ⟨false, none, .plus, false⟩) else .idle, false⟩)) ∧
    (∀ s : State, alive s = true →
      (s.start.opState = .start → exec .restart s = .next (answered s .busy)) ∧
      (working s = true → ∃ t, exec .restart s = .next t ∧
        (s.port.held = none → t.port = { s.port with
          state := .idle
          buffer := .ready (.done .nothing)
          dispatched := none
          answer := none }) ∧
        (∀ h, s.port.held = some h → t.port = Dispatched { s.port with
          dispatched := none
          held := none
          buffer := .pending
          answer := none } s.start.opState h) ∧ t.start.opState = .join ∧ t.start.station = s.start.station ∧
        t.start.joinDeadline = some (s.time.localCount + BitVec.ofNat 32 (3 * (s.image.beaconPeriod * 1000))) ∧
        t.image = s.image ∧ t.store = s.store ∧ t.mem = s.mem ∧ t.time = { State.reset.time with
          localCount := s.time.localCount } ∧ t.plan = { State.reset.plan with active := s.plan.active } ∧
        t.drill = { State.reset.drill with last := s.drill.last } ∧ t.bells = State.reset.bells ∧
        t.arb = State.reset.arb ∧ t.synth = State.reset.synth ∧ t.ann = State.reset.ann ∧
        t.line.queue = [] ∧ t.line.listenOnly = false ∧ t.line.roster = State.reset.line.roster ∧
        t.pins.fa.valid = none ∧ t.pins.dk.valid = none ∧ t.pins.bb.valid = none ∧ t.pins.ref.valid = none ∧
        t.faults.banks = State.reset.faults.banks ∧
        (∀ k, k ≠ .clockAttention → k ≠ .timeChange → ¬ Pending t k) ∧
        (Pending t .timeChange ↔ s.time.quality ≠ .unset) ∧
        (∀ c : ClockNo, t.clocks[c].coded = CodedRecord.initial ∧ t.clocks[c].impulse.state = .stopped ∧
          t.clocks[c].impulse.cycle = .none ∧ t.clocks[c].impulse.failCount = 0 ∧
          (s.clocks[c].impulse.cycle = .impulse → s.clocks[c].impulse.midpoint = some .delivered →
            t.clocks[c].impulse.position = s.clocks[c].impulse.position.map (fun p => (p + 1) % 720) ∧
            t.clocks[c].impulse.polarity ≠ s.clocks[c].impulse.polarity) ∧
          ((s.clocks[c].impulse.cycle ≠ .impulse ∨ s.clocks[c].impulse.midpoint ≠ some .delivered) →
            t.clocks[c].impulse.position = s.clocks[c].impulse.position ∧
            t.clocks[c].impulse.polarity = s.clocks[c].impulse.polarity)) ∧
        (Pending t .clockAttention ↔ ∃ c : ClockNo, s.image.clocks[c].kind = .impulse ∧
          s.clocks[c].impulse.position = none)) ∧
      (s.start.opState = .join → s.start.joinOvertaken = true →
        deadlineReached s.time.localCount s.start.joinDeadline = false →
        exec .joinTimer s = .next (s.withStart { s.start with joinOvertaken := false })) ∧
      (s.start.opState = .join → (s.start.joinOvertaken = false ∨
          deadlineReached s.time.localCount s.start.joinDeadline = true) →
        ∃ t, exec .joinTimer s = .next t ∧ t.start = { s.start with
          opState := .run
          joinDeadline := none
          joinOvertaken := false } ∧ t.time.ownSeq = s.time.ownSeq + 1 ∧
        t.time.beaconDeadline = some (s.time.localCount + BitVec.ofNat 32 (s.image.beaconPeriod * 1000)) ∧
        t.time.campus = s.time.campus ∧ t.time.quality = s.time.quality ∧ t.time.emptyRounds = s.time.emptyRounds ∧
        t.line.roster = s.line.roster ∧
        (HasRoom s → ∃ c : BeaconContent, c.seq = s.time.ownSeq + 1 ∧ c.quality = s.time.quality ∧
          c.stepCounter = s.time.stepCounter ∧ c.plan = s.plan.active.map (fun a => (a.key, a.digest)) ∧
          c.faults = faultSummary s.faults ∧ Queued t.line (.beacon c)) ∧
        (let reports := fun (q : StationNo) (x : Key) (e : Digest) => q ≠ s.start.station ∧
            s.line.roster[q].present = true ∧ s.line.roster[q].plan = some (x, e)
          let candidate := fun x : Key =>
            (∀ a, s.plan.active = some a → keyNewer x a.key = true) ∧ s.plan.unobtainable ≠ some x
          ((∀ q x e, reports q x e → ¬ candidate x) → t.plan.staging = s.plan.staging) ∧
          ∀ p k d, reports p k d → candidate k → (∀ q x e, q ≠ p → reports q x e →
              (x = k → p < q) ∧ (candidate x → x = k ∨ keyNewer k x = true)) →
            let fetching := t.plan.staging = .fetching ⟨k, d, none, Vector.replicate 41 none,
                s.time.localCount + 10000#32, 1⟩ ∧
              (takesOffers s = true → s.line.queue.length ≤ 10 → Queued t.line (.planreq k (BitVec.allOnes 48)))
            (s.plan.staging = .free → fetching) ∧
            (∀ f, s.plan.staging = .fetching f → (keyNewer k f.target = true → fetching) ∧
              (keyNewer k f.target = false → t.plan.staging = s.plan.staging)) ∧
            (∀ n u, s.plan.staging = .loading n u → t.plan.staging = s.plan.staging)) ∧
        t.bells = { s.bells with
          hwm := if s.time.quality ≠ .unset ∧ s.bells.hwm = none then
            some (s.time.campus.day.toNat * 86400 + s.time.campus.ms / 1000) else s.bells.hwm } ∧
        (∀ c : ClockNo, (s.image.clocks[c].kind = .coded → t.clocks[c].coded = codeNoticed s c
            (currentReading s) (codeStatus s (currentReading s)) (codeStatus s (currentReading s))) ∧
          (s.image.clocks[c].kind = .impulse → t.clocks[c].impulse =
            (evaluate (s.withStart { s.start with opState := .run }) c
              ⟨s.time.campus, decide (s.time.quality ≠ .unset)⟩).clocks[c].impulse)) ∧
        Changes [.start, .time, .line, .plan, .drill, .faults, .bells, .mark, .clocks] s t) ∧
      (s.start.opState ≠ .join → exec .joinTimer s = .next s))

/-- IMAGE_READ, PLAN_RECORD_READ and DIAL_RECORD_READ; FA before the image is judged at the image, the
model's choice (log 40) (11_start_up_power_fail_and_restart.md 11.2 (R199), 11.3 (R200), 11.4 (R201),
05_room_clock_circuits.md 5.6 (R111, R112), 12_formats.md 12.5 (R211)). -/
def Obligations.TheStartSequence : Prop :=
  ∀ (s : State) (failed : Bool), let bytes := fun a n => (List.range n).map fun i => memRead s.mem (a + i)
    ((alive s = false ∨ s.start.opState ≠ .start ∨ s.store.state ≠ .reading .image) →
      exec (.imageRead failed) s = .next s) ∧
    ((alive s = false ∨ s.start.opState ≠ .start ∨ s.store.state ≠ .reading .plan) →
      exec (.planRecordRead failed) s = .next s) ∧
    ((alive s = false ∨ s.start.opState ≠ .start ∨ s.store.state ≠ .reading .dial) →
      exec (.dialRecordRead failed) s = .next s) ∧
    (alive s = true → s.start.opState = .start →
      (s.store.state = .reading .image → ∃ t, exec (.imageRead failed) s = .next t ∧
        t.store.state = .reading .plan ∧ t.faults.taking = true ∧ Changes [.image, .faults, .store, .start, .pins] s t ∧
        (∀ closed, closed = (!t.image.faActiveOpen) →
          t.start = { s.start with
            faClosedSeen := false
            faOpenSeen := false
            faRow := none
            faLatched := s.start.faLatched || (if closed then s.start.faClosedSeen else s.start.faOpenSeen) } ∧
          t.pins = { s.pins with fa := match s.start.faRow with
            | none => s.pins.fa
            | some b => ⟨b == closed, some (b == closed), some (b == closed)⟩ }) ∧
        (∀ i, failed = false → imageOf (bytes 0x0000 40) = some i → t.image = i ∧
          t.faults.banks = s.faults.banks ∧ ImageOk i) ∧
        ((failed = true ∨ imageOf (bytes 0x0000 40) = none) → t.image = Image.builtIn ∧
          (s.faults.banks[bankIndex .output].valid = false →
            t.faults.banks[bankIndex .output].valid = true ∧ t.faults.banks[bankIndex .output].uncorrected = true ∧
            t.faults.banks[bankIndex .output].code = 7 ∧ Pending t .faultRecorded))) ∧
      (s.store.state = .reading .plan → ∃ t, exec (.planRecordRead failed) s = .next t ∧
        t.store.state = .reading .dial ∧ Changes [.plan, .faults, .store] s t ∧
        ((failed = true ∨ planRecordOf (bytes 0x0100 1815) = none) → t.plan = s.plan ∧
          t.faults = (report s (.planRecordBad none)).faults) ∧
        (∀ r, failed = false → planRecordOf (bytes 0x0100 1815) = some r →
          (∀ e, validate (r.frags.map some) (some r.total) (some r.digest) = .error e → t.plan = s.plan ∧
            t.faults = (report s (.planRecordBad (some e))).faults) ∧
          (∀ f, validate (r.frags.map some) (some r.total) (some r.digest) = .ok f → t.faults = s.faults ∧
            t.plan = { s.plan with active := some ⟨r.key, r.digest, r.total, f⟩ }))) ∧
      (s.store.state = .reading .dial → ∃ t, exec (.dialRecordRead failed) s = .next t ∧
        t.store.state = .marking ∧ t.mem = s.mem ∧ t.start.dialRestored = true ∧
        t.start.faLatched = false ∧ t.start.dkLatched = false ∧
        (s.start.faLatched = false → t.start.opState = .join ∧ t.start.joinDeadline =
          some (s.time.localCount + BitVec.ofNat 32 (3 * (s.image.beaconPeriod * 1000)))) ∧
        (s.start.faLatched = true → s.drill.state = .idle → t.start.opState = .run ∧
          t.drill.state = .evacuate ∧ t.drill.record.map (·.kind) = some .real) ∧
        (s.start.faLatched = false → s.start.dkLatched = true → s.drill.state = .idle →
          t.drill.state = .evacuate ∧ t.drill.record.map (·.kind) = some .practice) ∧
        (s.start.faLatched = false → s.start.dkLatched = false → Changes [.start, .line, .clocks, .faults, .store] s t ∧
          ∀ c : ClockNo, s.image.clocks[c].kind = .impulse →
            let entry := fun d : ClockNo =>
              let x : Option DialEntry := if failed then none else
                (dialOf (bytes 0x0040 15)).bind fun l => l[d.val]?
              match x with
              | some e => if e.impulse then some e else none
              | none => none
            let good := entry c
            let p := match good with
              | some e => if e.uncertain then none else e.position
              | none => none
            t.clocks[c].impulse = { ImpulseRecord.initial with
              position := p
              polarity := match good with
                | some e => e.polarity
                | none => .plus } ∧
            (p = none → Taking s → Pending t .clockAttention) ∧
            (∀ e, good = some e → e.uncertain = true → Taking s →
              faultEnabled s.image (.dialUncertain c) = true → t.faults.banks[bankIndex .output].valid = true ∧
                t.faults.banks[bankIndex .output].uncorrected = true ∧
                (s.faults.banks[bankIndex .output].valid = false → (∀ d : ClockNo, d ≠ c →
                    s.image.clocks[d].kind = .impulse → ∀ y, entry d = some y → y.uncertain = false) →
                  t.faults.banks[bankIndex .output].code = 6 ∧
                  t.faults.banks[bankIndex .output].detail = some (.number c.val) ∧
                  Pending t .faultRecorded)))))

/-- MARKING_END, VALID_MARK_CLEARED, PLAN_SAVE_COMPLETE, WRITE_FAILURE, DIAL_WRITE_COMPLETE; the model's
own: logs 1, 16, 17, 41, 75; that a marking which ends by a failure leaves the mark byte as it stood is log 75
(DESIGN CHOICE) (11_start_up_power_fail_and_restart.md 11.3 (R200), 11.7 (R205, R206, R207),
12_formats.md 12.5 (R211)). -/
def Obligations.TheRecordStoreWritesItsRecords : Prop :=
  (∀ s : State, (s.store.state = .idle → working s = true → requestSave s = s.withStore
        ⟨match s.plan.active with | some p => .saving p false | none => .idle, false⟩) ∧
      ((s.store.state = .marking ∨ ∃ p b, s.store.state = .saving p b) →
        requestSave s = s.withStore { s.store with wanted := true })) ∧
    ∀ s : State, alive s = true → s.mem.wf = true →
    let next : RecordStore := ⟨match s.store.wanted, s.plan.active with
      | true, some p => .saving p false
      | _, _ => .idle, false⟩
    let wrote := fun (t : State) (a : Nat) (bs : List Byte) =>
      (∀ i (h : i < bs.length), memRead t.mem (a + i) = bs[i]) ∧
      ∀ b, (b < a ∨ a + bs.length ≤ b) → memRead t.mem b = memRead s.mem b
    (s.store.state = .marking → (∃ t, exec .markingEnd s = .next t ∧ wrote t 0x0040 [0x00] ∧ t.store = next ∧
        Changes [.mem, .store] s t) ∧
      (exec .writeFailure s = .next (s.withStore next))) ∧
    (s.store.state ≠ .marking → exec .markingEnd s = .next s) ∧
    (∀ p b, s.store.state = .saving p b →
      (∃ t, exec .validMarkCleared s = .next t ∧ wrote t 0x0100 [0x00] ∧
        t.store = ⟨.saving p true, s.store.wanted⟩ ∧ Changes [.mem, .store] s t) ∧
      (∃ t, exec .planSaveComplete s = .next t ∧ wrote t 0x0100 (0xA5 :: planRecordBytes p) ∧ t.store = next ∧
        Changes [.mem, .store] s t) ∧
      (exec .writeFailure s = .next ((report s (.planSaveFailed p.key.gen)).withStore next))) ∧
    ((∀ p b, s.store.state ≠ .saving p b) → exec .validMarkCleared s = .next s ∧
      exec .planSaveComplete s = .next s) ∧
    (∀ entries, s.store.state = .dialWrite entries →
      (∃ u, exec .dialWriteComplete s = .next (if s.start.startAfterWrite then startEvent u else u) ∧
        wrote u 0x0040 (0xA5 :: dialBytes entries) ∧ Changes [.mem, .store] s u ∧
        (s.start.startAfterWrite = false → u.store = ⟨.idle, false⟩)) ∧
      (∃ u, exec .writeFailure s = .next (if s.start.startAfterWrite then startEvent u else u) ∧
        (∃ n, wrote u 0x0041 ((dialBytes entries).take n)) ∧ Changes [.mem, .store, .fresh] s u ∧
        u.store = ⟨.idle, false⟩)) ∧
    ((∀ entries, s.store.state ≠ .dialWrite entries) → exec .dialWriteComplete s = .next s)

/-- Every step keeps the configuration memory in canonical form, and only seven commands may change a
byte of it (logs 16, 17, 75, DESIGN CHOICE) (11_start_up_power_fail_and_restart.md 11.7 (R205, R206, R207),
12_formats.md 12.5 (R211)). Which commands may change a byte is the model's choice (DESIGN CHOICE): the
bytes of a plan save land at PLAN_SAVE_COMPLETE and not before it (log 17), those of a dial write cut
short at the cut (log 16), and the marking clears the mark at MARKING_END only (log 75). -/
def Obligations.EveryStepKeepsTheMemoryCanonical : Prop :=
  Keeps (fun s => s.mem.wf = true) ∧
    Keeps (fun s => ∀ entries, s.store.state = .dialWrite entries → entries.length = 4) ∧
    (∀ s t, step s = .next t → (∀ i rest, s.pending = i :: rest → i ≠ .markingEnd ∧ i ≠ .validMarkCleared ∧
        i ≠ .planSaveComplete ∧ i ≠ .writeFailure ∧ i ≠ .dialWriteComplete ∧ i ≠ .resetAssert ∧
        i ≠ .lossOfPower) → ∀ a, memRead t.mem a = memRead s.mem a) ∧
    ∀ s t, s.mem.wf = true → step s = .next t →
      (∀ entries, s.store.state = .dialWrite entries → entries.length = 4) →
      ∀ a, (a < 0x0040 ∨ (0x004E < a ∧ a < 0x0100)) → memRead t.mem a = memRead s.mem a

/-- Every step keeps the property of each part; the high-water mark only moves on, and an uncorrected
record stays, between starts (01_campus_time.md (R4, R15), 02_the_campus_line.md 2.4 (R38), 04_bells.md
(R82, R83, R85), 05_room_clock_circuits.md (R97), 06_zones_and_the_zone_arbiter.md 6.1 (R114), 6.2
(R118), 07_announcements_and_chimes.md (R132), 08_fire_drills_and_alarms.md (R153),
09_fault_banks_and_notices.md (R175, R178), 11_start_up_power_fail_and_restart.md (R199)). -/
def Obligations.EveryStepKeepsThePartsInOrder : Prop :=
  Keeps (fun s => LineOk s.line) ∧ Keeps (fun s => TimeOk s.time) ∧ Keeps (fun s => ArbOk s.arb) ∧
    Keeps (fun s => DrillOk s.drill) ∧ Keeps (fun s => FaultsOk s.faults) ∧ Keeps (fun s => BellsOk s.bells) ∧
    Keeps (fun s => ClocksOk s.clocks) ∧ Keeps (fun s => ImageOk s.image) ∧ Keeps (fun s => AnnOk s.ann) ∧
    ∀ s t : State, step s = .next t →
      (∀ i rest, s.pending = i :: rest → i ≠ .powerOn ∧ i ≠ .resetAssert ∧ i ≠ .resetRelease ∧ i ≠ .pfwEnd ∧
        i ≠ .dialWriteComplete ∧ i ≠ .writeFailure ∧ i ≠ .restart) →
      (∀ h, s.bells.hwm = some h → ∃ n, t.bells.hwm = some n ∧ (n = h ∨ secondLater n h = true)) ∧
      ((∀ n rest, s.pending ≠ .clearBank n :: rest) → RecordsStay s.faults t.faults)

/-- Decoding the payload and the line levels of every kind of campus frame, and the memory records, gives
what was encoded, whatever memory follows a plan record; and the station image that its 40 bytes give
(12_formats.md 12.1, 12.2 (R208), 12.5 (R211), 05_room_clock_circuits.md (R96),
11_start_up_power_fail_and_restart.md 11.2 (R199)). That bit 7 of a bell byte makes the image bad is the model's
reading, log 34 (DEDUCED). -/
def Obligations.FramesAndRecordsDecodeToWhatWasEncoded : Prop :=
  (∀ c : BeaconContent, (∀ t, c.prevMark = some t → t.ms < dayMs) → (∀ d, c.drill = some d → d.start.ms < dayMs) →
      lengthAllowed .beacon (payloadBytes (.beacon c)) = true ∧ beaconOf (payloadBytes (.beacon c)) = some c) ∧
    (∀ (k : Key) (d : Int), -140737488355328 ≤ d → d < 140737488355328 →
      lengthAllowed .settime (payloadBytes (.settime k d)) = true ∧
      settimeOf (payloadBytes (.settime k d)) = some (k, d)) ∧
    (∀ c : AnnContent, c.start.ms < dayMs → postInRange c.post = true →
      lengthAllowed .announce (payloadBytes (.announce c)) = true ∧
      announceOf (payloadBytes (.announce c)) = some c) ∧
    (∀ (q : Byte) (t : CampusTime), t.ms < dayMs → lengthAllowed .annend (payloadBytes (.annend q t)) = true ∧
      annendOf (payloadBytes (.annend q t)) = some (q, t)) ∧
    (∀ (k : Key) (i n : Nat) (content : List Byte), i < 256 → n < 256 → 1 ≤ content.length → content.length ≤ 43 →
      lengthAllowed .plan (payloadBytes (.plan k i n content)) = true ∧
      planFrameOf (payloadBytes (.plan k i n content)) = some ⟨k, i, n, content⟩) ∧
    (∀ (k : Key) (m : FragmentMask), lengthAllowed .planreq (payloadBytes (.planreq k m)) = true ∧
      planreqOf (payloadBytes (.planreq k m)) = some (k, m)) ∧
    (∀ c : DrillContent, c.start.ms < dayMs → (∀ t, c.stop = some t → t.ms < dayMs) →
      (∀ e, c.cleared = some e → e < 4294967296) →
      lengthAllowed .drill (drillPayload 0 (payloadBytes (.drillState c))) = true ∧
      drillStateFrameOf (payloadBytes (.drillState c)) = some c) ∧
    (∀ (i : Id) (t : CampusTime) (o : DrillOutcome) (copy : Bool), t.ms < dayMs →
      lengthAllowed .drill (drillPayload 1 (payloadBytes (.drillEnd i t o copy))) = true ∧
      endFrameOf (payloadBytes (.drillEnd i t o copy)) = some ⟨i, t, o⟩) ∧
    (∀ (p : StationNo) (b : FrameBody), lengthAllowed (bodyKind b) (payloadBytes b) = true →
      frameLevels p b = List.replicate 20 true ++ (frameLevels p b).drop 20 ∧
      receivedRow ((frameLevels p b).drop 20) = some (match b with
        | .beacon _ => .beacon p (payloadBytes b)
        | .settime _ _ => .settime p (payloadBytes b)
        | .announce _ => .announceFrame p (payloadBytes b)
        | .annend _ _ => .annend p (payloadBytes b)
        | .plan _ _ _ _ => .plan p (payloadBytes b)
        | .planreq _ _ => .planreq p (payloadBytes b)
        | .drillState _ => .drillStateFrame p (payloadBytes b)
        | .drillEnd _ _ _ _ => .endFrame p (payloadBytes b))) ∧
    (∀ entries : List DialEntry, entries.length = 4 → (∀ e ∈ entries, ∀ p, e.position = some p → p < 720) →
      dialOf (markSet :: dialBytes entries) = some entries) ∧
    (∀ (p : ActivePlan) (after : List Byte), p.total = p.frags.length → p.total < 256 →
      (∀ f ∈ p.frags, f.length < 256) →
      planRecordOf (markSet :: planRecordBytes p ++ after) = some ⟨p.key, p.digest, p.total, p.frags⟩) ∧
    (∀ bs : List Byte, bs.length = 40 → let at_ := fun i : Nat => (bs[i]?.getD 0).toNat
      let len := fun c : ClockNo => at_ (7 + 4 * c.val) * 256 + at_ (8 + 4 * c.val)
      let good := bs.drop 38 = checkBytes (bs.take 38) ∧ (∀ i, i < 6 → at_ i % 4 ≤ 2 ∧ at_ i / 16 ≤ 7) ∧
        (∀ c : ClockNo, at_ (6 + 4 * c.val) ≤ 2 ∧ (at_ (6 + 4 * c.val) = 1 →
          500 ≤ len c ∧ len c ≤ 2000 ∧ len c % 100 = 0 ∧ at_ (9 + 4 * c.val) ≤ 120)) ∧
        1 ≤ at_ 22 ∧ at_ 22 ≤ 8 ∧ 1 ≤ at_ 23 ∧ at_ 23 ≤ 8 ∧ at_ 24 ≤ 1 ∧
        (∀ i, i < 6 → at_ (25 + i) / 16 ≤ 7 ∧ at_ (25 + i) % 16 ≤ 7) ∧ 1 ≤ at_ 31 ∧ at_ 31 ≤ 7
      (¬ good → imageOf bs = none) ∧
      (good → ∃ img, imageOf bs = some img ∧
        (∀ i : BellNo, img.bells[i].kind = ([.absent, .relay, .tone] : List BellKind).getD (at_ i.val % 4) .absent ∧
          img.bells[i].alarmCapable = (at_ i.val).testBit 2 ∧ img.bells[i].button = (at_ i.val).testBit 3 ∧
          img.bells[i].zone.val = at_ i.val / 16) ∧
        (∀ c : ClockNo, img.clocks[c] = ⟨([.absent, .impulse, .coded] : List ClockKind).getD (at_ (6 + 4 * c.val))
          .absent, len c, at_ (9 + 4 * c.val)⟩) ∧
        img.zoneCount = at_ 22 ∧ img.beaconPeriod = at_ 23 ∧ (img.faActiveOpen = true ↔ at_ 24 = 1) ∧
        (∀ k : Fin 12, img.levels[k] = if k.val % 2 = 0 then at_ (25 + k.val / 2) / 16
          else at_ (25 + k.val / 2) % 16) ∧
        img.threshold = at_ 31 ∧ ∀ i : Fin 6, (img.enables[i]).toNat = at_ (32 + i.val)))
end

