-- ==== Sys2Proof/Laws/Parts.lean ====
section
/-! SUPPORT. The properties of the parts of State, kept by the operations on one part: fault banks, transmit
queue, Time Unit, ended drills, dials. -/

namespace Sys2Proof.Laws

open Sys2Proof Sys2Proof.Machine

/-! ## Vectors -/

theorem vector_set_at {α : Type} {n : Nat} (v : Vector α n) (i j : Fin n) (x : α) :
    (v.set i x)[j] = if i = j then x else v[j] := by
  simp only [Fin.getElem_fin, Vector.getElem_set]
  by_cases h : i = j <;> simp [h]
  · intro h'; exact absurd (Fin.ext h') h

/-! ## Parts that agree in what their property reads -/

theorem lineOk_same {a b : LineUnit} (h : b.queue = a.queue) (k : LineOk a) : LineOk b := by
  unfold LineOk
  rw [h]
  exact k

theorem timeOk_same {a b : TimeUnit} (h1 : b.campus = a.campus) (h2 : b.label = a.label)
    (h3 : b.emptyRounds = a.emptyRounds) (k : TimeOk a) : TimeOk b := by
  unfold TimeOk
  rw [h1, h2, h3]
  exact k

theorem drillOk_same {a b : DrillUnit} (h : b.ended = a.ended) (k : DrillOk a) : DrillOk b := by
  unfold DrillOk
  rw [h]
  exact k

theorem bellsOk_same {a b : BellUnit} (h1 : b.drillCount = a.drillCount) (h2 : b.quietCount = a.quietCount)
    (k : BellsOk a) : BellsOk b := by
  unfold BellsOk
  rw [h1, h2]
  exact k

/-! ## Fault banks -/

/-- Records that are not touched stay. -/
theorem recordsStay_refl (f : FaultUnit) : RecordsStay f f := fun _ v u => ⟨v, u, rfl, rfl, rfl⟩

theorem recordsStay_trans {f g h : FaultUnit} (a : RecordsStay f g) (b : RecordsStay g h) : RecordsStay f h :=
  fun i v u => by
    obtain ⟨v1, u1, c1, d1, t1⟩ := a i v u
    obtain ⟨v2, u2, c2, d2, t2⟩ := b i v1 u1
    exact ⟨v2, u2, c2.trans c1, d2.trans d1, t2.trans t1⟩

theorem bankTake_ok (b : Bank) (r : Reading) (c : FaultCode) (h : BankOk b) : BankOk (bankTake b r c) := by
  obtain ⟨h1, h2⟩ := h
  unfold bankTake
  dsimp only
  cases hv : b.valid <;> cases hu : b.uncorrected <;> cases hc : faultUncorrected c <;>
    (constructor <;> simp_all)

theorem faultsRaise_ok (f : FaultUnit) (k : NoticeKind) (h : FaultsOk f) : FaultsOk (faultsRaise f k) := by
  unfold faultsRaise
  split <;> exact h

theorem setBank_ok (f : FaultUnit) (i : Fin 6) (b : Bank) (h : FaultsOk f) (hb : BankOk b) :
    FaultsOk { f with banks := f.banks.set i b } := by
  intro j
  show BankOk ((f.banks.set i b)[j])
  rw [vector_set_at]
  split
  · exact hb
  · exact h j

theorem faultsReport_ok (f : FaultUnit) (img : Image) (r : Reading) (c : FaultCode) (h : FaultsOk f) :
    FaultsOk (faultsReport f img r c) := by
  unfold faultsReport
  dsimp only
  have hs := setBank_ok f (bankIndex (faultBank c)) _ h (bankTake_ok _ r c (h (bankIndex (faultBank c))))
  split
  · split
    · exact faultsRaise_ok _ _ hs
    · exact hs
  · exact h

/-- A corrected fault, taken where its code is enabled, and the bank as it was where it is not (R176, R177, R179). -/
theorem report_corrected (s : State) (f : FaultCode) (t : Taking s) (u : faultUncorrected f = false) :
    (report s f).faults.banks[bankIndex (faultBank f)] = if faultEnabled s.image f = true then
      corrected s.faults.banks[bankIndex (faultBank f)] (faultNumber f) (faultDetail f)
        (if s.time.quality = .unset then none else some s.time.campus)
    else s.faults.banks[bankIndex (faultBank f)] := by
  have ht : s.faults.taking = true := t
  have hb : bankTake s.faults.banks[bankIndex (faultBank f)] (currentReading s) f =
      corrected s.faults.banks[bankIndex (faultBank f)] (faultNumber f) (faultDetail f)
        (if s.time.quality = .unset then none else some s.time.campus) := by
    simp only [bankTake, u, corrected, currentReading]
    cases s.faults.banks[bankIndex (faultBank f)].valid <;> by_cases q : s.time.quality = .unset <;> simp [q]
  show (faultsReport s.faults s.image (currentReading s) f).banks[_] = _
  by_cases e : faultEnabled s.image f = true
  · simp only [faultsReport, ht, e, Bool.and_self, if_true, hb, faultsRaise]
    split <;> simp
  · simp [faultsReport, e]

/-- A fault leaves an uncorrected record as it is (R177, R178). -/
theorem bankTake_stays (b : Bank) (r : Reading) (c : FaultCode) (v : b.valid = true) (u : b.uncorrected = true) :
    (bankTake b r c).valid = true ∧ (bankTake b r c).uncorrected = true ∧ (bankTake b r c).code = b.code ∧
      (bankTake b r c).detail = b.detail ∧ (bankTake b r c).time = b.time := by
  unfold bankTake
  simp only [v, u, Bool.not_true, Bool.false_eq_true, if_false]
  split <;> exact ⟨rfl, rfl, rfl, rfl, rfl⟩

theorem faultsRaise_stays (f : FaultUnit) (k : NoticeKind) : RecordsStay f (faultsRaise f k) := by
  unfold faultsRaise
  split <;> exact recordsStay_refl f

theorem faultsReport_stays (f : FaultUnit) (img : Image) (r : Reading) (c : FaultCode) :
    RecordsStay f (faultsReport f img r c) := by
  have hs (x : Fin 6) : RecordsStay f { f with banks := f.banks.set x (bankTake f.banks[x] r c) } := by
    intro i v u
    show ((f.banks.set _ _)[i]).valid = true ∧ ((f.banks.set _ _)[i]).uncorrected = true ∧
      ((f.banks.set _ _)[i]).code = _ ∧ ((f.banks.set _ _)[i]).detail = _ ∧ ((f.banks.set _ _)[i]).time = _
    rw [vector_set_at]
    split
    · rename_i h
      subst h
      exact bankTake_stays _ r c v u
    · exact ⟨v, u, rfl, rfl, rfl⟩
  unfold faultsReport
  dsimp only
  split
  · split
    · exact recordsStay_trans (hs _) (faultsRaise_stays _ _)
    · exact hs _
  · exact recordsStay_refl f

theorem emptyBank_ok : BankOk Bank.empty := ⟨fun _ => rfl, by decide⟩

/-! ## Transmit queue -/

/-- The relation of queuedBefore depends on the sorts of the frames only. -/
def sameShape (a b : FrameBody) : Prop := bodyClass a = bodyClass b ∧ ∀ x, sameSort a x = sameSort b x ∧ sameSort x a = sameSort x b

theorem sameSort_shape {a b : FrameBody} (h : sameSort a b = true) : sameShape a b := by
  cases a <;> cases b <;> simp [sameSort] at h <;>
    exact ⟨rfl, fun x => by cases x <;> exact ⟨rfl, rfl⟩⟩

theorem sameSort_symm (a b : FrameBody) : sameSort a b = sameSort b a := by
  cases a <;> cases b <;> rfl

/-- A map that keeps each frame's shape keeps the queue's property. -/
theorem pairwise_map_shape {q : List TxEntry} {f : TxEntry → TxEntry}
    (k : ∀ e, sameShape e.body (f e).body) (h : q.Pairwise queuedBefore) :
    (q.map f).Pairwise queuedBefore := by
  rw [List.pairwise_map]
  refine h.imp ?_
  intro a b ⟨h1, h2⟩
  obtain ⟨ca, ka⟩ := k a
  obtain ⟨cb, kb⟩ := k b
  exact ⟨by rw [← ca, ← cb]; exact h1, by rw [← (kb (f a).body).2, ← (ka b.body).1]; exact h2⟩

theorem sameShape_refl (b : FrameBody) : sameShape b b := ⟨rfl, fun _ => ⟨rfl, rfl⟩⟩

theorem replaceSort_ok (l : LineUnit) (b : FrameBody) (h : LineOk l) :
    LineOk { l with queue := replaceSort l.queue b } := by
  refine ⟨by simpa [replaceSort] using h.1, pairwise_map_shape ?_ h.2⟩
  intro e
  by_cases hs : sameSort b e.body
  · rw [if_pos hs]
    exact sameSort_shape ((sameSort_symm _ _).trans hs)
  · rw [if_neg hs]
    exact sameShape_refl _

theorem queue_sublist_ok (l : LineUnit) (q : List TxEntry) (hq : q.Sublist l.queue) (h : LineOk l) :
    LineOk { l with queue := q } :=
  ⟨Nat.le_trans hq.length_le h.1, h.2.sublist hq⟩

theorem takeWhile_class {q : List TxEntry} (n : Nat) :
    ∀ x ∈ q.takeWhile (fun x => decide (bodyClass x.body ≤ n)), bodyClass x.body ≤ n := by
  induction q with
  | nil => intro x hx; exact absurd hx (by simp)
  | cons y q ih =>
    intro x hx
    by_cases hy : bodyClass y.body ≤ n
    · simp only [List.takeWhile_cons, decide_eq_true hy, ite_true, List.mem_cons] at hx
      rcases hx with rfl | hx
      · exact hy
      · exact ih x hx
    · simp [hy] at hx

theorem dropWhile_class {q : List TxEntry} (n : Nat) (h : q.Pairwise queuedBefore) :
    ∀ x ∈ q.dropWhile (fun x => decide (bodyClass x.body ≤ n)), n ≤ bodyClass x.body := by
  induction q with
  | nil => intro x hx; exact absurd hx (by simp)
  | cons y q ih =>
    intro x hx
    obtain ⟨h1, h2⟩ := List.pairwise_cons.mp h
    by_cases hy : bodyClass y.body ≤ n
    · simp only [List.dropWhile_cons, decide_eq_true hy, ite_true] at hx
      exact ih h2 x hx
    · simp only [List.dropWhile_cons, decide_eq_false hy, Bool.false_eq_true, ite_false,
        List.mem_cons] at hx
      rcases hx with rfl | hx
      · omega
      · have := (h1 x hx).1; omega

theorem queueInsert_length (q : List TxEntry) (e : TxEntry) : (queueInsert q e).length = q.length + 1 := by
  unfold queueInsert
  have := congrArg List.length
    (List.takeWhile_append_dropWhile (p := fun x => decide (bodyClass x.body ≤ bodyClass e.body)) (l := q))
  simp only [List.length_append, List.length_cons] at this ⊢
  omega

theorem queueInsert_pairwise (q : List TxEntry) (e : TxEntry) (h : q.Pairwise queuedBefore)
    (k : ∀ x ∈ q, sameSort x.body e.body = false) : (queueInsert q e).Pairwise queuedBefore := by
  unfold queueInsert
  have split := List.takeWhile_append_dropWhile
    (p := fun x => decide (bodyClass x.body ≤ bodyClass e.body)) (l := q)
  have hp := h
  rw [← split, List.pairwise_append] at hp
  obtain ⟨hp1, hp2, hp3⟩ := hp
  rw [List.pairwise_append]
  refine ⟨hp1, ?_, ?_⟩
  · rw [List.pairwise_cons]
    refine ⟨?_, hp2⟩
    intro x hx
    refine ⟨dropWhile_class _ h x hx, ?_⟩
    rw [sameSort_symm]
    exact k x (by rw [← split]; exact List.mem_append_right _ hx)
  · intro a ha b hb
    rcases List.mem_cons.mp hb with rfl | hb
    · exact ⟨takeWhile_class _ a ha, k a (by rw [← split]; exact List.mem_append_left _ ha)⟩
    · exact hp3 a ha b hb

theorem eraseLast_sublist {α : Type} (p : α → Bool) (l : List α) : (eraseLast p l).Sublist l := by
  unfold eraseLast
  have := (List.eraseP_sublist (p := p) (l := l.reverse)).reverse
  simpa using this

theorem eraseLast_length {α : Type} {p : α → Bool} {l : List α} {a : α} (h : l.reverse.find? p = some a) :
    (eraseLast p l).length = l.length - 1 := by
  unfold eraseLast
  have hm := List.mem_of_find?_eq_some h
  have hp := List.find?_some h
  simp [List.length_eraseP_of_mem hm hp]

theorem offerNew_ok (l : LineUnit) (b : FrameBody) (h : LineOk l)
    (k : ∀ x ∈ l.queue, sameSort x.body b = false) : LineOk (offerNew l b).line := by
  unfold offerNew
  split
  · rename_i hl
    exact ⟨by show (queueInsert _ _).length ≤ 12; rw [queueInsert_length]; exact hl,
      queueInsert_pairwise _ _ h.2 k⟩
  · split
    · rename_i e he
      have hs := eraseLast_sublist (evictable b) l.queue
      refine ⟨?_, queueInsert_pairwise _ _ (h.2.sublist hs) (fun x hx => k x (hs.subset hx))⟩
      show (queueInsert _ _).length ≤ 12
      rw [queueInsert_length, eraseLast_length he]
      have := h.1
      have hm := List.mem_of_find?_eq_some he
      have : 0 < l.queue.length := List.length_pos_of_mem (List.mem_reverse.mp hm)
      omega
    · exact h

theorem plan_sameSort (x : FrameBody) (a : ActivePlan) (i : Nat) : sameSort x (planBody a i) = false := by
  cases x <;> rfl

theorem setHold_ok (l : LineUnit) (b : FrameBody) (x : Option FrameBody) (h : LineOk l) :
    LineOk (setHold l b x) := by
  cases b <;> exact h

theorem lineOffer_ok (l : LineUnit) (b : FrameBody) (h : LineOk l) : LineOk (lineOffer l b).line := by
  unfold lineOffer
  split
  · split
    · exact setHold_ok l b _ h
    · exact replaceSort_ok l b h
  · rename_i hn
    refine offerNew_ok l b h ?_
    intro x hx
    have := List.find?_eq_none.mp hn x hx
    rw [sameSort_symm]
    simpa using this

theorem withoutFlight_ok (l : LineUnit) (h : LineOk l) :
    LineOk { l with queue := withoutFlight l.queue } :=
  queue_sublist_ok l _ (List.eraseP_sublist) h

theorem failFlight_shape (e : TxEntry) :
    sameShape e.body (if e.inFlight then { e with attempts := e.attempts + 1, inFlight := false } else e).body := by
  split <;> exact sameShape_refl _

theorem filterQueue_ok (l : LineUnit) (p : TxEntry → Bool) (h : LineOk l) :
    LineOk { l with queue := l.queue.filter p } := queue_sublist_ok l _ List.filter_sublist h

theorem emptyQueue_ok (l : LineUnit) : LineOk (emptyQueue l) := ⟨Nat.zero_le _, List.Pairwise.nil⟩

theorem beginAttempt_ok (l : LineUnit) (h : LineOk l) : LineOk (beginAttempt l) := by
  unfold beginAttempt
  split
  · exact h
  · rename_i e rest hq
    obtain ⟨h1, h2⟩ := h
    rw [hq] at h1 h2
    refine ⟨h1, ?_⟩
    show List.Pairwise queuedBefore ({ e with inFlight := true } :: rest)
    rw [List.pairwise_cons] at h2 ⊢
    exact h2

/-! ## Time Unit -/

theorem campusAdd_ms (t : CampusTime) (d : Int) : (campusAdd t d).ms < dayMs := by
  show ((((t.ms : Int) + d) % 86400000).toNat) < 86400000
  have h1 := Int.emod_nonneg ((t.ms : Int) + d) (b := 86400000) (by decide)
  have h2 := Int.emod_lt_of_pos ((t.ms : Int) + d) (b := 86400000) (by decide)
  omega

theorem msTick_ok (t : TimeUnit) (h : TimeOk t) : TimeOk (msTick t) := ⟨campusAdd_ms _ _, h.2.1, h.2.2⟩

theorem steppedTime_ok (t : TimeUnit) (c : Int) (h : TimeOk t) : TimeOk (steppedTime t c) :=
  ⟨campusAdd_ms _ _, h.2.1, h.2.2⟩

theorem applyKey_ok (t : TimeUnit) (k : Key) (d : Int) (h : TimeOk t) : TimeOk (applyKey t k d) := h

theorem takeCarriedKey_ok (t : TimeUnit) (k : Option Key) (h : TimeOk t) : TimeOk (takeCarriedKey t k) := by
  unfold takeCarriedKey
  split
  · exact h
  · split
    · split <;> exact h
    · exact h

theorem applyPending_ok (t : TimeUnit) (c : Int) (h : TimeOk t) : TimeOk (applyPending t c) := by
  unfold applyPending
  split <;> exact h

theorem toldSettime_ok (t : TimeUnit) (k : Key) (o : TxOutcome) (h : TimeOk t) :
    TimeOk (toldSettime t k o) := by
  unfold toldSettime
  split
  · exact h
  · split
    · split <;> exact h
    · exact h

theorem roundCount_le (n : Nat) (e : Bool) : roundCount n e ≤ 5 := by
  unfold roundCount
  split <;> omega

theorem recordSent_ok (t : TimeUnit) (b : FrameBody) (h : TimeOk t) : TimeOk (recordSent t b) := by
  unfold recordSent
  split <;> exact h

/-! ## Drill Unit -/

theorem addEnded_length (l : List EndedDrill) (e : EndedDrill) (h : l.length ≤ 4) :
    (addEnded l e).length ≤ 4 := by
  unfold addEnded endedMax
  split
  · exact h
  · rw [List.length_append]
    split
    · simp only [List.length_drop, List.length_cons, List.length_nil]; omega
    · simp only [List.length_cons, List.length_nil]; omega

/-! ## Clock Unit -/

/-- A circuit replaced by one whose known position is a minute of the dial. -/
theorem setClock_ok (v : Vector ClockCircuit 4) (c : ClockNo) (x : ClockCircuit) (h : ClocksOk v)
    (k : ∀ p, x.impulse.position = some p → p < 720) : ClocksOk (v.set c x) := by
  intro d p hp
  rw [vector_set_at] at hp
  split at hp
  · exact k p hp
  · exact h d p hp

theorem delivered_ok (r : ImpulseRecord) : ∀ p, (delivered r).position = some p → p < 720 := by
  intro p hp
  unfold delivered at hp
  cases h : r.position with
  | none => simp [h] at hp
  | some q => simp [h] at hp; omega

theorem evaluated_position (r : ImpulseRecord) (cfg : ClockConfig) (now : Count) (run : Bool) (t : Reading) :
    (evaluated r cfg now run t).position = r.position := by
  unfold evaluated
  split
  · rfl
  · split
    · rename_i h; exact h.symm ▸ rfl
    · dsimp only
      split
      · split <;> rfl
      · rfl

/-! ## Announcement table -/

theorem annOk_same {a b : AnnUnit} (h1 : b.table = a.table) (h2 : b.live = a.live) (k : AnnOk a) : AnnOk b := by
  unfold AnnOk isLiveRecord
  rw [h1, h2]
  exact k

/-- No LIVE entry stands in the table. -/
theorem liveEntry_none {a : AnnUnit} : liveEntry a = none ↔
    ∀ (i : TablePos) (e : AnnEntry), a.table[i] = some e → isLive e.kind = false := by
  unfold liveEntry
  rw [List.find?_eq_none]
  constructor
  · intro h i e he
    have := h i (List.mem_finRange i)
    simpa [he] using this
  · intro h i _
    cases he : a.table[i] with
    | none => simp
    | some e => simp [h i e he]

/-- Without a LIVE entry every record is as R132 says. -/
theorem annOk_of_none {a : AnnUnit} (h : liveEntry a = none) : AnnOk a := by
  have h := liveEntry_none.mp h
  refine ⟨fun i e he l => ?_, fun i j d e hd _ l _ => ?_⟩
  · rw [h i e he] at l
    cases l
  · rw [h i d hd] at l
    cases l

/-- A position set to no entry, or to an entry that is the live record's where it is LIVE and the only one. -/
theorem annOk_set {a : AnnUnit} (i : TablePos) (x : Option AnnEntry) (k : ∀ e, x = some e → isLive e.kind = true →
      isLiveRecord a e.id e.start = true ∧
        ∀ (j : TablePos) (d : AnnEntry), j ≠ i → a.table[j] = some d → isLive d.kind = false)
    (h : AnnOk a) : AnnOk { a with table := a.table.set i x } := by
  have at_ (j : TablePos) : ({ a with table := a.table.set i x } : AnnUnit).table[j] = if i = j then x else a.table[j] :=
    vector_set_at a.table i j x
  refine ⟨fun j e he l => ?_, fun j m d e hd he ld le => ?_⟩
  · rw [at_] at he
    split at he
    · exact (k e he l).1
    · exact h.1 j e he l
  · rw [at_] at hd he
    split at hd <;> split at he
    · simp_all
    · rename_i hj hm
      have := (k d hd ld).2 m e (fun x => hm x.symm) he
      rw [this] at le; cases le
    · rename_i hj hm
      have := (k e he le).2 j d (fun x => hj x.symm) hd
      rw [this] at ld; cases ld
    · exact h.2 j m d e hd he ld le

/-- A position that becomes free. -/
theorem annOk_free {a : AnnUnit} (i : TablePos) (h : AnnOk a) : AnnOk { a with table := a.table.set i none } :=
  annOk_set i none (fun _ h => by cases h) h

/-- An entry replaced by one of the same announcement and kind. -/
theorem annOk_replace {a : AnnUnit} {i : TablePos} {d e : AnnEntry} (hd : a.table[i] = some d) (h1 : e.id = d.id)
    (h2 : e.start = d.start) (h3 : isLive e.kind = isLive d.kind) (h : AnnOk a) :
    AnnOk { a with table := a.table.set i (some e) } :=
  annOk_set i (some e) (fun f hf l => by
    cases hf
    rw [h3] at l
    refine ⟨by rw [h1, h2]; exact h.1 i d hd l, fun j g hj hg => ?_⟩
    by_contra hl
    exact hj (h.2 j i g d hg hd (by simpa using hl) l)) h

/-- The record dropped where no LIVE entry stands. -/
theorem annOk_live {a : AnnUnit} (x : Option LiveRecord) (h : liveEntry a = none) : AnnOk { a with live := x } :=
  annOk_of_none (a := { a with live := x }) h

end Sys2Proof.Laws
end

