-- ==== Sys2Proof/Laws/Arbiter.lean ====
section
/-! SUPPORT. The Zone Arbiter: what its operations do to the statuses, holders and waiting lists, and that each
keeps ArbOk. -/

namespace Sys2Proof.Laws

open Sys2Proof Sys2Proof.Machine

/-- The level of a slot's claim. -/
def lev (a : Arbiter) (k : SlotNo) : Option ClaimLevel := (claimIn a k).map (·.level)

theorem slotRank_lev {a b : Arbiter} {k : SlotNo} (h : lev b k = lev a k) : slotRank b k = slotRank a k := by
  unfold lev at h
  unfold slotRank
  cases ha : claimIn a k <;> cases hb : claimIn b k <;> simp_all

/-! ## The primitives -/

theorem claimIn_setClaim (a : Arbiter) (slot : SlotNo) (c : Option Claim) (k : SlotNo) :
    claimIn (setClaim a slot c) k = if slot = k then c else claimIn a k := by
  unfold claimIn setClaim
  dsimp only
  rw [vector_set_at]
  split <;> rfl

theorem statusOf_setStatus (a : Arbiter) (slot : SlotNo) (r : ResNo) (st : ResStatus) (k : SlotNo) (q : ResNo) :
    statusOf (setStatus a slot r st) k q =
      if slot = k ∧ r = q ∧ (claimIn a slot).isSome then st else statusOf a k q := by
  unfold setStatus
  cases hc : claimIn a slot with
  | none => simp
  | some c =>
    unfold statusOf
    rw [claimIn_setClaim]
    by_cases h : slot = k
    · subst h
      simp only [ite_true, hc]
      rw [vector_set_at]
      simp
    · simp [h]

theorem lev_setStatus (a : Arbiter) (slot : SlotNo) (r : ResNo) (st : ResStatus) (k : SlotNo) :
    lev (setStatus a slot r st) k = lev a k := by
  unfold setStatus
  cases hc : claimIn a slot with
  | none => rfl
  | some c =>
    unfold lev
    rw [claimIn_setClaim]
    by_cases h : slot = k
    · subst h; simp [hc]
    · simp [h]

theorem res_setStatus (a : Arbiter) (slot : SlotNo) (r : ResNo) (st : ResStatus) :
    (setStatus a slot r st).res = a.res := by
  unfold setStatus
  split <;> rfl

theorem res_setRes (a : Arbiter) (r : ResNo) (x : Resource) (q : ResNo) :
    (setRes a r x).res[q] = if r = q then x else a.res[q] := vector_set_at _ _ _ _

theorem isSome_of_lev {a b : Arbiter} {k : SlotNo} (h : lev b k = lev a k) :
    (claimIn b k).isSome = (claimIn a k).isSome := by
  have := congrArg Option.isSome h
  simpa [lev] using this

theorem claim_of_status {a : Arbiter} {k : SlotNo} {r : ResNo} (h : statusOf a k r ≠ .notAsked) :
    (claimIn a k).isSome = true := by
  unfold statusOf at h
  cases hc : claimIn a k with
  | none => simp [hc] at h
  | some c => rfl

/-! ## The property -/

theorem resOk_congr {a b : Arbiter} {r : ResNo} (h : ResOk a r) (h1 : b.res[r] = a.res[r])
    (h2 : ∀ k, statusOf b k r = statusOf a k r)
    (h3 : ∀ k ∈ a.res[r].waiting, slotRank b k = slotRank a k) : ResOk b r where
  holding k := by rw [h1, h2]; exact h.holding k
  waiting k := by rw [h1, h2]; exact h.waiting k
  nodup := by rw [h1]; exact h.nodup
  length := by rw [h1]; exact h.length
  free := by rw [h1]; exact h.free
  sorted := by
    rw [h1]
    refine (List.pairwise_iff_forall_sublist).mpr ?_
    intro v w hs
    have := (List.pairwise_iff_forall_sublist).mp h.sorted hs
    rw [h3 v (hs.subset (by simp)), h3 w (hs.subset (by simp))]
    exact this
  urgent k hk := by
    rw [h1] at hk
    rw [h3 k hk]
    exact h.urgent k hk

theorem levels_congr {a b : Arbiter} (h : ∀ k, lev b k = lev a k)
    (k : ∀ k c, claimIn a k = some c → c.level = .alarm → k = drillSlot) :
    ∀ k c, claimIn b k = some c → c.level = .alarm → k = drillSlot := by
  intro j c hc hl
  have := h j
  unfold lev at this
  rw [hc] at this
  cases hd : claimIn a j with
  | none => simp [hd] at this
  | some d =>
    simp [hd] at this
    exact k j d hd (by rw [← this]; exact hl)

/-- An operation on one resource: the others are as before. -/
theorem arbOk_one {a b : Arbiter} {r : ResNo} (h : ArbOk a) (h1 : ∀ q, q ≠ r → b.res[q] = a.res[q])
    (h2 : ∀ k q, q ≠ r → statusOf b k q = statusOf a k q) (h3 : ∀ k, lev b k = lev a k)
    (hr : ResOk b r) : ArbOk b := by
  refine ⟨fun q => ?_, levels_congr h3 h.2⟩
  by_cases hq : q = r
  · subst hq; exact hr
  · exact resOk_congr (h.1 q) (h1 q hq) (fun k => h2 k q hq) (fun k _ => slotRank_lev (h3 k))

/-- Two arbiters with the same records, statuses and levels. -/
theorem arbOk_same {a b : Arbiter} (h : ArbOk a) (h1 : b.res = a.res)
    (h2 : ∀ k q, statusOf b k q = statusOf a k q) (h3 : ∀ k, lev b k = lev a k) : ArbOk b :=
  ⟨fun q => resOk_congr (h.1 q) (by rw [h1]) (fun k => h2 k q) (fun k _ => slotRank_lev (h3 k)), levels_congr h3 h.2⟩

theorem notify_ok {a : Arbiter} {slot : SlotNo} {r : ResNo} {k : ClaimNoticeKind} (h : ArbOk a) :
    ArbOk (notify a slot r k) := arbOk_same h rfl (fun _ _ => rfl) fun _ => rfl

theorem dropNotice_ok {a : Arbiter} {slot : SlotNo} (h : ArbOk a) : ArbOk (dropNotice a slot) :=
  arbOk_same h rfl (fun _ _ => rfl) fun _ => rfl

/-! ## Requests -/

theorem mem_insertWaiter (a : Arbiter) (slot k : SlotNo) (l : List SlotNo) :
    k ∈ insertWaiter a slot l ↔ k = slot ∨ k ∈ l := by
  unfold insertWaiter
  have := List.takeWhile_append_dropWhile (p := fun w => decide (slotRank a w ≤ slotRank a slot)) (l := l)
  conv => rhs; rw [← this]
  simp only [List.mem_append, List.mem_cons]
  tauto

theorem insertWaiter_perm (a : Arbiter) (slot : SlotNo) (l : List SlotNo) :
    (insertWaiter a slot l).Perm (slot :: l) := by
  unfold insertWaiter
  have := List.takeWhile_append_dropWhile (p := fun w => decide (slotRank a w ≤ slotRank a slot)) (l := l)
  conv => rhs; rw [← this]
  exact List.perm_middle

theorem takeWhile_rank (a : Arbiter) (n : Nat) (l : List SlotNo) :
    ∀ x ∈ l.takeWhile (fun w => decide (slotRank a w ≤ n)), slotRank a x ≤ n := by
  intro x hx
  simpa using List.mem_takeWhile_imp hx

theorem dropWhile_rank (a : Arbiter) (n : Nat) (l : List SlotNo)
    (h : l.Pairwise fun v w => slotRank a v ≤ slotRank a w) :
    ∀ x ∈ l.dropWhile (fun w => decide (slotRank a w ≤ n)), n < slotRank a x := by
  induction l with
  | nil => intro x hx; simp at hx
  | cons y l ih =>
    intro x hx
    obtain ⟨h1, h2⟩ := List.pairwise_cons.mp h
    by_cases hy : slotRank a y ≤ n
    · simp only [List.dropWhile_cons, decide_eq_true hy, ite_true] at hx
      exact ih h2 x hx
    · simp only [List.dropWhile_cons, decide_eq_false hy, Bool.false_eq_true, ite_false, List.mem_cons] at hx
      rcases hx with rfl | hx
      · omega
      · have := h1 x hx; omega

/-- A slot joins a list in order of level behind its own level and before every less urgent one (R119). -/
theorem insertWaiter_place (a : Arbiter) (slot : SlotNo) (l : List SlotNo)
    (h : l.Pairwise fun v w => slotRank a v ≤ slotRank a w) :
    ∃ pre post, l = pre ++ post ∧ insertWaiter a slot l = pre ++ slot :: post ∧
      (∀ v ∈ pre, slotRank a v ≤ slotRank a slot) ∧ ∀ v ∈ post, slotRank a slot < slotRank a v :=
  ⟨_, _, (List.takeWhile_append_dropWhile ..).symm, rfl, takeWhile_rank a _ l, dropWhile_rank a _ l h⟩

theorem insertWaiter_sorted (a : Arbiter) (slot : SlotNo) (l : List SlotNo)
    (h : l.Pairwise fun v w => slotRank a v ≤ slotRank a w) :
    (insertWaiter a slot l).Pairwise fun v w => slotRank a v ≤ slotRank a w := by
  unfold insertWaiter
  have hp := h
  rw [← List.takeWhile_append_dropWhile (p := fun w => decide (slotRank a w ≤ slotRank a slot)) (l := l),
    List.pairwise_append] at hp
  obtain ⟨p1, p2, p3⟩ := hp
  rw [List.pairwise_append]
  refine ⟨p1, List.pairwise_cons.mpr ⟨fun w hw => (dropWhile_rank a _ l h w hw).le, p2⟩, ?_⟩
  intro v hv w hw
  rcases List.mem_cons.mp hw with rfl | hw
  · exact takeWhile_rank a _ l v hv
  · exact p3 v hv w hw

/-- A status set to a value that neither holds nor waits, by a claim that did neither. -/
theorem setLost_ok {a : Arbiter} {slot : SlotNo} {r : ResNo} {c : LossCause} (h : ArbOk a)
    (h1 : statusOf a slot r ≠ .holding) (h2 : statusOf a slot r ≠ .waiting) :
    ArbOk (setStatus a slot r (.lost c)) := by
  refine arbOk_one (r := r) h (fun q _ => by rw [res_setStatus]) ?_ (lev_setStatus a slot r _) ?_
  · intro k q hq
    rw [statusOf_setStatus, if_neg (fun hh => hq hh.2.1.symm)]
  · have hr := h.1 r
    refine ⟨?_, ?_, ?_, ?_, ?_, ?_, ?_⟩
    · intro k
      rw [statusOf_setStatus, res_setStatus, ← hr.holding k]
      split
      · rename_i hh; rw [← hh.1]; simp [h1]
      · rfl
    · intro k
      rw [statusOf_setStatus, res_setStatus, ← hr.waiting k]
      split
      · rename_i hh; rw [← hh.1]; simp [h2]
      · rfl
    · rw [res_setStatus]; exact hr.nodup
    · rw [res_setStatus]; exact hr.length
    · rw [res_setStatus]; exact hr.free
    · rw [res_setStatus]
      simp only [slotRank_lev (lev_setStatus a slot r _ _)]
      exact hr.sorted
    · intro k hk
      rw [res_setStatus] at hk
      rw [slotRank_lev (lev_setStatus a slot r _ k)]
      exact hr.urgent k hk

/-- A resource record set beside the status of the claim that it concerns: what the statuses become. -/
theorem statusOf_put (a : Arbiter) (slot : SlotNo) (r : ResNo) (x : Resource) (st : ResStatus) (k : SlotNo)
    (q : ResNo) : statusOf (setStatus (setRes a r x) slot r st) k q =
      if slot = k ∧ r = q ∧ (claimIn a slot).isSome then st else statusOf a k q :=
  statusOf_setStatus (setRes a r x) slot r st k q

theorem lev_put (a : Arbiter) (slot : SlotNo) (r : ResNo) (x : Resource) (st : ResStatus) (k : SlotNo) :
    lev (setStatus (setRes a r x) slot r st) k = lev a k := lev_setStatus (setRes a r x) slot r st k

theorem res_put (a : Arbiter) (slot : SlotNo) (r : ResNo) (x : Resource) (st : ResStatus) (q : ResNo) :
    (setStatus (setRes a r x) slot r st).res[q] = if r = q then x else a.res[q] := by
  rw [res_setStatus]; exact res_setRes a r x q

/-- An operation on one resource, by the record and the statuses that it leaves there. -/
theorem view_ok {a b : Arbiter} {r : ResNo} {x : Resource} {f : SlotNo → ResStatus} (h : ArbOk a)
    (hl : ∀ k, lev b k = lev a k) (h1 : ∀ q, q ≠ r → b.res[q] = a.res[q])
    (h2 : ∀ k q, q ≠ r → statusOf b k q = statusOf a k q) (hx : b.res[r] = x) (hf : ∀ k, statusOf b k r = f k)
    (k1 : ∀ k, f k = .holding ↔ x.holder = some k) (k2 : ∀ k, f k = .waiting ↔ k ∈ x.waiting)
    (k3 : x.waiting.Nodup) (k4 : x.waiting.length ≤ 4) (k5 : x.holder = none → x.waiting = [])
    (k6 : x.waiting.Pairwise fun v w => slotRank a v ≤ slotRank a w)
    (k7 : ∀ k ∈ x.waiting, slotRank a k ≠ 0) : ArbOk b := by
  have hr : ∀ k, slotRank b k = slotRank a k := fun k => slotRank_lev (hl k)
  refine arbOk_one (r := r) h h1 h2 hl ⟨?_, ?_, ?_, ?_, ?_, ?_, ?_⟩
  · intro k; rw [hf, hx]; exact k1 k
  · intro k; rw [hf, hx]; exact k2 k
  · rw [hx]; exact k3
  · rw [hx]; exact k4
  · rw [hx]; exact k5
  · rw [hx]; simp only [hr]; exact k6
  · intro k hk; rw [hx] at hk; rw [hr]; exact k7 k hk

/-- A record and the status of one claim set together keep the property when the new record is right for the
new statuses. -/
theorem put_ok {a : Arbiter} {slot : SlotNo} {r : ResNo} {x : Resource} {st : ResStatus} (h : ArbOk a)
    (hc : (claimIn a slot).isSome = true)
    (h1 : ∀ k, (if slot = k then st else statusOf a k r) = .holding ↔ x.holder = some k)
    (h2 : ∀ k, (if slot = k then st else statusOf a k r) = .waiting ↔ k ∈ x.waiting)
    (h3 : x.waiting.Nodup) (h4 : x.waiting.length ≤ 4) (h5 : x.holder = none → x.waiting = [])
    (h6 : x.waiting.Pairwise fun v w => slotRank a v ≤ slotRank a w)
    (h7 : ∀ k ∈ x.waiting, slotRank a k ≠ 0) : ArbOk (setStatus (setRes a r x) slot r st) :=
  view_ok (r := r) (x := x) (f := fun k => if slot = k then st else statusOf a k r) h (lev_put a slot r x st)
    (fun q hq => by rw [res_put, if_neg (Ne.symm hq)])
    (fun k q hq => by rw [statusOf_put, if_neg (fun hh => hq hh.2.1.symm)])
    (by rw [res_put, if_pos rfl]) (fun k => by rw [statusOf_put]; simp [hc]) h1 h2 h3 h4 h5 h6 h7

/-- A claim that neither holds nor waits takes a resource without a holder. -/
theorem grant_ok {a : Arbiter} {slot : SlotNo} {r : ResNo} (h : ArbOk a) (hc : (claimIn a slot).isSome = true)
    (hf : a.res[r].holder = none) :
    ArbOk (setStatus (setRes a r { a.res[r] with holder := some slot }) slot r .holding) := by
  have hr := h.1 r
  have hw := hr.free hf
  have n1 : ∀ k, statusOf a k r ≠ .holding := fun k hk => by
    have := (hr.holding k).mp hk; rw [hf] at this; cases this
  have n2 : ∀ k, statusOf a k r ≠ .waiting := fun k hk => by
    have := (hr.waiting k).mp hk; rw [hw] at this; cases this
  refine put_ok h hc ?_ ?_ hr.nodup hr.length (fun hn => by cases hn) hr.sorted hr.urgent
  · intro k
    by_cases hk : slot = k
    · simp [hk]
    · simp [hk, n1 k]
  · intro k
    rw [hw]
    by_cases hk : slot = k
    · simp [hk]
    · simp [hk, n2 k]

/-- A claim takes a resource from its holder (R118). -/
theorem preempt_ok {a : Arbiter} {slot holder : SlotNo} {r : ResNo} (h : ArbOk a)
    (hc : (claimIn a slot).isSome = true) (hh : a.res[r].holder = some holder)
    (hs : statusOf a slot r ≠ .waiting) : ArbOk (preempt a slot holder r) := by
  have hr := h.1 r
  have hst := (hr.holding holder).mpr hh
  have hho : (claimIn a holder).isSome = true :=
    claim_of_status (r := r) (by rw [hst]; exact fun hx => by cases hx)
  refine view_ok (r := r) (x := { a.res[r] with holder := some slot })
    (f := fun k => if slot = k then .holding else if holder = k then .lost .preempted else statusOf a k r) h
    (fun k => (lev_put _ _ _ _ _ k).trans (lev_setStatus _ _ _ _ k)) ?_ ?_ ?_ ?_ ?_ ?_ hr.nodup hr.length
    (fun hn => by cases hn) hr.sorted hr.urgent
  · intro q hq
    show (setStatus (setRes (setStatus a holder r _) r _) slot r _).res[q] = _
    rw [res_put, if_neg (Ne.symm hq), res_setStatus]
  · intro k q hq
    show statusOf (setStatus (setRes (setStatus a holder r _) r _) slot r _) k q = _
    rw [statusOf_put, if_neg (fun hx => hq hx.2.1.symm), statusOf_setStatus, if_neg (fun hx => hq hx.2.1.symm)]
  · show (setStatus (setRes (setStatus a holder r _) r _) slot r _).res[r] = _
    rw [res_put, if_pos rfl, res_setStatus]
  · intro k
    show statusOf (setStatus (setRes (setStatus a holder r _) r _) slot r _) k r = _
    rw [statusOf_put, statusOf_setStatus]
    have : (claimIn (setStatus a holder r (.lost .preempted)) slot).isSome = true := by
      rw [isSome_of_lev (lev_setStatus _ _ _ _ _)]; exact hc
    simp [this, hho]
  · intro k
    show _ ↔ some slot = some k
    by_cases h1 : slot = k
    · simp [h1]
    · by_cases h2 : holder = k
      · simp [h1, h2]
      · simp only [h1, h2, ite_false, hr.holding k, hh, Option.some.injEq]
  · intro k
    show _ ↔ k ∈ a.res[r].waiting
    by_cases h1 : slot = k
    · subst h1; simp only [ite_true, reduceCtorEq, false_iff]; exact fun hx => hs ((hr.waiting _).mpr hx)
    · by_cases h2 : holder = k
      · subst h2
        simp only [h1, ite_false, ite_true, reduceCtorEq, false_iff]
        intro hx
        have := (hr.waiting _).mpr hx
        rw [hst] at this
        cases this
      · simp only [h1, h2, ite_false]; exact hr.waiting k

/-- A claim joins a waiting list (R119). -/
theorem joinWaiting_ok {a : Arbiter} {slot h0 : SlotNo} {r : ResNo} (h : ArbOk a)
    (hc : (claimIn a slot).isSome = true) (hh : a.res[r].holder = some h0)
    (h1 : statusOf a slot r ≠ .holding) (h2 : statusOf a slot r ≠ .waiting) (hu : slotRank a slot ≠ 0) :
    ArbOk (joinWaiting a slot r) := by
  have hr := h.1 r
  have hnot : slot ∉ a.res[r].waiting := fun hx => h2 ((hr.waiting slot).mpr hx)
  have hno : a.res[r].holder ≠ some slot := fun hx => h1 ((hr.holding slot).mpr hx)
  have hsome : a.res[r].holder ≠ none := by rw [hh]; exact fun hx => by cases hx
  unfold joinWaiting
  dsimp only
  split
  · rename_i hl
    refine put_ok h hc ?_ ?_ ?_ ?_ (fun hn => absurd hn hsome) (insertWaiter_sorted a slot _ hr.sorted) ?_
    · intro k
      show _ ↔ a.res[r].holder = some k
      by_cases hk : slot = k
      · subst hk; simp only [ite_true, reduceCtorEq, false_iff]; exact hno
      · simp only [hk, ite_false]; exact hr.holding k
    · intro k
      rw [mem_insertWaiter]
      by_cases hk : slot = k
      · simp [hk]
      · simp only [hk, ite_false, Ne.symm hk, false_or]; exact hr.waiting k
    · exact (insertWaiter_perm a slot _).nodup_iff.mpr (List.nodup_cons.mpr ⟨hnot, hr.nodup⟩)
    · rw [(insertWaiter_perm a slot _).length_eq]; exact hl
    · intro k hk
      rcases (mem_insertWaiter a slot k _).mp hk with rfl | hk
      · exact hu
      · exact hr.urgent k hk
  · split
    · exact h
    · rename_i w hw
      split
      · have hwm : w ∈ a.res[r].waiting := List.mem_of_getLast? hw
        have hws : statusOf a w r = .waiting := (hr.waiting w).mpr hwm
        have hwc : (claimIn a w).isSome = true :=
          claim_of_status (r := r) (by rw [hws]; exact fun hx => by cases hx)
        have hsplit : a.res[r].waiting = a.res[r].waiting.dropLast ++ [w] :=
          (List.dropLast_append_getLast? w hw).symm
        have hsub := (List.dropLast_sublist a.res[r].waiting)
        have hnd := hr.nodup
        rw [hsplit] at hnd
        have hwd : w ∉ a.res[r].waiting.dropLast := fun hx =>
          (List.disjoint_of_nodup_append hnd) hx (List.mem_singleton.mpr rfl)
        have hmem : ∀ k, k ∈ a.res[r].waiting ↔ k ∈ a.res[r].waiting.dropLast ∨ k = w := by
          intro k; conv => lhs; rw [hsplit]
          simp
        have hrank : ∀ k, slotRank (notify (setStatus a w r (.lost .evicted)) w r .evicted) k = slotRank a k :=
          fun k => slotRank_lev (lev_setStatus a w r _ k)
        have hins : ∀ l, insertWaiter (notify (setStatus a w r (.lost .evicted)) w r .evicted) slot l =
            insertWaiter a slot l := by
          intro l; unfold insertWaiter; simp only [hrank]
        rw [hins]
        refine view_ok (r := r)
          (x := ⟨a.res[r].holder, insertWaiter a slot a.res[r].waiting.dropLast⟩)
          (f := fun k => if slot = k then .waiting else if w = k then .lost .evicted else statusOf a k r) h
          (fun k => (lev_put _ _ _ _ _ k).trans (lev_setStatus a w r _ k)) ?_ ?_ ?_ ?_ ?_ ?_ ?_ ?_
          (fun hn => absurd hn hsome) (insertWaiter_sorted a slot _ (hr.sorted.sublist hsub)) ?_
        · intro q hq
          rw [res_put, if_neg (Ne.symm hq)]
          show (setStatus a w r _).res[q] = _
          rw [res_setStatus]
        · intro k q hq
          rw [statusOf_put, if_neg (fun hx => hq hx.2.1.symm)]
          show statusOf (setStatus a w r _) k q = _
          rw [statusOf_setStatus, if_neg (fun hx => hq hx.2.1.symm)]
        · rw [res_put, if_pos rfl]
          show (⟨(setStatus a w r _).res[r].holder, _⟩ : Resource) = _
          rw [res_setStatus]
        · intro k
          rw [statusOf_put]
          have e : (claimIn (notify (setStatus a w r (.lost .evicted)) w r .evicted) slot).isSome = true :=
            (isSome_of_lev (lev_setStatus a w r _ slot)).trans hc
          have e2 : statusOf (notify (setStatus a w r (.lost .evicted)) w r .evicted) k r =
              if w = k ∧ r = r ∧ (claimIn a w).isSome then .lost .evicted else statusOf a k r :=
            statusOf_setStatus a w r _ k r
          rw [e2]
          simp [e, hwc]
        · intro k
          show _ ↔ a.res[r].holder = some k
          by_cases hk : slot = k
          · subst hk; simp only [ite_true, reduceCtorEq, false_iff]; exact hno
          · by_cases hk2 : w = k
            · subst hk2
              simp only [hk, ite_false, ite_true, reduceCtorEq, false_iff]
              intro hx
              have := (hr.holding _).mpr hx
              rw [hws] at this
              cases this
            · simp only [hk, hk2, ite_false]; exact hr.holding k
        · intro k
          rw [mem_insertWaiter]
          by_cases hk : slot = k
          · simp [hk]
          · by_cases hk2 : w = k
            · subst hk2
              simp only [hk, ite_false, ite_true, reduceCtorEq, Ne.symm hk, false_or, false_iff]
              exact hwd
            · simp only [hk, hk2, ite_false, Ne.symm hk, false_or]
              rw [hr.waiting k, hmem k]
              simp [Ne.symm hk2]
        · exact (insertWaiter_perm a slot _).nodup_iff.mpr
            (List.nodup_cons.mpr ⟨fun hx => hnot (hsub.subset hx), hr.nodup.sublist hsub⟩)
        · rw [(insertWaiter_perm a slot _).length_eq, List.length_cons, List.length_dropLast]
          have := hr.length
          have := List.length_pos_of_mem hwm
          omega
        · intro k hk
          rcases (mem_insertWaiter a slot k _).mp hk with rfl | hk
          · exact hu
          · exact hr.urgent k (hsub.subset hk)
      · exact setLost_ok h h1 h2

/-- A request (R117). -/
theorem request_ok {a : Arbiter} {slot : SlotNo} {r : ResNo} (h : ArbOk a) : ArbOk (request a slot r) := by
  have hr := h.1 r
  unfold request
  split
  · exact h
  · rename_i c hc
    have hcs : (claimIn a slot).isSome = true := by rw [hc]; rfl
    have hst : statusOf a slot r = c.status[r] := by unfold statusOf; rw [hc]
    split
    · exact h
    · exact h
    · rename_i n1 n2
      have m1 : statusOf a slot r ≠ .holding := fun hx => n1 (by rw [← hst]; exact hx)
      have m2 : statusOf a slot r ≠ .waiting := fun hx => n2 (by rw [← hst]; exact hx)
      split
      · rename_i hf
        exact grant_ok h hcs hf
      · rename_i h0 hh
        split
        · exact setLost_ok h m1 m2
        · split
          · exact preempt_ok h hcs hh m2
          · rename_i hn
            refine joinWaiting_ok h hcs hh m1 m2 ?_
            intro hz
            have hlv : levelRank c.level = 0 := by unfold slotRank at hz; rw [hc] at hz; exact hz
            have halarm : c.level = .alarm := by revert hlv; cases c.level <;> decide
            have hd := h.2 slot c hc halarm
            have hhs := (hr.holding h0).mpr hh
            have hne : h0 ≠ slot := fun hx => m1 (hx ▸ hhs)
            have hho := claim_of_status (r := r) (a := a) (k := h0) (by rw [hhs]; exact fun hx => by cases hx)
            obtain ⟨d, hd2⟩ := Option.isSome_iff_exists.mp hho
            refine hn ⟨by omega, ?_⟩
            unfold slotRank
            rw [hd2, hlv]
            have : d.level ≠ .alarm := fun hx => hne ((h.2 h0 d hd2 hx).trans hd.symm)
            show 0 < levelRank d.level
            revert this
            cases d.level <;> decide

/-! ## Releases, withdrawals and deadlines -/

/-- What a claim leaves when it no longer holds a resource. -/
theorem withdrawHolding_ok {a : Arbiter} {slot : SlotNo} {r : ResNo} (h : ArbOk a)
    (hs : statusOf a slot r = .holding) : ArbOk (release (setStatus a slot r (.lost .withdrawn)) r) := by
  have hr := h.1 r
  have hcs : (claimIn a slot).isSome = true := claim_of_status (r := r) (by rw [hs]; exact fun hx => by cases hx)
  have hh := (hr.holding slot).mp hs
  have hst : ∀ k, statusOf (setStatus a slot r (.lost .withdrawn)) k r =
      if slot = k then .lost .withdrawn else statusOf a k r := by
    intro k; rw [statusOf_setStatus]; simp [hcs]
  have honly : ∀ k, slot ≠ k → statusOf a k r ≠ .holding := fun k hk hx => by
    have := (hr.holding k).mp hx
    rw [hh] at this
    exact hk (Option.some.inj this)
  unfold release
  rw [res_setStatus]
  split
  · rename_i hw
    refine view_ok (r := r) (x := ⟨none, []⟩)
      (f := fun k => if slot = k then .lost .withdrawn else statusOf a k r) h
      (fun k => lev_setStatus a slot r _ k) ?_ ?_ ?_ ?_ ?_ ?_ List.nodup_nil (Nat.zero_le _) (fun _ => rfl)
      List.Pairwise.nil (fun k hk => by cases hk)
    · intro q hq; rw [res_setRes, if_neg (Ne.symm hq), res_setStatus]
    · intro k q hq
      show statusOf (setStatus a slot r _) k q = _
      rw [statusOf_setStatus, if_neg (fun hx => hq hx.2.1.symm)]
    · rw [res_setRes, if_pos rfl]
    · intro k; exact hst k
    · intro k
      by_cases hk : slot = k
      · simp [hk]
      · simp [hk, honly k hk]
    · intro k
      by_cases hk : slot = k
      · simp [hk]
      · simp only [hk, ite_false, hr.waiting k, hw]
  · rename_i g rest hw
    have hgm : g ∈ a.res[r].waiting := by rw [hw]; simp
    have hgs := (hr.waiting g).mpr hgm
    have hgc : (claimIn a g).isSome = true := claim_of_status (r := r) (by rw [hgs]; exact fun hx => by cases hx)
    have hsg : slot ≠ g := fun hx => by rw [hx, hgs] at hs; cases hs
    have hnd := hr.nodup
    rw [hw] at hnd
    obtain ⟨hgr, hrest⟩ := List.nodup_cons.mp hnd
    have hsub : rest.Sublist a.res[r].waiting := by rw [hw]; exact List.sublist_cons_self _ _
    refine notify_ok (view_ok (r := r) (x := ⟨some g, rest⟩)
      (f := fun k => if g = k then .holding else if slot = k then .lost .withdrawn else statusOf a k r) h
      (fun k => (lev_put _ _ _ _ _ k).trans (lev_setStatus a slot r _ k)) ?_ ?_ ?_ ?_ ?_ ?_ hrest ?_
      (fun hn => by cases hn) (hr.sorted.sublist hsub) (fun k hk => hr.urgent k (hsub.subset hk)))
    · intro q hq; rw [res_put, if_neg (Ne.symm hq), res_setStatus]
    · intro k q hq
      rw [statusOf_put, if_neg (fun hx => hq hx.2.1.symm), statusOf_setStatus, if_neg (fun hx => hq hx.2.1.symm)]
    · rw [res_put, if_pos rfl]
    · intro k
      rw [statusOf_put, hst]
      have : (claimIn (setStatus a slot r (.lost .withdrawn)) g).isSome = true :=
        (isSome_of_lev (lev_setStatus a slot r _ g)).trans hgc
      simp [this]
    · intro k
      show _ ↔ some g = some k
      by_cases hk : g = k
      · simp [hk]
      · by_cases hk2 : slot = k
        · simp [hk, hk2]
        · simp [hk, hk2, honly k hk2]
    · intro k
      show _ ↔ k ∈ rest
      by_cases hk : g = k
      · subst hk; simp [hgr]
      · by_cases hk2 : slot = k
        · subst hk2
          simp only [hk, ite_false, ite_true, reduceCtorEq, false_iff]
          intro hx
          have := (hr.waiting slot).mpr (hsub.subset hx)
          rw [hs] at this
          cases this
        · simp only [hk, hk2, ite_false, hr.waiting k, hw, List.mem_cons]
          simp [Ne.symm hk]
    · have := hr.length
      rw [hw, List.length_cons] at this
      show rest.length ≤ 4
      omega

/-- A waiter leaves a list (R121, R122). -/
theorem dropWaiter_ok {a : Arbiter} {slot : SlotNo} {r : ResNo} {c : LossCause} (h : ArbOk a)
    (hs : statusOf a slot r = .waiting) : ArbOk (setStatus (setRes a r { a.res[r] with
      waiting := a.res[r].waiting.filter (fun w => decide (w ≠ slot)) }) slot r (.lost c)) := by
  have hr := h.1 r
  have hcs : (claimIn a slot).isSome = true := claim_of_status (r := r) (by rw [hs]; exact fun hx => by cases hx)
  have hsub : (a.res[r].waiting.filter (fun w => decide (w ≠ slot))).Sublist a.res[r].waiting :=
    List.filter_sublist
  refine put_ok h hcs ?_ ?_ (hr.nodup.sublist hsub) (Nat.le_trans hsub.length_le hr.length) ?_
    (hr.sorted.sublist hsub) (fun k hk => hr.urgent k (hsub.subset hk))
  · intro k
    show _ ↔ a.res[r].holder = some k
    by_cases hk : slot = k
    · subst hk
      simp only [ite_true, reduceCtorEq, false_iff]
      intro hx
      have := (hr.holding slot).mpr hx
      rw [hs] at this
      cases this
    · simp only [hk, ite_false]; exact hr.holding k
  · intro k
    by_cases hk : slot = k
    · simp [hk]
    · simp only [hk, ite_false, hr.waiting k, List.mem_filter, decide_not, Bool.not_eq_eq_eq_not, Bool.not_true,
        decide_eq_false_iff_not, Ne.symm hk, not_false_eq_true, and_true]
  · intro hn
    have := hr.free hn
    show List.filter _ _ = []
    rw [this]
    rfl

theorem setRes_setStatus (a : Arbiter) (slot : SlotNo) (r : ResNo) (x : Resource) (st : ResStatus) :
    setRes (setStatus a slot r st) r x = setStatus (setRes a r x) slot r st := by
  unfold setStatus
  show setRes (match claimIn a slot with | none => a | some c => _) r x =
    (match claimIn a slot with | none => setRes a r x | some c => _)
  cases claimIn a slot <;> rfl

theorem withdrawFrom_ok {a : Arbiter} {slot : SlotNo} {r : ResNo} (h : ArbOk a) :
    ArbOk (withdrawFrom a slot r) := by
  unfold withdrawFrom
  split
  · rename_i hs; exact withdrawHolding_ok h hs
  · rename_i hs
    dsimp only
    rw [setRes_setStatus, res_setStatus]
    exact dropWaiter_ok h hs
  · exact h

theorem foldl_arbOk {α : Type} {f : Arbiter → α → Arbiter} (k : ∀ a x, ArbOk a → ArbOk (f a x))
    (l : List α) : ∀ a, ArbOk a → ArbOk (l.foldl f a) := by
  induction l with
  | nil => intro a h; exact h
  | cons x l ih => intro a h; exact ih _ (k a x h)

/-- After a withdrawal from a resource the claim neither holds nor waits for it. -/
theorem withdrawFrom_gone {a : Arbiter} {slot : SlotNo} {r : ResNo} (h : ArbOk a) :
    statusOf (withdrawFrom a slot r) slot r ≠ .holding ∧ statusOf (withdrawFrom a slot r) slot r ≠ .waiting := by
  unfold withdrawFrom
  split
  · rename_i hs
    have hr := h.1 r
    have hcs : (claimIn a slot).isSome = true := claim_of_status (r := r) (by rw [hs]; exact fun hx => by cases hx)
    have hst : statusOf (setStatus a slot r (.lost .withdrawn)) slot r = .lost .withdrawn := by
      rw [statusOf_setStatus]; simp [hcs]
    unfold release
    rw [res_setStatus]
    split
    · show statusOf (setStatus a slot r _) slot r ≠ _ ∧ statusOf (setStatus a slot r _) slot r ≠ _
      rw [hst]; exact ⟨nofun, nofun⟩
    · rename_i g rest hw
      have hgs := (hr.waiting g).mpr (by rw [hw]; simp)
      have hsg : g ≠ slot := fun hx => by rw [hx, hs] at hgs; cases hgs
      show statusOf (setStatus (setRes (setStatus a slot r _) r _) g r _) slot r ≠ _ ∧
        statusOf (setStatus (setRes (setStatus a slot r _) r _) g r _) slot r ≠ _
      rw [statusOf_put, if_neg (fun hx => hsg hx.1), hst]
      exact ⟨nofun, nofun⟩
  · rename_i hs
    have hcs : (claimIn a slot).isSome = true := claim_of_status (r := r) (by rw [hs]; exact fun hx => by cases hx)
    dsimp only
    rw [setRes_setStatus, statusOf_put]
    simp [hcs]
  · rename_i n1 n2
    exact ⟨n1, n2⟩

/-- A withdrawal from one resource leaves the claim's statuses for the others. -/
theorem withdrawFrom_other {a : Arbiter} {slot : SlotNo} {r q : ResNo} (hq : q ≠ r) (k : SlotNo) :
    statusOf (withdrawFrom a slot r) k q = statusOf a k q := by
  unfold withdrawFrom
  split
  · unfold release
    rw [res_setStatus]
    split
    · show statusOf (setStatus a slot r _) k q = _
      rw [statusOf_setStatus, if_neg (fun hx => hq hx.2.1.symm)]
    · show statusOf (setStatus (setRes (setStatus a slot r _) r _) _ r _) k q = _
      rw [statusOf_put, if_neg (fun hx => hq hx.2.1.symm), statusOf_setStatus,
        if_neg (fun hx => hq hx.2.1.symm)]
  · show statusOf (setStatus a slot r _) k q = _
    rw [statusOf_setStatus, if_neg (fun hx => hq hx.2.1.symm)]
  · rfl

theorem withdrawAll_gone {slot : SlotNo} (l : List ResNo) : ∀ a, ArbOk a →
    (∀ r, r ∉ l → statusOf a slot r ≠ .holding ∧ statusOf a slot r ≠ .waiting) →
    ∀ r, statusOf (l.foldl (fun a r => withdrawFrom a slot r) a) slot r ≠ .holding ∧
      statusOf (l.foldl (fun a r => withdrawFrom a slot r) a) slot r ≠ .waiting := by
  induction l with
  | nil => intro a _ h r; exact h r (by simp)
  | cons x l ih =>
    intro a ha h
    refine ih _ (withdrawFrom_ok ha) ?_
    intro r hr
    by_cases hx : r = x
    · subst hx; exact withdrawFrom_gone ha
    · rw [withdrawFrom_other hx]
      exact h r (by simp [hx, hr])

/-- A slot's claim replaced where the statuses that hold or wait stay, none of them the slot's own. -/
theorem replaceSlot_ok {a b : Arbiter} {slot : SlotNo} (h : ArbOk a) (h1 : b.res = a.res)
    (h2 : ∀ k, k ≠ slot → claimIn b k = claimIn a k)
    (h3 : ∀ r, statusOf a slot r ≠ .holding ∧ statusOf a slot r ≠ .waiting)
    (h4 : ∀ r, statusOf b slot r ≠ .holding ∧ statusOf b slot r ≠ .waiting)
    (h5 : ∀ c, claimIn b slot = some c → c.level = .alarm → slot = drillSlot) : ArbOk b := by
  have hother : ∀ k, k ≠ slot → ∀ r, statusOf b k r = statusOf a k r := by
    intro k hk r; unfold statusOf; rw [h2 k hk]
  have hrank : ∀ k, k ≠ slot → slotRank b k = slotRank a k := by
    intro k hk; unfold slotRank; rw [h2 k hk]
  refine ⟨fun r => ?_, ?_⟩
  · have hr := h.1 r
    have hnw : ∀ k ∈ a.res[r].waiting, k ≠ slot := fun k hk hx =>
      (h3 r).2 (hx ▸ (hr.waiting k).mpr hk)
    refine ⟨?_, ?_, ?_, ?_, ?_, ?_, ?_⟩
    · intro k
      rw [h1, ← hr.holding k]
      by_cases hk : k = slot
      · subst hk; exact ⟨fun hx => absurd hx (h4 r).1, fun hx => absurd hx (h3 r).1⟩
      · rw [hother k hk]
    · intro k
      rw [h1, ← hr.waiting k]
      by_cases hk : k = slot
      · subst hk; exact ⟨fun hx => absurd hx (h4 r).2, fun hx => absurd hx (h3 r).2⟩
      · rw [hother k hk]
    · rw [h1]; exact hr.nodup
    · rw [h1]; exact hr.length
    · rw [h1]; exact hr.free
    · rw [h1]
      refine (List.pairwise_iff_forall_sublist).mpr ?_
      intro v w hs
      rw [hrank v (hnw v (hs.subset (by simp))), hrank w (hnw w (hs.subset (by simp)))]
      exact (List.pairwise_iff_forall_sublist).mp hr.sorted hs
    · intro k hk
      rw [h1] at hk
      rw [hrank k (hnw k hk)]
      exact hr.urgent k hk
  · intro k c hc hl
    by_cases hk : k = slot
    · subst hk; exact h5 c hc hl
    · exact h.2 k c (by rw [← h2 k hk]; exact hc) hl

/-- A slot becomes free once its claim neither holds nor waits for anything. -/
theorem freeSlot_ok {a : Arbiter} {slot : SlotNo} (h : ArbOk a)
    (h1 : ∀ r, statusOf a slot r ≠ .holding ∧ statusOf a slot r ≠ .waiting) : ArbOk (setClaim a slot none) := by
  have hnone : claimIn (setClaim a slot none) slot = none := by rw [claimIn_setClaim, if_pos rfl]
  refine replaceSlot_ok (slot := slot) h rfl ?_ h1 ?_ ?_
  · intro k hk; rw [claimIn_setClaim, if_neg (Ne.symm hk)]
  · intro r; unfold statusOf; rw [hnone]; exact ⟨nofun, nofun⟩
  · intro c hc; rw [hnone] at hc; cases hc

theorem withdrawWhole_free (a : Arbiter) (slot : SlotNo) : claimIn (withdrawWhole a slot) slot = none := by
  unfold withdrawWhole
  rw [claimIn_setClaim, if_pos rfl]

theorem withdrawWhole_ok {a : Arbiter} {slot : SlotNo} (h : ArbOk a) : ArbOk (withdrawWhole a slot) :=
  freeSlot_ok (foldl_arbOk (f := fun a r => withdrawFrom a slot r) (fun _ _ => withdrawFrom_ok) resOrder a h)
    (withdrawAll_gone (slot := slot) resOrder a h (fun r hr => absurd (List.mem_finRange r) hr))

theorem requestAll_ok {a : Arbiter} {slot : SlotNo} {rs : List ResNo} (h : ArbOk a) :
    ArbOk (requestAll a slot rs) := foldl_arbOk (fun _ _ => request_ok) _ _ h

/-- A claim made in a slot without one (R116, steps 2 and 3). -/
theorem openClaim_ok {a : Arbiter} {now : Count} {slot : SlotNo} {level : ClaimLevel} {bus : Bus} (h : ArbOk a)
    (hn : claimIn a slot = none) (hl : level = .alarm → slot = drillSlot) :
    ArbOk (openClaim a now slot level bus) := by
  have hc : ∀ k, claimIn (openClaim a now slot level bus) k = if slot = k then
      some ⟨level, bus, Vector.replicate 9 .notAsked, (waitLimit level).map (countAfter now), false, false⟩
      else claimIn a k := by
    intro k
    unfold claimIn openClaim
    dsimp only
    rw [vector_set_at]
    split <;> rfl
  refine replaceSlot_ok (slot := slot) h rfl ?_ ?_ ?_ ?_
  · intro k hk; rw [hc, if_neg (Ne.symm hk)]
  · intro r; unfold statusOf; rw [hn]; exact ⟨nofun, nofun⟩
  · intro r; unfold statusOf; rw [hc, if_pos rfl]; simp
  · intro c hcc hal
    rw [hc, if_pos rfl] at hcc
    exact hl (by rw [← hal, ← Option.some.inj hcc])

theorem makeClaim_ok {a : Arbiter} {now : Count} {slot : SlotNo} {level : ClaimLevel} {bus : Bus}
    {want : ResNo → Bool} (hl : level = .alarm → slot = drillSlot) (h : ArbOk a) :
    ArbOk (makeClaim a now slot level bus want) := by
  unfold makeClaim
  apply requestAll_ok
  split
  · exact openClaim_ok (withdrawWhole_ok h) (withdrawWhole_free a slot) hl
  · rename_i hs
    refine openClaim_ok h ?_ hl
    cases hc : claimIn a slot with
    | none => rfl
    | some c => rw [hc] at hs; exact absurd rfl hs

theorem expireOne_ok {a : Arbiter} {slot : SlotNo} {r : ResNo} (h : ArbOk a) : ArbOk (expireOne a slot r) := by
  unfold expireOne
  split
  · rename_i hs; exact notify_ok (dropWaiter_ok h hs)
  · exact h

/-- A claim replaced by one with its statuses and level. -/
theorem setClaim_ok {a : Arbiter} {slot : SlotNo} {c d : Claim} (h : ArbOk a) (hc : claimIn a slot = some c)
    (h1 : d.status = c.status) (h2 : d.level = c.level) : ArbOk (setClaim a slot (some d)) := by
  refine arbOk_same h rfl ?_ ?_
  · intro k q
    unfold statusOf
    rw [claimIn_setClaim]
    by_cases hk : slot = k
    · subst hk; simp only [ite_true, hc, h1]
    · simp only [hk, ite_false]
  · intro k
    unfold lev
    rw [claimIn_setClaim]
    by_cases hk : slot = k
    · subst hk; simp [hc, h2]
    · simp [hk]

theorem expireWaits_ok {a : Arbiter} {slot : SlotNo} (h : ArbOk a) : ArbOk (expireWaits a slot) := by
  unfold expireWaits
  split
  · exact h
  · rename_i c hc
    split
    · exact h
    · exact foldl_arbOk (fun _ _ => expireOne_ok) _ _ (setClaim_ok h hc rfl rfl)

theorem reportSounding_ok {a : Arbiter} {slot : SlotNo} {n : Byte} {b : Bool} (h : ArbOk a) :
    ArbOk (reportSounding a slot n b) := by
  unfold reportSounding
  split
  · exact h
  · rename_i c hc
    split
    · exact setClaim_ok h hc rfl rfl
    · exact h

theorem dropWait_ok {k : Vector Known 9} {slot : SlotNo} {a : Arbiter} {r : ResNo} (h : ArbOk a) :
    ArbOk (dropWait k slot a r) := by
  unfold dropWait
  split
  · exact withdrawFrom_ok h
  · exact h

theorem initial_ok : ArbOk Arbiter.initial := by
  have hn : ∀ k, claimIn Arbiter.initial k = none := by decide
  have hr : ∀ r : ResNo, Arbiter.initial.res[r] = ⟨none, []⟩ := by decide
  refine ⟨fun r => ⟨?_, ?_, ?_, ?_, ?_, ?_, ?_⟩, fun k c hc => by rw [hn] at hc; cases hc⟩ <;> rw [hr]
  · intro k; unfold statusOf; rw [hn]; simp
  · intro k; unfold statusOf; rw [hn]; simp
  · exact List.nodup_nil
  · exact Nat.zero_le _
  · exact fun _ => rfl
  · exact List.Pairwise.nil
  · intro k hk; cases hk

end Sys2Proof.Laws
end

