-- ==== Sys2Proof/Laws/Memory.lean ====
section
/-! SUPPORT. The configuration memory: what a write leaves at each address, and that every memory operation
keeps the canonical form. -/

namespace Sys2Proof.Laws

open Sys2Proof Sys2Proof.Machine

/-- The canonical form from a bound holds from every lower bound. -/
theorem memWfFrom_mono {lo lo' : Nat} {m : Memory} (h : lo' ≤ lo) (w : memWfFrom lo m = true) :
    memWfFrom lo' m = true := by
  cases m with
  | nil => rfl
  | cons c m =>
    obtain ⟨a, v⟩ := c
    simp only [memWfFrom, Bool.and_eq_true, decide_eq_true_eq] at w ⊢
    exact ⟨⟨by omega, w.1.2⟩, w.2⟩

/-- A write keeps the canonical form from a bound that the address is not below. -/
theorem memWrite_wfFrom (m : Memory) : ∀ (lo a : Nat) (v : Byte), lo ≤ a →
    memWfFrom lo m = true → memWfFrom lo (memWrite m a v) = true := by
  induction m with
  | nil =>
    intro lo a v h _
    unfold memWrite
    split
    · rfl
    · rename_i hv
      simp only [memWfFrom, Bool.and_eq_true, decide_eq_true_eq]
      exact ⟨⟨h, hv⟩, trivial⟩
  | cons c m ih =>
    intro lo a v h w
    obtain ⟨x, y⟩ := c
    simp only [memWfFrom, Bool.and_eq_true, decide_eq_true_eq] at w
    obtain ⟨⟨hx, hy⟩, hm⟩ := w
    unfold memWrite
    split
    · rename_i hlt
      split
      · simp only [memWfFrom, Bool.and_eq_true, decide_eq_true_eq]
        exact ⟨⟨hx, hy⟩, hm⟩
      · rename_i hv
        simp only [memWfFrom, Bool.and_eq_true, decide_eq_true_eq]
        exact ⟨⟨h, hv⟩, ⟨by omega, hy⟩, hm⟩
    · split
      · rename_i _ heq
        subst heq
        split
        · exact memWfFrom_mono (by omega) hm
        · rename_i hv
          simp only [memWfFrom, Bool.and_eq_true, decide_eq_true_eq]
          exact ⟨⟨h, hv⟩, hm⟩
      · simp only [memWfFrom, Bool.and_eq_true, decide_eq_true_eq]
        exact ⟨⟨hx, hy⟩, ih (x + 1) a v (by omega) hm⟩

/-- A write keeps the canonical form. -/
theorem memWrite_wf (m : Memory) (a : Nat) (v : Byte) (w : m.wf = true) : (memWrite m a v).wf = true :=
  memWrite_wfFrom m 0 a v (Nat.zero_le a) w

/-- Writing a list of bytes keeps the canonical form. -/
theorem memWriteBytes_wf (bs : List Byte) : ∀ (m : Memory) (a : Nat), m.wf = true →
    (memWriteBytes m a bs).wf = true := by
  induction bs with
  | nil => intro m a w; exact w
  | cons b bs ih => intro m a w; exact ih _ _ (memWrite_wf m a b w)

/-- Below the bound of a canonical memory every address reads as the default. -/
theorem memRead_below {m : Memory} : ∀ {lo a : Nat}, memWfFrom lo m = true → a < lo →
    memRead m a = memDefault := by
  induction m with
  | nil => intros; rfl
  | cons c m ih =>
    intro lo a w h
    obtain ⟨x, y⟩ := c
    simp only [memWfFrom, Bool.and_eq_true, decide_eq_true_eq] at w
    unfold memRead
    rw [if_neg (by omega)]
    exact ih w.2 (by omega)

/-- What a write leaves at each address of a canonical memory from a bound. -/
theorem memRead_memWrite_from (m : Memory) : ∀ (lo a : Nat) (v : Byte) (b : Nat), memWfFrom lo m = true →
    memRead (memWrite m a v) b = if b = a then v else memRead m b := by
  induction m with
  | nil =>
    intro lo a v b _
    unfold memWrite
    split
    · rename_i hv; by_cases h : b = a <;> simp [h, memRead, hv]
    · simp [memRead]
  | cons c m ih =>
    intro lo a v b w
    obtain ⟨x, y⟩ := c
    have w' := w
    simp only [memWfFrom, Bool.and_eq_true, decide_eq_true_eq] at w
    obtain ⟨⟨_, _⟩, hm⟩ := w
    unfold memWrite
    split
    · rename_i hlt
      split
      · rename_i hv
        by_cases h : b = a
        · subst h
          rw [if_pos rfl, hv]
          unfold memRead
          rw [if_neg (by omega)]
          exact memRead_below hm (by omega)
        · rw [if_neg h]
      · rfl
    · split
      · rename_i _ heq
        subst heq
        split
        · rename_i hv
          by_cases h : b = a
          · subst h
            rw [if_pos rfl, hv]
            exact memRead_below hm (by omega)
          · rw [if_neg h]
            conv => rhs; unfold memRead
            rw [if_neg h]
        · by_cases h : b = a
          · subst h; simp [memRead]
          · simp [memRead, h]
      · rename_i h1 h2
        by_cases h : b = x
        · subst h
          rw [if_neg (fun h' => h2 h'.symm)]
          simp [memRead]
        · conv => lhs; unfold memRead
          rw [if_neg h, ih (x + 1) a v b hm]
          by_cases hb : b = a
          · simp [hb]
          · simp [hb, memRead, h]

/-- What a write leaves at each address. -/
theorem memRead_memWrite (m : Memory) (a : Nat) (v : Byte) (b : Nat) (w : m.wf = true) :
    memRead (memWrite m a v) b = if b = a then v else memRead m b :=
  memRead_memWrite_from m 0 a v b w

/-- What writing a list of bytes leaves at an address outside them. -/
theorem memRead_memWriteBytes_outside (bs : List Byte) : ∀ (m : Memory) (a b : Nat), m.wf = true →
    (b < a ∨ a + bs.length ≤ b) → memRead (memWriteBytes m a bs) b = memRead m b := by
  induction bs with
  | nil => intros; rfl
  | cons x bs ih =>
    intro m a b w h
    simp only [List.length_cons] at h
    unfold memWriteBytes
    rw [ih _ _ _ (memWrite_wf m a x w) (by omega), memRead_memWrite m a x b w, if_neg (by omega)]

/-- What writing a list of bytes leaves at an address among them. -/
theorem memRead_memWriteBytes_inside (bs : List Byte) : ∀ (m : Memory) (a i : Nat), m.wf = true →
    (h : i < bs.length) → memRead (memWriteBytes m a bs) (a + i) = bs[i] := by
  induction bs with
  | nil => intro m a i _ h; exact absurd h (by simp)
  | cons x bs ih =>
    intro m a i w h
    unfold memWriteBytes
    cases i with
    | zero =>
      rw [memRead_memWriteBytes_outside bs _ _ _ (memWrite_wf m a x w) (by omega),
        memRead_memWrite m a x _ w]
      simp
    | succ i =>
      have := ih (memWrite m a x) (a + 1) i (memWrite_wf m a x w) (by simpa using h)
      rw [show a + (i + 1) = a + 1 + i by omega, this]
      simp

end Sys2Proof.Laws
end

