-- ==== Sys2Proof/Laws/State.lean ====
section
/-! SUPPORT. Reading a field after an update: one lemma per field per update, true by rfl. -/

namespace Sys2Proof.Laws

open Sys2Proof.Machine

@[simp] theorem start_withStart (s : State) (x : StartUnit) : (s.withStart x).start = x := rfl
@[simp] theorem image_withStart (s : State) (x : StartUnit) : (s.withStart x).image = s.image := rfl
@[simp] theorem time_withStart (s : State) (x : StartUnit) : (s.withStart x).time = s.time := rfl
@[simp] theorem line_withStart (s : State) (x : StartUnit) : (s.withStart x).line = s.line := rfl
@[simp] theorem plan_withStart (s : State) (x : StartUnit) : (s.withStart x).plan = s.plan := rfl
@[simp] theorem bells_withStart (s : State) (x : StartUnit) : (s.withStart x).bells = s.bells := rfl
@[simp] theorem clocks_withStart (s : State) (x : StartUnit) : (s.withStart x).clocks = s.clocks := rfl
@[simp] theorem arb_withStart (s : State) (x : StartUnit) : (s.withStart x).arb = s.arb := rfl
@[simp] theorem synth_withStart (s : State) (x : StartUnit) : (s.withStart x).synth = s.synth := rfl
@[simp] theorem ann_withStart (s : State) (x : StartUnit) : (s.withStart x).ann = s.ann := rfl
@[simp] theorem drill_withStart (s : State) (x : StartUnit) : (s.withStart x).drill = s.drill := rfl
@[simp] theorem faults_withStart (s : State) (x : StartUnit) : (s.withStart x).faults = s.faults := rfl
@[simp] theorem port_withStart (s : State) (x : StartUnit) : (s.withStart x).port = s.port := rfl
@[simp] theorem store_withStart (s : State) (x : StartUnit) : (s.withStart x).store = s.store := rfl
@[simp] theorem mem_withStart (s : State) (x : StartUnit) : (s.withStart x).mem = s.mem := rfl
@[simp] theorem pins_withStart (s : State) (x : StartUnit) : (s.withStart x).pins = s.pins := rfl
@[simp] theorem fresh_withStart (s : State) (x : StartUnit) : (s.withStart x).fresh = s.fresh := rfl
@[simp] theorem pending_withStart (s : State) (x : StartUnit) : (s.withStart x).pending = s.pending := rfl

@[simp] theorem start_withImage (s : State) (x : Image) : (s.withImage x).start = s.start := rfl
@[simp] theorem image_withImage (s : State) (x : Image) : (s.withImage x).image = x := rfl
@[simp] theorem time_withImage (s : State) (x : Image) : (s.withImage x).time = s.time := rfl
@[simp] theorem line_withImage (s : State) (x : Image) : (s.withImage x).line = s.line := rfl
@[simp] theorem plan_withImage (s : State) (x : Image) : (s.withImage x).plan = s.plan := rfl
@[simp] theorem bells_withImage (s : State) (x : Image) : (s.withImage x).bells = s.bells := rfl
@[simp] theorem clocks_withImage (s : State) (x : Image) : (s.withImage x).clocks = s.clocks := rfl
@[simp] theorem arb_withImage (s : State) (x : Image) : (s.withImage x).arb = s.arb := rfl
@[simp] theorem synth_withImage (s : State) (x : Image) : (s.withImage x).synth = s.synth := rfl
@[simp] theorem ann_withImage (s : State) (x : Image) : (s.withImage x).ann = s.ann := rfl
@[simp] theorem drill_withImage (s : State) (x : Image) : (s.withImage x).drill = s.drill := rfl
@[simp] theorem faults_withImage (s : State) (x : Image) : (s.withImage x).faults = s.faults := rfl
@[simp] theorem port_withImage (s : State) (x : Image) : (s.withImage x).port = s.port := rfl
@[simp] theorem store_withImage (s : State) (x : Image) : (s.withImage x).store = s.store := rfl
@[simp] theorem mem_withImage (s : State) (x : Image) : (s.withImage x).mem = s.mem := rfl
@[simp] theorem pins_withImage (s : State) (x : Image) : (s.withImage x).pins = s.pins := rfl
@[simp] theorem fresh_withImage (s : State) (x : Image) : (s.withImage x).fresh = s.fresh := rfl
@[simp] theorem pending_withImage (s : State) (x : Image) : (s.withImage x).pending = s.pending := rfl

@[simp] theorem start_withTime (s : State) (x : TimeUnit) : (s.withTime x).start = s.start := rfl
@[simp] theorem image_withTime (s : State) (x : TimeUnit) : (s.withTime x).image = s.image := rfl
@[simp] theorem time_withTime (s : State) (x : TimeUnit) : (s.withTime x).time = x := rfl
@[simp] theorem line_withTime (s : State) (x : TimeUnit) : (s.withTime x).line = s.line := rfl
@[simp] theorem plan_withTime (s : State) (x : TimeUnit) : (s.withTime x).plan = s.plan := rfl
@[simp] theorem bells_withTime (s : State) (x : TimeUnit) : (s.withTime x).bells = s.bells := rfl
@[simp] theorem clocks_withTime (s : State) (x : TimeUnit) : (s.withTime x).clocks = s.clocks := rfl
@[simp] theorem arb_withTime (s : State) (x : TimeUnit) : (s.withTime x).arb = s.arb := rfl
@[simp] theorem synth_withTime (s : State) (x : TimeUnit) : (s.withTime x).synth = s.synth := rfl
@[simp] theorem ann_withTime (s : State) (x : TimeUnit) : (s.withTime x).ann = s.ann := rfl
@[simp] theorem drill_withTime (s : State) (x : TimeUnit) : (s.withTime x).drill = s.drill := rfl
@[simp] theorem faults_withTime (s : State) (x : TimeUnit) : (s.withTime x).faults = s.faults := rfl
@[simp] theorem port_withTime (s : State) (x : TimeUnit) : (s.withTime x).port = s.port := rfl
@[simp] theorem store_withTime (s : State) (x : TimeUnit) : (s.withTime x).store = s.store := rfl
@[simp] theorem mem_withTime (s : State) (x : TimeUnit) : (s.withTime x).mem = s.mem := rfl
@[simp] theorem pins_withTime (s : State) (x : TimeUnit) : (s.withTime x).pins = s.pins := rfl
@[simp] theorem fresh_withTime (s : State) (x : TimeUnit) : (s.withTime x).fresh = s.fresh := rfl
@[simp] theorem pending_withTime (s : State) (x : TimeUnit) : (s.withTime x).pending = s.pending := rfl

@[simp] theorem start_withLine (s : State) (x : LineUnit) : (s.withLine x).start = s.start := rfl
@[simp] theorem image_withLine (s : State) (x : LineUnit) : (s.withLine x).image = s.image := rfl
@[simp] theorem time_withLine (s : State) (x : LineUnit) : (s.withLine x).time = s.time := rfl
@[simp] theorem line_withLine (s : State) (x : LineUnit) : (s.withLine x).line = x := rfl
@[simp] theorem plan_withLine (s : State) (x : LineUnit) : (s.withLine x).plan = s.plan := rfl
@[simp] theorem bells_withLine (s : State) (x : LineUnit) : (s.withLine x).bells = s.bells := rfl
@[simp] theorem clocks_withLine (s : State) (x : LineUnit) : (s.withLine x).clocks = s.clocks := rfl
@[simp] theorem arb_withLine (s : State) (x : LineUnit) : (s.withLine x).arb = s.arb := rfl
@[simp] theorem synth_withLine (s : State) (x : LineUnit) : (s.withLine x).synth = s.synth := rfl
@[simp] theorem ann_withLine (s : State) (x : LineUnit) : (s.withLine x).ann = s.ann := rfl
@[simp] theorem drill_withLine (s : State) (x : LineUnit) : (s.withLine x).drill = s.drill := rfl
@[simp] theorem faults_withLine (s : State) (x : LineUnit) : (s.withLine x).faults = s.faults := rfl
@[simp] theorem port_withLine (s : State) (x : LineUnit) : (s.withLine x).port = s.port := rfl
@[simp] theorem store_withLine (s : State) (x : LineUnit) : (s.withLine x).store = s.store := rfl
@[simp] theorem mem_withLine (s : State) (x : LineUnit) : (s.withLine x).mem = s.mem := rfl
@[simp] theorem pins_withLine (s : State) (x : LineUnit) : (s.withLine x).pins = s.pins := rfl
@[simp] theorem fresh_withLine (s : State) (x : LineUnit) : (s.withLine x).fresh = s.fresh := rfl
@[simp] theorem pending_withLine (s : State) (x : LineUnit) : (s.withLine x).pending = s.pending := rfl

@[simp] theorem start_withPlan (s : State) (x : PlanUnit) : (s.withPlan x).start = s.start := rfl
@[simp] theorem image_withPlan (s : State) (x : PlanUnit) : (s.withPlan x).image = s.image := rfl
@[simp] theorem time_withPlan (s : State) (x : PlanUnit) : (s.withPlan x).time = s.time := rfl
@[simp] theorem line_withPlan (s : State) (x : PlanUnit) : (s.withPlan x).line = s.line := rfl
@[simp] theorem plan_withPlan (s : State) (x : PlanUnit) : (s.withPlan x).plan = x := rfl
@[simp] theorem bells_withPlan (s : State) (x : PlanUnit) : (s.withPlan x).bells = s.bells := rfl
@[simp] theorem clocks_withPlan (s : State) (x : PlanUnit) : (s.withPlan x).clocks = s.clocks := rfl
@[simp] theorem arb_withPlan (s : State) (x : PlanUnit) : (s.withPlan x).arb = s.arb := rfl
@[simp] theorem synth_withPlan (s : State) (x : PlanUnit) : (s.withPlan x).synth = s.synth := rfl
@[simp] theorem ann_withPlan (s : State) (x : PlanUnit) : (s.withPlan x).ann = s.ann := rfl
@[simp] theorem drill_withPlan (s : State) (x : PlanUnit) : (s.withPlan x).drill = s.drill := rfl
@[simp] theorem faults_withPlan (s : State) (x : PlanUnit) : (s.withPlan x).faults = s.faults := rfl
@[simp] theorem port_withPlan (s : State) (x : PlanUnit) : (s.withPlan x).port = s.port := rfl
@[simp] theorem store_withPlan (s : State) (x : PlanUnit) : (s.withPlan x).store = s.store := rfl
@[simp] theorem mem_withPlan (s : State) (x : PlanUnit) : (s.withPlan x).mem = s.mem := rfl
@[simp] theorem pins_withPlan (s : State) (x : PlanUnit) : (s.withPlan x).pins = s.pins := rfl
@[simp] theorem fresh_withPlan (s : State) (x : PlanUnit) : (s.withPlan x).fresh = s.fresh := rfl
@[simp] theorem pending_withPlan (s : State) (x : PlanUnit) : (s.withPlan x).pending = s.pending := rfl

@[simp] theorem start_withBells (s : State) (x : BellUnit) : (s.withBells x).start = s.start := rfl
@[simp] theorem image_withBells (s : State) (x : BellUnit) : (s.withBells x).image = s.image := rfl
@[simp] theorem time_withBells (s : State) (x : BellUnit) : (s.withBells x).time = s.time := rfl
@[simp] theorem line_withBells (s : State) (x : BellUnit) : (s.withBells x).line = s.line := rfl
@[simp] theorem plan_withBells (s : State) (x : BellUnit) : (s.withBells x).plan = s.plan := rfl
@[simp] theorem bells_withBells (s : State) (x : BellUnit) : (s.withBells x).bells = x := rfl
@[simp] theorem clocks_withBells (s : State) (x : BellUnit) : (s.withBells x).clocks = s.clocks := rfl
@[simp] theorem arb_withBells (s : State) (x : BellUnit) : (s.withBells x).arb = s.arb := rfl
@[simp] theorem synth_withBells (s : State) (x : BellUnit) : (s.withBells x).synth = s.synth := rfl
@[simp] theorem ann_withBells (s : State) (x : BellUnit) : (s.withBells x).ann = s.ann := rfl
@[simp] theorem drill_withBells (s : State) (x : BellUnit) : (s.withBells x).drill = s.drill := rfl
@[simp] theorem faults_withBells (s : State) (x : BellUnit) : (s.withBells x).faults = s.faults := rfl
@[simp] theorem port_withBells (s : State) (x : BellUnit) : (s.withBells x).port = s.port := rfl
@[simp] theorem store_withBells (s : State) (x : BellUnit) : (s.withBells x).store = s.store := rfl
@[simp] theorem mem_withBells (s : State) (x : BellUnit) : (s.withBells x).mem = s.mem := rfl
@[simp] theorem pins_withBells (s : State) (x : BellUnit) : (s.withBells x).pins = s.pins := rfl
@[simp] theorem fresh_withBells (s : State) (x : BellUnit) : (s.withBells x).fresh = s.fresh := rfl
@[simp] theorem pending_withBells (s : State) (x : BellUnit) : (s.withBells x).pending = s.pending := rfl

@[simp] theorem start_withClocks (s : State) (x : Vector ClockCircuit 4) : (s.withClocks x).start = s.start := rfl
@[simp] theorem image_withClocks (s : State) (x : Vector ClockCircuit 4) : (s.withClocks x).image = s.image := rfl
@[simp] theorem time_withClocks (s : State) (x : Vector ClockCircuit 4) : (s.withClocks x).time = s.time := rfl
@[simp] theorem line_withClocks (s : State) (x : Vector ClockCircuit 4) : (s.withClocks x).line = s.line := rfl
@[simp] theorem plan_withClocks (s : State) (x : Vector ClockCircuit 4) : (s.withClocks x).plan = s.plan := rfl
@[simp] theorem bells_withClocks (s : State) (x : Vector ClockCircuit 4) : (s.withClocks x).bells = s.bells := rfl
@[simp] theorem clocks_withClocks (s : State) (x : Vector ClockCircuit 4) : (s.withClocks x).clocks = x := rfl
@[simp] theorem arb_withClocks (s : State) (x : Vector ClockCircuit 4) : (s.withClocks x).arb = s.arb := rfl
@[simp] theorem synth_withClocks (s : State) (x : Vector ClockCircuit 4) : (s.withClocks x).synth = s.synth := rfl
@[simp] theorem ann_withClocks (s : State) (x : Vector ClockCircuit 4) : (s.withClocks x).ann = s.ann := rfl
@[simp] theorem drill_withClocks (s : State) (x : Vector ClockCircuit 4) : (s.withClocks x).drill = s.drill := rfl
@[simp] theorem faults_withClocks (s : State) (x : Vector ClockCircuit 4) : (s.withClocks x).faults = s.faults := rfl
@[simp] theorem port_withClocks (s : State) (x : Vector ClockCircuit 4) : (s.withClocks x).port = s.port := rfl
@[simp] theorem store_withClocks (s : State) (x : Vector ClockCircuit 4) : (s.withClocks x).store = s.store := rfl
@[simp] theorem mem_withClocks (s : State) (x : Vector ClockCircuit 4) : (s.withClocks x).mem = s.mem := rfl
@[simp] theorem pins_withClocks (s : State) (x : Vector ClockCircuit 4) : (s.withClocks x).pins = s.pins := rfl
@[simp] theorem fresh_withClocks (s : State) (x : Vector ClockCircuit 4) : (s.withClocks x).fresh = s.fresh := rfl
@[simp] theorem pending_withClocks (s : State) (x : Vector ClockCircuit 4) : (s.withClocks x).pending = s.pending := rfl

@[simp] theorem start_withArb (s : State) (x : Arbiter) : (s.withArb x).start = s.start := rfl
@[simp] theorem image_withArb (s : State) (x : Arbiter) : (s.withArb x).image = s.image := rfl
@[simp] theorem time_withArb (s : State) (x : Arbiter) : (s.withArb x).time = s.time := rfl
@[simp] theorem line_withArb (s : State) (x : Arbiter) : (s.withArb x).line = s.line := rfl
@[simp] theorem plan_withArb (s : State) (x : Arbiter) : (s.withArb x).plan = s.plan := rfl
@[simp] theorem bells_withArb (s : State) (x : Arbiter) : (s.withArb x).bells = s.bells := rfl
@[simp] theorem clocks_withArb (s : State) (x : Arbiter) : (s.withArb x).clocks = s.clocks := rfl
@[simp] theorem arb_withArb (s : State) (x : Arbiter) : (s.withArb x).arb = x := rfl
@[simp] theorem synth_withArb (s : State) (x : Arbiter) : (s.withArb x).synth = s.synth := rfl
@[simp] theorem ann_withArb (s : State) (x : Arbiter) : (s.withArb x).ann = s.ann := rfl
@[simp] theorem drill_withArb (s : State) (x : Arbiter) : (s.withArb x).drill = s.drill := rfl
@[simp] theorem faults_withArb (s : State) (x : Arbiter) : (s.withArb x).faults = s.faults := rfl
@[simp] theorem port_withArb (s : State) (x : Arbiter) : (s.withArb x).port = s.port := rfl
@[simp] theorem store_withArb (s : State) (x : Arbiter) : (s.withArb x).store = s.store := rfl
@[simp] theorem mem_withArb (s : State) (x : Arbiter) : (s.withArb x).mem = s.mem := rfl
@[simp] theorem pins_withArb (s : State) (x : Arbiter) : (s.withArb x).pins = s.pins := rfl
@[simp] theorem fresh_withArb (s : State) (x : Arbiter) : (s.withArb x).fresh = s.fresh := rfl
@[simp] theorem pending_withArb (s : State) (x : Arbiter) : (s.withArb x).pending = s.pending := rfl

@[simp] theorem start_withSynth (s : State) (x : Synth) : (s.withSynth x).start = s.start := rfl
@[simp] theorem image_withSynth (s : State) (x : Synth) : (s.withSynth x).image = s.image := rfl
@[simp] theorem time_withSynth (s : State) (x : Synth) : (s.withSynth x).time = s.time := rfl
@[simp] theorem line_withSynth (s : State) (x : Synth) : (s.withSynth x).line = s.line := rfl
@[simp] theorem plan_withSynth (s : State) (x : Synth) : (s.withSynth x).plan = s.plan := rfl
@[simp] theorem bells_withSynth (s : State) (x : Synth) : (s.withSynth x).bells = s.bells := rfl
@[simp] theorem clocks_withSynth (s : State) (x : Synth) : (s.withSynth x).clocks = s.clocks := rfl
@[simp] theorem arb_withSynth (s : State) (x : Synth) : (s.withSynth x).arb = s.arb := rfl
@[simp] theorem synth_withSynth (s : State) (x : Synth) : (s.withSynth x).synth = x := rfl
@[simp] theorem ann_withSynth (s : State) (x : Synth) : (s.withSynth x).ann = s.ann := rfl
@[simp] theorem drill_withSynth (s : State) (x : Synth) : (s.withSynth x).drill = s.drill := rfl
@[simp] theorem faults_withSynth (s : State) (x : Synth) : (s.withSynth x).faults = s.faults := rfl
@[simp] theorem port_withSynth (s : State) (x : Synth) : (s.withSynth x).port = s.port := rfl
@[simp] theorem store_withSynth (s : State) (x : Synth) : (s.withSynth x).store = s.store := rfl
@[simp] theorem mem_withSynth (s : State) (x : Synth) : (s.withSynth x).mem = s.mem := rfl
@[simp] theorem pins_withSynth (s : State) (x : Synth) : (s.withSynth x).pins = s.pins := rfl
@[simp] theorem fresh_withSynth (s : State) (x : Synth) : (s.withSynth x).fresh = s.fresh := rfl
@[simp] theorem pending_withSynth (s : State) (x : Synth) : (s.withSynth x).pending = s.pending := rfl

@[simp] theorem start_withAnn (s : State) (x : AnnUnit) : (s.withAnn x).start = s.start := rfl
@[simp] theorem image_withAnn (s : State) (x : AnnUnit) : (s.withAnn x).image = s.image := rfl
@[simp] theorem time_withAnn (s : State) (x : AnnUnit) : (s.withAnn x).time = s.time := rfl
@[simp] theorem line_withAnn (s : State) (x : AnnUnit) : (s.withAnn x).line = s.line := rfl
@[simp] theorem plan_withAnn (s : State) (x : AnnUnit) : (s.withAnn x).plan = s.plan := rfl
@[simp] theorem bells_withAnn (s : State) (x : AnnUnit) : (s.withAnn x).bells = s.bells := rfl
@[simp] theorem clocks_withAnn (s : State) (x : AnnUnit) : (s.withAnn x).clocks = s.clocks := rfl
@[simp] theorem arb_withAnn (s : State) (x : AnnUnit) : (s.withAnn x).arb = s.arb := rfl
@[simp] theorem synth_withAnn (s : State) (x : AnnUnit) : (s.withAnn x).synth = s.synth := rfl
@[simp] theorem ann_withAnn (s : State) (x : AnnUnit) : (s.withAnn x).ann = x := rfl
@[simp] theorem drill_withAnn (s : State) (x : AnnUnit) : (s.withAnn x).drill = s.drill := rfl
@[simp] theorem faults_withAnn (s : State) (x : AnnUnit) : (s.withAnn x).faults = s.faults := rfl
@[simp] theorem port_withAnn (s : State) (x : AnnUnit) : (s.withAnn x).port = s.port := rfl
@[simp] theorem store_withAnn (s : State) (x : AnnUnit) : (s.withAnn x).store = s.store := rfl
@[simp] theorem mem_withAnn (s : State) (x : AnnUnit) : (s.withAnn x).mem = s.mem := rfl
@[simp] theorem pins_withAnn (s : State) (x : AnnUnit) : (s.withAnn x).pins = s.pins := rfl
@[simp] theorem fresh_withAnn (s : State) (x : AnnUnit) : (s.withAnn x).fresh = s.fresh := rfl
@[simp] theorem pending_withAnn (s : State) (x : AnnUnit) : (s.withAnn x).pending = s.pending := rfl

@[simp] theorem start_withDrill (s : State) (x : DrillUnit) : (s.withDrill x).start = s.start := rfl
@[simp] theorem image_withDrill (s : State) (x : DrillUnit) : (s.withDrill x).image = s.image := rfl
@[simp] theorem time_withDrill (s : State) (x : DrillUnit) : (s.withDrill x).time = s.time := rfl
@[simp] theorem line_withDrill (s : State) (x : DrillUnit) : (s.withDrill x).line = s.line := rfl
@[simp] theorem plan_withDrill (s : State) (x : DrillUnit) : (s.withDrill x).plan = s.plan := rfl
@[simp] theorem bells_withDrill (s : State) (x : DrillUnit) : (s.withDrill x).bells = s.bells := rfl
@[simp] theorem clocks_withDrill (s : State) (x : DrillUnit) : (s.withDrill x).clocks = s.clocks := rfl
@[simp] theorem arb_withDrill (s : State) (x : DrillUnit) : (s.withDrill x).arb = s.arb := rfl
@[simp] theorem synth_withDrill (s : State) (x : DrillUnit) : (s.withDrill x).synth = s.synth := rfl
@[simp] theorem ann_withDrill (s : State) (x : DrillUnit) : (s.withDrill x).ann = s.ann := rfl
@[simp] theorem drill_withDrill (s : State) (x : DrillUnit) : (s.withDrill x).drill = x := rfl
@[simp] theorem faults_withDrill (s : State) (x : DrillUnit) : (s.withDrill x).faults = s.faults := rfl
@[simp] theorem port_withDrill (s : State) (x : DrillUnit) : (s.withDrill x).port = s.port := rfl
@[simp] theorem store_withDrill (s : State) (x : DrillUnit) : (s.withDrill x).store = s.store := rfl
@[simp] theorem mem_withDrill (s : State) (x : DrillUnit) : (s.withDrill x).mem = s.mem := rfl
@[simp] theorem pins_withDrill (s : State) (x : DrillUnit) : (s.withDrill x).pins = s.pins := rfl
@[simp] theorem fresh_withDrill (s : State) (x : DrillUnit) : (s.withDrill x).fresh = s.fresh := rfl
@[simp] theorem pending_withDrill (s : State) (x : DrillUnit) : (s.withDrill x).pending = s.pending := rfl

@[simp] theorem start_withFaults (s : State) (x : FaultUnit) : (s.withFaults x).start = s.start := rfl
@[simp] theorem image_withFaults (s : State) (x : FaultUnit) : (s.withFaults x).image = s.image := rfl
@[simp] theorem time_withFaults (s : State) (x : FaultUnit) : (s.withFaults x).time = s.time := rfl
@[simp] theorem line_withFaults (s : State) (x : FaultUnit) : (s.withFaults x).line = s.line := rfl
@[simp] theorem plan_withFaults (s : State) (x : FaultUnit) : (s.withFaults x).plan = s.plan := rfl
@[simp] theorem bells_withFaults (s : State) (x : FaultUnit) : (s.withFaults x).bells = s.bells := rfl
@[simp] theorem clocks_withFaults (s : State) (x : FaultUnit) : (s.withFaults x).clocks = s.clocks := rfl
@[simp] theorem arb_withFaults (s : State) (x : FaultUnit) : (s.withFaults x).arb = s.arb := rfl
@[simp] theorem synth_withFaults (s : State) (x : FaultUnit) : (s.withFaults x).synth = s.synth := rfl
@[simp] theorem ann_withFaults (s : State) (x : FaultUnit) : (s.withFaults x).ann = s.ann := rfl
@[simp] theorem drill_withFaults (s : State) (x : FaultUnit) : (s.withFaults x).drill = s.drill := rfl
@[simp] theorem faults_withFaults (s : State) (x : FaultUnit) : (s.withFaults x).faults = x := rfl
@[simp] theorem port_withFaults (s : State) (x : FaultUnit) : (s.withFaults x).port = s.port := rfl
@[simp] theorem store_withFaults (s : State) (x : FaultUnit) : (s.withFaults x).store = s.store := rfl
@[simp] theorem mem_withFaults (s : State) (x : FaultUnit) : (s.withFaults x).mem = s.mem := rfl
@[simp] theorem pins_withFaults (s : State) (x : FaultUnit) : (s.withFaults x).pins = s.pins := rfl
@[simp] theorem fresh_withFaults (s : State) (x : FaultUnit) : (s.withFaults x).fresh = s.fresh := rfl
@[simp] theorem pending_withFaults (s : State) (x : FaultUnit) : (s.withFaults x).pending = s.pending := rfl

@[simp] theorem start_withPort (s : State) (x : PanelPort) : (s.withPort x).start = s.start := rfl
@[simp] theorem image_withPort (s : State) (x : PanelPort) : (s.withPort x).image = s.image := rfl
@[simp] theorem time_withPort (s : State) (x : PanelPort) : (s.withPort x).time = s.time := rfl
@[simp] theorem line_withPort (s : State) (x : PanelPort) : (s.withPort x).line = s.line := rfl
@[simp] theorem plan_withPort (s : State) (x : PanelPort) : (s.withPort x).plan = s.plan := rfl
@[simp] theorem bells_withPort (s : State) (x : PanelPort) : (s.withPort x).bells = s.bells := rfl
@[simp] theorem clocks_withPort (s : State) (x : PanelPort) : (s.withPort x).clocks = s.clocks := rfl
@[simp] theorem arb_withPort (s : State) (x : PanelPort) : (s.withPort x).arb = s.arb := rfl
@[simp] theorem synth_withPort (s : State) (x : PanelPort) : (s.withPort x).synth = s.synth := rfl
@[simp] theorem ann_withPort (s : State) (x : PanelPort) : (s.withPort x).ann = s.ann := rfl
@[simp] theorem drill_withPort (s : State) (x : PanelPort) : (s.withPort x).drill = s.drill := rfl
@[simp] theorem faults_withPort (s : State) (x : PanelPort) : (s.withPort x).faults = s.faults := rfl
@[simp] theorem port_withPort (s : State) (x : PanelPort) : (s.withPort x).port = x := rfl
@[simp] theorem store_withPort (s : State) (x : PanelPort) : (s.withPort x).store = s.store := rfl
@[simp] theorem mem_withPort (s : State) (x : PanelPort) : (s.withPort x).mem = s.mem := rfl
@[simp] theorem pins_withPort (s : State) (x : PanelPort) : (s.withPort x).pins = s.pins := rfl
@[simp] theorem fresh_withPort (s : State) (x : PanelPort) : (s.withPort x).fresh = s.fresh := rfl
@[simp] theorem pending_withPort (s : State) (x : PanelPort) : (s.withPort x).pending = s.pending := rfl

@[simp] theorem start_withStore (s : State) (x : RecordStore) : (s.withStore x).start = s.start := rfl
@[simp] theorem image_withStore (s : State) (x : RecordStore) : (s.withStore x).image = s.image := rfl
@[simp] theorem time_withStore (s : State) (x : RecordStore) : (s.withStore x).time = s.time := rfl
@[simp] theorem line_withStore (s : State) (x : RecordStore) : (s.withStore x).line = s.line := rfl
@[simp] theorem plan_withStore (s : State) (x : RecordStore) : (s.withStore x).plan = s.plan := rfl
@[simp] theorem bells_withStore (s : State) (x : RecordStore) : (s.withStore x).bells = s.bells := rfl
@[simp] theorem clocks_withStore (s : State) (x : RecordStore) : (s.withStore x).clocks = s.clocks := rfl
@[simp] theorem arb_withStore (s : State) (x : RecordStore) : (s.withStore x).arb = s.arb := rfl
@[simp] theorem synth_withStore (s : State) (x : RecordStore) : (s.withStore x).synth = s.synth := rfl
@[simp] theorem ann_withStore (s : State) (x : RecordStore) : (s.withStore x).ann = s.ann := rfl
@[simp] theorem drill_withStore (s : State) (x : RecordStore) : (s.withStore x).drill = s.drill := rfl
@[simp] theorem faults_withStore (s : State) (x : RecordStore) : (s.withStore x).faults = s.faults := rfl
@[simp] theorem port_withStore (s : State) (x : RecordStore) : (s.withStore x).port = s.port := rfl
@[simp] theorem store_withStore (s : State) (x : RecordStore) : (s.withStore x).store = x := rfl
@[simp] theorem mem_withStore (s : State) (x : RecordStore) : (s.withStore x).mem = s.mem := rfl
@[simp] theorem pins_withStore (s : State) (x : RecordStore) : (s.withStore x).pins = s.pins := rfl
@[simp] theorem fresh_withStore (s : State) (x : RecordStore) : (s.withStore x).fresh = s.fresh := rfl
@[simp] theorem pending_withStore (s : State) (x : RecordStore) : (s.withStore x).pending = s.pending := rfl

@[simp] theorem start_withMem (s : State) (x : Memory) : (s.withMem x).start = s.start := rfl
@[simp] theorem image_withMem (s : State) (x : Memory) : (s.withMem x).image = s.image := rfl
@[simp] theorem time_withMem (s : State) (x : Memory) : (s.withMem x).time = s.time := rfl
@[simp] theorem line_withMem (s : State) (x : Memory) : (s.withMem x).line = s.line := rfl
@[simp] theorem plan_withMem (s : State) (x : Memory) : (s.withMem x).plan = s.plan := rfl
@[simp] theorem bells_withMem (s : State) (x : Memory) : (s.withMem x).bells = s.bells := rfl
@[simp] theorem clocks_withMem (s : State) (x : Memory) : (s.withMem x).clocks = s.clocks := rfl
@[simp] theorem arb_withMem (s : State) (x : Memory) : (s.withMem x).arb = s.arb := rfl
@[simp] theorem synth_withMem (s : State) (x : Memory) : (s.withMem x).synth = s.synth := rfl
@[simp] theorem ann_withMem (s : State) (x : Memory) : (s.withMem x).ann = s.ann := rfl
@[simp] theorem drill_withMem (s : State) (x : Memory) : (s.withMem x).drill = s.drill := rfl
@[simp] theorem faults_withMem (s : State) (x : Memory) : (s.withMem x).faults = s.faults := rfl
@[simp] theorem port_withMem (s : State) (x : Memory) : (s.withMem x).port = s.port := rfl
@[simp] theorem store_withMem (s : State) (x : Memory) : (s.withMem x).store = s.store := rfl
@[simp] theorem mem_withMem (s : State) (x : Memory) : (s.withMem x).mem = x := rfl
@[simp] theorem pins_withMem (s : State) (x : Memory) : (s.withMem x).pins = s.pins := rfl
@[simp] theorem fresh_withMem (s : State) (x : Memory) : (s.withMem x).fresh = s.fresh := rfl
@[simp] theorem pending_withMem (s : State) (x : Memory) : (s.withMem x).pending = s.pending := rfl

@[simp] theorem start_withPins (s : State) (x : Pins) : (s.withPins x).start = s.start := rfl
@[simp] theorem image_withPins (s : State) (x : Pins) : (s.withPins x).image = s.image := rfl
@[simp] theorem time_withPins (s : State) (x : Pins) : (s.withPins x).time = s.time := rfl
@[simp] theorem line_withPins (s : State) (x : Pins) : (s.withPins x).line = s.line := rfl
@[simp] theorem plan_withPins (s : State) (x : Pins) : (s.withPins x).plan = s.plan := rfl
@[simp] theorem bells_withPins (s : State) (x : Pins) : (s.withPins x).bells = s.bells := rfl
@[simp] theorem clocks_withPins (s : State) (x : Pins) : (s.withPins x).clocks = s.clocks := rfl
@[simp] theorem arb_withPins (s : State) (x : Pins) : (s.withPins x).arb = s.arb := rfl
@[simp] theorem synth_withPins (s : State) (x : Pins) : (s.withPins x).synth = s.synth := rfl
@[simp] theorem ann_withPins (s : State) (x : Pins) : (s.withPins x).ann = s.ann := rfl
@[simp] theorem drill_withPins (s : State) (x : Pins) : (s.withPins x).drill = s.drill := rfl
@[simp] theorem faults_withPins (s : State) (x : Pins) : (s.withPins x).faults = s.faults := rfl
@[simp] theorem port_withPins (s : State) (x : Pins) : (s.withPins x).port = s.port := rfl
@[simp] theorem store_withPins (s : State) (x : Pins) : (s.withPins x).store = s.store := rfl
@[simp] theorem mem_withPins (s : State) (x : Pins) : (s.withPins x).mem = s.mem := rfl
@[simp] theorem pins_withPins (s : State) (x : Pins) : (s.withPins x).pins = x := rfl
@[simp] theorem fresh_withPins (s : State) (x : Pins) : (s.withPins x).fresh = s.fresh := rfl
@[simp] theorem pending_withPins (s : State) (x : Pins) : (s.withPins x).pending = s.pending := rfl

@[simp] theorem start_withFresh (s : State) (x : Nat) : (s.withFresh x).start = s.start := rfl
@[simp] theorem image_withFresh (s : State) (x : Nat) : (s.withFresh x).image = s.image := rfl
@[simp] theorem time_withFresh (s : State) (x : Nat) : (s.withFresh x).time = s.time := rfl
@[simp] theorem line_withFresh (s : State) (x : Nat) : (s.withFresh x).line = s.line := rfl
@[simp] theorem plan_withFresh (s : State) (x : Nat) : (s.withFresh x).plan = s.plan := rfl
@[simp] theorem bells_withFresh (s : State) (x : Nat) : (s.withFresh x).bells = s.bells := rfl
@[simp] theorem clocks_withFresh (s : State) (x : Nat) : (s.withFresh x).clocks = s.clocks := rfl
@[simp] theorem arb_withFresh (s : State) (x : Nat) : (s.withFresh x).arb = s.arb := rfl
@[simp] theorem synth_withFresh (s : State) (x : Nat) : (s.withFresh x).synth = s.synth := rfl
@[simp] theorem ann_withFresh (s : State) (x : Nat) : (s.withFresh x).ann = s.ann := rfl
@[simp] theorem drill_withFresh (s : State) (x : Nat) : (s.withFresh x).drill = s.drill := rfl
@[simp] theorem faults_withFresh (s : State) (x : Nat) : (s.withFresh x).faults = s.faults := rfl
@[simp] theorem port_withFresh (s : State) (x : Nat) : (s.withFresh x).port = s.port := rfl
@[simp] theorem store_withFresh (s : State) (x : Nat) : (s.withFresh x).store = s.store := rfl
@[simp] theorem mem_withFresh (s : State) (x : Nat) : (s.withFresh x).mem = s.mem := rfl
@[simp] theorem pins_withFresh (s : State) (x : Nat) : (s.withFresh x).pins = s.pins := rfl
@[simp] theorem fresh_withFresh (s : State) (x : Nat) : (s.withFresh x).fresh = x := rfl
@[simp] theorem pending_withFresh (s : State) (x : Nat) : (s.withFresh x).pending = s.pending := rfl

@[simp] theorem start_withPending (s : State) (x : List Instr) : (s.withPending x).start = s.start := rfl
@[simp] theorem image_withPending (s : State) (x : List Instr) : (s.withPending x).image = s.image := rfl
@[simp] theorem time_withPending (s : State) (x : List Instr) : (s.withPending x).time = s.time := rfl
@[simp] theorem line_withPending (s : State) (x : List Instr) : (s.withPending x).line = s.line := rfl
@[simp] theorem plan_withPending (s : State) (x : List Instr) : (s.withPending x).plan = s.plan := rfl
@[simp] theorem bells_withPending (s : State) (x : List Instr) : (s.withPending x).bells = s.bells := rfl
@[simp] theorem clocks_withPending (s : State) (x : List Instr) : (s.withPending x).clocks = s.clocks := rfl
@[simp] theorem arb_withPending (s : State) (x : List Instr) : (s.withPending x).arb = s.arb := rfl
@[simp] theorem synth_withPending (s : State) (x : List Instr) : (s.withPending x).synth = s.synth := rfl
@[simp] theorem ann_withPending (s : State) (x : List Instr) : (s.withPending x).ann = s.ann := rfl
@[simp] theorem drill_withPending (s : State) (x : List Instr) : (s.withPending x).drill = s.drill := rfl
@[simp] theorem faults_withPending (s : State) (x : List Instr) : (s.withPending x).faults = s.faults := rfl
@[simp] theorem port_withPending (s : State) (x : List Instr) : (s.withPending x).port = s.port := rfl
@[simp] theorem store_withPending (s : State) (x : List Instr) : (s.withPending x).store = s.store := rfl
@[simp] theorem mem_withPending (s : State) (x : List Instr) : (s.withPending x).mem = s.mem := rfl
@[simp] theorem pins_withPending (s : State) (x : List Instr) : (s.withPending x).pins = s.pins := rfl
@[simp] theorem fresh_withPending (s : State) (x : List Instr) : (s.withPending x).fresh = s.fresh := rfl
@[simp] theorem pending_withPending (s : State) (x : List Instr) : (s.withPending x).pending = x := rfl

end Sys2Proof.Laws
end

