-- ==== Sys2Proof/Laws/Evolves.lean ====
section
/-! SUPPORT. How a state evolves: which parts an operation may change, and that it keeps the property of each
part. One lemma for each operation, cited in place of the operation's text. -/

namespace Sys2Proof.Laws

open Sys2Proof Sys2Proof.Machine

/-- Every field of the first list stands in the second. -/
def within (gs fs : List Field) : Bool := gs.all fs.contains

/-- From s to t only the named parts have changed, and the property of each part is kept. -/
structure Evolves (fs : List Field) (s t : State) : Prop where
  same : Changes fs s t
  line : LineOk s.line → LineOk t.line
  time : TimeOk s.time → TimeOk t.time
  arb : ArbOk s.arb → ArbOk t.arb
  drill : DrillOk s.drill → DrillOk t.drill
  faults : FaultsOk s.faults → FaultsOk t.faults
  bells : BellsOk s.bells → BellsOk t.bells
  clocks : ClocksOk s.clocks → ClocksOk t.clocks
  ann : AnnOk s.ann → AnnOk t.ann
  records : RecordsStay s.faults t.faults

theorem Field.Same.trans {f : Field} {s t u : State} (h1 : f.Same s t) (h2 : f.Same t u) : f.Same s u := by
  cases f <;> exact Eq.trans h2 h1

theorem Evolves.refl (fs : List Field) (s : State) : Evolves fs s s :=
  ⟨fun f _ => by cases f <;> rfl, id, id, id, id, id, id, id, id, recordsStay_refl _⟩

theorem not_mem_of_within {gs fs : List Field} (h : within gs fs = true) {f : Field} (hf : f ∉ fs) :
    f ∉ gs := by
  intro hg
  have := List.all_eq_true.mp h f hg
  exact hf (by simpa using this)

/-- An evolution followed by another one that changes no more parts. -/
theorem Evolves.then {fs gs : List Field} {s t u : State} (e : Evolves fs s t) (d : Evolves gs t u)
    (h : within gs fs = true := by decide) : Evolves fs s u where
  same f hf := Field.Same.trans (e.same f hf) (d.same f (not_mem_of_within h hf))
  line x := d.line (e.line x)
  time x := d.time (e.time x)
  arb x := d.arb (e.arb x)
  drill x := d.drill (e.drill x)
  faults x := d.faults (e.faults x)
  bells x := d.bells (e.bells x)
  clocks x := d.clocks (e.clocks x)
  ann x := d.ann (e.ann x)
  records := recordsStay_trans e.records d.records

/-- `Evolves.then`, from the last operation back. -/
theorem Evolves.after {fs gs : List Field} {s t u : State} (d : Evolves gs t u) (h : within gs fs = true)
    (e : Evolves fs s t) : Evolves fs s u := e.then d h

/-- An evolution with more parts that may change. -/
theorem Evolves.mono {fs gs : List Field} {s t : State} (d : Evolves gs s t)
    (h : within gs fs = true := by decide) : Evolves fs s t := (Evolves.refl fs s).then d h

/-! ## One lemma for each field update -/

theorem Evolves.withStart {fs : List Field} {s t : State} {x : StartUnit} (e : Evolves fs s t)
    (h : within [.start] fs = true := by decide) : Evolves fs s (t.withStart x) :=
  e.then (gs := [.start]) ⟨fun g hg => by cases g <;> first | rfl | simp at hg,
    id, id, id, id, id, id, id, id, recordsStay_refl _⟩ h

theorem Evolves.withImage {fs : List Field} {s t : State} {x : Image} (e : Evolves fs s t)
    (h : within [.image] fs = true := by decide) : Evolves fs s (t.withImage x) :=
  e.then (gs := [.image]) ⟨fun g hg => by cases g <;> first | rfl | simp at hg,
    id, id, id, id, id, id, id, id, recordsStay_refl _⟩ h

theorem Evolves.withTime {fs : List Field} {s t : State} {x : TimeUnit} (e : Evolves fs s t)
    (k : TimeOk t.time → TimeOk x) (h : within [.time] fs = true := by decide) : Evolves fs s (t.withTime x) :=
  e.then (gs := [.time]) ⟨fun g hg => by cases g <;> first | rfl | simp at hg,
    id, k, id, id, id, id, id, id, recordsStay_refl _⟩ h

theorem Evolves.withLine {fs : List Field} {s t : State} {x : LineUnit} (e : Evolves fs s t)
    (k : LineOk t.line → LineOk x) (h : within [.line] fs = true := by decide) : Evolves fs s (t.withLine x) :=
  e.then (gs := [.line]) ⟨fun g hg => by cases g <;> first | rfl | simp at hg,
    k, id, id, id, id, id, id, id, recordsStay_refl _⟩ h

theorem Evolves.withPlan {fs : List Field} {s t : State} {x : PlanUnit} (e : Evolves fs s t)
    (h : within [.plan] fs = true := by decide) : Evolves fs s (t.withPlan x) :=
  e.then (gs := [.plan]) ⟨fun g hg => by cases g <;> first | rfl | simp at hg,
    id, id, id, id, id, id, id, id, recordsStay_refl _⟩ h

/-- The Bell Unit changed, its high-water mark kept. -/
theorem Evolves.withBells {fs : List Field} {s t : State} {x : BellUnit} (e : Evolves fs s t)
    (k : BellsOk t.bells → BellsOk x) (m : x.hwm = t.bells.hwm) (h : within [.bells] fs = true := by decide) :
    Evolves fs s (t.withBells x) :=
  e.then (gs := [.bells]) ⟨fun g hg => by cases g <;> first | rfl | exact m | simp at hg,
    id, id, id, id, id, k, id, id, recordsStay_refl _⟩ h

/-- The Bell Unit changed, its high-water mark with it. -/
theorem Evolves.withMark {fs : List Field} {s t : State} {x : BellUnit} (e : Evolves fs s t)
    (k : BellsOk t.bells → BellsOk x) (h : within [.bells, .mark] fs = true := by decide) :
    Evolves fs s (t.withBells x) :=
  e.then (gs := [.bells, .mark]) ⟨fun g hg => by cases g <;> first | rfl | simp at hg,
    id, id, id, id, id, k, id, id, recordsStay_refl _⟩ h

theorem Evolves.withClocks {fs : List Field} {s t : State} {x : Vector ClockCircuit 4} (e : Evolves fs s t)
    (k : ClocksOk t.clocks → ClocksOk x) (h : within [.clocks] fs = true := by decide) : Evolves fs s (t.withClocks x) :=
  e.then (gs := [.clocks]) ⟨fun g hg => by cases g <;> first | rfl | simp at hg,
    id, id, id, id, id, id, k, id, recordsStay_refl _⟩ h

theorem Evolves.withArb {fs : List Field} {s t : State} {x : Arbiter} (e : Evolves fs s t)
    (k : ArbOk t.arb → ArbOk x) (h : within [.arb] fs = true := by decide) : Evolves fs s (t.withArb x) :=
  e.then (gs := [.arb]) ⟨fun g hg => by cases g <;> first | rfl | simp at hg,
    id, id, k, id, id, id, id, id, recordsStay_refl _⟩ h

theorem Evolves.withSynth {fs : List Field} {s t : State} {x : Synth} (e : Evolves fs s t)
    (h : within [.synth] fs = true := by decide) : Evolves fs s (t.withSynth x) :=
  e.then (gs := [.synth]) ⟨fun g hg => by cases g <;> first | rfl | simp at hg,
    id, id, id, id, id, id, id, id, recordsStay_refl _⟩ h

theorem Evolves.withAnn {fs : List Field} {s t : State} {x : AnnUnit} (e : Evolves fs s t)
    (k : AnnOk t.ann → AnnOk x) (h : within [.ann] fs = true := by decide) : Evolves fs s (t.withAnn x) :=
  e.then (gs := [.ann]) ⟨fun g hg => by cases g <;> first | rfl | simp at hg,
    id, id, id, id, id, id, id, k, recordsStay_refl _⟩ h

theorem Evolves.withDrill {fs : List Field} {s t : State} {x : DrillUnit} (e : Evolves fs s t)
    (k : DrillOk t.drill → DrillOk x) (h : within [.drill] fs = true := by decide) : Evolves fs s (t.withDrill x) :=
  e.then (gs := [.drill]) ⟨fun g hg => by cases g <;> first | rfl | simp at hg,
    id, id, id, k, id, id, id, id, recordsStay_refl _⟩ h

theorem Evolves.withFaults {fs : List Field} {s t : State} {x : FaultUnit} (e : Evolves fs s t)
    (k : FaultsOk t.faults → FaultsOk x) (r : RecordsStay t.faults x)
    (h : within [.faults] fs = true := by decide) : Evolves fs s (t.withFaults x) :=
  e.then (gs := [.faults]) ⟨fun g hg => by cases g <;> first | rfl | simp at hg,
    id, id, id, id, k, id, id, id, r⟩ h

theorem Evolves.withPort {fs : List Field} {s t : State} {x : PanelPort} (e : Evolves fs s t)
    (h : within [.port] fs = true := by decide) : Evolves fs s (t.withPort x) :=
  e.then (gs := [.port]) ⟨fun g hg => by cases g <;> first | rfl | simp at hg,
    id, id, id, id, id, id, id, id, recordsStay_refl _⟩ h

theorem Evolves.withStore {fs : List Field} {s t : State} {x : RecordStore} (e : Evolves fs s t)
    (h : within [.store] fs = true := by decide) : Evolves fs s (t.withStore x) :=
  e.then (gs := [.store]) ⟨fun g hg => by cases g <;> first | rfl | simp at hg,
    id, id, id, id, id, id, id, id, recordsStay_refl _⟩ h

theorem Evolves.withMem {fs : List Field} {s t : State} {x : Memory} (e : Evolves fs s t)
    (h : within [.mem] fs = true := by decide) : Evolves fs s (t.withMem x) :=
  e.then (gs := [.mem]) ⟨fun g hg => by cases g <;> first | rfl | simp at hg,
    id, id, id, id, id, id, id, id, recordsStay_refl _⟩ h

theorem Evolves.withPins {fs : List Field} {s t : State} {x : Pins} (e : Evolves fs s t)
    (h : within [.pins] fs = true := by decide) : Evolves fs s (t.withPins x) :=
  e.then (gs := [.pins]) ⟨fun g hg => by cases g <;> first | rfl | simp at hg,
    id, id, id, id, id, id, id, id, recordsStay_refl _⟩ h

theorem Evolves.withFresh {fs : List Field} {s t : State} {x : Nat} (e : Evolves fs s t)
    (h : within [.fresh] fs = true := by decide) : Evolves fs s (t.withFresh x) :=
  e.then (gs := [.fresh]) ⟨fun g hg => by cases g <;> first | rfl | simp at hg,
    id, id, id, id, id, id, id, id, recordsStay_refl _⟩ h

theorem Evolves.withPending {fs : List Field} {s t : State} {x : List Instr} (e : Evolves fs s t)
    (h : within [.pending] fs = true := by decide) : Evolves fs s (t.withPending x) :=
  e.then (gs := [.pending]) ⟨fun g hg => by cases g <;> first | rfl | simp at hg,
    id, id, id, id, id, id, id, id, recordsStay_refl _⟩ h

/-- A fold of an operation that evolves the state evolves it. -/
theorem foldl_evolves {α : Type} {fs : List Field} {f : State → α → State}
    (k : ∀ s x, Evolves fs s (f s x)) (l : List α) : ∀ s, Evolves fs s (l.foldl f s) := by
  induction l with
  | nil => exact Evolves.refl fs
  | cons x l ih => intro s; exact Evolves.then (k s x) (ih _) (by simp [within])

end Sys2Proof.Laws
end

