-- ==== Sys2Proof/Laws/Blocks.lean ====
section
/-! SUPPORT. How the operations of the Fault Unit, the Zone Arbiter, the Line Unit, the Bell Unit and the Clock Unit
evolve the state: the parts they may change, and the properties they keep. -/

namespace Sys2Proof.Laws

open Sys2Proof Sys2Proof.Machine

theorem report_ev (s : State) (c : FaultCode) : Evolves [.faults] s (report s c) :=
  (Evolves.refl _ s).withFaults (faultsReport_ok _ _ _ _) (faultsReport_stays _ _ _ _)

theorem raise_ev (s : State) (k : NoticeKind) : Evolves [.faults] s (raise s k) :=
  (Evolves.refl _ s).withFaults (faultsRaise_ok _ _) (faultsRaise_stays _ _)

theorem followSynth_ev (s : State) : Evolves [.synth] s (followSynth s) := by
  unfold followSynth
  try dsimp only
  repeat' first
    | with_reducible exact Evolves.refl _ _
    | (show within _ _ = true; decide)
    | with_reducible apply Evolves.withSynth
    | split

theorem withArbiter_ev (s : State) (a : Arbiter) (h : ArbOk s.arb → ArbOk a) :
    Evolves [.arb, .synth] s (withArbiter s a) :=
  ((Evolves.refl _ s).withArb h).then (followSynth_ev _)

/-! ## Line Unit -/

theorem dropCapture_ev (s : State) : Evolves [.time] s (dropCapture s) := by
  unfold dropCapture
  try dsimp only
  repeat' first
    | with_reducible exact Evolves.refl _ _
    | (show within _ _ = true; decide)
    | with_reducible apply Evolves.withTime
    | exact timeOk_same rfl rfl rfl

theorem cursorStep_ev (s : State) : Evolves [.line, .plan, .faults] s (cursorStep s) := by
  unfold cursorStep
  try dsimp only
  repeat' first
    | with_reducible exact Evolves.refl _ _
    | (show within _ _ = true; decide)
    | exact fun h => offerNew_ok _ _ h fun x _ => plan_sameSort _ _ _
    | with_reducible apply Evolves.after (report_ev _ _)
    | with_reducible apply Evolves.withPlan
    | with_reducible apply Evolves.withLine
    | exact lineOk_same rfl
    | split

theorem runCursor_ev (s : State) : Evolves [.line, .plan, .faults] s (runCursor s) := by
  unfold runCursor
  try dsimp only
  repeat' first
    | with_reducible exact Evolves.refl _ _
    | (show within _ _ = true; decide)
    | with_reducible apply Evolves.after (cursorStep_ev _)

theorem toldPlan_ev (s : State) (k : Key) (i : Nat) (o : TxOutcome) : Evolves [.line, .plan, .faults] s (toldPlan s k i o) := by
  unfold toldPlan
  try dsimp only
  repeat' first
    | with_reducible exact Evolves.refl _ _
    | (show within _ _ = true; decide)
    | with_reducible apply Evolves.after (runCursor_ev _)
    | with_reducible apply Evolves.withPlan
    | split

theorem toldEnd_ok (d : DrillUnit) (now : Count) (i : Id) (start : CampusTime) (o : TxOutcome)
    (h : DrillOk d) : DrillOk (toldEnd d now i start o) := h

theorem told_ev (s : State) (b : FrameBody) (o : TxOutcome) : Evolves [.line, .plan, .time, .drill, .faults] s (told s b o) := by
  unfold told
  try dsimp only
  repeat' first
    | with_reducible exact Evolves.refl _ _
    | (show within _ _ = true; decide)
    | exact toldSettime_ok _ _ _
    | exact toldEnd_ok _ _ _ _ _
    | with_reducible apply Evolves.after (toldPlan_ev _ _ _ _)
    | with_reducible apply Evolves.withTime
    | with_reducible apply Evolves.withDrill
    | exact timeOk_same rfl rfl rfl
    | exact drillOk_same rfl
    | split

theorem tellAll_ev (s : State) (l : List (FrameBody × TxOutcome)) : Evolves [.line, .plan, .time, .drill, .faults] s (tellAll s l) := by
  unfold tellAll
  try dsimp only
  repeat' first
    | with_reducible exact Evolves.refl _ _
    | (show within _ _ = true; decide)
    | with_reducible apply Evolves.after (told_ev _ _ _)
    | with_reducible apply Evolves.after (foldl_evolves (fs := [.line, .plan, .time, .drill, .faults]) (fun _ _ => told_ev _ _ _) _ _)

theorem reportRefusals_ev (s : State) (l : List (FrameBody × TxOutcome)) :
    Evolves [.faults] s (reportRefusals s l) := by
  refine foldl_evolves (fun s x => ?_) l s
  split
  · exact report_ev _ _
  · exact Evolves.refl _ _

theorem offer_ev (s : State) (b : FrameBody) : Evolves [.line, .plan, .time, .drill, .faults] s (offer s b) := by
  unfold offer
  try dsimp only
  repeat' first
    | with_reducible exact Evolves.refl _ _
    | (show within _ _ = true; decide)
    | exact lineOffer_ok _ _
    | with_reducible apply Evolves.after (told_ev _ _ _)
    | with_reducible apply Evolves.after (tellAll_ev _ _)
    | with_reducible apply Evolves.after (reportRefusals_ev _ _)
    | with_reducible apply Evolves.withLine
    | exact lineOk_same rfl
    | split

theorem offerHeld_ev (s : State) (b : FrameBody) : Evolves [.line, .plan, .time, .drill, .faults] s (offerHeld s b) := by
  unfold offerHeld
  try dsimp only
  repeat' first
    | with_reducible exact Evolves.refl _ _
    | (show within _ _ = true; decide)
    | exact setHold_ok _ _ _
    | with_reducible apply Evolves.after (offer_ev _ _)
    | with_reducible apply Evolves.withLine
    | exact lineOk_same rfl
    | split

/-! ## Bell Unit -/

theorem reportBell_ev (s : State) (k : BellSlotNo) : Evolves [.arb, .synth] s (reportBell s k) := by
  unfold reportBell
  try dsimp only
  repeat' first
    | with_reducible exact Evolves.refl _ _
    | (show within _ _ = true; decide)
    | with_reducible apply Evolves.after (withArbiter_ev _ _ ?_)
    | exact reportSounding_ok
    | split

theorem reportBells_ev (s : State) : Evolves [.arb, .synth] s (reportBells s) := by
  unfold reportBells
  try dsimp only
  repeat' first
    | with_reducible exact Evolves.refl _ _
    | (show within _ _ = true; decide)
    | with_reducible apply Evolves.after (reportBell_ev _ _)

theorem freeBellSlot_ev (s : State) (k : BellSlotNo) : Evolves [.bells, .arb, .synth] s (freeBellSlot s k) := by
  unfold freeBellSlot
  try dsimp only
  repeat' first
    | with_reducible exact Evolves.refl _ _
    | (show within _ _ = true; decide)
    | with_reducible apply Evolves.after (withArbiter_ev _ _ ?_)
    | exact withdrawWhole_ok
    | with_reducible apply Evolves.withBells
    | exact rfl
    | exact bellsOk_same rfl rfl
    | split

theorem checkBellSlot_ev (s : State) (k : BellSlotNo) : Evolves [.bells, .arb, .synth] s (checkBellSlot s k) := by
  unfold checkBellSlot
  try dsimp only
  repeat' first
    | with_reducible exact Evolves.refl _ _
    | (show within _ _ = true; decide)
    | with_reducible apply Evolves.after (freeBellSlot_ev _ _)
    | split

theorem joinSlot_ev (s : State) (k : BellSlotNo) (c : BellNo) (z : ZoneNo) : Evolves [.bells, .arb, .synth] s (joinSlot s k c z) := by
  unfold joinSlot
  try dsimp only
  repeat' first
    | with_reducible exact Evolves.refl _ _
    | (show within _ _ = true; decide)
    | with_reducible apply Evolves.after (withArbiter_ev _ _ ?_)
    | exact request_ok
    | with_reducible apply Evolves.after (checkBellSlot_ev _ _)
    | with_reducible apply Evolves.withBells
    | exact rfl
    | exact bellsOk_same rfl rfl
    | split

theorem takeSlot_ev (s : State) (k : BellSlotNo) (c : BellNo) (z : ZoneNo) (p : Nat) (n : Nat) : Evolves [.bells, .arb, .synth] s (takeSlot s k c z p n) := by
  unfold takeSlot
  try dsimp only
  repeat' first
    | with_reducible exact Evolves.refl _ _
    | (show within _ _ = true; decide)
    | with_reducible apply Evolves.after (withArbiter_ev _ _ ?_)
    | exact makeClaim_ok (fun h => by cases h)
    | with_reducible apply Evolves.after (checkBellSlot_ev _ _)
    | with_reducible apply Evolves.withBells
    | exact rfl
    | exact bellsOk_same rfl rfl

theorem carryTone_ev (s : State) (c : BellNo) (z : ZoneNo) (p : Nat) : Evolves [.bells, .arb, .synth, .faults] s (carryTone s c z p) := by
  unfold carryTone
  try dsimp only
  repeat' first
    | with_reducible exact Evolves.refl _ _
    | (show within _ _ = true; decide)
    | with_reducible apply Evolves.after (report_ev _ _)
    | with_reducible apply Evolves.after (joinSlot_ev _ _ _ _)
    | with_reducible apply Evolves.after (takeSlot_ev _ _ _ _ _ _)
    | split

theorem ringStart_ev (s : State) (c : BellNo) (r : RingRequest) : Evolves [.bells, .arb, .synth, .faults] s (ringStart s c r) := by
  unfold ringStart
  try dsimp only
  repeat' first
    | with_reducible exact Evolves.refl _ _
    | (show within _ _ = true; decide)
    | with_reducible apply Evolves.after (reportBells_ev _)
    | with_reducible apply Evolves.after (carryTone_ev _ _ _ _)
    | with_reducible apply Evolves.withBells
    | exact rfl
    | exact bellsOk_same rfl rfl
    | split

theorem takeRequest_ev (s : State) (c : BellNo) (r : RingRequest) : Evolves [.bells, .arb, .synth, .faults] s (takeRequest s c r) := by
  unfold takeRequest
  try dsimp only
  repeat' first
    | with_reducible exact Evolves.refl _ _
    | (show within _ _ = true; decide)
    | with_reducible apply Evolves.after (report_ev _ _)
    | with_reducible apply Evolves.after (ringStart_ev _ _ _)
    | with_reducible apply Evolves.withBells
    | exact rfl
    | exact bellsOk_same rfl rfl
    | split

theorem giveRequests_ev (s : State) (cs : List BellNo) (r : RingRequest) : Evolves [.bells, .arb, .synth, .faults] s (giveRequests s cs r) := by
  unfold giveRequests
  try dsimp only
  repeat' first
    | with_reducible exact Evolves.refl _ _
    | (show within _ _ = true; decide)
    | with_reducible apply Evolves.after (takeRequest_ev _ _ _)
    | with_reducible apply Evolves.after (foldl_evolves (fs := [.bells, .arb, .synth, .faults]) (fun _ _ => takeRequest_ev _ _ _) _ _)

theorem endMembership_ev (s : State) (k : BellSlotNo) (c : BellNo) : Evolves [.bells, .arb, .synth] s (endMembership s k c) := by
  unfold endMembership
  try dsimp only
  repeat' first
    | with_reducible exact Evolves.refl _ _
    | (show within _ _ = true; decide)
    | with_reducible apply Evolves.after (freeBellSlot_ev _ _)
    | with_reducible apply Evolves.withBells
    | exact rfl
    | exact bellsOk_same rfl rfl
    | split

theorem leaveSlots_ev (s : State) (c : BellNo) : Evolves [.bells, .arb, .synth] s (leaveSlots s c) := by
  unfold leaveSlots
  try dsimp only
  repeat' first
    | with_reducible exact Evolves.refl _ _
    | (show within _ _ = true; decide)
    | with_reducible apply Evolves.after (endMembership_ev _ _ _)

theorem pulseOnEnd_ev (s : State) (c : BellNo) : Evolves [.bells, .arb, .synth] s (pulseOnEnd s c) := by
  unfold pulseOnEnd
  try dsimp only
  repeat' first
    | with_reducible exact Evolves.refl _ _
    | (show within _ _ = true; decide)
    | with_reducible apply Evolves.after (reportBells_ev _)
    | with_reducible apply Evolves.withBells
    | exact rfl
    | exact bellsOk_same rfl rfl
    | split

theorem pulseOffEnd_ev (s : State) (c : BellNo) : Evolves [.bells, .arb, .synth] s (pulseOffEnd s c) := by
  unfold pulseOffEnd
  try dsimp only
  repeat' first
    | with_reducible exact Evolves.refl _ _
    | (show within _ _ = true; decide)
    | with_reducible apply Evolves.after (reportBells_ev _)
    | with_reducible apply Evolves.after (leaveSlots_ev _ _)
    | with_reducible apply Evolves.withBells
    | exact rfl
    | exact bellsOk_same rfl rfl
    | split

theorem genRestEnd_ev (s : State) (c : BellNo) : Evolves [.bells, .arb, .synth, .faults] s (genRestEnd s c) := by
  unfold genRestEnd
  try dsimp only
  repeat' first
    | with_reducible exact Evolves.refl _ _
    | (show within _ _ = true; decide)
    | with_reducible apply Evolves.after (ringStart_ev _ _ _)
    | with_reducible apply Evolves.withBells
    | exact rfl
    | exact bellsOk_same rfl rfl
    | split

theorem evacuateBells_ev (s : State) : Evolves [.bells, .arb, .synth] s (evacuateBells s) := by
  unfold evacuateBells
  try dsimp only
  repeat' first
    | with_reducible exact Evolves.refl _ _
    | (show within _ _ = true; decide)
    | with_reducible apply Evolves.after (freeBellSlot_ev _ _)
    | with_reducible apply Evolves.withBells
    | exact rfl
    | exact bellsOk_same rfl rfl

theorem saturate16_le (n : Nat) : saturate16 n ≤ 65535 := by unfold saturate16; omega

theorem fireEntry_ev (s : State) (e : Scheduled) : Evolves [.bells, .arb, .synth, .faults] s (fireEntry s e) := by
  unfold fireEntry
  try dsimp only
  repeat' first
    | with_reducible exact Evolves.refl _ _
    | (show within _ _ = true; decide)
    | exact fun h => ⟨saturate16_le _, h.2⟩
    | exact fun h => ⟨h.1, saturate16_le _⟩
    | with_reducible apply Evolves.after (giveRequests_ev _ _ _)
    | with_reducible apply Evolves.withBells
    | exact rfl
    | exact bellsOk_same rfl rfl
    | split

theorem fireUpTo_ev (s : State) (h : Nat) (n : Nat) : Evolves [.bells, .mark, .arb, .synth, .faults] s (fireUpTo s h n) := by
  unfold fireUpTo
  try dsimp only
  repeat' first
    | with_reducible exact Evolves.refl _ _
    | (show within _ _ = true; decide)
    | with_reducible apply Evolves.after (fireEntry_ev _ _)
    | with_reducible apply Evolves.withMark
    | exact bellsOk_same rfl rfl
    | with_reducible apply Evolves.after (foldl_evolves (fs := [.bells, .arb, .synth, .faults]) (fun _ _ => fireEntry_ev _ _) _ _)

theorem takeDay_ok (b : BellUnit) (p : PlanUnit) (d : BitVec 16) (h : BellsOk b) :
    BellsOk (takeDay b p d) := by
  unfold takeDay
  split
  · exact h
  · exact ⟨Nat.zero_le _, Nat.zero_le _⟩

theorem takeDay_hwm (b : BellUnit) (p : PlanUnit) (d : BitVec 16) : (takeDay b p d).hwm = b.hwm := by
  unfold takeDay
  split <;> rfl

theorem schedulerDay_ev (s : State) (d : BitVec 16) : Evolves [.bells] s (schedulerDay s d) := by
  unfold schedulerDay
  try dsimp only
  repeat' first
    | with_reducible exact Evolves.refl _ _
    | (show within _ _ = true; decide)
    | exact takeDay_ok _ _ _
    | exact takeDay_hwm _ _ _
    | with_reducible apply Evolves.withBells

theorem bellSecond_ev (s : State) (r : Reading) : Evolves [.bells, .mark, .arb, .synth, .faults] s (bellSecond s r) := by
  unfold bellSecond
  try dsimp only
  repeat' first
    | with_reducible exact Evolves.refl _ _
    | (show within _ _ = true; decide)
    | with_reducible apply Evolves.after (fireUpTo_ev _ _ _)
    | with_reducible apply Evolves.after (schedulerDay_ev _ _)
    | split

theorem skipUpTo_ev (s : State) (h : Nat) (n : Nat) : Evolves [.bells, .mark, .arb, .synth, .faults] s (skipUpTo s h n) := by
  unfold skipUpTo
  try dsimp only
  repeat' first
    | with_reducible exact Evolves.refl _ _
    | (show within _ _ = true; decide)
    | with_reducible apply Evolves.after (report_ev _ _)
    | with_reducible apply Evolves.withMark
    | exact bellsOk_same rfl rfl
    | split

theorem bellStep_ev (s : State) (a : CampusTime) (b : CampusTime) : Evolves [.bells, .mark, .arb, .synth, .faults] s (bellStep s a b) := by
  unfold bellStep
  try dsimp only
  repeat' first
    | with_reducible exact Evolves.refl _ _
    | (show within _ _ = true; decide)
    | with_reducible apply Evolves.after (fireUpTo_ev _ _ _)
    | with_reducible apply Evolves.after (schedulerDay_ev _ _)
    | with_reducible apply Evolves.after (skipUpTo_ev _ _ _)
    | split

theorem bellEstablish_ev (s : State) (t : CampusTime) : Evolves [.bells, .mark] s (bellEstablish s t) := by
  unfold bellEstablish
  try dsimp only
  repeat' first
    | with_reducible exact Evolves.refl _ _
    | (show within _ _ = true; decide)
    | exact fun _ => ⟨Nat.zero_le _, Nat.zero_le _⟩
    | with_reducible apply Evolves.withMark
    | exact bellsOk_same rfl rfl
    | split

theorem bellEnterRun_ev (s : State) : Evolves [.bells, .mark] s (bellEnterRun s) := by
  unfold bellEnterRun
  try dsimp only
  repeat' first
    | with_reducible exact Evolves.refl _ _
    | (show within _ _ = true; decide)
    | with_reducible apply Evolves.withMark
    | exact bellsOk_same rfl rfl
    | split

theorem bellPlanChange_ev (s : State) : Evolves [.bells] s (bellPlanChange s) := by
  unfold bellPlanChange
  try dsimp only
  repeat' first
    | with_reducible exact Evolves.refl _ _
    | (show within _ _ = true; decide)
    | with_reducible apply Evolves.withBells
    | exact rfl
    | exact bellsOk_same rfl rfl

/-! ## Clock Unit -/

theorem setImpulse_ev (s : State) (c : ClockNo) (r : ImpulseRecord)
    (h : ClocksOk s.clocks → ∀ p, r.position = some p → p < 720) :
    Evolves [.clocks] s (setImpulse s c r) :=
  (Evolves.refl _ s).withClocks fun k => setClock_ok _ _ _ k (h k)

/-- A record with the position that the circuit has had. -/
theorem setImpulse_ev_same (s : State) (c : ClockNo) (r : ImpulseRecord)
    (h : r.position = s.clocks[c].impulse.position) : Evolves [.clocks] s (setImpulse s c r) :=
  setImpulse_ev s c r fun k p hp => k c p (h ▸ hp)

theorem setCoded_ev (s : State) (c : ClockNo) (r : CodedRecord) : Evolves [.clocks] s (setCoded s c r) :=
  (Evolves.refl _ s).withClocks fun k => setClock_ok _ _ _ k fun p hp => k c p hp

theorem evaluate_ev (s : State) (c : ClockNo) (t : Reading) : Evolves [.clocks] s (evaluate s c t) := by
  unfold evaluate
  try dsimp only
  repeat' first
    | with_reducible exact Evolves.refl _ _
    | (show within _ _ = true; decide)
    | with_reducible apply Evolves.after (setImpulse_ev_same _ _ _ (evaluated_position _ _ _ _ _))
    | split

theorem evaluateAll_ev (s : State) (t : Reading) : Evolves [.clocks] s (evaluateAll s t) := by
  unfold evaluateAll
  try dsimp only
  repeat' first
    | with_reducible exact Evolves.refl _ _
    | (show within _ _ = true; decide)
    | with_reducible apply Evolves.after (evaluate_ev _ _ _)
    | with_reducible apply Evolves.after (foldl_evolves (fs := [.clocks]) (fun _ _ => evaluate_ev _ _ _) _ _)

theorem endImpulse_ev (s : State) (c : ClockNo) (x : SenseResult) : Evolves [.clocks, .faults] s (endImpulse s c x) := by
  unfold endImpulse
  try dsimp only
  repeat' first
    | with_reducible exact Evolves.refl _ _
    | (show within _ _ = true; decide)
    | with_reducible apply Evolves.after (setImpulse_ev _ _ (resting (delivered _) _ _) ?_)
    | exact fun _ => delivered_ok _
    | with_reducible apply Evolves.after (setImpulse_ev_same _ _ _ ?_)
    | (show _ = _; rfl)
    | with_reducible apply Evolves.after (report_ev _ _)
    | with_reducible apply Evolves.after (raise_ev _ _)
    | split

theorem impulseMid_ev (s : State) (c : ClockNo) (x : SenseResult) : Evolves [.clocks, .faults] s (impulseMid s c x) := by
  unfold impulseMid
  try dsimp only
  repeat' first
    | with_reducible exact Evolves.refl _ _
    | (show within _ _ = true; decide)
    | with_reducible apply Evolves.after (setImpulse_ev_same _ _ _ ?_)
    | (show _ = _; rfl)
    | with_reducible apply Evolves.after (endImpulse_ev _ _ _)
    | split

theorem impulseOver_ev (s : State) (c : ClockNo) : Evolves [.clocks, .faults] s (impulseOver s c) := by
  unfold impulseOver
  try dsimp only
  repeat' first
    | with_reducible exact Evolves.refl _ _
    | (show within _ _ = true; decide)
    | with_reducible apply Evolves.after (endImpulse_ev _ _ _)
    | split

theorem restOver_ev (s : State) (c : ClockNo) : Evolves [.clocks] s (restOver s c) := by
  unfold restOver
  try dsimp only
  repeat' first
    | with_reducible exact Evolves.refl _ _
    | (show within _ _ = true; decide)
    | with_reducible apply Evolves.after (setImpulse_ev_same _ _ _ ?_)
    | (show _ = _; rfl)
    | with_reducible apply Evolves.after (evaluate_ev _ _ _)
    | split

theorem beginCode_ev (s : State) (r : Reading) (c : ClockNo) : Evolves [.clocks] s (beginCode s r c) := by
  unfold beginCode
  try dsimp only
  repeat' first
    | with_reducible exact Evolves.refl _ _
    | (show within _ _ = true; decide)
    | with_reducible apply Evolves.after (setCoded_ev _ _ _)
    | split

theorem beginCodes_ev (s : State) (r : Reading) : Evolves [.clocks] s (beginCodes s r) := by
  unfold beginCodes
  try dsimp only
  repeat' first
    | with_reducible exact Evolves.refl _ _
    | (show within _ _ = true; decide)
    | with_reducible apply Evolves.after (beginCode_ev _ _ _)
    | with_reducible apply Evolves.after (foldl_evolves (fs := [.clocks]) (fun _ _ => beginCode_ev _ _ _) _ _)

theorem statusCode_ev (s : State) (r : Reading) (c : ClockNo) : Evolves [.clocks] s (statusCode s r c) := by
  unfold statusCode
  try dsimp only
  repeat' first
    | with_reducible exact Evolves.refl _ _
    | (show within _ _ = true; decide)
    | with_reducible apply Evolves.after (beginCode_ev _ _ _)
    | split

theorem computeStatus_ev (s : State) : Evolves [.clocks] s (computeStatus s) := by
  unfold computeStatus
  try dsimp only
  repeat' first
    | with_reducible exact Evolves.refl _ _
    | (show within _ _ = true; decide)
    | with_reducible apply Evolves.after (statusCode_ev _ _ _)
    | with_reducible apply Evolves.after (foldl_evolves (fs := [.clocks]) (fun _ _ => statusCode_ev _ _ _) _ _)

theorem codeEnd_ev (s : State) (c : ClockNo) : Evolves [.clocks] s (codeEnd s c) := by
  unfold codeEnd
  try dsimp only
  repeat' first
    | with_reducible exact Evolves.refl _ _
    | (show within _ _ = true; decide)
    | with_reducible apply Evolves.after (setCoded_ev _ _ _)
    | with_reducible apply Evolves.after (beginCode_ev _ _ _)
    | split

theorem clockAll_ev (s : State) (r : Reading) : Evolves [.clocks] s (clockAll s r) := by
  unfold clockAll
  try dsimp only
  repeat' first
    | with_reducible exact Evolves.refl _ _
    | (show within _ _ = true; decide)
    | with_reducible apply Evolves.after (evaluateAll_ev _ _)
    | with_reducible apply Evolves.after (beginCodes_ev _ _)

end Sys2Proof.Laws
end

