-- ==== Sys2Proof/Laws/Bytes.lean ====
section
/-! SUPPORT. The numbers in the bytes of a record, lists of which every item must be there, and the bits of a code
frame. -/

namespace Sys2Proof.Laws

open Sys2Proof Sys2Proof.Machine

/-! ## Fields of a record -/

theorem field_get (bs : List Byte) (o : Nat) {n i : Nat} (h : i < n) : (field bs o n)[i]? = bs[o + i]? := by
  simp [field, h]

/-- A field of one byte. -/
theorem fieldValue_one (bs : List Byte) {i : Nat} (h : i < bs.length) :
    fieldValue bs i 1 = (bs[i]?.getD 0).toNat := by
  have e : (bs.drop i).take 1 = [bs[i]] := by rw [List.drop_eq_getElem_cons h]; rfl
  rw [fieldValue, field, e]
  simp [beValue, h]

/-- A field of two bytes, the first the more significant one. -/
theorem fieldValue_two (bs : List Byte) {i : Nat} (h : i + 1 < bs.length) :
    fieldValue bs i 2 = (bs[i]?.getD 0).toNat * 256 + (bs[i + 1]?.getD 0).toNat := by
  have e : (bs.drop i).take 2 = [bs[i], bs[i + 1]] := by
    rw [List.drop_eq_getElem_cons (by omega), List.drop_eq_getElem_cons h]; rfl
  rw [fieldValue, field, e]
  simp [beValue, h, show i < bs.length by omega]

theorem mapM_id_eq_some {α : Type} (l : List (Option α)) (m : List α) :
    l.mapM id = some m ↔ l = m.map some := by
  induction l generalizing m with
  | nil => cases m <;> simp
  | cons a l ih =>
    cases a with
    | none => cases m <;> simp
    | some a =>
      cases m with
      | nil => cases h : List.mapM id l <;> simp [h]
      | cons b m =>
        cases h : List.mapM id l with
        | none => simp [h]; rintro rfl hm; rw [(ih m).mpr hm] at h; cases h
        | some q =>
          have hq := (ih q).mp h
          subst hq
          simp only [List.mapM_cons, id, Option.bind_eq_bind, Option.bind_some, Option.pure_def, List.map_cons,
            List.cons.injEq, Option.some.injEq]
          rw [h, Option.bind_some, Option.some.injEq, List.cons.injEq]
          exact and_congr_right fun _ => (List.map_injective_iff.mpr (Option.some_injective α)).eq_iff.symm

/-- A vector of options is one of values when every item is there. -/
theorem allSome_iff {α : Type} {n : Nat} (v : Vector (Option α) n) (w : Vector α n) :
    allSome v = some w ↔ ∀ i : Fin n, v[i] = some w[i] := by
  have e : (∀ i : Fin n, v[i] = some w[i]) ↔ v.toList = w.toList.map some := by
    constructor
    · intro h
      refine List.ext_getElem (by simp) fun i h1 _ => ?_
      simpa using h ⟨i, by simpa using h1⟩
    · intro h i
      have hi : v.toList[i.val]? = (w.toList.map some)[i.val]? := by rw [h]
      simpa using hi
  rw [e, allSome, ← mapM_id_eq_some]
  cases h : v.toList.mapM id with
  | none => simp
  | some l =>
    have hl : l.length = n := by
      have := congrArg List.length ((mapM_id_eq_some _ _).mp h)
      simpa using this.symm
    simp only [hl, dif_pos, Option.some.injEq]
    constructor
    · rintro rfl; rfl
    · rintro rfl; exact Vector.toArray_inj.mp Vector.toArray_toList

/-! ## The bits of a code frame (R108, 12.6) -/

theorem codeByteBits_get (b : Byte) {k : Nat} (h : k < 10) : (codeByteBits b)[k]? =
    some (if k = 0 then false else if k = 9 then true else b.getLsbD (k - 1)) := by
  match k, h with
  | 0, _ | 1, _ | 2, _ | 3, _ | 4, _ | 5, _ | 6, _ | 7, _ | 8, _ | 9, _ => rfl

/-- Ten bit times to a byte. -/
theorem codeBits_length (l : List Byte) : (codeBits l).length = 10 * l.length := by
  induction l with
  | nil => rfl
  | cons b l ih =>
    rw [codeBits, List.flatMap_cons, List.length_append, ← codeBits, ih, List.length_cons]
    have : (codeByteBits b).length = 10 := rfl
    omega

/-- Bit n of a frame: of the byte n / 10 the start bit, a data bit, or the stop bit. -/
theorem codeBits_get (l : List Byte) (n : Nat) : (codeBits l)[n]? = l[n / 10]?.map fun b =>
    if n % 10 = 0 then false else if n % 10 = 9 then true else b.getLsbD (n % 10 - 1) := by
  induction l generalizing n with
  | nil => rfl
  | cons b l ih =>
    rw [codeBits, List.flatMap_cons, ← codeBits]
    have hl : (codeByteBits b).length = 10 := rfl
    by_cases h : n < 10
    · rw [List.getElem?_append_left (by omega), codeByteBits_get b h, Nat.div_eq_of_lt h, Nat.mod_eq_of_lt h]
      rfl
    · rw [List.getElem?_append_right (by omega), hl, ih]
      obtain ⟨m, rfl⟩ : ∃ m, n = m + 10 := ⟨n - 10, by omega⟩
      rw [Nat.add_sub_cancel, Nat.add_div_right _ (by decide), Nat.add_mod_right, List.getElem?_cons_succ]

/-- A frame has been sent once its bits have had their time: 625 bit times of 16 µs to twelve of them. -/
theorem codeSent_iff (x : CodedRecord) : codeSent x = true ↔ 6250 * x.frame.length ≤ 12 * x.frameTicks := by
  simp only [codeSent, codeBits_length, codeBitNow, decide_eq_true_eq]
  omega

end Sys2Proof.Laws
end

