-- ==== Sys2Proof/Laws/Units.lean ====
section
/-! SUPPORT. How the operations of the Announcement Unit, the Drill Unit, the Time Unit, the Plan Unit and the Line
Unit's events evolve the state. -/

namespace Sys2Proof.Laws

open Sys2Proof Sys2Proof.Machine

/-! ## Announcement Unit -/

/-- A table position replaced, where the table stays as R132 says. -/
theorem setEntry_ev (s : State) (i : TablePos) (x : Option AnnEntry)
    (k : AnnOk s.ann → AnnOk { s.ann with table := s.ann.table.set i x }) : Evolves [.ann] s (setEntry s i x) :=
  (Evolves.refl _ s).withAnn k

theorem withArbiter_bells (s : State) (a : Arbiter) : (withArbiter s a).bells = s.bells := by
  unfold withArbiter followSynth
  dsimp only
  split
  · rfl
  · split <;> rfl

theorem withArbiter_arb (s : State) (a : Arbiter) : (withArbiter s a).arb = a := by
  unfold withArbiter followSynth
  dsimp only
  split
  · rfl
  · split <;> rfl

/-- What the synth takes from the arbiter depends on nothing but its own state and the announcement table. -/
theorem withArbiter_synth (s u : State) (a : Arbiter) (hs : u.synth = s.synth) (hn : u.ann = s.ann) :
    (withArbiter u a).synth = (withArbiter s a).synth := by
  have hp : programFor (u.withArb a) = programFor (s.withArb a) := by
    funext k
    unfold programFor
    rw [show (u.withArb a).ann = (s.withArb a).ann from hn]
    rfl
  unfold withArbiter followSynth
  simp only [hp, show (u.withArb a).synth = (s.withArb a).synth from hs,
    show (u.withArb a).arb = (s.withArb a).arb from rfl]
  split
  · rfl
  · split
    · rfl
    · exact hs

/-- The synth follows the arbiter, and the Announcement Unit does not change. -/
theorem withArbiter_ann (s : State) (a : Arbiter) : (withArbiter s a).ann = s.ann := by
  unfold withArbiter followSynth
  dsimp only
  split
  · split <;> rfl
  · split <;> rfl

theorem dropLive_ev (s : State) : Evolves [.ann] s (dropLive s) := by
  unfold dropLive
  split
  · exact Evolves.refl _ _
  · rename_i h
    exact (Evolves.refl _ s).withAnn fun _ => annOk_live none (by simpa using h)

theorem clearLive_ev (s : State) (id : Id) (t : CampusTime) : Evolves [.ann] s (clearLive s id t) := by
  unfold clearLive
  split
  · exact dropLive_ev s
  · exact Evolves.refl _ _

theorem endEntry_ev (s : State) (i : TablePos) (o : AnnOutcome) : Evolves [.ann, .arb, .synth, .faults] s (endEntry s i o) := by
  unfold endEntry
  split
  · exact Evolves.refl _ _
  · rename_i e _
    have d : Evolves [.ann, .arb, .synth, .faults] s
        (setEntry (withArbiter s (withdrawWhole s.arb (annSlot i))) i none) :=
      (Evolves.mono (withArbiter_ev _ _ withdrawWhole_ok)).then (setEntry_ev _ i none (annOk_free i))
    dsimp only
    generalize setEntry (withArbiter s (withdrawWhole s.arb (annSlot i))) i none = u at d ⊢
    split
    · exact (d.withAnn (x := { u.ann with lastOwn := some ⟨e.id.seq, e.start, e.kind, o⟩ })
        (annOk_same rfl rfl)).then (raise_ev _ _)
    · exact d

theorem endUnavailable_ev (s : State) (i : TablePos) (id : Id) : Evolves [.ann, .arb, .synth, .faults] s (endUnavailable s i id) := by
  unfold endUnavailable
  try dsimp only
  repeat' first
    | with_reducible exact Evolves.refl _ _
    | (show within _ _ = true; decide)
    | with_reducible apply Evolves.after (report_ev _ _)
    | with_reducible apply Evolves.after (endEntry_ev _ _ _)

theorem checkHope_ev (s : State) (i : TablePos) (p : Bool) : Evolves [.ann, .arb, .synth, .faults] s (checkHope s i p) := by
  unfold checkHope
  try dsimp only
  repeat' first
    | with_reducible exact Evolves.refl _ _
    | (show within _ _ = true; decide)
    | with_reducible apply Evolves.after (endEntry_ev _ _ _)
    | with_reducible apply Evolves.after (endUnavailable_ev _ _ _)
    | split

/-- Cutting a limit leaves the kind LIVE or CHIME. -/
theorem playingKind_live (l : AnnLevel) (p : PeriodKind) (k : AnnKind) : isLive (playingKind l p k) = isLive k := by
  cases k <;> rfl

theorem playEntry_ev (s : State) (i : TablePos) (e : AnnEntry) (h : s.ann.table[i] = some e) :
    Evolves [.ann, .arb, .synth, .faults] s (playEntry s i e) := by
  unfold playEntry
  dsimp only
  have k := annOk_replace (a := s.ann) (i := i) (e := { e with
    kind := playingKind e.level (effectiveKind s.plan (currentReading s)) e.kind, state := .playing,
    deadline := playingDeadline s.time.localCount (playingKind e.level
      (effectiveKind s.plan (currentReading s)) e.kind) }) h rfl rfl (playingKind_live _ _ _)
  repeat' first
    | with_reducible exact Evolves.refl _ _
    | (show within _ _ = true; decide)
    | with_reducible apply Evolves.after (withArbiter_ev _ _ ?_)
    | exact reportSounding_ok
    | with_reducible apply Evolves.after (raise_ev _ _)
    | with_reducible apply Evolves.after (setEntry_ev _ _ _ ?_)
    | exact k
    | split

/-- What a position holds once an entry has been put there. -/
theorem setEntry_at (s : State) (i : TablePos) (x : Option AnnEntry) : (setEntry s i x).ann.table[i] = x := by
  show ((s.ann.table.set i x)[i]) = x
  rw [vector_set_at, if_pos rfl]

theorem startEntry_ev (s : State) (i : TablePos) : Evolves [.ann, .arb, .synth, .faults] s (startEntry s i) := by
  unfold startEntry
  dsimp only
  split
  · exact Evolves.refl _ _
  · rename_i e he
    split
    · have k : AnnOk s.ann → AnnOk { s.ann with
          table := s.ann.table.set i (some { e with known := withoutWaits e.known }) } :=
        annOk_replace he rfl rfl rfl
      repeat' first
        | with_reducible exact Evolves.refl _ _
        | (show within _ _ = true; decide)
        | with_reducible apply Evolves.after (withArbiter_ev _ _ ?_)
        | exact foldl_arbOk (fun _ _ => dropWait_ok) _ _
        | with_reducible apply Evolves.after (setEntry_ev _ _ _ ?_)
        | exact k
        | with_reducible apply Evolves.after (endEntry_ev _ _ _)
        | with_reducible apply Evolves.after (endUnavailable_ev _ _ _)
        | with_reducible apply Evolves.after (playEntry_ev _ _ _ ?_)
        | (rw [withArbiter_ann]; exact setEntry_at _ _ _)
        | split
    · exact Evolves.refl _ _

theorem stepEntry_ev (new : CampusTime) (s : State) (i : TablePos) :
    Evolves [.ann, .arb, .synth, .faults] s (stepEntry new s i) := by
  unfold stepEntry
  repeat' first
    | with_reducible exact Evolves.refl _ _
    | exact startEntry_ev _ _
    | split

theorem annStep_ev (s : State) (t : CampusTime) : Evolves [.ann, .arb, .synth, .faults] s (annStep s t) := by
  unfold annStep
  try dsimp only
  repeat' first
    | with_reducible exact Evolves.refl _ _
    | (show within _ _ = true; decide)
    | with_reducible apply Evolves.after (foldl_evolves (fs := [.ann, .arb, .synth, .faults]) (fun _ _ => stepEntry_ev _ _ _) _ _)

theorem cancelEntry_ev (s : State) (i : TablePos) :
    Evolves [.ann, .arb, .synth, .line, .plan, .time, .drill, .faults] s (cancelEntry s i) := by
  unfold cancelEntry
  try dsimp only
  repeat' first
    | with_reducible exact Evolves.refl _ _
    | (show within _ _ = true; decide)
    | with_reducible apply Evolves.after (report_ev _ _)
    | with_reducible apply Evolves.after (offer_ev _ _)
    | with_reducible apply Evolves.after (endEntry_ev _ _ _)
    | split

theorem cancelLive_ev (s : State) :
    Evolves [.ann, .arb, .synth, .line, .plan, .time, .drill, .faults] s (cancelLive s) :=
  foldl_evolves (fun s i => cancelEntry_ev s i) _ s

/-- An entry that ends leaves its position free, and the other positions as they are. -/
theorem endEntry_table (s : State) (i : TablePos) (o : AnnOutcome) :
    (endEntry s i o).ann.table = s.ann.table.set i none := by
  unfold endEntry
  split
  · rename_i h
    refine Vector.ext fun j hj => ?_
    have := vector_set_at s.ann.table i ⟨j, hj⟩ none
    simp only [Fin.getElem_fin] at this h ⊢
    rw [this]
    split
    · rename_i hij
      subst hij
      exact h
    · rfl
  · dsimp only
    split <;> exact congrArg (fun x : AnnUnit => x.table.set i none) (withArbiter_ann _ _)

/-- A LIVE entry that is cancelled is gone, and another position stays as it is. -/
theorem cancelEntry_at (s : State) (i j : TablePos) : (cancelEntry s i).ann.table[j] =
    if i = j ∧ s.ann.table[i].any (fun e => isLive e.kind) = true then none else s.ann.table[j] := by
  unfold cancelEntry
  split
  · rename_i h
    rw [h, if_neg (by simp)]
  · rename_i e he
    rw [he]
    split
    · rename_i hl
      have ended (t : State) (ht : t.ann = s.ann) :
          ((report (endEntry t i .cancelled) (.liveConflict e.id)).ann.table)[j] =
            if i = j ∧ (some e).any (fun e => isLive e.kind) = true then none else s.ann.table[j] := by
        show ((endEntry t i .cancelled).ann.table)[j] = _
        rw [endEntry_table, ht, vector_set_at]
        simp [hl]
      dsimp only
      split
      · exact ended _ ((offer_ev s _).same .ann (by decide))
      · exact ended _ rfl
    · rename_i hl
      simp [hl]

/-- After the LIVE entries have been cancelled, none stands in the table. -/
theorem cancelLive_none (s : State) : liveEntry (cancelLive s).ann = none := by
  have fold : ∀ (l : List TablePos) (s : State) (j : TablePos) (e : AnnEntry),
      (l.foldl cancelEntry s).ann.table[j] = some e → s.ann.table[j] = some e ∧ (isLive e.kind = true → j ∉ l) := by
    intro l
    induction l with
    | nil => exact fun s j e h => ⟨h, fun _ => List.not_mem_nil⟩
    | cons i l ih =>
      intro s j e h
      obtain ⟨h1, h2⟩ := ih (cancelEntry s i) j e h
      rw [cancelEntry_at] at h1
      split at h1
      · cases h1
      · rename_i hn
        refine ⟨h1, fun hl hm => ?_⟩
        cases List.mem_cons.mp hm with
        | inl hij =>
          subst hij
          exact hn ⟨rfl, by rw [h1]; exact hl⟩
        | inr hm => exact h2 hl hm
  refine liveEntry_none.mpr fun i e he => ?_
  obtain ⟨-, h⟩ := fold _ s i e he
  by_contra hl
  exact h (by simpa using hl) (List.mem_finRange i)

theorem judgeLive_ev (s : State) (id : Id) (t : CampusTime) (n : Nat) : Evolves [.ann, .arb, .synth, .line, .plan, .time, .drill, .faults] s (judgeLive s id t n) := by
  unfold judgeLive
  dsimp only
  split
  · exact (cancelLive_ev s).withAnn fun _ => annOk_live _ (cancelLive_none s)
  · exact Evolves.refl _ _

/-- A LIVE announcement that wins is the live record, and no LIVE entry stands in the table (R132, R136). -/
theorem judgeLive_wins {s : State} {id : Id} {t : CampusTime} {n : Nat} (h : winsLive s.ann id t = true) :
    isLiveRecord (judgeLive s id t n).ann id t = true ∧ liveEntry (judgeLive s id t n).ann = none := by
  unfold judgeLive
  rw [if_pos h]
  exact ⟨by simp [isLiveRecord, liveRecordOf], cancelLive_none s⟩

/-- A LIVE announcement that loses changes nothing (R136). -/
theorem judgeLive_loses {s : State} {id : Id} {t : CampusTime} {n : Nat} (h : winsLive s.ann id t = false) :
    judgeLive s id t n = s := by
  unfold judgeLive
  rw [if_neg (by simp [h])]

theorem admissionFault_ev (s : State) (r : Reason) (id : Id) : Evolves [.faults] s (admissionFault s r id) := by
  unfold admissionFault
  try dsimp only
  repeat' first
    | with_reducible exact Evolves.refl _ _
    | (show within _ _ = true; decide)
    | with_reducible apply Evolves.after (report_ev _ _)
    | split

/-- No announcement claims at level ALARM (R137). -/
theorem annLevel_notAlarm {p : Prop} (l : AnnLevel) (h : annClaimLevel l = .alarm) : p := by
  cases l <;> cases h

/-- An announcement that is admitted is no LIVE one, or the live record, with no LIVE entry in the table. -/
def mayGather (s : State) (a : Announcement) : Prop :=
  isLive a.post.kind = true → isLiveRecord s.ann a.id a.start = true ∧ liveEntry s.ann = none

theorem gatherAt_ev (s : State) (i : TablePos) (a : Announcement) (m : mayGather s a) :
    Evolves [.ann, .arb, .synth, .faults] s (gatherAt s i a) := by
  unfold gatherAt
  dsimp only
  have k (v : Vector Known 9) (n : Byte) : AnnOk s.ann → AnnOk { s.ann with
      table := s.ann.table.set i (some { newAnnEntry s a n with known := v }) } :=
    annOk_set i _ fun e he l => by
      cases he
      obtain ⟨h1, h2⟩ := m l
      exact ⟨h1, fun j d _ hd => liveEntry_none.mp h2 j d hd⟩
  repeat' first
    | with_reducible exact Evolves.refl _ _
    | (show within _ _ = true; decide)
    | with_reducible apply Evolves.after (withArbiter_ev _ _ ?_)
    | exact makeClaim_ok (annLevel_notAlarm _)
    | with_reducible apply Evolves.after (setEntry_ev _ _ _ ?_)
    | exact k _ _
    | with_reducible apply Evolves.after (checkHope_ev _ _ _)

theorem admit_ev (s : State) (a : Announcement) (m : mayGather s a) :
    Evolves [.ann, .arb, .synth, .faults] s (takeAnnouncement s a) := by
  unfold takeAnnouncement
  split
  · exact Evolves.refl _ _
  · exact gatherAt_ev s _ a m

theorem admitReceived_ev (s : State) (a : Announcement) (m : mayGather s a) :
    Evolves [.ann, .arb, .synth, .faults] s (admitReceived s a) := by
  unfold admitReceived
  try dsimp only
  repeat' first
    | with_reducible exact Evolves.refl _ _
    | (show within _ _ = true; decide)
    | with_reducible apply Evolves.after (startEntry_ev _ _)
    | with_reducible apply Evolves.after (gatherAt_ev _ _ _ m)
    | split

theorem endAnnouncement_ev (s : State) (id : Id) (t : CampusTime) :
    Evolves [.ann, .arb, .synth, .faults] s (endAnnouncement s id t) := by
  unfold endAnnouncement
  try dsimp only
  repeat' first
    | with_reducible exact Evolves.refl _ _
    | (show within _ _ = true; decide)
    | with_reducible apply Evolves.after (clearLive_ev _ _ _)
    | with_reducible apply Evolves.after (endEntry_ev _ _ _)
    | split

/-- Entries that end one after the other leave their positions free. -/
theorem foldl_endEntry_at (o : AnnOutcome) (j : TablePos) : ∀ (l : List TablePos) (s : State),
    (l.foldl (fun s i => endEntry s i o) s).ann.table[j] = if j ∈ l then none else s.ann.table[j] := by
  intro l
  induction l with
  | nil => intro s; simp
  | cons i l ih =>
    intro s
    rw [List.foldl_cons, ih, endEntry_table, vector_set_at]
    by_cases hj : j ∈ l
    · simp [hj]
    · by_cases hij : i = j
      · simp [hij]
      · simp [hj, hij, Ne.symm hij]

/-- After every entry has ended no LIVE entry stands in the table. -/
theorem foldl_endEntry_none (s : State) (o : AnnOutcome) :
    liveEntry ((List.finRange 4).foldl (fun s i => endEntry s i o) s).ann = none := by
  have gone (j : TablePos) := foldl_endEntry_at o j (List.finRange 4) s
  generalize (List.finRange 4).foldl (fun s i => endEntry s i o) s = u at gone ⊢
  refine liveEntry_none.mpr fun i e he => ?_
  rw [gone, if_pos (List.mem_finRange i)] at he
  cases he

theorem dropped_ev {fs : List Field} {s t : State} (e : Evolves fs s t) (h : liveEntry t.ann = none)
    (w : within [.ann] fs = true) : Evolves fs s (t.withAnn { t.ann with live := none }) :=
  e.withAnn (fun _ => annOk_live (a := t.ann) none h) w

theorem endAllEntries_ev (s : State) : Evolves [.ann, .arb, .synth, .faults] s (endAllEntries s) :=
  dropped_ev (foldl_evolves (fun s i => endEntry_ev s i .preempted) (List.finRange 4) s)
    (foldl_endEntry_none s .preempted) (by decide)

/-! ## Drill Unit -/

theorem offerState_ev (s : State) : Evolves [.line, .plan, .time, .drill, .faults] s (offerState s) := by
  unfold offerState
  try dsimp only
  repeat' first
    | with_reducible exact Evolves.refl _ _
    | (show within _ _ = true; decide)
    | with_reducible apply Evolves.after (offer_ev _ _)
    | with_reducible apply Evolves.withDrill
    | exact drillOk_same rfl
    | split

theorem drillClaim_ev (s : State) (l : ClaimLevel) : Evolves [.arb, .synth] s (drillClaim s l) := by
  unfold drillClaim
  try dsimp only
  repeat' first
    | with_reducible exact Evolves.refl _ _
    | (show within _ _ = true; decide)
    | with_reducible apply Evolves.after (withArbiter_ev _ _ ?_)
    | exact fun h => reportSounding_ok (makeClaim_ok (fun _ => rfl) h)

theorem dropDrillClaim_ev (s : State) : Evolves [.arb, .synth] s (dropDrillClaim s) := by
  unfold dropDrillClaim
  try dsimp only
  repeat' first
    | with_reducible exact Evolves.refl _ _
    | (show within _ _ = true; decide)
    | with_reducible apply Evolves.after (withArbiter_ev _ _ ?_)
    | exact withdrawWhole_ok

theorem allClearClaim_ev (s : State) : Evolves [.arb, .synth] s (allClearClaim s) := by
  unfold allClearClaim
  try dsimp only
  repeat' first
    | with_reducible exact Evolves.refl _ _
    | (show within _ _ = true; decide)
    | with_reducible apply Evolves.after (drillClaim_ev _ _)
    | with_reducible apply Evolves.after (dropDrillClaim_ev _)
    | split

theorem suppressBells_hwm (b : BellUnit) : (suppressBells b).hwm = b.hwm := rfl

theorem suppressBells_ok (b : BellUnit) (h : BellsOk b) : BellsOk (suppressBells b) := h

theorem stopBells_hwm (b : BellUnit) : (stopBells b).hwm = b.hwm := rfl

theorem stopBells_ok (b : BellUnit) (h : BellsOk b) : BellsOk (stopBells b) := h

theorem resumeBells_hwm (b : BellUnit) : (resumeBells b).hwm = b.hwm := rfl

theorem resumeBells_ok (b : BellUnit) (h : BellsOk b) : BellsOk (resumeBells b) := h

theorem leaveOrders_ev (s : State) (d : DrillState) :
    Evolves [.bells, .arb, .synth, .ann, .faults] s (leaveOrders s d) := by
  cases d
  · exact (Evolves.refl _ s).withBells (suppressBells_ok _) (suppressBells_hwm _)
  · exact ((Evolves.refl _ s).then (dropDrillClaim_ev s)).withBells (stopBells_ok _) (stopBells_hwm _)
  · exact Evolves.refl _ s
  · exact (dropDrillClaim_ev s).mono

theorem enterOrders_ev (s : State) (d : DrillState) :
    Evolves [.bells, .arb, .synth, .ann, .faults] s (enterOrders s d) := by
  cases d
  · exact (Evolves.refl _ s).withBells (resumeBells_ok _) (resumeBells_hwm _)
  · exact (((Evolves.refl _ s).then (drillClaim_ev s _)).then (evacuateBells_ev _)).then (endAllEntries_ev _)
  · exact Evolves.refl _ s
  · exact (allClearClaim_ev s).mono

theorem moveDrill_ev (s : State) (d : DrillState) : Evolves [.drill, .bells, .arb, .synth, .ann, .faults, .clocks] s (moveDrill s d) := by
  unfold moveDrill
  try dsimp only
  repeat' first
    | with_reducible exact Evolves.refl _ _
    | (show within _ _ = true; decide)
    | with_reducible apply Evolves.after (computeStatus_ev _)
    | with_reducible apply Evolves.after (leaveOrders_ev _ _)
    | with_reducible apply Evolves.after (enterOrders_ev _ _)
    | with_reducible apply Evolves.withDrill
    | exact drillOk_same rfl
    | split

theorem setRecord_ev (s : State) (r : Option DrillRecord) : Evolves [.drill] s (setRecord s r) := by
  unfold setRecord
  try dsimp only
  repeat' first
    | with_reducible exact Evolves.refl _ _
    | (show within _ _ = true; decide)
    | with_reducible apply Evolves.withDrill
    | exact drillOk_same rfl

theorem allClearTest_ev (s : State) : Evolves [.drill, .bells, .arb, .synth, .ann, .faults, .clocks, .line, .plan, .time] s (allClearTest s) := by
  unfold allClearTest
  try dsimp only
  repeat' first
    | with_reducible exact Evolves.refl _ _
    | (show within _ _ = true; decide)
    | with_reducible apply Evolves.after (raise_ev _ _)
    | with_reducible apply Evolves.after (offerState_ev _)
    | with_reducible apply Evolves.after (moveDrill_ev _ _)
    | split

theorem setRoll_ev (s : State) (r : DrillRecord) (p : StationNo) (e : RollEntry) : Evolves [.drill, .faults] s (setRoll s r p e) := by
  unfold setRoll
  try dsimp only
  repeat' first
    | with_reducible exact Evolves.refl _ _
    | (show within _ _ = true; decide)
    | with_reducible apply Evolves.after (raise_ev _ _)
    | with_reducible apply Evolves.after (setRecord_ev _ _)

theorem rollPresence_ev (s : State) (p : StationNo) (b : Bool) : Evolves [.drill, .bells, .arb, .synth, .ann, .faults, .clocks, .line, .plan, .time] s (rollPresence s p b) := by
  unfold rollPresence
  try dsimp only
  repeat' first
    | with_reducible exact Evolves.refl _ _
    | (show within _ _ = true; decide)
    | with_reducible apply Evolves.after (report_ev _ _)
    | with_reducible apply Evolves.after (allClearTest_ev _)
    | with_reducible apply Evolves.after (setRoll_ev _ _ _ _)
    | split

theorem beginDrill_ev (s : State) (k : DrillKind) : Evolves [.drill, .bells, .arb, .synth, .ann, .faults, .clocks, .line, .plan, .time] s (beginDrill s k) := by
  unfold beginDrill
  try dsimp only
  repeat' first
    | with_reducible exact Evolves.refl _ _
    | (show within _ _ = true; decide)
    | with_reducible apply Evolves.after (raise_ev _ _)
    | with_reducible apply Evolves.after (offerState_ev _)
    | with_reducible apply Evolves.after (moveDrill_ev _ _)
    | with_reducible apply Evolves.withDrill
    | exact drillOk_same rfl

theorem listDrill_ok (d : DrillUnit) (r : DrillRecord) (o : DrillOutcome) (h : DrillOk d) :
    DrillOk (listDrill d r o) := addEnded_length _ _ h

theorem overridePractice_ev (s : State) (r : DrillRecord) : Evolves [.drill, .faults] s (overridePractice s r) := by
  unfold overridePractice
  try dsimp only
  repeat' first
    | with_reducible exact Evolves.refl _ _
    | (show within _ _ = true; decide)
    | exact listDrill_ok _ _ _
    | with_reducible apply Evolves.after (raise_ev _ _)
    | with_reducible apply Evolves.withDrill

theorem firstEndCopy_ev (s : State) (e : EndedDrill) : Evolves [.line, .plan, .time, .drill, .faults] s (firstEndCopy s e) := by
  unfold firstEndCopy
  try dsimp only
  repeat' first
    | with_reducible exact Evolves.refl _ _
    | (show within _ _ = true; decide)
    | with_reducible apply Evolves.after (offer_ev _ _)
    | with_reducible apply Evolves.withDrill
    | exact drillOk_same rfl

theorem finishDrill_ev (s : State) (o : DrillOutcome) (b : Bool) : Evolves [.drill, .bells, .arb, .synth, .ann, .faults, .clocks, .line, .plan, .time] s (finishDrill s o b) := by
  unfold finishDrill
  try dsimp only
  repeat' first
    | with_reducible exact Evolves.refl _ _
    | (show within _ _ = true; decide)
    | exact listDrill_ok _ _ _
    | with_reducible apply Evolves.after (raise_ev _ _)
    | with_reducible apply Evolves.after (moveDrill_ev _ _)
    | with_reducible apply Evolves.after (setRecord_ev _ _)
    | with_reducible apply Evolves.after (firstEndCopy_ev _ _)
    | with_reducible apply Evolves.withDrill
    | exact drillOk_same rfl
    | split

theorem toAssemble_ev (s : State) (r : DrillRecord) (t : Option CampusTime) : Evolves [.drill, .bells, .arb, .synth, .ann, .faults, .clocks, .line, .plan, .time] s (toAssemble s r t) := by
  unfold toAssemble
  try dsimp only
  repeat' first
    | with_reducible exact Evolves.refl _ _
    | (show within _ _ = true; decide)
    | with_reducible apply Evolves.after (raise_ev _ _)
    | with_reducible apply Evolves.after (offerState_ev _)
    | with_reducible apply Evolves.after (moveDrill_ev _ _)
    | with_reducible apply Evolves.after (setRecord_ev _ _)
    | with_reducible apply Evolves.after (allClearTest_ev _)

theorem takeDrill_ev (s : State) (p : StationNo) (c : DrillContent) : Evolves [.drill, .bells, .arb, .synth, .ann, .faults, .clocks, .line, .plan, .time] s (takeDrill s p c) := by
  unfold takeDrill
  try dsimp only
  repeat' first
    | with_reducible exact Evolves.refl _ _
    | (show within _ _ = true; decide)
    | with_reducible apply Evolves.after (raise_ev _ _)
    | with_reducible apply Evolves.after (offerState_ev _)
    | with_reducible apply Evolves.after (moveDrill_ev _ _)
    | with_reducible apply Evolves.after (setRecord_ev _ _)
    | with_reducible apply Evolves.after (allClearTest_ev _)
    | with_reducible apply Evolves.withDrill
    | exact drillOk_same rfl
    | split

theorem adoptDrill_ev (s : State) (p : StationNo) (c : DrillContent) : Evolves [.drill, .bells, .arb, .synth, .ann, .faults, .clocks, .line, .plan, .time] s (adoptDrill s p c) := by
  unfold adoptDrill
  try dsimp only
  repeat' first
    | with_reducible exact Evolves.refl _ _
    | (show within _ _ = true; decide)
    | with_reducible apply Evolves.after (raise_ev _ _)
    | with_reducible apply Evolves.after (takeDrill_ev _ _ _)

theorem mergeDrill_ev (s : State) (r : DrillRecord) (p : StationNo) (c : DrillContent) : Evolves [.drill, .bells, .arb, .synth, .ann, .faults, .clocks, .line, .plan, .time] s (mergeDrill s r p c) := by
  unfold mergeDrill
  try dsimp only
  repeat' first
    | with_reducible exact Evolves.refl _ _
    | (show within _ _ = true; decide)
    | with_reducible apply Evolves.after (report_ev _ _)
    | with_reducible apply Evolves.after (raise_ev _ _)
    | with_reducible apply Evolves.after (takeDrill_ev _ _ _)
    | split

theorem samePhase_ev (s : State) (r : DrillRecord) (c : DrillContent) : Evolves [.drill, .bells, .arb, .synth, .ann, .faults, .clocks, .line, .plan, .time] s (samePhase s r c) := by
  unfold samePhase
  try dsimp only
  repeat' first
    | with_reducible exact Evolves.refl _ _
    | (show within _ _ = true; decide)
    | with_reducible apply Evolves.after (raise_ev _ _)
    | with_reducible apply Evolves.after (offerState_ev _)
    | with_reducible apply Evolves.after (moveDrill_ev _ _)
    | with_reducible apply Evolves.after (setRecord_ev _ _)
    | split

theorem sameClear_ev (s : State) (p : StationNo) (c : DrillContent) : Evolves [.drill, .faults] s (sameClear s p c) := by
  unfold sameClear
  try dsimp only
  repeat' first
    | with_reducible exact Evolves.refl _ _
    | (show within _ _ = true; decide)
    | with_reducible apply Evolves.after (setRoll_ev _ _ _ _)
    | split

theorem sameDrill_ev (s : State) (r : DrillRecord) (p : StationNo) (c : DrillContent) : Evolves [.drill, .bells, .arb, .synth, .ann, .faults, .clocks, .line, .plan, .time] s (sameDrill s r p c) := by
  unfold sameDrill
  try dsimp only
  repeat' first
    | with_reducible exact Evolves.refl _ _
    | (show within _ _ = true; decide)
    | with_reducible apply Evolves.after (allClearTest_ev _)
    | with_reducible apply Evolves.after (samePhase_ev _ _ _)
    | with_reducible apply Evolves.after (sameClear_ev _ _ _)

theorem takeStateFrame_ev (s : State) (p : StationNo) (c : DrillContent) : Evolves [.drill, .bells, .arb, .synth, .ann, .faults, .clocks, .line, .plan, .time] s (takeStateFrame s p c) := by
  unfold takeStateFrame
  try dsimp only
  repeat' first
    | with_reducible exact Evolves.refl _ _
    | (show within _ _ = true; decide)
    | with_reducible apply Evolves.after (offer_ev _ _)
    | with_reducible apply Evolves.after (offerState_ev _)
    | with_reducible apply Evolves.after (adoptDrill_ev _ _ _)
    | with_reducible apply Evolves.after (mergeDrill_ev _ _ _ _)
    | with_reducible apply Evolves.after (sameDrill_ev _ _ _ _)
    | split

theorem takeEndFrame_ev (s : State) (e : EndedDrill) : Evolves [.drill, .bells, .arb, .synth, .ann, .faults, .clocks, .line, .plan, .time] s (takeEndFrame s e) := by
  unfold takeEndFrame
  try dsimp only
  repeat' first
    | with_reducible exact Evolves.refl _ _
    | (show within _ _ = true; decide)
    | exact addEnded_length _ _
    | with_reducible apply Evolves.after (finishDrill_ev _ _ _)
    | with_reducible apply Evolves.withDrill
    | exact drillOk_same rfl
    | split

/-! ## Time Unit -/

theorem setQuality_ev (s : State) (q : Quality) : Evolves [.time, .faults, .clocks] s (setQuality s q) := by
  unfold setQuality
  try dsimp only
  repeat' first
    | with_reducible exact Evolves.refl _ _
    | (show within _ _ = true; decide)
    | with_reducible apply Evolves.after (raise_ev _ _)
    | with_reducible apply Evolves.after (computeStatus_ev _)
    | with_reducible apply Evolves.withTime
    | exact timeOk_same rfl rfl rfl
    | split

/-- What establishment does after campus time and quality are set. -/
theorem establish_rest (s : State) (t : CampusTime) (q : Quality) :
    Evolves [.mark, .time, .bells, .arb, .synth, .faults, .clocks]
      (s.withTime { s.time with campus := t, quality := q }) (establish s t q) := by
  unfold establish
  dsimp only
  exact ((((Evolves.refl _ _).then (bellEstablish_ev _ _)).then (clockAll_ev _ _)).then (raise_ev _ _)).then
    (computeStatus_ev _)

/-- Establishment needs a time within a day. -/
theorem establish_ev (s : State) (t : CampusTime) (q : Quality) (h : TimeOk s.time → t.ms < dayMs) :
    Evolves [.mark, .time, .bells, .arb, .synth, .faults, .clocks] s (establish s t q) := by
  refine Evolves.then ?_ (establish_rest s t q)
  exact Evolves.withTime (Evolves.refl _ s) fun k => ⟨h k, k.2⟩

theorem stepNotices_ev (s : State) (a : CampusTime) (b : CampusTime) : Evolves [.mark, .bells, .arb, .synth, .ann, .clocks, .faults] s (stepNotices s a b) := by
  unfold stepNotices
  try dsimp only
  repeat' first
    | with_reducible exact Evolves.refl _ _
    | (show within _ _ = true; decide)
    | with_reducible apply Evolves.after (bellStep_ev _ _ _)
    | with_reducible apply Evolves.after (clockAll_ev _ _)
    | with_reducible apply Evolves.after (annStep_ev _ _)

theorem stepBy_ev (s : State) (c : Int) : Evolves [.mark, .time, .line, .bells, .arb, .synth, .ann, .clocks, .faults] s (stepBy s c) := by
  unfold stepBy stepRoster
  try dsimp only
  repeat' first
    | with_reducible exact Evolves.refl _ _
    | (show within _ _ = true; decide)
    | exact steppedTime_ok _ _
    | with_reducible apply Evolves.after (report_ev _ _)
    | with_reducible apply Evolves.after (raise_ev _ _)
    | with_reducible apply Evolves.after (stepNotices_ev _ _ _)
    | with_reducible apply Evolves.withTime
    | with_reducible apply Evolves.withLine
    | exact timeOk_same rfl rfl rfl
    | exact lineOk_same rfl
    | split

theorem applyCorrection_ev (s : State) (c : Int) : Evolves [.mark, .time, .line, .bells, .arb, .synth, .ann, .clocks, .faults] s (applyCorrection s c) := by
  unfold applyCorrection slewBy
  try dsimp only
  repeat' first
    | with_reducible exact Evolves.refl _ _
    | (show within _ _ = true; decide)
    | with_reducible apply Evolves.after (stepBy_ev _ _)
    | with_reducible apply Evolves.withTime
    | exact timeOk_same rfl rfl rfl
    | split

theorem takeSettime_ev (s : State) (k : Key) (d : Int) : Evolves [.mark, .time, .line, .bells, .arb, .synth, .ann, .clocks, .faults] s (takeSettime s k d) := by
  unfold takeSettime
  try dsimp only
  repeat' first
    | with_reducible exact Evolves.refl _ _
    | (show within _ _ = true; decide)
    | exact applyKey_ok _ _ _
    | with_reducible apply Evolves.after (report_ev _ _)
    | with_reducible apply Evolves.after (raise_ev _ _)
    | with_reducible apply Evolves.after (stepBy_ev _ _)
    | with_reducible apply Evolves.withTime
    | exact timeOk_same rfl rfl rfl
    | split

theorem roundQuality_ev (s : State) (e : Bool) : Evolves [.time, .faults, .clocks] s (roundQuality s e) := by
  unfold roundQuality
  try dsimp only
  repeat' first
    | with_reducible exact Evolves.refl _ _
    | (show within _ _ = true; decide)
    | with_reducible apply Evolves.after (report_ev _ _)
    | with_reducible apply Evolves.after (setQuality_ev _ _)
    | split

theorem ageSamples_ev (s : State) : Evolves [.line] s (s.withLine (ageSamples s.line)) :=
  (Evolves.refl _ s).withLine (lineOk_same rfl)

theorem agreementRound_ev (s : State) :
    Evolves [.mark, .time, .line, .bells, .arb, .synth, .ann, .clocks, .faults] s (agreementRound s) := by
  unfold agreementRound
  split
  · exact Evolves.refl _ _
  · dsimp only
    generalize correction _ = c
    generalize decide (eligible s = []) = empty
    have e1 : Evolves [.mark, .time, .line, .bells, .arb, .synth, .ann, .clocks, .faults] s
        (s.withTime { s.time with emptyRounds := roundCount s.time.emptyRounds empty }) :=
      (Evolves.refl _ s).withTime fun k => ⟨k.1, k.2.1, roundCount_le _ _⟩
    have e2 := (e1.then (roundQuality_ev _ empty)).then (applyCorrection_ev _ c)
    refine Evolves.then ?_ (ageSamples_ev _)
    split
    · exact e2.withTime (applyPending_ok _ _)
    · exact e2

theorem offerBeacon_ev (s : State) : Evolves [.line, .plan, .time, .drill, .faults] s (offerBeacon s) := by
  unfold offerBeacon
  try dsimp only
  repeat' first
    | with_reducible exact Evolves.refl _ _
    | (show within _ _ = true; decide)
    | with_reducible apply Evolves.after (offer_ev _ _)
    | with_reducible apply Evolves.withTime
    | exact timeOk_same rfl rfl rfl

theorem startBeaconTimer_ev (s : State) : Evolves [.time] s (startBeaconTimer s) := by
  unfold startBeaconTimer
  try dsimp only
  repeat' first
    | with_reducible exact Evolves.refl _ _
    | (show within _ _ = true; decide)
    | with_reducible apply Evolves.withTime
    | exact timeOk_same rfl rfl rfl

theorem establishTime_ms {e : RosterEntry} {c : BeaconContent} {now : Count} {t : CampusTime}
    (h : establishTime e c now = some t) : t.ms < dayMs := by
  unfold establishTime at h
  split at h
  · split at h
    · exact (Option.some.inj h) ▸ campusAdd_ms _ _
    · simp at h
  · simp at h

theorem takeBeacon_ev (s : State) (p : StationNo) (c : BeaconContent) : Evolves [.mark, .time, .line, .bells, .arb, .synth, .ann, .clocks, .faults] s (takeBeacon s p c) := by
  unfold takeBeacon setRoster
  try dsimp only
  repeat' first
    | with_reducible exact Evolves.refl _ _
    | (show within _ _ = true; decide)
    | with_reducible apply Evolves.after (establish_ev _ _ _ ?_)
    | exact fun _ => establishTime_ms (by assumption)
    | exact takeCarriedKey_ok _ _
    | with_reducible apply Evolves.withTime
    | with_reducible apply Evolves.withLine
    | exact timeOk_same rfl rfl rfl
    | exact lineOk_same rfl
    | split

/-- Accepting a mark needs a label within a day, as a held label is. -/
theorem acceptMark_ev (s : State) (l : CampusTime) (h : TimeOk s.time → l.ms < dayMs) :
    Evolves [.mark, .time, .line, .bells, .arb, .synth, .ann, .clocks, .faults] s (acceptMark s l) := by
  unfold acceptMark
  dsimp only
  split
  · refine Evolves.then ?_ (establish_rest _ _ _)
    exact Evolves.withTime (s := s) (t := s) (Evolves.refl _ s)
      fun k => ⟨h k, fun _ hl => by simp at hl, k.2.2⟩
  · have e : Evolves [.mark, .time, .line, .bells, .arb, .synth, .ann, .clocks, .faults] s
        (s.withTime { s.time with label := none, prevMark := some s.time.localCount }) :=
      (Evolves.refl _ s).withTime fun k => ⟨k.1, fun _ hl => by simp at hl, k.2.2⟩
    exact (e.then (applyCorrection_ev _ _)).then (setQuality_ev _ _)

theorem decideMark_ev (s : State) :
    Evolves [.mark, .time, .line, .bells, .arb, .synth, .ann, .clocks, .faults] s (decideMark s) := by
  unfold decideMark
  split
  · rename_i l hl
    split
    · exact acceptMark_ev s l fun k => k.2.1 l hl
    · exact (report_ev _ _).mono
  · exact (report_ev _ _).mono

theorem lapseReference_ev (s : State) : Evolves [.time, .faults, .clocks] s (lapseReference s) := by
  unfold lapseReference
  try dsimp only
  repeat' first
    | with_reducible exact Evolves.refl _ _
    | (show within _ _ = true; decide)
    | with_reducible apply Evolves.after (report_ev _ _)
    | with_reducible apply Evolves.after (setQuality_ev _ _)
    | with_reducible apply Evolves.withTime
    | exact timeOk_same rfl rfl rfl
    | split

/-! ## Plan Unit and Record Store -/

theorem beginSave_ev (s : State) : Evolves [.store] s (beginSave s) := by
  unfold beginSave
  try dsimp only
  repeat' first
    | with_reducible exact Evolves.refl _ _
    | (show within _ _ = true; decide)
    | with_reducible apply Evolves.withStore
    | split

theorem requestSave_ev (s : State) : Evolves [.store] s (requestSave s) := by
  unfold requestSave
  try dsimp only
  repeat' first
    | with_reducible exact Evolves.refl _ _
    | (show within _ _ = true; decide)
    | with_reducible apply Evolves.after (beginSave_ev _)
    | with_reducible apply Evolves.withStore
    | split

theorem storeDone_ev (s : State) : Evolves [.store] s (storeDone s) := by
  unfold storeDone
  try dsimp only
  repeat' first
    | with_reducible exact Evolves.refl _ _
    | (show within _ _ = true; decide)
    | with_reducible apply Evolves.after (beginSave_ev _)
    | with_reducible apply Evolves.withStore
    | split

/-- What a new staging area leaves: all of the Plan Unit but the area and its overtaken mark. -/
theorem setStaging_plan (s : State) (x : Staging) :
    (setStaging s x).plan.active = s.plan.active ∧ (setStaging s x).plan.staging = x ∧
      (setStaging s x).plan.unobtainable = s.plan.unobtainable ∧ (setStaging s x).plan.serve = s.plan.serve ∧
      (setStaging s x).plan.queued = s.plan.queued ∧ (setStaging s x).plan.pausedUntil = s.plan.pausedUntil :=
  ⟨rfl, rfl, rfl, rfl, rfl, rfl⟩

theorem setStaging_ev (s : State) (x : Staging) : Evolves [.plan] s (setStaging s x) := by
  unfold setStaging
  try dsimp only
  repeat' first
    | with_reducible exact Evolves.refl _ _
    | (show within _ _ = true; decide)
    | with_reducible apply Evolves.withPlan

theorem startFetch_ev (s : State) (k : Key) (d : Digest) : Evolves [.plan, .line, .time, .drill, .faults] s (startFetch s k d) := by
  unfold startFetch
  try dsimp only
  repeat' first
    | with_reducible exact Evolves.refl _ _
    | (show within _ _ = true; decide)
    | with_reducible apply Evolves.after (offer_ev _ _)
    | with_reducible apply Evolves.after (setStaging_ev _ _)

theorem evaluateFetch_ev (s : State) : Evolves [.plan, .line, .time, .drill, .faults] s (evaluateFetch s) := by
  unfold evaluateFetch
  try dsimp only
  repeat' first
    | with_reducible exact Evolves.refl _ _
    | (show within _ _ = true; decide)
    | with_reducible apply Evolves.after (startFetch_ev _ _ _)
    | split

theorem freeStaging_ev (s : State) : Evolves [.plan, .line, .time, .drill, .faults] s (freeStaging s) := by
  unfold freeStaging
  try dsimp only
  repeat' first
    | with_reducible exact Evolves.refl _ _
    | (show within _ _ = true; decide)
    | with_reducible apply Evolves.after (setStaging_ev _ _)
    | with_reducible apply Evolves.after (evaluateFetch_ev _)

theorem changePlan_ev (s : State) (a : ActivePlan) : Evolves [.plan, .store, .bells, .clocks] s (changePlan s a) := by
  unfold changePlan
  try dsimp only
  repeat' first
    | with_reducible exact Evolves.refl _ _
    | (show within _ _ = true; decide)
    | with_reducible apply Evolves.after (bellPlanChange_ev _)
    | with_reducible apply Evolves.after (computeStatus_ev _)
    | with_reducible apply Evolves.after (requestSave_ev _)
    | with_reducible apply Evolves.withPlan

theorem failFetch_ev (s : State) (k : Key) (c : FaultCode) : Evolves [.plan, .line, .time, .drill, .faults] s (failFetch s k c) := by
  unfold failFetch
  try dsimp only
  repeat' first
    | with_reducible exact Evolves.refl _ _
    | (show within _ _ = true; decide)
    | with_reducible apply Evolves.after (report_ev _ _)
    | with_reducible apply Evolves.after (freeStaging_ev _)
    | with_reducible apply Evolves.withPlan

theorem completeFetch_ev (s : State) (f : Fetch) : Evolves [.plan, .store, .bells, .clocks, .line, .time, .drill, .faults] s (completeFetch s f) := by
  unfold completeFetch
  try dsimp only
  repeat' first
    | with_reducible exact Evolves.refl _ _
    | (show within _ _ = true; decide)
    | with_reducible apply Evolves.after (raise_ev _ _)
    | with_reducible apply Evolves.after (setStaging_ev _ _)
    | with_reducible apply Evolves.after (freeStaging_ev _)
    | with_reducible apply Evolves.after (changePlan_ev _ _)
    | with_reducible apply Evolves.after (failFetch_ev _ _ _)
    | split

theorem fetchFragment_ev (s : State) (f : Fetch) (x : PlanFrame) : Evolves [.plan, .store, .bells, .clocks, .line, .time, .drill, .faults] s (fetchFragment s f x) := by
  unfold fetchFragment
  try dsimp only
  repeat' first
    | with_reducible exact Evolves.refl _ _
    | (show within _ _ = true; decide)
    | with_reducible apply Evolves.after (setStaging_ev _ _)
    | with_reducible apply Evolves.after (completeFetch_ev _ _)
    | split

theorem fetchExpired_ev (s : State) (f : Fetch) : Evolves [.plan, .line, .time, .drill, .faults] s (fetchExpired s f) := by
  unfold fetchExpired
  try dsimp only
  repeat' first
    | with_reducible exact Evolves.refl _ _
    | (show within _ _ = true; decide)
    | with_reducible apply Evolves.after (offer_ev _ _)
    | with_reducible apply Evolves.after (setStaging_ev _ _)
    | with_reducible apply Evolves.after (failFetch_ev _ _ _)
    | split

theorem suppressPlan_ev (s : State) (k : Key) (i : Nat) : Evolves [.line, .plan, .time, .drill, .faults] s (suppressPlan s k i) := by
  unfold suppressPlan
  try dsimp only
  repeat' first
    | with_reducible exact Evolves.refl _ _
    | (show within _ _ = true; decide)
    | exact filterQueue_ok _ _
    | with_reducible apply Evolves.after (tellAll_ev _ _)
    | with_reducible apply Evolves.withLine

theorem takePlanFrame_ev (s : State) (x : PlanFrame) : Evolves [.plan, .store, .bells, .clocks, .line, .time, .drill, .faults] s (takePlanFrame s x) := by
  unfold takePlanFrame
  try dsimp only
  repeat' first
    | with_reducible exact Evolves.refl _ _
    | (show within _ _ = true; decide)
    | with_reducible apply Evolves.after (fetchFragment_ev _ _ _)
    | with_reducible apply Evolves.withPlan
    | split

theorem takePlanreq_ev (s : State) (k : Key) (m : FragmentMask) : Evolves [.plan, .line, .time, .drill, .faults] s (takePlanreq s k m) := by
  unfold takePlanreq
  try dsimp only
  repeat' first
    | with_reducible exact Evolves.refl _ _
    | (show within _ _ = true; decide)
    | with_reducible apply Evolves.after (runCursor_ev _)
    | with_reducible apply Evolves.withPlan
    | split

theorem planReported_ev (s : State) : Evolves [.plan, .line, .time, .drill, .faults] s (planReported s) := by
  unfold planReported
  try dsimp only
  repeat' first
    | with_reducible exact Evolves.refl _ _
    | (show within _ _ = true; decide)
    | with_reducible apply Evolves.after (evaluateFetch_ev _)

theorem setRoster_ok (l : LineUnit) (p : StationNo) (e : RosterEntry) (h : LineOk l) :
    LineOk (setRoster l p e) := h

theorem hearPeer_ev (s : State) (p : StationNo) : Evolves [.drill, .bells, .arb, .synth, .ann, .faults, .clocks, .line, .plan, .time] s (hearPeer s p) := by
  unfold hearPeer
  try dsimp only
  repeat' first
    | with_reducible exact Evolves.refl _ _
    | (show within _ _ = true; decide)
    | exact setRoster_ok _ _ _
    | with_reducible apply Evolves.after (raise_ev _ _)
    | with_reducible apply Evolves.after (rollPresence_ev _ _ _)
    | with_reducible apply Evolves.after (planReported_ev _)
    | with_reducible apply Evolves.withLine
    | exact lineOk_same rfl
    | split

theorem losePeer_ev (s : State) (p : StationNo) : Evolves [.drill, .bells, .arb, .synth, .ann, .faults, .clocks, .line, .plan, .time] s (losePeer s p) := by
  unfold losePeer
  try dsimp only
  repeat' first
    | with_reducible exact Evolves.refl _ _
    | (show within _ _ = true; decide)
    | exact setRoster_ok _ _ _
    | with_reducible apply Evolves.after (raise_ev _ _)
    | with_reducible apply Evolves.after (rollPresence_ev _ _ _)
    | with_reducible apply Evolves.withLine

/-! ## Entry to RUN and to JOIN -/

theorem enterRun_ev (s : State) : Evolves [.mark, .start, .time, .line, .plan, .drill, .faults, .bells, .clocks] s (enterRun s) := by
  unfold enterRun
  try dsimp only
  repeat' first
    | with_reducible exact Evolves.refl _ _
    | (show within _ _ = true; decide)
    | with_reducible apply Evolves.after (bellEnterRun_ev _)
    | with_reducible apply Evolves.after (clockAll_ev _ _)
    | with_reducible apply Evolves.after (offerBeacon_ev _)
    | with_reducible apply Evolves.after (startBeaconTimer_ev _)
    | with_reducible apply Evolves.after (evaluateFetch_ev _)
    | with_reducible apply Evolves.withStart

theorem beginReal_ev (s : State) : Evolves [.mark, .start, .drill, .bells, .arb, .synth, .ann, .faults, .clocks, .line, .plan, .time] s (beginReal s) := by
  unfold beginReal
  try dsimp only
  repeat' first
    | with_reducible exact Evolves.refl _ _
    | (show within _ _ = true; decide)
    | with_reducible apply Evolves.after (beginDrill_ev _ _)
    | with_reducible apply Evolves.after (enterRun_ev _)
    | split

theorem faAct_ev (s : State) : Evolves [.mark, .start, .drill, .bells, .arb, .synth, .ann, .faults, .clocks, .line, .plan, .time] s (faAct s) := by
  unfold faAct
  try dsimp only
  repeat' first
    | with_reducible exact Evolves.refl _ _
    | (show within _ _ = true; decide)
    | with_reducible apply Evolves.after (offerState_ev _)
    | with_reducible apply Evolves.after (overridePractice_ev _ _)
    | with_reducible apply Evolves.after (beginReal_ev _)
    | split

theorem dkAct_ev (s : State) : Evolves [.drill, .bells, .arb, .synth, .ann, .faults, .clocks, .line, .plan, .time] s (dkAct s) := by
  unfold dkAct
  try dsimp only
  repeat' first
    | with_reducible exact Evolves.refl _ _
    | (show within _ _ = true; decide)
    | with_reducible apply Evolves.after (beginDrill_ev _ _)
    | split

theorem joinState_ev (s : State) : Evolves [.start, .line] s (joinState s) := by
  unfold joinState
  try dsimp only
  repeat' first
    | with_reducible exact Evolves.refl _ _
    | (show within _ _ = true; decide)
    | with_reducible apply Evolves.withStart
    | with_reducible apply Evolves.withLine
    | exact lineOk_same rfl

theorem actLatched_ev (s : State) : Evolves [.mark, .start, .drill, .bells, .arb, .synth, .ann, .faults, .clocks, .line, .plan, .time] s (actLatched s) := by
  unfold actLatched
  try dsimp only
  repeat' first
    | with_reducible exact Evolves.refl _ _
    | (show within _ _ = true; decide)
    | with_reducible apply Evolves.after (faAct_ev _)
    | with_reducible apply Evolves.after (dkAct_ev _)
    | with_reducible apply Evolves.withStart
    | split

theorem enterJoin_ev (s : State) : Evolves [.mark, .start, .drill, .bells, .arb, .synth, .ann, .faults, .clocks, .line, .plan, .time] s (enterJoin s) := by
  unfold enterJoin
  try dsimp only
  repeat' first
    | with_reducible exact Evolves.refl _ _
    | (show within _ _ = true; decide)
    | with_reducible apply Evolves.after (joinState_ev _)
    | with_reducible apply Evolves.after (actLatched_ev _)

/-! ## Events of the Line Unit, and received frames -/

theorem sentLine_ok (l : LineUnit) (now : Count) (b : FrameBody) (h : LineOk l) :
    LineOk (sentLine l now b) := withoutFlight_ok l h

theorem failFlight_ok (l : LineUnit) (h : LineOk l) : LineOk { l with queue := failFlight l.queue } :=
  ⟨by simpa [failFlight] using h.1, pairwise_map_shape failFlight_shape h.2⟩

theorem stoppedLine_ok (l : LineUnit) (h : LineOk l) : LineOk (stoppedLine l) := h

theorem receivedEnd_ok (l : LineUnit) (now : Count) (h : LineOk l) : LineOk (receivedEnd l now) := by
  unfold receivedEnd
  split <;> exact h

theorem setHold_replace_ok (l : LineUnit) (b h : FrameBody) (k : LineOk l) :
    LineOk { setHold l b none with queue := replaceSort (setHold l b none).queue h } :=
  replaceSort_ok _ _ (setHold_ok _ _ _ k)

theorem frameSent_ev (s : State) (e : TxEntry) : Evolves [.line, .plan, .time, .drill, .faults] s (frameSent s e) := by
  unfold frameSent
  try dsimp only
  repeat' first
    | with_reducible exact Evolves.refl _ _
    | (show within _ _ = true; decide)
    | exact sentLine_ok _ _ _
    | exact fun k => recordSent_ok _ _ k
    | with_reducible apply Evolves.after (told_ev _ _ _)
    | with_reducible apply Evolves.after (offerHeld_ev _ _)
    | with_reducible apply Evolves.withTime
    | with_reducible apply Evolves.withLine

theorem replaceHeld_ev (s : State) (b : FrameBody) : Evolves [.line, .plan, .time, .drill, .faults] s (replaceHeld s b) := by
  unfold replaceHeld
  try dsimp only
  repeat' first
    | with_reducible exact Evolves.refl _ _
    | (show within _ _ = true; decide)
    | exact setHold_replace_ok _ _ _
    | with_reducible apply Evolves.after (told_ev _ _ _)
    | with_reducible apply Evolves.withLine
    | exact lineOk_same rfl
    | split

theorem attemptFailed_ev (s : State) (e : TxEntry) : Evolves [.line, .plan, .time, .drill, .faults] s (attemptFailed s e) := by
  unfold attemptFailed
  try dsimp only
  repeat' first
    | with_reducible exact Evolves.refl _ _
    | (show within _ _ = true; decide)
    | exact withoutFlight_ok _
    | exact failFlight_ok _
    | exact stoppedLine_ok _
    | with_reducible apply Evolves.after (report_ev _ _)
    | with_reducible apply Evolves.after (dropCapture_ev _)
    | with_reducible apply Evolves.after (told_ev _ _ _)
    | with_reducible apply Evolves.after (offerHeld_ev _ _)
    | with_reducible apply Evolves.after (replaceHeld_ev _ _)
    | with_reducible apply Evolves.withLine
    | exact lineOk_same rfl
    | split

theorem stuckLine_ev (s : State) : Evolves [.line, .faults] s (stuckLine s) := by
  unfold stuckLine
  try dsimp only
  repeat' first
    | with_reducible exact Evolves.refl _ _
    | (show within _ _ = true; decide)
    | with_reducible apply Evolves.after (report_ev _ _)
    | with_reducible apply Evolves.withLine
    | exact lineOk_same rfl
    | split

/-- The level of the line's activity touches the Line Unit only. -/
theorem lineLevel_ev (s : State) (b : Bool) : Evolves [.line] s (lineLevel s b) :=
  (Evolves.refl _ s).withLine (lineOk_same rfl)

/-- The stuck watch of a line that becomes busy leaves its queue and its level. -/
theorem busyFrom_queue (l : LineUnit) (n : Count) : (busyFrom l n).queue = l.queue := by
  unfold busyFrom; split <;> rfl

theorem busyFrom_dominant (l : LineUnit) (n : Count) : (busyFrom l n).dominant = l.dominant := by
  unfold busyFrom; split <;> rfl

theorem busyFrom_activity (l : LineUnit) (n : Count) : (busyFrom l n).activity = l.activity := by
  unfold busyFrom; split <;> rfl

theorem damagedFrame_ev (s : State) (d : Damage) : Evolves [.line, .plan, .time, .drill, .faults] s (damagedFrame s d) := by
  unfold damagedFrame activityEnded
  try dsimp only
  repeat' first
    | with_reducible exact Evolves.refl _ _
    | (show within _ _ = true; decide)
    | with_reducible apply Evolves.after (report_ev _ _)
    | with_reducible apply Evolves.after (dropCapture_ev _)
    | with_reducible apply Evolves.after (lineLevel_ev _ _)
    | with_reducible apply Evolves.after (attemptFailed_ev _ _)
    | with_reducible apply Evolves.withLine
    | exact lineOk_same (busyFrom_queue _ _)
    | exact lineOk_same rfl
    | split

theorem enterListenOnly_ev (s : State) : Evolves [.line, .time, .drill, .plan] s (enterListenOnly s) := by
  have e : Evolves [.line, .time, .drill, .plan] s
      (s.withLine { emptyQueue s.line with listenOnly := true }) :=
    (Evolves.refl _ s).withLine fun _ => emptyQueue_ok s.line
  exact ((e.withTime (x := { s.time with setCopies := none }) fun k => k).withDrill
    (x := { s.drill with copies := [] }) fun k => k).withPlan
    (x := { s.plan with serve := 0, queued := [] })

theorem duplicateFrame_ev (s : State) : Evolves [.line, .time, .drill, .plan, .faults] s (duplicateFrame s) := by
  unfold duplicateFrame
  try dsimp only
  repeat' first
    | with_reducible exact Evolves.refl _ _
    | (show within _ _ = true; decide)
    | exact receivedEnd_ok _ _
    | with_reducible apply Evolves.after (report_ev _ _)
    | with_reducible apply Evolves.after (dropCapture_ev _)
    | with_reducible apply Evolves.after (enterListenOnly_ev _)
    | with_reducible apply Evolves.withLine
    | exact lineOk_same rfl
    | split

theorem lineBusy_ev (s : State) : Evolves [.line] s (lineBusy s) := by
  unfold lineBusy
  try dsimp only
  repeat' first
    | with_reducible exact Evolves.refl _ _
    | (show within _ _ = true; decide)
    | with_reducible apply Evolves.withLine
    | exact lineOk_same rfl
    | split

theorem lineIdle_ev (s : State) : Evolves [.line] s (lineIdle s) := by
  unfold lineIdle
  try dsimp only
  repeat' first
    | with_reducible exact Evolves.refl _ _
    | (show within _ _ = true; decide)
    | with_reducible apply Evolves.withLine
    | exact lineOk_same rfl
    | split

theorem frameHeard_ev (s : State) (p : StationNo) : Evolves [.drill, .bells, .arb, .synth, .ann, .faults, .clocks, .line, .plan, .time] s (frameHeard s p) := by
  unfold frameHeard
  try dsimp only
  repeat' first
    | with_reducible exact Evolves.refl _ _
    | (show within _ _ = true; decide)
    | exact receivedEnd_ok _ _
    | with_reducible apply Evolves.after (hearPeer_ev _ _)
    | with_reducible apply Evolves.withLine
    | exact lineOk_same rfl

theorem handOver_present {s : State} {p : StationNo} (h : s.line.roster[p].present = true) : handOver s p = s :=
  if_pos h

theorem handOver_absent {s : State} {p : StationNo} (h : s.line.roster[p].present = false) :
    handOver s p = frameHeard s p := if_neg (by rw [h]; decide)

/-! ## Bell claims -/

theorem slotSounds_iff (s : State) (x : BellSlot) : slotSounds s.bells x = true ↔ BellPlays s x := by
  unfold slotSounds BellPlays genOn
  simp only [Bool.and_eq_true, decide_eq_true_eq, List.any_eq_true]
  refine and_congr_right fun _ => ⟨fun ⟨c, hc, h⟩ => ?_, fun ⟨c, i, hc, h⟩ => ⟨c, hc, by rw [h]⟩⟩
  revert h
  cases hs : s.bells.gens[c].state <;> simp
  exact ⟨c, hc, _, hs⟩

/-- The bell claim of a slot is sounding as it plays, once it is reported (R90, R124). -/
theorem reportBell_sounding (s : State) (k : BellSlotNo) : BellSounding (reportBell s k) k := by
  intro x q hx hq hn
  cases hs : s.bells.slots[k] with
  | none =>
    have e : reportBell s k = s := by unfold reportBell; rw [hs]
    rw [e, hs] at hx
    cases hx
  | some y =>
    have e : reportBell s k =
        withArbiter s (reportSounding s.arb (bellSlot k) y.claimNo (slotSounds s.bells y)) := by
      unfold reportBell; rw [hs]
    rw [e] at hx hq hn ⊢
    simp only [withArbiter_bells] at hx
    obtain rfl : y = x := Option.some.inj (hs.symm.trans hx)
    have hp : ∀ a, BellPlays (withArbiter s a) y ↔ BellPlays s y := fun a => by
      unfold BellPlays; rw [withArbiter_bells]
    rw [hp, ← slotSounds_iff]
    simp only [withArbiter_arb] at hq hn
    unfold reportSounding at hq hn
    cases hc : claimIn s.arb (bellSlot k) with
    | none => simp [hc] at hq
    | some c =>
      simp only [hc] at hq hn
      by_cases he : s.arb.slots[bellSlot k].number = y.claimNo
      · rw [if_pos he, claimIn_setClaim, if_pos rfl] at hq
        rw [← Option.some.inj hq]
      · simp only [he, if_false] at hn
end Sys2Proof.Laws
end

