-- ==== Sys2Proof/Laws/Events.lean ====
section
/-! SUPPORT. How panel commands, notices, received frames and the Record Store's operations evolve the state, and
that the Record Store's writes keep the memory canonical. -/

namespace Sys2Proof.Laws

open Sys2Proof Sys2Proof.Machine

/-! ## The frames in which meanings stand -/

theorem whenAlive_ev {fs : List Field} {s t : State} (h : Evolves fs s t) : Evolves fs s (whenAlive s t) := by
  unfold whenAlive
  split
  · exact h
  · exact Evolves.refl _ _

theorem whenWorking_ev {fs : List Field} {s t : State} (h : Evolves fs s t) : Evolves fs s (whenWorking s t) := by
  unfold whenWorking
  split
  · exact h
  · exact Evolves.refl _ _

/-- The end of a frame changes what its taking changes, and the level where the frame is not taken. -/
theorem whenListening_ev {fs : List Field} {s t : State} (h : Evolves fs s t) (w : within [.line] fs = true) :
    Evolves fs s (whenListening s t) := by
  unfold whenListening
  split
  · exact h
  · exact (lineLevel_ev s false).mono w

/-- Where the line is watched, the end of a frame is its taking. -/
theorem whenListening_working {s t : State} (h : (alive s && working s) = true) : whenListening s t = t :=
  if_pos h

/-- An expiry of the staging area's timer changes what its effect changes, and the Plan Unit. -/
theorem stagingExpiry_ev {fs : List Field} {s act : State} {c : Count} (h : Evolves fs s act)
    (w : within [.plan] fs = true) : Evolves fs s (stagingExpiry s c act) := by
  unfold stagingExpiry
  dsimp only
  split
  · exact (Evolves.refl fs s).withPlan w
  · exact h.withPlan w

/-- An expiry that nothing has overtaken has its effect. -/
theorem stagingExpiry_due {s act : State} {c : Count} (h : s.plan.overtaken = false) :
    stagingExpiry s c act = act.withPlan { act.plan with overtaken := false } := by
  unfold stagingExpiry
  simp only [h, Bool.false_and, Bool.false_eq_true, if_false]

/-- An overtaken expiry whose timer runs on only takes the mark away. -/
theorem stagingExpiry_void {s act : State} {c : Count} (h : s.plan.overtaken = true)
    (k : countReached s.time.localCount c = false) :
    stagingExpiry s c act = s.withPlan { s.plan with overtaken := false } := by
  unfold stagingExpiry
  simp only [h, k, Bool.not_false, Bool.and_self, if_true]

/-- A panel command changes what its owner changes, and the port. -/
theorem panelTake_ev {fs : List Field} {s : State} {f : State → State × Response}
    (h : Evolves fs s (f s).1) (w : within fs fs = true) : Evolves (.port :: fs) s (panelTake s f) := by
  have port {t : State} (r : Response) : Evolves [.port] t (answerWith t r) := (Evolves.refl _ t).withPort
  have more {gs : List Field} : within gs fs = true → within gs (.port :: fs) = true := fun k =>
    List.all_eq_true.mpr fun x hx => by
      have := List.all_eq_true.mp k x hx
      simp only [List.contains_cons, this, Bool.or_true]
  have one : within [.port] (.port :: fs) = true := by simp [within]
  unfold panelTake
  split
  · split
    · exact Evolves.refl _ _
    · exact (port _).mono one
    · exact (h.mono (more w)).then (port _) one
  · exact Evolves.refl _ _

/-- A notice changes what its owner changes, and the arbiter. -/
theorem takeNotice_ev {fs : List Field} {s : State} {k : SlotNo} {act : State → ClaimNotice → State}
    (h : ∀ t n, Evolves fs t (act t n)) (w : within [.arb] fs = true) (v : within fs fs = true) :
    Evolves fs s (takeNotice s k act) := by
  unfold takeNotice
  split
  · exact Evolves.refl _ _
  · dsimp only
    split
    · exact ((Evolves.refl _ s).withArb (dropNotice_ok (slot := k)) w).then (h _ _) v
    · exact (Evolves.refl _ s).withArb (dropNotice_ok (slot := k)) w

/-! ## Panel commands, events and frames -/

theorem commitPlan_ev (s : State) (l : List (List Byte)) (b : Bool) : Evolves [.plan, .store, .bells, .clocks, .line, .time, .drill, .faults] s (commitPlan s l b).1 := by
  unfold commitPlan
  try dsimp only
  repeat' first
    | with_reducible exact Evolves.refl _ _
    | (show within _ _ = true; decide)
    | with_reducible apply Evolves.after (setStaging_ev _ _)
    | with_reducible apply Evolves.after (freeStaging_ev _)
    | with_reducible apply Evolves.after (changePlan_ev _ _)
    | exact lineOk_same rfl
    | exact drillOk_same rfl
    | exact timeOk_same rfl rfl rfl
    | exact bellsOk_same rfl rfl
    | exact id
    | split

theorem commitOverrides_ev (s : State) (a : ActivePlan) (l : List Span) : Evolves [.plan, .store, .bells, .clocks, .line, .time, .drill, .faults] s (commitOverrides s a l).1 := by
  unfold commitOverrides
  try dsimp only
  repeat' first
    | with_reducible exact Evolves.refl _ _
    | (show within _ _ = true; decide)
    | with_reducible apply Evolves.after (commitPlan_ev _ _ _)
    | exact lineOk_same rfl
    | exact drillOk_same rfl
    | exact timeOk_same rfl rfl rfl
    | exact bellsOk_same rfl rfl
    | exact id
    | split

theorem loadingNow_ev (s : State) (f : Fragments) : Evolves [.plan] s (loadingNow s f) := by
  unfold loadingNow
  try dsimp only
  repeat' first
    | with_reducible exact Evolves.refl _ _
    | (show within _ _ = true; decide)
    | with_reducible apply Evolves.after (setStaging_ev _ _)

theorem loadBeginTake_ev (s : State) (c : LoadChoice) : Evolves [.plan] s (loadBeginTake c s).1 := by
  unfold loadBeginTake
  try dsimp only
  repeat' first
    | with_reducible exact Evolves.refl _ _
    | (show within _ _ = true; decide)
    | with_reducible apply Evolves.after (loadingNow_ev _ _)
    | exact lineOk_same rfl
    | exact drillOk_same rfl
    | exact timeOk_same rfl rfl rfl
    | exact bellsOk_same rfl rfl
    | exact id
    | split

theorem loadFragmentTake_ev (s : State) (n : Nat) (l : List Byte) : Evolves [.plan] s (loadFragmentTake n l s).1 := by
  unfold loadFragmentTake
  try dsimp only
  repeat' first
    | with_reducible exact Evolves.refl _ _
    | (show within _ _ = true; decide)
    | with_reducible apply Evolves.after (loadingNow_ev _ _)
    | exact lineOk_same rfl
    | exact drillOk_same rfl
    | exact timeOk_same rfl rfl rfl
    | exact bellsOk_same rfl rfl
    | exact id
    | split

theorem loadCommitTake_ev (s : State) (d : Option Digest) : Evolves [.plan, .store, .bells, .clocks, .line, .time, .drill, .faults] s (loadCommitTake d s).1 := by
  unfold loadCommitTake
  try dsimp only
  repeat' first
    | with_reducible exact Evolves.refl _ _
    | (show within _ _ = true; decide)
    | with_reducible apply Evolves.after (commitPlan_ev _ _ _)
    | with_reducible apply Evolves.after (loadingNow_ev _ _)
    | exact lineOk_same rfl
    | exact drillOk_same rfl
    | exact timeOk_same rfl rfl rfl
    | exact bellsOk_same rfl rfl
    | exact id
    | split

theorem loadAbortTake_ev (s : State) : Evolves [.plan, .store, .bells, .clocks, .line, .time, .drill, .faults] s (loadAbortTake s).1 := by
  unfold loadAbortTake
  try dsimp only
  repeat' first
    | with_reducible exact Evolves.refl _ _
    | (show within _ _ = true; decide)
    | with_reducible apply Evolves.after (freeStaging_ev _)
    | exact lineOk_same rfl
    | exact drillOk_same rfl
    | exact timeOk_same rfl rfl rfl
    | exact bellsOk_same rfl rfl
    | exact id
    | split

theorem overrideAddTake_ev (s : State) (o : Span) : Evolves [.plan, .store, .bells, .clocks, .line, .time, .drill, .faults] s (overrideAddTake o s).1 := by
  unfold overrideAddTake
  try dsimp only
  repeat' first
    | with_reducible exact Evolves.refl _ _
    | (show within _ _ = true; decide)
    | with_reducible apply Evolves.after (commitOverrides_ev _ _ _)
    | exact lineOk_same rfl
    | exact drillOk_same rfl
    | exact timeOk_same rfl rfl rfl
    | exact bellsOk_same rfl rfl
    | exact id
    | split

theorem overrideRemoveTake_ev (s : State) (n : Nat) : Evolves [.plan, .store, .bells, .clocks, .line, .time, .drill, .faults] s (overrideRemoveTake n s).1 := by
  unfold overrideRemoveTake
  try dsimp only
  repeat' first
    | with_reducible exact Evolves.refl _ _
    | (show within _ _ = true; decide)
    | with_reducible apply Evolves.after (commitOverrides_ev _ _ _)
    | exact lineOk_same rfl
    | exact drillOk_same rfl
    | exact timeOk_same rfl rfl rfl
    | exact bellsOk_same rfl rfl
    | exact id
    | split

theorem ringTake_ev (s : State) (m : CircuitMask) (n : Nat) : Evolves [.bells, .arb, .synth, .faults] s (ringTake m n s).1 := by
  unfold ringTake
  try dsimp only
  repeat' first
    | with_reducible exact Evolves.refl _ _
    | (show within _ _ = true; decide)
    | with_reducible apply Evolves.after (giveRequests_ev _ _ _)
    | exact lineOk_same rfl
    | exact drillOk_same rfl
    | exact timeOk_same rfl rfl rfl
    | exact bellsOk_same rfl rfl
    | exact id
    | split

/-- An announcement that admission does not refuse wins its LIVE judgement (R135, condition 6). -/
theorem admissionRefusal_live {s : State} {p : AnnPost} {w : Bool} (h : admissionRefusal s p w = none)
    (l : isLive p.kind = true) : w = true := by
  unfold admissionRefusal at h
  repeat' (split at h; · cases h)
  simp_all

theorem admitPost_ev (s : State) (p : AnnPost) (h : isLive p.kind = true →
    winsLive s.ann ⟨s.start.station, s.ann.ownSeq + 1⟩ (postStart s) = true) :
    Evolves [.ann, .arb, .synth, .line, .plan, .time, .drill, .faults] s (admitPost s p).1 := by
  have e : Evolves [.ann, .arb, .synth, .line, .plan, .time, .drill, .faults] s
      (s.withAnn { s.ann with ownSeq := s.ann.ownSeq + 1 }) := (Evolves.refl _ s).withAnn (annOk_same rfl rfl)
  unfold admitPost
  dsimp only
  refine Evolves.then ?_ (offer_ev _ _)
  split
  · rename_i limit hk
    refine (e.then (judgeLive_ev _ _ _ limit)).then (admit_ev _ _ fun _ => judgeLive_wins ?_)
    exact h (by rw [hk]; rfl)
  · rename_i hk
    exact e.then (admit_ev _ _ fun l => by simp [hk, isLive] at l)

theorem refusePost_ev (s : State) (r : Reason) : Evolves [.faults, .fresh] s (refusePost s r) := by
  unfold refusePost
  try dsimp only
  repeat' first
    | with_reducible exact Evolves.refl _ _
    | (show within _ _ = true; decide)
    | with_reducible apply Evolves.after (admissionFault_ev _ _ _)
    | with_reducible apply Evolves.withFresh
    | exact lineOk_same rfl
    | exact drillOk_same rfl
    | exact timeOk_same rfl rfl rfl
    | exact bellsOk_same rfl rfl
    | exact id
    | split

theorem announceTake_ev (s : State) (p : AnnPost) : Evolves [.ann, .arb, .synth, .line, .plan, .time, .drill, .faults, .fresh] s (announceTake p s).1 := by
  unfold announceTake
  try dsimp only
  repeat' first
    | with_reducible exact Evolves.refl _ _
    | (show within _ _ = true; decide)
    | with_reducible apply Evolves.after (admitPost_ev _ _ (admissionRefusal_live (by assumption)))
    | with_reducible apply Evolves.after (refusePost_ev _ _)
    | split

theorem endOwn_ev (s : State) (q : Byte) (t : CampusTime) : Evolves [.ann, .arb, .synth, .line, .plan, .time, .drill, .faults] s (endOwn s q t) :=
  ((offer_ev s _).mono).then (endAnnouncement_ev _ _ _)

theorem announceEndTake_ev (s : State) (q : Byte) : Evolves [.ann, .arb, .synth, .line, .plan, .time, .drill, .faults] s (announceEndTake q s).1 := by
  unfold announceEndTake
  try dsimp only
  repeat' first
    | with_reducible exact Evolves.refl _ _
    | (show within _ _ = true; decide)
    | with_reducible apply Evolves.after (endOwn_ev _ _ _)
    | exact lineOk_same rfl
    | exact drillOk_same rfl
    | exact timeOk_same rfl rfl rfl
    | exact bellsOk_same rfl rfl
    | exact id
    | split

theorem drillStartTake_ev (s : State) (b : Bool) : Evolves [.drill, .bells, .arb, .synth, .ann, .faults, .clocks, .line, .plan, .time] s (drillStartTake b s).1 := by
  unfold drillStartTake
  try dsimp only
  repeat' first
    | with_reducible exact Evolves.refl _ _
    | (show within _ _ = true; decide)
    | with_reducible apply Evolves.after (beginDrill_ev _ _)
    | exact lineOk_same rfl
    | exact drillOk_same rfl
    | exact timeOk_same rfl rfl rfl
    | exact bellsOk_same rfl rfl
    | exact id
    | split

theorem signalStopTake_ev (s : State) : Evolves [.drill, .bells, .arb, .synth, .ann, .faults, .clocks, .line, .plan, .time] s (signalStopTake s).1 := by
  unfold signalStopTake
  try dsimp only
  repeat' first
    | with_reducible exact Evolves.refl _ _
    | (show within _ _ = true; decide)
    | with_reducible apply Evolves.after (toAssemble_ev _ _ _)
    | exact lineOk_same rfl
    | exact drillOk_same rfl
    | exact timeOk_same rfl rfl rfl
    | exact bellsOk_same rfl rfl
    | exact id
    | split

theorem clearBuilding_ev (s : State) (r : DrillRecord) : Evolves [.drill, .bells, .arb, .synth, .ann, .faults, .clocks, .line, .plan, .time] s (clearBuilding s r) := by
  unfold clearBuilding
  try dsimp only
  repeat' first
    | with_reducible exact Evolves.refl _ _
    | (show within _ _ = true; decide)
    | with_reducible apply Evolves.after (offerState_ev _)
    | with_reducible apply Evolves.after (allClearTest_ev _)
    | with_reducible apply Evolves.after (setRoll_ev _ _ _ _)

theorem buildingClearTake_ev (s : State) : Evolves [.drill, .bells, .arb, .synth, .ann, .faults, .clocks, .line, .plan, .time] s (buildingClearTake s).1 := by
  unfold buildingClearTake
  try dsimp only
  repeat' first
    | with_reducible exact Evolves.refl _ _
    | (show within _ _ = true; decide)
    | with_reducible apply Evolves.after (clearBuilding_ev _ _)
    | exact lineOk_same rfl
    | exact drillOk_same rfl
    | exact timeOk_same rfl rfl rfl
    | exact bellsOk_same rfl rfl
    | exact id
    | split

theorem drillEndTake_ev (s : State) : Evolves [.drill, .bells, .arb, .synth, .ann, .faults, .clocks, .line, .plan, .time] s (drillEndTake s).1 := by
  unfold drillEndTake
  try dsimp only
  repeat' first
    | with_reducible exact Evolves.refl _ _
    | (show within _ _ = true; decide)
    | with_reducible apply Evolves.after (finishDrill_ev _ _ _)
    | exact lineOk_same rfl
    | exact drillOk_same rfl
    | exact timeOk_same rfl rfl rfl
    | exact bellsOk_same rfl rfl
    | exact id
    | split

theorem alarmResetTake_ev (s : State) : Evolves [.drill, .bells, .arb, .synth, .ann, .faults, .clocks, .line, .plan, .time] s (alarmResetTake s).1 := by
  unfold alarmResetTake
  try dsimp only
  repeat' first
    | with_reducible exact Evolves.refl _ _
    | (show within _ _ = true; decide)
    | with_reducible apply Evolves.after (finishDrill_ev _ _ _)
    | exact lineOk_same rfl
    | exact drillOk_same rfl
    | exact timeOk_same rfl rfl rfl
    | exact bellsOk_same rfl rfl
    | exact id
    | split

theorem nextSetCopy_ev (s : State) : Evolves [.time, .line, .plan, .drill, .faults] s (nextSetCopy s) := by
  unfold nextSetCopy
  try dsimp only
  repeat' first
    | with_reducible exact Evolves.refl _ _
    | (show within _ _ = true; decide)
    | with_reducible apply Evolves.after (offer_ev _ _)
    | with_reducible apply Evolves.withTime
    | exact lineOk_same rfl
    | exact drillOk_same rfl
    | exact timeOk_same rfl rfl rfl
    | exact bellsOk_same rfl rfl
    | exact id
    | split

theorem abandonLoad_ev (s : State) (f : Fragments) : Evolves [.plan, .line, .time, .drill, .faults] s (abandonLoad s f) := by
  unfold abandonLoad
  try dsimp only
  repeat' first
    | with_reducible exact Evolves.refl _ _
    | (show within _ _ = true; decide)
    | with_reducible apply Evolves.after (report_ev _ _)
    | with_reducible apply Evolves.after (raise_ev _ _)
    | with_reducible apply Evolves.after (freeStaging_ev _)

theorem endPlaying_ev (s : State) (i : TablePos) (b : Bool) (o : AnnOutcome) : Evolves [.ann, .arb, .synth, .faults] s (endPlaying s i b o) := by
  unfold endPlaying
  try dsimp only
  repeat' first
    | with_reducible exact Evolves.refl _ _
    | (show within _ _ = true; decide)
    | with_reducible apply Evolves.after (endEntry_ev _ _ _)
    | exact lineOk_same rfl
    | exact drillOk_same rfl
    | exact timeOk_same rfl rfl rfl
    | exact bellsOk_same rfl rfl
    | exact id
    | split

theorem annNotice_ev (s : State) (i : TablePos) (n : ClaimNotice) : Evolves [.ann, .arb, .synth, .faults] s (annNotice s i n) := by
  unfold annNotice
  split
  · exact Evolves.refl _ _
  · rename_i e he
    repeat' first
      | with_reducible exact Evolves.refl _ _
      | (show within _ _ = true; decide)
      | with_reducible apply Evolves.after (setEntry_ev _ _ _ ?_)
      | exact annOk_replace he rfl rfl rfl
      | with_reducible apply Evolves.after (checkHope_ev _ _ _)

theorem bellNotice_ev (s : State) (k : BellSlotNo) (n : ClaimNotice) : Evolves [.bells, .arb, .synth] s (bellNotice s k n) := by
  unfold bellNotice
  try dsimp only
  repeat' first
    | with_reducible exact Evolves.refl _ _
    | (show within _ _ = true; decide)
    | with_reducible apply Evolves.after (reportBell_ev _ _)
    | with_reducible apply Evolves.after (checkBellSlot_ev _ _)
    | with_reducible apply Evolves.withBells
    | exact rfl
    | exact lineOk_same rfl
    | exact drillOk_same rfl
    | exact timeOk_same rfl rfl rfl
    | exact bellsOk_same rfl rfl
    | exact id
    | split

theorem pressRings_ev (s : State) : Evolves [.bells, .arb, .synth, .faults] s (pressRings s) := by
  unfold pressRings
  try dsimp only
  repeat' first
    | with_reducible exact Evolves.refl _ _
    | (show within _ _ = true; decide)
    | with_reducible apply Evolves.after (giveRequests_ev _ _ _)
    | exact lineOk_same rfl
    | exact drillOk_same rfl
    | exact timeOk_same rfl rfl rfl
    | exact bellsOk_same rfl rfl
    | exact id
    | split

theorem nextEndCopy_ev (s : State) : Evolves [.line, .plan, .time, .drill, .faults] s (nextEndCopy s) := by
  unfold nextEndCopy
  try dsimp only
  repeat' first
    | with_reducible exact Evolves.refl _ _
    | (show within _ _ = true; decide)
    | with_reducible apply Evolves.after (offer_ev _ _)
    | with_reducible apply Evolves.withDrill
    | exact lineOk_same rfl
    | exact drillOk_same rfl
    | exact timeOk_same rfl rfl rfl
    | exact bellsOk_same rfl rfl
    | exact id
    | split

theorem timeOut_ev (s : State) (r : DrillRecord) : Evolves [.drill, .bells, .arb, .synth, .ann, .faults, .clocks, .line, .plan, .time] s (timeOut s r) := by
  unfold timeOut
  try dsimp only
  repeat' first
    | with_reducible exact Evolves.refl _ _
    | (show within _ _ = true; decide)
    | with_reducible apply Evolves.after (report_ev _ _)
    | with_reducible apply Evolves.after (finishDrill_ev _ _ _)

theorem drillClaimNotice_ev (s : State) (n : ClaimNotice) : Evolves [.arb, .synth] s (drillClaimNotice s n) := by
  unfold drillClaimNotice
  try dsimp only
  repeat' first
    | with_reducible exact Evolves.refl _ _
    | (show within _ _ = true; decide)
    | with_reducible apply Evolves.after (dropDrillClaim_ev _)
    | exact lineOk_same rfl
    | exact drillOk_same rfl
    | exact timeOk_same rfl rfl rfl
    | exact bellsOk_same rfl rfl
    | exact id
    | split

theorem handBeacon_ev (s : State) (p : StationNo) (c : BeaconContent) : Evolves [.mark, .time, .line, .bells, .arb, .synth, .ann, .clocks, .faults, .plan, .drill] s (handBeacon p c s) := by
  unfold handBeacon
  try dsimp only
  repeat' first
    | with_reducible exact Evolves.refl _ _
    | (show within _ _ = true; decide)
    | with_reducible apply Evolves.after (takeBeacon_ev _ _ _)
    | with_reducible apply Evolves.after (planReported_ev _)
    | split

theorem handPlan_ev (s : State) (x : PlanFrame) : Evolves [.plan, .store, .bells, .clocks, .line, .time, .drill, .faults] s (handPlan x s) := by
  unfold handPlan
  try dsimp only
  repeat' first
    | with_reducible exact Evolves.refl _ _
    | (show within _ _ = true; decide)
    | with_reducible apply Evolves.after (suppressPlan_ev _ _ _)
    | with_reducible apply Evolves.after (takePlanFrame_ev _ _)

theorem judgeReceived_ev (s : State) (a : Announcement) : Evolves [.ann, .arb, .synth, .line, .plan, .time, .drill, .faults] s (judgeReceived a s) := by
  unfold judgeReceived
  try dsimp only
  repeat' first
    | with_reducible exact Evolves.refl _ _
    | (show within _ _ = true; decide)
    | with_reducible apply Evolves.after (judgeLive_ev _ _ _ _)
    | exact lineOk_same rfl
    | exact drillOk_same rfl
    | exact timeOk_same rfl rfl rfl
    | exact bellsOk_same rfl rfl
    | exact id
    | split

theorem admission_ev (s : State) (a : Announcement) (m : isLive a.post.kind = true →
    isLiveRecord s.ann a.id a.start = true → liveEntry s.ann = none) :
    Evolves [.ann, .arb, .synth, .faults] s (admission a s) := by
  unfold admission
  split
  · exact (admissionFault_ev _ _ _).mono
  · rename_i h
    exact admitReceived_ev _ _ fun l => ⟨admissionRefusal_live h l, m l (admissionRefusal_live h l)⟩

/-- A received LIVE announcement that becomes the record leaves no LIVE entry in the table (R132, R136). -/
theorem judgeReceived_live {s : State} {a : Announcement} (h : isLiveRecord s.ann a.id a.start = false)
    (l : isLive a.post.kind = true) (k : isLiveRecord (judgeReceived a s).ann a.id a.start = true) :
    liveEntry (judgeReceived a s).ann = none := by
  unfold judgeReceived at k ⊢
  split at k
  · cases w : winsLive s.ann a.id a.start with
    | false => rw [judgeLive_loses w, h] at k; cases k
    | true => exact (judgeLive_wins w).2
  · rename_i hk
    simp [hk, isLive] at l

theorem handAnnounce_ev (s : State) (p : StationNo) (c : AnnContent) : Evolves [.ann, .arb, .synth, .line, .plan, .time, .drill, .faults] s (handAnnounce p c s) := by
  unfold handAnnounce
  dsimp only
  split
  · exact Evolves.refl _ _
  · rename_i h
    have h : isLiveRecord s.ann ⟨p, c.seq⟩ c.start = false := by
      simp only [Bool.or_eq_true, not_or, Bool.not_eq_true] at h
      exact h.2
    split
    · exact (judgeReceived_ev _ _).then (admission_ev _ _ fun l k => judgeReceived_live h l k)
    · exact judgeReceived_ev _ _

theorem handAnnend_ev (s : State) (p : StationNo) (x : Byte × CampusTime) : Evolves [.ann, .arb, .synth, .faults] s (handAnnend p x s) :=
  endAnnouncement_ev _ _ _

theorem setFaActive_ev (s : State) (p : StationNo) (f : Option FaActive) : Evolves [.line] s (setFaActive s p f) := by
  unfold setFaActive
  try dsimp only
  repeat' first
    | with_reducible exact Evolves.refl _ _
    | (show within _ _ = true; decide)
    | exact setRoster_ok _ _ _
    | with_reducible apply Evolves.withLine

theorem handDrillState_ev (s : State) (p : StationNo) (c : DrillContent) : Evolves [.drill, .bells, .arb, .synth, .ann, .faults, .clocks, .line, .plan, .time] s (handDrillState p c s) := by
  unfold handDrillState
  try dsimp only
  repeat' first
    | with_reducible exact Evolves.refl _ _
    | (show within _ _ = true; decide)
    | with_reducible apply Evolves.after (takeStateFrame_ev _ _ _)
    | with_reducible apply Evolves.after (setFaActive_ev _ _ _)

theorem handEnd_ev (s : State) (p : StationNo) (e : EndedDrill) : Evolves [.mark, .start, .drill, .bells, .arb, .synth, .ann, .faults, .clocks, .line, .plan, .time] s (handEnd p e s) := by
  unfold handEnd
  try dsimp only
  repeat' first
    | with_reducible exact Evolves.refl _ _
    | (show within _ _ = true; decide)
    | with_reducible apply Evolves.after (takeEndFrame_ev _ _)
    | with_reducible apply Evolves.after (beginReal_ev _)
    | with_reducible apply Evolves.after (setFaActive_ev _ _ _)
    | exact lineOk_same rfl
    | exact drillOk_same rfl
    | exact timeOk_same rfl rfl rfl
    | exact bellsOk_same rfl rfl
    | exact id
    | split

theorem takePlanRecord_ev (s : State) (b : Bool) : Evolves [.plan, .faults, .store] s (takePlanRecord s b) := by
  unfold takePlanRecord
  try dsimp only
  repeat' first
    | with_reducible exact Evolves.refl _ _
    | (show within _ _ = true; decide)
    | with_reducible apply Evolves.after (report_ev _ _)
    | with_reducible apply Evolves.withPlan
    | with_reducible apply Evolves.withStore
    | exact lineOk_same rfl
    | exact drillOk_same rfl
    | exact timeOk_same rfl rfl rfl
    | exact bellsOk_same rfl rfl
    | exact id
    | split

/-- The expiry of the JOIN timer that nothing has overtaken: the station enters RUN (R202). -/
theorem joinExpiry_due {s : State} (h : s.start.joinOvertaken = false) : joinExpiry s = enterRun s := by
  unfold joinExpiry
  simp only [h, Bool.false_and, Bool.false_eq_true, if_false]
  congr 1
  cases s
  rename_i st _ _ _ _ _ _ _ _ _ _ _ _ _ _ _ _ _
  cases st
  simp_all [State.withStart]

theorem joinExpiry_ev (s : State) :
    Evolves [.mark, .start, .line, .plan, .bells, .time, .drill, .faults, .clocks] s (joinExpiry s) := by
  unfold joinExpiry
  dsimp only
  split
  · exact (Evolves.refl _ s).withStart
  · exact ((Evolves.refl [.mark, .start, .line, .plan, .bells, .time, .drill, .faults, .clocks] s).withStart).then
      (enterRun_ev _)

/-- Placing the image changes the image, FA and what was known of FA before it. -/
theorem placeImage_ev (s : State) (i : Image) : Evolves [.image, .start, .pins] s (placeImage s i) :=
  (((Evolves.refl _ s).withStart).withPins).withImage

theorem takeImage_ev (s : State) (b : Bool) : Evolves [.image, .faults, .store, .start, .pins] s (takeImage s b) := by
  unfold takeImage
  try dsimp only
  repeat' first
    | with_reducible exact Evolves.refl _ _
    | (show within _ _ = true; decide)
    | with_reducible apply Evolves.after (report_ev _ _)
    | with_reducible apply Evolves.after (placeImage_ev _ _)
    | with_reducible apply Evolves.withFaults
    | with_reducible apply Evolves.withStore
    | exact lineOk_same rfl
    | exact drillOk_same rfl
    | exact timeOk_same rfl rfl rfl
    | exact bellsOk_same rfl rfl
    | exact id
    | exact recordsStay_refl _
    | split

theorem markCleared_ev (s : State) : Evolves [.mem, .store] s (markCleared s) := by
  unfold markCleared
  try dsimp only
  repeat' first
    | with_reducible exact Evolves.refl _ _
    | (show within _ _ = true; decide)
    | with_reducible apply Evolves.withStore
    | with_reducible apply Evolves.withMem
    | exact lineOk_same rfl
    | exact drillOk_same rfl
    | exact timeOk_same rfl rfl rfl
    | exact bellsOk_same rfl rfl
    | exact id
    | split

theorem saveDone_ev (s : State) : Evolves [.mem, .store] s (saveDone s) := by
  unfold saveDone
  try dsimp only
  repeat' first
    | with_reducible exact Evolves.refl _ _
    | (show within _ _ = true; decide)
    | with_reducible apply Evolves.after (storeDone_ev _)
    | with_reducible apply Evolves.withMem
    | exact lineOk_same rfl
    | exact drillOk_same rfl
    | exact timeOk_same rfl rfl rfl
    | exact bellsOk_same rfl rfl
    | exact id
    | split

theorem markingDone_ev (s : State) : Evolves [.mem, .store] s (markingDone s) := by
  unfold markingDone
  try dsimp only
  repeat' first
    | with_reducible exact Evolves.refl _ _
    | (show within _ _ = true; decide)
    | with_reducible apply Evolves.after (storeDone_ev _)
    | with_reducible apply Evolves.withMem
    | exact lineOk_same rfl
    | exact drillOk_same rfl
    | exact timeOk_same rfl rfl rfl
    | exact bellsOk_same rfl rfl
    | exact id
    | split

/-! ## The writes of the Record Store -/

theorem writePlan_wf (m : Memory) (p : ActivePlan) (h : m.wf = true) : (writePlan m p).wf = true :=
  memWrite_wf _ _ _ (memWriteBytes_wf _ _ _ h)

theorem writeDial_wf (m : Memory) (l : List DialEntry) (h : m.wf = true) : (writeDial m l).wf = true :=
  memWrite_wf _ _ _ (memWriteBytes_wf _ _ _ h)

theorem cutDialWrite_wf (s : State) (h : s.mem.wf = true) : (cutDialWrite s).mem.wf = true := by
  unfold cutDialWrite
  split
  · exact memWriteBytes_wf _ _ _ h
  · exact h

theorem cutDialWrite_ev (s : State) : Evolves [.mem, .fresh, .store] s (cutDialWrite s) := by
  unfold cutDialWrite
  split
  · exact ((Evolves.refl _ s).withMem.withFresh).withStore
  · exact Evolves.refl _ _

end Sys2Proof.Laws
end

