-- ==== Sys2Proof/Laws/Notices.lean ====
section
/-! SUPPORT. What the notices of the Time Unit do at the Clock Unit and the Announcement Unit, the time that a bit time
takes, and when the bytes of a panel transaction are a request. -/

namespace Sys2Proof.Laws

open Sys2Proof Sys2Proof.Machine

/-! ## The Clock Unit -/

/-- A pass over the clock circuits that changes each circuit by itself changes every one so, and nothing else. -/
theorem foldl_clocks {f : State → ClockNo → State} (h : ClockNo → ClockCircuit → ClockCircuit) (s : State)
    (hf : ∀ (v : Vector ClockCircuit 4) c, f (s.withClocks v) c = s.withClocks (v.set c (h c v[c]))) :
    (List.finRange 4).foldl f s = s.withClocks (Vector.ofFn fun c : ClockNo => h c s.clocks[c]) := by
  have hs : s = s.withClocks s.clocks := rfl
  rw [hs, show List.finRange 4 = [0, 1, 2, 3] from rfl]
  simp only [List.foldl, hf]
  congr 1
  apply Vector.ext
  intro i hi
  match i, hi with
  | 0, _ | 1, _ | 2, _ | 3, _ => simp; try rfl

theorem clocks_set_self (v : Vector ClockCircuit 4) (c : ClockNo) : v.set c v[c] = v := by
  apply Vector.ext; intro i hi; simp only [Vector.getElem_set]; split
  · subst_vars; rfl
  · rfl

/-- Every IMPULSE circuit is evaluated, each by itself (R99). -/
theorem evaluateAll_eq (s : State) (t : Reading) : evaluateAll s t = s.withClocks (Vector.ofFn fun c : ClockNo =>
    if s.image.clocks[c].kind = .impulse then { s.clocks[c] with
      impulse := evaluated s.clocks[c].impulse s.image.clocks[c] s.time.localCount (inRun s) t } else s.clocks[c]) := by
  refine foldl_clocks (fun c x => if s.image.clocks[c].kind = .impulse then { x with
      impulse := evaluated x.impulse s.image.clocks[c] s.time.localCount (inRun s) t } else x) s fun v c => ?_
  have k : (s.withClocks v).image = s.image := rfl
  have l : (s.withClocks v).clocks = v := rfl
  simp only [evaluate, clockKind, setImpulse, k, l]
  by_cases h : s.image.clocks[c].kind = .impulse
  · simp only [h, if_true]; rfl
  · simp only [h, if_false, clocks_set_self]

/-- Every CODED circuit takes its event, each by itself (R110). -/
theorem beginCodes_eq (s : State) (r : Reading) : beginCodes s r = s.withClocks (Vector.ofFn fun c : ClockNo =>
    if s.image.clocks[c].kind = .coded ∧ s.start.opState = .run then { s.clocks[c] with
      coded := codeNoticed s c r (codeStatus s r) (codeStatus s r) } else s.clocks[c]) := by
  refine (foldl_clocks (fun c x => if s.image.clocks[c].kind = .coded ∧ s.start.opState = .run then { x with
      coded := codeNoticed (s.withClocks (s.clocks.set c x)) c r (codeStatus s r) (codeStatus s r) } else x) s
    fun v c => ?_).trans ?_
  · simp only [beginCode, clockKind]
    have e : ∀ w, codeStatus (s.withClocks w) r = codeStatus s r := fun _ => rfl
    have g : inRun (s.withClocks v) = decide (s.start.opState = .run) := rfl
    have k : (s.withClocks v).image = s.image := rfl
    have l : (s.withClocks v).clocks = v := rfl
    simp only [k, g, l, decide_eq_true_eq]
    split
    · simp only [codeNoticed]
      have : (s.withClocks (s.clocks.set c v[c])).clocks[c] = v[c] := by simp [State.withClocks]
      rw [this]
      split
      · rfl
      · simp [setCoded, e]; rfl
    · rw [clocks_set_self]
  · congr 1
    apply Vector.ext
    intro i hi
    simp only [Vector.getElem_ofFn]
    have : s.withClocks (s.clocks.set i s.clocks[i]) = s := by
      have := clocks_set_self s.clocks ⟨i, hi⟩
      simp only [Fin.getElem_fin] at this
      rw [this]; rfl
    simp only [Fin.getElem_fin, this]

/-- A step or establish notice at the Clock Unit. -/
theorem clockAll_noticed (s : State) (r : Reading) :
    ClocksNoticed s (clockAll s r) r (codeStatus s r) (codeStatus s r) := by
  intro c
  rw [clockAll, beginCodes_eq, evaluateAll_eq]
  generalize hv : (Vector.ofFn fun c : ClockNo => if s.image.clocks[c].kind = .impulse then { s.clocks[c] with
      impulse := evaluated s.clocks[c].impulse s.image.clocks[c] s.time.localCount (inRun s) r } else s.clocks[c]) = v
  have hc : v[c] = if s.image.clocks[c].kind = .impulse then { s.clocks[c] with
      impulse := evaluated s.clocks[c].impulse s.image.clocks[c] s.time.localCount (inRun s) r } else s.clocks[c] := by
    rw [← hv]; simp only [Fin.getElem_fin, Vector.getElem_ofFn]
  have e : codeStatus (s.withClocks v) r = codeStatus s r := rfl
  have k : (s.withClocks v).image = s.image := rfl
  have l : (s.withClocks v).clocks = v := rfl
  have o : (s.withClocks v).start = s.start := rfl
  rw [e]
  generalize codeStatus s r = st
  show (Vector.ofFn _)[c] = _
  simp only [Fin.getElem_fin, Vector.getElem_ofFn] at hc ⊢
  simp only [k, l, o, codeNoticed, Fin.getElem_fin, hc]
  cases hk : s.image.clocks[c.val].kind <;>
    simp only [reduceCtorEq, if_false, if_true, false_and, true_and]
  by_cases ho : s.start.opState = .run
  · simp only [ho, if_true]
  · simp only [ho, if_false]

/-! ## The Announcement Unit -/

theorem active_of_changes {fs : List Field} {s t : State} (h : Changes fs s t) (hf : Field.start ∉ fs)
    (ha : Active s) : Active t := by
  have := h .start hf
  simp only [Field.Same] at this
  simpa [Active, alive, working, this] using ha

/-- What a step notice does to one entry (R138). -/
theorem stepEntry_taken (new : CampusTime) (i : TablePos) (s : State) (ha : Active s) :
    StepTaken new i s (stepEntry new s i) := by
  have hx : exec (.startTrigger i) s = .next (startEntry s i) := by
    simp only [exec, execStartTrigger, whenWorking, ha.1, ha.2, Bool.and_self, if_true]
  constructor
  · rintro ⟨e, he, hg, ht, hr⟩
    rw [hx]; simp [stepEntry, he, ht, campusReached, hr]
  · intro h
    simp only [stepEntry]
    split
    · rfl
    · rename_i e he
      split
      · rename_i h2
        have : e.state ≠ .gathering := fun hg => h ⟨e, he, hg, h2.1, by simpa [campusReached] using h2.2⟩
        simp [startEntry, he, this]
      · rfl

/-! ## A step of campus time -/

/-- A step of campus time: its effect on the Time and Line Units, then its notices, then its record (R17). -/
theorem stepBy_eq (s : State) (c : Int) (hc : c ≠ 0) :
    stepBy s c = raise (report (annStep (clockAll (bellStep
      ((s.withTime (steppedTime s.time c)).withLine (stepRoster s.line)) s.time.campus (campusAdd s.time.campus c))
      ⟨campusAdd s.time.campus c, true⟩) (campusAdd s.time.campus c)) (.stepApplied (stepSeconds c))) .timeChange := by
  simp only [stepBy, hc, if_false, stepNotices]

/-- A step notice reaches the four positions in order (log 59). -/
theorem annStep_eq (u : State) (new : CampusTime) : annStep u new =
    stepEntry new (stepEntry new (stepEntry new (stepEntry new u 0) 1) 2) 3 := by
  simp only [annStep, show List.finRange 4 = [0, 1, 2, 3] from rfl, List.foldl]

/-- A step with its notices to the Bell, Clock and Announcement Units, in that order (R17, R138). -/
theorem stepBy_notices (s : State) (c : Int) (hc : c ≠ 0) (ha : Active s) : let new := campusAdd s.time.campus c
   ∃ w u a b d v : State, Changes [.time, .line] s w ∧ w.time.campus = new ∧
        w.time.quality = s.time.quality ∧ w.time.localCount = s.time.localCount ∧
        Changes [.clocks] (bellStep w s.time.campus new) u ∧ StepTaken new 0 u a ∧ StepTaken new 1 a b ∧
        StepTaken new 2 b d ∧ StepTaken new 3 d v ∧ Changes [.faults] v (stepBy s c) := by
  intro new
  rw [stepBy_eq s c hc, annStep_eq]
  generalize hw : (s.withTime (steppedTime s.time c)).withLine (stepRoster s.line) = w
  have w1 : Changes [.time, .line] s w := by
    intro f hf; subst hw; cases f <;> first | (exact absurd (by decide) hf) | rfl
  have w2 : w.time.campus = new ∧ w.time.quality = s.time.quality ∧ w.time.localCount = s.time.localCount := by
    subst hw; exact ⟨rfl, rfl, rfl⟩
  have hu := clockAll_ev (bellStep w s.time.campus new) ⟨new, true⟩
  have au : Active (clockAll (bellStep w s.time.campus new) ⟨new, true⟩) :=
    active_of_changes hu.same (by decide)
      (active_of_changes (bellStep_ev w _ _).same (by decide) (active_of_changes w1 (by decide) ha))
  have ne : ∀ (x : State) i, Active x → Active (stepEntry new x i) := fun x i hx =>
    active_of_changes (stepEntry_ev new x i).same (by decide) hx
  have a1 := ne _ 0 au
  have a2 := ne _ 1 a1
  have a3 := ne _ 2 a2
  exact ⟨w, _, _, _, _, _, w1, w2.1, w2.2.1, w2.2.2, hu.same, stepEntry_taken _ _ _ au, stepEntry_taken _ _ _ a1,
    stepEntry_taken _ _ _ a2, stepEntry_taken _ _ _ a3,
    (((Evolves.refl [.faults] _).then (report_ev _ _)).then (raise_ev _ _)).same⟩

/-- The Clock Unit's part of a notice reads only these parts of the state. -/
theorem clocksNoticed_same {s t u v : State} {r : Reading} {begun later : CodeStatus}
    (h : ClocksNoticed s t r begun later)
    (h1 : u.image = s.image) (h2 : u.clocks = s.clocks) (h3 : u.time.localCount = s.time.localCount)
    (h4 : u.start = s.start) (h5 : v.clocks = t.clocks) : ClocksNoticed u v r begun later := by
  intro c
  have := h c
  simp only [codeNoticed, inRun, h1, h2, h3, h4, h5] at this ⊢
  exact this

/-- The status of the coded circuits reads only these parts of the state (R109). -/
theorem codeStatus_congr {s u : State} (r : Reading) (h1 : u.drill = s.drill) (h2 : u.time.quality = s.time.quality)
    (h3 : u.plan = s.plan) : codeStatus u r = codeStatus s r := by
  simp only [codeStatus, h1, h2, h3]

/-- The Clock Unit takes the notice of every step that is made (R99, R110). -/
theorem stepBy_clocks (s : State) (c : Int) (hc : c ≠ 0) : let r : Reading := ⟨campusAdd s.time.campus c, true⟩
    ClocksNoticed s (stepBy s c) r (codeStatus s r) (codeStatus s r) := by
  intro r
  rw [stepBy_eq s c hc]
  generalize hw : (s.withTime (steppedTime s.time c)).withLine (stepRoster s.line) = w
  have w1 : Changes [.time, .line] s w := by
    intro f hf; subst hw; cases f <;> first | (exact absurd (by decide) hf) | rfl
  have w2 : w.time.quality = s.time.quality ∧ w.time.localCount = s.time.localCount := by
    subst hw; exact ⟨rfl, rfl⟩
  have hb := (bellStep_ev w s.time.campus (campusAdd s.time.campus c)).same
  generalize bellStep w s.time.campus (campusAdd s.time.campus c) = b at hb ⊢
  have g : ∀ f, f ∉ [Field.time, .line, .mark, .bells, .arb, .synth, .faults] → f.Same s b := fun f hf =>
    Field.Same.trans (w1 f fun h => hf (by cases f <;> simp_all)) (hb f fun h => hf (by cases f <;> simp_all))
  have ht : b.time = w.time := hb .time (by decide)
  have hs : codeStatus b r = codeStatus s r :=
    codeStatus_congr r (g .drill (by decide)) (by rw [ht]; exact w2.1) (g .plan (by decide))
  have n := clockAll_noticed b r
  rw [hs] at n
  have k := (((annStep_ev (clockAll b r) (campusAdd s.time.campus c)).then
    (report_ev _ (.stepApplied (stepSeconds c)))).then
    (raise_ev _ .timeChange)).same .clocks (by decide)
  exact clocksNoticed_same n (g .image (by decide)).symm (g .clocks (by decide)).symm (by rw [ht]; exact w2.2.symm)
    (g .start (by decide)).symm k

/-! ## A bit time -/

/-- Outside JOIN and RUN the boundaries reach no block. -/
theorem dropBoundaries_time (s : State) : (dropBoundaries s).time =
    if working s = true then s.time else { s.time with
      secondDue := none
      minuteDue := none } := by
  unfold dropBoundaries
  split <;> rfl

/-- The Time Unit after a millisecond, of a state that agrees with s in it and in the operating state (R3, R4, R16,
R18). -/
theorem millisecond_time {s u : State} (h1 : u.time = s.time) (h2 : u.start.opState = s.start.opState) :
    (millisecond u).time = if working s = true then msTick s.time else { msTick s.time with
      secondDue := none
      minuteDue := none } := by
  show (dropBoundaries (u.withTime (msTick u.time))).time = _
  rw [dropBoundaries_time, h1, show working (u.withTime (msTick s.time)) = working s by
    simp only [working, State.withTime, h2]]
  rfl

theorem passSample_time (s : State) : (passSample s).time = s.time := by
  simp only [passSample]
  split <;> simp only [State.withSynth, State.withStart]

theorem passQuiet_time (s : State) : (passQuiet s).time = s.time := by
  unfold passQuiet
  split <;> rfl

/-- A bit time in the code frames: each frame on a circuit goes on by one, and nothing else changes (R108). -/
theorem passCodes_eq (s : State) : passCodes s = s.withClocks (Vector.ofFn fun c : ClockNo =>
    { s.clocks[c] with coded := codePassed s.clocks[c].coded }) := by
  unfold passCodes
  congr 1
  apply Vector.ext
  intro i hi
  simp

theorem passCodes_time (s : State) : (passCodes s).time = s.time := rfl

/-- The Time Unit after a bit time, in which a millisecond passes when the bit time completes one (log 2). -/
theorem tick_time (s : State) (ha : alive s = true) : (tick s).time =
    if 1000 ≤ s.start.usPhase + 16 then
      (if working s = true then msTick s.time else { msTick s.time with
        secondDue := none
        minuteDue := none })
    else s.time := by
  have h : (tick s).time = (passMillisecond s).time := by
    rw [tick, if_pos ha]
    show (passCodes (passSample (passQuiet (passMillisecond s)))).time = _
    rw [passCodes_time, passSample_time, passQuiet_time]
  rw [h]
  simp only [passMillisecond]
  split
  · refine millisecond_time ?_ ?_ <;> simp only [State.withStart]
  · simp only [State.withStart]

/-! ## The bytes of a transaction -/

/-- The bytes of a transaction hold a complete request once as many have come as its length byte says (R187). -/
theorem completeRequest_some {b : Byte} {rest more : List Byte} (h : b ≠ 0) (l : rest.length = b.toNat) :
    completeRequest (b :: rest ++ more) = some (b :: rest) := by
  have e : (rest ++ more).take b.toNat = rest := by rw [← l]; exact List.take_left
  have n : b ≠ 0 ∧ b.toNat ≤ (rest ++ more).length := ⟨h, by rw [List.length_append]; omega⟩
  show (if b ≠ 0 ∧ b.toNat ≤ (rest ++ more).length then some (b :: (rest ++ more).take b.toNat) else none) = _
  rw [if_pos n, e]

/-- They hold none while bytes are missing, and with a length byte of 0 (R187). -/
theorem completeRequest_none {b : Byte} {rest : List Byte} (h : b = 0 ∨ rest.length < b.toNat) :
    completeRequest (b :: rest) = none :=
  if_neg fun n => h.elim n.1 fun l => Nat.not_le.mpr l n.2

end Sys2Proof.Laws
end

