-- ==== Sys2Proof/WellFormed.lean ====
section
/-! DEFINITION. Which commands a sender can form: every number operand fits the field that carries it
(12_formats.md, 12.2 to 12.4). A number that fits its field and is outside the range of its meaning is
well formed: the owner of the command answers it (R188). -/

namespace Sys2Proof

/-- The value fits one byte. -/
def fitsByte (n : Nat) : Bool := decide (n < 256)

/-- The value fits a field of two bytes. -/
def fitsTwo (n : Nat) : Bool := decide (n < 65536)

/-- The value fits a field of four bytes. -/
def fitsFour (n : Nat) : Bool := decide (n < 4294967296)

/-- The largest payload of a campus frame is 48 bytes (R30). -/
def payloadFits (p : List Byte) : Bool := decide (p.length ≤ 48)

/-- The item's indices each fit their byte (R210). -/
def PlanItem.wellFormed : PlanItem → Bool
  | .key | .weekday | .drill | .staging => true
  | .exception i | .override i | .pattern i | .default i => fitsByte i
  | .range p i | .bell p i => fitsByte p && fitsByte i

/-- The announcement's numbers fit bytes 8 and 9 of the payload (12.2). -/
def AnnPost.wellFormed (p : AnnPost) : Bool :=
  match p.kind with
  | .chime _ repeats => fitsByte repeats
  | .live limit => fitsTwo limit

/-- The command can be formed by its sender. -/
def Instr.wellFormed : Instr → Bool
  | .setTime t | .referenceLabel t => fitsFour t.ms
  | .loadFragment index content => fitsByte index && decide (content.length ≤ 43)
  | .overrideAdd first last _ => fitsFour first && fitsFour last
  | .overrideRemove n | .clockClear n | .readClockCircuit n | .readRosterEntry n | .readBank n
  | .clearBank n => fitsByte n
  | .readPlanItem item => item.wellFormed
  | .ring _ pattern => fitsByte pattern
  | .dialSet circuit position _ => fitsByte circuit && position.all (fun p => decide (p < 65535))
  | .announce post => post.wellFormed
  | .panelRequest bytes => decide (1 ≤ bytes.length) && decide (bytes.length ≤ 256)
  | .fetch clocks => decide (1 ≤ clocks)
  | .transactionEnd bytes => decide (bytes.length ≤ 255)
  | .beacon _ p | .settime _ p | .plan _ p | .planreq _ p | .announceFrame _ p | .annend _ p
  | .drillStateFrame _ p | .endFrame _ p => payloadFits p
  | _ => true

end Sys2Proof
end

