-- ==== Sys2Proof/Tests/Slice0.lean ====
section
/-! SUPPORT. The model's own tests: ill-formed commands, the spec's worked examples, and a state that meets
the premises of each statement. -/

namespace Sys2Proof.Tests

set_option Elab.async false

open Sys2Proof Sys2Proof.Machine

/-! ## Small states -/

/-- An outcome's state has a property. -/
def holds (o : Result) (p : State → Bool) : Bool :=
  match o with
  | .next t => p t
  | _ => false

/-- A station in JOIN with the built-in image and an idle Record Store. -/
def joining : State :=
  joinState ((State.reset.withStore ⟨.idle, false⟩).withFaults { State.reset.faults with taking := true })

/-- A station in RUN, UNSET. -/
def running : State := joining.withStart { joining.start with opState := .run, joinDeadline := none }

/-- A station in RUN, SYNCED at D410 08:14:00. -/
def synced : State :=
  running.withTime { running.time with quality := .synced, campus := ⟨410, 29640000⟩ }

/-- An UNSET station in RUN that holds a reference label. -/
def labelled : State := running.withTime { running.time with label := some ⟨410, 29700000⟩ }

/-- A first BEACON, of an UNSET station. -/
def firstBeacon : FrameBody := .beacon ⟨1, 0, none, 0, .unset, none, none, ⟨0, 0⟩, none⟩

/-- A station in RUN on an idle line with a BEACON queued. -/
def sendingReady : State :=
  synced.withLine { synced.line with activity := .idle, quiet := 20, queue := [newEntry firstBeacon] }

/-- A station in RUN with peer 1 present. -/
def withPeer : State :=
  synced.withLine (setRoster synced.line 1 { RosterEntry.initial with present := true })

/-- A plan of seven fragments: pattern 0 of one pulse, every day without a program, one override. -/
def smallPlan : ActivePlan :=
  planOf ⟨3, 0⟩
    [[0x00, 7, 0x10, 0, 0, 0, 30, 10, 0, 180, 7, 8], [0x10, 4, 4, 4, 4, 4, 4, 4, 0], [0x20, 0], [0x21, 0],
      [0x22, 0], [0x23, 0], overridesBytes [⟨590000, 590060, 3⟩]]

/-- A station in RUN with an active plan. -/
def withPlan : State := Machine.State.withPlan synced { synced.plan with active := some smallPlan }

/-- A station in RUN, LOADING every fragment of a plan. -/
def loadingState : State := loadingNow synced (stagedCopy smallPlan)

/-- A station whose new plan key is not newer than its active one: a peer's generation is half way round. -/
def wrappedPlan : State :=
  withPlan.withLine (setRoster withPlan.line 1
    { RosterEntry.initial with plan := some (⟨32770, 1⟩, 0) })

/-- A station in RUN, FETCHING the plan that its peer 1 reports. -/
def fetchingState : State :=
  startFetch (synced.withLine (setRoster synced.line 1
    { RosterEntry.initial with present := true, plan := some (⟨9, 1⟩, 77) })) ⟨9, 1⟩ 77


/-! ## Ill-formed commands: one for each check of Instr.wellFormed -/

theorem test_refuses_long_time : (Instr.setTime ⟨0, 4294967296⟩).wellFormed = false ∧
    (Instr.referenceLabel ⟨0, 4294967296⟩).wellFormed = false := by decide

theorem test_refuses_fragment_index : (Instr.loadFragment 256 [0]).wellFormed = false := by decide

theorem test_refuses_long_fragment : (Instr.loadFragment 0 (List.replicate 44 0)).wellFormed = false := by decide

theorem test_refuses_long_override : (Instr.overrideAdd 4294967296 0 .quiet).wellFormed = false ∧
    (Instr.overrideAdd 0 4294967296 .quiet).wellFormed = false := by decide

theorem test_refuses_numbers_above_a_byte : (Instr.overrideRemove 256).wellFormed = false ∧
    (Instr.clockClear 256).wellFormed = false ∧ (Instr.readClockCircuit 256).wellFormed = false ∧
    (Instr.readRosterEntry 256).wellFormed = false ∧ (Instr.readBank 256).wellFormed = false ∧
    (Instr.clearBank 256).wellFormed = false := by decide

theorem test_refuses_plan_items : (Instr.readPlanItem (.exception 256)).wellFormed = false ∧
    (Instr.readPlanItem (.override 256)).wellFormed = false ∧
    (Instr.readPlanItem (.pattern 256)).wellFormed = false ∧
    (Instr.readPlanItem (.default 256)).wellFormed = false ∧
    (Instr.readPlanItem (.range 0 256)).wellFormed = false ∧
    (Instr.readPlanItem (.bell 256 0)).wellFormed = false := by decide

theorem test_refuses_pattern : (Instr.ring 1 256).wellFormed = false := by decide

theorem test_refuses_dial_set : (Instr.dialSet 256 none .plus).wellFormed = false ∧
    (Instr.dialSet 0 (some 65535) .plus).wellFormed = false := by decide

theorem test_refuses_posts : (Instr.announce ⟨.chime .chime2 256, .normal, 1, 1⟩).wellFormed = false ∧
    (Instr.announce ⟨.live 65536, .normal, 1, 1⟩).wellFormed = false := by decide

theorem test_refuses_requests : (Instr.panelRequest []).wellFormed = false ∧
    (Instr.panelRequest (List.replicate 257 0)).wellFormed = false ∧ (Instr.fetch 0).wellFormed = false ∧
    (Instr.transactionEnd (List.replicate 256 0)).wellFormed = false := by decide +kernel

theorem test_refuses_payloads : (Instr.beacon 1 (List.replicate 49 0)).wellFormed = false ∧
    (Instr.settime 1 (List.replicate 49 0)).wellFormed = false ∧
    (Instr.plan 1 (List.replicate 49 0)).wellFormed = false ∧
    (Instr.planreq 1 (List.replicate 49 0)).wellFormed = false ∧
    (Instr.announceFrame 1 (List.replicate 49 0)).wellFormed = false ∧
    (Instr.annend 1 (List.replicate 49 0)).wellFormed = false ∧
    (Instr.drillStateFrame 1 (List.replicate 49 0)).wellFormed = false ∧
    (Instr.endFrame 1 (List.replicate 49 0)).wellFormed = false := by decide

/-! ## Worked examples of the spec -/

/-- The first note of CHIME-2, sample 100 (R150). -/
theorem test_synth_figure : (321100 % 65536 : Nat) = 58956 ∧ (58956#16).toNat / 16384 = 3 ∧
    (58956#16).toNat / 256 % 64 = 38 := by decide

/-- The code frame of station 6 at D500 02:00 with status CLOSED (12.6). -/
theorem test_code_frame_figure : codeFrameBytes ⟨⟨500, 7200000⟩, true⟩ .closed 6 =
    [0x3A, 0x01, 0x02, 0x00, 0x03, 0x02, 0x06, 0xB8] := by decide +kernel

/-- The bits of the frame mark: start bit, least significant bit first, stop bit (12.6). -/
theorem test_code_bits : codeByteBits 0x3A =
      [false, false, true, false, true, true, true, false, false, true] ∧
    codeBits [0x3A, 0x01] = codeByteBits 0x3A ++ codeByteBits 0x01 := by decide +kernel

/-- The oscillator and the envelope of that sample: minus entry 25, and 100/160 of 4096 (7.8). -/
theorem test_oscillator_figure : oscillator 58956#16 = -((sineTable[25]?.getD 0 : Nat) : Int) ∧
    envelope (oneTone 3211 600 300) 100 = 2560 := by decide +kernel

/-- A station in RUN that is one bit time before a millisecond, with its inputs one sample before the tenth. -/
def beforeSample : State := (synced.withStart { synced.start with usPhase := 984, inputPhase := 9 }).withPins
  { synced.pins with
    fa := ⟨true, some true, none⟩, dk := ⟨true, some true, some false⟩, bb := ⟨true, some false, some false⟩
    ref := ⟨true, some true, some false⟩, pfw := ⟨true, some true, some false⟩ }

theorem test_campus_time_passes : (tick beforeSample).time.campus = ⟨410, 29640001⟩ ∧
    (tick (beforeSample.withTime { beforeSample.time with campus := ⟨410, 29640999⟩ })).time.secondDue =
      some ⟨⟨410, 29641000⟩, true⟩ ∧
    (tick ((beforeSample.withTime { beforeSample.time with campus := ⟨410, 29640999⟩ }).withStart
      { beforeSample.start with opState := .halt })).time.secondDue = none ∧
    (tick (beforeSample.withStart { beforeSample.start with usPhase := 983 })).time = beforeSample.time := by
  decide +kernel

theorem test_samples : alive beforeSample = true ∧ beforeSample.pending = [] ∧ beforeSample.port.dispatched = none ∧
    (tick beforeSample).pins.fa.valid = some true ∧ (tick beforeSample).pins.bb = ⟨true, some true, some false⟩ ∧
    (tick beforeSample).start.inputPhase = 0 ∧
    [Instr.powerFailWarning, .faActivation, .dkActivation, .minuteMark].all (tick beforeSample).pending.contains = true ∧
    (tick beforeSample).pending.contains .bellButtonPress = false ∧
    (tick (beforeSample.withStart { beforeSample.start with inputPhase := 8 })).pins.dk.valid = some false ∧
    (tick (beforeSample.withTime { beforeSample.time with beaconDeadline := some 1 })).pending.contains .beaconTimer = true ∧
    (tick (beforeSample.withTime { beforeSample.time with beaconDeadline := some 2 })).pending.contains .beaconTimer =
      false := by decide +kernel

theorem test_opposite_days : startPrecedes ⟨0, 5⟩ 1 ⟨32768, 9⟩ 0 = false ∧ startPrecedes ⟨32768, 9⟩ 0 ⟨0, 5⟩ 1 = true ∧
    startPrecedes ⟨32768, 9⟩ 1 ⟨0, 5⟩ 0 = false ∧ startPrecedes ⟨0, 5⟩ 0 ⟨32768, 9⟩ 1 = true ∧
    startPrecedes ⟨0, 5⟩ 1 ⟨32767, 9⟩ 0 = true ∧
    startPrecedes ⟨0, 5⟩ 1 ⟨32768, 9⟩ 1 = false ∧ startPrecedes ⟨32768, 9⟩ 1 ⟨0, 5⟩ 1 = false := by decide

theorem test_campus_advances_at_midnight :
    (msTick { TimeUnit.initial with campus := ⟨65535, 86399999⟩ }).campus = ⟨0, 0⟩ := by decide

theorem test_worked_round : correction [14, 9, -3, 620, 0] = 7 ∧ correction [0, -3, 620] = 308 := by decide

theorem test_correction_bounds : applyCorrection synced 1 = synced ∧ applyCorrection synced (-1) = synced ∧
    (applyCorrection synced 2).time.slewRemainder = 2 ∧ (applyCorrection synced (-249)).time.slewRemainder = -249 ∧
    (applyCorrection synced 249).time.campus = synced.time.campus ∧
    (applyCorrection synced 250).time.campus = ⟨410, 29640250⟩ ∧ (applyCorrection synced 250).time.slewRemainder = 0 ∧
    (applyCorrection synced (-250)).time.campus = ⟨410, 29639750⟩ := by decide +kernel

theorem test_round_with_pending_key : ∃ s : State, s.time.quality ≠ .unset ∧
    250 ≤ (correction (workingSet s.time.quality (eligible s))).natAbs ∧
    s.time.pendingSet = some ⟨1, 2⟩ ∧ (agreementRound (s.withTime { s.time with
      lastSet := some (⟨1, 3⟩, 7), pendingSet := none })).time.lastSet = some (⟨1, 3⟩, 7) :=
  ⟨(synced.withTime { synced.time with pendingSet := some ⟨1, 2⟩ }).withLine (setRoster synced.line 1
    { RosterEntry.initial with present := true, quality := some .synced, sample := some ⟨900, 0⟩ }),
    by decide, by decide +kernel, rfl, by decide +kernel⟩

theorem test_fifth_empty_round : ∃ s : State, s.time.quality = .synced ∧ Taking s ∧
    (agreementRound s).time.emptyRounds = 5 ∧ faultEnabled s.image .isolated = true :=
  ⟨synced.withTime { synced.time with emptyRounds := 4 }, by decide, rfl, by decide +kernel, by decide⟩

/-- Peer 1 is REFERENCED and peer 2 SYNCED, with samples of these ages. -/
def sampledPeers (x y : Int) (a b : Nat) : State := synced.withLine (setRoster (setRoster synced.line 1
    { RosterEntry.initial with present := true, quality := some .referenced, sample := some ⟨x, a⟩ }) 2
  { RosterEntry.initial with present := true, quality := some .synced, sample := some ⟨y, b⟩ })

theorem test_samples_age : eligible (sampledPeers 20 30 1 2) = [(true, 20), (false, 30)] ∧
    workingSet .synced (eligible (sampledPeers 20 30 1 2)) = [20] ∧
    ((agreementRound (sampledPeers 20 30 1 2)).line.roster[(1 : StationNo)]).sample = some ⟨20, 2⟩ ∧
    ((agreementRound (sampledPeers 20 30 1 2)).line.roster[(2 : StationNo)]).sample = none ∧
    ((agreementRound (sampledPeers 900 30 0 0)).line.roster[(2 : StationNo)]).sample = none ∧
    ((agreementRound (synced.withTime { synced.time with emptyRounds := 4 })).faults.banks[bankIndex .time]).code = 4 := by
  decide +kernel

/-- A station in RUN at 08:14:00 with an IMPULSE circuit C0 whose dial stands at 08:13, a CODED circuit C1 that sends or
not, and a CHIME that gathers at position 0 to start at 08:14:05. -/
def noticing (q : Quality) (sending : Bool) : State :=
  let s := (synced.withImage { synced.image with
    clocks := (synced.image.clocks.set 0 ⟨.impulse, 1000, 60⟩).set 1 ⟨.coded, 0, 0⟩ }).withTime
      { synced.time with quality := q }
  let u := takeAnnouncement s ⟨⟨1, 4⟩, ⟨410, 29645000⟩, ⟨.chime .chime2 1, .urgent, 0xFFFF, 0x01⟩⟩
  setCoded (setImpulse u 0 { ImpulseRecord.initial with position := some 493 }) 1
    { CodedRecord.initial with sending := sending }

/-- Does C0 begin an impulse, does C1 send and is its resend flag set, and in which state is the entry. -/
def noticed (t : State) : Bool × Bool × Bool × Option AnnState :=
  (decide (t.clocks[(0 : ClockNo)].impulse.cycle = .impulse), t.clocks[(1 : ClockNo)].coded.sending,
    t.clocks[(1 : ClockNo)].coded.resend, t.ann.table[(0 : TablePos)].map (·.state))

theorem test_step_notices : Active (noticing .synced false) ∧
    noticed (noticing .synced false) = (false, false, false, some .gathering) ∧
    noticed (stepBy (noticing .synced false) 5000) = (true, true, false, some .playing) ∧
    noticed (stepBy (noticing .synced false) 4999) = (true, true, false, some .gathering) ∧
    noticed (stepBy (noticing .synced true) 5000) = (true, true, true, some .playing) := by decide +kernel

theorem test_step_record : Taking synced ∧ faultEnabled synced.image (.stepApplied 0) = true ∧
    (stepBy synced (-1999)).faults.banks[bankIndex .time] =
      ⟨true, false, false, 1, some (.seconds (-1)), some ⟨410, 29638001⟩, 1⟩ ∧
    (stepBy synced 32768000).faults.banks[bankIndex .time].detail = some (.seconds 32767) ∧
    (stepBy synced (-32769000)).faults.banks[bankIndex .time].detail = some (.seconds (-32768)) ∧
    (stepBy (stepBy synced 500) 500).faults.banks[bankIndex .time].overflow = true := by decide +kernel

/-- A full queue of frames of the bulk class, or of the class of SETTIME. -/
def fullOf (body : FrameBody) : State := synced.withLine { synced.line with queue := List.replicate 12 (newEntry body) }

theorem test_set_time_copies : holds (exec (.setTime ⟨410, 29645000⟩) (synced.withTime { synced.time with
      pendingSet := some ⟨1, 3⟩ })) (fun t => decide (t.time.setCopies = some ⟨⟨2, 0⟩, 5000, 1, none⟩) &&
      decide (t.time.pendingSet = none) && decide (t.faults.banks[bankIndex .time] =
        ⟨true, false, false, 1, some (.seconds 5), some ⟨410, 29645000⟩, 1⟩)) = true ∧
    holds (exec (.setTime ⟨410, 29645000⟩) (fullOf (.settime ⟨9, 1⟩ 4))) (fun t =>
      decide (t.time.setCopies = some ⟨⟨1, 0⟩, 5000, 1, some 2000⟩)) = true ∧
    takesOffers (fullOf (.settime ⟨9, 1⟩ 4)) = true ∧
    holds (exec (.setTime ⟨410, 29645000⟩) (synced.withLine { synced.line with listenOnly := true })) (fun t =>
      decide (t.time.setCopies = none)) = true ∧
    holds (exec (.setTime ⟨410, 29645000⟩) (noticing .synced false)) (fun t =>
      decide (noticed t = (true, true, false, some .playing))) = true ∧
    holds (exec (.setTime ⟨410, 29645000⟩) (noticing .unset true)) (fun t =>
      decide (noticed t = (true, true, true, some .gathering))) = true := by decide +kernel

theorem test_set_time_marks : holds (exec (.setTime ⟨410, 5000⟩) running) (fun t =>
      decide (t.bells.hwm = some (410 * 86400 + 5))) = true ∧
    holds (exec (.setTime ⟨410, 5000⟩) joining) (fun t => decide (t.bells.hwm = none)) = true ∧ Active joining := by
  decide +kernel

theorem test_set_time_premises : Active running ∧ TimeOk running.time ∧ running.time.quality = .unset ∧
    Active synced ∧ TimeOk synced.time ∧ synced.time.quality ≠ .unset ∧ HasRoom synced := by
  have h : ∀ t : TimeUnit, t.label = none → ∀ l, t.label = some l → l.ms < dayMs := by
    intro t h l k; rw [h] at k; cases k
  exact ⟨by decide +kernel, ⟨by decide, h _ rfl, by decide⟩, by decide, by decide +kernel,
    ⟨by decide, h _ rfl, by decide⟩, by decide, by decide +kernel⟩

theorem test_next_generation : nextGen (knownSetGens synced) = 1 ∧
    nextGen (knownSetGens ((synced.withTime { synced.time with
      lastSet := some (⟨5, 1⟩, 0), pendingSet := some ⟨4, 3⟩ }).withLine (setRoster synced.line 1
        { RosterEntry.initial with setKey := some ⟨65535, 1⟩ }))) = 6 ∧
    (newPlanKey loadingState).gen = 1 ∧ (newPlanKey withPlan).gen = 4 ∧
    (newPlanKey (withPlan.withLine (setRoster withPlan.line 1
      { RosterEntry.initial with plan := some (⟨9, 1⟩, 0) }))) = ⟨10, 0⟩ ∧ (newPlanKey wrappedPlan).gen = 32771 := by
  decide +kernel

theorem test_reference_label : (match exec (.referenceLabel ⟨410, 29700000⟩) running with
    | .next t => decide (t.time.label = some ⟨410, 29700000⟩) | _ => false) = true := by decide +kernel

/-- A labelled station whose previous accepted mark was this many milliseconds ago. -/
def markAgo (ms : Nat) : State := labelled.withTime { labelled.time with
  localCount := BitVec.ofNat 32 (1000 + ms), prevMark := some 1000 }

theorem test_mark_spacing : markAccepted (markAgo 59499).time = false ∧ markAccepted (markAgo 59500).time = true ∧
    markAccepted (markAgo 60500).time = true ∧ markAccepted (markAgo 60501).time = false ∧
    holds (exec .minuteMark (markAgo 59500)) (fun t => decide (t.time.prevMark = some 60500)) = true ∧
    holds (exec .minuteMark (markAgo 60500)) (fun t => decide (t.time.prevMark = some 61500)) = true ∧
    holds (exec .minuteMark (markAgo 60501)) (fun t => decide (t.time.prevMark = some 1000)) = true := by decide +kernel

theorem test_minute_mark_accepted : (match exec .minuteMark labelled with
    | .next t => decide (t.time.prevMark = some 0) && decide (t.time.quality = .referenced) | _ => false) = true := by
  decide +kernel

theorem test_minute_mark_rejected : (match exec .minuteMark running with
    | .next t => decide (t.time.prevMark = none) && t.faults.banks[bankIndex .time].valid | _ => false) = true := by
  decide +kernel

/-- The noticing station holds a label of 08:15. -/
def noticingMark (q : Quality) (sending : Bool) : State := (noticing q sending).withTime
  { (noticing q sending).time with label := some ⟨410, 29700000⟩ }

theorem test_mark_notices : holds (exec .minuteMark (noticingMark .unset true)) (fun t =>
      decide (noticed t = (true, true, true, some .gathering)) && decide (Pending t .timeChange)) = true ∧
    holds (exec .minuteMark (noticingMark .synced false)) (fun t =>
      decide (noticed t = (true, true, false, some .playing)) && decide (Pending t .timeChange)) = true ∧
    holds (exec .minuteMark (noticingMark .isolated false)) (fun t =>
      decide (noticed t = (true, true, true, some .playing)) &&
      decide (t.clocks[(1 : ClockNo)].coded.lastStatus = some .timeUnsure)) = true ∧
    holds (exec .minuteMark (labelled.withTime { labelled.time with
      quality := .synced, campus := ⟨410, 29700001⟩ })) (fun t => decide (Pending t .timeChange)) = true ∧
    Taking (noticingMark .isolated false) := by decide +kernel

theorem test_mark_premises : alive labelled = true ∧ labelled.start.opState ≠ .halt ∧
    labelled.time.label = some ⟨410, 29700000⟩ ∧ markAccepted labelled.time = true := by decide +kernel

theorem test_slew_in_time : let t := { TimeUnit.initial with campus := ⟨410, 5⟩, slewRemainder := -2, slewPhase := 98 }
    (msTick t).campus = ⟨410, 6⟩ ∧ (msTick (msTick t)).campus = ⟨410, 6⟩ ∧ (msTick (msTick t)).slewRemainder = -1 ∧
    (msTick (msTick t)).slewPhase = 0 ∧ (msTick { t with slewRemainder := 1, slewPhase := 99 }).campus = ⟨410, 7⟩ ∧
    (msTick { t with slewRemainder := 1, slewPhase := 99 }).slewRemainder = 0 ∧
    (msTick { t with slewRemainder := 1, slewPhase := 99 }).localCount = 1 := by decide +kernel

/-- A REFERENCED station with this count of empty rounds, whose reference lapses. -/
def lapsing (rounds : Nat) : State := synced.withTime { synced.time with
  quality := .referenced, prevMark := some 0, emptyRounds := rounds }

theorem test_lapse_records : Active (lapsing 5) ∧ Taking (lapsing 5) ∧
    holds (exec .referenceLapse (lapsing 5)) (fun t => decide (t.faults.banks[bankIndex .time] =
      ⟨true, true, false, 3, none, some ⟨410, 29640000⟩, 2⟩) && decide (t.time.quality = .isolated) &&
      decide (Pending t .timeChange)) = true ∧
    holds (exec .referenceLapse (lapsing 4)) (fun t => decide (t.faults.banks[bankIndex .time] =
      ⟨true, false, false, 3, none, some ⟨410, 29640000⟩, 1⟩) && decide (t.time.quality = .synced) &&
      decide (Pending t .timeChange)) = true := by decide +kernel

theorem test_midnight_mark : (msTick { TimeUnit.initial with campus := ⟨410, 86399999⟩ }).minuteDue =
      some ⟨⟨⟨411, 0⟩, false⟩, true⟩ ∧
    (msTick { TimeUnit.initial with campus := ⟨410, 59999⟩ }).minuteDue = some ⟨⟨⟨410, 60000⟩, false⟩, false⟩ ∧
    (msTick { TimeUnit.initial with campus := ⟨410, 58999⟩ }).minuteDue = none ∧
    (msTick { TimeUnit.initial with campus := ⟨410, 58999⟩ }).secondDue = some ⟨⟨410, 59000⟩, false⟩ := by decide

theorem test_time_timer_premises : Active labelled ∧ Running synced ∧ HasRoom synced ∧ Running running ∧
    running.time.quality = .unset ∧
    (∃ s : State, Active s ∧ s.time.prevMark.isSome) ∧ (∃ s : State, Active s ∧ s.time.slewRemainder ≠ 0) :=
  ⟨by decide +kernel, by decide +kernel, by decide +kernel, by decide +kernel, by decide,
    ⟨synced.withTime { synced.time with prevMark := some 5 }, by decide +kernel, rfl⟩,
    ⟨synced.withTime { synced.time with slewRemainder := 7 }, by decide +kernel, by decide⟩⟩

theorem test_boundary_premises : Active running ∧ Active joining ∧ joining.start.opState = .join := by decide +kernel

theorem test_minute_boundary : holds (exec .minuteBoundary (noticing .synced false)) (fun t =>
      decide (noticed t = (true, true, false, some .gathering)) &&
      decide (t.clocks[(1 : ClockNo)].coded.lastStatus = some .normal) &&
      decide (t.clocks[(1 : ClockNo)].coded.frame = codeFrameBytes ⟨⟨410, 29640000⟩, true⟩ .normal 0)) = true ∧
    holds (exec .minuteBoundary (noticing .synced true)) (fun t =>
      decide (noticed t = (true, true, true, some .gathering)) && decide (t.clocks[(1 : ClockNo)].coded.frame = [])) = true ∧
    minuteReading ((noticing .synced false).withTime { synced.time with
      minuteDue := some ⟨⟨⟨410, 29580000⟩, true⟩, false⟩ }) = ⟨⟨410, 29580000⟩, true⟩ := by decide +kernel

/-- The status has changed since the last frame: the boundary begins one frame and asks for no second one (log 71). -/
theorem test_boundary_with_another_status : holds (exec .minuteBoundary (setCoded (noticing .synced false) 1
      { CodedRecord.initial with lastStatus := some .closed })) (fun t =>
    decide (t.clocks[(1 : ClockNo)].coded.lastStatus = some .normal) &&
    decide (noticed t = (true, true, false, some .gathering))) = true := by decide +kernel

/-- The last applied key is one of this origin, with a delta of 100 ms, two copies of its set still to come. -/
def lastSetOf (origin : StationNo) (q : Quality) : State := (withPeer.withTime { synced.time with
  quality := q, lastSet := some (⟨7, origin⟩, 100), setCopies := some ⟨⟨7, 0⟩, 100, 1, none⟩
  pendingSet := some ⟨6, 1⟩ })

/-- A SETTIME of peer 1. -/
def settimeOne (k : Key) (d : Int) : Instr := .settime 1 (payloadBytes (.settime k d))

theorem test_settime_superseded : holds (exec (settimeOne ⟨8, 1⟩ 30) (lastSetOf 0 .synced)) (fun t =>
      decide (t.time.lastSet = some (⟨8, 1⟩, 30) ∧ t.time.setCopies = none ∧ t.time.pendingSet = none ∧
        t.time.campus = ⟨410, 29640030⟩) && decide (t.faults.banks[bankIndex .time] =
          ⟨true, true, false, 1, some (.seconds 0), some ⟨410, 29640030⟩, 2⟩)) = true ∧
    holds (exec (settimeOne ⟨8, 1⟩ 0) (lastSetOf 0 .synced)) (fun t => decide (t.faults.banks[bankIndex .time] =
          ⟨true, false, false, 5, some (.setKey ⟨8, 1⟩), some ⟨410, 29640000⟩, 1⟩)) = true ∧
    holds (exec (settimeOne ⟨8, 1⟩ 30) (lastSetOf 0 .unset)) (fun t => decide (t.faults.banks[bankIndex .time] =
          ⟨true, false, false, 5, some (.setKey ⟨8, 1⟩), none, 1⟩) && decide (Pending t .timeChange)) = true ∧
    holds (exec (settimeOne ⟨7, 1⟩ 30) (lastSetOf 3 .synced)) (fun t => decide (t.time.campus = ⟨410, 29639930⟩) &&
      decide (t.faults.banks[bankIndex .time].overflow = false)) = true ∧
    holds (exec (settimeOne ⟨6, 1⟩ 30) (lastSetOf 3 .synced)) (fun t =>
      decide (t.time = (lastSetOf 3 .synced).time)) = true ∧ (lastSetOf 3 .synced).time.capture = none ∧
    Active (lastSetOf 0 .unset) ∧ Taking (lastSetOf 0 .synced) := by decide +kernel

theorem test_settime_premises : Active synced ∧ HasRoom synced ∧ (1 : StationNo) ≠ synced.start.station ∧
    settimeOf (payloadBytes (.settime ⟨7, 1⟩ (-20))) = some (⟨7, 1⟩, -20) ∧
    (payloadBytes (.settime ⟨7, 1⟩ (-20))).length = 9 ∧ newerThanLast synced.time ⟨7, 1⟩ = true := by
  decide +kernel

theorem test_settime_copy_premises : ∃ (s : State) (c : SetCopies), Active s ∧ s.time.setCopies = some c ∧
    c.nextAt.isSome ∧ HasRoom s :=
  ⟨synced.withTime { synced.time with setCopies := some ⟨⟨1, 0⟩, 5, 1, some 0⟩ }, ⟨⟨1, 0⟩, 5, 1, some 0⟩,
    by decide +kernel, rfl, rfl, by decide +kernel⟩

theorem test_contention : Running sendingReady ∧ sendingReady.line.activity = .idle ∧
    (∃ e rest, sendingReady.line.queue = e :: rest) ∧
    contentionAt { sendingReady.line with deference := true } 3 (.planreq ⟨1, 3⟩ 1) = 246 := by
  exact ⟨by decide +kernel, by decide, ⟨_, _, rfl⟩, by decide⟩

theorem test_offer_premises : LineOk sendingReady.line ∧
    (∀ e ∈ sendingReady.line.queue, sameSort (.planreq ⟨1, 0⟩ 1) e.body = false) ∧
    (∃ e ∈ sendingReady.line.queue, sameSort firstBeacon e.body = true ∧ e.inFlight = false) ∧
    (∃ e ∈ (beginAttempt sendingReady.line).queue, sameSort firstBeacon e.body = true ∧ e.inFlight = true) := by
  exact ⟨⟨by decide, List.pairwise_singleton _ _⟩, by decide +kernel, ⟨_, List.mem_singleton.mpr rfl, rfl, rfl⟩,
    ⟨_, List.mem_singleton.mpr rfl, rfl, rfl⟩⟩

/-- A full queue: ten END frames and two PLANREQ frames, or twelve END frames. -/
def fullQueue (k : Nat) : LineUnit :=
  let ends := (List.range k).map fun i =>
    newEntry (.drillEnd ⟨1, BitVec.ofNat 8 i⟩ ⟨0, 0⟩ .complete false)
  let requests := (List.range (12 - k)).map fun i => newEntry (.planreq ⟨BitVec.ofNat 16 i, 1⟩ 1)
  { LineUnit.initial with queue := ends ++ requests }

theorem test_refused_and_discarded : let full := synced.withLine { fullQueue 12 with roster := synced.line.roster }
    let mute := lastSetOf 0 .synced |>.withLine { synced.line with listenOnly := true }
    takesOffers full = true ∧ (lineOffer full.line firstBeacon).told = [(firstBeacon, .refused)] ∧
    (offer full firstBeacon).faults.banks[bankIndex .line] =
      ⟨true, false, true, 4, some (.frame .beacon), some ⟨410, 29640000⟩, 0⟩ ∧ takesOffers mute = false ∧
    (offer mute (.settime ⟨7, 0⟩ 100)).time.setCopies = none ∧ offer mute firstBeacon = mute ∧
    (offer mute (.settime ⟨6, 0⟩ 100)).time.setCopies.isSome = true := by decide +kernel

theorem test_full_queue : (lineOffer (fullQueue 10) firstBeacon).told = [(.planreq ⟨1, 1⟩ 1, .evicted)] ∧
    (lineOffer (fullQueue 12) firstBeacon).told = [(firstBeacon, .refused)] := by decide +kernel

/-- The state frame of an own drill. -/
def ownDrillFrame : FrameBody := .drillState ⟨⟨0, 1⟩, ⟨410, 0⟩, true, .practice, false, none, false, none⟩

/-- A station whose queue holds eleven END frames of a peer and, last, this frame. -/
def fullBefore (e : FrameBody) : State := withPlan.withLine { synced.line with
  queue := (fullQueue 12).queue.drop 1 ++ [newEntry e] }

theorem test_told_of_a_full_queue : let set := fun n : Nat => (fullBefore (.settime ⟨1, 0⟩ 5)).withTime { synced.time with
      setCopies := some ⟨⟨1, 0⟩, 5, n, none⟩ }
    let served := Machine.State.withPlan (fullBefore (planBody smallPlan 2)) { withPlan.plan with serve := 4, queued := [2] }
    let ended := (fullBefore ownDrillFrame).withDrill { synced.drill with
      copies := [⟨⟨⟨0, 2⟩, ⟨410, 0⟩, .complete⟩, 1, none⟩] }
    (lineOffer (set 1).line ownDrillFrame).told = [(.settime ⟨1, 0⟩ 5, .evicted)] ∧ takesOffers (set 1) = true ∧
    (offer (set 1) ownDrillFrame).time.setCopies = some ⟨⟨1, 0⟩, 5, 1, some 2000⟩ ∧
    (offer (set 3) ownDrillFrame).time.setCopies = none ∧
    (lineOffer served.line ownDrillFrame).told = [(planBody smallPlan 2, .evicted)] ∧
    (offer served ownDrillFrame).plan.queued = [] ∧ (offer served ownDrillFrame).plan.pausedUntil = some 1000 ∧
    (lineOffer ended.line (.drillEnd ⟨0, 2⟩ ⟨410, 0⟩ .complete true)).told =
      [(.drillEnd ⟨0, 2⟩ ⟨410, 0⟩ .complete true, .refused)] ∧
    (offer ended (.drillEnd ⟨0, 2⟩ ⟨410, 0⟩ .complete true)).drill.copies.map (·.nextAt) = [some 4000] ∧
    (lineOffer sendingReady.line (.beacon (beaconContent withPlan))).told = [(firstBeacon, .replaced)] := by decide +kernel

theorem test_attempt_premises : ∃ (s : State) (e : TxEntry), Active s ∧ s.line.activity = .sending ∧
    inFlight s.line = some e ∧ heldFor s.line e.body = none ∧ e.attempts + 1 < 8 :=
  ⟨sendingReady.withLine (beginAttempt sendingReady.line), { newEntry firstBeacon with inFlight := true },
    by decide +kernel, by decide, rfl, by decide, by decide⟩

/-- The station sends a frame at an attempt, as the first of its queue. -/
def sendingFrame (b : FrameBody) (attempts : Nat) : State :=
  withPlan.withLine { sendingReady.line with activity := .sending, queue := [⟨b, attempts, true⟩] }

/-- The first SETTIME copy, the first END copy and a served fragment are on the line. -/
def sendingSet (n : Nat) : State := (sendingFrame (.settime ⟨1, 0⟩ 5) n).withTime
  { synced.time with setCopies := some ⟨⟨1, 0⟩, 5, 1, none⟩ }
def sendingEnd (n : Nat) : State := (sendingFrame (.drillEnd ⟨0, 1⟩ ⟨410, 0⟩ .complete true) n).withDrill
  { synced.drill with copies := [⟨⟨⟨0, 1⟩, ⟨410, 0⟩, .complete⟩, 1, none⟩] }
def sendingFragment (n : Nat) : State := Machine.State.withPlan (sendingFrame (planBody smallPlan 2) n)
  { withPlan.plan with serve := 4, queued := [2] }

theorem test_told : [0, 7].all (fun n =>
      inFlight (sendingSet n).line = some ⟨.settime ⟨1, 0⟩ 5, n, true⟩ && decide (Active (sendingSet n)) &&
      holds (exec (if n = 0 then .frameSent else .echoMismatch) (sendingSet n)) (fun t =>
        decide (t.time.setCopies = some ⟨⟨1, 0⟩, 5, 1, some 2000⟩)) &&
      holds (exec (if n = 0 then .frameSent else .echoMismatch) (sendingEnd n)) (fun t =>
        decide (t.drill.copies.map (·.nextAt) = [some 4000])) &&
      holds (exec (if n = 0 then .frameSent else .echoMismatch) (sendingFragment n)) (fun t =>
        decide (t.plan.serve = if n = 0 then 0 else 4) && decide (t.plan.queued = if n = 0 then [] else [2]) &&
        decide (t.line.queue.length = if n = 0 then 0 else 1))) = true := by decide +kernel

/-- A BEACON is on the line and a newer one is held aside. -/
def sendingHeld (n : Nat) : State := let s := sendingFrame firstBeacon n
  s.withLine { s.line with holdBeacon := some (.beacon (beaconContent withPlan)) }

theorem test_held_premises : Active (sendingHeld 0) ∧ (sendingHeld 0).line.activity = .sending ∧
    heldFor (sendingHeld 7).line firstBeacon = some (.beacon (beaconContent withPlan)) ∧
    (sendingHeld 7).line.listenOnly = false ∧ sameSort firstBeacon (.beacon (beaconContent withPlan)) = true ∧
    holds (exec .frameSent (sendingHeld 0)) (fun t => decide (t.line.queue = [newEntry (.beacon (beaconContent withPlan))])) =
      true ∧
    holds (exec .echoMismatch (sendingHeld 0)) (fun t =>
      decide (t.line.queue = [newEntry (.beacon (beaconContent withPlan))])) = true ∧
    holds (exec .echoMismatch (sendingHeld 7)) (fun t =>
      decide (t.line.queue = [newEntry (.beacon (beaconContent withPlan))])) = true := by decide +kernel

theorem test_held_line : LineOk (sendingHeld 7).line := ⟨by decide, List.pairwise_singleton _ _⟩

theorem test_eighth_attempt : ∃ (s : State) (e : TxEntry), Active s ∧ s.line.activity = .sending ∧
    inFlight s.line = some e ∧ heldFor s.line e.body = none ∧ 8 ≤ e.attempts + 1 :=
  ⟨sendingReady.withLine { sendingReady.line with activity := .sending, queue := [⟨firstBeacon, 7, true⟩] },
    ⟨firstBeacon, 7, true⟩, by decide +kernel, by decide, rfl, by decide, by decide⟩

theorem test_quiet_time : (tick running).line.quiet = 1 ∧
    (tick (sendingReady.withLine (beginAttempt sendingReady.line))).line.quiet = 0 ∧
    (tick (running.withLine { running.line with dominant := true })).line.quiet = 0 ∧ ¬ Active State.reset ∧
    running.pending = [] ∧ sendingReady.pending = [] ∧
    holds (exec (.damagedFrame .check) sendingReady) (fun t => decide (t.line.stuckFrom = t.time.localCount)) = true ∧
    holds (exec .lineBecomesBusy State.reset) (fun t => t.line.dominant) = true := by decide +kernel

theorem test_line_premises : Active running ∧ running.line.activity = .busy ∧
    running.line.stuckRecorded = false ∧ Active sendingReady ∧ sendingReady.line.activity = .idle ∧
    sendingReady.line.listenOnly = false ∧
    Active (sendingReady.withLine { sendingReady.line with listenOnly := true }) := by
  decide +kernel

theorem test_absence_premises : ∃ (s : State) (p : StationNo) (r : DrillRecord), Active s ∧
    p ≠ s.start.station ∧ s.line.roster[p].present = true ∧ Taking s ∧ s.drill.state ≠ .idle ∧
    s.drill.record = some r ∧ r.roll[p] = .pending :=
  ⟨beginDrill withPeer .practice, 1, ownRecord withPeer .practice, by decide +kernel, by decide +kernel,
    by decide +kernel, by decide +kernel, by decide +kernel, by decide +kernel, by decide +kernel⟩

/-- A PRACTICE whose roll holds peer 1, not present, as this entry. -/
def rollOfPeer (e : RollEntry) : State := let s := beginDrill synced .practice
  s.withDrill { s.drill with record := s.drill.record.map fun r => { r with roll := r.roll.set 1 e } }

theorem test_becomes_present : Active (rollOfPeer .silent) ∧ (rollOfPeer .silent).drill.state ≠ .idle ∧
    (rollOfPeer .silent).line.roster[(1 : StationNo)].present = false ∧
    [RollEntry.silent, .notExpected, .cleared 7].map (fun e =>
      match exec (.annend 1 (payloadBytes (.annend 9 ⟨410, 0⟩))) (rollOfPeer e) with
      | .next t => t.drill.record.map fun r => r.roll[(1 : StationNo)]
      | _ => none) = [some .pending, some .pending, some (.cleared 7)] := by decide +kernel

/-- A PRACTICE at a station in RUN that FETCHES key (8, 2); peer 1 is not present, SILENT in the roll, and held key (9, 1). -/
def returning : State := let s := rollOfPeer .silent
  setStaging (s.withLine (setRoster s.line 1 { RosterEntry.initial with plan := some (⟨9, 1⟩, 77) }))
    (.fetching ⟨⟨8, 2⟩, 3, none, noFragments, 5000, 1⟩)

/-- What its presence does first; then its frame is taken as one of a present peer is. -/
theorem test_returns : Active returning ∧ returning.line.roster[(1 : StationNo)].present = false ∧
    handOver returning 1 = frameHeard returning 1 ∧ (frameHeard returning 1).plan.staging = .fetching
      ⟨⟨9, 1⟩, 77, none, noFragments, returning.time.localCount + 10000#32, 1⟩ ∧
    Pending (frameHeard returning 1) .peerChange ∧ Pending (frameHeard returning 1) .rollChange ∧
    ((frameHeard returning 1).drill.record.map fun r => r.roll[(1 : StationNo)]) = some .pending ∧
    (frameHeard returning 1).line.roster = returning.line.roster.set 1 { returning.line.roster[(1 : StationNo)] with
      present := true
      lastHeard := returning.time.localCount } ∧
    [Instr.annend 1 (payloadBytes (.annend 9 ⟨410, 0⟩)), .planreq 1 (payloadBytes (.planreq ⟨9, 1⟩ 5)),
      .plan 1 (payloadBytes (.plan ⟨9, 1⟩ 6 7 (overridesBytes []))), .beacon 1 (payloadBytes firstBeacon)].all (fun i =>
      holds (exec i returning) fun t => holds (exec i (frameHeard returning 1)) fun u => decide (t = u)) = true ∧
    holds (exec (.plan 1 (payloadBytes (.plan ⟨9, 1⟩ 6 7 (overridesBytes [])))) returning) (fun t =>
      decide (t.plan.staging = .fetching ⟨⟨9, 1⟩, 77, some 7, noFragments.set 6 (some (overridesBytes [])),
        returning.time.localCount + 10000#32, 0⟩)) = true := by decide +kernel

theorem test_heard_premises : Active synced ∧ (1 : StationNo) ≠ synced.start.station ∧
    lengthAllowed .beacon (payloadBytes firstBeacon) = true := by decide +kernel

/-- A BEACON that carries a set key and a plan key. -/
def keyedBeacon : BeaconContent :=
  ⟨5, 4, none, 0, .synced, some ⟨6, 1⟩, some (⟨9, 1⟩, 77), ⟨0, 0⟩, none⟩

/-- An UNSET station in RUN that holds a beacon of the present peer 1 with the capture of its start. -/
def establishing (sending : Bool) : State := (noticing .unset sending).withLine (setRoster synced.line 1
  { RosterEntry.initial with
    present := true, beaconSeq := some 4, stepCount := some 0, mark := some ⟨0, none⟩ })

theorem test_establish_notices : holds (exec (.beacon 1 (payloadBytes (.beacon { keyedBeacon with
      prevMark := some ⟨410, 29650000⟩, plan := none }))) (establishing true)) (fun t =>
      decide (noticed t = (true, true, true, some .gathering)) && decide (t.bells.hwm = some (410 * 86400 + 29650)) &&
      decide (Pending t .timeChange)) = true ∧ Active (establishing true) ∧
    (establishing true).line.roster[(1 : StationNo)].present = true := by decide +kernel

theorem test_beacon_keys : beaconOf (payloadBytes (.beacon keyedBeacon)) = some keyedBeacon ∧
    newerThanLast synced.time ⟨6, 1⟩ = true ∧ Active joining ∧ joining.time.quality = .unset ∧
    withPeer.line.roster[(1 : StationNo)].present = true ∧ withPeer.plan.staging = .free ∧
    withPeer.plan.active = none ∧ withPeer.plan.unobtainable = none ∧
    withPeer.line.roster[(1 : StationNo)].plan = none ∧
    (∀ q : StationNo, q ≠ 1 → withPeer.line.roster[q].present = false) ∧
    holds (exec (.beacon 1 (payloadBytes (.beacon keyedBeacon))) withPeer) (fun t =>
      decide (t.time.pendingSet = some ⟨6, 1⟩) && decide (t.plan.staging = .fetching
        ⟨⟨9, 1⟩, 77, none, noFragments, 10000, 1⟩)) = true ∧
    holds (exec (.beacon 1 (payloadBytes (.beacon keyedBeacon))) joining) (fun t =>
      decide (t.time.lastSet = some (⟨6, 1⟩, 0)) && decide (t.plan = joining.plan)) = true := by decide +kernel

/-- The station FETCHES an older key, and one LOADS, when peer 1 reports key (9, 1). -/
def olderFetch : State := setStaging withPeer (.fetching ⟨⟨8, 1⟩, 3, none, noFragments, 5000, 1⟩)

theorem test_beacon_replaces_the_fetch : Active olderFetch ∧ keyNewer ⟨9, 1⟩ ⟨8, 1⟩ = true ∧
    keyNewer ⟨9, 1⟩ ⟨9, 0⟩ = false ∧
    holds (exec (.beacon 1 (payloadBytes (.beacon keyedBeacon))) olderFetch) (fun t =>
      decide (t.plan.staging = .fetching ⟨⟨9, 1⟩, 77, none, noFragments, 10000, 1⟩)) = true ∧
    holds (exec (.beacon 1 (payloadBytes (.beacon keyedBeacon))) (loadingNow withPeer noFragments)) (fun t =>
      decide (t.plan = (loadingNow withPeer noFragments).plan)) = true := by decide +kernel

/-- A peer that becomes present with the BEACON itself: the fetch, and with a stored mark reading the time. -/
theorem test_beacon_of_a_new_peer : Active synced ∧ synced.line.roster[(1 : StationNo)].present = false ∧
    holds (exec (.beacon 1 (payloadBytes (.beacon keyedBeacon))) synced) (fun t => decide (t.plan.staging = .fetching
      ⟨⟨9, 1⟩, 77, none, noFragments, 10000, 1⟩)) = true ∧
    holds (exec (.beacon 1 (payloadBytes (.beacon { keyedBeacon with prevMark := some ⟨410, 29650000⟩ })))
      ((establishing true).withLine (setRoster synced.line 1 { (establishing true).line.roster[(1 : StationNo)] with
        present := false }))) (fun t => decide (noticed t = (true, true, true, some .gathering)) &&
      decide (t.time.campus = ⟨410, 29650000⟩)) = true := by decide +kernel

theorem test_beacon_leaves_unset : keyedBeacon.prevMark = none ∧
    holds (exec (.beacon 1 (payloadBytes (.beacon keyedBeacon))) joining) (fun t =>
      decide (t.time.quality = .unset)) = true := by decide +kernel

theorem test_beacon_premises : Running running ∧ (1 : StationNo) ≠ running.start.station ∧
    (beaconOf (payloadBytes firstBeacon)).isSome = true ∧ (payloadBytes firstBeacon).length = 31 := by
  decide +kernel

theorem test_beacon_establishes : ∃ (s : State) (c : BeaconContent) (a : CampusTime) (m : MarkReading),
    Running s ∧ s.time.quality = .unset ∧ c.quality ≠ .unset ∧ c.prevMark = some a ∧
    s.line.roster[(1 : StationNo)].mark = some m ∧ s.line.roster[(1 : StationNo)].beaconSeq = some c.prevSeq ∧
    s.line.roster[(1 : StationNo)].stepCount = some c.stepCounter ∧
    beaconOf (payloadBytes (.beacon c)) = some c :=
  ⟨running.withLine (setRoster running.line 1 { RosterEntry.initial with
      beaconSeq := some 4, stepCount := some 0, mark := some ⟨0, none⟩ }),
    ⟨5, 4, some ⟨410, 500⟩, 0, .synced, none, none, ⟨0, 0⟩, none⟩, ⟨410, 500⟩, ⟨0, none⟩,
    by decide +kernel, by decide, by decide, rfl, by decide +kernel, by decide +kernel, by decide +kernel,
    by decide +kernel⟩

theorem test_load_premises : Active running ∧ running.plan.staging = .free ∧ running.plan.active = none ∧
    withPlan.plan.staging = .free ∧ withPlan.plan.active = some smallPlan ∧ Active loadingState ∧
    sectionOf (overridesBytes []) ≠ none ∧ sectionOf [0x51] = none := by
  decide +kernel

theorem test_loading_and_fetching : (∃ f t, loadingState.plan.staging = .loading f t) ∧
    Active fetchingState ∧ ∃ f, fetchingState.plan.staging = .fetching f :=
  ⟨⟨_, _, rfl⟩, by decide +kernel, ⟨_, rfl⟩⟩

/-- The check value of the nine digits, as the generator, initial value and no final inversion give it. -/
theorem test_digest : planDigest [[0x31, 0x32, 0x33, 0x34], [0x35, 0x36, 0x37, 0x38, 0x39]] = 0x0376E6E7#32 := by
  decide +kernel

/-- The small plan with another section at this index. -/
def smallWith (i : Nat) (bs : List Byte) : List (Option (List Byte)) := (smallPlan.frags.set i bs).map some

/-- The reason that validation gives, with no carried total and no expected digest. -/
def reasonOf (frags : List (Option (List Byte))) : Option PlanFault :=
  match validate frags none none with
  | .error r => some r
  | .ok _ => none

theorem test_validation_reasons : reasonOf (smallPlan.frags.map some) = none ∧
    reasonOf (smallWith 0 [0x00, 8, 0x10, 0, 0, 0, 30, 10, 0, 180, 7, 8]) = some .fragments ∧
    reasonOf (smallWith 1 [0x10, 5, 0, 0, 0, 0, 0, 0, 0]) = some .calendar ∧
    reasonOf (smallWith 2 [0x25, 0x00]) = some .fragments ∧ reasonOf (smallWith 2 [0x20, 0x50]) = some .ranges ∧
    reasonOf (smallWith 0 [0x00, 7, 0x10, 0, 0, 0, 0, 10, 0, 180, 7, 8]) = some .patterns ∧
    reasonOf (smallWith 0 [0x00, 7, 0x01, 0, 0, 0, 30, 10, 0, 180, 7, 8]) = some .patterns ∧
    reasonOf (smallWith 6 (overridesBytes [⟨5, 5, 0⟩])) = some .overrides ∧
    reasonOf (smallWith 0 [0x00, 7, 0x10, 0, 0, 0, 30, 10, 0, 59, 7, 8]) = some .drillLimits := by decide +kernel

theorem test_fragments_right : ∃ c, FragmentsRight (smallPlan.frags.map some) (some 7) (some smallPlan.digest)
    smallPlan.frags c :=
  ⟨_, by decide +kernel, by decide +kernel, by decide +kernel, rfl, by decide +kernel,
    by intro n h; cases h; decide +kernel, fun d h => (Option.some.inj h).symm.trans (by decide +kernel)⟩

/-- A HEADER with pattern 0, a CALENDAR, four RANGES, these entries as the BELLS of P0, and OVERRIDES. -/
def planWithBells (entries : List Byte) : List (Option (List Byte)) :=
  ([[0x00, 8, 0x10, 0, 0, 0, 30, 10, 0, 180, 7, 8], [0x10, 0, 0, 0, 0, 0, 0, 0, 0], [0x20, 0], [0x21, 0], [0x22, 0],
    [0x23, 0], [0x30, 0, BitVec.ofNat 8 (entries.length / 6)] ++ entries, [0x40, 0]] : List (List Byte)).map some

theorem test_bell_reasons : reasonOf (planWithBells [0, 0, 9, 1, 0, 1, 0, 0, 9, 2, 0, 1]) = none ∧
    reasonOf (planWithBells [0, 0, 9, 1, 0, 1, 0, 0, 8, 2, 0, 1]) = some .bellOrder ∧
    reasonOf (planWithBells [1, 0x51, 0x80, 1, 0, 1]) = some .bellOrder ∧
    reasonOf (planWithBells [0, 0, 9, 1, 0, 1, 0, 0, 9, 3, 0, 2]) = some .bellClash ∧
    reasonOf (planWithBells [0x10, 0, 9, 1, 0, 1]) = some .patternRef := by decide +kernel

theorem test_commit_premises : Active loadingState ∧ newerThanActive loadingState.plan (newPlanKey loadingState) = true ∧
    (validate ((smallPlan.frags.map some) ++ List.replicate 34 none) none none).toOption = some smallPlan.frags ∧
    (validate (List.replicate 41 none) none none).toOption = none := by decide +kernel

theorem test_commit_generation : newerThanActive wrappedPlan.plan (newPlanKey wrappedPlan) = false := by
  decide +kernel

theorem test_commit_runs : holds (exec (.loadCommit none) loadingState)
    (fun t => decide (t.plan.active = some ⟨⟨1, 0⟩, planDigest smallPlan.frags, 7, smallPlan.frags⟩)) = true := by
  decide +kernel

theorem test_override_premises : Active withPlan ∧ withPlan.plan.staging = .free ∧
    withPlan.plan.active = some smallPlan ∧ (planOverrides smallPlan).length = 1 ∧
    (validate ((withOverrides smallPlan (planOverrides smallPlan ++ [⟨600000, 600060, 3⟩])).map some) none
      none).toOption = some (withOverrides smallPlan (planOverrides smallPlan ++ [⟨600000, 600060, 3⟩])) ∧
    (validate ((withOverrides smallPlan []).map some) none none).toOption = some (withOverrides smallPlan []) ∧
    newerThanActive withPlan.plan (newPlanKey withPlan) = true := by decide +kernel

/-- An active plan whose header bears the wrong total, so that no copy of it is valid. -/
def brokenPlan : State := withPlan.withPlan { withPlan.plan with
  active := some { smallPlan with frags := smallPlan.frags.set 0 [0x00, 9, 0x10, 0, 0, 0, 30, 10, 0, 180, 7, 8] } }

theorem test_override_refusals : Active brokenPlan ∧ brokenPlan.plan.staging = .free ∧
    holds (exec (.overrideAdd 600000 600060 .quiet) brokenPlan) (fun t =>
      decide (t = answered brokenPlan (.refused (.validation .fragments)))) = true ∧
    holds (exec (.overrideRemove 0) brokenPlan) (fun t =>
      decide (t = answered brokenPlan (.refused (.validation .fragments)))) = true ∧
    newerThanActive wrappedPlan.plan (newPlanKey wrappedPlan) = false ∧ Active wrappedPlan ∧
    holds (exec (.overrideAdd 600000 600060 .quiet) wrappedPlan) (fun t =>
      decide (t = answered wrappedPlan (.refused .generation))) = true ∧
    holds (exec (.overrideRemove 0) wrappedPlan) (fun t =>
      decide (t = answered wrappedPlan (.refused .generation))) = true ∧
    holds (exec (.overrideRemove 4) fetchingState) (fun t =>
      decide (t = answered fetchingState (.bad .argument))) = true := by decide +kernel

theorem test_overrides_full : (planOverrides { smallPlan with
    frags := withOverrides smallPlan (List.replicate 4 ⟨1, 2, 3⟩) }).length = 4 := by decide +kernel

theorem test_read_premises : Active withPlan ∧ Active running ∧ running.plan.active = none ∧
    holds (exec (.readPlanItem (.override 4)) running) (fun t => decide (t = answered running (.bad .argument))) = true ∧
    withPlan.plan.active = some smallPlan ∧ (contentOf smallPlan.frags).isSome = true ∧
    ((contentOf smallPlan.frags).bind (fun c => c.weekdays.head?)).isSome = true ∧
    ((contentOf smallPlan.frags).map (fun c => c.programs.length)) = some 4 := by decide +kernel

/-- The sections of a plan but the last, staged by a fetch that expects this digest. -/
def almostFetched (own : Bool) (digest : Digest) : State :=
  let s := fetchingState.withPlan { fetchingState.plan with
    active := if own then some smallPlan else none }
  setStaging s (.fetching ⟨⟨9, 1⟩, digest, some 7, (stagedCopy smallPlan).set 6 none, 10000, 1⟩)

/-- The PLAN frame with the last section. -/
def lastSection : List Byte := payloadBytes (.plan ⟨9, 1⟩ 6 7 (overridesBytes [⟨590000, 590060, 3⟩]))

theorem test_fetch_completes : (∀ o : Bool, Active (almostFetched o smallPlan.digest)) ∧
    allHeld ((((stagedCopy smallPlan).set 6 none)).set 6 (some (overridesBytes [⟨590000, 590060, 3⟩]))) 7 = true ∧
    (validate (stagedCopy smallPlan).toList (some 7) (some smallPlan.digest)).toOption = some smallPlan.frags ∧
    (validate (stagedCopy smallPlan).toList (some 7) (some (smallPlan.digest + 1))).toOption = none ∧
    holds (exec (.plan 1 lastSection) (almostFetched false smallPlan.digest)) (fun t =>
      decide (t.plan.active = some { smallPlan with key := ⟨9, 1⟩ }) && decide (t.plan.staging = .free) &&
        decide (Pending t .planAdopted)) = true ∧
    holds (exec (.plan 1 lastSection) (almostFetched true smallPlan.digest)) (fun t =>
      decide (Pending t .planSuperseded)) = true ∧
    holds (exec (.plan 1 lastSection) (almostFetched true (smallPlan.digest + 1))) (fun t =>
      decide (t.plan.unobtainable = some ⟨9, 1⟩) && t.faults.banks[bankIndex .plan].uncorrected &&
        decide (t.faults.banks[bankIndex .plan].code = 4)) = true ∧
    (almostFetched true (smallPlan.digest + 1)).faults.banks[bankIndex .plan].valid = false := by
  decide +kernel

theorem test_plan_frame_premises : Active fetchingState ∧ (1 : StationNo) ≠ fetchingState.start.station ∧
    planFrameOf (payloadBytes (.plan ⟨9, 1⟩ 6 7 (overridesBytes []))) = some ⟨⟨9, 1⟩, 6, 7, overridesBytes []⟩ ∧
    (payloadBytes (.plan ⟨9, 1⟩ 6 7 (overridesBytes []))).length = 7 ∧
    fetchingState.line.roster[(1 : StationNo)].present = true ∧
    allHeld (noFragments.set 6 (some (overridesBytes []))) 7 = false ∧
    (∃ f, fetchingState.plan.staging = .fetching f ∧ f.target = ⟨9, 1⟩ ∧ f.total = none ∧
      f.frags[(6 : Fin 41)] = none) :=
  ⟨by decide +kernel, by decide, by decide +kernel, by decide +kernel, by decide +kernel, by decide +kernel,
    ⟨_, rfl, rfl, rfl, rfl⟩⟩

/-- The station serves fragments 1, 3 and 5 of its plan, and has these queued. -/
def serving (queued : List Nat) (paused : Option Count) (l : LineUnit) : State :=
  Machine.State.withPlan (withPlan.withLine (setRoster l 1 { RosterEntry.initial with present := true }))
    { withPlan.plan with serve := 42, queued := queued, pausedUntil := paused }

/-- What a command leaves of the cursor: the fragments queued, the frames of the transmit queue, the pause. -/
def cursorAfter (i : Instr) (s : State) : Option (List Nat × Nat × Option Count) :=
  match exec i s with
  | .next t => some (t.plan.queued, t.line.queue.length, t.plan.pausedUntil)
  | _ => none

/-- A PLANREQ for fragment 0 of the active plan. -/
def requestOfZero : Instr := .planreq 1 (payloadBytes (.planreq smallPlan.key 1))

theorem test_cursor : Active (serving [] none synced.line) ∧
    cursorAfter requestOfZero (serving [] none synced.line) = some ([0, 1], 2, none) ∧
    cursorAfter requestOfZero (serving [1] none synced.line) = some ([1, 0], 1, none) ∧
    cursorAfter requestOfZero (serving [1, 3] none synced.line) = some ([1, 3], 0, none) ∧
    cursorAfter requestOfZero (serving [] (some 7) synced.line) = some ([], 0, some 7) ∧
    cursorAfter requestOfZero (serving [] none (fullQueue 12)) = some ([], 12, some 1000) := by decide +kernel

theorem test_cursor_and_room : cursorAfter requestOfZero (serving [] none { fullQueue 12 with queue := (fullQueue 12).queue.drop 1 }) =
      some ([0], 12, some 1000) ∧
    cursorAfter requestOfZero (serving [] none { synced.line with listenOnly := true }) = some ([], 0, none) ∧
    cursorAfter .servePause (serving [] (some 0) synced.line) = some ([1, 3], 2, none) ∧
    cursorAfter .servePause (serving [] (some 0) { synced.line with listenOnly := true }) = some ([], 0, none) := by
  decide +kernel

theorem test_planreq_premises : Active withPlan ∧ (1 : StationNo) ≠ withPlan.start.station ∧
    planreqOf (payloadBytes (.planreq smallPlan.key 5)) = some (smallPlan.key, 5) ∧
    (payloadBytes (.planreq smallPlan.key 5)).length = 9 ∧ withPlan.plan.active = some smallPlan ∧
    withPlan.line.listenOnly = false ∧ running.plan.active = none ∧ Active running := by decide +kernel

theorem test_serve_pause_premises : ∃ s : State, Active s ∧ s.plan.pausedUntil.isSome ∧ takesOffers s = true :=
  ⟨Machine.State.withPlan withPlan { withPlan.plan with pausedUntil := some 0 }, by decide +kernel, rfl,
    by decide +kernel⟩

theorem test_plan_timer_premises : Active loadingState ∧ fetchTarget loadingState = none ∧
    Active fetchingState ∧ HasRoom fetchingState ∧ Taking fetchingState ∧
    (∃ f, fetchingState.plan.staging = .fetching f ∧ f.requests < 6) :=
  ⟨by decide +kernel, by decide +kernel, by decide +kernel, by decide +kernel, by decide,
    ⟨_, rfl, by decide⟩⟩

/-- The load's deadline is reached, and a fragment is taken before the expiry. -/
def lateLoad : State := loadingState.withTime { loadingState.time with localCount := 60000 }

/-- The fetch's deadline is reached, and a new fragment has been taken before the expiry. -/
def lateFetch : State := fetchingState.withTime { fetchingState.time with localCount := 10000 }

theorem test_overtaken : Active lateLoad ∧ countReached lateLoad.time.localCount 60000 = true ∧
    lateLoad.plan.overtaken = false ∧
    holds (exec (.loadFragment 6 (overridesBytes [])) lateLoad) (fun t => t.plan.overtaken &&
      holds (exec .loadTimer t) (fun u => !u.plan.overtaken && decide (u.plan.staging = t.plan.staging))) = true ∧
    holds (exec .loadTimer lateLoad) (fun t => decide (t.plan.staging = .free)) = true ∧
    holds (exec (.plan 1 (payloadBytes (.plan ⟨9, 1⟩ 6 7 (overridesBytes [])))) lateFetch) (fun t =>
      t.plan.overtaken && holds (exec .noProgressTimer t) (fun u => decide (u.line.queue = t.line.queue) &&
        decide (u.plan.staging = t.plan.staging))) = true := by decide +kernel

/-- The load is abandoned while a peer reports a newer key, so that a fetch follows. -/
def loadBesideNewer : State := let s := loadingNow withPeer (noFragments.set 6 (some (overridesBytes [])))
  s.withLine (setRoster s.line 1 { s.line.roster[(1 : StationNo)] with plan := some (⟨9, 1⟩, 77) })

theorem test_abandoned_before_a_fetch : Active loadBesideNewer ∧ (fetchTarget loadBesideNewer).isSome = true ∧
    holds (exec .loadTimer loadBesideNewer) (fun t => decide (Pending t .loadAbandoned) &&
      (match t.plan.staging with
        | .fetching f => decide (f.target = ⟨9, 1⟩)
        | _ => false) &&
      decide (t.faults.banks[bankIndex .plan] =
        ⟨true, false, false, 1, some (.number 1), some ⟨410, 29640000⟩, 1⟩)) = true := by decide +kernel

theorem test_fetch_failed : holds (exec .noProgressTimer (setStaging fetchingState (.fetching
      ⟨⟨9, 1⟩, 77, none, noFragments, 0, 6⟩)))
    (fun t => decide (t.plan.unobtainable = some ⟨9, 1⟩) && decide (t.faults.banks[bankIndex .plan].code = 3) &&
      decide (t.faults.banks[bankIndex .plan].detail = some (.number 9))) = true ∧
    fetchingState.faults.banks[bankIndex .plan].valid = false := by decide +kernel

/-- The synth of a station in RUN at a place of a program. -/
def synthAt (p : SynthProgram) (note sample repetition : Nat) : Synth :=
  { Synth.initial with
    playing := some (3, 1), sounding := true, program := some p, repeats := 2, repetition := repetition,
    note := note, sample := sample }

theorem test_synth_places : (synthSample .run (synthAt (.chime .chime2) 0 100 0)).sample = 101 ∧
    (synthSample .run (synthAt (.chime .chime2) 0 9599 0)).note = 1 ∧
    (synthSample .run (synthAt (.chime .chime2) 1 14399 0)).note = 2 ∧
    (synthSample .run (synthAt (.chime .chime2) 1 14399 1)).complete = true ∧
    (synthSample .run (synthAt (.chime .chime2) 2 7999 0)).repetition = 1 ∧
    (synthSample .run (synthAt .allClear 0 31999 0)).complete = true ∧
    (synthSample .run (synthAt .evacuation 5 23999 0)).note = 0 ∧
    (synthSample .join (synthAt .evacuation 0 100 0)).out = 0 ∧
    (synthSample .run { synthAt .evacuation 0 159 0 with phase1 := 20000 }).out = 1906 := by decide +kernel

/-- Arbiters whose SYN is held by the drill, by a bell claim that sounds, and by one that does not. -/
def synHeldBy (slot : SlotNo) (sounding : Bool) : Arbiter :=
  reportSounding (makeClaim Arbiter.initial 0 slot .bell .a fun r => decide (r = 8)) slot 1 sounding

theorem test_synth_follows : (withArbiter synced (synHeldBy 1 true)).synth.program = some .bellTone ∧
    (withArbiter synced (synHeldBy 1 true)).synth.sounding = true ∧
    (withArbiter synced (synHeldBy 0 true)).synth.program = some .allClear ∧
    (withArbiter (withArbiter synced (synHeldBy 1 false)) (synHeldBy 1 true)).synth.sounding = true ∧
    (withArbiter (withArbiter synced (synHeldBy 1 true)) Arbiter.initial).synth.playing = none := by decide +kernel

theorem test_quadrants : [0x0000#16, 0x40FF#16, 0x8000#16, 0xC000#16, 0x3FFF#16].map oscillator =
    [50, 4095, -50, -4095, 4095] := by decide +kernel

theorem test_outputs_by_operating_state : ∃ s : State, s.bells.gens[(0 : BellNo)].state = .on 0 ∧
    s.start.opState = .run ∧ bellOutput s 0 = true ∧
    bellOutput (s.withStart { s.start with opState := .join }) 0 = false :=
  ⟨takeRequest (withPlan.withImage { withPlan.image with
      bells := withPlan.image.bells.set 0 ⟨.relay, true, true, 0⟩ }) 0 ⟨0, .panel⟩, by decide +kernel,
    by decide +kernel, by decide +kernel, by decide +kernel⟩

/-- A station in RUN whose circuits B0 and B1 are RELAY circuits, B0 with the button and alarm-capable. -/
def ringable : State := withPlan.withImage { withPlan.image with
  bells := (withPlan.image.bells.set 0 ⟨.relay, true, true, 0⟩).set 1 ⟨.relay, false, false, 0⟩ }

/-- The same station while B0 rings. -/
def ringing : State := takeRequest ringable 0 ⟨0, .panel⟩

theorem test_ring_premises : bellExists ringable.image 0 = true ∧ ringable.bells.gens[(0 : BellNo)].state = .idle ∧
    ringing.bells.gens[(0 : BellNo)].state = .on 0 ∧
    (takeRequest (takeRequest ringing 0 ⟨1, .button⟩) 0 ⟨2, .panel⟩).faults.banks[bankIndex .output].valid = true ∧
    (∃ s : State, bellExists s.image 0 = true ∧ s.bells.gens[(0 : BellNo)].state = .evac) :=
  ⟨by decide +kernel, by decide +kernel, by decide +kernel, by decide +kernel,
    ⟨evacuateBells ringable, by decide +kernel, by decide +kernel⟩⟩

theorem test_equal_request : ∃ s : State, ∃ r : RingRequest, bellExists s.image 0 = true ∧
    s.bells.gens[(0 : BellNo)].state = .on 0 ∧ s.bells.gens[(0 : BellNo)].running = some r ∧
    ∃ k p i n, r.source = .scheduled k p i n :=
  ⟨takeRequest ringable 0 ⟨0, .scheduled ⟨1, 0⟩ 0 0 5⟩, ⟨0, .scheduled ⟨1, 0⟩ 0 0 5⟩, by decide +kernel,
    by decide +kernel, by decide +kernel, ⟨_, _, _, _, rfl⟩⟩

theorem test_ring_command : Active ringable ∧ ringable.start.opState = .run ∧
    ringable.bells.drillFlag = false ∧ patternQuery ringable.plan 1 = none ∧
    patternQuery ringable.plan 0 ≠ none ∧ Active joining ∧ joining.start.opState = .join := by decide +kernel

theorem test_button_rings : holds (exec .bellButtonPress ringable)
    (fun t => decide (t.bells.gens[(0 : BellNo)].state = .on 0) && decide (t.bells.gens[(1 : BellNo)].state = .idle)) =
    true := by decide +kernel

/-- A state whose circuit B0 is in a generator state. -/
def genState (s : State) (g : GenState) : State :=
  s.withBells (setGen s.bells 0 { s.bells.gens[(0 : BellNo)] with state := g, waiting := some ⟨0, .button⟩ })

theorem test_pulse_premises : Active ringing ∧ ringing.bells.gens[(0 : BellNo)].state = .on 0 ∧
    (genState ringing (.off 0)).bells.gens[(0 : BellNo)].state = .off 0 ∧
    (genState ringing (.off 0)).bells.gens[(0 : BellNo)].pulses[1]? = none ∧
    (genState ringing .rest).bells.gens[(0 : BellNo)].state = .rest ∧ ringing.bells.drillFlag = false := by
  decide +kernel

theorem test_next_pulse : (setGen ringing.bells 0 ⟨.off 0, [⟨1, 1⟩, ⟨2, 2⟩], none, none, none⟩).gens[(0 : BellNo)].pulses[1]? =
    some ⟨2, 2⟩ := by decide +kernel

theorem test_drill_order_premises : Active ringing ∧ ringing.image.bells[(0 : BellNo)].alarmCapable = true ∧
    (evacuateBells ringing).bells.gens[(0 : BellNo)].state = .evac ∧ Active (evacuateBells ringing) ∧
    bellOutput (evacuateBells ringing) 0 = true ∧ bellOutput (evacuateBells ringing) 1 = false := by decide +kernel

theorem test_fire_premises : (smallPlan.key = ⟨3, 0⟩) ∧ ringable.plan.active = some smallPlan ∧
    ringable.bells.drillFlag = false ∧ (1#16).getLsbD ringable.start.station.val = true ∧
    (fireEntry ringable ⟨410, 0, 0, ⟨100, 0, 1, 1, true⟩⟩).bells.gens[(0 : BellNo)].state = .on 0 := by
  decide +kernel

/-- The plan of the worked example of R57 (03_the_day_plan.md 3.3). -/
def fridayPlan : List (List Byte) :=
  [[0x00, 7, 0x10, 0, 0, 0, 30, 10, 0, 180, 7, 8], [0x10, 0, 0, 0, 0, 0, 4, 4, 1, 0x01, 0x9D, 4],
    [0x20, 0x44, 0x01, 0xD6, 0x03, 0xA2, 0, 0x02, 0x58, 0x02, 0x6C, 1, 0x02, 0xD0, 0x02, 0xFD, 1,
      0x03, 0xA2, 0x03, 0xFC, 3], [0x21, 0], [0x22, 0], [0x23, 0],
    overridesBytes [⟨591180, 591240, 2⟩, ⟨592320, 592560, 0⟩]]

/-- The effective kind of the example at a day, hour and minute. -/
def fridayKind (day : BitVec 16) (hour minute : Nat) : PeriodKind :=
  effectiveKind { synced.plan with active := some (planOf ⟨1, 0⟩ fridayPlan) }
    ⟨⟨day, (hour * 60 + minute) * 60000⟩, true⟩

theorem test_worked_kinds : (validate (fridayPlan.map some) none none).toOption = some fridayPlan ∧
    [fridayKind 410 8 15, fridayKind 410 10 5, fridayKind 410 13 30, fridayKind 410 16 0, fridayKind 410 18 0,
      fridayKind 411 10 0, fridayKind 411 14 0, fridayKind 413 10 5, fridayKind 417 10 5] =
    [.teaching, .recess, .assembly, .quiet, .closed, .teaching, .closed, .closed, .recess] := by decide +kernel

/-- The premises of the clauses about the effective kind, at D410 10:05, D410 18:00 and D413. -/
theorem test_kind_premises : ∃ c q, contentOf fridayPlan = some c ∧ c.programs[0]? = some q ∧
    HighestOf c.overrides 591200 .assembly ∧ (∀ o ∈ c.overrides, ¬ Covers o 591005) ∧
    DayProgram c 410 0 ∧ DayProgram c 413 4 ∧ DayProgram c 411 4 ∧ HighestOf q.ranges 605 .recess ∧
    (∀ o ∈ q.ranges, ¬ Covers o 1080) ∧ q.default = periodCode .closed :=
  ⟨_, _, rfl, rfl, by unfold HighestOf Covers; decide +kernel, by unfold Covers; decide +kernel,
    by unfold DayProgram; decide +kernel, by unfold DayProgram; decide +kernel, by unfold DayProgram; decide +kernel,
    by unfold HighestOf Covers; decide +kernel, by unfold Covers; decide +kernel, by decide +kernel⟩

/-- A station in RUN that takes the boundary of the second 100 of day 410 after the mark of second 99. -/
def atBoundary : State := (ringable.withTime { ringable.time with
    secondDue := some ⟨⟨410, 100000⟩, true⟩ }).withBells { ringable.bells with
  hwm := some (410 * 86400 + 99), dayOfProgram := some 410,
  today := some ⟨0, [⟨100, 0, 1, 1, true⟩, ⟨200, 0, 1, 1, true⟩]⟩ }

/-- A plan whose program 0, of every day, rings B0 at the first and at the last second of the day. -/
def nightPlan : ActivePlan := planOf ⟨3, 0⟩
  [[0x00, 8, 0x10, 0, 0, 0, 30, 10, 0, 180, 7, 8], [0x10, 0, 0, 0, 0, 0, 0, 0, 0], [0x20, 0], [0x21, 0], [0x22, 0],
    [0x23, 0], [0x30, 0, 2, 0x00, 0x00, 0x00, 1, 0, 1, 0x01, 0x51, 0x7F, 1, 0, 1], overridesBytes []]

/-- A station in RUN that takes the boundary of midnight after the mark of second 86,398 of the day before. -/
def atMidnight : State := (Machine.State.withPlan (ringable.withTime { ringable.time with
    secondDue := some ⟨⟨411, 0⟩, true⟩ }) { ringable.plan with active := some nightPlan }).withBells
  { ringable.bells with hwm := some (410 * 86400 + 86398), dayOfProgram := some 410 }

theorem test_scheduler_midnight : Running atMidnight ∧ secondLater (411 * 86400) (410 * 86400 + 86398) = true ∧
    (411#16 : BitVec 16) = BitVec.ofNat 16 ((410 * 86400 + 86398) / 86400) + 1 ∧
    (entriesBetween (takeDay atMidnight.bells atMidnight.plan 411) atMidnight.plan (410 * 86400 + 86398)
      (411 * 86400)).map (fun e => (e.day, e.entry.second)) = [(410, 86399), (411, 0)] ∧
    holds (exec .secondBoundary atMidnight) (fun t => decide (t.bells.hwm = some (411 * 86400)) &&
      decide (t.bells.dayOfProgram = some 411) && decide (t.bells.gens[(0 : BellNo)].waiting.isSome = true) &&
      decide (t.bells.gens[(0 : BellNo)].state = .on 0)) = true := by decide +kernel

theorem test_scheduler_premises : Running atBoundary ∧ atBoundary.time.secondDue = some ⟨⟨410, 100000⟩, true⟩ ∧
    secondLater (410 * 86400 + 100) (410 * 86400 + 99) = true := by decide +kernel

theorem test_scheduler_fires : holds (exec .secondBoundary atBoundary) (fun t =>
    decide (t.bells.gens[(0 : BellNo)].state = .on 0) && decide (t.bells.hwm = some (410 * 86400 + 100))) = true := by
  decide +kernel

theorem test_short_step : 0 < campusDiff ⟨410, 100000⟩ ⟨410, 99000⟩ ∧
    secondLater (410 * 86400 + 100) (410 * 86400 + 99) = true ∧
    (bellStep atBoundary ⟨410, 99000⟩ ⟨410, 100000⟩).bells.gens[(0 : BellNo)].state = .on 0 ∧
    (bellStep atBoundary ⟨410, 99000⟩ ⟨409, 99000⟩).bells.dayOfProgram = some 409 ∧
    (bellStep atBoundary ⟨410, 99000⟩ ⟨409, 99000⟩).bells.hwm = some (410 * 86400 + 99) ∧
    Active atBoundary ∧ atBoundary.time.quality ≠ .unset ∧ atBoundary.time.campus ≠ ⟨410, 100000⟩ ∧
    holds (exec (.setTime ⟨410, 100000⟩) (atBoundary.withTime { atBoundary.time with campus := ⟨410, 99000⟩ }))
      (fun t => decide (t.bells.gens[(0 : BellNo)].state = .on 0)) = true := by decide +kernel

theorem test_step_premises : inRun atBoundary = true ∧ atBoundary.bells.hwm = some (410 * 86400 + 99) ∧
    120000 < campusDiff ⟨410, 300000⟩ ⟨410, 99000⟩ ∧
    secondLater (absSecond ⟨410, 300000⟩) (410 * 86400 + 99) = true ∧
    (bellStep atBoundary ⟨410, 99000⟩ ⟨410, 300000⟩).faults.banks[bankIndex .output].valid = true := by
  decide +kernel

/-- A station whose circuits are TONE circuits: B0 and B2 of zone 2, B1 of zone 3, B3 of a zone that it lacks. -/
def toneReady : State := withPlan.withImage { withPlan.image with
  zoneCount := 6
  bells := (((withPlan.image.bells.set 0 ⟨.tone, false, false, 2⟩).set 1 ⟨.tone, false, false, 3⟩).set 2
    ⟨.tone, false, false, 2⟩).set 3 ⟨.tone, false, false, 7⟩ }

/-- B0 rings; B0 and B1 ring; both slots are in use. -/
def toneRings (n : Nat) : State :=
  ([(0, 0), (1, 0), (2, 5)].take n).foldl (fun s (x : BellNo × Nat) => takeRequest s x.1 ⟨x.2, .panel⟩) toneReady

/-- The members and zones of a slot, with what is known of SYN. -/
def slotView (s : State) (k : BellSlotNo) : Option (List BellNo × List ZoneNo × Known) :=
  (s.bells.slots[k]).map fun x => (x.members, x.zones, x.known[synRes])

theorem test_tone_slots : slotView (toneRings 1) 0 = some ([0], [2], .holds) ∧
    slotView (toneRings 2) 0 = some ([0, 1], [2, 3], .holds) ∧
    slotView (takeRequest (toneRings 2) 2 ⟨0, .panel⟩) 0 = some ([0, 1, 2], [2, 3], .holds) ∧
    slotView (toneRings 3) 1 = some ([2], [2], .waits) ∧
    slotView (takeRequest toneReady 3 ⟨0, .panel⟩) 0 = none ∧
    toneReady.bells.gens[(3 : BellNo)].state = .idle ∧ ((claimIn (toneRings 1).arb 1).map (·.sounding)) = some true ∧
    zoneGate (toneRings 2) 3 = true ∧ (toneRings 1).synth.program = some .bellTone ∧
    (ringStart (toneRings 3) 4 ⟨6, .panel⟩).bells.gens[(4 : BellNo)].state = .on 0 := by decide +kernel

/-- B0's ring on a tone bell in this state of its generator, with one more pulse to come or none. -/
def toneIn (g : GenState) (n : Nat) (pulses : List Pulse) : State :=
  (toneRings n).withBells (setGen (toneRings n).bells 0 { (toneRings n).bells.gens[(0 : BellNo)] with
    state := g
    pulses := pulses })

/-- What the claim of slot 0 reports: whether it sounds. -/
def bellSounds (t : State) : Option Bool := (claimIn t.arb (bellSlot 0)).map (·.sounding)

theorem test_tone_pulses : holds (exec (.pulseOnEnd 0) (toneRings 1)) (fun t => decide (bellSounds t = some false)) = true ∧
    holds (exec (.pulseOnEnd 0) (toneRings 2)) (fun t => decide (bellSounds t = some true)) = true ∧
    holds (exec (.pulseOffEnd 0) (toneIn (.off 0) 1 [⟨1, 1⟩, ⟨2, 2⟩])) (fun t => decide (bellSounds t = some true)) = true ∧
    holds (exec (.pulseOffEnd 0) (toneIn (.off 0) 1 [⟨1, 1⟩])) (fun t => decide (slotView t 0 = none) &&
      decide (bellSounds t = none) && decide (t.arb.res[synRes].holder = none)) = true ∧
    holds (exec (.pulseOffEnd 0) (toneIn (.off 0) 2 [⟨1, 1⟩])) (fun t =>
      decide (slotView t 0 = some ([1], [2, 3], .holds)) && decide (t.arb = (toneRings 2).arb)) = true ∧
    holds (exec (.restEnd 0) (genState (toneRings 0) .rest)) (fun t =>
      decide (slotView t 0 = some ([0], [2], .holds)) && decide (bellSounds t = some true)) = true := by decide +kernel

/-- B3 has a zone, and no slot is free for it. -/
def toneLost : State := takeRequest ((toneRings 3).withImage { toneReady.image with zoneCount := 8 }) 3 ⟨6, .panel⟩

theorem test_tone_lost : toneLost.faults.banks[bankIndex .output].code = 2 ∧
    toneLost.bells.slots = (toneRings 3).bells.slots := by decide +kernel

/-- Every zone and SYN are held by the drill, and four NORMAL claims wait before the bell. -/
def crowded : State := toneReady.withArb ([0, 3, 4, 5, 6].foldl (fun a (k : SlotNo) =>
  makeClaim a 0 k (if k = 0 then .alarm else .urgent) .a fun r => decide (r = 8) || decide (r = 2)) Arbiter.initial)

theorem test_tone_refused : slotView (takeRequest crowded 0 ⟨0, .panel⟩) 0 = none ∧
    (claimIn (takeRequest crowded 0 ⟨0, .panel⟩).arb 1) = none ∧
    (takeRequest crowded 0 ⟨0, .panel⟩).bells.gens[(0 : BellNo)].state = .on 0 := by decide +kernel

/-- The bell claim of slot 1 waits for SYN, which passes to it: a GRANTED notice. -/
def toneGranted : State := (toneRings 3).withArb (withdrawFrom (toneRings 3).arb 1 8)

/-- The same notice, after the slot has lost SYN on its own account. -/
def toneForgotten : State := toneGranted.withBells (setSlot toneGranted.bells 1
  ((toneGranted.bells.slots[(1 : BellSlotNo)]).map fun x => { x with known := x.known.set synRes .nothing }))

theorem test_granted : Active toneGranted ∧ (firstNotice toneGranted.arb (bellSlot 1)).map (·.kind) = some .granted ∧
    ((firstNotice toneGranted.arb (bellSlot 1)).map (noticeLive toneGranted.arb)) = some true ∧
    holds (exec (.bellClaimNotice 1) toneGranted) (fun t =>
      decide ((t.bells.slots[(1 : BellSlotNo)]).map (fun x => x.known[synRes]) = some .holds)) = true ∧
    holds (exec (.bellClaimNotice 1) toneForgotten) (fun t =>
      decide (t.bells.slots[(1 : BellSlotNo)] = none)) = true := by decide +kernel

/-- The bell sounds at once on the grant, and the notice is gone. -/
theorem test_granted_sounds : holds (exec (.bellClaimNotice 1) toneGranted) (fun t =>
    decide ((claimIn t.arb (bellSlot 1)).map (·.sounding) = some true) && decide (t.arb.notices = []) &&
    decide (t.arb = reportSounding (dropNotice toneGranted.arb (bellSlot 1)) (bellSlot 1) 1 true)) = true ∧
    (claimIn toneGranted.arb (bellSlot 1)).map (·.sounding) = some false := by decide +kernel

/-- A bell claim in bell slot 0 that has been sent EVICTED for SYN. -/
def tonedState : State :=
  let a := makeClaim Arbiter.initial 0 1 .bell .a fun r => decide (r = 8) || decide (r = 2)
  (withPlan.withArb (notify a 1 8 .evicted)).withBells
    (setSlot withPlan.bells 0 (some ⟨0, 5, [1], [2], 1, knownFrom a 1⟩))

theorem test_bell_notice_premises : Active tonedState ∧ firstNotice tonedState.arb (bellSlot 0) =
    some ⟨1, 1, 8, .evicted⟩ ∧ noticeLive tonedState.arb ⟨1, 1, 8, .evicted⟩ = true ∧
    tonedState.bells.slots[(0 : BellSlotNo)] ≠ none ∧ Active withPlan ∧
    firstNotice withPlan.arb drillSlot = none := by decide +kernel

theorem test_bell_notice_frees : holds (exec (.bellClaimNotice 0) tonedState)
    (fun t => decide (t.bells.slots[(0 : BellSlotNo)] = none) && decide (t.arb.notices = []) &&
      decide (t.arb = withdrawWhole (dropNotice tonedState.arb (bellSlot 0)) (bellSlot 0))) = true := by decide +kernel

/-- An all-clear claim that has been sent EXPIRED for SYN. -/
def allClearLost : State := withPlan.withArb (notify
  (makeClaim Arbiter.initial 0 drillSlot .urgent .a fun r => decide (r = 8)) drillSlot 8 .expired)

theorem test_drill_notice_premises : Active allClearLost ∧
    firstNotice allClearLost.arb drillSlot = some ⟨0, 1, 8, .expired⟩ ∧
    noticeLive allClearLost.arb ⟨0, 1, 8, .expired⟩ = true ∧ allClearHeld allClearLost.arb = true ∧
    holds (exec .drillClaimNotice allClearLost) (fun t =>
      decide (t.arb = withdrawWhole (dropNotice allClearLost.arb drillSlot) drillSlot)) = true := by decide +kernel

/-- A station in RUN at D500 03:00 whose C0 is an IMPULSE circuit and whose C1 is a CODED circuit. -/
def clocked : State := (withPlan.withImage { withPlan.image with
    clocks := (withPlan.image.clocks.set 0 ⟨.impulse, 1000, 60⟩).set 1 ⟨.coded, 0, 0⟩ }).withTime
  { withPlan.time with campus := ⟨500, 10800000⟩ }

/-- The same station with the dial of C0 believed at a minute. -/
def dialAt (s : State) (p : Option Nat) : State := setImpulse s 0 { ImpulseRecord.initial with position := p }

theorem test_evaluation_premises : (dialAt clocked (some 179)).image.clocks[(0 : ClockNo)].kind = .impulse ∧
    (dialAt clocked (some 179)).clocks[(0 : ClockNo)].impulse.position = some 179 ∧ (179 + 1) % 720 = 10800000 / 60000 % 720 ∧
    (dialAt clocked (some 179)).clocks[(0 : ClockNo)].impulse.cycle = .none ∧
    (dialAt clocked (some 179)).start.opState = .run := by decide +kernel

theorem test_clocks_go_back : ((evaluate (dialAt clocked (some 180)) 0 ⟨⟨500, 7210000⟩, true⟩).clocks[(0 :
    ClockNo)]).impulse.state = .holding ∧
    ((evaluate (dialAt clocked (some 179)) 0 ⟨⟨500, 10800000⟩, true⟩).clocks[(0 : ClockNo)]).impulse.cycle = .impulse ∧
    ((evaluate (dialAt clocked (some 100)) 0 ⟨⟨500, 10800000⟩, true⟩).clocks[(0 : ClockNo)]).impulse.state = .advancing := by
  decide +kernel

/-- C0 in an impulse with a midpoint result and a fail count. -/
def impulsing (m : Option SenseResult) (n : Nat) : State :=
  setImpulse clocked 0 ⟨some 719, .plus, n, .running, .impulse, m, none, some 0⟩

theorem test_impulse_premises : Active (impulsing none 0) ∧
    (impulsing none 0).image.clocks[(0 : ClockNo)].kind = .impulse ∧
    (impulsing none 0).clocks[(0 : ClockNo)].impulse.cycle = .impulse ∧
    (impulsing (some .delivered) 0).clocks[(0 : ClockNo)].impulse.midpoint = some .delivered ∧
    holds (exec (.impulseEnd 0) (impulsing (some .delivered) 0)) (fun t =>
      decide (t.clocks[(0 : ClockNo)].impulse.position = some 0)) = true ∧
    holds (exec (.impulseEnd 0) (impulsing (some .openLine) 2)) (fun t =>
      decide (t.clocks[(0 : ClockNo)].impulse.state = .faulted)) = true ∧
    holds (exec (.impulseMidpoint 0 .short) (impulsing none 0)) (fun t =>
      decide (t.clocks[(0 : ClockNo)].impulse.cycle = .rest)) = true := by decide +kernel

theorem test_rest_end : holds (exec (.impulseRestEnd 0)
      (setImpulse clocked 0 ⟨some 180, .minus, 0, .running, .rest, none, none, some 0⟩)) (fun t =>
      decide (t.clocks[(0 : ClockNo)].impulse.cycle = .none)) = true := by decide +kernel

theorem test_code_frame_premises : Active (beginCodes clocked (currentReading clocked)) ∧
    (beginCodes clocked (currentReading clocked)).clocks[(1 : ClockNo)].coded.sending = true ∧
    clocked.image.clocks[(1 : ClockNo)].kind = .coded ∧
    holds (exec (.codeFrameEnd 1) (beginCodes (beginCodes clocked (currentReading clocked))
      (currentReading clocked))) (fun t => t.clocks[(1 : ClockNo)].coded.sending) = true := by decide +kernel

/-- The first frame of C1 after so many bit times of 16 µs. -/
def sentFor (n : Nat) : State := let s := beginCodes clocked (currentReading clocked)
  setCoded s 1 { s.clocks[(1 : ClockNo)].coded with frameTicks := n }

/-- The drive pair follows the bits of 3Ah: start bit, its two lowest bits, its highest, stop bit; the frame ends after
4,167 bit times of 16 µs, the first that make 80 bits at 1200 baud. -/
theorem test_code_frame_on_the_line : [0, 53, 105, 468, 469].map (fun n => codeDrive (sentFor n) 1) =
      [some false, some false, some true, some false, some true] ∧
    codeDrive (sentFor 4166) 1 = some true ∧ codeDrive (sentFor 4167) 1 = none ∧ codeDrive clocked 1 = none ∧
    (tick (sentFor 7)).clocks[(1 : ClockNo)].coded.frameTicks = 8 ∧
    (tick clocked).clocks[(1 : ClockNo)].coded.frameTicks = 0 ∧
    (tick (sentFor 4165)).pending.contains (.codeFrameEnd 1) = false ∧
    (tick (sentFor 4166)).pending.contains (.codeFrameEnd 1) = true := by decide +kernel

theorem test_clock_command_premises : Active clocked ∧ Active (impulsing none 0) ∧
    clocked.image.clocks[(0 : ClockNo)].kind = .impulse ∧ clocked.image.clocks[(1 : ClockNo)].kind = .coded ∧
    clocked.image.clocks[(2 : ClockNo)].kind = .absent ∧
    clocked.clocks[(0 : ClockNo)].impulse.cycle ≠ .impulse ∧
    (impulsing none 0).clocks[(0 : ClockNo)].impulse.cycle = .impulse := by decide +kernel

/-- Z0 held by a NORMAL claim of slot 3, with a BELL claim of slot 1 waiting. -/
def waitingArb : Arbiter :=
  makeClaim (makeClaim Arbiter.initial 0 3 .normal .b fun r => decide (r = 0)) 0 1 .bell .a fun r => decide (r = 0)

theorem test_wait_ends : (withdrawFrom waitingArb 1 0).res[(0 : ResNo)] = ⟨some 3, []⟩ ∧
    statusOf (withdrawFrom waitingArb 1 0) 1 0 = .lost .withdrawn ∧ (withdrawFrom waitingArb 1 0).notices = [] ∧
    withdrawFrom waitingArb 1 1 = waitingArb ∧
    holds (exec (.waitDeadline 1) (withPlan.withArb waitingArb)) (fun t =>
      decide ((claimIn t.arb 1).map (·.passed) = some true) &&
      decide (statusOf t.arb 1 0 = .lost .expired)) = true := by decide +kernel

theorem test_arbiter_premises : (claimIn waitingArb 1).isSome = true ∧ waitingArb.res[(0 : ResNo)].waiting = [1] ∧
    waitingArb.res[(0 : ResNo)].holder = some 3 ∧ statusOf waitingArb 3 0 = .holding ∧
    statusOf waitingArb 1 1 = .notAsked ∧ Active (withPlan.withArb waitingArb) ∧
    ((claimIn waitingArb 1).bind (·.deadline)).isSome = true ∧
    (makeClaim waitingArb 0 4 .urgent .b fun r => decide (r = 0)).res[(0 : ResNo)].holder = some 4 := by decide +kernel

/-- The wait deadline of each level, from the count 7; a second claim of a slot withdraws the first. -/
theorem test_claims_by_level : [ClaimLevel.alarm, .urgent, .bell, .normal].map (fun l =>
      (claimIn (makeClaim Arbiter.initial 7 0 l .b fun r => decide (r = 2)) 0).map fun c => (c.deadline, c.bus)) =
    [some (none, .b), some (some 10007, .b), some (some 5007, .b), some (some 60007, .b)] ∧
    (makeClaim (makeClaim Arbiter.initial 7 3 .normal .a fun r => decide (r = 0)) 7 3 .normal .a
      fun r => decide (r = 1)).res[(0 : ResNo)].holder = none ∧
    (makeClaim (makeClaim Arbiter.initial 7 3 .normal .a fun r => decide (r = 0)) 7 3 .normal .a
      fun r => decide (r = 1)).slots[(3 : SlotNo)].number = 2 := by decide +kernel

/-- Z0 held by slot 3 with four waiters: bell 0, and the chimes of slots 4, 5 and 6 (6.7). -/
def fullArb : Arbiter :=
  [1, 4, 5, 6].foldl (fun a k => makeClaim a 0 k (if k = 1 then .bell else .normal) .a fun r => decide (r = 0))
    (makeClaim Arbiter.initial 0 3 .urgent .b fun r => decide (r = 0))

theorem test_eviction : fullArb.res[(0 : ResNo)].waiting = [1, 4, 5, 6] ∧
    (makeClaim fullArb 0 2 .bell .a fun r => decide (r = 0)).res[(0 : ResNo)].waiting = [1, 2, 4, 5] ∧
    statusOf (makeClaim fullArb 0 2 .bell .a fun r => decide (r = 0)) 2 0 = .waiting ∧
    (makeClaim fullArb 0 2 .normal .a fun r => decide (r = 0)).res[(0 : ResNo)].waiting = [1, 4, 5, 6] := by
  decide +kernel

/-- A NORMAL CHIME to every building and zone. -/
def chimePost : AnnPost := ⟨.chime .chime2 2, .normal, 0xFFFF, 0xFF⟩

/-- A NORMAL LIVE post with a limit of 120 s. -/
def livePost : AnnPost := ⟨.live 120, .normal, 0xFFFF, 0x03⟩

/-- The station after its panel has posted a CHIME. -/
def gatheringAnn : State := (announceTake chimePost synced).1

/-- The station after its panel has posted a LIVE announcement. -/
def gatheringLive : State := (announceTake livePost synced).1

theorem test_post_premises : Active synced ∧ synced.start.opState = .run ∧ synced.line.listenOnly = false ∧
    synced.time.quality ≠ .unset ∧ chimePost.buildings.getLsbD synced.start.station = true ∧
    synced.ann.table[(0 : TablePos)] = none ∧ HasRoom synced ∧
    (announceTake chimePost synced).2 = .done (.announcement 1 ⟨410, 29643000⟩) ∧
    gatheringAnn.ann.table[(0 : TablePos)].isSome = true ∧
    gatheringLive.ann.live = some ⟨⟨0, 1⟩, ⟨410, 29643000⟩, 120, 130000⟩ := by decide +kernel

theorem test_post_ranges : [0, 4].all (fun n =>
      decide ((announceTake { chimePost with kind := .chime .chime2 n } synced).2 = .bad .argument)) = true ∧
    [1, 3].all (fun n => decide ((announceTake { chimePost with kind := .chime .chime2 n } synced).2 =
      .done (.announcement 1 ⟨410, 29643000⟩))) = true ∧
    [0, 301].all (fun n =>
      decide ((announceTake { livePost with kind := .live n } synced).2 = .bad .argument)) = true ∧
    [1, 300].all (fun n => decide ((announceTake { livePost with kind := .live n } synced).2 =
      .done (.announcement 1 ⟨410, 29643000⟩))) = true := by decide +kernel

theorem test_post_allowed : NamesZone synced chimePost.zones ∧ DrillAllows synced .normal ∧
    PeriodAllows synced .normal ∧ LiveWins synced ⟨410, 29643000⟩ 0 :=
  ⟨⟨0, by decide +kernel, by decide⟩, trivial, Or.inl (by decide +kernel), nofun⟩

/-- The station holds the record and the entry of a LIVE announcement of peer 1 that starts later. -/
def peerLater : State := (takeAnnouncement (synced.withAnn { synced.ann with
  live := some ⟨⟨1, 9⟩, ⟨410, 29645000⟩, 120, 0⟩ }) ⟨⟨1, 9⟩, ⟨410, 29645000⟩, livePost⟩)

theorem test_post_takes : LiveWins peerLater ⟨410, 29643000⟩ 0 ∧
    holds (exec (.announce livePost) peerLater) (fun t => decide ((t.ann.table[(0 : TablePos)]).map (·.id) = some ⟨0, 1⟩) &&
      decide (t.ann.live.map (·.id) = some ⟨0, 1⟩) && decide (t.faults.banks[bankIndex .audio].code = 3)) = true := by
  refine ⟨?_, by decide +kernel⟩
  intro r h
  have : peerLater.ann.live = some ⟨⟨1, 9⟩, ⟨410, 29645000⟩, 120, 0⟩ := by decide +kernel
  rw [this] at h
  cases h
  decide

theorem test_post_loses : ¬ LiveWins gatheringLive (campusAdd gatheringLive.time.campus 3000) 0 := by
  intro h
  have := h ⟨⟨0, 1⟩, ⟨410, 29643000⟩, 120, 130000⟩ (by decide +kernel)
  exact absurd this (by decide +kernel)

/-- An ANNOUNCE payload with start time D410 08:14:05. -/
def announceBytes (p : AnnPost) : List Byte := payloadBytes (.announce ⟨9, ⟨410, 29645000⟩, p⟩)

theorem test_announce_frame_premises : announceOf (announceBytes livePost) = some ⟨9, ⟨410, 29645000⟩, livePost⟩ ∧
    lengthAllowed .announce (announceBytes livePost) = true ∧ Active withPeer ∧
    (1 : StationNo) ≠ withPeer.start.station ∧ withPeer.line.roster[(1 : StationNo)].present = true ∧
    campusDiff withPeer.time.campus ⟨410, 29645000⟩ < 0 ∧
    holds (exec (.announceFrame 1 (announceBytes livePost)) withPeer)
      (fun t => t.ann.table[(0 : TablePos)].isSome) = true ∧
    holds (exec (.announceFrame 1 (announceBytes chimePost)) withPeer)
      (fun t => t.ann.table[(0 : TablePos)].isSome) = true := by decide +kernel

/-- The same of a peer that becomes present with the frame. -/
theorem test_announce_of_a_new_peer : Active synced ∧ synced.line.roster[(1 : StationNo)].present = false ∧
    [livePost, chimePost].all (fun p => holds (exec (.announceFrame 1 (announceBytes p)) synced)
      (fun t => t.ann.table[(0 : TablePos)].isSome)) = true := by decide +kernel

/-- The table is full of CHIMEs, under this live record. -/
def fullTable (live : Option LiveRecord) : State :=
  let s := (List.range 4).foldl (fun s n =>
    takeAnnouncement s ⟨⟨2, BitVec.ofNat 8 n⟩, ⟨410, 29643000⟩, chimePost⟩) withPeer
  s.withAnn { s.ann with live := live }

/-- The full table under the record of an earlier LIVE announcement. -/
def lostTable : State := fullTable (some ⟨⟨2, 7⟩, ⟨410, 29643000⟩, 120, 9⟩)

theorem test_full_table_meets_live : (∀ i : TablePos, (fullTable none).ann.table[i].isSome = true) ∧
    Active (fullTable none) ∧
    holds (exec (.announceFrame 1 (announceBytes livePost)) (fullTable none)) (fun t =>
      decide (t.ann.live.map (·.id) = some ⟨1, 9⟩) && decide (t.ann.table = (fullTable none).ann.table) &&
      decide (t.faults = (report (fullTable none) (.announcementTableFull ⟨1, 9⟩)).faults)) = true ∧
    holds (exec (.announceFrame 1 (announceBytes livePost)) lostTable) (fun t =>
      decide (t.ann = lostTable.ann) &&
      decide (t.faults = (report lostTable (.announcementTableFull ⟨1, 9⟩)).faults)) = true := by decide +kernel

/-- Peer 1's announcement should have started a second ago. -/
def startPassed (s : State) : State := s.withTime { s.time with campus := ⟨410, 29646000⟩ }

theorem test_started_at_once : [livePost, chimePost].all (fun p =>
      holds (exec (.announceFrame 1 (announceBytes p)) (startPassed withPeer)) (fun t =>
        decide ((t.ann.table[(0 : TablePos)]).map (·.state) = some .playing))) = true ∧
    campusDiff (startPassed withPeer).time.campus ⟨410, 29645000⟩ = 1000 ∧
    (startPassed withPeer).time.quality ≠ .unset := by decide +kernel

/-- An UNSET station whose invalid campus time is past the start gathers until its LOCAL trigger (log 72). -/
theorem test_unset_entry_gathers : let s := (startPassed withPeer).withTime { withPeer.time with
      quality := .unset
      campus := ⟨410, 29646000⟩ }
    Active s ∧ holds (exec (.announceFrame 1 (announceBytes chimePost)) s) (fun t =>
      decide ((t.ann.table[(0 : TablePos)]).map (fun e => (e.state, e.trigger)) =
        some (.gathering, .localAt (s.time.localCount + 3000#32)))) = true := by decide +kernel

/-- The station holds the record of an own LIVE entry that starts later. -/
def laterLive : State := (announceTake livePost
  (withPeer.withTime { withPeer.time with campus := ⟨410, 29650000⟩ })).1

theorem test_live_precedence : holds (exec (.announceFrame 1 (announceBytes { livePost with buildings := 2 })) laterLive)
    (fun t => decide (t.ann.table[(0 : TablePos)] = none) && decide (t.ann.lastOwn.map (·.outcome) = some .cancelled) &&
      decide (t.ann.live.map (·.id) = some ⟨1, 9⟩) &&
      decide (Queued t.line (.annend 1 ⟨410, 29653000⟩)) && decide (t.faults.banks[bankIndex .audio].code = 3)) = true ∧
    holds (exec (.announceFrame 1 (announceBytes livePost)) laterLive) (fun t =>
      decide ((t.ann.table[(0 : TablePos)]).map (·.id) = some ⟨1, 9⟩) &&
        decide (t.ann.lastOwn.map (·.outcome) = some .cancelled)) = true ∧
    laterLive.start.opState = .run ∧ HasRoom laterLive ∧ campusDiff laterLive.time.campus ⟨410, 29655000⟩ < 0 := by
  decide +kernel

/-- The record is that of the table's one LIVE entry. -/
theorem test_live_table : AnnOk laterLive.ann := by
  refine ⟨?_, ?_⟩
  · intro i e h l
    have : ∀ i : TablePos, ((laterLive.ann.table[i]).all fun e => !isLive e.kind || isLiveRecord laterLive.ann e.id e.start)
        = true := by decide +kernel
    have k := this i
    rw [h] at k
    simpa [l] using k
  · intro i j d e h g l m
    have : ∀ i j : TablePos, ((laterLive.ann.table[i]).all fun d => (laterLive.ann.table[j]).all fun e =>
        !isLive d.kind || !isLive e.kind || decide (i = j)) = true := by decide +kernel
    have k := this i j
    rw [h] at k
    simp only [Option.all_some, g, l, m, Bool.not_true, Bool.false_or, decide_eq_true_eq] at k
    exact k

theorem test_announce_end_premises : Active gatheringLive ∧
    (gatheringLive.ann.table[(0 : TablePos)].map (·.id)) = some ⟨gatheringLive.start.station, 1⟩ ∧ HasRoom gatheringLive ∧
    holds (exec (.announceEnd 1) gatheringLive) (fun t => decide (t.ann.table[(0 : TablePos)] = none) &&
      decide (t.ann.live = none) && decide (t.ann.lastOwn.map (·.outcome) = some .ended)) = true ∧
    holds (exec .liveRecordExpiry gatheringLive) (fun t => decide (t.ann.live = gatheringLive.ann.live)) = true ∧
    holds (exec .liveRecordExpiry (synced.withAnn { synced.ann with live := gatheringLive.ann.live })) (fun t =>
      decide (t.ann.live = none)) = true ∧
    holds (exec .endAllOrder gatheringAnn) (fun t => decide (t.ann.lastOwn.map (·.outcome) = some .preempted)) = true ∧
    holds (exec (.announceEnd 1) (endAllEntries gatheringAnn)) (fun t => decide (t.port.answer = some (.done .nothing))) =
      true := by decide +kernel

/-- The station gathers LIVE (1, 9) of its peer 1. -/
def peerLive : State := (takeAnnouncement (withPeer.withAnn { withPeer.ann with
  live := some ⟨⟨1, 9⟩, ⟨410, 29645000⟩, 120, 0⟩ }) ⟨⟨1, 9⟩, ⟨410, 29645000⟩, livePost⟩)

theorem test_annend_premises : Active peerLive ∧ peerLive.line.roster[(1 : StationNo)].present = true ∧
    annendOf (payloadBytes (.annend 9 ⟨410, 29645000⟩)) = some (9, ⟨410, 29645000⟩) ∧
    lengthAllowed .annend (payloadBytes (.annend 9 ⟨410, 29645000⟩)) = true ∧
    (peerLive.ann.table[(0 : TablePos)].map (·.id)) = some ⟨1, 9⟩ ∧
    holds (exec (.annend 1 (payloadBytes (.annend 9 ⟨410, 29645000⟩))) peerLive) (fun t =>
      decide (t.ann.table[(0 : TablePos)] = none) && decide (t.ann.live = none)) = true := by decide +kernel

/-- The station plays its CHIME, and its LIVE announcement. -/
def playingAnn (s : State) : State := startEntry s 0

theorem test_start_premises : Active gatheringAnn ∧
    (gatheringAnn.ann.table[(0 : TablePos)].map fun e => (e.state, e.known[zoneRes 0], e.known[synRes])) =
      some (.gathering, .holds, .holds) ∧ ((playingAnn gatheringAnn).ann.table[(0 : TablePos)].map (·.state)) = some .playing ∧
    ((playingAnn gatheringLive).ann.table[(0 : TablePos)].bind (·.deadline)) = some 60000 ∧
    ((playingAnn gatheringLive).ann.table[(0 : TablePos)].map (·.kind)) = some (.live 60) ∧
    zoneGate (playingAnn gatheringLive) 0 = true ∧ busSelect (playingAnn gatheringLive) 0 = .b ∧
    (playingAnn gatheringAnn).synth.program = some (.chime .chime2) ∧
    (playingAnn (gatheringAnn.withDrill { gatheringAnn.drill with state := .assemble })).ann.table[(0 : TablePos)] =
      none := by decide +kernel

/-- Every zone is held by the drill: a CHIME of that moment waits for everything. -/
def waitingAnn : State := takeAnnouncement (drillClaim synced .alarm) ⟨⟨0, 1⟩, ⟨410, 29643000⟩, chimePost⟩

theorem test_start_without_zones : (waitingAnn.ann.table[(0 : TablePos)].map fun e => (e.state, e.known[zoneRes 0])) =
    some (.gathering, .waits) ∧ ((playingAnn waitingAnn).ann.lastOwn.map (·.outcome)) = some .zonesUnavailable ∧
    (playingAnn waitingAnn).faults.banks[bankIndex .audio] =
      ⟨true, false, false, 2, some (.announcement ⟨0, 1⟩), some ⟨410, 29640000⟩, 1⟩ ∧
    Pending (playingAnn waitingAnn) .announceEnded ∧ Taking waitingAnn ∧
    faultEnabled waitingAnn.image (.zonesUnavailable ⟨0, 1⟩) = true := by decide +kernel

/-- The waits of the CHIME have run out at their deadline. -/
def expiredAnn : State := withArbiter waitingAnn (expireWaits waitingAnn.arb (annSlot 0))

theorem test_loss_without_zones : Active expiredAnn ∧
    (firstNotice expiredAnn.arb (annSlot 0)).map (·.kind) = some .expired ∧
    holds ((List.range 8).foldl (fun o _ => match o with
      | .next t => exec (.announceClaimNotice 0) t
      | x => x) (exec (.announceClaimNotice 0) expiredAnn)) (fun t =>
      decide (t.faults.banks[bankIndex .audio].code = 2) && decide (t.ann.table[(0 : TablePos)] = none) &&
      decide (t.faults.banks[bankIndex .audio].detail = some (.announcement ⟨0, 1⟩))) = true := by decide +kernel

/-- The drill has taken the zones and SYN from the playing CHIME. -/
def preemptedAnn : State := drillClaim (playingAnn gatheringAnn) .alarm

theorem test_end_premises : Active (playingAnn gatheringLive) ∧
    holds (exec (.endDeadline 0) (playingAnn gatheringLive)) (fun t =>
      decide (t.ann.lastOwn.map (·.outcome) = some .limit)) = true ∧
    holds (exec (.chimeComplete 0) (playingAnn gatheringAnn)) (fun t =>
      decide (t.ann.lastOwn.map (·.outcome) = some .completed)) = true := by decide +kernel

/-- The drill has withdrawn its claim: every zone and SYN pass to the waiting CHIME, with GRANTED notices. -/
def grantedAnn : State := dropDrillClaim waitingAnn

/-- The same notices, to an entry that has started meanwhile and withdrawn its waits. -/
def forgottenAnn : State := grantedAnn.withAnn { grantedAnn.ann with
  table := grantedAnn.ann.table.set 0 ((grantedAnn.ann.table[(0 : TablePos)]).map fun e =>
    { e with known := (withoutWaits e.known).set (zoneRes 7) .holds |>.set synRes .holds }) }

theorem test_granted_entry : Active grantedAnn ∧
    (firstNotice grantedAnn.arb (annSlot 0)).map (fun n => (n.kind, n.res)) = some (.granted, 0) ∧
    (claimIn grantedAnn.arb (annSlot 0)).isSome = true ∧
    holds (exec (.announceClaimNotice 0) grantedAnn) (fun t =>
      decide ((t.ann.table[(0 : TablePos)]).map (fun e => (e.known[zoneRes 0], e.known[zoneRes 1])) =
        some (.holds, .waits))) = true ∧
    holds (exec (.announceClaimNotice 0) forgottenAnn) (fun t =>
      decide ((t.ann.table[(0 : TablePos)]).map (fun e => e.known[zoneRes 0]) = some .nothing)) = true := by
  decide +kernel

theorem test_loss_premises : Active preemptedAnn ∧
    (firstNotice preemptedAnn.arb (annSlot 0)).map (·.kind) = some .preempted ∧
    (claimIn preemptedAnn.arb (annSlot 0)).isSome = true ∧
    holds (exec (.announceClaimNotice 0) preemptedAnn) (fun t => t.ann.table[(0 : TablePos)].isSome) = true ∧
    holds ((List.range 8).foldl (fun o _ => match o with
      | .next t => exec (.announceClaimNotice 0) t
      | x => x) (exec (.announceClaimNotice 0) preemptedAnn)) (fun t =>
      decide (t.ann.lastOwn.map (·.outcome) = some .preempted)) = true := by decide +kernel

/-- The station runs a PRACTICE drill, in EVACUATE. -/
def practising : State := beginDrill synced .practice

/-- The station runs a REAL drill, in EVACUATE. -/
def alarmed : State := beginDrill withPeer .real

theorem test_begin_premises : Active synced ∧ synced.drill.state = .idle ∧ HasRoom synced ∧
    quietKind (effectiveKind synced.plan (currentReading synced)) = false ∧ Active practising ∧
    practising.drill.state ≠ .idle ∧ State.reset.start.opState = .start ∧ alive State.reset = true ∧
    practising.arb.res[synRes].holder = some drillSlot ∧ zoneGate practising 3 = true ∧
    practising.synth.program = some .evacuation := by decide +kernel

/-- A plan whose every day is CLOSED: its one program's default kind. -/
def closedPlan : State := synced.withPlan { synced.plan with active := some (planOf ⟨3, 0⟩
    [[0x00, 7, 0x10, 0, 0, 0, 30, 10, 0, 180, 7, 8], [0x10, 0, 0, 0, 0, 0, 0, 0, 0], [0x20, 0x40], [0x21, 0],
      [0x22, 0], [0x23, 0], overridesBytes []]) }

theorem test_closed_period : Active closedPlan ∧ closedPlan.drill.state = .idle ∧
    quietKind (effectiveKind closedPlan.plan (currentReading closedPlan)) = true ∧
    holds (exec (.drillStart false) closedPlan)
      (fun t => decide (t = answered closedPlan (.refused .period))) = true := by decide +kernel

theorem test_alarm_claim : ∃ s : State, s.drill.state = .evacuate ∧ (beginDrill s .real).arb = s.arb :=
  ⟨practising, by decide +kernel, by decide +kernel⟩

/-- A station that ended a PRACTICE and waits to offer its second END copy. -/
def copying : State :=
  let t := finishDrill practising .endedEarly true
  t.withDrill { t.drill with copies := t.drill.copies.map fun c => { c with nextAt := some 0 } }

theorem test_contact_in_start : State.reset.start.opState = .start ∧ State.reset.store.state = .reading .image ∧
    alive State.reset = true ∧ (State.reset.withStore ⟨.reading .plan, false⟩).store.state ≠ .reading .image ∧
    holds (exec .faActivation State.reset) (fun t => decide (t.pins = State.reset.pins) && t.start.faLatched) = true := by
  decide +kernel

theorem test_contact_premises : Active synced ∧ synced.start.opState = .run ∧ joining.start.opState = .join ∧
    Active joining ∧ joining.drill.state = .idle ∧ alarmed.drill.state ≠ .idle ∧
    (alarmed.drill.record.map (·.kind)) = some .real ∧ (practising.drill.record.map (·.kind)) = some .practice ∧
    holds (exec .faActivation joining) (fun t => decide (t.start.opState = .run)) = true ∧
    holds (exec .faActivation practising) (fun t => decide (t.drill.last.bind (·.outcome) = some .alarmOverride) &&
      decide (t.drill.record.map (·.kind) = some .real)) = true ∧
    holds (exec .faActivation (beginDrill joining .practice)) (fun t => decide (t.start.opState = .run) &&
      decide (t.drill.record.map (·.kind) = some .real) && decide (Pending t .drillChange)) = true ∧
    holds (exec .faActivation (beginDrill joining .real)) (fun t => decide (t.start.opState = .join)) = true := by
  decide +kernel

theorem test_copy_premises : Active copying ∧ HasRoom copying ∧ copying.drill.copies.map (·.nextAt) = [some 0] ∧
    copying.drill.copies.length = 1 ∧ holds (exec .endCopy copying) (fun t =>
      decide (t.drill.copies.map (·.offered) = [2])) = true ∧
    ((claimIn (allClearClaim synced).arb drillSlot).map (·.level)) = some .urgent := by decide +kernel

/-- The PRACTICE in ASSEMBLE. -/
def assembling : State := (signalStopTake practising).1

/-- The PRACTICE in ALL-CLEAR. -/
def allClear : State := (buildingClearTake assembling).1

theorem test_phase_premises : Active practising ∧ (practising.drill.record.map (ownClear practising)) = some none ∧
    practising.drill.state = .evacuate ∧ assembling.drill.state = .assemble ∧ Active assembling ∧
    HasRoom practising ∧ HasRoom assembling ∧ allClear.drill.state = .allClear ∧ Active allClear ∧
    (allClear.drill.record.map (ownClear allClear)) = some (some 0) ∧
    assembling.drill.record.bind (·.stop) = some ⟨410, 29640000⟩ ∧
    ((claimIn allClear.arb drillSlot).map (·.level)) = some .urgent ∧
    allClear.arb.res[synRes].holder = some drillSlot ∧ allClear.arb.res[(0 : ResNo)].holder = some drillSlot ∧
    holds (exec .buildingClear { assembling with arb := ([3, 4, 5, 6].foldl (fun a k =>
      makeClaim a 0 k .urgent .a fun r => decide (r = 8)) (makeClaim Arbiter.initial 0 1 .urgent .a fun r =>
        decide (r = 8))) }) (fun t => decide (t.drill.state = .allClear) && decide (claimIn t.arb drillSlot = none)) =
      true := by decide +kernel

theorem test_clear_in_evacuate : holds (exec .signalStop (buildingClearTake practising).1)
    (fun t => decide (t.drill.state = .allClear)) = true ∧
    ((buildingClearTake practising).1.drill.record.map (ownClear practising)) = some (some 0) ∧
    (buildingClearTake practising).1.drill.state = .evacuate := by decide +kernel

theorem test_limits_of_a_practice :
    let later := fun (s : State) (campus count : Nat) => s.withTime { s.time with
      campus := campusAdd s.time.campus campus, localCount := BitVec.ofNat 32 count }
    let on := fun (s : State) (p : State → DrillRecord → Bool) => s.drill.record.map (p s)
    on practising (fun _ r => decide (r.evacLimit = 180) && decide (r.assembleLimit = 1800)) = some true ∧
    on (later practising 179999 180000) evacuationReached = some false ∧
    on (later practising 180000 0) evacuationReached = some true ∧
    on (later assembling 1799999 1800000) assembleReached = some false ∧
    on (later assembling 1800000 0) assembleReached = some true ∧
    on (later assembling 0 1800000) (fun s r => assembleReached s { r with stop := none }) = some true ∧
    on (later allClear 0 119999) allClearReached = some false ∧
    on (later allClear 0 120000) allClearReached = some true := by decide +kernel

/-- The END frame of the alarm of `alarmed`. -/
def endBytes (s : State) : List Byte :=
  match s.drill.record with
  | some r => payloadBytes (.drillEnd r.id r.start .reset true)
  | none => []

theorem test_end_of_drill_premises : Active alarmed ∧ alarmed.drill.state ≠ .idle ∧
    alarmed.line.roster[(1 : StationNo)].present = true ∧
    lengthAllowed .drill (drillPayload 1 (endBytes alarmed)) = true ∧ (endFrameOf (endBytes alarmed)).isSome = true ∧
    ownFaFlag alarmed = false ∧ holds (exec .alarmReset alarmed) (fun t => decide (t.drill.state = .idle)) = true ∧
    holds (exec (.endFrame 1 (endBytes alarmed)) alarmed) (fun t => decide (t.drill.ended.length = 1)) = true ∧
    holds (exec (.endFrame 1 (endBytes alarmed)) (faLevel alarmed true)) (fun t =>
      decide (t.drill.record.map (·.id) = some ⟨0, 2⟩)) = true ∧
    faultEnabled alarmed.image (.assembleTimedOut 0) = true ∧ Taking alarmed := by decide +kernel

theorem test_endings : holds (exec .assembleDeadline assembling) (fun t =>
      decide (t.drill.last.bind (·.outcome) = some .timedOut) &&
        decide (t.faults.banks[bankIndex .drill].detail = some (.number 1))) = true ∧
    holds (exec .endOfAllClear allClear) (fun t => decide (t.drill.last.bind (·.outcome) = some .complete)) = true ∧
    holds (exec .drillEnd practising) (fun t => decide (t.drill.ended.length = 1) &&
      decide (t.drill.copies.map (·.offered) = [1])) = true ∧
    holds (exec .alarmReset (faLevel alarmed true)) (fun t => decide (t.port.answer = some (.refused .faActive))) = true := by
  decide +kernel

/-- A state frame of drill (1, 7), which began an hour before. -/
def stateFrame (assemble : Bool) (cleared : Option Nat) : List Byte :=
  payloadBytes (.drillState ⟨⟨1, 7⟩, ⟨410, 26040000⟩, true, .practice, assemble, cleared, false, some ⟨410, 26100000⟩⟩)

/-- What a frame makes of a station's drill: its state and its id. -/
def drillAfter (s : State) (payload : List Byte) : Option (DrillState × Option Id) :=
  match exec (.drillStateFrame 1 payload) s with
  | .next t => some (t.drill.state, t.drill.record.map (·.id))
  | _ => none

/-- The station with peer 1 after it has adopted (1, 7). -/
def adopted : State := (takeDrill withPeer 1
  ⟨⟨1, 7⟩, ⟨410, 26040000⟩, true, .practice, false, none, false, none⟩)

theorem test_drill_frame_premises : lengthAllowed .drill (drillPayload 0 (stateFrame true (some 5))) = true ∧
    (drillStateFrameOf (stateFrame true (some 5))).isSome = true ∧ Active withPeer ∧ withPeer.drill.state = .idle ∧
    adopted.drill.state = .evacuate ∧ Active adopted ∧ adopted.line.roster[(1 : StationNo)].present = true := by
  decide +kernel

theorem test_drill_frames : drillAfter withPeer (stateFrame false none) = some (.evacuate, some ⟨1, 7⟩) ∧
    drillAfter adopted (stateFrame true (some 5)) = some (.assemble, some ⟨1, 7⟩) ∧
    drillAfter alarmed (stateFrame true none) = some (.evacuate, some ⟨0, 1⟩) ∧
    drillAfter (beginDrill withPeer .practice) (stateFrame true none) = some (.assemble, some ⟨1, 7⟩) ∧
    drillAfter (finishDrill adopted .complete false) (stateFrame true none) = some (.idle, none) := by decide +kernel

/-- The stop time that a station's record holds after a frame. -/
def stopAfter (s : State) (payload : List Byte) : Option CampusTime :=
  match exec (.drillStateFrame 1 payload) s with
  | .next t => t.drill.record.bind (·.stop)
  | _ => none

/-- The station in the drill (1, 7), with this stop time. -/
def adoptedWith (state : DrillState) (stop : Option CampusTime) : State :=
  adopted.withDrill { adopted.drill with
    state := state
    record := adopted.drill.record.map fun r => { r with stop := stop } }

theorem test_stop_times : stopAfter (adoptedWith .evacuate none) (stateFrame false none) = some ⟨410, 26100000⟩ ∧
    stopAfter (adoptedWith .evacuate (some ⟨410, 26200000⟩)) (stateFrame false none) = some ⟨410, 26200000⟩ ∧
    stopAfter (adoptedWith .assemble none) (stateFrame false none) = some ⟨410, 26100000⟩ ∧
    stopAfter (adoptedWith .assemble (some ⟨410, 26200000⟩)) (stateFrame true none) = some ⟨410, 26100000⟩ ∧
    stopAfter (adoptedWith .assemble (some ⟨410, 26200000⟩)) (stateFrame false none) = some ⟨410, 26200000⟩ ∧
    stopAfter (adoptedWith .assemble (some ⟨410, 26050000⟩)) (stateFrame true none) = some ⟨410, 26050000⟩ ∧
    drillAfter (adoptedWith .evacuate none) (stateFrame false none) = some (.evacuate, some ⟨1, 7⟩) := by decide +kernel

theorem test_drill_orders :
    holds (exec (.drillStateFrame 1 (stateFrame false none)) withPeer) (fun t =>
      decide ((claimIn t.arb drillSlot).map (·.level) = some .alarm) &&
      decide (t.arb.res[synRes].holder = some drillSlot)) = true ∧
    holds (exec (.drillStateFrame 1 (stateFrame true none)) (beginDrill withPeer .practice)) (fun t =>
      decide (claimIn t.arb drillSlot = none) && decide (t.arb.res[synRes].holder = none)) = true ∧
    holds (exec (.drillStateFrame 1 (stateFrame false none)) (beginDrill withPeer .practice)) (fun t =>
      decide (t.arb = (beginDrill withPeer .practice).arb) && decide (t.drill.record.map (·.id) = some ⟨1, 7⟩)) = true :=
  by decide +kernel

/-- A station whose OUTPUT bank holds a corrected record, and then an uncorrected one. -/
def faulty : State := report synced (.ringMerged 2)

theorem test_fault_premises : Taking synced ∧ faultEnabled synced.image (.ringMerged 2) = true ∧
    faultUncorrected (.ringMerged 2) = false ∧ faultUncorrected (.clockCircuitFaulted 1) = true ∧
    synced.faults.banks[bankIndex .output].valid = false ∧ faulty.faults.banks[bankIndex .output].valid = true ∧
    faulty.faults.banks[bankIndex .output].uncorrected = false ∧
    (report faulty (.clockCircuitFaulted 1)).faults.banks[bankIndex .output] =
      ⟨true, true, true, 5, some (.number 1), some ⟨410, 29640000⟩, 1⟩ ∧ Pending faulty .faultRecorded ∧
    State.reset.faults.taking = false := by decide +kernel

/-- A station in a drill with a plan, a fault on record and a BEACON sent at 08:13:59. -/
def reporting : State := let s := report (beginDrill withPlan .practice) (.ringMerged 2)
  s.withTime { s.time with lastBeacon := some ⟨5, some ⟨0, some ⟨410, 29639000⟩⟩⟩ }

theorem test_beacon_content : Running reporting ∧ HasRoom reporting ∧
    holds (exec .beaconTimer reporting) (fun t => t.line.queue.any fun e => match e.body with
      | .beacon c => decide (c = ⟨1, 5, some ⟨410, 29639000⟩, 0, .synced, none, some (smallPlan.key, smallPlan.digest),
          ⟨8, 0⟩, some ⟨⟨0, 1⟩, ⟨410, 29640000⟩, .practice, .evacuate⟩⟩)
      | _ => false) = true := by decide +kernel

theorem test_faults_ok : FaultsOk synced.faults ∧ FaultsOk faulty.faults :=
  ⟨fun i => by refine ⟨?_, ?_⟩ <;> revert i <;> decide +kernel,
    fun i => by refine ⟨?_, ?_⟩ <;> revert i <;> decide +kernel⟩

theorem test_station_reads : Active faulty ∧ Active withPeer ∧ (1 : StationNo) ≠ withPeer.start.station ∧
    holds (exec (.clearBank 3) faulty) (fun t => decide (t.faults.banks[bankIndex .output] = Bank.empty) &&
      decide (Pending t .faultRecorded)) = true ∧
    holds (exec .readNotices (raise faulty .alarmChange)) (fun t =>
      decide (t.port.answer = some (.done (.notices [.alarmChange, .faultRecorded])))) = true := by decide +kernel

theorem test_image_ok : ImageOk faulty.image := by
  refine ⟨by decide, by decide, by decide, by decide, by decide, by decide, fun k => by cases k <;> decide, ?_⟩
  decide

/-- The request READ STATUS, and one whose check byte is wrong. -/
def statusRequest : List Byte := [2, 22, 0xE8]

/-- A request with this code and these arguments, its length and its check. -/
def request (code : Byte) (args : List Byte) : List Byte :=
  let front : List Byte := BitVec.ofNat 8 (args.length + 2) :: code :: args
  front ++ [0 - front.foldl (· + ·) 0]

theorem test_request_lengths : checkRequest (request 4 (List.replicate 44 7)) = .valid (.loadFragment 7
      (List.replicate 43 7)) ∧ (request 4 (List.replicate 44 7)).head? = some 46 ∧
    checkRequest (request 4 (List.replicate 45 7)) = .bad .length ∧
    (request 4 (List.replicate 45 7)).head? = some 47 ∧ checkRequest (request 22 []) = .valid .readStatus ∧
    checkRequest [1, 0xFF] = .bad .length ∧ checkRequest (request 4 [7]) = .bad .length ∧
    checkRequest (request 4 [7, 9]) = .valid (.loadFragment 7 [9]) := by decide +kernel

theorem test_port_premises : alive synced = true ∧ synced.start.opState ≠ .halt ∧
    checkRequest statusRequest = .valid .readStatus ∧ checkRequest [2, 22, 0xE9] = .bad .check ∧
    checkRequest [2, 28, 0xE2] = .bad .command ∧ checkRequest [3, 22, 0, 0xE7] = .bad .length ∧
    checkRequest [3, 16, 2, 0xEB] = .bad .argument ∧ checkRequest [3, 24, 5, 0xE0] = .valid (.readBank 5) ∧
    checkRequest [3, 24, 6, 0xDF] = .bad .argument ∧ checkRequest [5, 9, 5, 4, 9, 0xE0] = .valid (.readPlanItem (.bell 4 9)) ∧
    checkRequest [5, 9, 5, 5, 9, 0xDF] = .bad .argument ∧
    checkRequest [8, 14, 3, 0, 120, 0x80, 1, 7, 0xE7] =
      .valid (.announce ⟨.live 120, .normal, 0x8001, 7⟩) ∧
    checkRequest [6, 11, 2, 0xFF, 0xFF, 1, 0xEE] = .valid (.dialSet 2 none .minus) ∧
    holds (exec (.panelRequest statusRequest) synced) (fun t => decide (t.port.dispatched = some .readStatus) &&
      decide (t.port.buffer = .pending)) = true ∧
    holds (exec (.panelRequest statusRequest) State.reset) (fun t => decide (t.port.buffer = .ready .busy)) = true := by
  decide +kernel

theorem test_response_bytes : responseBytes .busy = [2, 2, 0xFC] ∧ responseBytes (.done .nothing) = [2, 1, 0xFD] ∧
    responseBytes (.bad .argument) = [3, 4, 4, 0xF5] ∧ responseBytes (.refused .faActive) = [3, 3, 27, 0xDF] ∧
    responseBytes (.refused (.validation .fragments)) = [3, 3, 11, 0xEF] ∧
    responseBytes (.done (.set (some (⟨258, 3⟩, -2)))) =
      [11, 1, 1, 2, 3, 0xFF, 0xFF, 0xFF, 0xFF, 0xFF, 0xFE, 0xF5] ∧
    responseBytes (.done (.announcement 9 ⟨258, 0x01020304⟩)) = [9, 1, 9, 1, 2, 1, 2, 3, 4, 0xE0] ∧
    responseBytes (.done (.set none)) = [2, 1, 0xFD] ∧
    ((doneBytes (.status (statusSet alarmed))).drop 20).take 10 = [0, 1, 1, 0x9A, 1, 0xC4, 0x45, 0x40, 1, 1] ∧
    ((doneBytes (.status (statusSet synced))).drop 20).take 10 = [0xFF, 0, 0, 0, 0xFF, 0xFF, 0xFF, 0xFF, 0, 0] := by
  decide +kernel

/-- Outcomes of commands one after the other. -/
def after (s : State) (l : List Instr) : State :=
  l.foldl (fun s i => match exec i s with
    | .next t => t
    | _ => s) s

theorem test_request_in_two_rows :
    (after synced [.panelRequest [2, 22], .transactionEnd [0xE8]]).port.dispatched = some .readStatus ∧
    (after synced [.panelRequest [2, 22], .transactionEnd [0xE8]]).port.transaction = none ∧
    (after synced [.panelRequest [2, 22], .transactionEnd [0xE9, 1]]).port.buffer = .ready (.bad .check) ∧
    (after synced [.panelRequest [2, 22], .transactionEnd []]).port = synced.port ∧
    (after synced [.panelRequest [2], .transactionEnd [22]]).port = synced.port ∧
    (after synced [.panelRequest [2, 22]]).port.transaction = some ⟨.empty, false, 0, [2, 22], [0, 0]⟩ := by
  decide +kernel

theorem test_exchange : (after synced [.panelRequest statusRequest,   .panelRequest [1, 0], .transactionEnd [],
      .readStatus, .ownerAnswer]).port.buffer = .ready (.bad .length) ∧
    (after synced [.panelRequest statusRequest, .transactionEnd [], .restart, .ownerAnswer]).port.state = .idle ∧
    (after synced [.panelRequest [2, 20, 0xEA], .transactionEnd [], .alarmReset, .ownerAnswer, .fetch 4]).port.transaction.map
      (·.shifted) = some [3, 3, 23, 0xE3] ∧
    (after synced [.panelRequest [2, 20, 0xEA], .transactionEnd [], .alarmReset, .ownerAnswer, .fetch 4]).port.buffer =
      .empty ∧ (enterHalt synced).start.opState = .halt ∧ alive (enterHalt synced) = true ∧
    (after synced [.panelRequest statusRequest]).port.transaction.isSome = true ∧
    (after synced [.panelRequest [2, 20, 0xEA], .transactionEnd [], .alarmReset, .ownerAnswer, .fetch 2,
      .transactionEnd [0]]).port.buffer = .ready (.refused .noDrill) ∧
    (after synced [.panelRequest [2, 20, 0xEA], .transactionEnd [], .alarmReset, .ownerAnswer, .fetch 2,
      .transactionEnd [0, 0]]).port.buffer = .empty := by decide +kernel

theorem test_supply_premises : State.reset.start.resetHeld = false ∧ (heldInReset synced).start.resetHeld = true ∧
    (heldInReset synced).start.powered = true ∧ alive synced = true ∧ synced.start.opState ≠ .halt ∧
    working synced = true ∧ synced.port.held = none ∧ joining.start.opState = .join ∧ HasRoom joining ∧
    (enterHalt synced).store.state = .idle ∧ State.reset.start.opState = .start ∧ alive State.reset = true ∧
    (heldInReset (synced.withStart { synced.start with powered := false })).start.powered = false := by
  decide +kernel

/-- A station in HALT whose dials are being written. -/
def writingDials : State := enterHalt ((dialAt clocked (some 300)).withStart { clocked.start with dialRestored := true })

/-- A station in JOIN whose timer has expired while a RESTART came first. -/
def restartedJoining : State := after (joining.withStart { joining.start with joinDeadline := some joining.time.localCount })
  [.restart]

theorem test_overtaken_join : restartedJoining.start.opState = .join ∧ alive restartedJoining = true ∧
    restartedJoining.start.joinOvertaken = true ∧ joining.start.joinOvertaken = false ∧
    deadlineReached restartedJoining.time.localCount restartedJoining.start.joinDeadline = false ∧
    holds (exec .joinTimer restartedJoining) (fun t => decide (t.start.opState = .join)) = true ∧
    (after synced [.panelRequest [2, 27, 0xE3], .panelRequest statusRequest, .restart]).port.dispatched =
      some .readStatus := by decide +kernel

/-- A station in JOIN with a valid time, a clock whose dial is a minute behind, and a peer that reports a newer
plan. -/
def readyToRun : State :=
  let j := dialAt { clocked with start := joining.start } (some 179)
  j.withLine (setRoster j.line 2 { j.line.roster[(2 : StationNo)] with
    present := true
    plan := some (⟨9, 2⟩, 77) })

theorem test_enters_run : alive readyToRun = true ∧ readyToRun.start.opState = .join ∧ HasRoom readyToRun ∧
    readyToRun.plan.staging = .free ∧ readyToRun.time.quality ≠ .unset ∧ readyToRun.bells.hwm = none ∧
    (∀ a, readyToRun.plan.active = some a → keyNewer ⟨9, 2⟩ a.key = true) ∧
    readyToRun.plan.unobtainable ≠ some ⟨9, 2⟩ ∧
    holds (exec .joinTimer readyToRun) (fun t => decide (t.bells.hwm = some (500 * 86400 + 10800)) &&
      decide (stagingTimer t.plan.staging = some (readyToRun.time.localCount + 10000#32)) &&
      decide (t.clocks[(0 : ClockNo)].impulse.cycle = .impulse) && t.clocks[(1 : ClockNo)].coded.sending &&
      !t.clocks[(1 : ClockNo)].coded.resend) = true := by
  decide +kernel

theorem test_restart_in_an_impulse : working (impulsing (some .delivered) 1) = true ∧
    (after (impulsing (some .delivered) 1) [.restart]).clocks[(0 : ClockNo)].impulse =
      { ImpulseRecord.initial with position := some 0, polarity := .minus } ∧
    (after (impulsing none 1) [.restart]).clocks[(0 : ClockNo)].impulse =
      { ImpulseRecord.initial with position := some 719, polarity := .plus } ∧
    (after (impulsing (some .openLine) 2) [.restart]).faults.banks[bankIndex .output].valid = false ∧
    Pending (after synced [.restart]) .timeChange ∧ ¬ Pending (after running [.restart]) .timeChange := by
  decide +kernel

theorem test_halt_premises : alive writingDials = true ∧ writingDials.start.opState = .halt ∧
    writingDials.store.state = .dialWrite [⟨true, some 300, .plus, false⟩, ⟨false, none, .plus, false⟩,
      ⟨false, none, .plus, false⟩, ⟨false, none, .plus, false⟩] ∧
    holds (exec .pfwEnd writingDials) (fun t => t.start.startAfterWrite) = true ∧
    holds (exec .restart clocked) (fun t => decide (Pending t .clockAttention)) = true := by decide +kernel

/-- A station in START at a read, with these bytes in memory. -/
def readingAt (r : RecordName) (a : Nat) (bs : List Byte) : State :=
  ((clocked.withMem (memWriteBytes [] a bs)).withStart { State.reset.start with faLatched := false }).withStore
    ⟨.reading r, false⟩

/-- An image of 40 bytes: a RELAY circuit with alarm and button, a CODED circuit, two zones; with another byte in one
place, and its check. -/
def imageWith (i : Nat) (b : Byte) : List Byte :=
  let body := ([0x0D, 0, 0, 0, 0, 0, 2, 0, 0, 0, 0, 0, 0, 0, 0, 0, 0, 0, 0, 0, 0, 0, 2, 3, 1, 0x76, 0x55, 0x44, 0x33,
    0x22, 0x11, 4, 0xFE, 0xFE, 0xFE, 0xFE, 0xFE, 0xFE] : List Byte).set i b
  body ++ checkBytes body

/-- The image as it stands there. -/
def imageBytes : List Byte := imageWith 22 2

/-- A dial record in which C0 stood at 300. -/
def dialRecord : List Byte := markSet :: dialBytes [⟨true, some 300, .minus, false⟩, ⟨false, none, .plus, false⟩,
  ⟨false, none, .plus, false⟩, ⟨false, none, .plus, false⟩]

theorem test_dial_uncertain : holds (exec (.dialRecordRead false) ((readingAt .dial 0x0040 (markSet :: dialBytes
      [⟨true, some 300, .minus, true⟩, ⟨false, none, .plus, false⟩, ⟨false, none, .plus, false⟩,
        ⟨false, none, .plus, false⟩])).withFaults { State.reset.faults with taking := true })) (fun t =>
      decide (t.faults.banks[bankIndex .output].code = 6) &&
      decide (t.faults.banks[bankIndex .output].detail = some (.number 0))) = true := by decide +kernel

/-- The record of the small plan. -/
def planRecord : List Byte := markSet :: planRecordBytes smallPlan

theorem test_image_ranges : imageBytes.length = 40 ∧
    [(0, 0x8D), (0, 0x0F), (6, 3), (22, 0), (22, 9), (23, 9), (24, 2), (25, 0x86), (30, 0x18), (31, 8)].all (fun (i, b) =>
      imageOf (imageWith i b) = none) = true ∧ imageOf (imageBytes.set 39 0) = none ∧
    (imageOf (imageWith 6 1)).isSome = false ∧ (imageOf (imageWith 9 200)).isSome = true ∧
    (imageOf imageBytes).map (fun m => (m.levels.toList, m.threshold, m.zoneCount, m.clocks[(0 : ClockNo)].kind)) =
      some ([7, 6, 5, 5, 4, 4, 3, 3, 2, 2, 1, 1], 4, 2, .coded) := by decide +kernel

theorem test_image_read : (imageOf imageBytes).isSome = true ∧
    holds (exec (.imageRead false) (readingAt .image 0 imageBytes)) (fun t => decide (t.image.beaconPeriod = 3) &&
      decide (t.image.bells[(0 : BellNo)] = ⟨.relay, true, true, 0⟩) && decide (t.image.faActiveOpen = true)) = true ∧
    holds (exec (.imageRead true) (readingAt .image 0 imageBytes)) (fun t =>
      decide (t.faults.banks[bankIndex .output].code = 7)) = true := by decide +kernel

/-- A station that reads its image, after the contact of FA was open in a valid way. -/
def openBefore : State := (readingAt .image 0 imageBytes).withStart
  { (readingAt .image 0 imageBytes).start with faOpenSeen := true, faRow := some true }

theorem test_image_judges_fa : holds (exec (.imageRead false) openBefore) (fun t => t.start.faLatched &&
      decide (t.pins.fa.valid = some false)) = true ∧
    holds (exec (.imageRead true) openBefore) (fun t => !t.start.faLatched &&
      decide (t.pins.fa.valid = some true)) = true := by decide +kernel

theorem test_plan_record_before_other_bytes : holds (exec (.planRecordRead false)
    (readingAt .plan 0x0100 (planRecord ++ [7, 0xA5, 9]))) (fun t => decide (t.plan.active = some smallPlan)) = true := by
  decide +kernel

theorem test_plan_read : holds (exec (.planRecordRead false) (readingAt .plan 0x0100 planRecord)) (fun t =>
      decide (t.plan.active = some smallPlan)) = true ∧
    holds (exec (.planRecordRead false) (readingAt .plan 0x0100 (planRecord.set 20 1))) (fun t =>
      decide (t.faults.banks[bankIndex .plan].detail = some .recordBad)) = true := by decide +kernel

theorem test_dial_read : holds (exec (.dialRecordRead false) (readingAt .dial 0x0040 dialRecord)) (fun t =>
      decide (t.clocks[(0 : ClockNo)].impulse.position = some 300) && decide (t.start.opState = .join)) = true ∧
    holds (exec (.dialRecordRead true) (readingAt .dial 0x0040 dialRecord)) (fun t =>
      decide (t.clocks[(0 : ClockNo)].impulse.position = none)) = true ∧
    holds (exec (.dialRecordRead false) ((readingAt .dial 0x0040 dialRecord).withStart
      { (readingAt .dial 0x0040 dialRecord).start with faLatched := true })) (fun t =>
      decide (t.start.opState = .run) && decide (t.drill.state = .evacuate)) = true := by decide +kernel

/-- A station in RUN that saves its plan, and one that marks the dial record. -/
def saving : State := requestSave withPlan

/-- The station still marks its dial record and wants a save. -/
def markingStore : State := requestSave (withPlan.withStore ⟨.marking, false⟩)

theorem test_store_premises : alive saving = true ∧ saving.mem.wf = true ∧ saving.store.state = .saving smallPlan false ∧
    markingStore.store = ⟨.marking, true⟩ ∧ withPlan.store.state = .idle ∧ working withPlan = true ∧
    writingDials.mem.wf = true := by decide +kernel

theorem test_store_writes : holds (exec .planSaveComplete saving) (fun t =>
      decide (memReadBytes t.mem planAddress planRecord.length = planRecord) && t.mem.wf) = true ∧
    holds (exec .markingEnd markingStore) (fun t => decide (t.store.state = .saving smallPlan false)) = true ∧
    holds (exec .dialWriteComplete writingDials) (fun t =>
      decide (dialOf (memReadBytes t.mem dialAddress 15) = some [⟨true, some 300, .plus, false⟩,
        ⟨false, none, .plus, false⟩, ⟨false, none, .plus, false⟩, ⟨false, none, .plus, false⟩])) = true := by
  decide +kernel

theorem test_memory_premises : State.reset.mem.wf = true ∧ saving.mem.wf = true ∧
    (∀ t, step State.reset = .next t → t.mem.wf = true) ∧ writingDials.store.state ≠ .idle := by
  refine ⟨by decide, by decide +kernel, fun t h => ?_, by decide +kernel⟩
  cases h
  decide +kernel

/-- A station at midnight whose OUTPUT bank holds an uncorrected record, with a second boundary to take. -/
def markedAtMidnight : State := (report atMidnight (.clockCircuitFaulted 1)).withPending [.secondBoundary]

theorem test_mark_and_record : markedAtMidnight.bells.hwm = some (410 * 86400 + 86398) ∧
    markedAtMidnight.faults.banks[bankIndex .output].uncorrected = true ∧
    holds (step markedAtMidnight) (fun t => decide (t.bells.hwm = some (411 * 86400)) &&
      decide (t.faults.banks[bankIndex .output].code = 5)) = true := by decide +kernel

theorem test_encoding_premises : (⟨410, 26040000⟩ : CampusTime).ms < dayMs ∧ postInRange livePost = true ∧
    smallPlan.total = smallPlan.frags.length ∧ smallPlan.total < 256 ∧ (∀ f ∈ smallPlan.frags, f.length < 256) ∧
    settimeOf (payloadBytes (.settime ⟨7, 3⟩ (-90000))) = some (⟨7, 3⟩, -90000) ∧
    planreqOf (payloadBytes (.planreq ⟨7, 3⟩ 0x1FF)) = some (⟨7, 3⟩, 0x1FF) := by decide +kernel

/-- A BEACON with every optional field present. -/
def fullBeacon : BeaconContent :=
  ⟨200, 199, some ⟨500, 86399999⟩, 7, .referenced, some ⟨9, 4⟩, some (⟨51, 12⟩, 0x89ABCDEF), ⟨33, 1⟩,
    some ⟨⟨15, 3⟩, ⟨499, 5⟩, .real, .allClear⟩⟩

theorem test_levels : lengthAllowed (bodyKind (.planreq ⟨7, 3⟩ 0x1FF)) (payloadBytes (.planreq ⟨7, 3⟩ 0x1FF)) = true ∧
    receivedRow ((frameLevels 5 (.planreq ⟨7, 3⟩ 0x1FF)).drop 20) =
      some (.planreq 5 (payloadBytes (.planreq ⟨7, 3⟩ 0x1FF))) ∧
    receivedRow (((frameLevels 5 (.planreq ⟨7, 3⟩ 0x1FF)).drop 20).set 9 true) = some (.damagedFrame .stopBit) ∧
    receivedRow (((frameLevels 5 (.planreq ⟨7, 3⟩ 0x1FF)).drop 20).set 24 false) = some (.damagedFrame .check) ∧
    receivedRow (((frameLevels 5 (.planreq ⟨7, 3⟩ 0x1FF)).drop 20).set 8 false) = some (.damagedFrame .kind) ∧
    receivedRow (((frameLevels 5 (.planreq ⟨7, 3⟩ 0x1FF)).drop 20).take 129) = some (.damagedFrame .short) ∧
    receivedRow (((frameLevels 5 (.planreq ⟨7, 3⟩ 0x1FF)).drop 20).set 11 true) = some (.damagedFrame .length) := by
  decide +kernel

theorem test_full_beacon : beaconOf (payloadBytes (.beacon fullBeacon)) = some fullBeacon ∧
    drillStateFrameOf (payloadBytes (.drillState ⟨⟨3, 9⟩, ⟨499, 5⟩, false, .real, true, some 4294967295, true,
      none⟩)) = some ⟨⟨3, 9⟩, ⟨499, 5⟩, false, .real, true, some 4294967295, true, none⟩ := by decide +kernel

end Sys2Proof.Tests
end

section
/-! Newer generations and keys (R1), and the campus precedence order (R2). -/

namespace Sys2Proof.Proofs

open Sys2Proof Sys2Proof.Machine Sys2Proof.Laws

theorem genNewer_iff (a b : Generation) : genNewer a b = true ↔
    1 ≤ (a.toNat + 65536 - b.toNat) % 65536 ∧ (a.toNat + 65536 - b.toNat) % 65536 ≤ 32767 := by
  have hb : b.toNat < 65536 := b.isLt
  have hab : (a - b).toNat = (a.toNat + 65536 - b.toNat) % 65536 := by
    rw [BitVec.toNat_sub]; omega
  simp [genNewer, hab]

theorem keyNewer_iff (k j : Key) : keyNewer k j = true ↔
    genNewer k.gen j.gen = true ∨ (k.gen = j.gen ∧ k.origin.val < j.origin.val) := by
  simp [keyNewer]

theorem key_eq_of_gen_origin {k j : Key} (hg : k.gen = j.gen) (ho : k.origin = j.origin) : k = j := by
  obtain ⟨g, o⟩ := k
  obtain ⟨g', o'⟩ := j
  exact congrArg₂ Key.mk hg ho

theorem startPrecedes_iff (a b : CampusTime) (p q : StationNo) : startPrecedes a p b q = true ↔
    0 < campusDiff b a ∨ (¬ 0 < campusDiff a b ∧ p.val < q.val) := by
  simp [startPrecedes, earlier]

theorem drillPrecedes_of_same_kind (k : DrillKind) (a b : CampusTime) (p q : StationNo) :
    drillPrecedes k a p k b q = startPrecedes a p b q := if_pos rfl

theorem drillPrecedes_of_kind_ne {k j : DrillKind} (h : k ≠ j) (a b : CampusTime) (p q : StationNo) :
    drillPrecedes k a p j b q = decide (k = .real) := if_neg h

/-- Of two different kinds one is REAL. -/
theorem real_iff_not_real {k j : DrillKind} (h : k ≠ j) : k = .real ↔ ¬ j = .real := by
  cases k <;> cases j <;> simp at h ⊢

theorem drillPrecedes_iff (k j : DrillKind) (a b : CampusTime) (p q : StationNo) :
    drillPrecedes k a p j b q = true ↔ (k = .real ∧ j = .practice) ∨
      (k = j ∧ (0 < campusDiff b a ∨ (¬ 0 < campusDiff a b ∧ p.val < q.val))) := by
  by_cases h : k = j
  · subst h
    rw [drillPrecedes_of_same_kind, startPrecedes_iff]
    cases k <;> simp
  · rw [drillPrecedes_of_kind_ne h, decide_eq_true_iff]
    have hj : j = .practice ↔ ¬ j = .real := by cases j <;> simp
    have hk := real_iff_not_real h
    tauto

/-- Within a day's milliseconds, two differences taken the opposite way have opposite signs, but for days that lie
32,768 apart, where both are negative (R4, log 61). -/
theorem campusDiff_swap {a b : CampusTime} (ha : a.ms < 86400000) (hb : b.ms < 86400000) :
    campusDiff b a = -campusDiff a b ∨ (campusDiff a b < 0 ∧ campusDiff b a < 0) := by
  have hn : b.day - a.day = -(a.day - b.day) := by bv_omega
  unfold campusDiff
  by_cases hd : a.day - b.day = BitVec.intMin 16
  · right
    have h1 : (a.day - b.day).toInt = -32768 := by rw [hd]; decide
    have h2 : (b.day - a.day).toInt = -32768 := by rw [hn, hd]; decide
    omega
  · left
    rw [hn, BitVec.toInt_neg_of_ne_intMin hd]
    omega

/-- Every station ranks two entries of different origins the same way (R2). -/
theorem startPrecedes_total {a b : CampusTime} {p q : StationNo} (hpq : p ≠ q) (ha : a.ms < 86400000)
    (hb : b.ms < 86400000) : startPrecedes a p b q = true ↔ ¬ startPrecedes b q a p = true := by
  have hv : p.val ≠ q.val := Fin.val_ne_of_ne hpq
  rw [startPrecedes_iff, startPrecedes_iff]
  obtain h | h := campusDiff_swap ha hb <;> omega

theorem drillPrecedes_total (k j : DrillKind) {a b : CampusTime} {p q : StationNo} (hpq : p ≠ q)
    (ha : a.ms < 86400000) (hb : b.ms < 86400000) :
    drillPrecedes k a p j b q = true ↔ ¬ drillPrecedes j b q k a p = true := by
  by_cases h : k = j
  · subst h
    simpa only [drillPrecedes_of_same_kind] using startPrecedes_total hpq ha hb
  · rw [drillPrecedes_of_kind_ne h, drillPrecedes_of_kind_ne (Ne.symm h), decide_eq_true_iff, decide_eq_true_iff]
    exact real_iff_not_real h

/-- Settles O4: each comparison by its own equivalence, the ranking by the signs of the two differences. -/
theorem keysAndPrecedenceCompare : Obligations.KeysAndPrecedenceCompare :=
  ⟨genNewer_iff, by decide, keyNewer_iff, fun _ _ => key_eq_of_gen_origin,
    fun k j a b p q => drillPrecedes_iff k j a b p q, startPrecedes_iff,
    fun k j _ _ _ _ hpq ha hb => ⟨startPrecedes_total hpq ha hb, drillPrecedes_total k j hpq ha hb⟩⟩

end Sys2Proof.Proofs
end

section
/-! The 32-bit cyclic check of R209, byte by byte as the model computes it and bit by bit as 12.3 writes it. -/

namespace Sys2Proof.Proofs

open Sys2Proof Sys2Proof.Machine Sys2Proof.Laws

/-- One bit of a message taken into the 32-bit cyclic check (R209). -/
def crc32Bit (r : BitVec 32) (bit : Bool) : BitVec 32 :=
  if r.msb ≠ bit then (r <<< 1) ^^^ 0x04C11DB7#32 else r <<< 1

/-- The bits of a byte, most significant first. -/
def byteBits (b : Byte) : List Bool := (List.range 8).map fun i => b.getLsbD (7 - i)

/-- A shift of a register into which a message has been added takes the message's first bit and moves up the rest. -/
theorem crc32Shift_xor (r x : BitVec 32) : crc32Shift (r ^^^ x) = crc32Bit r x.msb ^^^ (x <<< 1) := by
  have hx : (r ^^^ x) <<< 1 = r <<< 1 ^^^ x <<< 1 := BitVec.shiftLeft_xor_distrib ..
  unfold crc32Shift crc32Bit
  rw [BitVec.msb_xor, hx]
  by_cases h : r.msb = x.msb
  · simp [h]
  · have hne : (r.msb ^^ x.msb) = true := by simpa using h
    rw [if_pos hne, if_pos h]
    ac_rfl

/-- So many shifts take as many bits of the message. -/
theorem crc32Shift_iterate_xor (r x : BitVec 32) (n : Nat) : crc32Shift^[n] (r ^^^ x) =
    ((List.range n).map fun i => x.getMsbD i).foldl crc32Bit r ^^^ (x <<< n) := by
  induction n with
  | zero => simp
  | succ n ih =>
    have hbit : (x <<< n).msb = x.getMsbD n := by simp [BitVec.msb]
    rw [Function.iterate_succ_apply', ih, crc32Shift_xor, hbit, ← BitVec.shiftLeft_add]
    simp [List.range_succ]

theorem crc32Byte_eq_bits (r : BitVec 32) (b : Byte) : crc32Byte r b = (byteBits b).foldl crc32Bit r := by
  have hbits : ((List.range 8).map fun i => (b.zeroExtend 32 <<< 24).getMsbD i) = byteBits b := by
    refine List.map_congr_left fun i hi => ?_
    have hi8 : i < 8 := List.mem_range.mp hi
    simp [BitVec.getMsbD, show i < 32 by omega, show 31 - i < 32 by omega, show ¬ 31 - i < 24 by omega,
      show 31 - i - 24 = 7 - i by omega]
  have hrest : (b.zeroExtend 32 <<< 24) <<< 8 = 0#32 := by
    rw [← BitVec.shiftLeft_add]; exact BitVec.shiftLeft_eq_zero (by decide)
  calc crc32Byte r b = crc32Shift^[8] (r ^^^ b.zeroExtend 32 <<< 24) := rfl
    _ = (byteBits b).foldl crc32Bit r := by rw [crc32Shift_iterate_xor, hbits, hrest, BitVec.xor_zero]

theorem crc32_eq_bits (bs : List Byte) : crc32 bs = (bs.flatMap byteBits).foldl crc32Bit 0xFFFFFFFF#32 := by
  rw [List.foldl_flatMap, crc32]
  exact congrArg (fun f => bs.foldl f _) (funext₂ crc32Byte_eq_bits)

end Sys2Proof.Proofs
end

section
/-! The key of a plan made here (R64): the generations that the station knows, met in station order. -/

namespace Sys2Proof.Proofs

open Sys2Proof Sys2Proof.Machine Sys2Proof.Laws

/-- The newest generation held, after one more has been met (R24, R64). -/
def newerGen (held : Option Generation) (g : Generation) : Option Generation :=
  match held with
  | none => some g
  | some h => if genNewer g h then some g else some h

theorem newestGen_append (l m : List Generation) : newestGen (l ++ m) = m.foldl newerGen (newestGen l) :=
  List.foldl_append

/-- The generation of the plan key that a roster entry holds. -/
def rosterGen (e : RosterEntry) : Option Generation := e.plan.map (·.1.gen)

/-- The newest plan generation that the active plan and the first n roster entries give (R64). -/
def heldPlanGen (s : State) (n : Nat) : Option Generation :=
  ((s.line.roster.toList.take n).filterMap rosterGen).foldl newerGen (s.plan.active.map (·.key.gen))

theorem heldPlanGen_zero (s : State) : heldPlanGen s 0 = s.plan.active.map (·.key.gen) := rfl

theorem heldPlanGen_succ (s : State) (p : StationNo) :
    heldPlanGen s (p.val + 1) = match rosterGen s.line.roster[p], heldPlanGen s p.val with
      | none, h => h
      | some g, none => some g
      | some g, some h => if genNewer g h = true then some g else some h := by
  have hp : p.val < s.line.roster.toList.length := by simp
  have htake : s.line.roster.toList.take (p.val + 1) = s.line.roster.toList.take p.val ++ [s.line.roster[p]] :=
    (List.take_append_getElem hp).symm
  unfold heldPlanGen
  rw [htake, List.filterMap_append, List.foldl_append]
  cases hg : rosterGen s.line.roster[p] with
  | none => rw [List.filterMap_cons_none hg]; rfl
  | some g =>
    rw [List.filterMap_cons_some hg, List.filterMap_nil, List.foldl_cons, List.foldl_nil]
    cases List.foldl newerGen _ _ <;> rfl

theorem heldPlanGen_all (s : State) : newestGen ((s.plan.active.map (·.key.gen)).toList ++
    s.line.roster.toList.filterMap rosterGen) = heldPlanGen s 16 := by
  have hall : s.line.roster.toList.take 16 = s.line.roster.toList := List.take_of_length_le (by simp)
  have hactive (o : Option Generation) : newestGen o.toList = o := by cases o <;> rfl
  rw [newestGen_append, hactive, heldPlanGen, hall]

theorem newPlanKey_gen (s : State) : (newPlanKey s).gen = match heldPlanGen s 16 with
    | none => 1
    | some g => g + 1 := by
  rw [← heldPlanGen_all]; rfl

theorem newerThanActive_eq_false_iff (p : PlanUnit) (k : Key) : newerThanActive p k = false ↔
    ∃ a, p.active = some a ∧ keyNewer k a.key = false := by
  unfold newerThanActive
  cases p.active <;> simp

end Sys2Proof.Proofs
end

section
/-! Validation of a fragment set (R60): check 1 as a statement about the fragments, and the checks 2 to 9, each with the
statement that it decides. -/

namespace Sys2Proof.Proofs

open Sys2Proof Sys2Proof.Machine Sys2Proof.Laws

/-! ## Check 1 -/

theorem allOptions_eq_some {α : Type} (l : List (Option α)) (m : List α) :
    allOptions l = some m ↔ l = m.map some := mapM_id_eq_some l m

/-- A plan begins with a HEADER, which carries its total (R59). -/
theorem assemblePlan_header {l : List Section} {c : PlanContent} (h : assemblePlan l = some c) :
    ∃ patterns evac asm rest, l = .header c.total patterns evac asm :: rest := by
  unfold assemblePlan at h
  split at h
  · rename_i total patterns evac asm rest
    refine ⟨patterns, evac, asm, rest, ?_⟩
    suffices total = c.total by rw [this]
    dsimp only at h
    split at h
    · cases h
    · split at h
      · split at h
        · split at h
          · cases h; rfl
          · cases h
        · cases h
      · cases h
  · cases h

theorem headerTotal_of_content {l : List (List Byte)} {c : PlanContent} (h : contentOf l = some c) :
    headerTotal l.head? = some c.total := by
  obtain ⟨sections, hs, hc⟩ := Option.bind_eq_some_iff.mp h
  obtain ⟨patterns, evac, asm, rest, rfl⟩ := assemblePlan_header hc
  have hl := (allOptions_eq_some _ _).mp hs
  cases l with
  | nil => cases hl
  | cons x l =>
    have hx : sectionOf x = some (.header c.total patterns evac asm) := (List.cons.inj hl).1
    simp [headerTotal, hx]

theorem candidate_eq_some_iff (frags : List (Option (List Byte))) (carried : Option Nat) (l : List (List Byte)) :
    candidate frags carried = some l ↔ frags.take l.length = l.map some ∧
      headerTotal frags.head?.join = some l.length ∧ 7 ≤ l.length ∧ l.length ≤ 41 ∧
      (carried = none ∨ carried = some l.length) := by
  unfold candidate
  cases ht : headerTotal frags.head?.join with
  | none => simp
  | some total =>
    dsimp only
    constructor
    · intro h
      split at h
      · rename_i hr
        obtain ⟨h7, h41, hlen, hcar⟩ := hr
        have htake := (allOptions_eq_some _ _).mp h
        have htotal : total = l.length := by
          have := congrArg List.length htake
          simpa [Nat.min_eq_left hlen] using this
        subst htotal
        exact ⟨htake, rfl, h7, h41, hcar⟩
      · cases h
    · rintro ⟨htake, htotal, h7, h41, hcar⟩
      cases htotal
      have hlen : l.length ≤ frags.length := by
        have := congrArg List.length htake
        simpa using this
      rw [if_pos ⟨h7, h41, hlen, hcar⟩]
      exact (allOptions_eq_some _ _).mpr htake

/-- The digest of the fragments is the expected one, where one is expected. -/
theorem digest_expected_iff (expected : Option Digest) (d : Digest) :
    ¬ (expected ≠ none ∧ expected ≠ some d) ↔ ∀ e, expected = some e → e = d := by
  cases expected <;> simp

theorem fragmentsRight_iff (frags : List (Option (List Byte))) (carried : Option Nat) (expected : Option Digest)
    (l : List (List Byte)) (c : PlanContent) : FragmentsRight frags carried expected l c ↔
      candidate frags carried = some l ∧ contentOf l = some c ∧
        ¬ (expected ≠ none ∧ expected ≠ some (planDigest l)) := by
  have hcar : (carried = none ∨ carried = some l.length) ↔ ∀ n, carried = some n → n = l.length := by
    cases carried <;> simp
  have hhead (htake : frags.take l.length = l.map some) (h7 : 7 ≤ l.length) : frags.head?.join = l.head? := by
    have h0 := congrArg List.head? htake
    rw [List.head?_take, if_neg (by omega), List.head?_map] at h0
    rw [h0]
    cases l.head? <;> rfl
  rw [digest_expected_iff, candidate_eq_some_iff, hcar]
  constructor
  · rintro ⟨htake, h7, h41, hc, htotal, hcarried, hdigest⟩
    refine ⟨⟨htake, ?_, h7, h41, hcarried⟩, hc, hdigest⟩
    rw [hhead htake h7, headerTotal_of_content hc, htotal]
  · rintro ⟨⟨htake, htotal, h7, h41, hcarried⟩, hc, hdigest⟩
    refine ⟨htake, h7, h41, hc, ?_, hcarried, hdigest⟩
    rw [hhead htake h7, headerTotal_of_content hc] at htotal
    exact Option.some.inj htotal

theorem validate_of_not_right {frags : List (Option (List Byte))} {carried : Option Nat} {expected : Option Digest}
    (h : ∀ l c, ¬ FragmentsRight frags carried expected l c) :
    validate frags carried expected = .error .fragments := by
  simp only [fragmentsRight_iff, not_and] at h
  unfold validate
  split
  · rfl
  · rename_i l hl
    split
    · rfl
    · rename_i c hc
      rw [if_pos (by simpa using h l c hl hc)]

theorem validate_of_sound {frags : List (Option (List Byte))} {carried : Option Nat} {expected : Option Digest}
    {l : List (List Byte)} {c : PlanContent} (h : FragmentsRight frags carried expected l c)
    (hf : contentFault c = none) : validate frags carried expected = .ok l := by
  obtain ⟨hl, hc, hd⟩ := (fragmentsRight_iff ..).mp h
  simp only [validate, hl, hc, if_neg hd, hf]

theorem validate_of_fault {frags : List (Option (List Byte))} {carried : Option Nat} {expected : Option Digest}
    {l : List (List Byte)} {c : PlanContent} {r : PlanFault} (h : FragmentsRight frags carried expected l c)
    (hf : contentFault c = some r) : validate frags carried expected = .error r := by
  obtain ⟨hl, hc, hd⟩ := (fragmentsRight_iff ..).mp h
  simp only [validate, hl, hc, if_neg hd, hf]

/-! ## Lists of checks -/

/-- The reason of the first check that answers no. -/
def firstFault (checks : List (PlanFault × Bool)) : Option PlanFault :=
  (checks.find? fun x => !x.2).map (·.1)

/-- A check with the statement that it decides, under the same reason. -/
def Decides (x : PlanFault × Bool) (y : PlanFault × Prop) : Prop := x.1 = y.1 ∧ (x.2 = true ↔ y.2)

theorem firstFault_of_all {checks : List (PlanFault × Bool)} {props : List (PlanFault × Prop)}
    (h : List.Forall₂ Decides checks props) (all : ∀ y ∈ props, y.2) : firstFault checks = none := by
  induction h with
  | nil => rfl
  | @cons x y checks props hxy _ ih =>
    obtain ⟨hy, hrest⟩ := List.forall_mem_cons.mp all
    have hx : x.2 = true := hxy.2.mpr hy
    have := ih hrest
    unfold firstFault at this ⊢
    rwa [List.find?_cons_of_neg (by simp [hx])]

theorem firstFault_of_first {checks : List (PlanFault × Bool)} {props : List (PlanFault × Prop)}
    (h : List.Forall₂ Decides checks props) {r : PlanFault} (first : FirstFailing props r) :
    firstFault checks = some r := by
  obtain ⟨pre, p, post, rfl, hpre, hp⟩ := first
  induction pre generalizing checks with
  | nil =>
    cases h with
    | @cons x _ _ _ hxy _ =>
      obtain ⟨hr, hx⟩ := hxy
      have hno : x.2 = false := Bool.eq_false_iff.mpr fun hyes => hp (hx.mp hyes)
      rw [firstFault, List.find?_cons_of_pos (by simp [hno]), Option.map_some, hr]
  | cons y pre ih =>
    cases h with
    | @cons x _ checks _ hxy hrest =>
      obtain ⟨hy, hpre⟩ := List.forall_mem_cons.mp hpre
      have hx : x.2 = true := hxy.2.mpr hy
      have := ih hrest hpre
      unfold firstFault at this ⊢
      rwa [List.find?_cons_of_neg (by simp [hx])]

/-! ## Checks 2 to 9 -/

theorem periodOf_isSome_iff : ∀ n : Nat, (periodOf n).isSome = true ↔ n ≤ 4
  | 0 | 1 | 2 | 3 | 4 => by decide
  | n + 5 => ⟨fun h => (by cases h), fun h => by omega⟩

theorem spanOk_iff (bound : Nat) (o : Span) : spanOk bound o = true ↔ SpanRight bound o := by
  simp [spanOk, SpanRight, periodOf_isSome_iff, and_assoc]

theorem calendarOk_iff (c : PlanContent) : calendarOk c = true ↔
    (∀ w ∈ c.weekdays, ∀ n ∈ w, n ≤ 4) ∧ (∀ e ∈ c.exceptions, e.2 ≤ 4) ∧
      (∀ v ∈ c.weekdays, ∀ w ∈ c.weekdays, v = w) ∧ (c.exceptions.map (·.1)).Nodup := by
  have heq : (∀ w ∈ c.weekdays, some w = c.weekdays.head?) ↔ ∀ v ∈ c.weekdays, ∀ w ∈ c.weekdays, v = w := by
    cases c.weekdays with
    | nil => simp
    | cons a l =>
      constructor
      · intro h v hv w hw
        exact Option.some.inj ((h v hv).trans (h w hw).symm)
      · intro h w hw
        exact congrArg some (h w hw a List.mem_cons_self)
  simp only [calendarOk, programCodeOk, Bool.and_eq_true, List.all_eq_true, decide_eq_true_eq, heq, and_assoc]

theorem rangesOk_iff (c : PlanContent) : rangesOk c = true ↔
    ∀ q ∈ c.programs, q.ranges.length ≤ 8 ∧ (∀ o ∈ q.ranges, SpanRight 1440 o) ∧ q.default ≤ 4 := by
  simp only [rangesOk, Bool.and_eq_true, List.all_eq_true, decide_eq_true_eq, spanOk_iff, periodOf_isSome_iff,
    and_assoc]

theorem sortedSeconds_iff (l : List BellEntry) : sortedSeconds l = true ↔ (l.map (·.second)).Pairwise (· ≤ ·) := by
  rw [← List.isChain_iff_pairwise]
  induction l with
  | nil => simp [sortedSeconds]
  | cons a l ih =>
    cases l with
    | nil => simp [sortedSeconds]
    | cons b l => simpa [sortedSeconds] using fun _ => ih

theorem bellOrderOk_iff (c : PlanContent) : bellOrderOk c = true ↔ ∀ q ∈ c.programs,
    (q.bells.map (·.second)).Pairwise (· ≤ ·) ∧ ∀ e ∈ q.bells, e.second ≤ 86399 := by
  simp only [bellOrderOk, Bool.and_eq_true, List.all_eq_true, decide_eq_true_eq, sortedSeconds_iff]

/-- Two masks meet when some bit is set in both. -/
theorem and_ne_zero_iff {w : Nat} (x y : BitVec w) :
    x &&& y ≠ 0#w ↔ ∃ i, x.getLsbD i = true ∧ y.getLsbD i = true := by
  constructor
  · intro h
    by_contra hn
    refine h (BitVec.eq_of_getLsbD_eq fun i _ => ?_)
    simpa using fun hx => Bool.eq_false_iff.mpr fun hy => hn ⟨i, hx, hy⟩
  · rintro ⟨i, hx, hy⟩ h
    have := congrArg (·.getLsbD i) h
    simp [hx, hy] at this

theorem noClash_iff (l : List BellEntry) : noClash l = true ↔ l.Pairwise fun d e => ¬ (d.second = e.second ∧
    ∃ i, d.circuits.getLsbD i = true ∧ e.circuits.getLsbD i = true) := by
  induction l with
  | nil => simp [noClash]
  | cons e l ih =>
    simp only [noClash, Bool.and_eq_true, List.all_eq_true, List.pairwise_cons, ih, Bool.not_eq_true',
      ← and_ne_zero_iff, Bool.and_eq_false_iff, decide_eq_false_iff_not, not_and_or]

theorem bellClashOk_iff (c : PlanContent) : bellClashOk c = true ↔ ∀ q ∈ c.programs,
    q.bells.Pairwise fun d e => ¬ (d.second = e.second ∧
      ∃ i, d.circuits.getLsbD i = true ∧ e.circuits.getLsbD i = true) := by
  simp only [bellClashOk, List.all_eq_true, noClash_iff]

theorem patternAt_isSome_iff (patterns : List (Option (List Pulse))) (n : Nat) :
    (patternAt patterns n).isSome = true ↔ ∃ l, patterns[n]? = some (some l) := by
  simp [patternAt, Option.isSome_iff_exists, Option.join_eq_some_iff]

theorem patternRefOk_iff (c : PlanContent) : patternRefOk c = true ↔
    ∀ q ∈ c.programs, ∀ e ∈ q.bells, ∃ l, c.patterns[e.pattern]? = some (some l) := by
  simp only [patternRefOk, List.all_eq_true, patternAt_isSome_iff]

theorem patternsOk_iff (c : PlanContent) : patternsOk c = true ↔
    (∃ l, c.patterns[0]? = some (some l)) ∧
      (∀ l, some l ∈ c.patterns → 1 ≤ l.length ∧ l.length ≤ 6 ∧
        ∀ x ∈ l, 1 ≤ x.on ∧ x.on ≤ 100 ∧ 1 ≤ x.off ∧ x.off ≤ 100) ∧
      ((c.patterns.filterMap id).map List.length).sum ≤ 16 := by
  have hmem (l : List Pulse) : l ∈ c.patterns.filterMap id ↔ some l ∈ c.patterns := by simp
  simp only [patternsOk, pulseOk, Bool.and_eq_true, List.all_eq_true, decide_eq_true_eq, patternAt_isSome_iff, hmem,
    and_assoc]

theorem overridesOk_iff (c : PlanContent) : overridesOk c = true ↔
    c.overrides.length ≤ 4 ∧ ∀ o ∈ c.overrides, SpanRight 94371840 o := by
  simp only [overridesOk, minuteBound, Bool.and_eq_true, List.all_eq_true, decide_eq_true_eq, spanOk_iff]

theorem drillLimitsOk_iff (c : PlanContent) : drillLimitsOk c = true ↔
    60 ≤ c.evacLimit ∧ c.evacLimit ≤ 900 ∧ 300 ≤ c.assembleLimit ∧ c.assembleLimit ≤ 3600 := by
  simp only [drillLimitsOk, Bool.and_eq_true, decide_eq_true_eq, and_assoc]

/-- The checks 2 to 9 of R60 as the model runs them. -/
def contentChecks (c : PlanContent) : List (PlanFault × Bool) :=
  [(.calendar, calendarOk c), (.ranges, rangesOk c), (.bellOrder, bellOrderOk c), (.bellClash, bellClashOk c),
    (.patternRef, patternRefOk c), (.patterns, patternsOk c), (.overrides, overridesOk c),
    (.drillLimits, drillLimitsOk c)]

theorem contentFault_eq_firstFault (c : PlanContent) : contentFault c = firstFault (contentChecks c) := by
  have step (r : PlanFault) (b : Bool) (l : List (PlanFault × Bool)) :
      firstFault ((r, b) :: l) = if (!b) = true then some r else firstFault l := by
    cases b <;> rfl
  simp only [contentChecks, step]
  rfl

theorem contentChecks_decide (c : PlanContent) : List.Forall₂ Decides (contentChecks c) (planChecks c) :=
  .cons ⟨rfl, calendarOk_iff c⟩ <| .cons ⟨rfl, rangesOk_iff c⟩ <| .cons ⟨rfl, bellOrderOk_iff c⟩ <|
    .cons ⟨rfl, bellClashOk_iff c⟩ <| .cons ⟨rfl, patternRefOk_iff c⟩ <| .cons ⟨rfl, patternsOk_iff c⟩ <|
    .cons ⟨rfl, overridesOk_iff c⟩ <| .cons ⟨rfl, drillLimitsOk_iff c⟩ .nil

theorem contentFault_of_all {c : PlanContent} (h : ∀ x ∈ planChecks c, x.2) : contentFault c = none := by
  rw [contentFault_eq_firstFault, firstFault_of_all (contentChecks_decide c) h]

theorem contentFault_of_first {c : PlanContent} {r : PlanFault} (h : FirstFailing (planChecks c) r) :
    contentFault c = some r := by
  rw [contentFault_eq_firstFault, firstFault_of_first (contentChecks_decide c) h]

end Sys2Proof.Proofs
end

section
/-! What an offer and a fetch evaluation leave of the Plan Unit, and what a change of the active plan makes of it
(R38, R61, R69, R75, R76). -/

namespace Sys2Proof.Proofs

open Sys2Proof Sys2Proof.Machine Sys2Proof.Laws

/-- From p to q the Plan Unit has only served: the active plan and the staging area stand, and no serve bit has been
set (R75). -/
structure OnlyServed (p q : PlanUnit) : Prop where
  active : q.active = p.active
  staging : q.staging = p.staging
  serve : ∀ i, q.serve.getLsbD i = true → p.serve.getLsbD i = true

theorem OnlyServed.refl (p : PlanUnit) : OnlyServed p p := ⟨rfl, rfl, fun _ => id⟩

theorem OnlyServed.trans {p q r : PlanUnit} (h : OnlyServed p q) (k : OnlyServed q r) : OnlyServed p r :=
  ⟨k.active.trans h.active, k.staging.trans h.staging, fun i hi => h.serve i (k.serve i hi)⟩

theorem OnlyServed.of_eq {p q : PlanUnit} (h : q = p) : OnlyServed p q := h ▸ OnlyServed.refl p

theorem OnlyServed.serve_zero {p q : PlanUnit} (h : OnlyServed p q) (hp : p.serve = 0) : q.serve = 0 := by
  have hclear (i : Nat) : q.serve.getLsbD i = false :=
    Bool.eq_false_iff.mpr fun hi => by simpa [hp] using h.serve i hi
  exact BitVec.eq_of_getLsbD_eq fun i _ => by simp [hclear]

theorem cursorStep_onlyServed (s : State) : OnlyServed s.plan (cursorStep s).plan := by
  unfold cursorStep
  split
  · dsimp only
    split
    · split
      · exact ⟨rfl, rfl, fun _ => id⟩
      · exact ⟨rfl, rfl, fun _ => id⟩
    · exact .refl _
  · exact .refl _

theorem runCursor_onlyServed (s : State) : OnlyServed s.plan (runCursor s).plan :=
  (cursorStep_onlyServed s).trans (cursorStep_onlyServed _)

/-- A Plan Unit that has only served, put in place before the cursor runs, has only served afterwards. -/
theorem OnlyServed.runCursor {s : State} {p : PlanUnit} (h : OnlyServed s.plan p) :
    OnlyServed s.plan (runCursor (s.withPlan p)).plan := h.trans (runCursor_onlyServed (s.withPlan p))

theorem toldPlan_onlyServed (s : State) (k : Key) (i : Nat) (o : TxOutcome) :
    OnlyServed s.plan (toldPlan s k i o).plan := by
  have cleared (q : List Nat) (j : Nat) : OnlyServed s.plan
      { s.plan with queued := q, serve := s.plan.serve &&& ~~~(1#48 <<< j) } :=
    ⟨rfl, rfl, fun n hn => by simp only [BitVec.getLsbD_and, Bool.and_eq_true] at hn; exact hn.1⟩
  have dequeued (q : List Nat) : OnlyServed s.plan { s.plan with queued := q } := ⟨rfl, rfl, fun _ => id⟩
  unfold toldPlan
  split
  · cases o with
    | sent | suppressed => exact (cleared _ i).runCursor
    | dropped | evicted | replaced => exact (dequeued _).runCursor
    | refused => exact ⟨rfl, rfl, fun _ => id⟩
    | discarded => exact dequeued _
  · exact .refl _

theorem told_onlyServed (s : State) (b : FrameBody) (o : TxOutcome) : OnlyServed s.plan (told s b o).plan := by
  unfold told
  split
  · exact .refl _
  · exact .refl _
  · exact toldPlan_onlyServed _ _ _ _
  · exact .refl _

theorem tellAll_onlyServed (s : State) (l : List (FrameBody × TxOutcome)) :
    OnlyServed s.plan (tellAll s l).plan := by
  induction l generalizing s with
  | nil => exact .refl _
  | cons x l ih => exact (told_onlyServed s x.1 x.2).trans (ih _)

theorem offer_onlyServed (s : State) (b : FrameBody) : OnlyServed s.plan (offer s b).plan := by
  unfold offer
  split
  · dsimp only
    have hreport (l : LineOffer) : (reportRefusals (s.withLine l.line) l.told).plan = s.plan :=
      (reportRefusals_ev _ _).same .plan (by decide)
    exact (OnlyServed.of_eq (hreport (lineOffer s.line b))).trans (tellAll_onlyServed _ _)
  · exact told_onlyServed _ _ _

/-- From p to q the active plan stands, a clear serve bitmap stays clear, and no load is under way any more. -/
structure NoLoadLeft (p q : PlanUnit) : Prop where
  active : q.active = p.active
  staging : q.staging = .free ∨ ∃ f, q.staging = .fetching f
  serve : p.serve = 0 → q.serve = 0

theorem startFetch_noLoadLeft (s : State) (k : Key) (d : Digest) :
    NoLoadLeft s.plan (startFetch s k d).plan := by
  have h := offer_onlyServed (setStaging s (.fetching ⟨k, d, none, noFragments,
    countAfter s.time.localCount noProgressMs, 1⟩)) (.planreq k (missingMask ⟨k, d, none, noFragments,
    countAfter s.time.localCount noProgressMs, 1⟩))
  exact ⟨h.active, .inr ⟨_, h.staging⟩, h.serve_zero⟩

theorem evaluateFetch_noLoadLeft (s : State) (h : s.plan.staging = .free ∨ ∃ f, s.plan.staging = .fetching f) :
    NoLoadLeft s.plan (evaluateFetch s).plan := by
  have stays : NoLoadLeft s.plan s.plan := ⟨rfl, h, id⟩
  unfold evaluateFetch
  split
  · split
    · exact stays
    · split
      · exact startFetch_noLoadLeft _ _ _
      · exact stays
      · split
        · exact startFetch_noLoadLeft _ _ _
        · exact stays
  · exact stays

/-- The staging area given back keeps the active plan, and a serve bitmap that is clear stays clear (R61). -/
theorem freeStaging_noLoadLeft (s : State) : NoLoadLeft s.plan (freeStaging s).plan :=
  have h := evaluateFetch_noLoadLeft (setStaging s .free) (.inl rfl)
  ⟨h.active, h.staging, h.serve⟩

/-- A plan made active stands with a clear serve bitmap, and the staging area is as it was (R76). -/
theorem changePlan_plan (s : State) (a : ActivePlan) : (changePlan s a).plan = { s.plan with
    active := some a, serve := 0, queued := [], unobtainable := keptUnobtainable s.plan.unobtainable a.key } := by
  have hstatus (t : State) : (computeStatus t).plan = t.plan := (computeStatus_ev t).same .plan (by decide)
  have hbells (t : State) : (bellPlanChange t).plan = t.plan := (bellPlanChange_ev t).same .plan (by decide)
  have hsave (t : State) : (requestSave t).plan = t.plan := (requestSave_ev t).same .plan (by decide)
  unfold changePlan
  dsimp only
  rw [hstatus, hbells, hsave, plan_withPlan]

end Sys2Proof.Proofs
end

section
/-! LOAD COMMIT (R64): what the owner does, and the answer, in JOIN and RUN. -/

namespace Sys2Proof.Proofs

open Sys2Proof Sys2Proof.Machine Sys2Proof.Laws

/-- In JOIN and RUN the owner of a panel command acts and answers (R193). -/
theorem panelTake_active {s : State} (h : Active s) (f : State → State × Response) :
    panelTake s f = answered (f s).1 (f s).2 := by
  obtain ⟨ha, hw⟩ := h
  unfold panelTake
  rw [if_pos ha]
  cases hop : s.start.opState with
  | start | halt => simp [working, hop] at hw
  | join | run => rfl

theorem exec_loadCommit {s : State} (h : Active s) (d : Option Digest) : exec (.loadCommit d) s =
    .next (answered (loadCommitTake d s).1 (loadCommitTake d s).2) :=
  congrArg Host.Outcome.next (panelTake_active h _)

theorem loadCommitTake_free {s : State} (h : s.plan.staging = .free) (d : Option Digest) :
    loadCommitTake d s = (s, .refused .notLoading) := by
  unfold loadCommitTake; rw [h]

theorem loadCommitTake_fetching {s : State} {f : Fetch} (h : s.plan.staging = .fetching f) (d : Option Digest) :
    loadCommitTake d s = (s, .busy) := by
  unfold loadCommitTake; rw [h]

theorem loadCommitTake_invalid {s : State} {f : Fragments} {t : Count} {d : Option Digest} {r : PlanFault}
    (h : s.plan.staging = .loading f t) (hv : validate f.toList none d = .error r) :
    loadCommitTake d s = (loadingNow s f, .refused (.validation r)) := by
  unfold loadCommitTake; rw [h]; dsimp only; rw [hv]

theorem loadCommitTake_valid {s : State} {f : Fragments} {t : Count} {d : Option Digest} {frags : List (List Byte)}
    (h : s.plan.staging = .loading f t) (hv : validate f.toList none d = .ok frags) :
    loadCommitTake d s = commitPlan (loadingNow s (fragmentsBelow f frags.length)) frags true := by
  unfold loadCommitTake; rw [h]; dsimp only; rw [hv]

/-- The load timer restarted leaves all of the Plan Unit but the staging area and the mark of log 55. -/
theorem loadingNow_eq (s : State) (f : Fragments) : loadingNow s f = s.withPlan { s.plan with
    staging := .loading f (s.time.localCount + 60000#32)
    overtaken := s.plan.overtaken || overtakes s (.loading f (s.time.localCount + 60000#32)) } := rfl

theorem newPlanKey_loadingNow (s : State) (f : Fragments) : newPlanKey (loadingNow s f) = newPlanKey s := rfl

theorem commitPlan_old {s : State} (h : newerThanActive s.plan (newPlanKey s) = false) (frags : List (List Byte))
    (free : Bool) : commitPlan s frags free = (s, .refused .generation) := by
  unfold commitPlan
  rw [if_neg (by simp [h])]

/-- A new key that is newer: the plan becomes the active one and the staging area is given back (R64). -/
theorem commitPlan_new {s : State} (h : newerThanActive s.plan (newPlanKey s) = true) (frags : List (List Byte)) :
    commitPlan s frags true =
      (freeStaging (changePlan (setStaging s .free) (planOf (newPlanKey s) frags)),
        .done (.planKey (newPlanKey s) (planDigest frags))) := by
  have hdigest : (planOf (newPlanKey s) frags).digest = planDigest frags := rfl
  unfold commitPlan
  dsimp only
  rw [if_pos h, if_pos rfl, if_pos rfl, hdigest]

theorem commitPlan_new_plan {s : State} (h : newerThanActive s.plan (newPlanKey s) = true)
    (frags : List (List Byte)) :
    (commitPlan s frags true).1.plan.active = some (planOf (newPlanKey s) frags) ∧
      ((commitPlan s frags true).1.plan.staging = .free ∨
        ∃ g, (commitPlan s frags true).1.plan.staging = .fetching g) ∧
      (commitPlan s frags true).1.plan.serve = 0 := by
  rw [commitPlan_new h]
  obtain ⟨hactive, hstaging, hserve⟩ :=
    freeStaging_noLoadLeft (changePlan (setStaging s .free) (planOf (newPlanKey s) frags))
  rw [changePlan_plan] at hactive hserve
  dsimp only at hactive hserve ⊢
  exact ⟨hactive, hstaging, hserve rfl⟩

theorem exec_loadCommit_new {s : State} (ha : Active s) {f : Fragments} {t0 : Count} {d : Option Digest}
    {frags : List (List Byte)} (h : s.plan.staging = .loading f t0) (hv : validate f.toList none d = .ok frags)
    (hk : newerThanActive s.plan (newPlanKey s) = true) : ∃ t, exec (.loadCommit d) s = .next t ∧
      t.plan.active = some ⟨newPlanKey s, planDigest frags, frags.length, frags⟩ ∧
      (t.plan.staging = .free ∨ ∃ g, t.plan.staging = .fetching g) ∧ t.plan.serve = 0 ∧
      t.port = (answered s (.done (.planKey (newPlanKey s) (planDigest frags)))).port ∧
      Changes [.plan, .store, .bells, .clocks, .line, .time, .drill, .faults, .port] s t := by
  have htake := loadCommitTake_valid h hv
  obtain ⟨hactive, hstaging, hserve⟩ :=
    commitPlan_new_plan (s := loadingNow s (fragmentsBelow f frags.length)) hk frags
  have hresponse : (loadCommitTake d s).2 = .done (.planKey (newPlanKey s) (planDigest frags)) := by
    rw [htake, commitPlan_new (s := loadingNow s _) hk, newPlanKey_loadingNow]
  have hport : (loadCommitTake d s).1.port = s.port := (loadCommitTake_ev s d).same .port (by decide)
  have hchanges : Evolves [.port, .plan, .store, .bells, .clocks, .line, .time, .drill, .faults] s
      (panelTake s (loadCommitTake d)) := panelTake_ev (loadCommitTake_ev s d) (by decide)
  rw [← htake] at hactive hstaging hserve
  refine ⟨_, exec_loadCommit ha d, hactive, hstaging, hserve, ?_, ?_⟩
  · rw [hresponse]
    unfold answered
    rw [port_withPort, port_withPort, hport]
  · rw [← panelTake_active ha]
    exact hchanges.mono.same

/-- Settles O23: the new key from the pass over the roster, the branches of LOAD COMMIT one by one, the validation
from its two lemmas, and the digest from the bit-by-bit reading of the cyclic check. -/
theorem loadCommitMakesThePlanActive : Obligations.LoadCommitMakesThePlanActive := by
  refine ⟨fun s => ⟨rfl, heldPlanGen s, heldPlanGen_zero s, heldPlanGen_succ s, newPlanKey_gen s⟩,
    newerThanActive_eq_false_iff, fun s d ha => ⟨fun h => ?_, fun f h => ?_, fun f t0 h => ⟨fun r hv => ?_,
      fun frags hv => ⟨fun hk => ?_, fun hk => exec_loadCommit_new ha h hv hk⟩⟩⟩,
    fun frags carried expected => ⟨validate_of_not_right, fun l c hr => ⟨fun hall => ?_, fun r hfirst => ?_⟩⟩,
    fun frags => crc32_eq_bits frags.flatten⟩
  · rw [exec_loadCommit ha, loadCommitTake_free h]
  · rw [exec_loadCommit ha, loadCommitTake_fetching h]
  · exact ⟨_, by rw [exec_loadCommit ha, loadCommitTake_invalid h hv, loadingNow_eq]⟩
  · exact ⟨_, by rw [exec_loadCommit ha, loadCommitTake_valid h hv, commitPlan_old (s := loadingNow s _) hk,
      loadingNow_eq]⟩
  · exact validate_of_sound hr (contentFault_of_all hall)
  · exact validate_of_fault hr (contentFault_of_first hfirst)

end Sys2Proof.Proofs
end

section
/-! What every command keeps: the property of each part of the station, and, where no start event can follow, the
high-water mark (R82) and the uncorrected records (R178). -/

namespace Sys2Proof.Proofs

open Sys2Proof Sys2Proof.Machine Sys2Proof.Laws

/-! ## The high-water mark -/

/-- A set high-water mark stays, or moves to a later second (R82, R83, R85). -/
def MarkMoves (s t : State) : Prop :=
  ∀ h, s.bells.hwm = some h → ∃ n, t.bells.hwm = some n ∧ (n = h ∨ secondLater n h = true)

theorem evolves_hwm {fs : List Field} {s t : State} (e : Evolves fs s t) (w : Field.mark ∉ fs) :
    t.bells.hwm = s.bells.hwm := e.same .mark w

theorem markMoves_of_same {s t : State} (e : t.bells.hwm = s.bells.hwm) : MarkMoves s t :=
  fun h hs => ⟨h, e.trans hs, .inl rfl⟩

theorem markMoves_of_unset {s t : State} (e : s.bells.hwm = none) : MarkMoves s t :=
  fun h hs => by simp [e] at hs

theorem markMoves_to {s t : State} {h n : Nat} (hs : s.bells.hwm = some h) (ht : t.bells.hwm = some n)
    (l : secondLater n h = true) : MarkMoves s t := fun x hx => by
  cases hs.symm.trans hx
  exact ⟨n, ht, .inr l⟩

theorem MarkMoves.after {s t u : State} (m : MarkMoves t u) (e : t.bells.hwm = s.bells.hwm) : MarkMoves s u :=
  fun h hs => m h (e.trans hs)

theorem MarkMoves.followed {s t u : State} (m : MarkMoves s t) (e : u.bells.hwm = t.bells.hwm) : MarkMoves s u :=
  fun h hs => by
    obtain ⟨n, hn, l⟩ := m h hs
    exact ⟨n, e.trans hn, l⟩

theorem fireUpTo_hwm (s : State) (h n : Nat) : (fireUpTo s h n).bells.hwm = some n := rfl

theorem skipUpTo_hwm (s : State) (h n : Nat) : (skipUpTo s h n).bells.hwm = some n := by
  unfold skipUpTo
  dsimp only
  split <;> rfl

theorem schedulerDay_hwm (s : State) (d : BitVec 16) : (schedulerDay s d).bells.hwm = s.bells.hwm :=
  takeDay_hwm _ _ _

theorem bellSecond_mark (s : State) (r : Reading) : MarkMoves s (bellSecond s r) := by
  unfold bellSecond
  split
  · dsimp only
    split
    · exact markMoves_of_same (schedulerDay_hwm _ _)
    · next h hh =>
      split
      · next l => exact markMoves_to ((schedulerDay_hwm _ _).symm.trans hh) (fireUpTo_hwm _ _ _) l
      · exact markMoves_of_same (schedulerDay_hwm _ _)
  · exact markMoves_of_same rfl

theorem bellStep_mark (s : State) (old new : CampusTime) : MarkMoves s (bellStep s old new) := by
  unfold bellStep
  split
  · split
    · exact markMoves_of_same rfl
    · next h hh =>
      dsimp only
      split
      · next l =>
        split
        · exact markMoves_to hh (fireUpTo_hwm _ _ _) l.2
        · exact markMoves_to hh (skipUpTo_hwm _ _ _) l.2
      · exact markMoves_of_same (schedulerDay_hwm _ _)
  · exact markMoves_of_same rfl

theorem bellEstablish_mark (s : State) (t : CampusTime) : MarkMoves s (bellEstablish s t) := by
  unfold bellEstablish
  split
  · next h => exact markMoves_of_unset h.2
  · exact markMoves_of_same rfl

theorem bellEnterRun_mark (s : State) : MarkMoves s (bellEnterRun s) := by
  unfold bellEnterRun
  split
  · next h => exact markMoves_of_unset h.2
  · exact markMoves_of_same rfl

/-! ## A change that keeps the property of each part -/

/-- Every part of State. -/
def allFields : List Field := [.start, .image, .time, .line, .plan, .bells, .clocks, .arb, .synth, .ann, .drill,
  .faults, .port, .store, .mem, .pins, .fresh, .pending, .mark]

/-- From s to t the property of each part is kept, uncorrected records stay, and the high-water mark stays or moves
on: what every command does unless a start event, RESTART or CLEAR BANK follows from it. -/
structure Orderly (s t : State) : Prop where
  ev : Evolves allFields s t
  image : ImageOk s.image → ImageOk t.image
  mark : MarkMoves s t

theorem within_all (fs : List Field) : within fs allFields = true :=
  List.all_eq_true.mpr fun f _ => by cases f <;> rfl

/-- The image and the high-water mark are not among the fields. -/
def plain (fs : List Field) : Bool := !fs.contains .image && !fs.contains .mark

theorem plain_iff {fs : List Field} : plain fs = true ↔ Field.image ∉ fs ∧ Field.mark ∉ fs := by
  simp [plain]

theorem Orderly.refl (s : State) : Orderly s s := ⟨Evolves.refl _ s, id, markMoves_of_same rfl⟩

/-- An evolution that leaves the image and the high-water mark. -/
theorem Orderly.of_ev {fs : List Field} {s t : State} (e : Evolves fs s t) (w : plain fs = true := by decide) :
    Orderly s t :=
  have hi : t.image = s.image := e.same .image (plain_iff.mp w).1
  ⟨e.mono (within_all fs), fun h => hi ▸ h, markMoves_of_same (e.same .mark (plain_iff.mp w).2)⟩

/-- An evolution that leaves the image and moves the high-water mark on. -/
theorem Orderly.of_mark {fs : List Field} {s t : State} (e : Evolves fs s t) (m : MarkMoves s t)
    (w : Field.image ∉ fs := by decide) : Orderly s t :=
  have hi : t.image = s.image := e.same .image w
  ⟨e.mono (within_all fs), fun h => hi ▸ h, m⟩

theorem Orderly.after {fs : List Field} {s t u : State} (o : Orderly t u) (e : Evolves fs s t)
    (w : plain fs = true := by decide) : Orderly s u :=
  ⟨(e.mono (within_all fs)).then o.ev, fun h => o.image ((Orderly.of_ev e w).image h),
    o.mark.after (e.same .mark (plain_iff.mp w).2)⟩

theorem Orderly.followed {fs : List Field} {s t u : State} (o : Orderly s t) (e : Evolves fs t u)
    (w : plain fs = true := by decide) : Orderly s u :=
  ⟨o.ev.then (e.mono (within_all fs)), fun h => (Orderly.of_ev e w).image (o.image h),
    o.mark.followed (e.same .mark (plain_iff.mp w).2)⟩

theorem orderly_ite {p : Prop} [Decidable p] {s t u : State} (h : p → Orderly s t) (k : ¬ p → Orderly s u) :
    Orderly s (if p then t else u) := by
  split
  · next x => exact h x
  · next x => exact k x

theorem orderly_when {p : Prop} [Decidable p] {s t : State} (h : Orderly s t) : Orderly s (if p then t else s) :=
  orderly_ite (fun _ => h) fun _ => .refl s

theorem alive_orderly {s t : State} (h : Orderly s t) : Orderly s (whenAlive s t) := orderly_when h

theorem working_orderly {s t : State} (h : Orderly s t) : Orderly s (whenWorking s t) := orderly_when h

theorem listening_orderly {s t : State} (h : Orderly s t) : Orderly s (whenListening s t) :=
  orderly_ite (fun _ => h) fun _ => .of_ev (lineLevel_ev s false)

theorem answerWith_ev (s : State) (r : Response) : Evolves [.port] s (answerWith s r) := (Evolves.refl _ s).withPort

theorem panel_orderly {s : State} {f : State → State × Response} (h : Orderly s (f s).1) :
    Orderly s (panelTake s f) := by
  unfold panelTake
  split
  · split
    · exact .refl s
    · exact .of_ev (answerWith_ev s _)
    · exact h.followed (answerWith_ev _ _)
  · exact .refl s

/-! ## The operations that move the high-water mark -/

/-- The notices of a step after the Bell Unit's, and its record, leave the high-water mark. -/
theorem stepBy_mark (s : State) (c : Int) : MarkMoves s (stepBy s c) := by
  by_cases hc : c = 0
  · exact markMoves_of_same (by rw [hc]; rfl)
  · rw [stepBy_eq s c hc]
    refine ((bellStep_mark _ _ _).after ?_).followed (evolves_hwm (fs := [.clocks, .ann, .arb, .synth, .faults])
      ((((clockAll_ev _ _).mono.then (annStep_ev _ _)).then (report_ev _ _)).then (raise_ev _ _)) (by decide))
    rfl

theorem stepBy_orderly (s : State) (c : Int) : Orderly s (stepBy s c) := .of_mark (stepBy_ev s c) (stepBy_mark s c)

theorem applyCorrection_orderly (s : State) (c : Int) : Orderly s (applyCorrection s c) := by
  refine orderly_ite (fun _ => .refl s) fun _ => orderly_ite (fun _ => stepBy_orderly s c) fun _ => ?_
  exact .of_ev ((Evolves.refl [.time] s).withTime (timeOk_same rfl rfl rfl))

theorem establish_mark (s : State) (t : CampusTime) (q : Quality) : MarkMoves s (establish s t q) := by
  unfold establish
  refine ((bellEstablish_mark _ _).after ?_).followed (evolves_hwm (fs := [.clocks, .faults])
      (((clockAll_ev _ _).mono.then (raise_ev _ _)).then (computeStatus_ev _)) (by decide))
  rfl

theorem establish_orderly (s : State) (t : CampusTime) (q : Quality) (h : TimeOk s.time → t.ms < dayMs) :
    Orderly s (establish s t q) := .of_mark (establish_ev s t q h) (establish_mark s t q)

theorem takeSettime_orderly (s : State) (k : Key) (d : Int) : Orderly s (takeSettime s k d) := by
  unfold takeSettime
  refine orderly_when ?_
  dsimp only
  have step : Orderly s (if s.time.quality = .unset then s else stepBy s (settimeStep s.time k d)) :=
    orderly_ite (fun _ => .refl s) fun _ => stepBy_orderly s _
  have key := step.followed ((Evolves.refl [.time] _).withTime (applyKey_ok _ k d))
  refine orderly_ite (fun _ => ?_) fun _ => key
  exact (key.followed (report_ev _ _)).followed (raise_ev _ _)

theorem agreementRound_orderly (s : State) : Orderly s (agreementRound s) := by
  refine .of_mark (agreementRound_ev s) ?_
  unfold agreementRound
  refine (orderly_ite (fun _ => .refl s) fun _ => ?_).mark
  dsimp only
  have count : Evolves [.time] s (s.withTime { s.time with
      emptyRounds := roundCount s.time.emptyRounds (decide (eligible s = [])) }) :=
    (Evolves.refl _ s).withTime fun k => ⟨k.1, k.2.1, roundCount_le _ _⟩
  have corrected := ((applyCorrection_orderly _ (correction (workingSet s.time.quality (eligible s)))).after
    (roundQuality_ev _ (decide (eligible s = [])))).after count
  refine Orderly.followed ?_ (ageSamples_ev _)
  exact orderly_ite (fun _ => corrected.followed ((Evolves.refl [.time] _).withTime (applyPending_ok _ _)))
    fun _ => corrected

theorem takeBeacon_mark (s : State) (p : StationNo) (c : BeaconContent) : MarkMoves s (takeBeacon s p c) := by
  unfold takeBeacon
  dsimp only
  split
  · split
    · exact markMoves_of_same rfl
    · refine (establish_mark _ _ _).after ?_
      rfl
  · exact markMoves_of_same rfl

theorem acceptMark_mark (s : State) (l : CampusTime) : MarkMoves s (acceptMark s l) := by
  unfold acceptMark
  dsimp only
  split
  · exact (establish_mark _ _ _).after rfl
  · refine MarkMoves.followed ?_ (evolves_hwm (setQuality_ev _ _) (by decide))
    refine (applyCorrection_orderly _ _).mark.after ?_
    rfl

theorem decideMark_mark (s : State) : MarkMoves s (decideMark s) := by
  unfold decideMark
  split
  · split
    · exact acceptMark_mark _ _
    · exact markMoves_of_same rfl
  · exact markMoves_of_same rfl

theorem enterRun_mark (s : State) : MarkMoves s (enterRun s) := by
  unfold enterRun
  dsimp only
  refine ((bellEnterRun_mark _).after ?_).followed (evolves_hwm (clockAll_ev _ _) (by decide))
  exact evolves_hwm (fs := [.start, .time, .line, .plan, .drill, .faults]) (((((Evolves.refl _ s).withStart).then
    (startBeaconTimer_ev _)).then (offerBeacon_ev _)).then (evaluateFetch_ev _)) (by decide)

theorem beginReal_mark (s : State) : MarkMoves s (beginReal s) := by
  unfold beginReal
  dsimp only
  have began : (beginDrill s .real).bells.hwm = s.bells.hwm := evolves_hwm (beginDrill_ev _ _) (by decide)
  split
  · exact (enterRun_mark _).after began
  · exact markMoves_of_same began

theorem faAct_mark (s : State) : MarkMoves s (faAct s) := by
  unfold faAct
  split
  · exact beginReal_mark s
  · exact beginReal_mark s
  · split
    · exact markMoves_of_same (evolves_hwm (offerState_ev s) (by decide))
    · exact (beginReal_mark _).after (evolves_hwm (overridePractice_ev s _) (by decide))

theorem actLatched_mark (s : State) : MarkMoves s (actLatched s) := by
  unfold actLatched
  dsimp only
  have fa : MarkMoves s (if s.start.faLatched = true
      then faAct (s.withStart { s.start with faLatched := false, dkLatched := false })
      else s.withStart { s.start with faLatched := false, dkLatched := false }) := by
    split
    · exact (faAct_mark _).after rfl
    · exact markMoves_of_same rfl
  split
  · exact fa.followed (evolves_hwm (dkAct_ev _) (by decide))
  · exact fa

theorem handEnd_mark (p : StationNo) (e : EndedDrill) (s : State) : MarkMoves s (handEnd p e s) := by
  unfold handEnd
  dsimp only
  have taken : (takeEndFrame (setFaActive s p none) e).bells.hwm = s.bells.hwm :=
    (evolves_hwm (takeEndFrame_ev _ _) (by decide)).trans (evolves_hwm (setFaActive_ev _ _ _) (by decide))
  split
  · exact (beginReal_mark _).after taken
  · exact markMoves_of_same taken

theorem handBeacon_mark (p : StationNo) (c : BeaconContent) (s : State) : MarkMoves s (handBeacon p c s) := by
  unfold handBeacon
  dsimp only
  split
  · exact (takeBeacon_mark s p c).followed (evolves_hwm (planReported_ev _) (by decide))
  · exact takeBeacon_mark s p c

theorem joinExpiry_mark (s : State) : MarkMoves s (joinExpiry s) := by
  unfold joinExpiry
  dsimp only
  split
  · exact markMoves_of_same rfl
  · exact (enterRun_mark _).after rfl

theorem beaconTimer_orderly (s : State) : Orderly s (offerBeacon (agreementRound (startBeaconTimer s))) :=
  ((agreementRound_orderly _).after (startBeaconTimer_ev s)).followed (offerBeacon_ev _)

theorem setTimeTake_orderly (t : CampusTime) (s : State) : Orderly s (setTimeTake t s).1 := by
  unfold setTimeTake
  split
  · exact .refl s
  · next h =>
    split
    · have ht : t.ms < dayMs := by unfold dayMs; omega
      dsimp only
      exact establish_orderly s t .synced fun _ => ht
    · unfold makeSet
      dsimp only
      have dropped : Evolves [.time] s (s.withTime { s.time with setCopies := none }) :=
        (Evolves.refl _ s).withTime fun k => k
      refine Orderly.followed ?_ (offer_ev _ _)
      refine ((stepBy_orderly _ _).after dropped).followed ((Evolves.refl [.time] _).withTime fun k => ?_)
      exact timeOk_same rfl rfl rfl k

/-! ## Received frames -/

/-- A received frame does what its owner does, and what goes before and after it (R44 to R46). -/
theorem receive_orderly (s : State) (kind : FrameKind) (p : StationNo) (payload : List Byte)
    (hand : Option (State → State)) (h : ∀ f, hand = some f → ∀ u, Orderly u (f u)) :
    Orderly s (receive s kind p payload hand) := by
  unfold receive
  refine orderly_ite (fun _ => .of_ev (damagedFrame_ev s _)) fun _ =>
    orderly_ite (fun _ => .of_ev (duplicateFrame_ev s)) fun _ => ?_
  dsimp only
  refine Orderly.followed ?_ (dropCapture_ev _)
  cases hand with
  | none => exact .of_ev (frameHeard_ev s p)
  | some f => exact (h f rfl _).after (frameHeard_ev s p)

/-- A frame whose payload has been read, at the end of its activity (R29, R43 to R46). -/
theorem frame_orderly {α : Type} {f : α → State → State} (s : State) (kind : FrameKind) (p : StationNo)
    (payload : List Byte) (x : Option α) (h : ∀ a u, Orderly u (f a u)) :
    Orderly s (whenListening s (receive s kind p payload (x.map f))) :=
  listening_orderly (receive_orderly s kind p payload _ fun g hg u => by
    obtain ⟨a, -, rfl⟩ := Option.map_eq_some_iff.mp hg
    exact h a u)

/-! ## The panel commands and events without a lemma of their own among the laws -/

theorem labelTake_ev (t : CampusTime) (s : State) : Evolves [.time] s (labelTake t s).1 := by
  unfold labelTake
  split
  · next h =>
    have ht : t.ms < dayMs := by simp [labelOk] at h; unfold dayMs; omega
    exact (Evolves.refl _ s).withTime fun k => ⟨k.1, fun l hl => Option.some.inj hl ▸ ht, k.2.2⟩
  · exact Evolves.refl _ s

theorem onImpulse_ev {s : State} {n : Nat} {f : ClockNo → State × Response}
    (h : ∀ c, Evolves [.clocks] s (f c).1) : Evolves [.clocks] s (onImpulse s n f).1 := by
  unfold onImpulse
  split
  · dsimp only
    split
    · exact h _
    · exact Evolves.refl _ s
  · exact Evolves.refl _ s

theorem dialSetTake_ev (n : Nat) (p : Option Nat) (x : Polarity) (s : State) :
    Evolves [.clocks] s (dialSetTake n p x s).1 := by
  unfold dialSetTake
  split
  · exact Evolves.refl _ s
  · next h =>
    refine onImpulse_ev fun c => ?_
    unfold dialSetOn
    dsimp only
    split
    · exact Evolves.refl _ s
    · exact (setImpulse_ev s c _ fun _ q hq => by simp_all).then (evaluate_ev _ _ _)

theorem clockClearOn_ev (s : State) (c : ClockNo) : Evolves [.clocks] s (clockClearOn s c).1 :=
  (setImpulse_ev_same s c { s.clocks[c].impulse with
    failCount := 0
    state := if s.clocks[c].impulse.state = .faulted then .stopped else s.clocks[c].impulse.state } rfl).then
    (evaluate_ev _ c _)

theorem readNoticesTake_ev (s : State) : Evolves [.faults] s (readNoticesTake s).1 :=
  (Evolves.refl _ s).withFaults id (recordsStay_refl _)

theorem takeAnswer_ev (s : State) : Evolves [.port] s (takeAnswer s) := by
  unfold takeAnswer
  split
  · exact Evolves.refl _ s
  · exact (Evolves.refl _ s).withPort

theorem contention_ev (s : State) :
    Evolves [.line] s (s.withLine { beginAttempt s.line with stuckFrom := s.time.localCount }) :=
  (Evolves.refl _ s).withLine fun k => lineOk_same rfl (beginAttempt_ok _ k)

theorem evacStep_ev (s : State) (now : Count) : Evolves [.bells] s (s.withBells (evacStep s.bells now)) := by
  unfold evacStep
  split
  · exact (Evolves.refl _ s).withBells (bellsOk_same rfl rfl) rfl
  · exact (Evolves.refl _ s).withBells id rfl

theorem practiceIn_ev {fs : List Field} {s : State} {st : DrillState} {f : DrillRecord → State}
    (h : ∀ r, Evolves fs s (f r)) : Evolves fs s (practiceIn s st f) := by
  unfold practiceIn
  split
  · exact Evolves.refl _ s
  · split
    · exact h _
    · exact Evolves.refl _ s

theorem activation_orderly {s kept acted : State} (h : Orderly s kept) (k : Orderly s acted) :
    Orderly s (activation s kept acted) := by
  unfold activation
  split
  · exact h
  · exact .refl s
  · exact k

theorem faIs_ev (s : State) (b : Bool) : Evolves [.start, .pins] s (faIs s b) := by
  unfold faIs
  split
  · exact (Evolves.refl _ s).withStart
  · exact (Evolves.refl _ s).withPins

/-- A circuit that HALT cuts off keeps its position (R103). -/
theorem haltImpulse_position (r : ImpulseRecord) : (haltImpulse r).position = r.position := by
  unfold haltImpulse
  split <;> rfl

theorem enterHalt_ev (s : State) :
    Evolves [.start, .store, .clocks, .line, .time, .plan, .drill, .synth, .faults, .port] s (enterHalt s) where
  same f hf := by cases f <;> first | rfl | exact absurd (by decide) hf
  line _ := emptyQueue_ok s.line
  time := timeOk_same rfl rfl rfl
  arb := id
  drill := drillOk_same rfl
  faults := id
  bells := id
  clocks k c p hp := k c p (by
    simp only [enterHalt, Fin.getElem_fin, Vector.getElem_ofFn, haltClock, haltImpulse_position] at hp
    exact hp)
  ann := id
  records := recordsStay_refl _

theorem lossOfPower_ev (s : State) : Evolves [.mem, .fresh, .store, .start] s
    (((cutDialWrite s).withStart { (cutDialWrite s).start with powered := false }).withStore ⟨.idle, false⟩) :=
  (((cutDialWrite_ev s).mono).withStart).withStore

/-- What the dial record gives a circuit is a minute of the dial (R112). -/
theorem restoreDial_ev (s : State) (l : Option (List DialEntry)) (c : ClockNo)
    (h : ∀ p, (restoredFrom (l.bind (·[c.val]?))).1 = some p → p < 720) :
    Evolves [.clocks, .faults] s (restoreDial s l c) := by
  unfold restoreDial
  split
  · dsimp only
    have set : Evolves [.clocks, .faults] s (setImpulse s c { ImpulseRecord.initial with
        position := (restoredFrom (l.bind (·[c.val]?))).1
        polarity := (restoredFrom (l.bind (·[c.val]?))).2.1 }) := (setImpulse_ev s c _ fun _ => h).mono
    split <;> split
    · exact (set.then (report_ev _ _)).then (raise_ev _ _)
    · exact set.then (raise_ev _ _)
    · exact set.then (report_ev _ _)
    · exact set
  · exact Evolves.refl _ s

theorem dialEntryOf_position (bs : List Byte) : ∀ p, (dialEntryOf bs).position = some p → p < 720 := by
  intro p hp
  simp only [dialEntryOf] at hp
  split at hp
  · simp_all
  · simp at hp

theorem readDial_position {m : Memory} {b : Bool} {l : List DialEntry} (h : readDial m b = some l) :
    ∀ e ∈ l, ∀ p, e.position = some p → p < 720 := by
  unfold readDial dialOf at h
  split at h
  · simp at h
  · split at h
    · cases h
      intro e he
      obtain ⟨i, -, rfl⟩ := List.mem_map.mp he
      exact dialEntryOf_position _
    · simp at h

theorem restoredFrom_position {e : Option DialEntry} (h : ∀ x, e = some x → ∀ p, x.position = some p → p < 720) :
    ∀ p, (restoredFrom e).1 = some p → p < 720 := by
  intro p hp
  unfold restoredFrom at hp
  split at hp
  · simp at hp
  · next x =>
    split at hp
    · simp at hp
    · split at hp
      · simp at hp
      · exact h x rfl p hp

theorem restoreDials_ev (s : State) (m : Memory) (b : Bool) :
    Evolves [.clocks, .faults] s (restoreDials s (readDial m b)) :=
  foldl_evolves (fun u c => restoreDial_ev u _ c (restoredFrom_position fun x hx => by
    obtain ⟨l, hl, hm⟩ := Option.bind_eq_some_iff.mp hx
    exact readDial_position hl x (List.mem_of_getElem? hm))) _ s

theorem takeDialRecord_orderly (s : State) (b : Bool) : Orderly s (takeDialRecord s b) := by
  unfold takeDialRecord
  dsimp only
  have ready : Evolves [.clocks, .faults, .start, .store] s
      (((restoreDials s (readDial s.mem b)).withStart
        { (restoreDials s (readDial s.mem b)).start with dialRestored := true }).withStore
          ⟨.marking, s.store.wanted⟩) := (((restoreDials_ev s s.mem b).mono).withStart).withStore
  refine .of_mark ((ready.mono (fs := [.mark, .start, .drill, .bells, .arb, .synth, .ann, .faults, .clocks, .line,
    .plan, .time, .store])).then (enterJoin_ev _)) ?_
  exact ((actLatched_mark _).after (evolves_hwm (joinState_ev _) (by decide))).after (evolves_hwm ready (by decide))

/-! ## The image -/

/-- An IMPULSE circuit of an image that is not bad has its settings in their ranges (R96, R199). -/
theorem clockConfigOf_impulse {bs : List Byte} {c : ClockConfig} (h : clockConfigOf bs = some c)
    (k : c.kind = .impulse) : 500 ≤ c.impulseLength ∧ c.impulseLength ≤ 2000 ∧ c.holdLimit ≤ 120 := by
  unfold clockConfigOf at h
  dsimp only at h
  split at h
  · cases h; cases k
  · split at h
    · next r => cases h; exact ⟨r.1, r.2.1, r.2.2.2⟩
    · simp at h
  · cases h; cases k
  · simp at h

theorem imageOf_ok {bs : List Byte} {i : Image} (h : imageOf bs = some i) : ImageOk i := by
  unfold imageOf at h
  obtain ⟨bells, -, h⟩ := Option.bind_eq_some_iff.mp h
  obtain ⟨clocks, hc, h⟩ := Option.bind_eq_some_iff.mp h
  dsimp only at h
  split at h
  · next r =>
    obtain ⟨-, zones, zonesMax, period, periodMax, -, levels, threshold, thresholdMax⟩ := r
    cases h
    refine ⟨zones, zonesMax, period, periodMax, threshold, thresholdMax, fun k => ?_, fun c k => ?_⟩
    · have := List.all_eq_true.mp levels _ (Vector.mem_toList_iff.mpr (Vector.getElem_mem (noticeIndex k).isLt))
      exact of_decide_eq_true this
    · refine clockConfigOf_impulse (bs := field bs (6 + 4 * c.val) 4) ?_ k
      have := (allSome_iff _ _).mp hc c
      simpa only [Fin.getElem_fin, Vector.getElem_ofFn] using this
  · simp at h

theorem builtIn_ok : ImageOk Image.builtIn := by
  refine ⟨by decide, by decide, by decide, by decide, by decide, by decide, fun k => ?_, fun c k => ?_⟩
  · cases k <;> decide
  · revert c; decide

theorem takeImage_imageOk (s : State) (b : Bool) : ImageOk (takeImage s b).image := by
  unfold takeImage
  dsimp only
  split
  · next i hi =>
    unfold readImage at hi
    split at hi
    · simp at hi
    · exact imageOf_ok hi
  · exact builtIn_ok

theorem takeImage_orderly (s : State) (b : Bool) : Orderly s (takeImage s b) :=
  ⟨(takeImage_ev s b).mono (within_all _), fun _ => takeImage_imageOk s b,
    markMoves_of_same (evolves_hwm (takeImage_ev s b) (by decide))⟩

/-! ## The property of each part -/

/-- From s to t the property of each part is kept. -/
structure PartsKept (s t : State) : Prop where
  line : LineOk s.line → LineOk t.line
  time : TimeOk s.time → TimeOk t.time
  arb : ArbOk s.arb → ArbOk t.arb
  drill : DrillOk s.drill → DrillOk t.drill
  faults : FaultsOk s.faults → FaultsOk t.faults
  bells : BellsOk s.bells → BellsOk t.bells
  clocks : ClocksOk s.clocks → ClocksOk t.clocks
  image : ImageOk s.image → ImageOk t.image
  ann : AnnOk s.ann → AnnOk t.ann

theorem Orderly.parts {s t : State} (o : Orderly s t) : PartsKept s t :=
  ⟨o.ev.line, o.ev.time, o.ev.arb, o.ev.drill, o.ev.faults, o.ev.bells, o.ev.clocks, o.image, o.ev.ann⟩

theorem PartsKept.refl (s : State) : PartsKept s s := (Orderly.refl s).parts

theorem PartsKept.trans {s t u : State} (h : PartsKept s t) (k : PartsKept t u) : PartsKept s u :=
  ⟨fun x => k.line (h.line x), fun x => k.time (h.time x), fun x => k.arb (h.arb x), fun x => k.drill (h.drill x),
    fun x => k.faults (h.faults x), fun x => k.bells (h.bells x), fun x => k.clocks (h.clocks x),
    fun x => k.image (h.image x), fun x => k.ann (h.ann x)⟩

theorem partsKept_ite {p : Prop} [Decidable p] {s t u : State} (h : PartsKept s t) (k : PartsKept s u) :
    PartsKept s (if p then t else u) := by
  split
  · exact h
  · exact k

/-! ## A bit time -/

theorem millisecond_ev (s : State) : Evolves [.time, .pins, .start, .pending] s (millisecond s) := by
  unfold millisecond
  dsimp only
  refine ((Evolves.withStart (Evolves.withPins ?_))).withPending
  unfold dropBoundaries
  have ticked : Evolves [.time, .pins, .start, .pending] s (s.withTime (msTick s.time)) :=
    (Evolves.refl _ s).withTime (msTick_ok _)
  split
  · exact ticked
  · exact ticked.withTime (timeOk_same rfl rfl rfl)

theorem passMillisecond_ev (s : State) : Evolves [.time, .pins, .start, .pending] s (passMillisecond s) := by
  unfold passMillisecond
  dsimp only
  split
  · exact ((Evolves.refl _ s).withStart).then (millisecond_ev _)
  · exact (Evolves.refl _ s).withStart

theorem passSample_ev (s : State) : Evolves [.start, .synth] s (passSample s) := by
  unfold passSample
  dsimp only
  split
  · exact ((Evolves.refl _ s).withStart).withSynth
  · exact (Evolves.refl _ s).withStart

theorem passQuiet_ev (s : State) : Evolves [.line] s (passQuiet s) := by
  unfold passQuiet
  split
  · exact (Evolves.refl _ s).withLine (lineOk_same rfl)
  · exact Evolves.refl _ s

theorem passCodes_ev (s : State) : Evolves [.clocks] s (passCodes s) := by
  rw [passCodes_eq]
  refine (Evolves.refl _ s).withClocks fun k c p hp => k c p ?_
  simpa only [Fin.getElem_fin, Vector.getElem_ofFn] using hp

theorem tick_ev (s : State) : Evolves [.time, .line, .synth, .pins, .start, .pending, .clocks] s (tick s) := by
  unfold tick
  split
  · exact (((((passMillisecond_ev s).mono).then (passQuiet_ev _)).then (passSample_ev _)).then
      (passCodes_ev _)).withPending
  · exact Evolves.refl _ s

/-! ## Every command -/

/-- A start event or RESTART can follow from the command (R198, R203, R204, R207). -/
def mayStart : Instr → Bool
  | .powerOn | .resetAssert | .resetRelease | .pfwEnd | .dialWriteComplete | .writeFailure | .restart => true
  | _ => false

/-- A command from which no start event can follow, CLEAR BANK apart, is orderly. -/
theorem exec_orderly (i : Instr) (s : State) (h : mayStart i = false) (hb : ∀ n, i ≠ .clearBank n) :
    ∃ t, exec i s = .next t ∧ Orderly s t := by
  cases i with
  | setTime t => exact ⟨_, rfl, panel_orderly (setTimeTake_orderly t s)⟩
  | referenceLabel t => exact ⟨_, rfl, panel_orderly (.of_ev (labelTake_ev t s))⟩
  | loadBegin choice => exact ⟨_, rfl, panel_orderly (.of_ev (loadBeginTake_ev s choice))⟩
  | loadFragment n l => exact ⟨_, rfl, panel_orderly (.of_ev (loadFragmentTake_ev s n l))⟩
  | loadCommit d => exact ⟨_, rfl, panel_orderly (.of_ev (loadCommitTake_ev s d))⟩
  | loadAbort => exact ⟨_, rfl, panel_orderly (.of_ev (loadAbortTake_ev s))⟩
  | overrideAdd a b k => exact ⟨_, rfl, panel_orderly (.of_ev (overrideAddTake_ev s _))⟩
  | overrideRemove n => exact ⟨_, rfl, panel_orderly (.of_ev (overrideRemoveTake_ev s n))⟩
  | readPlanItem x => exact ⟨_, rfl, panel_orderly (.refl s)⟩
  | ring m n => exact ⟨_, rfl, panel_orderly (.of_ev (ringTake_ev s m n))⟩
  | dialSet n p x => exact ⟨_, rfl, panel_orderly (.of_ev (dialSetTake_ev n p x s))⟩
  | clockClear n => exact ⟨_, rfl, panel_orderly (.of_ev (onImpulse_ev (clockClearOn_ev s)))⟩
  | readClockCircuit n => exact ⟨_, rfl, panel_orderly (.refl s)⟩
  | announce p => exact ⟨_, rfl, panel_orderly (.of_ev (announceTake_ev s p))⟩
  | announceEnd q => exact ⟨_, rfl, panel_orderly (.of_ev (announceEndTake_ev s q))⟩
  | drillStart b => exact ⟨_, rfl, panel_orderly (.of_ev (drillStartTake_ev s b))⟩
  | signalStop => exact ⟨_, rfl, panel_orderly (.of_ev (signalStopTake_ev s))⟩
  | buildingClear => exact ⟨_, rfl, panel_orderly (.of_ev (buildingClearTake_ev s))⟩
  | drillEnd => exact ⟨_, rfl, panel_orderly (.of_ev (drillEndTake_ev s))⟩
  | alarmReset => exact ⟨_, rfl, panel_orderly (.of_ev (alarmResetTake_ev s))⟩
  | readDrillRecord c => exact ⟨_, rfl, panel_orderly (.refl s)⟩
  | readStatus => exact ⟨_, rfl, panel_orderly (.refl s)⟩
  | readRosterEntry n => exact ⟨_, rfl, panel_orderly (.refl s)⟩
  | readBank n => exact ⟨_, rfl, panel_orderly (.refl s)⟩
  | clearBank n => exact absurd rfl (hb n)
  | readNotices => exact ⟨_, rfl, panel_orderly (.of_ev (readNoticesTake_ev s))⟩
  | restart => cases h
  | panelRequest l => exact ⟨_, rfl, alive_orderly (.of_ev (Evolves.refl [.port] s).withPort)⟩
  | fetch n => exact ⟨_, rfl, alive_orderly (.of_ev (Evolves.refl [.port] s).withPort)⟩
  | transactionEnd l => exact ⟨_, rfl, alive_orderly (.of_ev (Evolves.refl [.port] s).withPort)⟩
  | ownerAnswer => exact ⟨_, rfl, orderly_when (.of_ev (takeAnswer_ev s))⟩
  | minuteMark =>
    exact ⟨_, rfl, orderly_when (Orderly.after (.of_mark (decideMark_ev _) (decideMark_mark _))
      (Evolves.refl [.pins] s).withPins)⟩
  | referenceLapse => exact ⟨_, rfl, working_orderly (orderly_when (.of_ev (lapseReference_ev s)))⟩
  | beaconTimer => exact ⟨_, rfl, orderly_when (beaconTimer_orderly s)⟩
  | slewTick =>
    exact ⟨_, rfl, working_orderly (orderly_ite (fun _ => .refl s) fun _ =>
      .of_ev ((Evolves.refl [.time] s).withTime fun k => msTick_ok _ k))⟩
  | secondBoundary =>
    exact ⟨_, rfl, working_orderly (Orderly.after (.of_mark (bellSecond_ev _ _) (bellSecond_mark _ _))
      ((Evolves.refl [.time] s).withTime fun k => k))⟩
  | minuteBoundary =>
    exact ⟨_, rfl, working_orderly (Orderly.after (.of_ev (clockAll_ev _ _))
      ((Evolves.refl [.time] s).withTime fun k => k))⟩
  | settimeCopy => exact ⟨_, rfl, working_orderly (.of_ev (nextSetCopy_ev s))⟩
  | contentionInstant => exact ⟨_, rfl, orderly_when (.of_ev (contention_ev s))⟩
  | frameSent =>
    refine ⟨_, rfl, working_orderly ?_⟩
    split
    · exact .of_ev (frameSent_ev s _)
    · exact .refl s
  | echoMismatch =>
    refine ⟨_, rfl, working_orderly ?_⟩
    split
    · exact .of_ev (attemptFailed_ev s _)
    · exact .refl s
  | deferenceLapse =>
    exact ⟨_, rfl, working_orderly (.of_ev ((Evolves.refl [.line] s).withLine (lineOk_same rfl)))⟩
  | stuckWatch => exact ⟨_, rfl, working_orderly (.of_ev (stuckLine_ev s))⟩
  | damagedFrame d => exact ⟨_, rfl, listening_orderly (.of_ev (damagedFrame_ev s d))⟩
  | duplicateStation => exact ⟨_, rfl, listening_orderly (.of_ev (duplicateFrame_ev s))⟩
  | absenceDeadline p => exact ⟨_, rfl, working_orderly (orderly_when (.of_ev (losePeer_ev s p)))⟩
  | beacon p l =>
    exact ⟨_, rfl, frame_orderly s _ p l _ fun c u => .of_mark (handBeacon_ev u p c) (handBeacon_mark p c u)⟩
  | settime p l => exact ⟨_, rfl, frame_orderly s _ p l _ fun x u => takeSettime_orderly u x.1 x.2⟩
  | plan p l => exact ⟨_, rfl, frame_orderly s _ p l _ fun x u => .of_ev (handPlan_ev u x)⟩
  | planreq p l => exact ⟨_, rfl, frame_orderly s _ p l _ fun x u => .of_ev (takePlanreq_ev u x.1 x.2)⟩
  | servePause =>
    exact ⟨_, rfl, working_orderly (orderly_when (.of_ev ((Evolves.refl [.line, .plan, .faults] s).withPlan.then
      (runCursor_ev _))))⟩
  | loadTimer =>
    refine ⟨_, rfl, working_orderly ?_⟩
    split
    · exact .of_ev (stagingExpiry_ev (abandonLoad_ev s _) (by decide))
    · exact .refl s
  | noProgressTimer =>
    refine ⟨_, rfl, working_orderly ?_⟩
    split
    · exact .of_ev (stagingExpiry_ev (fetchExpired_ev s _) (by decide))
    · exact .refl s
  | announceFrame p l => exact ⟨_, rfl, frame_orderly s _ p l _ fun c u => .of_ev (handAnnounce_ev u p c)⟩
  | annend p l => exact ⟨_, rfl, frame_orderly s _ p l _ fun x u => .of_ev (handAnnend_ev u p x)⟩
  | startTrigger i => exact ⟨_, rfl, working_orderly (.of_ev (startEntry_ev s i))⟩
  | gatherLimit i => exact ⟨_, rfl, working_orderly (.of_ev (startEntry_ev s i))⟩
  | endDeadline i => exact ⟨_, rfl, working_orderly (.of_ev (endPlaying_ev s i _ _))⟩
  | liveRecordExpiry => exact ⟨_, rfl, working_orderly (.of_ev (dropLive_ev s))⟩
  | chimeComplete i => exact ⟨_, rfl, working_orderly (.of_ev (endPlaying_ev s i _ _))⟩
  | announceClaimNotice i =>
    exact ⟨_, rfl, working_orderly (.of_ev (takeNotice_ev (fun t n => annNotice_ev t i n) (by decide) (by decide)))⟩
  | endAllOrder => exact ⟨_, rfl, working_orderly (.of_ev (endAllEntries_ev s))⟩
  | waitDeadline k => exact ⟨_, rfl, working_orderly (.of_ev (withArbiter_ev s _ expireWaits_ok))⟩
  | pulseOnEnd c => exact ⟨_, rfl, working_orderly (.of_ev (pulseOnEnd_ev s c))⟩
  | pulseOffEnd c => exact ⟨_, rfl, working_orderly (.of_ev (pulseOffEnd_ev s c))⟩
  | restEnd c => exact ⟨_, rfl, working_orderly (.of_ev (genRestEnd_ev s c))⟩
  | evacPattern => exact ⟨_, rfl, working_orderly (.of_ev (evacStep_ev s _))⟩
  | bellButtonPress =>
    exact ⟨_, rfl, orderly_when (Orderly.after (.of_ev (pressRings_ev _)) (Evolves.refl [.pins] s).withPins)⟩
  | bellClaimNotice k =>
    exact ⟨_, rfl, working_orderly (.of_ev (takeNotice_ev (fun t n => bellNotice_ev t k n) (by decide) (by decide)))⟩
  | suppressOrder =>
    exact ⟨_, rfl, working_orderly (.of_ev ((Evolves.refl [.bells] s).withBells (suppressBells_ok _)
      (suppressBells_hwm _)))⟩
  | evacuationOrder => exact ⟨_, rfl, working_orderly (.of_ev (evacuateBells_ev s))⟩
  | stopOrder =>
    exact ⟨_, rfl, working_orderly (.of_ev ((Evolves.refl [.bells] s).withBells (stopBells_ok _) (stopBells_hwm _)))⟩
  | resumeOrder =>
    exact ⟨_, rfl, working_orderly (.of_ev ((Evolves.refl [.bells] s).withBells (resumeBells_ok _)
      (resumeBells_hwm _)))⟩
  | impulseMidpoint c x => exact ⟨_, rfl, working_orderly (.of_ev (impulseMid_ev s c x))⟩
  | impulseEnd c => exact ⟨_, rfl, working_orderly (.of_ev (impulseOver_ev s c))⟩
  | impulseRestEnd c => exact ⟨_, rfl, working_orderly (.of_ev (restOver_ev s c))⟩
  | codeFrameEnd c => exact ⟨_, rfl, working_orderly (.of_ev (codeEnd_ev s c))⟩
  | faActivation =>
    refine ⟨_, rfl, alive_orderly (activation_orderly (.of_ev ((faIs_ev s true).withStart)) ?_)⟩
    exact Orderly.after (.of_mark (faAct_ev _) (faAct_mark _)) (faIs_ev s true)
  | faRelease =>
    exact ⟨_, rfl, alive_orderly (activation_orderly (.of_ev (faIs_ev s false))
      (Orderly.after (.of_ev (offerState_ev _)) (faIs_ev s false)))⟩
  | dkActivation =>
    have active : Evolves [.pins, .start] s (dkActive s) := (Evolves.refl _ s).withPins
    exact ⟨_, rfl, alive_orderly (activation_orderly (.of_ev active.withStart)
      (Orderly.after (.of_ev (dkAct_ev _)) active))⟩
  | drillStateFrame p l => exact ⟨_, rfl, frame_orderly s _ p _ _ fun c u => .of_ev (handDrillState_ev u p c)⟩
  | endFrame p l =>
    exact ⟨_, rfl, frame_orderly s _ p _ _ fun e u => .of_mark (handEnd_ev u p e) (handEnd_mark p e u)⟩
  | periodicFrameTimer => exact ⟨_, rfl, working_orderly (.of_ev (offerState_ev s))⟩
  | endCopy => exact ⟨_, rfl, working_orderly (.of_ev (nextEndCopy_ev s))⟩
  | evacuationDeadline => exact ⟨_, rfl, working_orderly (.of_ev (practiceIn_ev fun r => toAssemble_ev s r _))⟩
  | assembleDeadline => exact ⟨_, rfl, working_orderly (.of_ev (practiceIn_ev fun r => timeOut_ev s r))⟩
  | endOfAllClear => exact ⟨_, rfl, working_orderly (.of_ev (practiceIn_ev fun _ => finishDrill_ev s _ _))⟩
  | allClearComplete => exact ⟨_, rfl, working_orderly (orderly_when (.of_ev (dropDrillClaim_ev s)))⟩
  | drillClaimNotice =>
    exact ⟨_, rfl, working_orderly (.of_ev
      (takeNotice_ev (fun t n => drillClaimNotice_ev t n) (by decide) (by decide)))⟩
  | powerOn => cases h
  | resetAssert => cases h
  | resetRelease => cases h
  | powerFailWarning =>
    have level : Evolves [.pins] s (pfwLevel s true) := (Evolves.refl _ s).withPins
    exact ⟨_, rfl, alive_orderly (orderly_ite (fun _ => .of_ev level) fun _ =>
      Orderly.after (.of_ev (enterHalt_ev _)) level)⟩
  | pfwEnd => cases h
  | imageRead b => exact ⟨_, rfl, orderly_when (takeImage_orderly s b)⟩
  | planRecordRead b => exact ⟨_, rfl, orderly_when (.of_ev (takePlanRecord_ev s b))⟩
  | dialRecordRead b => exact ⟨_, rfl, orderly_when (takeDialRecord_orderly s b)⟩
  | markingEnd => exact ⟨_, rfl, alive_orderly (.of_ev (markingDone_ev s))⟩
  | joinTimer => exact ⟨_, rfl, orderly_when (.of_mark (joinExpiry_ev s) (joinExpiry_mark s))⟩
  | planSaveComplete => exact ⟨_, rfl, alive_orderly (.of_ev (saveDone_ev s))⟩
  | writeFailure => cases h
  | dialWriteComplete => cases h
  | startMark => exact ⟨_, rfl, working_orderly (.of_ev ((Evolves.refl [.time] s).withTime fun k => k))⟩
  | lineBecomesBusy =>
    exact ⟨_, rfl, orderly_ite (fun _ => .of_ev (lineBusy_ev s)) fun _ => .of_ev (lineLevel_ev s true)⟩
  | lineBecomesIdle => exact ⟨_, rfl, listening_orderly (.of_ev (lineIdle_ev s))⟩
  | lossOfPower => exact ⟨_, rfl, .of_ev (lossOfPower_ev s)⟩
  | validMarkCleared => exact ⟨_, rfl, alive_orderly (.of_ev (markCleared_ev s))⟩

/-! ## Start events, RESTART and CLEAR BANK -/

theorem timeInitial_ok : TimeOk TimeUnit.initial :=
  ⟨by decide, (fun l hl => by cases hl), Nat.zero_le _⟩

theorem faultsInitial_ok : FaultsOk FaultUnit.initial := fun i => by
  have : FaultUnit.initial.banks[i] = Bank.empty := by
    simp only [FaultUnit.initial, Fin.getElem_fin, Vector.getElem_replicate]
  rw [this]
  exact emptyBank_ok

theorem bellsInitial_ok : BellsOk BellUnit.initial := ⟨Nat.zero_le _, Nat.zero_le _⟩

theorem clocksInitial_ok : ClocksOk (Vector.replicate 4 ClockCircuit.initial) := fun c p hp => by
  simp [ClockCircuit.initial, ImpulseRecord.initial] at hp

theorem annInitial_ok : AnnOk AnnUnit.initial := annOk_of_none (by decide)

theorem lineInitial_ok (b : Bool) : LineOk { LineUnit.initial with dominant := b } :=
  ⟨Nat.zero_le _, List.Pairwise.nil⟩

/-- A start event puts every part in its initial state, where its property holds (R198, R200). -/
theorem startEvent_parts (s : State) : PartsKept s (startEvent s) :=
  ⟨fun _ => lineInitial_ok _, fun _ => timeInitial_ok, fun _ => initial_ok, fun _ => Nat.zero_le _,
    fun _ => faultsInitial_ok, fun _ => bellsInitial_ok, fun _ => clocksInitial_ok, fun _ => builtIn_ok,
    fun _ => annInitial_ok⟩

theorem heldInReset_parts (s : State) : PartsKept s (heldInReset s) :=
  (startEvent_parts s).trans (Orderly.of_ev (((Evolves.refl [.start, .store] _).withStart).withStore)).parts

/-- A position stays a minute of the dial through the cut of RESTART (R113). -/
theorem restartImpulse_position (r : ImpulseRecord) (h : ∀ p, r.position = some p → p < 720) :
    ∀ p, (restartImpulse r).position = some p → p < 720 := by
  unfold restartImpulse
  dsimp only [cycleOver]
  split
  · exact delivered_ok r
  · exact h

theorem restartBlocks_parts (s : State) : PartsKept s (restartBlocks s) where
  line _ := lineInitial_ok _
  time _ := timeInitial_ok
  arb _ := initial_ok
  drill _ := Nat.zero_le _
  faults _ := faultsInitial_ok
  bells _ := bellsInitial_ok
  clocks k c p hp := by
    simp only [restartBlocks, Fin.getElem_fin, Vector.getElem_ofFn, restartClock] at hp
    exact restartImpulse_position _ (k c) p hp
  image := id
  ann _ := annInitial_ok

theorem restartNotices_ev (q : Quality) (s : State) : Evolves [.faults] s (restartNotices q s) := by
  unfold restartNotices
  dsimp only
  split
  · split
    · exact raise_ev s _
    · exact Evolves.refl _ s
  · split
    · exact (raise_ev s _).then (raise_ev _ _)
    · exact raise_ev s _

theorem restartTaken_parts (s : State) : PartsKept s (restartTaken s) := by
  unfold restartTaken restartStation
  dsimp only
  refine PartsKept.trans ?_ (Orderly.of_ev (joinState_ev _)).parts
  refine PartsKept.trans ?_ (Orderly.of_ev (restartNotices_ev _ _)).parts
  exact (Orderly.of_ev (Evolves.refl [.port] s).withPort).parts.trans (restartBlocks_parts _)

theorem clearBankTake_parts (n : Nat) (s : State) : PartsKept s (clearBankTake n s).1 := by
  unfold clearBankTake
  split
  · next h =>
    exact { PartsKept.refl s with faults := fun k => setBank_ok s.faults ⟨n, h⟩ Bank.empty k emptyBank_ok }
  · exact .refl s

theorem panelTake_parts {s : State} {f : State → State × Response} (h : PartsKept s (f s).1) :
    PartsKept s (panelTake s f) := by
  have answered (t : State) (r : Response) : PartsKept t (answerWith t r) := (Orderly.of_ev (answerWith_ev t r)).parts
  unfold panelTake
  refine partsKept_ite ?_ (.refl s)
  split
  · exact .refl s
  · exact answered s _
  · exact h.trans (answered _ _)

theorem dialWriteOver_parts (s : State) : PartsKept s (dialWriteOver s) :=
  partsKept_ite (startEvent_parts s) (Orderly.of_ev (Evolves.refl [.store] s).withStore).parts

theorem writeFailed_parts (s : State) : PartsKept s (writeFailed s) := by
  unfold writeFailed
  split
  · exact (Orderly.of_ev ((report_ev s _).mono.then (fs := [.faults, .store]) (storeDone_ev _))).parts
  · exact (Orderly.of_ev (storeDone_ev s)).parts
  · exact (Orderly.of_ev (cutDialWrite_ev s)).parts.trans (dialWriteOver_parts _)
  · exact .refl s

theorem dialWritten_parts (s : State) : PartsKept s (dialWritten s) := by
  unfold dialWritten
  split
  · exact (Orderly.of_ev (Evolves.refl [.mem] s).withMem).parts.trans (dialWriteOver_parts _)
  · exact .refl s

theorem warningOver_parts (s : State) : PartsKept s (warningOver s) := by
  unfold warningOver
  split
  · exact (Orderly.of_ev (Evolves.refl [.start] s).withStart).parts
  · exact startEvent_parts s

/-- Every command keeps the property of each part. -/
theorem exec_parts (i : Instr) (s : State) : ∃ t, exec i s = .next t ∧ PartsKept s t := by
  have pins (b : Bool) : PartsKept s (pfwLevel s b) := (Orderly.of_ev (Evolves.refl [.pins] s).withPins).parts
  have power : PartsKept s (s.withStart { s.start with powered := true }) :=
    (Orderly.of_ev (Evolves.refl [.start] s).withStart).parts
  by_cases hb : ∃ n, i = .clearBank n
  · obtain ⟨n, rfl⟩ := hb
    exact ⟨_, rfl, panelTake_parts (clearBankTake_parts n s)⟩
  · cases hm : mayStart i with
    | false =>
      obtain ⟨t, ht, o⟩ := exec_orderly i s hm fun n hn => hb ⟨n, hn⟩
      exact ⟨t, ht, o.parts⟩
    | true =>
      cases i with
      | powerOn => exact ⟨_, rfl, partsKept_ite (power.trans (heldInReset_parts _)) (startEvent_parts s)⟩
      | resetAssert =>
        exact ⟨_, rfl, (Orderly.of_ev (cutDialWrite_ev s)).parts.trans (heldInReset_parts _)⟩
      | resetRelease =>
        exact ⟨_, rfl, partsKept_ite (partsKept_ite (startEvent_parts s)
          (Orderly.of_ev (Evolves.refl [.start] s).withStart).parts) (.refl s)⟩
      | pfwEnd =>
        exact ⟨_, rfl, partsKept_ite (partsKept_ite ((pins false).trans (warningOver_parts _)) (pins false)) (.refl s)⟩
      | dialWriteComplete => exact ⟨_, rfl, partsKept_ite (dialWritten_parts s) (.refl s)⟩
      | writeFailure => exact ⟨_, rfl, partsKept_ite (writeFailed_parts s) (.refl s)⟩
      | restart => exact ⟨_, rfl, partsKept_ite (restartTaken_parts s) (panelTake_parts (.refl s))⟩
      | _ => cases hm

/-! ## Every step -/

theorem exec_eq_next (i : Instr) (s : State) : ∃ t, exec i s = .next t :=
  (exec_parts i s).imp fun _ h => h.1

theorem step_nil {s : State} (h : s.pending = []) : step s = .next (tick s) := by
  unfold step
  rw [h]

theorem step_cons {s : State} {i : Instr} {rest : List Instr} (h : s.pending = i :: rest) :
    step s = exec i (s.withPending rest) := by
  unfold step
  rw [h]

/-- What a step of a queue that is not empty has come from. -/
theorem exec_of_step {s t : State} {i : Instr} {rest : List Instr} (hs : step s = .next t) (h : s.pending = i :: rest)
    {p : State → Prop} (k : ∃ u, exec i (s.withPending rest) = .next u ∧ p u) : p t := by
  obtain ⟨u, hu, hp⟩ := k
  rw [step_cons h, hu] at hs
  cases hs
  exact hp

theorem step_parts {s t : State} (hs : step s = .next t) : PartsKept s t := by
  cases h : s.pending with
  | nil =>
    rw [step_nil h] at hs
    cases hs
    exact (Orderly.of_ev (tick_ev s)).parts
  | cons i rest =>
    have popped : PartsKept s (s.withPending rest) := (Orderly.of_ev (Evolves.refl [.pending] s).withPending).parts
    exact popped.trans (exec_of_step hs h (exec_parts i _))

theorem clearBank_bells (n : Nat) (s : State) : (panelTake s (clearBankTake n)).bells = s.bells := by
  unfold panelTake clearBankTake
  split
  · split
    · rfl
    · rfl
    · split <;> rfl
  · rfl

theorem step_mark {s t : State} (hs : step s = .next t)
    (h : ∀ i rest, s.pending = i :: rest → mayStart i = false) : MarkMoves s t := by
  cases hp : s.pending with
  | nil =>
    rw [step_nil hp] at hs
    cases hs
    exact (Orderly.of_ev (tick_ev s)).mark
  | cons i rest =>
    refine MarkMoves.after (t := s.withPending rest) ?_ rfl
    by_cases hb : ∃ n, i = .clearBank n
    · obtain ⟨n, rfl⟩ := hb
      exact exec_of_step hs hp ⟨_, rfl, markMoves_of_same (congrArg BellUnit.hwm (clearBank_bells n _))⟩
    · exact exec_of_step hs hp
        ((exec_orderly i _ (h i rest hp) fun n hn => hb ⟨n, hn⟩).imp fun _ o => ⟨o.1, o.2.mark⟩)

theorem step_records {s t : State} (hs : step s = .next t)
    (h : ∀ i rest, s.pending = i :: rest → mayStart i = false)
    (hb : ∀ n rest, s.pending ≠ .clearBank n :: rest) : RecordsStay s.faults t.faults := by
  cases hp : s.pending with
  | nil =>
    rw [step_nil hp] at hs
    cases hs
    exact (tick_ev s).records
  | cons i rest =>
    exact exec_of_step hs hp (p := fun t => RecordsStay s.faults t.faults)
      ((exec_orderly i (s.withPending rest) (h i rest hp) fun n hn => hb n rest (hn ▸ hp)).imp
        fun _ o => ⟨o.1, o.2.ev.records⟩)

theorem mayStart_eq_false {i : Instr} (h : i ≠ .powerOn ∧ i ≠ .resetAssert ∧ i ≠ .resetRelease ∧ i ≠ .pfwEnd ∧
    i ≠ .dialWriteComplete ∧ i ≠ .writeFailure ∧ i ≠ .restart) : mayStart i = false := by
  unfold mayStart
  split
  all_goals simp at h
  rfl

/-- Settles O59: each command is an orderly change or a start event, RESTART or CLEAR BANK, and a bit time is an
orderly change. -/
theorem everyStepKeepsThePartsInOrder : Obligations.EveryStepKeepsThePartsInOrder := by
  refine ⟨fun s t h hs => (step_parts hs).line h, fun s t h hs => (step_parts hs).time h,
    fun s t h hs => (step_parts hs).arb h, fun s t h hs => (step_parts hs).drill h,
    fun s t h hs => (step_parts hs).faults h, fun s t h hs => (step_parts hs).bells h,
    fun s t h hs => (step_parts hs).clocks h, fun s t h hs => (step_parts hs).image h,
    fun s t h hs => (step_parts hs).ann h, fun s t hs hi => ?_⟩
  have ordinary := fun i rest hp => mayStart_eq_false (hi i rest hp)
  exact ⟨step_mark hs ordinary, step_records hs ordinary⟩

/-- Settles O3: the initial values by computation, the property of each part as a start event leaves it. -/
theorem resetHoldsTheStartValues : Obligations.ResetHoldsTheStartValues := by
  have line := lineInitial_ok false
  refine ⟨rfl, rfl, rfl, rfl, rfl, rfl, rfl, rfl, rfl, rfl, rfl, rfl, rfl, rfl, rfl, rfl, rfl, rfl, rfl, rfl, rfl,
    fun p => ?_, fun c => ?_, fun r => ?_, fun k => ?_, fun i => ?_, rfl, rfl, fun b => ?_, fun k => ?_, rfl, rfl, rfl,
    rfl, line, timeInitial_ok, initial_ok, Nat.zero_le _, faultsInitial_ok, bellsInitial_ok, clocksInitial_ok,
    builtIn_ok, annInitial_ok⟩
  · exact Vector.getElem_replicate _
  · exact congrArg Generator.state (Vector.getElem_replicate _)
  · exact Vector.getElem_replicate _
  · exact congrArg OwnerSlot.claim (Vector.getElem_replicate _)
  · exact Vector.getElem_replicate _
  · exact Vector.getElem_replicate _
  · exact Vector.getElem_replicate _

end Sys2Proof.Proofs
end

section
/-! Campus time as arithmetic (R4), and the correction of an agreement round (R13). -/

namespace Sys2Proof.Proofs

open Sys2Proof Sys2Proof.Machine Sys2Proof.Laws

/-! ## Campus times -/

theorem campusAdd_one {t : CampusTime} (h : t.ms < 86400000) :
    campusAdd t 1 = if t.ms = 86399999 then ⟨t.day + 1, 0⟩ else ⟨t.day, t.ms + 1⟩ := by
  unfold campusAdd
  dsimp only
  split
  · next e => rw [e]; rfl
  · next e =>
    have hday : ((t.ms : Int) + 1) / 86400000 = 0 := by omega
    have hms : (((t.ms : Int) + 1) % 86400000).toNat = t.ms + 1 := by omega
    rw [hday, hms]
    simp

/-- The day difference of R4, as the signed number that 16 bits hold. -/
theorem dayDifference (a b : BitVec 16) : -32768 ≤ (a - b).toInt ∧ (a - b).toInt ≤ 32767 ∧
    (65536 : Int) ∣ ((a - b).toInt - ((a.toNat : Int) - (b.toNat : Int))) := by
  have := a.isLt
  have := b.isLt
  rw [BitVec.toInt_eq_toNat_cond, BitVec.toNat_sub]
  split <;> omega

/-- The difference added back gives the first time (R4). -/
theorem campusAdd_campusDiff {a : CampusTime} (b : CampusTime) (ha : a.ms < 86400000) :
    campusAdd b (campusDiff a b) = a := by
  have total : (b.ms : Int) + campusDiff a b = a.ms + (a.day - b.day).toInt * 86400000 := by
    unfold campusDiff
    omega
  have hday : ((b.ms : Int) + campusDiff a b) / 86400000 = (a.day - b.day).toInt := by omega
  have hms : (((b.ms : Int) + campusDiff a b) % 86400000).toNat = a.ms := by omega
  unfold campusAdd
  dsimp only
  rw [hday, hms, BitVec.ofInt_toInt, BitVec.add_comm, BitVec.sub_add_cancel]

theorem msTick_no_slew {t : TimeUnit} (h : t.slewRemainder = 0) :
    (msTick t).campus = campusAdd t.campus 1 ∧ (msTick t).slewRemainder = 0 := by
  simp [msTick, msAdvance, slewAfter, h]

/-- Settles O5. -/
theorem campusTimeAdvancesAddsAndDiffers : Obligations.CampusTimeAdvancesAddsAndDiffers := by
  refine ⟨fun t h hms => ⟨rfl, ?_⟩, by decide, fun t d => rfl, fun a b => ?_⟩
  · rw [(msTick_no_slew h).1, campusAdd_one hms]
  · obtain ⟨lo, hi, dvd⟩ := dayDifference a.day b.day
    exact ⟨_, lo, hi, dvd, rfl⟩

/-! ## The correction -/

theorem insertSorted_eq (x : Int) (l : List Int) : insertSorted x l = l.orderedInsert (· ≤ ·) x := by
  induction l with
  | nil => rfl
  | cons y l ih => simp only [insertSorted, List.orderedInsert, ih]

theorem sorted_eq (l : List Int) : sorted l = l.insertionSort (· ≤ ·) := by
  induction l with
  | nil => rfl
  | cons x l ih =>
    show insertSorted x (sorted l) = List.orderedInsert (· ≤ ·) x (l.insertionSort (· ≤ ·))
    rw [ih, insertSorted_eq]

theorem correction_one (x : Int) : correction [x] = x := by
  show (x + x).tdiv 2 = x
  rw [← Int.two_mul]
  exact Int.mul_tdiv_cancel_left x (by decide)

/-- Settles O6: the rising order is the sorted list. -/
theorem roundCorrectionIsTheTrimmedMidpoint : Obligations.RoundCorrectionIsTheTrimmedMidpoint := by
  refine ⟨fun w _ => ⟨sorted w, ?_, ?_, fun a b ha hb => ?_⟩, correction_one, correction_one 0⟩
  · exact sorted_eq w ▸ List.perm_insertionSort _ w
  · exact sorted_eq w ▸ List.pairwise_insertionSort _ w
  · have hlen : (sorted w).length = w.length := sorted_eq w ▸ List.length_insertionSort _ w
    simp only [correction, hlen, ha, hb, Option.getD_some]

end Sys2Proof.Proofs
end

section
/-! What the blocks other than the Time Unit report: the TIME bank stands, and no pending notice goes (R175 to R183).
And what an offer does to the transmit queue (R38 to R40). -/

namespace Sys2Proof.Proofs

open Sys2Proof Sys2Proof.Machine Sys2Proof.Laws

/-! ## The TIME bank, and the notices that are pending -/

/-- From s to t the Fault Unit takes as before, the TIME bank stands, and no pending notice has gone. -/
structure TimeBankStays (s t : State) : Prop where
  taking : t.faults.taking = s.faults.taking
  bank : t.faults.banks[bankIndex .time] = s.faults.banks[bankIndex .time]
  pending : ∀ k, Pending s k → Pending t k

theorem TimeBankStays.of_faults {s t : State} (h : t.faults = s.faults) : TimeBankStays s t :=
  ⟨by rw [h], by rw [h], fun k hk => by unfold Pending at *; rw [h]; exact hk⟩

theorem TimeBankStays.refl (s : State) : TimeBankStays s s := .of_faults rfl

theorem TimeBankStays.trans {s t u : State} (h : TimeBankStays s t) (k : TimeBankStays t u) : TimeBankStays s u :=
  ⟨k.taking.trans h.taking, k.bank.trans h.bank, fun n hn => k.pending n (h.pending n hn)⟩

theorem TimeBankStays.after {s t u : State} (k : TimeBankStays t u) (h : t.faults = s.faults) : TimeBankStays s u :=
  (TimeBankStays.of_faults h).trans k

theorem TimeBankStays.preceded {s t u : State} (k : TimeBankStays t u) (h : TimeBankStays s t) : TimeBankStays s u :=
  h.trans k

theorem TimeBankStays.of_ev {fs : List Field} {s t : State} (e : Evolves fs s t) (w : Field.faults ∉ fs := by decide) :
    TimeBankStays s t := .of_faults (e.same .faults w)

theorem timeBankStays_ite {p : Prop} [Decidable p] {s t u : State} (h : TimeBankStays s t) (k : TimeBankStays s u) :
    TimeBankStays s (if p then t else u) := by
  split
  · exact h
  · exact k

theorem foldl_timeBankStays {α : Type} {f : State → α → State} (k : ∀ s x, TimeBankStays s (f s x)) (l : List α) :
    ∀ s, TimeBankStays s (l.foldl f s) := by
  induction l with
  | nil => exact .refl
  | cons x l ih => exact fun s => (k s x).trans (ih _)

theorem noticeIndex_inj {k j : NoticeKind} (h : noticeIndex k = noticeIndex j) : k = j := by
  revert h
  cases k <;> cases j <;> decide

theorem raise_pending (s : State) (j k : NoticeKind) :
    Pending (raise s j) k ↔ (Taking s ∧ k = j) ∨ Pending s k := by
  show (faultsRaise s.faults j).pending[noticeIndex k] = true ↔ _
  unfold faultsRaise Taking
  by_cases h : s.faults.taking = true
  · simp only [h, if_true, true_and, vector_set_at]
    by_cases e : k = j
    · simp [e]
    · have : noticeIndex j ≠ noticeIndex k := fun x => e (noticeIndex_inj x).symm
      simp only [this, if_false, e, false_or]
      rfl
  · simp only [h, if_false, Bool.false_eq_true, false_and, false_or]
    rfl

theorem raise_taking (s : State) (j : NoticeKind) : (raise s j).faults.taking = s.faults.taking := by
  show (faultsRaise s.faults j).taking = _
  unfold faultsRaise
  split <;> rfl

theorem raise_banks (s : State) (j : NoticeKind) : (raise s j).faults.banks = s.faults.banks := by
  show (faultsRaise s.faults j).banks = _
  unfold faultsRaise
  split <;> rfl

theorem raise_stays (s : State) (j : NoticeKind) : TimeBankStays s (raise s j) :=
  ⟨raise_taking s j, by rw [raise_banks], fun k hk => (raise_pending s j k).mpr (.inr hk)⟩

/-- A report sets a bank, and raises FAULT RECORDED where it writes a record (R177, R178). -/
theorem report_cases (s : State) (c : FaultCode) : report s c = s ∨ ∃ b : Bank,
    let t := s.withFaults { s.faults with banks := s.faults.banks.set (bankIndex (faultBank c)) b }
    report s c = t ∨ report s c = raise t .faultRecorded := by
  unfold report faultsReport
  dsimp only
  split
  · split
    · exact .inr ⟨_, .inr rfl⟩
    · exact .inr ⟨_, .inl rfl⟩
  · exact .inl rfl

theorem report_taking (s : State) (c : FaultCode) : (report s c).faults.taking = s.faults.taking := by
  obtain h | ⟨b, h | h⟩ := report_cases s c
  · rw [h]
  · rw [h]; rfl
  · rw [h, raise_taking]; rfl

theorem report_pending (s : State) (c : FaultCode) (k : NoticeKind) (h : Pending s k) : Pending (report s c) k := by
  obtain e | ⟨b, e | e⟩ := report_cases s c
  · rw [e]; exact h
  · rw [e]; exact h
  · rw [e]; exact (raise_pending _ _ _).mpr (.inr h)

theorem report_banks (s : State) (c : FaultCode) {i : Fin 6} (h : bankIndex (faultBank c) ≠ i) :
    (report s c).faults.banks[i] = s.faults.banks[i] := by
  have set (b : Bank) : (s.faults.banks.set (bankIndex (faultBank c)) b)[i] = s.faults.banks[i] := by
    rw [vector_set_at, if_neg h]
  obtain e | ⟨b, e | e⟩ := report_cases s c
  · rw [e]
  · rw [e]; exact set b
  · rw [e, raise_banks]; exact set b

theorem bankIndex_inj {b d : BankId} (h : bankIndex b = bankIndex d) : b = d := by
  revert h
  cases b <;> cases d <;> decide

/-- A report to another bank. -/
theorem report_stays (s : State) (c : FaultCode) (h : faultBank c ≠ .time := by nofun) :
    TimeBankStays s (report s c) :=
  ⟨report_taking s c, report_banks s c fun e => h (bankIndex_inj e), report_pending s c⟩

theorem withArbiter_faults (s : State) (a : Arbiter) : (withArbiter s a).faults = s.faults :=
  (followSynth_ev (s.withArb a)).same .faults (by decide)

/-! ## Bell Unit -/

theorem carryTone_stays (s : State) (c : BellNo) (z : ZoneNo) (n : Nat) : TimeBankStays s (carryTone s c z n) := by
  unfold carryTone
  dsimp only
  split
  · exact .of_ev (joinSlot_ev s _ c z)
  · split
    · exact .of_ev (takeSlot_ev s _ c z n _)
    · exact report_stays s (.toneRingLost c)

theorem ringStart_stays (s : State) (c : BellNo) (r : RingRequest) : TimeBankStays s (ringStart s c r) := by
  unfold ringStart
  dsimp only
  split
  · exact .of_faults rfl
  · refine (TimeBankStays.of_ev (reportBells_ev _)).preceded ((carryTone_stays _ c _ _).after ?_)
    rfl

theorem takeRequest_stays (s : State) (c : BellNo) (r : RingRequest) : TimeBankStays s (takeRequest s c r) := by
  unfold takeRequest
  dsimp only
  refine timeBankStays_ite ?_ (.refl s)
  split
  · exact ringStart_stays s c r
  · exact .refl s
  · refine timeBankStays_ite (.refl s) ?_
    split
    · exact (report_stays _ (.ringMerged c)).after rfl
    · exact .of_faults rfl

theorem giveRequests_stays (s : State) (l : List BellNo) (r : RingRequest) : TimeBankStays s (giveRequests s l r) :=
  foldl_timeBankStays (fun s c => takeRequest_stays s c r) l s

theorem fireEntry_stays (s : State) (e : Scheduled) : TimeBankStays s (fireEntry s e) := by
  unfold fireEntry
  refine timeBankStays_ite (timeBankStays_ite (.of_faults rfl) (timeBankStays_ite (.of_faults rfl) ?_)) (.refl s)
  split
  · exact .refl s
  · exact giveRequests_stays s _ _

theorem fireUpTo_stays (s : State) (h n : Nat) : TimeBankStays s (fireUpTo s h n) :=
  (foldl_timeBankStays fireEntry_stays _ s).trans (.of_faults rfl)

theorem skipUpTo_stays (s : State) (h n : Nat) : TimeBankStays s (skipUpTo s h n) := by
  unfold skipUpTo
  dsimp only
  split
  · exact .of_faults rfl
  · exact (report_stays _ (.bellsSkipped _)).after rfl

theorem bellStep_stays (s : State) (old new : CampusTime) : TimeBankStays s (bellStep s old new) := by
  unfold bellStep
  refine timeBankStays_ite ?_ (.refl s)
  split
  · exact .refl s
  · dsimp only
    have day (d : BitVec 16) : TimeBankStays s (schedulerDay s d) := .of_faults rfl
    exact timeBankStays_ite (timeBankStays_ite ((day _).trans (fireUpTo_stays _ _ _))
      ((day _).trans (skipUpTo_stays _ _ _))) (day _)

/-! ## Announcement Unit -/

theorem setEntry_faults (s : State) (i : TablePos) (x : Option AnnEntry) : (setEntry s i x).faults = s.faults := rfl

theorem endEntry_stays (s : State) (i : TablePos) (o : AnnOutcome) : TimeBankStays s (endEntry s i o) := by
  unfold endEntry
  split
  · exact .refl s
  · dsimp only
    have ended : TimeBankStays s (setEntry (withArbiter s (withdrawWhole s.arb (annSlot i))) i none) :=
      .of_faults ((setEntry_faults _ _ _).trans (withArbiter_faults _ _))
    exact timeBankStays_ite ((raise_stays _ _).preceded (ended.trans (.of_faults (faults_withAnn _ _)))) ended

theorem endUnavailable_stays (s : State) (i : TablePos) (id : Id) : TimeBankStays s (endUnavailable s i id) :=
  (endEntry_stays s i _).trans (report_stays _ (.zonesUnavailable id))

theorem playEntry_stays (s : State) (i : TablePos) (e : AnnEntry) : TimeBankStays s (playEntry s i e) := by
  unfold playEntry
  dsimp only
  split
  · exact (raise_stays _ _).after (withArbiter_faults _ _)
  · exact .of_faults (withArbiter_faults _ _)

theorem startEntry_stays (s : State) (i : TablePos) : TimeBankStays s (startEntry s i) := by
  unfold startEntry
  split
  · exact .refl s
  · next e he =>
    refine timeBankStays_ite ?_ (.refl s)
    dsimp only
    generalize hu : withArbiter (setEntry s i _) _ = u
    have waits : TimeBankStays s u := .of_faults (hu ▸ withArbiter_faults _ _)
    exact timeBankStays_ite (waits.trans (endUnavailable_stays _ _ _)) (timeBankStays_ite
      (waits.trans (endEntry_stays _ _ _)) (timeBankStays_ite (waits.trans (endEntry_stays _ _ _))
        (waits.trans (playEntry_stays _ _ _))))

theorem stepEntry_stays (new : CampusTime) (s : State) (i : TablePos) : TimeBankStays s (stepEntry new s i) := by
  unfold stepEntry
  split
  · exact .refl s
  · exact timeBankStays_ite (startEntry_stays s i) (.refl s)

theorem annStep_stays (s : State) (new : CampusTime) : TimeBankStays s (annStep s new) :=
  foldl_timeBankStays (stepEntry_stays new) _ s

/-! ## Transmit queue -/

theorem reportRefusals_stays (s : State) (l : List (FrameBody × TxOutcome)) : TimeBankStays s (reportRefusals s l) :=
  foldl_timeBankStays (fun s _ => timeBankStays_ite (report_stays s (.queueOverflow _)) (.refl s)) l s

theorem cursorStep_stays (s : State) : TimeBankStays s (cursorStep s) := by
  unfold cursorStep
  split
  · refine timeBankStays_ite ?_ (.refl s)
    dsimp only
    split
    · exact .of_faults rfl
    · exact (report_stays _ (.queueOverflow .plan)).after rfl
  · exact .refl s

theorem runCursor_stays (s : State) : TimeBankStays s (runCursor s) :=
  (cursorStep_stays s).trans (cursorStep_stays _)

theorem toldPlan_stays (s : State) (k : Key) (i : Nat) (o : TxOutcome) : TimeBankStays s (toldPlan s k i o) := by
  have run (p : PlanUnit) : TimeBankStays s (runCursor (s.withPlan p)) := (runCursor_stays _).after rfl
  unfold toldPlan
  refine timeBankStays_ite ?_ (.refl s)
  cases o with
  | sent | suppressed | dropped | evicted | replaced => exact run _
  | refused | discarded => exact .of_faults rfl

theorem told_stays (s : State) (b : FrameBody) (o : TxOutcome) : TimeBankStays s (told s b o) := by
  unfold told
  split
  · exact .of_faults rfl
  · exact .of_faults rfl
  · exact toldPlan_stays s _ _ _
  · exact .refl s

theorem offer_stays (s : State) (b : FrameBody) : TimeBankStays s (offer s b) := by
  unfold offer
  refine timeBankStays_ite ?_ (told_stays s b _)
  dsimp only
  refine (foldl_timeBankStays (α := FrameBody × TxOutcome) (fun s x => told_stays s x.1 x.2) _ _).preceded
    ((reportRefusals_stays _ _).after ?_)
  rfl

end Sys2Proof.Proofs
end

section
/-! A step of campus time (R17): the Time and Line Units, the announcements that it starts (R138), and its record. -/

namespace Sys2Proof.Proofs

open Sys2Proof Sys2Proof.Machine Sys2Proof.Laws

/-! ## The Time and Line Units -/

theorem stepBy_zero (s : State) : stepBy s 0 = s := rfl

/-- What follows the step at the Time and Line Units changes neither (R17). -/
theorem stepBy_rest (s : State) {c : Int} (hc : c ≠ 0) :
    Evolves [.mark, .bells, .arb, .synth, .ann, .clocks, .faults]
      ((s.withTime (steppedTime s.time c)).withLine (stepRoster s.line)) (stepBy s c) := by
  rw [stepBy_eq s c hc]
  exact ((((bellStep_ev _ _ _).mono.then (clockAll_ev _ _)).then (annStep_ev _ _)).then (report_ev _ _)).then
    (raise_ev _ _)

theorem stepBy_time (s : State) {c : Int} (hc : c ≠ 0) : (stepBy s c).time = steppedTime s.time c :=
  (stepBy_rest s hc).same .time (by decide)

theorem stepBy_line (s : State) {c : Int} (hc : c ≠ 0) : (stepBy s c).line = stepRoster s.line :=
  (stepBy_rest s hc).same .line (by decide)

/-- A step changes only these parts (R17). -/
theorem stepBy_changes (s : State) (c : Int) :
    Changes [.time, .line, .bells, .mark, .arb, .synth, .ann, .clocks, .faults] s (stepBy s c) :=
  (stepBy_ev s c).mono.same

theorem stepRoster_entry (l : LineUnit) (p : StationNo) :
    (stepRoster l).roster[p] = { l.roster[p] with mark := none, sample := none } := by
  simp only [stepRoster, stepDiscards, Fin.getElem_fin, Vector.getElem_ofFn]

/-! ## The record -/

/-- The state in which a step is recorded: its notices have been given (R17). -/
theorem stepBy_recorded (s : State) {c : Int} (hc : c ≠ 0) : ∃ u : State,
    stepBy s c = raise (report u (.stepApplied (stepSeconds c))) .timeChange ∧ TimeBankStays s u ∧
      u.image = s.image ∧ u.time = steppedTime s.time c := by
  refine ⟨_, stepBy_eq s c hc, ?_, ?_, ?_⟩
  · refine (annStep_stays _ _).preceded ((TimeBankStays.of_ev (clockAll_ev _ _)).preceded ?_)
    exact (bellStep_stays _ _ _).after (faults_withLine _ _)
  · exact ((((bellStep_ev _ _ _).mono (fs := [.mark, .bells, .arb, .synth, .ann, .clocks, .faults])).then
      (clockAll_ev _ _)).then (annStep_ev _ _)).same .image (by decide)
  · exact ((((bellStep_ev _ _ _).mono (fs := [.mark, .bells, .arb, .synth, .ann, .clocks, .faults])).then
      (clockAll_ev _ _)).then (annStep_ev _ _)).same .time (by decide)

theorem stepSeconds_eq (c : Int) : stepSeconds c =
    if c.tdiv 1000 < -32768 then -32768 else if 32767 < c.tdiv 1000 then 32767 else c.tdiv 1000 := by
  unfold stepSeconds
  omega

theorem stepBy_taking (s : State) (c : Int) : (stepBy s c).faults.taking = s.faults.taking := by
  by_cases hc : c = 0
  · rw [hc, stepBy_zero]
  · obtain ⟨u, hs, hu, -, -⟩ := stepBy_recorded s hc
    rw [hs, raise_taking, report_taking, hu.taking]

/-- A step raises TIME CHANGE (R17). -/
theorem stepBy_timeChange (s : State) {c : Int} (hc : c ≠ 0) (ht : Taking s) : Pending (stepBy s c) .timeChange := by
  obtain ⟨u, hs, hu, -, -⟩ := stepBy_recorded s hc
  rw [hs]
  exact (raise_pending _ _ _).mpr (.inl ⟨(report_taking _ _).trans (hu.taking.trans ht), rfl⟩)

theorem stepBy_pending (s : State) (c : Int) (k : NoticeKind) (h : Pending s k) : Pending (stepBy s c) k := by
  by_cases hc : c = 0
  · rw [hc, stepBy_zero]
    exact h
  · obtain ⟨u, hs, hu, -, -⟩ := stepBy_recorded s hc
    rw [hs]
    exact (raise_pending _ _ _).mpr (.inr (report_pending _ _ _ (hu.pending k h)))

/-- A step is recorded as STEP APPLIED in the TIME bank, which its notices leave as it was (R17, R177, R178). -/
theorem stepBy_bank (s : State) {c : Int} (hc : c ≠ 0) (ht : Taking s) :
    (stepBy s c).faults.banks[bankIndex .time] = stepRecorded s.image s.faults.banks[bankIndex .time] c
      (if s.time.quality = .unset then none else some (campusAdd s.time.campus c)) := by
  obtain ⟨u, hs, hu, hi, htime⟩ := stepBy_recorded s hc
  have := report_corrected u (.stepApplied (stepSeconds c)) (hu.taking.trans ht) rfl
  rw [hs, raise_banks]
  refine this.trans ?_
  rw [hi, htime]
  show (if faultEnabled s.image (.stepApplied 0) = true then corrected u.faults.banks[bankIndex .time] 1
    (some (.seconds (stepSeconds c))) (if s.time.quality = .unset then none else some (campusAdd s.time.campus c))
    else u.faults.banks[bankIndex .time]) = _
  rw [hu.bank, stepSeconds_eq]
  rfl

/-! ## The announcements that a step starts -/

/-- What a step notice of the new time makes of the entry e (R138, R139). -/
def EntryStepped (new : CampusTime) (e : AnnEntry) (x : Option AnnEntry) : Prop :=
  let reached := e.state = .gathering ∧ e.trigger = .campus ∧ 0 ≤ campusDiff new e.start
  (¬ reached → x = some e) ∧
  (reached → x = none ∨ ∃ y, x = some y ∧ y.id = e.id ∧ y.start = e.start ∧ y.state = .playing)

/-- An entry as it begins to play (R139, step 5). -/
def playedEntry (s : State) (e : AnnEntry) : AnnEntry :=
  let kind := playingKind e.level (effectiveKind s.plan (currentReading s)) e.kind
  { e with kind := kind, state := .playing, deadline := playingDeadline s.time.localCount kind }

theorem playEntry_table (s : State) (i : TablePos) (e : AnnEntry) :
    (playEntry s i e).ann.table = s.ann.table.set i (some (playedEntry s e)) := by
  have set : (withArbiter (setEntry s i (some (playedEntry s e))) (reportSounding (setEntry s i
      (some (playedEntry s e))).arb (annSlot i) e.claimNo true)).ann.table =
        s.ann.table.set i (some (playedEntry s e)) :=
    congrArg AnnUnit.table (withArbiter_ann _ _)
  unfold playEntry
  dsimp only
  split
  · exact set
  · exact set

/-- A GATHERING entry that starts ends or plays; its position is the only one that changes (R139). -/
theorem startEntry_table (s : State) (i : TablePos) {e : AnnEntry} (he : s.ann.table[i] = some e)
    (hg : e.state = .gathering) : ∃ x, (startEntry s i).ann.table = s.ann.table.set i x ∧
      (x = none ∨ ∃ y, x = some y ∧ y.id = e.id ∧ y.start = e.start ∧ y.state = .playing) := by
  unfold startEntry
  rw [he]
  dsimp only
  rw [if_pos hg]
  generalize hu : withArbiter (setEntry s i (some { e with known := withoutWaits e.known })) _ = u
  have table : u.ann.table = s.ann.table.set i (some { e with known := withoutWaits e.known }) := by
    rw [← hu, withArbiter_ann]
    rfl
  have twice (x y : Option AnnEntry) : (s.ann.table.set i x).set i y = s.ann.table.set i y := by
    simp
  have ended (o : AnnOutcome) : (endEntry u i o).ann.table = s.ann.table.set i none := by
    rw [endEntry_table, table, twice]
  split
  · exact ⟨none, ended _, .inl rfl⟩
  · split
    · exact ⟨none, ended _, .inl rfl⟩
    · split
      · exact ⟨none, ended _, .inl rfl⟩
      · refine ⟨_, ?_, .inr ⟨playedEntry u { e with known := withoutWaits e.known }, rfl, rfl, rfl, rfl⟩⟩
        rw [playEntry_table, table, twice]

theorem startEntry_playing {s : State} {i : TablePos} {e : AnnEntry} (he : s.ann.table[i] = some e)
    (hg : e.state ≠ .gathering) : startEntry s i = s := by
  unfold startEntry
  rw [he]
  exact if_neg hg

theorem stepEntry_eq (new : CampusTime) {s : State} {i : TablePos} {e : AnnEntry} (he : s.ann.table[i] = some e) :
    stepEntry new s i = if e.trigger = .campus ∧ 0 ≤ campusDiff new e.start then startEntry s i else s := by
  unfold stepEntry
  rw [he]
  simp only [campusReached, decide_eq_true_eq]

theorem stepEntry_at (new : CampusTime) (s : State) (i : TablePos) {e : AnnEntry} (he : s.ann.table[i] = some e) :
    EntryStepped new e (stepEntry new s i).ann.table[i] := by
  by_cases hr : e.trigger = .campus ∧ 0 ≤ campusDiff new e.start
  · have eq : stepEntry new s i = startEntry s i := (stepEntry_eq new he).trans (if_pos hr)
    by_cases hg : e.state = .gathering
    · obtain ⟨x, hx, kept⟩ := startEntry_table s i he hg
      rw [eq, hx, vector_set_at, if_pos rfl]
      exact ⟨fun n => absurd ⟨hg, hr⟩ n, fun _ => kept⟩
    · rw [eq, startEntry_playing he hg]
      exact ⟨fun _ => he, fun r => absurd r.1 hg⟩
  · rw [(stepEntry_eq new he).trans (if_neg hr)]
    exact ⟨fun _ => he, fun r => absurd r.2 hr⟩

theorem stepEntry_other (new : CampusTime) (s : State) {i j : TablePos} (h : i ≠ j) :
    (stepEntry new s i).ann.table[j] = s.ann.table[j] := by
  cases he : s.ann.table[i] with
  | none =>
    unfold stepEntry
    rw [he]
  | some e =>
    by_cases hr : e.trigger = .campus ∧ 0 ≤ campusDiff new e.start
    · have eq : stepEntry new s i = startEntry s i := (stepEntry_eq new he).trans (if_pos hr)
      by_cases hg : e.state = .gathering
      · obtain ⟨x, hx, -⟩ := startEntry_table s i he hg
        rw [eq, hx, vector_set_at, if_neg h]
      · rw [eq, startEntry_playing he hg]
    · rw [(stepEntry_eq new he).trans (if_neg hr)]

theorem foldl_stepEntry_other (new : CampusTime) (j : TablePos) (l : List TablePos) (hj : j ∉ l) (s : State) :
    (l.foldl (stepEntry new) s).ann.table[j] = s.ann.table[j] := by
  induction l generalizing s with
  | nil => rfl
  | cons i l ih =>
    rw [List.mem_cons, not_or] at hj
    obtain ⟨hi, hl⟩ := hj
    exact (ih hl _).trans (stepEntry_other new s fun x => hi x.symm)

theorem foldl_stepEntry_at (new : CampusTime) {j : TablePos} {e : AnnEntry} (l : List TablePos) (hn : l.Nodup)
    (hj : j ∈ l) (s : State) (he : s.ann.table[j] = some e) :
    EntryStepped new e (l.foldl (stepEntry new) s).ann.table[j] := by
  induction l generalizing s with
  | nil => cases hj
  | cons i l ih =>
    obtain ⟨hi, hl⟩ := List.nodup_cons.mp hn
    rw [List.foldl_cons]
    by_cases hij : j = i
    · subst hij
      rw [foldl_stepEntry_other new j l hi]
      exact stepEntry_at new s j he
    · exact ih hl ((List.mem_cons.mp hj).resolve_left hij) _
        ((stepEntry_other new s fun x => hij x.symm).trans he)

/-- A step at the announcement table: each entry takes the notice of the new time (R138). -/
theorem stepBy_entry (s : State) {c : Int} (hc : c ≠ 0) {i : TablePos} {e : AnnEntry} (he : s.ann.table[i] = some e) :
    EntryStepped (campusAdd s.time.campus c) e (stepBy s c).ann.table[i] := by
  rw [stepBy_eq s c hc]
  generalize hu : clockAll _ _ = u
  have same : u.ann = s.ann := by
    rw [← hu]
    exact ((bellStep_ev _ _ _).mono (fs := [.bells, .mark, .arb, .synth, .faults, .clocks]) |>.then
      (clockAll_ev _ _)).same .ann (by decide)
  exact foldl_stepEntry_at _ (List.finRange 4) (List.nodup_finRange 4) (List.mem_finRange i) u (same ▸ he)

/-- Settles O9: the Time and Line Units from the step itself, the rest from its notices and its record. -/
theorem aStepOfCampusTime : Obligations.AStepOfCampusTime := by
  refine fun s c => ⟨stepBy_zero s, fun hc => ?_⟩
  have ht := stepBy_time s hc
  refine ⟨by rw [ht]; rfl, by rw [ht]; rfl, by rw [ht]; rfl, by rw [ht]; rfl, fun p => ?_, fun b m hb hm => ?_,
    by rw [ht]; rfl, by rw [ht]; rfl, by rw [ht]; rfl, by rw [ht]; rfl, by rw [ht]; rfl, by rw [ht]; rfl,
    stepBy_timeChange s hc, fun taking on => ⟨fun hv => ?_, fun hv => ?_⟩,
    ⟨stepBy_clocks s c hc, fun i e he => stepBy_entry s hc he, stepBy_notices s c hc⟩, stepBy_changes s c⟩
  · rw [stepBy_line s hc, stepRoster_entry]
  · rw [ht] at hb
    obtain ⟨x, -, rfl⟩ := Option.map_eq_some_iff.mp hb
    obtain ⟨n, -, rfl⟩ := Option.map_eq_some_iff.mp hm
    rfl
  · rw [stepBy_bank s hc taking, stepRecorded, if_pos on, corrected, hv]
    rfl
  · rw [stepBy_bank s hc taking, stepRecorded, if_pos on, corrected, if_pos hv]

end Sys2Proof.Proofs
end

section
/-! Changes of quality (R6), corrections by their magnitude (R14) and agreement rounds (R12 to R15). -/

namespace Sys2Proof.Proofs

open Sys2Proof Sys2Proof.Machine Sys2Proof.Laws

/-! ## Changes of quality -/

theorem computeStatus_time (s : State) : (computeStatus s).time = s.time := (computeStatus_ev s).same .time (by decide)

theorem computeStatus_faults (s : State) : (computeStatus s).faults = s.faults :=
  (computeStatus_ev s).same .faults (by decide)

theorem setQuality_same {s : State} {q : Quality} (h : s.time.quality = q) : setQuality s q = s := if_pos h

theorem timeUnit_quality {t : TimeUnit} {q : Quality} (h : t.quality = q) : { t with quality := q } = t := by
  rw [← h]

theorem setQuality_time (s : State) (q : Quality) : (setQuality s q).time = { s.time with quality := q } := by
  unfold setQuality
  split
  · next h => rw [← h]
  · rw [computeStatus_time]
    rfl

theorem setQuality_banks (s : State) (q : Quality) : (setQuality s q).faults.banks = s.faults.banks := by
  unfold setQuality
  split
  · rfl
  · rw [computeStatus_faults, raise_banks]
    rfl

theorem setQuality_taking (s : State) (q : Quality) : (setQuality s q).faults.taking = s.faults.taking := by
  unfold setQuality
  split
  · rfl
  · rw [computeStatus_faults, raise_taking]
    rfl

theorem setQuality_pending (s : State) (q : Quality) (k : NoticeKind) (h : Pending s k) :
    Pending (setQuality s q) k := by
  unfold setQuality
  split
  · exact h
  · unfold Pending
    rw [computeStatus_faults]
    exact (raise_pending _ _ _).mpr (.inr h)

/-- A change of quality raises TIME CHANGE (R6). -/
theorem setQuality_timeChange {s : State} {q : Quality} (h : s.time.quality ≠ q) (ht : Taking s) :
    Pending (setQuality s q) .timeChange := by
  unfold setQuality Pending
  rw [if_neg h, computeStatus_faults]
  exact (raise_pending _ _ _).mpr (.inl ⟨ht, rfl⟩)

/-! ## Corrections -/

theorem applyCorrection_small {s : State} {c : Int} (h : c.natAbs ≤ 1) : applyCorrection s c = s :=
  if_pos (Nat.lt_succ_of_le h)

theorem isStep_iff (c : Int) : isStep c = true ↔ 250 ≤ c.natAbs := decide_eq_true_iff

theorem applyCorrection_slew {s : State} {c : Int} (h : 2 ≤ c.natAbs) (k : c.natAbs ≤ 249) :
    applyCorrection s c = s.withTime { s.time with slewRemainder := c, slewPhase := 0 } := by
  unfold applyCorrection
  rw [if_neg (by omega), if_neg (by rw [isStep_iff]; omega)]
  rfl

theorem applyCorrection_step {s : State} {c : Int} (h : 250 ≤ c.natAbs) : applyCorrection s c = stepBy s c := by
  unfold applyCorrection
  rw [if_neg (by omega), if_pos ((isStep_iff c).mpr h)]

theorem applyCorrection_taking (s : State) (c : Int) : (applyCorrection s c).faults.taking = s.faults.taking := by
  unfold applyCorrection
  split
  · rfl
  · split
    · exact stepBy_taking s c
    · rfl

theorem applyCorrection_pending (s : State) (c : Int) (k : NoticeKind) (h : Pending s k) :
    Pending (applyCorrection s c) k := by
  unfold applyCorrection
  split
  · exact h
  · split
    · exact stepBy_pending s c k h
    · exact h

/-! ## The parts of a round -/

/-- The quality after a round, from the Time Unit with the count of that round (R15). -/
def qualityAfter (t : TimeUnit) (empty : Bool) : Quality :=
  match t.quality with
  | .synced => if t.emptyRounds = 5 then .isolated else .synced
  | .isolated => if empty then .isolated else .synced
  | q => q

theorem roundQuality_time (s : State) (empty : Bool) :
    (roundQuality s empty).time = { s.time with quality := qualityAfter s.time empty } := by
  unfold roundQuality qualityAfter
  cases hq : s.time.quality with
  | unset | referenced => exact (timeUnit_quality hq).symm
  | synced =>
    dsimp only
    split
    · exact setQuality_time _ _
    · exact (timeUnit_quality hq).symm
  | isolated =>
    dsimp only
    split
    · exact (timeUnit_quality hq).symm
    · exact setQuality_time _ _

theorem roundQuality_taking (s : State) (empty : Bool) :
    (roundQuality s empty).faults.taking = s.faults.taking := by
  unfold roundQuality
  split
  · split
    · exact (setQuality_taking _ _).trans (report_taking _ _)
    · rfl
  · split
    · rfl
    · exact setQuality_taking _ _
  · rfl

/-- A round that changes the quality raises TIME CHANGE (R6, R15). -/
theorem roundQuality_timeChange {s : State} {empty : Bool} (ht : Taking s)
    (h : qualityAfter s.time empty ≠ s.time.quality) : Pending (roundQuality s empty) .timeChange := by
  unfold qualityAfter at h
  unfold roundQuality
  cases hq : s.time.quality with
  | unset | referenced => rw [hq] at h; exact absurd rfl h
  | synced =>
    rw [hq] at h
    dsimp only at h ⊢
    split
    · refine setQuality_timeChange ?_ ((report_taking _ _).trans ht)
      show s.time.quality ≠ .isolated
      rw [hq]
      decide
    · next n => rw [if_neg n] at h; exact absurd rfl h
  | isolated =>
    rw [hq] at h
    dsimp only at h ⊢
    split
    · next n => rw [if_pos n] at h; exact absurd rfl h
    · exact setQuality_timeChange (by rw [hq]; decide) ht

/-- The state of a round whose count and quality are done: what its correction is applied to (R12 to R15). -/
def roundCounted (s : State) : State :=
  roundQuality (s.withTime { s.time with
    emptyRounds := roundCount s.time.emptyRounds (decide (eligible s = [])) }) (decide (eligible s = []))

/-- The correction of the round that the station would run now (R12, R13). -/
def roundCorrection (s : State) : Int := correction (workingSet s.time.quality (eligible s))

theorem agreementRound_eq {s : State} (h : s.time.quality ≠ .unset) : agreementRound s =
    (if isStep (roundCorrection s) then (applyCorrection (roundCounted s) (roundCorrection s)).withTime
        (applyPending (applyCorrection (roundCounted s) (roundCorrection s)).time (roundCorrection s))
      else applyCorrection (roundCounted s) (roundCorrection s)).withLine
        (ageSamples (applyCorrection (roundCounted s) (roundCorrection s)).line) := by
  unfold agreementRound roundCounted roundCorrection
  rw [if_neg h]
  dsimp only
  split <;> rfl

theorem roundCounted_time (s : State) : (roundCounted s).time = { s.time with
    emptyRounds := roundCount s.time.emptyRounds (decide (eligible s = []))
    quality := qualityAfter { s.time with
      emptyRounds := roundCount s.time.emptyRounds (decide (eligible s = [])) } (decide (eligible s = [])) } :=
  roundQuality_time _ _

theorem roundCounted_line (s : State) : (roundCounted s).line = s.line :=
  (roundQuality_ev _ _).same .line (by decide)

theorem roundCounted_taking (s : State) : (roundCounted s).faults.taking = s.faults.taking :=
  roundQuality_taking _ _

/-- The Time Unit after a round, by the magnitude of its correction (R14). -/
theorem agreementRound_time {s : State} (h : s.time.quality ≠ .unset) :
    ((roundCorrection s).natAbs ≤ 1 → (agreementRound s).time = (roundCounted s).time) ∧
    (2 ≤ (roundCorrection s).natAbs → (roundCorrection s).natAbs ≤ 249 →
      (agreementRound s).time = slewBy (roundCounted s).time (roundCorrection s)) ∧
    (250 ≤ (roundCorrection s).natAbs → (agreementRound s).time =
      applyPending (steppedTime (roundCounted s).time (roundCorrection s)) (roundCorrection s)) := by
  rw [agreementRound_eq h]
  refine ⟨fun k => ?_, fun k l => ?_, fun k => ?_⟩
  · rw [applyCorrection_small k, if_neg (by rw [isStep_iff]; omega)]
    rfl
  · rw [applyCorrection_slew k l, if_neg (by rw [isStep_iff]; omega)]
    rfl
  · rw [applyCorrection_step k, if_pos ((isStep_iff _).mpr k)]
    show applyPending (stepBy _ _).time _ = _
    rw [stepBy_time _ (by omega)]

theorem agreementRound_line {s : State} (h : s.time.quality ≠ .unset) : (agreementRound s).line =
    ageSamples (if 250 ≤ (roundCorrection s).natAbs then stepRoster s.line else s.line) := by
  rw [agreementRound_eq h]
  show ageSamples (applyCorrection _ _).line = _
  split
  · next k => rw [applyCorrection_step k, stepBy_line _ (by omega), roundCounted_line]
  · next k =>
    by_cases l : (roundCorrection s).natAbs ≤ 1
    · rw [applyCorrection_small l, roundCounted_line]
    · rw [applyCorrection_slew (by omega) (by omega)]
      exact congrArg ageSamples (roundCounted_line s)

theorem agreementRound_faults {s : State} (h : s.time.quality ≠ .unset) :
    (agreementRound s).faults = (applyCorrection (roundCounted s) (roundCorrection s)).faults := by
  rw [agreementRound_eq h]
  split <;> rfl

theorem applyPending_cases (t : TimeUnit) (c : Int) :
    (∀ k, t.pendingSet = some k → applyPending t c = { applyKey t k c with pendingSet := none }) ∧
    (t.pendingSet = none → applyPending t c = t) := by
  unfold applyPending
  exact ⟨fun k hk => by rw [hk], fun hn => by rw [hn]⟩

/-- Settles O7: a correction by its magnitude, and the keys of a round through the Time Unit after it. -/
theorem roundAppliesItsCorrection : Obligations.RoundAppliesItsCorrection := by
  refine ⟨fun s c => ⟨applyCorrection_small, applyCorrection_slew, fun h => ⟨applyCorrection_step h, ?_⟩⟩,
    fun s hq => ?_⟩
  · rw [applyCorrection_step h, stepBy_time s (by omega)]
    rfl
  · obtain ⟨small, slew, step⟩ := agreementRound_time hq
    have keys : (roundCounted s).time.lastSet = s.time.lastSet ∧
      (roundCounted s).time.pendingSet = s.time.pendingSet := by
      rw [roundCounted_time]
      exact ⟨rfl, rfl⟩
    have stepped : (steppedTime (roundCounted s).time (roundCorrection s)).pendingSet = s.time.pendingSet := keys.2
    refine ⟨fun k hc hk => ?_, fun hc hn => ?_, fun hc => ?_⟩
    · rw [step hc, (applyPending_cases _ _).1 k (stepped.trans hk)]
      exact ⟨rfl, rfl⟩
    · rw [step hc, (applyPending_cases _ _).2 (stepped.trans hn)]
      exact ⟨keys.1, stepped.trans hn⟩
    · by_cases l : (roundCorrection s).natAbs ≤ 1
      · rw [small l]
        exact keys
      · rw [slew (by omega) hc]
        exact keys

/-! ## Samples, counts and quality (R11, R12, R15) -/

theorem filterMap_eq_map_filter {α β : Type} {g : α → Option β} {P : α → Bool} {f : α → β}
    (h : ∀ x, g x = if P x then some (f x) else none) (l : List α) : l.filterMap g = (l.filter P).map f := by
  induction l with
  | nil => rfl
  | cons x l ih =>
    cases hp : P x with
    | false => rw [List.filterMap_cons_none (by rw [h, hp]; rfl), List.filter_cons_of_neg (by simp [hp]), ih]
    | true =>
      rw [List.filterMap_cons_some (b := f x) (by rw [h, hp]; rfl), List.filter_cons_of_pos hp, ih, List.map_cons]

/-- The entry of a peer gives an eligible sample (R12). -/
def eligibleEntry (e : RosterEntry) : Bool :=
  e.present && e.sample.isSome && e.quality.any fun q => decide (q ≠ .unset)

theorem eligibleEntry_iff (e : RosterEntry) : eligibleEntry e = true ↔
    e.present = true ∧ e.sample.isSome = true ∧ ∃ q, e.quality = some q ∧ q ≠ .unset := by
  simp [eligibleEntry, Option.any_eq_true, and_assoc]

theorem eligible_eq (s : State) : eligible s = ((List.finRange 16).filter fun p => eligibleEntry s.line.roster[p]).map
    fun p => (decide (s.line.roster[p].quality = some .referenced),
      (s.line.roster[p].sample.map (·.value)).getD 0) := by
  refine filterMap_eq_map_filter (fun p => ?_) _
  dsimp only
  generalize s.line.roster[p] = e
  obtain ⟨present, _, _, _, _, sample, quality, _, _, _, _, _⟩ := e
  cases present <;> cases sample <;> cases quality <;> simp [eligibleEntry]

theorem workingSet_perm (q : Quality) (el : List (Bool × Int)) : let refs := (el.filter (·.1)).map (·.2)
    (q = .referenced → (workingSet q el).Perm (0 :: refs)) ∧
      (q ≠ .referenced → refs ≠ [] → (workingSet q el).Perm refs) ∧
      (q ≠ .referenced → refs = [] → (workingSet q el).Perm (0 :: el.map (·.2))) := by
  intro refs
  unfold workingSet
  refine ⟨fun h => ?_, fun h k => ?_, fun h k => ?_⟩
  · rw [if_pos h]
    exact List.perm_append_singleton _ _
  · rw [if_neg h, if_pos k]
  · rw [if_neg h, if_neg (not_not_intro k)]
    exact List.perm_append_singleton _ _

theorem ageSamples_entry (l : LineUnit) (p : StationNo) : (ageSamples l).roster[p] =
    { l.roster[p] with sample := l.roster[p].sample.bind fun x =>
        if x.age < 2 then some { x with age := x.age + 1 } else none } := by
  have aged (x : Sample) : (if 3 ≤ x.age + 1 then none else some { x with age := x.age + 1 }) =
      if x.age < 2 then some { x with age := x.age + 1 } else none := by
    by_cases h : x.age < 2
    · rw [if_neg (by omega), if_pos h]
    · rw [if_pos (by omega), if_neg h]
  simp only [ageSamples, agedSample, aged, Fin.getElem_fin, Vector.getElem_ofFn]

theorem stepRecorded_valid (img : Image) {b : Bank} (c : Int) (now : Option CampusTime) (h : b.valid = true) :
    (stepRecorded img b c now).valid = true ∧ (stepRecorded img b c now).uncorrected = b.uncorrected ∧
      (stepRecorded img b c now).code = b.code ∧ (stepRecorded img b c now).detail = b.detail := by
  unfold stepRecorded corrected
  dsimp only
  rw [if_pos h]
  split <;> exact ⟨h, rfl, rfl, rfl⟩

/-- A correction leaves a record that stands in the TIME bank (R177). -/
theorem applyCorrection_bank {s : State} (c : Int) (ht : Taking s) (h : s.faults.banks[bankIndex .time].valid = true) :
    (applyCorrection s c).faults.banks[bankIndex .time].valid = true ∧
      (applyCorrection s c).faults.banks[bankIndex .time].uncorrected =
        s.faults.banks[bankIndex .time].uncorrected ∧
      (applyCorrection s c).faults.banks[bankIndex .time].code = s.faults.banks[bankIndex .time].code ∧
      (applyCorrection s c).faults.banks[bankIndex .time].detail = s.faults.banks[bankIndex .time].detail := by
  by_cases small : c.natAbs ≤ 1
  · rw [applyCorrection_small small]
    exact ⟨h, rfl, rfl, rfl⟩
  · by_cases slew : c.natAbs ≤ 249
    · rw [applyCorrection_slew (by omega) slew]
      exact ⟨h, rfl, rfl, rfl⟩
    · rw [applyCorrection_step (by omega), stepBy_bank s (by omega) ht]
      exact stepRecorded_valid _ _ _ h

/-- The TIME bank of a round that makes the station ISOLATED (R15, R180). -/
theorem roundCounted_isolated {s : State} (ht : Taking s) (hq : s.time.quality = .synced)
    (hn : roundCount s.time.emptyRounds (decide (eligible s = [])) = 5)
    (on : faultEnabled s.image .isolated = true) : (roundCounted s).faults.banks[bankIndex .time] =
      corrected s.faults.banks[bankIndex .time] 4 none (some s.time.campus) := by
  have eq : roundCounted s =
      setQuality (report (s.withTime { s.time with emptyRounds := 5 }) .isolated) .isolated := by
    unfold roundCounted roundQuality
    simp only [time_withTime, hq, hn, if_true]
  rw [eq, setQuality_banks]
  refine ((report_corrected _ .isolated ht rfl).trans (if_pos on)).trans ?_
  show corrected _ 4 none (if s.time.quality = .unset then none else some s.time.campus) = _
  rw [if_neg (by rw [hq]; decide)]
  rfl

theorem qualityAfter_round (s : State) : qualityAfter { s.time with
      emptyRounds := roundCount s.time.emptyRounds (decide (eligible s = [])) } (decide (eligible s = [])) =
    match s.time.quality with
      | .synced => if roundCount s.time.emptyRounds (decide (eligible s = [])) = 5 then .isolated else .synced
      | .isolated => if eligible s = [] then .isolated else .synced
      | q => q := by
  unfold qualityAfter
  cases s.time.quality <;> simp

/-- The count and the quality after a round (R15). -/
theorem agreementRound_count {s : State} (h : s.time.quality ≠ .unset) :
    (agreementRound s).time.emptyRounds = (roundCounted s).time.emptyRounds ∧
      (agreementRound s).time.quality = (roundCounted s).time.quality := by
  obtain ⟨small, slew, step⟩ := agreementRound_time h
  by_cases l : (roundCorrection s).natAbs ≤ 1
  · rw [small l]
    exact ⟨rfl, rfl⟩
  · by_cases m : (roundCorrection s).natAbs ≤ 249
    · rw [slew (by omega) m]
      exact ⟨rfl, rfl⟩
    · rw [step (by omega)]
      unfold applyPending
      split <;> exact ⟨rfl, rfl⟩

/-- Settles O8: samples by the pass over the roster, the rest from the parts of the round. -/
theorem roundCountsEmptyRounds : Obligations.RoundCountsEmptyRounds := by
  refine ⟨fun s => ⟨_, (List.nodup_finRange 16).filter _, fun p => ?_, eligible_eq s⟩, workingSet_perm,
    fun s hq => ⟨fun p => ⟨fun hc => ?_, fun hc => ?_⟩, ?_, ?_, fun hs hn ht on => ?_, fun ht hd => ?_⟩⟩
  · rw [List.mem_filter, eligibleEntry_iff]
    exact and_iff_right (List.mem_finRange p)
  · have hk : ¬ 250 ≤ (roundCorrection s).natAbs := Nat.not_le.mpr (Nat.lt_succ_of_le hc)
    rw [agreementRound_line hq, if_neg hk, ageSamples_entry]
  · have hk : 250 ≤ (roundCorrection s).natAbs := hc
    rw [agreementRound_line hq, if_pos hk, ageSamples_entry, stepRoster_entry]
    rfl
  · rw [(agreementRound_count hq).1, roundCounted_time]
    simp only [roundCount, decide_eq_true_eq]
  · rw [(agreementRound_count hq).1, (agreementRound_count hq).2, roundCounted_time]
    exact qualityAfter_round s
  · rw [(agreementRound_count hq).1, roundCounted_time] at hn
    have bank := roundCounted_isolated ht hs hn on
    have valid : (roundCounted s).faults.banks[bankIndex .time].valid = true := by
      rw [bank, corrected]
      split
      · assumption
      · rfl
    obtain ⟨v, u, code, detail⟩ := applyCorrection_bank (roundCorrection s) ((roundCounted_taking s).trans ht) valid
    rw [agreementRound_faults hq]
    refine ⟨v, fun hv => ?_⟩
    rw [u, code, detail, bank, corrected, hv]
    exact ⟨rfl, rfl, rfl⟩
  · rw [(agreementRound_count hq).2, roundCounted_time] at hd
    have raised : Pending (roundCounted s) .timeChange := roundQuality_timeChange ht hd
    unfold Pending
    rw [agreementRound_faults hq]
    exact applyCorrection_pending _ _ _ raised

end Sys2Proof.Proofs
end

section
/-! The status computation, and how campus time is established (R7, R22, R25, R109, R110). Labels and minute marks
(R19 to R22). -/

namespace Sys2Proof.Proofs

open Sys2Proof Sys2Proof.Machine Sys2Proof.Laws

/-! ## Frames -/

theorem withTime_changes (s : State) (x : TimeUnit) : Changes [.time] s (s.withTime x) := by
  intro f hf
  cases f
  case time => exact absurd (by decide) hf
  all_goals rfl

theorem changes_mono {fs gs : List Field} {s t : State} (h : Changes gs s t) (w : within gs fs = true := by decide) :
    Changes fs s t := fun f hf => h f (not_mem_of_within w hf)

theorem changes_trans {fs : List Field} {s t u : State} (h : Changes fs s t) (k : Changes fs t u) : Changes fs s u :=
  fun f hf => Field.Same.trans (h f hf) (k f hf)

/-! ## The status computation -/

/-- What a status computation makes of a CODED circuit's record in RUN. -/
def statusComputed (s : State) (x : CodedRecord) : CodedRecord :=
  let status := codeStatus s (currentReading s)
  if x.lastStatus = some status then x
  else if x.sending then { x with resend := true }
  else codeBegun x (currentReading s) status s.start.station

/-- Each CODED circuit computes its status by itself, in RUN only. -/
theorem computeStatus_eq (s : State) : computeStatus s = s.withClocks (Vector.ofFn fun c : ClockNo =>
    if s.image.clocks[c].kind = .coded ∧ s.start.opState = .run then
      { s.clocks[c] with coded := statusComputed s s.clocks[c].coded } else s.clocks[c]) := by
  refine foldl_clocks (fun c x => if s.image.clocks[c].kind = .coded ∧ s.start.opState = .run then
      { x with coded := statusComputed s x.coded } else x) s fun v c => ?_
  have status : codeStatus (s.withClocks v) (currentReading (s.withClocks v)) = codeStatus s (currentReading s) := rfl
  have run : inRun (s.withClocks v) = decide (s.start.opState = .run) := rfl
  have image : (s.withClocks v).image = s.image := rfl
  have circuit : (s.withClocks v).clocks = v := rfl
  have stays : s.withClocks v = s.withClocks (v.set c v[c]) := by rw [clocks_set_self]
  simp only [statusCode, beginCode, clockKind, run, image, circuit, decide_eq_true_eq, status, statusComputed]
  by_cases hk : s.image.clocks[c].kind = .coded ∧ s.start.opState = .run
  · simp only [hk, and_self, if_true]
    by_cases hl : v[c].coded.lastStatus = some (codeStatus s (currentReading s))
    · simp only [hl, if_true]
      exact stays
    · simp only [hl, if_false]
      split <;> rfl
  · simp only [hk, if_false, ite_self]
    exact stays

/-- A status computation right after a notice: a circuit that the notice made send has its resend flag set where the
status is another one (R110). -/
theorem clocksNoticed_computed {s u v : State} {r : Reading} {begun : CodeStatus} (h : ClocksNoticed s u r begun begun)
    (hc : v.clocks = u.clocks) (hi : v.image = s.image) (hs : v.start = s.start) :
    ClocksNoticed s (computeStatus v) r begun (codeStatus v (currentReading v)) := by
  intro c
  have hu := h c
  rw [computeStatus_eq]
  show (Vector.ofFn _)[c] = _
  simp only [Fin.getElem_fin, Vector.getElem_ofFn] at hu ⊢
  rw [hi, hs, hc, hu]
  by_cases hk : s.image.clocks[c.val].kind = .coded ∧ s.start.opState = .run
  · simp only [hk, and_self, if_true, statusComputed, codeNoticed, Fin.getElem_fin]
    cases s.clocks[c.val].coded.sending
    · by_cases hl : codeStatus v (currentReading v) = begun
      · simp [hl]
      · simp [hl, Ne.symm hl]
    · by_cases hl : s.clocks[c.val].coded.lastStatus = some (codeStatus v (currentReading v)) <;> simp [hl]
  · simp only [hk, if_false]

/-! ## Establishment -/

/-- The last part of an establishment, after the high-water mark: the clocks' notice, and TIME CHANGE. -/
def establishNotices (s : State) (now : CampusTime) : State := raise (clockAll s ⟨now, true⟩) .timeChange

theorem establish_eq (s : State) (now : CampusTime) (q : Quality) : establish s now q =
    computeStatus (establishNotices (bellEstablish (s.withTime { s.time with
      campus := now
      quality := q }) now) now) := rfl

theorem establishNotices_ev (s : State) (now : CampusTime) : Evolves [.clocks, .faults] s (establishNotices s now) :=
  (clockAll_ev s _).mono.then (raise_ev _ _)

theorem bellEstablish_bells (s : State) (now : CampusTime) : (bellEstablish s now).bells =
    if s.start.opState = .run ∧ s.bells.hwm = none then { s.bells with
      hwm := some (now.day.toNat * 86400 + now.ms / 1000)
      dayOfProgram := some now.day
      today := programQuery s.plan now.day
      drillCount := 0
      quietCount := 0 } else s.bells := by
  unfold bellEstablish
  simp only [inRun, decide_eq_true_eq]
  split <;> rfl

theorem establish_rest_ev (s : State) (now : CampusTime) (q : Quality) : Evolves [.bells, .mark, .clocks, .faults]
    (s.withTime { s.time with
      campus := now
      quality := q }) (establish s now q) :=
  ((bellEstablish_ev _ now).mono.then (establishNotices_ev _ now)).then (computeStatus_ev _)

theorem establish_time (s : State) (now : CampusTime) (q : Quality) : (establish s now q).time = { s.time with
    campus := now
    quality := q } :=
  (establish_rest_ev s now q).same .time (by decide)

theorem raise_faults (s : State) (k : NoticeKind) : (raise s k).faults = faultsRaise s.faults k := rfl

theorem establishNotices_faults (s : State) (now : CampusTime) :
    (establishNotices s now).faults = faultsRaise s.faults .timeChange := by
  have clocks : (clockAll s ⟨now, true⟩).faults = s.faults := (clockAll_ev s _).same .faults (by decide)
  rw [establishNotices, raise_faults, clocks]

theorem establishNotices_clocks (s : State) (now : CampusTime) :
    (establishNotices s now).clocks = (clockAll s ⟨now, true⟩).clocks := (raise_ev _ _).same .clocks (by decide)

theorem establish_faults (s : State) (now : CampusTime) (q : Quality) :
    (establish s now q).faults = faultsRaise s.faults .timeChange := by
  rw [establish_eq, computeStatus_faults, establishNotices_faults, (bellEstablish_ev _ now).same .faults (by decide),
    faults_withTime]

theorem establish_banks (s : State) (now : CampusTime) (q : Quality) :
    (establish s now q).faults.banks = s.faults.banks := by
  rw [establish_faults]
  exact raise_banks s .timeChange

/-- What an establishment leaves as it is. -/
theorem establish_changes (s : State) (now : CampusTime) (q : Quality) :
    Changes [.time, .bells, .mark, .clocks, .faults] s (establish s now q) :=
  changes_trans (changes_mono (withTime_changes s _)) (establish_rest_ev s now q).mono.same

/-- An establishment keeps to the rules R7, R82, R99 and R110. -/
theorem establish_established (s : State) (now : CampusTime) {q : Quality} (hq : q ≠ .unset) :
    Established s (establish s now q) now q := by
  have rest := (establish_changes s now q)
  refine ⟨?_, ?_, ?_, ?_, ?_, ?_, rest .ann (by decide), rest .arb (by decide)⟩
  · rw [establish_time]
  · rw [establish_time]
  · rw [establish_time]
  · intro ht
    unfold Pending
    rw [establish_faults]
    exact (raise_pending s _ _).mpr (.inl ⟨ht, rfl⟩)
  · rw [establish_eq, (computeStatus_ev _).same .bells (by decide), (establishNotices_ev _ _).same .bells (by decide),
      bellEstablish_bells]
    rfl
  · rw [establish_eq]
    generalize hw : s.withTime { s.time with
      campus := now
      quality := q } = w
    have hb := (bellEstablish_ev w now).same
    generalize bellEstablish w now = b at hb
    have ht : b.time = w.time := hb .time (by decide)
    have begun : codeStatus b ⟨now, true⟩ = codeStatus (s.withTime { s.time with quality := q }) ⟨now, true⟩ := by
      subst hw
      exact codeStatus_congr _ (hb .drill (by decide)) (by rw [ht]; rfl) (hb .plan (by decide))
    have noticed := clockAll_noticed b ⟨now, true⟩
    rw [begun] at noticed
    have n := (establishNotices_ev b now).same
    have later : codeStatus (establishNotices b now) (currentReading (establishNotices b now)) =
        codeStatus (s.withTime { s.time with quality := q }) ⟨now, true⟩ := by
      have reading : currentReading (establishNotices b now) = ⟨now, true⟩ := by
        have := n .time (by decide)
        subst hw
        simp only [currentReading, Field.Same] at this ⊢
        rw [this, ht]
        simp [hq]
      rw [reading, ← begun]
      exact codeStatus_congr _ (n .drill (by decide)) (congrArg _ (n .time (by decide))) (n .plan (by decide))
    rw [← later] at noticed ⊢
    have := (clocksNoticed_computed noticed (establishNotices_clocks b now)
      (n .image (by decide)) (n .start (by decide)))
    subst hw
    refine clocksNoticed_same this (hb .image (by decide)).symm (hb .clocks (by decide)).symm ?_
      (hb .start (by decide)).symm rfl
    rw [ht]
    rfl

/-- Two states from which an establishment gives the same: what it reads is the same in both. -/
structure EstablishesAs (s a : State) : Prop where
  start : a.start = s.start
  image : a.image = s.image
  stepCounter : a.time.stepCounter = s.time.stepCounter
  localCount : a.time.localCount = s.time.localCount
  taking : a.faults.taking = s.faults.taking
  bells : a.bells = s.bells
  clocks : a.clocks = s.clocks
  ann : a.ann = s.ann
  arb : a.arb = s.arb
  program : programQuery a.plan = programQuery s.plan
  status : ∀ q r, codeStatus (a.withTime { a.time with quality := q }) r =
    codeStatus (s.withTime { s.time with quality := q }) r

theorem EstablishesAs.established {s a t : State} {now : CampusTime} {q : Quality} (h : EstablishesAs s a)
    (e : Established a t now q) : Established s t now q := by
  obtain ⟨campus, quality, steps, notice, bells, clocks, ann, arb⟩ := e
  refine ⟨campus, quality, steps.trans h.stepCounter, fun ht => notice (h.taking.trans ht), ?_, ?_, ann.trans h.ann,
    arb.trans h.arb⟩
  · rw [bells, h.start, h.bells, h.program]
  · rw [h.status] at clocks
    exact clocksNoticed_same clocks h.image.symm h.clocks.symm h.localCount.symm h.start.symm rfl

theorem established_end {s b t : State} {now : CampusTime} {q : Quality} (e : Established s b now q)
    (time : t.time.campus = b.time.campus ∧ t.time.quality = b.time.quality ∧ t.time.stepCounter = b.time.stepCounter)
    (notices : Pending b .timeChange → Pending t .timeChange)
    (same : t.bells = b.bells ∧ t.clocks = b.clocks ∧ t.ann = b.ann ∧ t.arb = b.arb) : Established s t now q := by
  obtain ⟨campus, quality, steps, notice, bells, clocks, ann, arb⟩ := e
  obtain ⟨tcampus, tquality, tsteps⟩ := time
  obtain ⟨tbells, tclocks, tann, tarb⟩ := same
  exact ⟨tcampus.trans campus, tquality.trans quality, tsteps.trans steps, fun ht => notices (notice ht),
    tbells.trans bells, clocksNoticed_same clocks rfl rfl rfl rfl tclocks, tann.trans ann, tarb.trans arb⟩

/-! ## Labels and marks -/

theorem labelOk_iff (t : CampusTime) : labelOk t = true ↔ t.ms % 60000 = 0 ∧ t.ms ≤ 86340000 := by
  simp [labelOk]

theorem applyCorrection_time (s : State) (c : Int) : (applyCorrection s c).time = s.time ∨
    (applyCorrection s c).time = slewBy s.time c ∨ (applyCorrection s c).time = steppedTime s.time c := by
  by_cases small : c.natAbs < 2
  · exact .inl (by rw [applyCorrection_small (by omega)])
  · refine .inr ?_
    by_cases slew : c.natAbs ≤ 249
    · exact .inl (by rw [applyCorrection_slew (by omega) slew]; rfl)
    · exact .inr (by rw [applyCorrection_step (by omega), stepBy_time s (by omega)])

theorem applyCorrection_keeps (s : State) (c : Int) : let t := (applyCorrection s c).time
    t.label = s.time.label ∧ t.prevMark = s.time.prevMark ∧ t.lastSet = s.time.lastSet ∧
    t.pendingSet = s.time.pendingSet ∧ t.quality = s.time.quality := by
  dsimp only
  obtain h | h | h := applyCorrection_time s c <;> rw [h] <;> exact ⟨rfl, rfl, rfl, rfl, rfl⟩

theorem acceptMark_label (s : State) (l : CampusTime) : (acceptMark s l).time.label = none := by
  unfold acceptMark
  dsimp only
  split
  · rw [establish_time]
    rfl
  · rw [setQuality_time]
    exact (applyCorrection_keeps _ _).1

theorem restartStation_label (s : State) : (restartStation s).time.label = none := by
  have time : (restartStation s).time = (restartBlocks s).time :=
    ((joinState_ev _).same .time (by decide)).trans ((restartNotices_ev _ _).same .time (by decide))
  rw [time]
  rfl

theorem restartTaken_label (s : State) : (restartTaken s).time.label = none := restartStation_label _

/-- Settles O11: the label is taken in every quality, and each of the three clears it. -/
theorem referenceLabelIsHeld : Obligations.ReferenceLabelIsHeld := by
  refine ⟨fun s t ha => ?_, acceptMark_label, fun s t h => ?_, fun s t ha h => ?_⟩
  · show Host.Outcome.next (panelTake s (labelTake t)) = _
    rw [panelTake_active ha]
    unfold labelTake
    simp only [labelOk_iff]
    split <;> rfl
  · have : t = if s.start.resetHeld then heldInReset (s.withStart { s.start with powered := true })
        else startEvent s := (Host.Outcome.next.inj h).symm
    subst this
    split <;> rfl
  · have : t = if alive s && working s then restartTaken s else panelTake s fun s => (s, .busy) :=
      (Host.Outcome.next.inj h).symm
    rw [if_pos (by simp [ha.1, ha.2])] at this
    rw [this]
    exact restartTaken_label s

theorem markAccepted_iff (t : TimeUnit) : markAccepted t = true ↔ t.label.isSome ∧ ∀ p, t.prevMark = some p →
    59500 ≤ countSince t.localCount p ∧ countSince t.localCount p ≤ 60500 := by
  unfold markAccepted
  cases t.prevMark <;> simp

/-- A minute mark sets the level of REF and is decided (R19, R21). -/
theorem exec_minuteMark {s : State} (ha : alive s = true) (ho : s.start.opState ≠ .halt) :
    exec .minuteMark s = .next (decideMark (refHigh s)) :=
  congrArg Host.Outcome.next (if_pos ⟨ha, ho⟩)

theorem decideMark_accepts {s : State} {l : CampusTime} (hl : s.time.label = some l) (h : markAccepted s.time = true) :
    decideMark s = acceptMark s l := by
  unfold decideMark
  rw [hl]
  exact if_pos h

theorem decideMark_rejects {s : State} (h : ¬ markAccepted s.time = true) :
    decideMark s = report s (.markRejected s.time.label.isSome) := by
  unfold decideMark
  cases hl : s.time.label with
  | none => rfl
  | some l => exact if_neg h

/-- An accepted mark consumes the label and records the mark (R21, R23). -/
def markTaken (s : State) : State := s.withTime { s.time with
  label := none
  prevMark := some s.time.localCount }

theorem acceptMark_unset {s : State} (h : s.time.quality = .unset) (l : CampusTime) :
    acceptMark s l = establish (markTaken s) l .referenced := if_pos h

theorem acceptMark_set {s : State} (h : s.time.quality ≠ .unset) (l : CampusTime) :
    acceptMark s l = setQuality (applyCorrection (markTaken s) (campusDiff l s.time.campus)) .referenced := if_neg h

theorem acceptMark_time (s : State) (l : CampusTime) : (acceptMark s l).time.prevMark = some s.time.localCount ∧
    (acceptMark s l).time.quality = .referenced := by
  by_cases h : s.time.quality = .unset
  · rw [acceptMark_unset h, establish_time]
    exact ⟨rfl, rfl⟩
  · rw [acceptMark_set h, setQuality_time]
    exact ⟨(applyCorrection_keeps _ _).2.1, rfl⟩

/-- Settles O12: acceptance asks for the label and the spacing, and a mark is accepted or recorded. -/
theorem aMinuteMarkIsAcceptedOrRejected : Obligations.AMinuteMarkIsAcceptedOrRejected := by
  intro s ha ho
  have time : (refHigh s).time = s.time := rfl
  rw [exec_minuteMark ha ho, ← markAccepted_iff, ← time]
  refine ⟨fun h => ?_, fun h => ?_⟩
  · obtain ⟨l, hl⟩ := Option.isSome_iff_exists.mp ((markAccepted_iff _).mp h).1
    rw [decideMark_accepts hl h]
    exact ⟨_, rfl, acceptMark_label _ _, acceptMark_time _ _⟩
  · rw [decideMark_rejects h]
    rfl

/-! ## What an accepted mark does (R22) -/

theorem computeStatus_impulse (s : State) (c : ClockNo) : (computeStatus s).clocks[c].impulse =
    s.clocks[c].impulse := by
  simp only [computeStatus_eq, clocks_withClocks, Fin.getElem_fin, Vector.getElem_ofFn]
  split <;> rfl

theorem setQuality_impulse (s : State) (q : Quality) (c : ClockNo) :
    (setQuality s q).clocks[c].impulse = s.clocks[c].impulse := by
  unfold setQuality
  split
  · rfl
  · exact computeStatus_impulse _ c

/-- A change of quality right after a step: the status that the clocks' notice began with is computed again. -/
theorem clocksNoticed_setQuality {s : State} {c : Int} (hc : c ≠ 0) {q : Quality} (hq : q ≠ .unset) :
    let r : Reading := ⟨campusAdd s.time.campus c, true⟩
    ClocksNoticed s (setQuality (stepBy s c) q) r (codeStatus s r)
      (codeStatus (s.withTime { s.time with quality := q }) r) := by
  intro r
  have noticed := stepBy_clocks s c hc
  have steps := stepBy_changes s c
  have time := stepBy_time s hc
  unfold setQuality
  split
  · next same =>
    rw [time] at same
    have : s.withTime { s.time with quality := q } = s := by rw [← same]; rfl
    rw [this]
    exact noticed
  · generalize stepBy s c = u at *
    have later : codeStatus (raise (u.withTime { u.time with quality := q }) .timeChange)
        (currentReading (raise (u.withTime { u.time with quality := q }) .timeChange)) =
        codeStatus (s.withTime { s.time with quality := q }) r := by
      have reading : currentReading (raise (u.withTime { u.time with quality := q }) .timeChange) = r := by
        show (⟨u.time.campus, decide (q ≠ .unset)⟩ : Reading) = r
        rw [time]
        simp [hq, r, steppedTime]
      rw [reading]
      exact codeStatus_congr r (steps .drill (by decide)) rfl (steps .plan (by decide))
    rw [← later]
    exact clocksNoticed_computed noticed rfl (steps .image (by decide)) (steps .start (by decide))

/-- The state in which a decided mark is taken: REF high, the label consumed and the mark recorded. -/
def markStart (s : State) : State := markTaken (refHigh s)

theorem markStart_changes (s : State) : Changes [.pins, .time] s (markStart s) := by
  intro f hf
  cases f
  case pins => exact absurd (by decide) hf
  case time => exact absurd (by decide) hf
  all_goals rfl

theorem markStart_as (s : State) : EstablishesAs s (markStart s) :=
  ⟨rfl, rfl, rfl, rfl, rfl, rfl, rfl, rfl, rfl, rfl, fun _ _ => rfl⟩

theorem stepped_mark {s : State} {c : Int} (hc : 250 ≤ c.natAbs) :
    let t := setQuality (applyCorrection (markStart s) c) .referenced
    t.time.campus = campusAdd s.time.campus c ∧ t.time.stepCounter = s.time.stepCounter + 1 ∧
    (let r : Reading := ⟨campusAdd s.time.campus c, true⟩
     ClocksNoticed s t r (codeStatus s r) (codeStatus (s.withTime { s.time with quality := .referenced }) r) ∧
      Changes [.time, .clocks, .faults] (stepBy (markStart s) c) t ∧
      (s.time.quality ≠ .unset → Taking s → Pending t .timeChange ∧ t.faults.banks[bankIndex .time] =
        stepRecorded s.image s.faults.banks[bankIndex .time] c (some r.time))) := by
  have hz : c ≠ 0 := by omega
  have time := stepBy_time (markStart s) hz
  rw [applyCorrection_step hc]
  refine ⟨?_, ?_, ?_, (setQuality_ev _ _).mono.same, fun hq ht => ⟨?_, ?_⟩⟩
  · rw [setQuality_time, time]
    rfl
  · rw [setQuality_time, time]
    rfl
  · exact clocksNoticed_same (clocksNoticed_setQuality (s := markStart s) hz (by decide)) rfl rfl rfl rfl rfl
  · exact setQuality_pending _ _ _ (stepBy_timeChange _ hz ht)
  · rw [setQuality_banks, stepBy_bank (markStart s) hz ht]
    exact congrArg _ (if_neg hq)

theorem slewed_mark {s : State} {c : Int} (hc : c.natAbs < 250) : ∃ x : TimeUnit,
    applyCorrection (markStart s) c = (markStart s).withTime x ∧ x.campus = s.time.campus ∧
    x.stepCounter = s.time.stepCounter ∧
    x.slewRemainder = if 2 ≤ c.natAbs then c else s.time.slewRemainder := by
  by_cases small : 2 ≤ c.natAbs
  · exact ⟨_, applyCorrection_slew small (by omega), rfl, rfl, by rw [if_pos small]⟩
  · exact ⟨(markStart s).time, applyCorrection_small (by omega), rfl, rfl, by rw [if_neg small]; rfl⟩

/-- Settles O13: establishment at an UNSET station, else the correction by its magnitude and then REFERENCED. -/
theorem anAcceptedMarkCorrectsTheTime : Obligations.AnAcceptedMarkCorrectsTheTime := by
  intro s l ha ho hl hm
  rw [exec_minuteMark ha ho, decideMark_accepts (s := refHigh s) hl hm]
  refine ⟨_, rfl, ?_⟩
  by_cases hq : s.time.quality = .unset
  · have e : acceptMark (refHigh s) l = establish (markStart s) l .referenced := acceptMark_unset (s := refHigh s) hq l
    have same := changes_trans (changes_mono (markStart_changes s))
      (changes_mono (fs := [.pins, .time, .line, .bells, .mark, .arb, .synth, .ann, .clocks, .faults])
        (establish_changes (markStart s) l .referenced))
    have established := (markStart_as s).established (establish_established (markStart s) l (q := .referenced) nofun)
    rw [e]
    refine ⟨?_, ?_, ?_, fun ht _ => established.2.2.2.1 ht, fun _ => ⟨established, ?_, establish_banks _ _ _⟩,
      fun h => absurd hq h, same⟩
    · rw [establish_time]
      rfl
    · rw [establish_time]
      rfl
    · rw [establish_time]
    · exact establish_changes (markStart s) l .referenced .line (by decide)
  · have e : acceptMark (refHigh s) l =
      setQuality (applyCorrection (markStart s) (campusDiff l s.time.campus)) .referenced :=
      acceptMark_set (s := refHigh s) hq l
    rw [e]
    generalize campusDiff l s.time.campus = c
    obtain ⟨label, prevMark, lastSet, pendingSet, quality⟩ := applyCorrection_keeps (markStart s) c
    refine ⟨?_, ?_, ?_, fun ht hr => ?_, fun h => absurd h hq, fun _ => ⟨fun hc => ?_, fun hc => ?_, fun h2 hc => ?_,
      fun hc => ?_⟩, ?_⟩
    · rw [setQuality_time]
      exact pendingSet
    · rw [setQuality_time]
      exact lastSet
    · rw [setQuality_time]
    · exact setQuality_timeChange (by rw [quality]; exact hr) ((applyCorrection_taking _ _).trans ht)
    · obtain ⟨x, hx, campus, steps, slew⟩ := slewed_mark (s := s) hc
      rw [hx]
      refine ⟨?_, ?_, ?_, fun c => ?_⟩
      · exact changes_trans (changes_mono (markStart_changes s)) (changes_trans (changes_mono (withTime_changes _ x))
          (setQuality_ev _ _).mono.same)
      · rw [setQuality_banks]
        rfl
      · rw [setQuality_time]
        exact steps
      · rw [setQuality_impulse]
        rfl
    · obtain ⟨x, hx, campus, steps, slew⟩ := slewed_mark (s := s) (c := c) (by omega)
      rw [hx, setQuality_time]
      exact ⟨campus, slew.trans (if_neg (by omega))⟩
    · obtain ⟨x, hx, campus, steps, slew⟩ := slewed_mark (s := s) hc
      rw [hx, setQuality_time]
      exact ⟨campus, slew.trans (if_pos h2)⟩
    · obtain ⟨campus, steps, noticed, rest, bank⟩ := stepped_mark (s := s) hc
      exact ⟨campus, steps, noticed, ⟨markStart s, markStart_changes s, rfl, rest⟩, bank hq⟩
    · exact changes_trans (changes_mono (markStart_changes s)) (changes_trans
        (applyCorrection_ev _ _).mono.same (setQuality_ev _ _).mono.same)

end Sys2Proof.Proofs
end

section
/-! What an offer does to the transmit queue, to the holds of the two sorts, and to the Time Unit (R38 to R40). -/

namespace Sys2Proof.Proofs

open Sys2Proof Sys2Proof.Machine Sys2Proof.Laws

/-! ## The queue and the holds -/

/-- A Line Unit but for its transmit queue and what is held aside for it (R38, R39). -/
def lineAside (l : LineUnit) : LineUnit := { l with
  queue := []
  holdBeacon := none
  holdDrill := none }

/-- From line l to m only the queue and the holds have changed, no frame in flight has left the queue, and both holds
stand. -/
structure QueueMoves (l m : LineUnit) : Prop where
  aside : lineAside m = lineAside l
  flight : ∀ e ∈ l.queue, e.inFlight = true → e ∈ m.queue
  holds : ∀ b, heldFor m b = heldFor l b

theorem QueueMoves.refl (l : LineUnit) : QueueMoves l l := ⟨rfl, fun _ h _ => h, fun _ => rfl⟩

theorem QueueMoves.trans {l m n : LineUnit} (h : QueueMoves l m) (k : QueueMoves m n) : QueueMoves l n :=
  ⟨k.aside.trans h.aside, fun e he hf => k.flight e (h.flight e he hf) hf, fun b => (k.holds b).trans (h.holds b)⟩

theorem QueueMoves.of_eq {l m : LineUnit} (h : m = l) : QueueMoves l m := h ▸ .refl l

theorem mem_queueInsert {q : List TxEntry} {e x : TxEntry} : x ∈ queueInsert q e ↔ x = e ∨ x ∈ q := by
  unfold queueInsert
  rw [List.mem_append, List.mem_cons, or_left_comm, ← List.mem_append, List.takeWhile_append_dropWhile]

theorem mem_eraseLast {α : Type} {p : α → Bool} {l : List α} {x : α} (hx : x ∈ l) (hp : p x = false) :
    x ∈ eraseLast p l := by
  unfold eraseLast
  rw [List.mem_reverse]
  exact (List.mem_eraseP_of_neg (by simp [hp])).mpr (List.mem_reverse.mpr hx)

theorem offerNew_moves (l : LineUnit) (b : FrameBody) : QueueMoves l (offerNew l b).line := by
  unfold offerNew
  split
  · exact ⟨rfl, fun e he _ => mem_queueInsert.mpr (.inr he), fun b => by cases b <;> rfl⟩
  · split
    · exact ⟨rfl, fun e he hf => mem_queueInsert.mpr (.inr (mem_eraseLast he (by simp [evictable, hf]))),
        fun b => by cases b <;> rfl⟩
    · exact .refl l

theorem cursorStep_moves (s : State) : QueueMoves s.line (cursorStep s).line := by
  unfold cursorStep
  split
  · split
    · dsimp only
      split
      · exact offerNew_moves _ _
      · exact .refl _
    · exact .refl _
  · exact .refl _

theorem runCursor_moves (s : State) : QueueMoves s.line (runCursor s).line :=
  (cursorStep_moves s).trans (cursorStep_moves _)

theorem toldPlan_moves (s : State) (k : Key) (i : Nat) (o : TxOutcome) :
    QueueMoves s.line (toldPlan s k i o).line := by
  have run (p : PlanUnit) : QueueMoves s.line (runCursor (s.withPlan p)).line := runCursor_moves (s.withPlan p)
  unfold toldPlan
  split
  · cases o with
    | sent | suppressed | dropped | evicted | replaced => exact run _
    | refused | discarded => exact .refl _
  · exact .refl _

theorem told_moves (s : State) (b : FrameBody) (o : TxOutcome) : QueueMoves s.line (told s b o).line := by
  unfold told
  split
  · exact .refl _
  · exact .refl _
  · exact toldPlan_moves s _ _ _
  · exact .refl _

theorem tellAll_moves (s : State) (l : List (FrameBody × TxOutcome)) : QueueMoves s.line (tellAll s l).line := by
  induction l generalizing s with
  | nil => exact .refl _
  | cons x l ih => exact (told_moves s x.1 x.2).trans (ih (told s x.1 x.2))

theorem reportRefusals_line (s : State) (l : List (FrameBody × TxOutcome)) : (reportRefusals s l).line = s.line :=
  (reportRefusals_ev s l).same .line (by decide)

/-- An offer that the station takes: the queue as the offer leaves it, moved on by what the owners do. -/
theorem offer_moves {s : State} (h : takesOffers s = true) (b : FrameBody) :
    QueueMoves (lineOffer s.line b).line (offer s b).line := by
  unfold offer
  rw [if_pos h]
  have := tellAll_moves (reportRefusals (s.withLine (lineOffer s.line b).line) (lineOffer s.line b).told)
    (lineOffer s.line b).told
  rw [reportRefusals_line] at this
  exact this

theorem lineOffer_aside (l : LineUnit) (b : FrameBody) : lineAside (lineOffer l b).line = lineAside l := by
  unfold lineOffer
  split
  · split
    · cases b <;> rfl
    · rfl
  · exact (offerNew_moves l b).aside

/-- An offer changes nothing of the Line Unit but its queue and the holds. -/
theorem offer_aside (s : State) (b : FrameBody) : lineAside (offer s b).line = lineAside s.line := by
  by_cases h : takesOffers s = true
  · exact (offer_moves h b).aside.trans (lineOffer_aside _ _)
  · unfold offer
    rw [if_neg h]
    exact (told_moves s b _).aside

theorem offer_roster (s : State) (b : FrameBody) : (offer s b).line.roster = s.line.roster := by
  show (lineAside (offer s b).line).roster = _
  rw [offer_aside]
  rfl

theorem offer_listenOnly (s : State) (b : FrameBody) : (offer s b).line.listenOnly = s.line.listenOnly := by
  show (lineAside (offer s b).line).listenOnly = _
  rw [offer_aside]
  rfl

theorem offer_takesOffers (s : State) (b : FrameBody) : takesOffers (offer s b) = takesOffers s := by
  have start : (offer s b).start = s.start := (offer_ev s b).same .start (by decide)
  rw [takesOffers, takesOffers, working, working, offer_listenOnly, start]

/-! ## Offers that find room -/

/-- The queue has room for a frame, or holds a frame of its sort, which it replaces (R39, R40). -/
def RoomFor (l : LineUnit) (b : FrameBody) : Prop :=
  l.queue.length < 12 ∨ ∃ e ∈ l.queue, sameSort b e.body = true

/-- Two frames of one sort are two BEACONs or two DRILL state frames. -/
theorem sameSort_cases {b a : FrameBody} (h : sameSort b a = true) :
    (∃ c d, b = .beacon c ∧ a = .beacon d) ∨ ∃ c d, b = .drillState c ∧ a = .drillState d := by
  unfold sameSort at h
  split at h
  · exact .inl ⟨_, _, rfl, rfl⟩
  · exact .inr ⟨_, _, rfl, rfl⟩
  · cases h

theorem sameSort_self {b a : FrameBody} (h : sameSort b a = true) : sameSort b b = true := by
  obtain ⟨_, _, rfl, rfl⟩ | ⟨_, _, rfl, rfl⟩ := sameSort_cases h <;> rfl

theorem heldFor_setHold {l : LineUnit} {b a : FrameBody} (h : sameSort b a = true) :
    heldFor (setHold l b (some b)) b = some b := by
  obtain ⟨_, _, rfl, rfl⟩ | ⟨_, _, rfl, rfl⟩ := sameSort_cases h <;> rfl

theorem setHold_queue (l : LineUnit) (b : FrameBody) (x : Option FrameBody) : (setHold l b x).queue = l.queue := by
  cases b <;> rfl

/-- A BEACON or DRILL state frame that is replaced leaves its owner as it is. -/
theorem told_sorted {s : State} {a b : FrameBody} (h : sameSort b a = true) (o : TxOutcome) : told s a o = s := by
  obtain ⟨_, _, rfl, rfl⟩ | ⟨_, _, rfl, rfl⟩ := sameSort_cases h <;> rfl

theorem newEntry_mem_replaceSort {q : List TxEntry} {b : FrameBody} {e : TxEntry} (he : e ∈ q)
    (h : sameSort b e.body = true) : newEntry b ∈ replaceSort q b :=
  List.mem_map.mpr ⟨e, he, if_pos h⟩

/-- A frame whose sort the queue does not hold, with room: it enters the queue, and no owner is told. -/
theorem offer_enters {s : State} {b : FrameBody} (h : takesOffers s = true)
    (hs : s.line.queue.find? (fun e => sameSort b e.body) = none) (hr : s.line.queue.length < 12) :
    offer s b = s.withLine { s.line with queue := queueInsert s.line.queue (newEntry b) } := by
  unfold offer lineOffer offerNew queueMax
  rw [if_pos h, hs]
  dsimp only
  rw [if_pos hr]
  rfl

/-- A frame that takes the place of an unsent one of its sort. -/
theorem offer_replaces {s : State} {b : FrameBody} {e : TxEntry} (h : takesOffers s = true)
    (hs : s.line.queue.find? (fun e => sameSort b e.body) = some e) (hf : e.inFlight = false) :
    offer s b = s.withLine { s.line with queue := replaceSort s.line.queue b } := by
  have same : sameSort b e.body = true := List.find?_some (p := fun e : TxEntry => sameSort b e.body) hs
  unfold offer lineOffer
  rw [if_pos h, hs]
  dsimp only
  rw [hf]
  exact told_sorted same _

theorem lineOffer_holds {l : LineUnit} {b : FrameBody} {e : TxEntry}
    (hs : l.queue.find? (fun e => sameSort b e.body) = some e) (hf : e.inFlight = true) :
    (lineOffer l b).line = setHold l b (some b) := by
  unfold lineOffer
  rw [hs]
  dsimp only
  rw [if_pos hf]

/-- An offer that finds room: the frame is queued or held, and if the queue may hold only one of its sort it holds one
of it. -/
theorem offer_room {s : State} {b : FrameBody} (h : takesOffers s = true) (room : RoomFor s.line b) :
    Queued (offer s b).line b ∧
    (sameSort b b = true → ∃ e ∈ (offer s b).line.queue, sameSort b e.body = true) := by
  cases hs : s.line.queue.find? (fun e => sameSort b e.body) with
  | none =>
    have short : s.line.queue.length < 12 := room.resolve_right fun ⟨e, he, hb⟩ =>
      absurd hb (List.find?_eq_none.mp hs e he)
    rw [offer_enters h hs short]
    have entered : newEntry b ∈ queueInsert s.line.queue (newEntry b) := mem_queueInsert.mpr (.inl rfl)
    exact ⟨.inl (List.mem_map.mpr ⟨_, entered, rfl⟩), fun hb => ⟨_, entered, hb⟩⟩
  | some e =>
    have same : sameSort b e.body = true := List.find?_some (p := fun e : TxEntry => sameSort b e.body) hs
    have he := List.mem_of_find?_eq_some hs
    cases hf : e.inFlight with
    | false =>
      rw [offer_replaces h hs hf]
      have entered := newEntry_mem_replaceSort he same
      exact ⟨.inl (List.mem_map.mpr ⟨_, entered, rfl⟩), fun hb => ⟨_, entered, hb⟩⟩
    | true =>
      have moves := offer_moves h b
      rw [lineOffer_holds hs hf] at moves
      exact ⟨.inr ((moves.holds b).trans (heldFor_setHold same)),
        fun _ => ⟨e, moves.flight e (by rw [setHold_queue]; exact he) hf, same⟩⟩

/-! ## What the Time Unit is told -/

theorem toldSettime_time (t : TimeUnit) (k : Key) (o : TxOutcome) :
    toldSettime t k o = { t with setCopies := (toldSettime t k o).setCopies } := by
  unfold toldSettime
  split
  · rfl
  · split
    · split <;> rfl
    · rfl

theorem told_time (s : State) (b : FrameBody) (o : TxOutcome) :
    (told s b o).time = { s.time with setCopies := (told s b o).time.setCopies } := by
  unfold told
  split
  · exact toldSettime_time _ _ _
  · rfl
  · rw [(toldPlan_ev s _ _ _).same .time (by decide)]
  · rfl

theorem tellAll_time (s : State) (l : List (FrameBody × TxOutcome)) :
    (tellAll s l).time = { s.time with setCopies := (tellAll s l).time.setCopies } := by
  induction l generalizing s with
  | nil => rfl
  | cons x l ih =>
    have := ih (told s x.1 x.2)
    rw [told_time] at this
    exact this

/-- Of the Time Unit an offer changes at most the record of the SETTIME copies. -/
theorem offer_time (s : State) (b : FrameBody) :
    (offer s b).time = { s.time with setCopies := (offer s b).time.setCopies } := by
  unfold offer
  split
  · have := tellAll_time (reportRefusals (s.withLine (lineOffer s.line b).line) (lineOffer s.line b).told)
      (lineOffer s.line b).told
    rw [(reportRefusals_ev _ _).same .time (by decide)] at this
    exact this
  · exact told_time s b _

end Sys2Proof.Proofs
end

section
/-! The timers of the Time Unit, the start mark, a millisecond, and the boundaries (R3, R4, R8, R9, R16, R18, R23). -/

namespace Sys2Proof.Proofs

open Sys2Proof Sys2Proof.Machine Sys2Proof.Laws

theorem exec_whenWorking {i : Instr} {s t : State} (h : exec i s = .next (whenWorking s t)) (ha : Active s) :
    exec i s = .next t :=
  h.trans (congrArg _ (if_pos (by rw [ha.1, ha.2]; rfl)))

/-! ## The lapse of the reference -/

theorem lapseReference_other {s : State} (h : s.time.quality ≠ .referenced) :
    lapseReference s = s.withTime { s.time with prevMark := none } := if_neg h

/-- The reference has lapsed: the previous mark is dropped and the lapse recorded (R23). -/
def lapseRecorded (s : State) : State := report (s.withTime { s.time with prevMark := none }) .referenceLapsed

theorem lapseReference_referenced {s : State} (h : s.time.quality = .referenced) : lapseReference s =
    if s.time.emptyRounds < 5 then setQuality (lapseRecorded s) .synced
    else setQuality (report (lapseRecorded s) .isolated) .isolated := if_pos h

theorem lapseReference_time (s : State) : (lapseReference s).time = { s.time with
    prevMark := none
    quality := if s.time.quality = .referenced then
      (if s.time.emptyRounds < 5 then .synced else .isolated) else s.time.quality } := by
  by_cases h : s.time.quality = .referenced
  · rw [lapseReference_referenced h, if_pos h]
    split
    · rw [setQuality_time]
      rfl
    · rw [setQuality_time]
      rfl
  · rw [lapseReference_other h, if_neg h]
    rfl

theorem report_lapsed_bank {s : State} (h : s.time.quality ≠ .unset) (ht : Taking s) :
    (report s .referenceLapsed).faults.banks[bankIndex .time] = if faultEnabled s.image .referenceLapsed = true then
      corrected s.faults.banks[bankIndex .time] 3 none (some s.time.campus)
    else s.faults.banks[bankIndex .time] := by
  have := report_corrected s .referenceLapsed ht rfl
  rw [if_neg h] at this
  exact this

theorem report_isolated_bank {s : State} (h : s.time.quality ≠ .unset) (ht : Taking s) :
    (report s .isolated).faults.banks[bankIndex .time] = if faultEnabled s.image .isolated = true then
      corrected s.faults.banks[bankIndex .time] 4 none (some s.time.campus)
    else s.faults.banks[bankIndex .time] := by
  have := report_corrected s .isolated ht rfl
  rw [if_neg h] at this
  exact this

theorem lapseRecorded_taking (s : State) : (lapseRecorded s).faults.taking = s.faults.taking := report_taking _ _

theorem lapseReference_bank {s : State} (h : s.time.quality = .referenced) (ht : Taking s) :
    let now := some s.time.campus
    let b := s.faults.banks[bankIndex .time]
    let lapsed := if faultEnabled s.image .referenceLapsed = true then corrected b 3 none now else b
    (lapseReference s).faults.banks[bankIndex .time] = if 5 ≤ s.time.emptyRounds ∧ faultEnabled s.image .isolated = true
      then corrected lapsed 4 none now else lapsed := by
  intro now b lapsed
  have set : s.time.quality ≠ .unset := by
    rw [h]
    nofun
  have recorded : (lapseRecorded s).faults.banks[bankIndex .time] = lapsed :=
    report_lapsed_bank (s := s.withTime { s.time with prevMark := none }) set ht
  rw [lapseReference_referenced h]
  by_cases few : s.time.emptyRounds < 5
  · rw [if_pos few, if_neg (by omega), setQuality_banks, recorded]
  · have isolated := report_isolated_bank (s := lapseRecorded s) set ((lapseRecorded_taking s).trans ht)
    rw [if_neg few, setQuality_banks, isolated, recorded]
    simp only [show 5 ≤ s.time.emptyRounds by omega, true_and]
    rfl

theorem lapseReference_timeChange {s : State} (h : s.time.quality = .referenced) (ht : Taking s) :
    Pending (lapseReference s) .timeChange := by
  rw [lapseReference_referenced h]
  have taking := (lapseRecorded_taking s).trans ht
  split
  · refine setQuality_timeChange (fun e => ?_) taking
    exact absurd (h.symm.trans e) nofun
  · refine setQuality_timeChange (fun e => ?_) ((report_taking _ _).trans taking)
    exact absurd (h.symm.trans e) nofun

theorem lapseReference_changes (s : State) : Changes [.time, .clocks, .faults] s (lapseReference s) := by
  by_cases h : s.time.quality = .referenced
  · have recorded : Changes [.time, .clocks, .faults] s (lapseRecorded s) :=
      changes_trans (changes_mono (withTime_changes s _)) (report_ev _ _).mono.same
    rw [lapseReference_referenced h]
    split
    · exact changes_trans recorded (setQuality_ev _ _).mono.same
    · exact changes_trans recorded (changes_trans (report_ev _ _).mono.same (setQuality_ev _ _).mono.same)
  · rw [lapseReference_other h]
    exact changes_mono (withTime_changes s _)

theorem exec_referenceLapse {s : State} (ha : Active s) (hp : s.time.prevMark.isSome) :
    exec .referenceLapse s = .next (lapseReference s) :=
  (exec_whenWorking rfl ha).trans (congrArg _ (if_pos hp))

/-! ## The beacon timer -/

theorem agreementRound_unset {s : State} (h : s.time.quality = .unset) : agreementRound s = s := if_pos h

theorem roundCounted_keeps (s : State) : (roundCounted s).time.ownSeq = s.time.ownSeq ∧
    (roundCounted s).time.beaconDeadline = s.time.beaconDeadline := by
  rw [roundCounted_time]
  exact ⟨rfl, rfl⟩

theorem applyPending_keeps (t : TimeUnit) (c : Int) : (applyPending t c).ownSeq = t.ownSeq ∧
    (applyPending t c).beaconDeadline = t.beaconDeadline := by
  unfold applyPending
  split <;> exact ⟨rfl, rfl⟩

/-- A round leaves the sequence and the timer of the BEACONs. -/
theorem agreementRound_keeps (s : State) : (agreementRound s).time.ownSeq = s.time.ownSeq ∧
    (agreementRound s).time.beaconDeadline = s.time.beaconDeadline := by
  by_cases h : s.time.quality = .unset
  · rw [agreementRound_unset h]
    exact ⟨rfl, rfl⟩
  · obtain ⟨small, slew, step⟩ := agreementRound_time h
    by_cases k : (roundCorrection s).natAbs ≤ 1
    · rw [small k]
      exact roundCounted_keeps s
    · by_cases l : (roundCorrection s).natAbs ≤ 249
      · rw [slew (by omega) l]
        exact roundCounted_keeps s
      · rw [step (by omega), (applyPending_keeps _ _).1, (applyPending_keeps _ _).2]
        exact roundCounted_keeps s

theorem ageSamples_queue (l : LineUnit) : (ageSamples l).queue = l.queue ∧
    (ageSamples l).listenOnly = l.listenOnly := ⟨rfl, rfl⟩

theorem stepRoster_queue (l : LineUnit) : (stepRoster l).queue = l.queue ∧
    (stepRoster l).listenOnly = l.listenOnly := ⟨rfl, rfl⟩

/-- A round leaves the transmit queue. -/
theorem agreementRound_queue (s : State) : (agreementRound s).line.queue = s.line.queue ∧
    (agreementRound s).line.listenOnly = s.line.listenOnly := by
  by_cases h : s.time.quality = .unset
  · rw [agreementRound_unset h]
    exact ⟨rfl, rfl⟩
  · rw [agreementRound_line h]
    rw [(ageSamples_queue _).1, (ageSamples_queue _).2]
    split
    · exact stepRoster_queue s.line
    · exact ⟨rfl, rfl⟩

theorem hasRoom_of {s t : State} (start : t.start = s.start) (queue : t.line.queue = s.line.queue)
    (listen : t.line.listenOnly = s.line.listenOnly) (h : HasRoom s) : HasRoom t := by
  obtain ⟨takes, room⟩ := h
  refine ⟨?_, by rw [queue]; exact room⟩
  unfold takesOffers working at *
  rw [start, listen]
  exact takes

theorem ofBoolListLE_get (v : Vector Bank 6) (f : Bank → Bool) (i : Fin 6) :
    ((BitVec.ofBoolListLE (v.toList.map f)).setWidth 6).getLsbD i = f v[i] := by
  rw [BitVec.getLsbD_setWidth, BitVec.getLsbD_ofBoolListLE]
  simp

theorem drillSummary_idle {d : DrillUnit} (h : d.state = .idle) : drillSummary d = none := by
  unfold drillSummary
  rw [h]

theorem drillSummary_running {d : DrillUnit} {r : DrillRecord} (h : d.state ≠ .idle) (hr : d.record = some r) :
    drillSummary d = some ⟨r.id, r.start, r.kind, d.state⟩ := by
  unfold drillSummary
  rw [hr]
  cases hd : d.state
  case idle => exact absurd hd h
  all_goals rfl

/-- The BEACON that a round is followed by. -/
theorem offerBeacon_eq (s : State) : offerBeacon s =
    offer (s.withTime { s.time with ownSeq := s.time.ownSeq + 1 }) (.beacon (beaconContent s)) := rfl

theorem exec_beaconTimer {s : State} (hr : Running s) :
    exec .beaconTimer s = .next (offerBeacon (agreementRound (startBeaconTimer s))) :=
  congrArg _ (if_pos (by rw [hr.1, hr.2]; rfl))

/-! ## Milliseconds and boundaries -/

theorem msTick_slewing (t : TimeUnit) (h : t.slewRemainder ≠ 0) (k : t.slewPhase = 99) :
    (msTick t).campus = campusAdd t.campus (if 0 < t.slewRemainder then 2 else 0) ∧
    (msTick t).slewRemainder =
      (if 0 < t.slewRemainder then t.slewRemainder - 1 else t.slewRemainder + 1) ∧ (msTick t).slewPhase = 0 := by
  have advance : msAdvance t = if 0 < t.slewRemainder then 2 else 0 := if_pos ⟨h, k⟩
  have slew : slewAfter t = (if 0 < t.slewRemainder then t.slewRemainder - 1 else t.slewRemainder + 1, 0) := by
    unfold slewAfter
    rw [if_neg h, if_pos k]
  simp [msTick, advance, slew]

theorem msTick_waiting (t : TimeUnit) (h : t.slewRemainder ≠ 0) (k : t.slewPhase ≠ 99) :
    (msTick t).campus = campusAdd t.campus 1 ∧ (msTick t).slewRemainder = t.slewRemainder ∧
    (msTick t).slewPhase = t.slewPhase + 1 := by
  have advance : msAdvance t = 1 := if_neg fun x => k x.2
  have slew : slewAfter t = (t.slewRemainder, t.slewPhase + 1) := by
    unfold slewAfter
    rw [if_neg h, if_neg k]
  simp [msTick, advance, slew]

theorem crosses_iff (period : Nat) (a b : CampusTime) :
    crosses period a b = true ↔ a.day ≠ b.day ∨ a.ms / period ≠ b.ms / period := by
  simp [crosses]

/-- A millisecond emits the boundaries that campus time passes (R18). -/
theorem msTick_boundaries (t : TimeUnit) : let u := msTick t
    u.secondDue = (if t.campus.day ≠ u.campus.day ∨ t.campus.ms / 1000 ≠ u.campus.ms / 1000 then
      some ⟨⟨u.campus.day, u.campus.ms / 1000 * 1000⟩, decide (t.quality ≠ .unset)⟩ else t.secondDue) ∧
    u.minuteDue = (if t.campus.day ≠ u.campus.day ∨ t.campus.ms / 60000 ≠ u.campus.ms / 60000 then
      some ⟨⟨⟨u.campus.day, u.campus.ms / 60000 * 60000⟩, decide (t.quality ≠ .unset)⟩,
        decide (t.campus.day ≠ u.campus.day)⟩ else t.minuteDue) := by
  intro u
  simp only [← crosses_iff]
  exact ⟨rfl, rfl⟩

theorem bellSecond_join {s : State} (h : s.start.opState = .join) (r : Reading) : bellSecond s r = s := by
  unfold bellSecond inRun
  rw [h]
  rfl

theorem secondBoundary_taken (s : State) : let t := bellSecond (clearSecond s) (secondReading s)
    t.time = { s.time with secondDue := none } ∧ (s.start.opState = .join → t.bells = s.bells) ∧
    Changes [.time, .bells, .mark, .arb, .synth, .faults] s t := by
  intro t
  have ev := bellSecond_ev (clearSecond s) (secondReading s)
  refine ⟨ev.same .time (by decide), fun h => ?_, changes_trans (changes_mono (withTime_changes s _)) ev.mono.same⟩
  show (bellSecond (clearSecond s) (secondReading s)).bells = s.bells
  rw [bellSecond_join (s := clearSecond s) h]
  rfl

theorem minuteBoundary_taken (s : State) : let t := clockAll (clearMinute s) (minuteReading s)
    t.time = { s.time with minuteDue := none } ∧
    ClocksNoticed s t (minuteReading s) (codeStatus s (minuteReading s)) (codeStatus s (minuteReading s)) ∧
    Changes [.time, .clocks] s t := by
  intro t
  have ev := clockAll_ev (clearMinute s) (minuteReading s)
  exact ⟨ev.same .time (by decide),
    clocksNoticed_same (clockAll_noticed (clearMinute s) (minuteReading s)) rfl rfl rfl rfl rfl,
    changes_trans (changes_mono (withTime_changes s _)) ev.mono.same⟩

theorem minuteReading_due {s : State} {b : MinuteBoundary} (h : s.time.minuteDue = some b) :
    minuteReading s = b.reading := by
  unfold minuteReading minuteBoundary
  rw [h]
  rfl

/-- The BEACON after a round: what the timer leaves, and what the BEACON carries (R9, R56, R174, R182). -/
theorem beaconTimer_offers (s : State) : let u := agreementRound (startBeaconTimer s)
    let t := offerBeacon u
    t.time.ownSeq = s.time.ownSeq + 1 ∧
    t.time.beaconDeadline = some (s.time.localCount + BitVec.ofNat 32 (s.image.beaconPeriod * 1000)) ∧
    t.time.quality = u.time.quality ∧ t.time.campus = u.time.campus ∧ t.time.stepCounter = u.time.stepCounter ∧
    t.time.lastSet = u.time.lastSet ∧ t.time.lastBeacon = u.time.lastBeacon ∧ u.plan = s.plan ∧ u.drill = s.drill ∧
    (HasRoom s → Queued t.line (.beacon (beaconContent u))) ∧
    Changes [.time, .line, .bells, .mark, .arb, .synth, .ann, .clocks, .faults, .plan, .drill] s t := by
  intro u t
  have ev := (agreementRound_ev (startBeaconTimer s)).same
  obtain ⟨seq, deadline⟩ := agreementRound_keeps (startBeaconTimer s)
  obtain ⟨queue, listen⟩ := agreementRound_queue (startBeaconTimer s)
  have time : t.time = { u.time with
      ownSeq := u.time.ownSeq + 1
      setCopies := t.time.setCopies } := offer_time (u.withTime { u.time with ownSeq := u.time.ownSeq + 1 }) _
  refine ⟨?_, ?_, ?_, ?_, ?_, ?_, ?_, ev .plan (by decide), ev .drill (by decide), fun room => ?_, ?_⟩
  · rw [time]
    exact congrArg (· + 1) seq
  · rw [time]
    exact deadline
  · rw [time]
  · rw [time]
  · rw [time]
  · rw [time]
  · rw [time]
  · have later : HasRoom (u.withTime { u.time with ownSeq := u.time.ownSeq + 1 }) :=
      hasRoom_of (ev .start (by decide)) queue listen room
    exact (offer_room later.1 (.inl later.2)).1
  · exact changes_trans (changes_trans (changes_mono (withTime_changes s _)) (changes_mono ev))
      (changes_trans (changes_mono (withTime_changes u _)) (offer_ev _ _).mono.same)

/-- Settles O14, one timer after another. -/
theorem timersOfTheTimeUnit : Obligations.TimersOfTheTimeUnit := by
  refine ⟨fun s ha hp => ⟨_, exec_referenceLapse ha hp, ?_⟩, fun s hr => ⟨_, exec_beaconTimer hr, rfl, ?_⟩,
    fun s ha hz => ?_, fun s ha => exec_whenWorking rfl ha, fun t => ?_,
    fun s ha => ⟨⟨_, exec_whenWorking rfl ha, secondBoundary_taken s⟩, ⟨_, exec_whenWorking rfl ha, ?_⟩⟩⟩
  · have time := lapseReference_time s
    refine ⟨?_, ?_, ?_, lapseReference_changes s, fun h => ?_,
      fun h ht => ⟨lapseReference_timeChange h ht, lapseReference_bank h ht⟩⟩
    · rw [time]
    · rw [time]
    · rw [time]
    · rw [lapseReference_other h]
      exact withTime_changes s _
  · obtain ⟨seq, deadline, quality, campus, steps, set, beacon, plan, drill, queued, changes⟩ := beaconTimer_offers s
    refine ⟨fun u h => agreementRound_unset h, seq, deadline, fun h => ?_, fun room => ?_, changes⟩
    · rw [campus, agreementRound_unset (s := startBeaconTimer s) h]
      rfl
    · refine ⟨beaconContent (agreementRound (startBeaconTimer s)), ?_, quality.symm, steps.symm, ?_, fun h => ?_,
        fun b h => ?_, ?_, fun i => ⟨ofBoolListLE_get _ _ i, ofBoolListLE_get _ _ i⟩, fun h => ?_, fun r h hr => ?_,
        queued room⟩
      · exact congrArg (· + 1) (agreementRound_keeps (startBeaconTimer s)).1
      · rw [set]
        rfl
      · rw [beacon] at h
        simp [beaconContent, h]
      · rw [beacon] at h
        simp [beaconContent, h]
      · simp [beaconContent, plan]
      · exact (congrArg drillSummary drill).trans (drillSummary_idle h)
      · exact (congrArg drillSummary drill).trans (drillSummary_running h hr)
  · have slewing := msTick_slewing { s.time with slewPhase := 99 } hz rfl
    exact ⟨slewTickState s, (exec_whenWorking rfl ha).trans (congrArg _ (if_neg hz)), slewing.1, slewing.2.1, rfl,
      withTime_changes s _⟩
  · exact ⟨rfl, msTick_no_slew, msTick_waiting t, msTick_slewing t, msTick_boundaries t⟩
  · obtain ⟨time, noticed, changes⟩ := minuteBoundary_taken s
    exact ⟨time, fun b => minuteReading_due, noticed, changes⟩

end Sys2Proof.Proofs
end

section
/-! SET TIME: the new key, the step, and the first copy (R24 to R26). -/

namespace Sys2Proof.Proofs

open Sys2Proof Sys2Proof.Machine Sys2Proof.Laws

/-! ## The new generation -/

theorem mem_knownSetGens (s : State) (g : Generation) : g ∈ knownSetGens s ↔
    (∃ l, s.time.lastSet = some l ∧ l.1.gen = g) ∨ (∃ k, s.time.pendingSet = some k ∧ k.gen = g) ∨
      ∃ (p : StationNo) (k : Key), s.line.roster[p].setKey = some k ∧ k.gen = g := by
  have roster : g ∈ s.line.roster.toList.filterMap (fun e => e.setKey.map (·.gen)) ↔
      ∃ (p : StationNo) (k : Key), s.line.roster[p].setKey = some k ∧ k.gen = g := by
    simp only [List.mem_filterMap, Vector.mem_toList_iff, Vector.mem_iff_getElem, Option.map_eq_some_iff]
    constructor
    · rintro ⟨_, ⟨i, hi, rfl⟩, h⟩
      exact ⟨⟨i, hi⟩, h⟩
    · rintro ⟨p, h⟩
      exact ⟨_, ⟨p, p.isLt, rfl⟩, h⟩
  simp only [knownSetGens, List.mem_append, roster, Option.mem_toList, Option.map_eq_some_iff, or_assoc]

theorem genNewer_asymm {a b : Generation} (h : genNewer a b = true) : genNewer b a = false := by
  by_contra k
  rw [Bool.not_eq_false] at k
  unfold genNewer at h k
  simp only [Bool.and_eq_true, decide_eq_true_eq] at h k
  bv_omega

theorem genNewer_self (a : Generation) : genNewer a a = false := by
  simp [genNewer]

theorem newerGen_newest {g h : Generation} (k : h = g ∨ genNewer g h = true) : newerGen (some g) h = some g := by
  have : genNewer h g = false := by
    obtain rfl | k := k
    · exact genNewer_self h
    · exact genNewer_asymm k
  simp [newerGen, this]

theorem newerGen_mem {o : Option Generation} {g x : Generation} (h : newerGen o g = some x) : x = g ∨ o = some x := by
  unfold newerGen at h
  split at h
  · exact .inl (Option.some.inj h).symm
  · split at h
    · exact .inl (Option.some.inj h).symm
    · exact .inr h

theorem newerGen_takes {o : Option Generation} {g : Generation}
    (ho : ∀ h, o = some h → h = g ∨ genNewer g h = true) : newerGen o g = some g := by
  cases o with
  | none => rfl
  | some h =>
    obtain rfl | k := ho h rfl
    · exact newerGen_newest (.inl rfl)
    · exact if_pos k

/-- A generation newer than every other one of a list is what the pass over the list ends with. -/
theorem foldl_newerGen_newest {g : Generation} (l : List Generation) (o : Option Generation)
    (hl : ∀ h ∈ l, h = g ∨ genNewer g h = true) (ho : ∀ h, o = some h → h = g ∨ genNewer g h = true)
    (hg : g ∈ l ∨ o = some g) : l.foldl newerGen o = some g := by
  induction l generalizing o with
  | nil => exact hg.resolve_left List.not_mem_nil
  | cons x l ih =>
    refine ih (newerGen o x) (fun h hh => hl h (List.mem_cons_of_mem x hh)) (fun h hh => ?_) ?_
    · obtain rfl | hh := newerGen_mem hh
      · exact hl h List.mem_cons_self
      · exact ho h hh
    · obtain hg | rfl := hg
      · obtain rfl | hg := List.mem_cons.mp hg
        · exact .inr (newerGen_takes ho)
        · exact .inl hg
      · exact .inr (newerGen_newest (hl x List.mem_cons_self))

theorem nextGen_nil {l : List Generation} (h : ∀ g, g ∉ l) : nextGen l = 1 := by
  rw [List.eq_nil_iff_forall_not_mem.mpr h]
  rfl

theorem nextGen_newest {l : List Generation} {g : Generation} (hg : g ∈ l)
    (hl : ∀ h ∈ l, h = g ∨ genNewer g h = true) : nextGen l = g + 1 := by
  have newest : newestGen l = some g := foldl_newerGen_newest l none hl nofun (.inl hg)
  unfold nextGen
  rw [newest]

/-! ## The offer of the first copy -/

theorem find_settime (q : List TxEntry) (k : Key) (d : Int) :
    q.find? (fun e => sameSort (.settime k d) e.body) = none :=
  List.find?_eq_none.mpr fun _ _ => Bool.false_ne_true

/-- A frame of class 2 or 3 that is evicted leaves the Time Unit as it is. -/
theorem told_evicted_time {s : State} {b : FrameBody} (h : 1 < bodyClass b) (o : TxOutcome) :
    (told s b o).time = s.time := by
  unfold told
  split
  · exact absurd h (Nat.lt_irrefl 1)
  · exact absurd h (Nat.not_lt_zero 1)
  · exact (toldPlan_ev s _ _ _).same .time (by decide)
  · rfl

theorem toldSettime_refused {t : TimeUnit} {c : SetCopies} (h : t.setCopies = some c) (hc : c.offered < 3) :
    toldSettime t c.key .refused = { t with
      setCopies := some { c with nextAt := some (countAfter t.localCount 2000) } } := by
  unfold toldSettime
  rw [h]
  dsimp only
  rw [if_pos rfl, if_pos ⟨rfl, hc⟩]

theorem toldSettime_discarded {t : TimeUnit} {c : SetCopies} (h : t.setCopies = some c) :
    toldSettime t c.key .discarded = { t with setCopies := none } := by
  unfold toldSettime
  rw [h]
  dsimp only
  rw [if_pos rfl, if_neg fun x => Bool.false_ne_true x.1]

/-- The offer of a SETTIME copy: it waits for its outcome, or it was refused and the next follows in 2 s (R26, R40). -/
theorem offer_settime {s : State} {c : SetCopies} (h : takesOffers s = true) (hs : s.time.setCopies = some c)
    (hc : c.offered < 3) : (offer s (.settime c.key c.delta)).time = s.time ∨
    (offer s (.settime c.key c.delta)).time = { s.time with
      setCopies := some { c with nextAt := some (countAfter s.time.localCount 2000) } } := by
  have find := find_settime s.line.queue c.key c.delta
  by_cases room : s.line.queue.length < 12
  · rw [offer_enters h find room]
    exact .inl rfl
  · unfold offer lineOffer offerNew queueMax
    rw [if_pos h, find]
    dsimp only
    rw [if_neg room]
    split
    · next e he =>
      refine .inl (told_evicted_time ?_ _)
      have := List.find?_some he
      simp only [evictable, Bool.and_eq_true, decide_eq_true_eq] at this
      exact this.2
    · exact .inr (toldSettime_refused hs hc)

theorem offer_settime_discarded {s : State} {c : SetCopies} (h : takesOffers s = false)
    (hs : s.time.setCopies = some c) :
    offer s (.settime c.key c.delta) = s.withTime { s.time with setCopies := none } := by
  unfold offer
  rw [if_neg (by rw [h]; exact Bool.false_ne_true)]
  exact congrArg s.withTime (toldSettime_discarded hs)

/-! ## A set -/

theorem campusAdd_zero {t : CampusTime} (h : t.ms < 86400000) : campusAdd t 0 = t := by
  have self : campusDiff t t = 0 := by simp [campusDiff]
  have := campusAdd_campusDiff t h
  rwa [self] at this

/-- The Time Unit after a step of any size. -/
theorem stepBy_campus (s : State) (c : Int) (h : s.time.campus.ms < 86400000) :
    (stepBy s c).time.campus = campusAdd s.time.campus c ∧
    (stepBy s c).time.stepCounter = if c = 0 then s.time.stepCounter else s.time.stepCounter + 1 := by
  by_cases hc : c = 0
  · rw [hc, stepBy_zero, campusAdd_zero h]
    exact ⟨rfl, (if_pos rfl).symm⟩
  · rw [stepBy_time s hc, if_neg hc]
    exact ⟨rfl, rfl⟩

theorem stepBy_keeps (s : State) (c : Int) : (stepBy s c).time.quality = s.time.quality ∧
    (stepBy s c).time.localCount = s.time.localCount ∧ (stepBy s c).time.pendingSet = s.time.pendingSet ∧
    (stepBy s c).time.lastSet = s.time.lastSet ∧ (stepBy s c).time.setCopies = s.time.setCopies ∧
    (stepBy s c).line.queue = s.line.queue ∧ (stepBy s c).line.listenOnly = s.line.listenOnly := by
  by_cases hc : c = 0
  · rw [hc, stepBy_zero]
    exact ⟨rfl, rfl, rfl, rfl, rfl, rfl, rfl⟩
  · rw [stepBy_time s hc, stepBy_line s hc]
    exact ⟨rfl, rfl, rfl, rfl, rfl, rfl, rfl⟩

/-- A set drops the copies of an older one, and makes its step (R24, R26). -/
def setStepped (s : State) (d : Int) : State := stepBy (s.withTime { s.time with setCopies := none }) d

/-- The first copy of a set (R26). -/
def firstCopy (k : Key) (d : Int) : SetCopies := ⟨k, d, 1, none⟩

/-- The state in which a set offers its first copy. -/
def setKeyed (s : State) (k : Key) (d : Int) : State := (setStepped s d).withTime
  { applyKey (setStepped s d).time k d with setCopies := some (firstCopy k d) }

theorem makeSet_eq (s : State) (t : CampusTime) : let k : Key := ⟨nextGen (knownSetGens s), s.start.station⟩
    let d := campusDiff t s.time.campus
    makeSet s t = (offer (setKeyed s k d) (.settime k d), .done (.set (some (k, d)))) := rfl

theorem setKeyed_queue (s : State) (k : Key) (d : Int) : (setKeyed s k d).line.queue = s.line.queue ∧
    (setKeyed s k d).line.listenOnly = s.line.listenOnly := by
  obtain ⟨_, _, _, _, _, queue, listen⟩ := stepBy_keeps (s.withTime { s.time with setCopies := none }) d
  exact ⟨queue, listen⟩

theorem setKeyed_start (s : State) (k : Key) (d : Int) : (setKeyed s k d).start = s.start :=
  stepBy_changes (s.withTime { s.time with setCopies := none }) d .start (by decide)

theorem setKeyed_takesOffers (s : State) (k : Key) (d : Int) : takesOffers (setKeyed s k d) = takesOffers s := by
  rw [takesOffers, takesOffers, working, working, (setKeyed_queue s k d).2, setKeyed_start]

theorem setKeyed_hasRoom {s : State} (k : Key) (d : Int) (h : HasRoom s) : HasRoom (setKeyed s k d) :=
  hasRoom_of (setKeyed_start s k d) (setKeyed_queue s k d).1 (setKeyed_queue s k d).2 h

/-- What a set has made of the time, before its first copy is offered (R24). -/
theorem setKeyed_time {s : State} (k : Key) {t : CampusTime} (h : s.time.campus.ms < 86400000) (ht : t.ms < 86400000) :
    let d := campusDiff t s.time.campus
    let u := (setKeyed s k d).time
    u.campus = t ∧ u.quality = s.time.quality ∧ u.lastSet = some (k, d) ∧
    u.pendingSet = s.time.pendingSet.filter (fun x => keyNewer x k) ∧
    u.stepCounter = (if d = 0 then s.time.stepCounter else s.time.stepCounter + 1) ∧
    u.localCount = s.time.localCount ∧ u.setCopies = some (firstCopy k d) := by
  intro d u
  obtain ⟨campus, steps⟩ := stepBy_campus (s.withTime { s.time with setCopies := none }) d h
  obtain ⟨quality, count, pending, _⟩ := stepBy_keeps (s.withTime { s.time with setCopies := none }) d
  exact ⟨campus.trans (campusAdd_campusDiff s.time.campus ht), quality, rfl,
    congrArg (Option.filter fun x => keyNewer x k) pending, steps, count, rfl⟩

/-- Of the Time Unit the offer of the first copy touches the record of the copies only. -/
theorem setOffered_copies (s : State) (k : Key) (d : Int) :
    let u := offer (setKeyed s k d) (.settime k d)
    (HasRoom s → Queued u.line (.settime k d) ∧ u.time.setCopies = some ⟨k, d, 1, none⟩) ∧
    (takesOffers s = true → u.time.setCopies = some ⟨k, d, 1, none⟩ ∨
      u.time.setCopies = some ⟨k, d, 1, some (s.time.localCount + 2000#32)⟩) ∧
    (takesOffers s = false → u.time.setCopies = none ∧ u.line.queue = s.line.queue) := by
  intro u
  have copies : (setKeyed s k d).time.setCopies = some (firstCopy k d) := rfl
  have count : (setKeyed s k d).time.localCount = s.time.localCount :=
    (stepBy_keeps (s.withTime { s.time with setCopies := none }) d).2.1
  have takes := setKeyed_takesOffers s k d
  refine ⟨fun h => ?_, fun h => ?_, fun h => ?_⟩
  · have room := setKeyed_hasRoom k d h
    refine ⟨(offer_room room.1 (.inl room.2)).1, ?_⟩
    show (offer (setKeyed s k d) (.settime k d)).time.setCopies = _
    rw [offer_enters room.1 (find_settime _ k d) room.2]
    exact copies
  · obtain e | e := offer_settime (takes.trans h) copies (show 1 < 3 by decide)
    · exact .inl ((congrArg TimeUnit.setCopies e).trans copies)
    · refine .inr ((congrArg TimeUnit.setCopies e).trans ?_)
      rw [count]
      rfl
  · have e := offer_settime_discarded (takes.trans h) copies
    exact ⟨(congrArg (fun v => v.time.setCopies) e),
      (congrArg (fun v => v.line.queue) e).trans (setKeyed_queue s k d).1⟩

/-- The step of a set is recorded, and the offer leaves the TIME bank (R17, R177). -/
theorem setOffered_bank (s : State) (k : Key) (d : Int) : let u := offer (setKeyed s k d) (.settime k d)
    (d ≠ 0 → Taking s → Pending u .timeChange ∧ u.faults.banks[bankIndex .time] =
      stepRecorded s.image s.faults.banks[bankIndex .time] d
        (if s.time.quality = .unset then none else some (campusAdd s.time.campus d))) ∧
    (d = 0 → u.faults.banks[bankIndex .time] = s.faults.banks[bankIndex .time]) := by
  intro u
  have stays : TimeBankStays (setStepped s d) u := (offer_stays (setKeyed s k d) _).after rfl
  refine ⟨fun hd ht => ⟨stays.pending _ ?_, stays.bank.trans ?_⟩, fun hd => stays.bank.trans ?_⟩
  · exact stepBy_timeChange (s.withTime { s.time with setCopies := none }) hd ht
  · exact stepBy_bank (s.withTime { s.time with setCopies := none }) hd ht
  · subst hd
    rfl

theorem exec_setTime {s : State} (ha : Active s) (t : CampusTime) :
    exec (.setTime t) s = .next (answered (setTimeTake t s).1 (setTimeTake t s).2) :=
  congrArg Host.Outcome.next (panelTake_active ha _)

theorem answered_changes (s : State) (r : Response) : Changes [.port] s (answered s r) := by
  intro f hf
  cases f
  case port => exact absurd (by decide) hf
  all_goals rfl

theorem answered_port {s t : State} (h : t.port = s.port) (r : Response) :
    (answered t r).port = (answered s r).port :=
  congrArg (fun p : PanelPort => { p with
    dispatched := none
    answer := some r }) h

theorem time_answered (s : State) (r : Response) : (answered s r).time = s.time := rfl

theorem established_answered {s u : State} {t : CampusTime} {q : Quality} (h : Established s u t q) (r : Response) :
    Established s (answered u r) t q :=
  established_end h ⟨rfl, rfl, rfl⟩ id ⟨rfl, rfl, rfl, rfl⟩

theorem setOffered_changes (s : State) (k : Key) (d : Int) :
    Changes [.time, .line, .plan, .drill, .faults] (setStepped s d) (offer (setKeyed s k d) (.settime k d)) :=
  changes_trans (changes_mono (withTime_changes (setStepped s d) _)) (offer_ev (setKeyed s k d) _).mono.same

theorem setStepped_changes (s : State) (d : Int) :
    Changes [.time, .line, .bells, .mark, .arb, .synth, .ann, .clocks, .faults] s (setStepped s d) :=
  changes_trans (changes_mono (withTime_changes s _)) (changes_mono (stepBy_changes _ d))

/-- Settles O10: the three answers of SET TIME, and for a set its step, its key and its first copy. -/
theorem setTimeSetsTheCampus : Obligations.SetTimeSetsTheCampus := by
  intro s t ha hok
  have day : s.time.campus.ms < 86400000 := hok.1
  rw [exec_setTime ha]
  refine ⟨fun late => ?_, fun ht hq => ⟨_, rfl, ?_⟩, fun ht hq => ?_⟩
  · rw [setTimeTake, if_pos late]
    rfl
  · rw [setTimeTake, if_neg (by omega), if_pos hq]
    have time := establish_time s t .synced
    have port : (establish s t .synced).port = s.port := establish_changes s t .synced .port (by decide)
    dsimp only
    refine ⟨?_, ?_, ?_, ?_, answered_port port _, ?_⟩
    · exact established_answered (establish_established s t (q := .synced) nofun) _
    · rw [time_answered, time]
    · rw [time_answered, time]
    · rw [time_answered, time]
    · exact changes_trans (changes_mono (establish_changes s t .synced)) (changes_mono (answered_changes _ _))
  · rw [setTimeTake, if_neg (by omega), if_neg hq, makeSet_eq]
    intro key delta knows
    have knows_iff (g : Generation) : g ∈ knownSetGens s ↔ knows g := mem_knownSetGens s g
    have hms : t.ms < 86400000 := by omega
    obtain ⟨campus, quality, last, pending, steps, _, _⟩ := setKeyed_time key day hms
    have time := offer_time (setKeyed s key delta) (.settime key delta)
    obtain ⟨room, takes, silent⟩ := setOffered_copies s key delta
    obtain ⟨bank, none⟩ := setOffered_bank s key delta
    have offered := setOffered_changes s key delta
    have changes := changes_trans (changes_mono (setStepped_changes s delta))
      (changes_mono (fs := [.time, .line, .bells, .mark, .arb, .synth, .ann, .clocks, .faults, .plan, .drill]) offered)
    have port : (offer (setKeyed s key delta) (.settime key delta)).port = s.port := changes .port (by decide)
    dsimp only
    refine ⟨fun h => nextGen_nil fun g hg => h g ((knows_iff g).mp hg),
      fun g hg hl => nextGen_newest ((knows_iff g).mpr hg) fun h hh => hl h ((knows_iff h).mp hh),
      _, rfl, ?_, ?_, ?_, ?_, ?_, room, takes, silent, ?_, fun hd hT => ?_, none, ?_, ?_⟩
    · exact (congrArg TimeUnit.campus time).trans campus
    · exact (congrArg TimeUnit.quality time).trans quality
    · exact (congrArg TimeUnit.lastSet time).trans last
    · exact (congrArg TimeUnit.pendingSet time).trans pending
    · exact (congrArg TimeUnit.stepCounter time).trans steps
    · exact changes_trans (changes_mono offered) (changes_mono (answered_changes _ _))
    · have := bank hd hT
      rwa [if_neg hq, campusAdd_campusDiff _ hms] at this
    · exact answered_port port _
    · exact changes_trans (changes_mono changes) (changes_mono (answered_changes _ _))

end Sys2Proof.Proofs
end

section
/-! What the frame of a peer does as far as presence goes, and the fetch evaluation that may follow (R46, R52, R69,
R70). -/

namespace Sys2Proof.Proofs

open Sys2Proof Sys2Proof.Machine Sys2Proof.Laws

/-! ## A fetch -/

/-- From s to t only the staging area, the transmit queue and a bank other than TIME have changed. -/
structure FetchMoves (s t : State) : Prop where
  changes : Changes [.plan, .line, .faults] s t
  active : t.plan.active = s.plan.active
  aside : lineAside t.line = lineAside s.line
  bank : TimeBankStays s t

theorem FetchMoves.refl (s : State) : FetchMoves s s := ⟨fun f _ => by cases f <;> rfl, rfl, rfl, .refl s⟩

theorem FetchMoves.trans {s t u : State} (h : FetchMoves s t) (k : FetchMoves t u) : FetchMoves s u :=
  ⟨changes_trans h.changes k.changes, k.active.trans h.active, k.aside.trans h.aside, h.bank.trans k.bank⟩

theorem bodyClass_le (b : FrameBody) : bodyClass b ≤ 3 := by
  unfold bodyClass
  cases bodyKind b <;> decide

theorem find_planreq (q : List TxEntry) (k : Key) (m : FragmentMask) :
    q.find? (fun e => sameSort (.planreq k m) e.body) = none :=
  List.find?_eq_none.mpr fun _ _ => Bool.false_ne_true

/-- A PLANREQ evicts no frame: it enters the queue, is refused, or is discarded (R40, R42). -/
theorem offer_planreq (s : State) (k : Key) (m : FragmentMask) :
    offer s (.planreq k m) = s.withLine { s.line with queue := queueInsert s.line.queue (newEntry (.planreq k m)) } ∨
    offer s (.planreq k m) = report s (.queueOverflow .planreq) ∨ offer s (.planreq k m) = s := by
  have find := find_planreq s.line.queue k m
  by_cases h : takesOffers s = true
  · by_cases room : s.line.queue.length < 12
    · exact .inl (offer_enters h find room)
    · refine .inr (.inl ?_)
      have last : s.line.queue.reverse.find? (evictable (.planreq k m)) = none := by
        refine List.find?_eq_none.mpr fun e _ he => ?_
        simp only [evictable, Bool.and_eq_true, decide_eq_true_eq] at he
        exact absurd he.2 (Nat.not_lt.mpr (bodyClass_le e.body))
      unfold offer lineOffer offerNew queueMax
      rw [if_pos h, find]
      dsimp only
      rw [if_neg room, last]
      rfl
  · refine .inr (.inr ?_)
    unfold offer
    rw [if_neg h]
    rfl

theorem withLine_changes (s : State) (x : LineUnit) : Changes [.line] s (s.withLine x) := by
  intro f hf
  cases f
  case line => exact absurd (by decide) hf
  all_goals rfl

theorem withPlan_changes (s : State) (x : PlanUnit) : Changes [.plan] s (s.withPlan x) := by
  intro f hf
  cases f
  case plan => exact absurd (by decide) hf
  all_goals rfl

theorem offer_planreq_moves (s : State) (k : Key) (m : FragmentMask) : FetchMoves s (offer s (.planreq k m)) ∧
    (offer s (.planreq k m)).plan = s.plan := by
  obtain e | e | e := offer_planreq s k m <;> rw [e]
  · exact ⟨⟨changes_mono (withLine_changes s _), rfl, rfl, .of_faults (faults_withLine s _)⟩, rfl⟩
  · exact ⟨⟨(report_ev s _).mono.same, rfl, rfl, report_stays s _⟩, rfl⟩
  · exact ⟨.refl s, rfl⟩

theorem setStaging_moves (s : State) (x : Staging) : FetchMoves s (setStaging s x) :=
  ⟨changes_mono (withPlan_changes s _), rfl, rfl, .of_faults (faults_withPlan s _)⟩

theorem startFetch_moves (s : State) (k : Key) (d : Digest) : FetchMoves s (startFetch s k d) :=
  (setStaging_moves s _).trans (offer_planreq_moves _ _ _).1

theorem evaluateFetch_moves (s : State) : FetchMoves s (evaluateFetch s) := by
  unfold evaluateFetch
  split
  · split
    · exact .refl s
    · split
      · exact startFetch_moves s _ _
      · exact .refl s
      · split
        · exact startFetch_moves s _ _
        · exact .refl s
  · exact .refl s

/-! ## A frame is heard -/

/-- From s to t the frame of peer p has been heard. -/
structure Hears (s t : State) (p : StationNo) : Prop where
  changes : Changes [.plan, .line, .faults, .drill] s t
  active : t.plan.active = s.plan.active
  drill : t.drill.state = s.drill.state ∧ t.drill.record.map (·.kind) = s.drill.record.map (·.kind)
  roster : t.line.roster = s.line.roster.set p { s.line.roster[p] with
    lastHeard := s.time.localCount
    present := true }
  bank : TimeBankStays s t

theorem rollComplete_pending {roll : Vector RollEntry 16} {p : StationNo} :
    rollComplete (roll.set p .pending) = false := by
  have mem : RollEntry.pending ∈ (roll.set p .pending).toList :=
    Vector.mem_toList_iff.mpr (Vector.mem_set p.isLt)
  unfold rollComplete
  rw [Bool.and_eq_false_imp]
  intro h
  have := List.all_eq_true.mp h _ mem
  simp at this

/-- A PENDING entry keeps the ALL-CLEAR test from passing (R169, R171). -/
theorem allClearTest_pending (s : State) (r : DrillRecord) (p : StationNo) :
    allClearTest (setRoll s r p .pending) = setRoll s r p .pending := by
  unfold allClearTest
  show (if s.drill.state = .assemble ∧ rollComplete (r.roll.set p .pending) = true then _ else _) = _
  rw [rollComplete_pending, if_neg fun x => Bool.false_ne_true x.2]

theorem setRoll_changes (s : State) (r : DrillRecord) (p : StationNo) (e : RollEntry) :
    Changes [.drill, .faults] s (setRoll s r p e) :=
  changes_trans (changes_mono (fs := [.drill, .faults]) (t := setRecord s _) (gs := [.drill]) fun f hf => by
    cases f
    case drill => exact absurd (by decide) hf
    all_goals rfl) (raise_ev _ _).mono.same

/-- A peer that becomes present leaves the roll, or is PENDING in it (R171). -/
theorem rollPresence_cases (s : State) (p : StationNo) : rollPresence s p true = s ∨
    ∃ r, s.drill.record = some r ∧ rollPresence s p true = setRoll s r p .pending := by
  unfold rollPresence
  cases hr : s.drill.record with
  | none => exact .inl rfl
  | some r =>
    dsimp only
    split
    · exact .inl rfl
    · split
      · exact .inr ⟨r, rfl, allClearTest_pending s r p⟩
      · exact .inr ⟨r, rfl, allClearTest_pending s r p⟩
      · next h => cases h
      · exact .inl rfl

/-- What hearing a peer does besides its roster entry. -/
structure HearMoves (s t : State) : Prop where
  changes : Changes [.plan, .line, .faults, .drill] s t
  active : t.plan.active = s.plan.active
  drill : t.drill.state = s.drill.state ∧ t.drill.record.map (·.kind) = s.drill.record.map (·.kind)
  aside : lineAside t.line = lineAside s.line
  bank : TimeBankStays s t

theorem HearMoves.trans {s t u : State} (h : HearMoves s t) (k : HearMoves t u) : HearMoves s u :=
  ⟨changes_trans h.changes k.changes, k.active.trans h.active, ⟨k.drill.1.trans h.drill.1, k.drill.2.trans h.drill.2⟩,
    k.aside.trans h.aside, h.bank.trans k.bank⟩

theorem FetchMoves.hears {s t : State} (h : FetchMoves s t) : HearMoves s t :=
  have drill : t.drill = s.drill := h.changes .drill (by decide)
  ⟨changes_mono h.changes, h.active, by rw [drill]; exact ⟨rfl, rfl⟩, h.aside, h.bank⟩

theorem HearMoves.roster {s t : State} (h : HearMoves s t) : t.line.roster = s.line.roster := by
  show (lineAside t.line).roster = _
  rw [h.aside]
  rfl

theorem HearMoves.refl (s : State) : HearMoves s s := (FetchMoves.refl s).hears

theorem raise_hears (s : State) (k : NoticeKind) : HearMoves s (raise s k) :=
  ⟨(raise_ev s k).mono.same, rfl, ⟨rfl, rfl⟩, rfl, raise_stays s k⟩

theorem setRoll_hears {s : State} {r : DrillRecord} (hr : s.drill.record = some r) (p : StationNo) (e : RollEntry) :
    HearMoves s (setRoll s r p e) :=
  ⟨changes_mono (setRoll_changes s r p e), rfl, ⟨rfl, by rw [hr]; rfl⟩, rfl,
    (raise_stays (setRecord s _) _).after rfl⟩

theorem rollPresence_hears (s : State) (p : StationNo) : HearMoves s (rollPresence s p true) := by
  obtain e | ⟨r, hr, e⟩ := rollPresence_cases s p <;> rw [e]
  · exact .refl s
  · exact setRoll_hears hr p _

/-- The roster entry of a peer that is heard (R46). -/
def heardEntry (s : State) (p : StationNo) : RosterEntry := { s.line.roster[p] with
  lastHeard := s.time.localCount
  present := true }

/-- The peer's entry is kept, before the roll and the Plan Unit are told. -/
def peerKept (s : State) (p : StationNo) : State := s.withLine (setRoster s.line p (heardEntry s p))

theorem hearPeer_present {s : State} {p : StationNo} (h : s.line.roster[p].present = true) :
    hearPeer s p = peerKept s p := if_pos h

theorem hearPeer_moves (s : State) (p : StationNo) : HearMoves (peerKept s p) (hearPeer s p) := by
  by_cases h : s.line.roster[p].present = true
  · rw [hearPeer_present h]
    exact .refl _
  · have e : hearPeer s p = raise (if s.line.roster[p].plan.isSome then
        planReported (rollPresence (peerKept s p) p true) else rollPresence (peerKept s p) p true) .peerChange :=
      if_neg h
    rw [e]
    refine .trans ?_ (raise_hears _ _)
    split
    · exact (rollPresence_hears _ p).trans (evaluateFetch_moves _).hears
    · exact rollPresence_hears _ p

/-- The line after a valid frame of a peer (R46). -/
def frameReceived (s : State) : State := s.withLine (receivedEnd s.line s.time.localCount)

theorem receivedEnd_keeps (l : LineUnit) (now : Count) : (receivedEnd l now).roster = l.roster ∧
    (receivedEnd l now).queue = l.queue ∧ (receivedEnd l now).listenOnly = l.listenOnly := by
  unfold receivedEnd validFrameEnded activityEnded
  split <;> exact ⟨rfl, rfl, rfl⟩

/-- The deference flag is cleared by a frame of a peer (R46). -/
def deferenceCleared (s : State) : State := s.withLine { s.line with deference := false }

theorem frameHeard_eq (s : State) (p : StationNo) : frameHeard s p =
    deferenceCleared (hearPeer (frameReceived s) p) := rfl

theorem frameHeard_hears (s : State) (p : StationNo) : Hears s (frameHeard s p) p := by
  have moves := hearPeer_moves (frameReceived s) p
  obtain ⟨roster, _, _⟩ := receivedEnd_keeps s.line s.time.localCount
  rw [frameHeard_eq]
  have before : Changes [.line] s (peerKept (frameReceived s) p) :=
    changes_trans (withLine_changes s _) (withLine_changes _ _)
  have faults : TimeBankStays s (peerKept (frameReceived s) p) := .of_faults (before .faults (by decide))
  refine ⟨?_, moves.active, moves.drill, ?_, (faults.trans moves.bank).trans (.of_faults (faults_withLine _ _))⟩
  · exact changes_trans (changes_mono before) (changes_trans moves.changes (changes_mono (withLine_changes _ _)))
  · refine moves.roster.trans ?_
    show (receivedEnd s.line s.time.localCount).roster.set p (heardEntry (frameReceived s) p) = _
    unfold heardEntry frameReceived
    rw [line_withLine, roster]
    rfl

/-- The frame of a present peer touches the line only. -/
theorem frameHeard_present {s : State} {p : StationNo} (h : s.line.roster[p].present = true) :
    Changes [.line] s (frameHeard s p) ∧ (frameHeard s p).line.queue = s.line.queue ∧
    (frameHeard s p).line.listenOnly = s.line.listenOnly := by
  obtain ⟨roster, queue, listen⟩ := receivedEnd_keeps s.line s.time.localCount
  have present : (frameReceived s).line.roster[p].present = true := by
    unfold frameReceived
    rw [line_withLine, roster]
    exact h
  rw [frameHeard_eq, hearPeer_present present]
  exact ⟨changes_trans (withLine_changes s _) (changes_trans (withLine_changes _ _) (withLine_changes _ _)),
    queue, listen⟩

/-- Every entry of the roster but the peer's stays, and the peer's is present. -/
theorem Hears.entry {s t : State} {p : StationNo} (h : Hears s t p) (q : StationNo) : t.line.roster[q] =
    if q = p then { s.line.roster[p] with
      lastHeard := s.time.localCount
      present := true } else s.line.roster[q] := by
  rw [h.roster, vector_set_at]
  simp only [eq_comm]

theorem Hears.time {s t : State} {p : StationNo} (h : Hears s t p) : t.time = s.time := h.changes .time (by decide)

end Sys2Proof.Proofs
end

section
/-! SETTIME copies, and the SETTIME frames of peers (R26 to R28). -/

namespace Sys2Proof.Proofs

open Sys2Proof Sys2Proof.Machine Sys2Proof.Laws

/-! ## Received frames -/

theorem whenListening_active {s : State} (ha : Active s) (t : State) : whenListening s t = t :=
  if_pos (by rw [ha.1, ha.2]; rfl)

/-- A frame of right length of another station, without undefined codes, is heard and handed to its owner (R46). -/
theorem receive_hands {s : State} {kind : FrameKind} {p : StationNo} {payload : List Byte}
    (hl : lengthAllowed kind payload = true) (hp : p ≠ s.start.station) (f : State → State) :
    receive s kind p payload (some f) = dropCapture (f (frameHeard s p)) := by
  unfold receive
  rw [hl, if_neg (by decide), if_neg hp]

theorem exec_settime {s : State} (ha : Active s) {p : StationNo} {payload : List Byte} {k : Key} {d : Int}
    (hp : p ≠ s.start.station) (hl : payload.length = 9) (hx : settimeOf payload = some (k, d)) :
    exec (.settime p payload) s = .next (dropCapture (takeSettime (frameHeard s p) k d)) := by
  refine congrArg Host.Outcome.next ((whenListening_active ha _).trans ?_)
  rw [hx]
  exact receive_hands (by simp [lengthAllowed, hl]) hp _

/-! ## Keys -/

theorem newerThanLast_false (t : TimeUnit) (k : Key) :
    newerThanLast t k = false ↔ ∃ l, t.lastSet = some l ∧ keyNewer k l.1 = false := by
  unfold newerThanLast
  cases t.lastSet <;> simp

/-! ## A SETTIME taken -/

/-- The step that a SETTIME makes: none at an UNSET station (R27). -/
def settimeDelta (t : TimeUnit) (k : Key) (d : Int) : Int :=
  if t.quality = .unset then 0 else settimeStep t k d

/-- The SETTIME's step made and its key applied (R27). -/
def settimeApplied (s : State) (k : Key) (d : Int) : State :=
  (stepBy s (settimeDelta s.time k d)).withTime (applyKey (stepBy s (settimeDelta s.time k d)).time k d)

theorem takeSettime_older {s : State} {k : Key} (h : newerThanLast s.time k = false) (d : Int) :
    takeSettime s k d = s := if_neg (by rw [h]; exact Bool.false_ne_true)

theorem takeSettime_newer {s : State} {k : Key} (h : newerThanLast s.time k = true) (d : Int) : takeSettime s k d =
    if ownLastKey s then raise (report (settimeApplied s k d) (.settimeSuperseded k)) .timeChange
    else settimeApplied s k d := by
  have step : (if s.time.quality = .unset then s else stepBy s (settimeStep s.time k d)) =
      stepBy s (settimeDelta s.time k d) := by
    unfold settimeDelta
    split <;> rfl
  unfold takeSettime settimeApplied
  rw [if_pos h, ← step]

theorem ownLastKey_iff (s : State) :
    ownLastKey s = true ↔ s.time.lastSet.map (·.1.origin) = some s.start.station := by
  unfold ownLastKey
  cases s.time.lastSet <;> simp

theorem takeSettime_same {s : State} {k : Key} (h : newerThanLast s.time k = true) (d : Int) :
    (takeSettime s k d).time = (settimeApplied s k d).time ∧
      (takeSettime s k d).line = (settimeApplied s k d).line := by
  rw [takeSettime_newer h]
  split
  · have same := (((report_ev (settimeApplied s k d) (.settimeSuperseded k)).then (raise_ev _ .timeChange))).same
    exact ⟨same .time (by decide), same .line (by decide)⟩
  · exact ⟨rfl, rfl⟩

theorem settimeApplied_time (s : State) (k : Key) (d : Int) : (settimeApplied s k d).time =
    applyKey (if settimeDelta s.time k d = 0 then s.time else steppedTime s.time (settimeDelta s.time k d)) k d := by
  unfold settimeApplied
  rw [time_withTime]
  by_cases hd : settimeDelta s.time k d = 0
  · rw [if_pos hd, hd, stepBy_zero]
  · rw [if_neg hd, stepBy_time s hd]

theorem settimeApplied_line (s : State) (k : Key) (d : Int) : (settimeApplied s k d).line =
    if settimeDelta s.time k d = 0 then s.line else stepRoster s.line := by
  unfold settimeApplied
  rw [line_withTime]
  by_cases hd : settimeDelta s.time k d = 0
  · rw [if_pos hd, hd, stepBy_zero]
  · rw [if_neg hd, stepBy_line s hd]

theorem settimeApplied_taking (s : State) (k : Key) (d : Int) :
    (settimeApplied s k d).faults.taking = s.faults.taking := stepBy_taking s _

theorem settimeApplied_bank {s : State} (k : Key) (d : Int) (ht : Taking s) :
    let delta := settimeDelta s.time k d
    let b := s.faults.banks[bankIndex .time]
    (settimeApplied s k d).faults.banks[bankIndex .time] = if delta = 0 then b else stepRecorded s.image b delta
      (if s.time.quality = .unset then none else some (campusAdd s.time.campus delta)) := by
  intro delta b
  by_cases hd : delta = 0
  · rw [if_pos hd]
    have : settimeDelta s.time k d = 0 := hd
    unfold settimeApplied
    rw [this]
    rfl
  · rw [if_neg hd]
    exact stepBy_bank s hd ht

theorem report_superseded_bank {s : State} (k : Key) (ht : Taking s) :
    (report s (.settimeSuperseded k)).faults.banks[bankIndex .time] =
      if faultEnabled s.image (.settimeSuperseded k) = true then
        corrected s.faults.banks[bankIndex .time] 5 (some (.setKey k))
          (if s.time.quality = .unset then none else some s.time.campus)
      else s.faults.banks[bankIndex .time] := report_corrected s (.settimeSuperseded k) ht rfl

theorem settimeApplied_reading (s : State) (k : Key) (d : Int) :
    (settimeApplied s k d).time.quality = s.time.quality ∧ (settimeApplied s k d).time.campus =
      if settimeDelta s.time k d = 0 then s.time.campus else campusAdd s.time.campus (settimeDelta s.time k d) := by
  rw [settimeApplied_time]
  by_cases hd : settimeDelta s.time k d = 0
  · simp only [if_pos hd]
    exact ⟨rfl, rfl⟩
  · simp only [if_neg hd]
    exact ⟨rfl, rfl⟩

theorem settimeApplied_image (s : State) (k : Key) (d : Int) : (settimeApplied s k d).image = s.image :=
  stepBy_changes s _ .image (by decide)

/-- The time of a record that a SETTIME makes. -/
def settimeNow (s : State) (k : Key) (d : Int) : Option CampusTime :=
  let delta := settimeDelta s.time k d
  if s.time.quality = .unset then none else some (if delta = 0 then s.time.campus else campusAdd s.time.campus delta)

/-- The TIME bank after the step of a SETTIME. -/
def settimeBank (s : State) (k : Key) (d : Int) : Bank :=
  let delta := settimeDelta s.time k d
  let b := s.faults.banks[bankIndex .time]
  if delta = 0 then b else stepRecorded s.image b delta (settimeNow s k d)

theorem settimeApplied_stepped {s : State} (k : Key) (d : Int) (ht : Taking s) :
    (settimeApplied s k d).faults.banks[bankIndex .time] = settimeBank s k d := by
  rw [settimeApplied_bank k d ht]
  unfold settimeBank settimeNow
  by_cases hd : settimeDelta s.time k d = 0
  · simp only [if_pos hd]
  · simp only [if_neg hd]

/-- A newer SETTIME is recorded as superseding a key made here, after its step (R27, R177, R180). -/
theorem takeSettime_bank {s : State} {k : Key} (h : newerThanLast s.time k = true) (d : Int) (ht : Taking s) :
    (takeSettime s k d).faults.banks[bankIndex .time] =
      if s.time.lastSet.map (·.1.origin) = some s.start.station ∧ faultEnabled s.image (.settimeSuperseded k) = true
      then corrected (settimeBank s k d) 5 (some (.setKey k)) (settimeNow s k d) else settimeBank s k d := by
  rw [takeSettime_newer h]
  simp only [← ownLastKey_iff]
  by_cases own : ownLastKey s = true
  · have recorded := report_superseded_bank (s := settimeApplied s k d) k ((settimeApplied_taking s k d).trans ht)
    obtain ⟨quality, campus⟩ := settimeApplied_reading s k d
    rw [settimeApplied_image, settimeApplied_stepped k d ht, quality, campus] at recorded
    rw [if_pos own, (raise_stays _ _).bank, recorded]
    simp only [own, true_and]
    rfl
  · rw [if_neg own, if_neg fun x => own x.1, settimeApplied_stepped k d ht]

theorem takeSettime_timeChange {s : State} {k : Key} (h : newerThanLast s.time k = true) (d : Int) (ht : Taking s)
    (hc : settimeDelta s.time k d ≠ 0 ∨ s.time.lastSet.map (·.1.origin) = some s.start.station) :
    Pending (takeSettime s k d) .timeChange := by
  rw [takeSettime_newer h]
  split
  · exact (raise_pending _ _ _).mpr (.inl ⟨(report_taking _ _).trans ((settimeApplied_taking s k d).trans ht), rfl⟩)
  · next own =>
    have step := hc.resolve_right fun x => own ((ownLastKey_iff s).mpr x)
    exact stepBy_timeChange s step ht

/-! ## The copies of a set made here -/

theorem nextSetCopy_due {s : State} {c : SetCopies} (hc : s.time.setCopies = some c) (hn : c.nextAt.isSome) :
    nextSetCopy s = offer (s.withTime { s.time with
      setCopies := some { c with
        offered := c.offered + 1
        nextAt := none } }) (.settime c.key c.delta) := by
  unfold nextSetCopy
  rw [hc]
  exact if_pos hn

theorem settimeCopy_offered {s : State} {c : SetCopies} (hc : s.time.setCopies = some c) (hn : c.nextAt.isSome)
    (room : HasRoom s) : (nextSetCopy s).time.setCopies = some { c with
      offered := c.offered + 1
      nextAt := none } ∧ Queued (nextSetCopy s).line (.settime c.key c.delta) ∧
    Changes [.time, .line] s (nextSetCopy s) := by
  rw [nextSetCopy_due hc hn]
  have later : HasRoom (s.withTime { s.time with
      setCopies := some { c with
        offered := c.offered + 1
        nextAt := none } }) := room
  refine ⟨?_, (offer_room later.1 (.inl later.2)).1, ?_⟩
  · rw [offer_enters later.1 (find_settime _ _ _) later.2]
    rfl
  · rw [offer_enters later.1 (find_settime _ _ _) later.2]
    exact changes_trans (changes_mono (withTime_changes s _)) (changes_mono (withLine_changes _ _))

theorem stepRoster_present (l : LineUnit) (p : StationNo) :
    (stepRoster l).roster[p].present = l.roster[p].present := by
  rw [stepRoster_entry]

/-- The Time Unit after a newer SETTIME (R17, R27). -/
theorem takeSettime_time {s : State} {k : Key} (h : newerThanLast s.time k = true) (d : Int) :
    let t := (takeSettime s k d).time
    let delta := settimeDelta s.time k d
    t.quality = s.time.quality ∧ t.lastSet = some (k, d) ∧
    t.pendingSet = s.time.pendingSet.filter (fun x => keyNewer x k) ∧
    t.setCopies = s.time.setCopies.filter (fun c => decide (c.key = k)) ∧
    (delta = 0 → t.campus = s.time.campus ∧ t.stepCounter = s.time.stepCounter ∧
      t.slewRemainder = s.time.slewRemainder ∧ t.slewPhase = s.time.slewPhase) ∧
    (delta ≠ 0 → t.campus = campusAdd s.time.campus delta ∧ t.stepCounter = s.time.stepCounter + 1 ∧
      t.slewRemainder = 0) := by
  intro t delta
  have ht : t = _ := (takeSettime_same h d).1.trans (settimeApplied_time s k d)
  rw [ht]
  by_cases hd : delta = 0
  · rw [if_pos hd]
    exact ⟨rfl, rfl, rfl, rfl, fun _ => ⟨rfl, rfl, rfl, rfl⟩, fun x => absurd hd x⟩
  · rw [if_neg hd]
    exact ⟨rfl, rfl, rfl, rfl, fun x => absurd x hd, fun _ => ⟨rfl, rfl, rfl⟩⟩

theorem takeSettime_line {s : State} {k : Key} (h : newerThanLast s.time k = true) (d : Int) :
    (takeSettime s k d).line = if settimeDelta s.time k d = 0 then s.line else stepRoster s.line :=
  (takeSettime_same h d).2.trans (settimeApplied_line s k d)

theorem takeSettime_quality (s : State) (k : Key) (d : Int) : (takeSettime s k d).time.quality = s.time.quality := by
  by_cases h : newerThanLast s.time k = true
  · exact (takeSettime_time h d).1
  · rw [takeSettime_older (by simpa using h)]

theorem takeSettime_present (s : State) (k : Key) (d : Int) (p : StationNo) :
    (takeSettime s k d).line.roster[p].present = s.line.roster[p].present := by
  by_cases h : newerThanLast s.time k = true
  · rw [takeSettime_line h]
    split
    · rfl
    · exact stepRoster_present _ p
  · rw [takeSettime_older (by simpa using h)]

theorem dropCapture_changes (s : State) : Changes [.time] s (dropCapture s) := withTime_changes s _

/-- Settles O15: the copies offered in turn, and a SETTIME by the age of its key. -/
theorem settimeCopiesAndSettimeFrames : Obligations.SettimeCopiesAndSettimeFrames := by
  refine ⟨newerThanLast_false, fun s c ha hc hn room => ?_, fun s p payload k d ha hp hl hx => ?_⟩
  · exact ⟨_, exec_whenWorking rfl ha, settimeCopy_offered hc hn room⟩
  · intro delta own
    have hdelta : delta = settimeDelta s.time k d := rfl
    rw [hdelta]
    have heard := frameHeard_hears s p
    have quiet := fun hq => frameHeard_present (s := s) (p := p) hq
    refine ⟨_, exec_settime ha hp hl hx, ?_⟩
    generalize frameHeard s p = h at heard quiet
    have time := heard.time
    have image : h.image = s.image := heard.changes .image (by decide)
    have start : h.start = s.start := heard.changes .start (by decide)
    have sameBank : settimeBank h k d = settimeBank s k d := by
      unfold settimeBank settimeNow
      rw [time, image, heard.bank.bank]
    have sameNow : settimeNow h k d = settimeNow s k d := by
      unfold settimeNow
      rw [time]
    refine ⟨(takeSettime_quality h k d).trans (by rw [time]), ?_, fun old => ?_, fun newer => ?_⟩
    · refine (takeSettime_present h k d p).trans ?_
      rw [heard.entry, if_pos rfl]
    · rw [← time] at old
      rw [takeSettime_older old, ← time]
      refine ⟨rfl, fun q => ?_, fun hq =>
        changes_trans (changes_mono (quiet hq).1) (changes_mono (dropCapture_changes h))⟩
      show h.line.roster[q].mark = _ ∧ h.line.roster[q].sample = _
      rw [heard.entry]
      split
      · next e => rw [e]; exact ⟨rfl, rfl⟩
      · exact ⟨rfl, rfl⟩
    · rw [← time] at newer
      obtain ⟨_, last, pending, copies, none, step⟩ := takeSettime_time newer d
      have line := takeSettime_line newer d
      rw [time] at pending copies none step line
      refine ⟨last, pending, copies, none, fun hd => ?_, fun ht => ⟨fun hc => ?_, ?_⟩⟩
      · obtain ⟨campus, steps, slew⟩ := step hd
        refine ⟨campus, steps, slew, fun q => ?_⟩
        show (takeSettime h k d).line.roster[q].mark = _ ∧ (takeSettime h k d).line.roster[q].sample = _
        rw [line, if_neg hd, stepRoster_entry]
        exact ⟨rfl, rfl⟩
      · refine takeSettime_timeChange newer d (heard.bank.taking.trans ht) ?_
        rw [time, start]
        exact hc
      · have bank := takeSettime_bank newer d (heard.bank.taking.trans ht)
        rw [sameBank, sameNow, time, image, start] at bank
        exact bank

end Sys2Proof.Proofs
end

section
/-! The BEACON of a peer: the roster, the offset sample, the set key, establishment, and the fetch that its plan key may
start (R7, R10, R28, R49, R69, R70). -/

namespace Sys2Proof.Proofs

open Sys2Proof Sys2Proof.Machine Sys2Proof.Laws

/-! ## The target of a fetch evaluation -/

theorem keyNewer_asymm {a b : Key} (h : keyNewer a b = true) : keyNewer b a = false := by
  simp only [keyNewer, Bool.or_eq_true, Bool.and_eq_true, decide_eq_true_eq] at h
  simp only [keyNewer, Bool.or_eq_false_iff, Bool.and_eq_false_iff, decide_eq_false_iff_not]
  obtain h | ⟨e, h⟩ := h
  · refine ⟨genNewer_asymm h, .inl fun e => ?_⟩
    rw [e, genNewer_self] at h
    exact Bool.false_ne_true h
  · rw [e]
    exact ⟨genNewer_self _, .inr (lt_asymm h)⟩

theorem keyNewer_self (a : Key) : keyNewer a a = false := by
  simp [keyNewer, genNewer_self]

theorem newerOf_newest {g h : Key} (k : h = g ∨ keyNewer g h = true) : newerOf (some g) h = some g := by
  have : keyNewer h g = false := by
    obtain rfl | k := k
    · exact keyNewer_self h
    · exact keyNewer_asymm k
  simp [newerOf, this]

theorem newerOf_takes {o : Option Key} {g : Key} (ho : ∀ h, o = some h → h = g ∨ keyNewer g h = true) :
    newerOf o g = some g := by
  cases o with
  | none => rfl
  | some h =>
    obtain rfl | k := ho h rfl
    · exact newerOf_newest (.inl rfl)
    · exact if_pos k

theorem newerOf_mem {o : Option Key} {g x : Key} (h : newerOf o g = some x) : x = g ∨ o = some x := by
  unfold newerOf at h
  split at h
  · exact .inl (Option.some.inj h).symm
  · split at h
    · exact .inl (Option.some.inj h).symm
    · exact .inr h

/-- A key newer than every other one of a list is what the pass over the list ends with. -/
theorem foldl_newerOf_newest {g : Key} (l : List Key) (o : Option Key)
    (hl : ∀ h ∈ l, h = g ∨ keyNewer g h = true) (ho : ∀ h, o = some h → h = g ∨ keyNewer g h = true)
    (hg : g ∈ l ∨ o = some g) : l.foldl newerOf o = some g := by
  induction l generalizing o with
  | nil => exact hg.resolve_left List.not_mem_nil
  | cons x l ih =>
    refine ih (newerOf o x) (fun h hh => hl h (List.mem_cons_of_mem x hh)) (fun h hh => ?_) ?_
    · obtain rfl | hh := newerOf_mem hh
      · exact hl h List.mem_cons_self
      · exact ho h hh
    · obtain hg | rfl := hg
      · obtain rfl | hg := List.mem_cons.mp hg
        · exact .inr (newerOf_takes ho)
        · exact .inl hg
      · exact .inr (newerOf_newest (hl x List.mem_cons_self))

/-- The plan that a present peer reports (R69). -/
def reportOf (s : State) (p : StationNo) : Option (Key × Digest) :=
  if s.line.roster[p].present = true ∧ p ≠ s.start.station then s.line.roster[p].plan else none

theorem reportedPlans_eq (s : State) : reportedPlans s = (List.finRange 16).filterMap (reportOf s) := rfl

theorem mem_reportedPlans (s : State) (x : Key × Digest) : x ∈ reportedPlans s ↔ ∃ p, reportOf s p = some x := by
  simp [reportedPlans_eq]

/-- The newest candidate, reported by p as the lowest station, is the target (R69). -/
theorem fetchTarget_of {s : State} {p : StationNo} {k : Key} {d : Digest} (hp : reportOf s p = some (k, d))
    (hk : fetchCandidate s.plan k = true)
    (hq : ∀ q x e, q ≠ p → reportOf s q = some (x, e) →
      (x = k → p < q) ∧ (fetchCandidate s.plan x = true → x = k ∨ keyNewer k x = true)) :
    fetchTarget s = some (k, d) := by
  have target : targetKey s = some k := by
    refine foldl_newerOf_newest _ none (fun h hh => ?_) nofun (.inl ?_)
    · obtain ⟨hm, hc⟩ := List.mem_filter.mp hh
      obtain ⟨⟨x, e⟩, hx, rfl⟩ := List.mem_map.mp hm
      obtain ⟨q, hr⟩ := (mem_reportedPlans s _).mp hx
      by_cases e : q = p
      · rw [e, hp] at hr
        exact .inl (congrArg Prod.fst (Option.some.inj hr)).symm
      · exact (hq q _ _ e hr).2 hc
    · exact List.mem_filter.mpr ⟨List.mem_map.mpr ⟨(k, d), (mem_reportedPlans s _).mpr ⟨p, hp⟩, rfl⟩, hk⟩
  unfold fetchTarget
  rw [target]
  show (reportedPlans s).find? (fun x => decide (x.1 = k)) = some (k, d)
  rw [reportedPlans_eq, List.find?_filterMap]
  have first : (List.finRange 16).find? (fun q => (reportOf s q).any fun x => decide (x.1 = k)) = some p := by
    refine List.find?_eq_some_iff_getElem.mpr ⟨by simp [hp], p.val, by simp, by simp, fun j hj => ?_⟩
    simp only [List.getElem_finRange]
    by_contra found
    obtain ⟨⟨x, e⟩, hr, hx⟩ : ∃ y, reportOf s ⟨j, by omega⟩ = some y ∧ y.1 = k := by
      simpa [Option.any_eq_true] using found
    have other : (⟨j, by omega⟩ : StationNo) ≠ p := fun e => absurd (congrArg Fin.val e) (Nat.ne_of_lt hj)
    exact absurd ((hq _ x e other hr).1 hx) (lt_asymm hj)
  rw [first]
  exact hp

theorem fetchCandidate_iff (p : PlanUnit) (k : Key) : fetchCandidate p k = true ↔
    (∀ a, p.active = some a → keyNewer k a.key = true) ∧ p.unobtainable ≠ some k := by
  unfold fetchCandidate
  cases p.active <;> simp

/-! ## The evaluation -/

theorem evaluateFetch_free {s : State} {k : Key} {d : Digest} (hr : inRun s = true) (ht : fetchTarget s = some (k, d))
    (h : s.plan.staging = .free) : evaluateFetch s = startFetch s k d := by
  unfold evaluateFetch
  rw [if_pos hr, ht]
  dsimp only
  rw [h]

theorem evaluateFetch_fetching {s : State} {k : Key} {d : Digest} {f : Fetch} (hr : inRun s = true)
    (ht : fetchTarget s = some (k, d)) (h : s.plan.staging = .fetching f) :
    evaluateFetch s = if keyNewer k f.target = true then startFetch s k d else s := by
  unfold evaluateFetch
  rw [if_pos hr, ht]
  dsimp only
  rw [h]

theorem evaluateFetch_loading {s : State} {k : Key} {d : Digest} {f : Fragments} {c : Count} (hr : inRun s = true)
    (ht : fetchTarget s = some (k, d)) (h : s.plan.staging = .loading f c) : evaluateFetch s = s := by
  unfold evaluateFetch
  rw [if_pos hr, ht]
  dsimp only
  rw [h]

theorem evaluateFetch_notRun {s : State} (h : inRun s = false) : evaluateFetch s = s :=
  if_neg (by rw [h]; exact Bool.false_ne_true)

/-- A fetch that is started (R70). -/
def newFetch (s : State) (k : Key) (d : Digest) : Fetch :=
  ⟨k, d, none, Vector.replicate 41 none, s.time.localCount + 10000#32, 1⟩

theorem startFetch_eq (s : State) (k : Key) (d : Digest) : startFetch s k d =
    offer (setStaging s (.fetching (newFetch s k d))) (.planreq k (BitVec.allOnes 48)) := rfl

theorem startFetch_fetches (s : State) (k : Key) (d : Digest) :
    (startFetch s k d).plan.staging = .fetching (newFetch s k d) ∧
    (HasRoom s → Queued (startFetch s k d).line (.planreq k (BitVec.allOnes 48))) := by
  rw [startFetch_eq]
  refine ⟨?_, fun room => ?_⟩
  · rw [(offer_planreq_moves _ _ _).2]
    rfl
  · have later : HasRoom (setStaging s (.fetching (newFetch s k d))) := room
    exact (offer_room later.1 (.inl later.2)).1

/-- What of a state a fetch evaluation reads, the plan key of one peer being reported newly. -/
structure Reports (u x : State) (p : StationNo) (k : Key) (d : Digest) : Prop where
  plan : x.plan = u.plan
  count : x.time.localCount = u.time.localCount
  start : x.start = u.start
  here : reportOf x p = some (k, d)
  others : ∀ q, q ≠ p → reportOf x q = reportOf u q
  room : HasRoom u → HasRoom x

theorem Reports.evaluated {u x : State} {p : StationNo} {k : Key} {d : Digest} (h : Reports u x p k d)
    (hr : inRun x = true) : FetchEvaluated u (evaluateFetch x) p k d := by
  intro hk hq
  have target : fetchTarget x = some (k, d) := by
    refine fetchTarget_of h.here (by rw [h.plan]; exact (fetchCandidate_iff _ _).mpr hk) fun q y e hne hy => ?_
    rw [h.others q hne] at hy
    unfold reportOf at hy
    split at hy
    · next there =>
      rw [h.plan, fetchCandidate_iff]
      exact hq q y e hne there.2 there.1 hy
    · cases hy
  have starts : (startFetch x k d).plan.staging = .fetching ⟨k, d, none, Vector.replicate 41 none,
      u.time.localCount + 10000#32, 1⟩ ∧
        (HasRoom u → Queued (startFetch x k d).line (.planreq k (BitVec.allOnes 48))) := by
    obtain ⟨staging, queued⟩ := startFetch_fetches x k d
    rw [newFetch, h.count] at staging
    exact ⟨staging, fun room => queued (h.room room)⟩
  refine ⟨fun free => ?_, fun f hf => ⟨fun newer => ?_, fun older => ?_⟩, fun f c hl => ?_⟩
  · rw [← h.plan] at free
    show (evaluateFetch x).plan.staging = _ ∧ (HasRoom u → Queued (evaluateFetch x).line _)
    rw [evaluateFetch_free hr target free]
    exact starts
  · rw [← h.plan] at hf
    show (evaluateFetch x).plan.staging = _ ∧ (HasRoom u → Queued (evaluateFetch x).line _)
    rw [evaluateFetch_fetching hr target hf, if_pos newer]
    exact starts
  · rw [← h.plan] at hf
    rw [evaluateFetch_fetching hr target hf, if_neg (by rw [older]; exact Bool.false_ne_true), h.plan]
  · rw [← h.plan] at hl
    rw [evaluateFetch_loading hr target hl, h.plan]

/-! ## A BEACON taken -/

theorem takeCarriedKey_keeps (t : TimeUnit) (k : Option Key) : let u := takeCarriedKey t k
    u.campus = t.campus ∧ u.quality = t.quality ∧ u.stepCounter = t.stepCounter ∧ u.localCount = t.localCount := by
  unfold takeCarriedKey
  split
  · exact ⟨rfl, rfl, rfl, rfl⟩
  · split
    · split <;> exact ⟨rfl, rfl, rfl, rfl⟩
    · exact ⟨rfl, rfl, rfl, rfl⟩

theorem takeCarriedKey_newer {t : TimeUnit} {k : Key} (h : newerThanLast t k = true) :
    (t.quality = .unset → (takeCarriedKey t (some k)).lastSet = some (k, 0)) ∧
    (t.quality ≠ .unset → (takeCarriedKey t (some k)).lastSet = t.lastSet ∧
      (takeCarriedKey t (some k)).pendingSet = some (match t.pendingSet with
        | none => k
        | some q => if keyNewer k q then k else q)) := by
  unfold takeCarriedKey
  dsimp only
  rw [if_pos h]
  refine ⟨fun hq => ?_, fun hq => ?_⟩
  · rw [if_pos hq]
    rfl
  · rw [if_neg hq]
    refine ⟨rfl, ?_⟩
    cases t.pendingSet with
    | none => rfl
    | some q => exact (apply_ite some _ _ _).symm

theorem takeCarriedKey_older {t : TimeUnit} {o : Option Key} (h : ∀ k, o = some k → newerThanLast t k = false) :
    takeCarriedKey t o = t := by
  unfold takeCarriedKey
  cases o with
  | none => rfl
  | some k => exact if_neg (by rw [h k rfl]; exact Bool.false_ne_true)

/-- The roster and the set key of a BEACON taken, before it establishes (R28, R49). -/
def beaconKept (s : State) (p : StationNo) (c : BeaconContent) : State :=
  (s.withLine (setRoster s.line p (beaconEntry s.line.roster[p] c s.time.capture))).withTime
    (takeCarriedKey s.time c.setKey)

/-- The time that a BEACON establishes: none where the time is set (R7). -/
def beaconEstablishes (s : State) (p : StationNo) (c : BeaconContent) : Option CampusTime :=
  if s.time.quality = .unset then establishTime s.line.roster[p] c s.time.localCount else none

theorem takeBeacon_eq (s : State) (p : StationNo) (c : BeaconContent) : takeBeacon s p c =
    match beaconEstablishes s p c with
    | none => beaconKept s p c
    | some t => establish (beaconKept s p c) t .synced := by
  unfold takeBeacon beaconEstablishes
  dsimp only
  split
  · rfl
  · rfl

theorem beaconKept_changes (s : State) (p : StationNo) (c : BeaconContent) :
    Changes [.line, .time] s (beaconKept s p c) :=
  changes_trans (changes_mono (withLine_changes s _)) (changes_mono (withTime_changes _ _))

theorem takeBeacon_changes (s : State) (p : StationNo) (c : BeaconContent) :
    Changes [.time, .bells, .mark, .clocks, .faults] (beaconKept s p c) (takeBeacon s p c) := by
  rw [takeBeacon_eq]
  split
  · exact fun f _ => by cases f <;> rfl
  · exact establish_changes _ _ _

theorem takeBeacon_line (s : State) (p : StationNo) (c : BeaconContent) : (takeBeacon s p c).line =
    setRoster s.line p (beaconEntry s.line.roster[p] c s.time.capture) :=
  takeBeacon_changes s p c .line (by decide)

/-- The Time Unit after a BEACON. -/
theorem takeBeacon_time (s : State) (p : StationNo) (c : BeaconContent) : (takeBeacon s p c).time =
    match beaconEstablishes s p c with
    | none => takeCarriedKey s.time c.setKey
    | some t => { takeCarriedKey s.time c.setKey with
      campus := t
      quality := .synced } := by
  rw [takeBeacon_eq]
  split
  · rfl
  · rw [establish_time]
    rfl

/-- The set key of a BEACON is taken whether or not it establishes the time (R28). -/
theorem takeBeacon_keys (s : State) (p : StationNo) (c : BeaconContent) :
    (takeBeacon s p c).time.lastSet = (takeCarriedKey s.time c.setKey).lastSet ∧
    (takeBeacon s p c).time.pendingSet = (takeCarriedKey s.time c.setKey).pendingSet ∧
    (takeBeacon s p c).time.stepCounter = s.time.stepCounter ∧
    (takeBeacon s p c).time.localCount = s.time.localCount := by
  obtain ⟨_, _, steps, count⟩ := takeCarriedKey_keeps s.time c.setKey
  rw [takeBeacon_time]
  split
  · exact ⟨rfl, rfl, steps, count⟩
  · exact ⟨rfl, rfl, steps, count⟩

/-- Where a BEACON establishes nothing, campus time and quality stay. -/
theorem takeBeacon_waits {s : State} {p : StationNo} {c : BeaconContent} (h : beaconEstablishes s p c = none) :
    (takeBeacon s p c).time.campus = s.time.campus ∧ (takeBeacon s p c).time.quality = s.time.quality := by
  obtain ⟨campus, quality, _⟩ := takeCarriedKey_keeps s.time c.setKey
  rw [takeBeacon_time, h]
  exact ⟨campus, quality⟩

theorem followsStored_iff (e : RosterEntry) (c : BeaconContent) :
    followsStored e c = true ↔ e.beaconSeq = some c.prevSeq ∧ e.stepCount = some c.stepCounter := by
  simp [followsStored]

theorem establishTime_none {e : RosterEntry} {c : BeaconContent} (now : Count) (h : c.quality = .unset ∨
    c.prevMark = none ∨ e.mark = none ∨ e.beaconSeq ≠ some c.prevSeq ∨ e.stepCount ≠ some c.stepCounter) :
    establishTime e c now = none := by
  unfold establishTime
  split
  · next k =>
    obtain ⟨hq, hf⟩ := k
    obtain ⟨hs, hc⟩ := (followsStored_iff e c).mp hf
    obtain h | h | h | h | h := h
    · exact absurd h hq
    · rw [h]
    · rw [h]
      cases c.prevMark <;> rfl
    · exact absurd hs h
    · exact absurd hc h
  · rfl

theorem establishTime_some {e : RosterEntry} {c : BeaconContent} {a : CampusTime} {m : MarkReading} (now : Count)
    (hq : c.quality ≠ .unset) (ha : c.prevMark = some a) (hm : e.mark = some m) (hs : e.beaconSeq = some c.prevSeq)
    (hc : e.stepCount = some c.stepCounter) :
    establishTime e c now = some (campusAdd a (countSince now m.count : Nat)) := by
  unfold establishTime
  rw [if_pos ⟨hq, (followsStored_iff e c).mpr ⟨hs, hc⟩⟩, ha, hm]

/-- The offset sample of a peer after its BEACON (R10). -/
theorem beaconEntry_sample (e : RosterEntry) (c : BeaconContent) (m : Option MarkReading) :
    (beaconEntry e c m).sample = match c.prevMark, e.mark.bind (·.campus) with
      | some a, some b =>
        if e.beaconSeq = some c.prevSeq ∧ e.stepCount = some c.stepCounter then some ⟨campusDiff a b, 0⟩ else e.sample
      | _, _ => e.sample := by
  unfold beaconEntry beaconSample
  simp only [followsStored_iff]
  by_cases follows : e.beaconSeq = some c.prevSeq ∧ e.stepCount = some c.stepCounter
  · simp only [if_pos follows]
    cases c.prevMark with
    | none => rfl
    | some a => cases e.mark.bind (·.campus) <;> rfl
  · simp only [if_neg follows]
    cases c.prevMark with
    | none => rfl
    | some a => cases e.mark.bind (·.campus) <;> rfl

/-! ## The BEACON handed over -/

theorem handBeacon_same {s : State} {p : StationNo} {c : BeaconContent}
    (h : c.plan.map (·.1) = s.line.roster[p].plan.map (·.1)) : handBeacon p c s = takeBeacon s p c :=
  if_neg fun k => k h

theorem handBeacon_new {s : State} {p : StationNo} {c : BeaconContent}
    (h : c.plan.map (·.1) ≠ s.line.roster[p].plan.map (·.1)) :
    handBeacon p c s = evaluateFetch (takeBeacon s p c) := if_pos h

theorem handBeacon_moves (s : State) (p : StationNo) (c : BeaconContent) :
    FetchMoves (takeBeacon s p c) (handBeacon p c s) := by
  by_cases h : c.plan.map (·.1) = s.line.roster[p].plan.map (·.1)
  · rw [handBeacon_same h]
    exact .refl _
  · rw [handBeacon_new h]
    exact evaluateFetch_moves _

theorem FetchMoves.roster {s t : State} (h : FetchMoves s t) : t.line.roster = s.line.roster := h.hears.roster

theorem exec_beacon {s : State} (ha : Active s) {p : StationNo} {payload : List Byte} {c : BeaconContent}
    (hp : p ≠ s.start.station) (hl : payload.length = 31) (hx : beaconOf payload = some c) :
    exec (.beacon p payload) s = .next (dropCapture (handBeacon p c (frameHeard s p))) := by
  refine congrArg Host.Outcome.next ((whenListening_active ha _).trans ?_)
  rw [hx]
  exact receive_hands (by simp [lengthAllowed, hl]) hp _

theorem planContent_congr {a b : PlanUnit} (h : a.active = b.active) : planContent a = planContent b := by
  unfold planContent
  rw [h]

theorem effectiveKind_congr {a b : PlanUnit} (h : a.active = b.active) (r : Reading) :
    effectiveKind a r = effectiveKind b r := by
  unfold effectiveKind
  rw [planContent_congr h]

/-- The status of the coded circuits reads the drill's state and kind, the quality and the active plan (R109). -/
theorem codeStatus_reads {s u : State} (r : Reading) (state : u.drill.state = s.drill.state)
    (kind : u.drill.record.map (·.kind) = s.drill.record.map (·.kind)) (quality : u.time.quality = s.time.quality)
    (active : u.plan.active = s.plan.active) : codeStatus u r = codeStatus s r := by
  unfold codeStatus
  rw [state, quality, effectiveKind_congr active]
  cases hu : u.drill.record <;> cases hs : s.drill.record <;> simp only [hu, hs, Option.map_none, Option.map_some,
    reduceCtorEq, Option.some.injEq] at kind
  · rfl
  · cases s.drill.state with
    | idle => rfl
    | evacuate | assemble | allClear => simp only [kind]

/-- A peer that is heard, and the part of its BEACON that is taken first, change nothing of what an establishment
reads. -/
theorem Hears.establishesAs {s h : State} {p : StationNo} (heard : Hears s h p) (c : BeaconContent) :
    EstablishesAs s (beaconKept h p c) := by
  have kept := beaconKept_changes h p c
  have plan : (beaconKept h p c).plan = h.plan := kept .plan (by decide)
  have drill : (beaconKept h p c).drill = h.drill := kept .drill (by decide)
  have content : planContent h.plan = planContent s.plan := planContent_congr heard.active
  have time : (beaconKept h p c).time = takeCarriedKey s.time c.setKey := by
    rw [← heard.time]
    rfl
  obtain ⟨_, _, steps, count⟩ := takeCarriedKey_keeps s.time c.setKey
  have same (f : Field) (hf : f ∉ [Field.line, .time]) (hh : f ∉ [Field.plan, .line, .faults, .drill]) :
      f.Same s (beaconKept h p c) := Field.Same.trans (heard.changes f hh) (kept f hf)
  refine ⟨same .start (by decide) (by decide), same .image (by decide) (by decide), by rw [time]; exact steps,
    by rw [time]; exact count, heard.bank.taking, same .bells (by decide) (by decide),
    same .clocks (by decide) (by decide), same .ann (by decide) (by decide), same .arb (by decide) (by decide), ?_,
    fun q r => ?_⟩
  · funext d
    unfold programQuery
    rw [plan, content]
  · exact codeStatus_reads r ((congrArg DrillUnit.state drill).trans heard.drill.1)
      ((congrArg (fun d : DrillUnit => d.record.map (·.kind)) drill).trans heard.drill.2) rfl
      ((congrArg PlanUnit.active plan).trans heard.active)

/-- Between the state in which a frame is handed over and the one after it is heard only the line differs, and the
queue does not. -/
theorem handOver_heard (s : State) (p : StationNo) : Changes [.line] (handOver s p) (frameHeard s p) ∧
    (HasRoom (handOver s p) → HasRoom (frameHeard s p)) ∧
    ∀ q, q ≠ p → (frameHeard s p).line.roster[q] = (handOver s p).line.roster[q] := by
  cases h : s.line.roster[p].present with
  | true =>
    rw [handOver_present h]
    obtain ⟨changes, queue, listen⟩ := frameHeard_present h
    refine ⟨changes, hasRoom_of (changes .start (by decide)) queue listen, fun q hq => ?_⟩
    rw [(frameHeard_hears s p).entry, if_neg hq]
  | false =>
    rw [handOver_absent h]
    exact ⟨fun f _ => by cases f <;> rfl, id, fun _ _ => rfl⟩

theorem takeBeacon_entry (s : State) (p q : StationNo) (c : BeaconContent) : (takeBeacon s p c).line.roster[q] =
    if p = q then beaconEntry s.line.roster[p] c s.time.capture else s.line.roster[q] := by
  rw [takeBeacon_line]
  exact vector_set_at _ p q _

/-- What the fetch evaluation after a BEACON of p reads. -/
theorem beacon_reports {s : State} {p : StationNo} {c : BeaconContent} {k : Key} {d : Digest} (hp : p ≠ s.start.station)
    (hc : c.plan = some (k, d)) : Reports (handOver s p) (takeBeacon (frameHeard s p) p c) p k d := by
  obtain ⟨changes, room, others⟩ := handOver_heard s p
  have heard := frameHeard_hears s p
  have start : (frameHeard s p).start = s.start := heard.changes .start (by decide)
  have present : (frameHeard s p).line.roster[p].present = true := by rw [heard.entry, if_pos rfl]
  generalize frameHeard s p = h at *
  have all := changes_trans (changes_mono (beaconKept_changes h p c)) (changes_mono
    (fs := [.line, .time, .bells, .mark, .clocks, .faults]) (takeBeacon_changes h p c))
  have taken : (takeBeacon h p c).start = h.start := all .start (by decide)
  refine ⟨(all .plan (by decide)).trans (changes .plan (by decide)), (takeBeacon_keys h p c).2.2.2.trans
    (congrArg TimeUnit.localCount (changes .time (by decide))), taken.trans (changes .start (by decide)), ?_,
    fun q hq => ?_, fun r => hasRoom_of taken ?_ ?_ (room r)⟩
  · unfold reportOf
    rw [takeBeacon_entry, if_pos rfl, taken, start]
    rw [if_pos ⟨present, hp⟩]
    exact hc
  · unfold reportOf
    rw [takeBeacon_entry, if_neg (Ne.symm hq), taken, changes .start (by decide), others q hq]
  · rw [takeBeacon_line]
    rfl
  · rw [takeBeacon_line]
    rfl

/-- The entry of a peer after its BEACON (R10, R46, R49). -/
theorem beacon_entry (s : State) (p : StationNo) (c : BeaconContent) :
    (handBeacon p c (frameHeard s p)).line.roster[p] = beaconEntry { s.line.roster[p] with
      lastHeard := s.time.localCount
      present := true } c s.time.capture := by
  have heard := frameHeard_hears s p
  have entry := heard.entry p
  rw [if_pos rfl] at entry
  rw [(handBeacon_moves _ p c).roster, takeBeacon_entry, if_pos rfl, entry, heard.time]

/-- The time that the BEACON establishes, from the entry that the roster held (R7). -/
theorem beaconEstablishes_heard (s : State) (p : StationNo) (c : BeaconContent) :
    beaconEstablishes (frameHeard s p) p c =
      if s.time.quality = .unset then establishTime s.line.roster[p] c s.time.localCount else none := by
  have heard := frameHeard_hears s p
  have entry := heard.entry p
  rw [if_pos rfl] at entry
  unfold beaconEstablishes
  rw [heard.time, entry]
  rfl

theorem handBeacon_time (s : State) (p : StationNo) (c : BeaconContent) :
    (handBeacon p c s).time = (takeBeacon s p c).time := (handBeacon_moves s p c).changes .time (by decide)

/-- A BEACON from which an UNSET station establishes its time (R7, R22). -/
theorem beacon_established {s : State} {p : StationNo} {c : BeaconContent} {t : CampusTime}
    (h : beaconEstablishes (frameHeard s p) p c = some t) :
    Established s (dropCapture (handBeacon p c (frameHeard s p))) t .synced := by
  have moves := handBeacon_moves (frameHeard s p) p c
  have taken : takeBeacon (frameHeard s p) p c = establish (beaconKept (frameHeard s p) p c) t .synced := by
    rw [takeBeacon_eq, h]
  rw [taken] at moves
  have established := ((frameHeard_hears s p).establishesAs c).established
    (establish_established (beaconKept (frameHeard s p) p c) t (q := .synced) nofun)
  generalize handBeacon p c (frameHeard s p) = e at moves
  generalize establish (beaconKept (frameHeard s p) p c) t .synced = b at moves established
  have time : e.time = b.time := moves.changes .time (by decide)
  refine established_end established ?_ (moves.bank.pending _) ⟨moves.changes .bells (by decide),
    moves.changes .clocks (by decide), moves.changes .ann (by decide), moves.changes .arb (by decide)⟩
  unfold dropCapture
  rw [time_withTime, time]
  exact ⟨rfl, rfl, rfl⟩

theorem fetchEvaluated_dropCapture {u t : State} {p : StationNo} {k : Key} {d : Digest}
    (h : FetchEvaluated u t p k d) : FetchEvaluated u (dropCapture t) p k d := h

/-- A BEACON leaves the plan before its key is reported. -/
theorem beacon_plan (s : State) (p : StationNo) (c : BeaconContent) :
    (takeBeacon (frameHeard s p) p c).plan = (handOver s p).plan ∧
    (takeBeacon (frameHeard s p) p c).start = s.start := by
  have all := changes_trans (changes_mono (beaconKept_changes (frameHeard s p) p c)) (changes_mono
    (fs := [.line, .time, .bells, .mark, .clocks, .faults]) (takeBeacon_changes (frameHeard s p) p c))
  exact ⟨(all .plan (by decide)).trans ((handOver_heard s p).1 .plan (by decide)),
    (all .start (by decide)).trans ((frameHeard_hears s p).changes .start (by decide))⟩

/-- Settles O21: the roster entry, the set key, establishment by R7, and the plan key reported. -/
theorem aBeaconGivesASampleOrTheTime : Obligations.ABeaconGivesASampleOrTheTime := by
  intro s p payload c ha hp hl hx
  have heard := frameHeard_hears s p
  have entry : (dropCapture (handBeacon p c (frameHeard s p))).line.roster[p] = _ := beacon_entry s p c
  have establishes := beaconEstablishes_heard s p c
  have keys := takeBeacon_keys (frameHeard s p) p c
  have time : (dropCapture (handBeacon p c (frameHeard s p))).time =
      { (takeBeacon (frameHeard s p) p c).time with capture := none } :=
    congrArg (fun t : TimeUnit => { t with capture := none }) (handBeacon_time _ p c)
  rw [heard.time] at keys
  obtain ⟨last, pending, steps, _⟩ := keys
  have before : (frameHeard s p).line.roster[p].plan.map (·.1) = s.line.roster[p].plan.map (·.1) := by
    rw [heard.entry, if_pos rfl]
  refine ⟨_, exec_beacon ha hp hl hx, ?_⟩
  rw [entry]
  refine ⟨rfl, rfl, rfl, rfl, rfl, rfl, rfl, rfl, beaconEntry_sample _ c _, fun hq => ?_,
    fun a m hq hcq hca hm hs hc => ?_,
    fun hq hn => ?_, fun k hk hnew => ?_, fun hold => ?_, fun hsame => ?_, fun k d hrun hk hne => ?_⟩
  · rw [if_neg hq] at establishes
    obtain ⟨campus, quality⟩ := takeBeacon_waits establishes
    rw [heard.time] at campus quality
    rw [time]
    exact ⟨quality, campus⟩
  · rw [if_pos hq, establishTime_some _ hcq hca hm hs hc] at establishes
    have established := beacon_established establishes
    exact ⟨established.2.1, established.2.2.1, established.1, established⟩
  · rw [if_pos hq, establishTime_none _ hn] at establishes
    obtain ⟨campus, quality⟩ := takeBeacon_waits establishes
    rw [heard.time] at campus quality
    rw [time]
    exact ⟨quality.trans hq, campus, steps⟩
  · obtain ⟨unset, set⟩ := takeCarriedKey_newer hnew
    rw [time]
    rw [hk] at last pending
    exact ⟨fun hq => last.trans (unset hq), fun hq => ⟨last.trans (set hq).1, pending.trans (set hq).2⟩⟩
  · rw [takeCarriedKey_older hold] at last pending
    rw [time]
    exact ⟨last, pending⟩
  · show (handBeacon p c (frameHeard s p)).plan = _
    obtain ⟨plan, start⟩ := beacon_plan s p c
    by_cases same : c.plan.map (·.1) = s.line.roster[p].plan.map (·.1)
    · rw [handBeacon_same (same.trans before.symm), plan]
    · have join := hsame.resolve_right same
      rw [handBeacon_new (before ▸ same), evaluateFetch_notRun (by rw [inRun, start, join]; rfl), plan]
  · have run : inRun (takeBeacon (frameHeard s p) p c) = true := by
      rw [inRun, (beacon_plan s p c).2, hrun]
      rfl
    have new : handBeacon p c (frameHeard s p) = evaluateFetch (takeBeacon (frameHeard s p) p c) :=
      handBeacon_new (by rw [hk, before]; exact hne.symm)
    rw [new]
    exact fetchEvaluated_dropCapture ((beacon_reports hp hk).evaluated run)

end Sys2Proof.Proofs
end

section
/-! A bit time: the samples of the inputs, the parts that change, and the rows that queue (R3, R19, R29, R88, R148,
R151, R198). -/

namespace Sys2Proof.Proofs

open Sys2Proof Sys2Proof.Machine Sys2Proof.Laws

/-! ## The parts of a bit time -/

/-- A bit time before its rows queue. -/
def tickPassed (s : State) : State := passCodes (passSample (passQuiet (passMillisecond s)))

theorem tick_alive {s : State} (h : alive s = true) :
    tick s = (tickPassed s).withPending ((tickPassed s).pending ++ due (tickPassed s)) := if_pos h

theorem tick_dead {s : State} (h : alive s = false) : tick s = s := if_neg (by rw [h]; exact Bool.false_ne_true)

/-- The rows that are due do not depend on the queue. -/
theorem due_withPending (s : State) (l : List Instr) : due (s.withPending l) = due s := rfl

/-- The start unit after a bit time, but for its phases and the FA levels seen. -/
structure StartPasses (u v : StartUnit) : Prop where
  opState : v.opState = u.opState
  straps : v.station = u.station
  joinDeadline : v.joinDeadline = u.joinDeadline

theorem faSeen_passes (u : StartUnit) (b : Bool) (fa : Input) : StartPasses u (faSeen u b fa) ∧
    (faSeen u b fa).inputPhase = u.inputPhase := by
  unfold faSeen
  split <;> exact ⟨⟨rfl, rfl, rfl⟩, rfl⟩

theorem passSample_start (s : State) : StartPasses s.start (passSample s).start ∧
    (passSample s).start.inputPhase = s.start.inputPhase := by
  unfold passSample
  dsimp only
  generalize s.start.samplePhase + 32 - 125 = n
  split <;> exact ⟨⟨rfl, rfl, rfl⟩, rfl⟩

/-- The millisecond has passed in this bit time. -/
abbrev MsPassed (s : State) : Prop := 1000 ≤ s.start.usPhase + 16

/-- The station with the phase of its millisecond moved on. -/
def phased (s : State) (n : Nat) : State := s.withStart { s.start with usPhase := n }

theorem passMillisecond_whole {s : State} (h : MsPassed s) : ∃ n, passMillisecond s = millisecond (phased s n) := by
  refine ⟨s.start.usPhase + 16 - 1000, ?_⟩
  unfold passMillisecond
  dsimp only
  rw [if_pos h, phased]

theorem passMillisecond_part {s : State} (h : ¬ MsPassed s) : ∃ n, passMillisecond s = phased s n := by
  refine ⟨s.start.usPhase + 16, ?_⟩
  unfold passMillisecond
  dsimp only
  rw [if_neg h, phased]

theorem millisecond_start (s : State) : StartPasses s.start (millisecond s).start ∧
    (millisecond s).start.inputPhase = if s.start.inputPhase < 9 then s.start.inputPhase + 1 else 0 := by
  obtain ⟨⟨opState, station, join⟩, phase⟩ := faSeen_passes (inputsPassed s.start) (beforeImage s)
    (samplePins s.start.opState (slowSampleDue s.start) s.pins).fa
  refine ⟨⟨opState, station, join⟩, phase.trans ?_⟩
  unfold inputsPassed slowSampleDue slowSampleMs
  simp only [decide_eq_true_eq]
  split
  · rw [if_neg (by omega)]
  · rw [if_pos (by omega)]

theorem millisecond_pins (s : State) :
    (millisecond s).pins = samplePins s.start.opState (slowSampleDue s.start) s.pins := rfl

theorem millisecond_pending (s : State) :
    (millisecond s).pending = s.pending ++ pinEvents s.image (!beforeImage s) s.pins (millisecond s).pins := rfl

theorem passMillisecond_start (s : State) : StartPasses s.start (passMillisecond s).start ∧
    (passMillisecond s).start.inputPhase = if MsPassed s then
      (if s.start.inputPhase < 9 then s.start.inputPhase + 1 else 0) else s.start.inputPhase := by
  by_cases h : MsPassed s
  · obtain ⟨n, e⟩ := passMillisecond_whole h
    obtain ⟨⟨opState, station, join⟩, phase⟩ := millisecond_start (phased s n)
    rw [e, if_pos h]
    exact ⟨⟨opState, station, join⟩, phase⟩
  · obtain ⟨n, e⟩ := passMillisecond_part h
    rw [e, if_neg h]
    exact ⟨⟨rfl, rfl, rfl⟩, rfl⟩

theorem passMillisecond_pins (s : State) : (passMillisecond s).pins =
    if MsPassed s then samplePins s.start.opState (slowSampleDue s.start) s.pins else s.pins := by
  by_cases h : MsPassed s
  · obtain ⟨n, e⟩ := passMillisecond_whole h
    rw [e, if_pos h]
    rfl
  · obtain ⟨n, e⟩ := passMillisecond_part h
    rw [e, if_neg h]
    rfl

theorem became_same (level first : Bool) (i : Input) : became level first i i = false := by
  unfold became
  cases i.valid with
  | none => rfl
  | some v => cases v <;> cases level <;> cases first <;> rfl

theorem pinEvents_same (img : Image) (b : Bool) (p : Pins) : pinEvents img b p p = [] := by
  simp [pinEvents, became_same, eventIf]

theorem passMillisecond_pending (s : State) : (passMillisecond s).pending =
    s.pending ++ pinEvents s.image (!beforeImage s) s.pins (passMillisecond s).pins := by
  by_cases h : MsPassed s
  · obtain ⟨n, e⟩ := passMillisecond_whole h
    rw [e]
    rfl
  · obtain ⟨n, e⟩ := passMillisecond_part h
    rw [e]
    show s.pending = s.pending ++ pinEvents s.image (!beforeImage s) s.pins s.pins
    rw [pinEvents_same, List.append_nil]

/-! ## A whole bit time -/

/-- What the parts of a bit time after the millisecond leave as it is. -/
theorem tickPassed_after (s : State) : Changes [.line, .synth, .start, .clocks] (passMillisecond s) (tickPassed s) ∧
    StartPasses (passMillisecond s).start (tickPassed s).start ∧
    (tickPassed s).start.inputPhase = (passMillisecond s).start.inputPhase := by
  have quiet := (passQuiet_ev (passMillisecond s)).same
  have codes := (passCodes_ev (passSample (passQuiet (passMillisecond s)))).same
  obtain ⟨passes, phase⟩ := passSample_start (passQuiet (passMillisecond s))
  have start : (passQuiet (passMillisecond s)).start = (passMillisecond s).start := quiet .start (by decide)
  rw [start] at passes phase
  exact ⟨changes_trans (changes_mono quiet) (changes_trans (passSample_ev _).mono.same (changes_mono codes)),
    passes, phase⟩

/-- The queue after a bit time that found it empty: the events of the inputs, then the rows that are due. -/
theorem tick_pending {s : State} (ha : alive s = true) (h : s.pending = []) :
    (tick s).pending = pinEvents s.image (!beforeImage s) s.pins (tick s).pins ++ due (tick s) := by
  obtain ⟨after, _, _⟩ := tickPassed_after s
  have pins : (tickPassed s).pins = (passMillisecond s).pins := after .pins (by decide)
  have pending : (tickPassed s).pending = (passMillisecond s).pending := after .pending (by decide)
  rw [tick_alive ha, due_withPending, pins_withPending, pending_withPending, pins, pending, passMillisecond_pending, h,
    List.nil_append]

theorem tick_start {s : State} (ha : alive s = true) : StartPasses s.start (tick s).start ∧
    (tick s).start.inputPhase = if MsPassed s then
      (if s.start.inputPhase < 9 then s.start.inputPhase + 1 else 0) else s.start.inputPhase := by
  obtain ⟨_, after, phase⟩ := tickPassed_after s
  obtain ⟨before, value⟩ := passMillisecond_start s
  rw [tick_alive ha, start_withPending]
  exact ⟨⟨after.opState.trans before.opState, after.straps.trans before.straps,
    after.joinDeadline.trans before.joinDeadline⟩, phase.trans value⟩

theorem tick_pins {s : State} (ha : alive s = true) : (tick s).pins =
    if MsPassed s then samplePins s.start.opState (slowSampleDue s.start) s.pins else s.pins := by
  rw [tick_alive ha, pins_withPending, (tickPassed_after s).1 .pins (by decide), passMillisecond_pins]

theorem tick_clocks {s : State} (ha : alive s = true) (c : ClockNo) : (tick s).clocks[c] = { s.clocks[c] with
    coded := codePassed s.clocks[c].coded } := by
  have before : (passSample (passQuiet (passMillisecond s))).clocks = s.clocks :=
    ((((passMillisecond_ev s).mono (fs := [.time, .pins, .start, .pending, .line, .synth])).then
      (passQuiet_ev _)).then (passSample_ev _)).same .clocks (by decide)
  rw [tick_alive ha, clocks_withPending]
  unfold tickPassed
  rw [passCodes_eq, before]
  simp only [clocks_withClocks, Fin.getElem_fin, Vector.getElem_ofFn]

end Sys2Proof.Proofs
end

section
/-! The rows that queue at the end of a bit time, block by block (log 2). -/

namespace Sys2Proof.Proofs

open Sys2Proof Sys2Proof.Machine Sys2Proof.Laws

theorem mem_eventIf {b : Bool} {i j : Instr} : i ∈ eventIf b j ↔ i = j ∧ b = true := by
  cases b <;> simp [eventIf]

/-- A count's time has come: it lies less than half the range of the local count back (R3). -/
def Reached (s : State) (c : Count) : Prop := (s.time.localCount - c).toNat < 2147483648

/-- A deadline is set, and its time has come. -/
def DueAt (s : State) (d : Option Count) : Prop := ∃ c, d = some c ∧ Reached s c

theorem countReached_iff (s : State) (c : Count) : countReached s.time.localCount c = true ↔ Reached s c :=
  decide_eq_true_iff

theorem deadlineReached_iff (s : State) (d : Option Count) :
    deadlineReached s.time.localCount d = true ↔ DueAt s d := by
  unfold deadlineReached DueAt
  cases d <;> simp [countReached_iff]

/-! ## The rows of the inputs -/

theorem became_rises (a b : Input) : became true false a b = true ↔ a.valid = some false ∧ b.valid = some true := by
  simp [became, and_comm]

theorem became_falls (a b : Input) : became false false a b = true ↔ a.valid = some true ∧ b.valid = some false := by
  simp [became, and_comm]

theorem became_first (level : Bool) (a b : Input) :
    became level true a b = true ↔ a.valid ≠ some level ∧ b.valid = some level := by
  unfold became
  cases a.valid with
  | none => simp
  | some v => cases v <;> cases level <;> simp

theorem became_back (level : Bool) (a b : Input) :
    became (!level) false a b = true ↔ a.valid = some level ∧ b.valid = some (!level) := by
  simp [became, and_comm]

theorem mem_pinEvents (img : Image) (judged : Bool) (old new : Pins) (i : Instr) : i ∈ pinEvents img judged old new ↔
    (i = .powerFailWarning ∧ old.pfw.valid ≠ some true ∧ new.pfw.valid = some true) ∨
    (i = .pfwEnd ∧ old.pfw.valid = some true ∧ new.pfw.valid = some false) ∨
    (i = .faActivation ∧ judged = true ∧ old.fa.valid ≠ some (!img.faActiveOpen) ∧
      new.fa.valid = some (!img.faActiveOpen)) ∨
    (i = .faRelease ∧ judged = true ∧ old.fa.valid = some (!img.faActiveOpen) ∧
      new.fa.valid = some (!!img.faActiveOpen)) ∨
    (i = .dkActivation ∧ old.dk.valid = some false ∧ new.dk.valid = some true) ∨
    (i = .bellButtonPress ∧ old.bb.valid = some false ∧ new.bb.valid = some true) ∨
    (i = .minuteMark ∧ old.ref.valid = some false ∧ new.ref.valid = some true) := by
  simp only [pinEvents, List.mem_append, mem_eventIf, Bool.and_eq_true, became_first, became_back, became_rises,
    became_falls, faActiveLevel, or_assoc]

/-! ## The rows of the blocks -/

theorem countAfter_lapse (c : Count) : countAfter c lapseMs = c + 125000#32 := by
  unfold countAfter lapseMs
  with_reducible rfl

theorem mem_timeDue (s : State) (i : Instr) : i ∈ timeDue s ↔
    (i = .secondBoundary ∧ s.time.secondDue.isSome = true) ∨
    (i = .minuteBoundary ∧ s.time.minuteDue.isSome = true) ∨
    (i = .referenceLapse ∧ DueAt s (s.time.prevMark.map (· + 125000#32))) ∨
    (i = .beaconTimer ∧ s.start.opState = .run ∧ DueAt s s.time.beaconDeadline) ∨
    (i = .settimeCopy ∧ DueAt s (s.time.setCopies.bind (·.nextAt))) := by
  have lapse : (s.time.prevMark.any fun c => countReached s.time.localCount (countAfter c lapseMs)) = true ↔
      DueAt s (s.time.prevMark.map (· + 125000#32)) := by
    rw [← deadlineReached_iff, deadlineReached, Option.any_map]
    simp only [countAfter_lapse]
  simp only [timeDue, List.mem_append, mem_eventIf, Bool.and_eq_true, deadlineReached_iff, lapse, inRun,
    decide_eq_true_eq, or_assoc]

theorem contentionDue_iff (s : State) : contentionDue s = true ↔ s.start.opState = .run ∧ s.line.listenOnly = false ∧
    s.line.activity = .idle ∧
    ∃ e rest, s.line.queue = e :: rest ∧ contentionAt s.line s.start.station e.body ≤ s.line.quiet := by
  unfold contentionDue mayContend inRun
  cases s.line.queue <;> simp [and_assoc]

theorem mem_lineDue (s : State) (i : Instr) : i ∈ lineDue s ↔
    (i = .lineBecomesIdle ∧ s.line.activity = .busy ∧ s.line.dominant = false ∧ 10 ≤ s.line.quiet) ∨
    (i = .contentionInstant ∧ s.start.opState = .run ∧ s.line.listenOnly = false ∧ s.line.activity = .idle ∧
      ∃ e rest, s.line.queue = e :: rest ∧ contentionAt s.line s.start.station e.body ≤ s.line.quiet) ∨
    (i = .deferenceLapse ∧ s.line.deference = true ∧ 300 ≤ s.line.quiet) ∨
    (i = .stuckWatch ∧ s.line.activity ≠ .idle ∧ s.line.stuckRecorded = false ∧
      Reached s (s.line.stuckFrom + 50#32)) ∨
    (∃ p, i = .absenceDeadline p ∧ p ≠ s.start.station ∧ s.line.roster[p].present = true ∧
      Reached s (s.line.roster[p].lastHeard + BitVec.ofNat 32 (5 * (s.image.beaconPeriod * 1000)))) ∨
    (i = .joinTimer ∧ s.start.opState = .join ∧ DueAt s s.start.joinDeadline) := by
  have absent : i ∈ ((List.finRange 16).filter (absenceReached s)).map .absenceDeadline ↔
      ∃ p, i = .absenceDeadline p ∧ p ≠ s.start.station ∧ s.line.roster[p].present = true ∧
        Reached s (s.line.roster[p].lastHeard + BitVec.ofNat 32 (5 * (s.image.beaconPeriod * 1000))) := by
    simp only [List.mem_map, List.mem_filter, List.mem_finRange, true_and, absenceReached, Bool.and_eq_true,
      decide_eq_true_eq, countReached_iff, countAfter, beaconMs, and_assoc]
    exact exists_congr fun p => ⟨fun ⟨a, b, c, d⟩ => ⟨d.symm, a, b, c⟩, fun ⟨d, a, b, c⟩ => ⟨a, b, c, d.symm⟩⟩
  simp only [lineDue, List.mem_append, mem_eventIf, Bool.and_eq_true, deadlineReached_iff, contentionDue_iff,
    countReached_iff, absent, decide_eq_true_eq, Bool.not_eq_true', countAfter, or_assoc, and_assoc, ne_eq]

theorem mem_planDue (s : State) (i : Instr) : i ∈ planDue s ↔
    (i = .loadTimer ∧ ∃ f c, s.plan.staging = .loading f c ∧ Reached s c) ∨
    (i = .noProgressTimer ∧ ∃ f, s.plan.staging = .fetching f ∧ Reached s f.timer) ∨
    (i = .servePause ∧ DueAt s s.plan.pausedUntil) := by
  unfold planDue
  dsimp only
  simp only [List.mem_append, mem_eventIf, deadlineReached_iff]
  cases s.plan.staging <;> simp [mem_eventIf, countReached_iff]

theorem waitReached_iff (s : State) (k : SlotNo) : waitReached s k = true ↔ ∃ c, claimIn s.arb k = some c ∧
    c.passed = false ∧ DueAt s c.deadline := by
  unfold waitReached
  cases claimIn s.arb k <;> simp [deadlineReached_iff]

/-- The row of a slot's notices is the row of its owner (R123). -/
theorem eq_noticeRow (slot : SlotNo) (i : Instr) : i = noticeRow slot ↔
    (∃ k, i = .bellClaimNotice k ∧ slot = bellSlot k) ∨ (∃ j, i = .announceClaimNotice j ∧ slot = annSlot j) ∨
    (i = .drillClaimNotice ∧ slot = drillSlot) := by
  constructor
  · rintro rfl
    unfold noticeRow
    split
    · next h => exact .inr (.inr ⟨rfl, Fin.ext h⟩)
    · split
      · exact .inl ⟨_, rfl, Fin.ext (by simp only [bellSlot]; omega)⟩
      · exact .inr (.inl ⟨_, rfl, Fin.ext (by simp only [annSlot]; omega)⟩)
  · rintro (⟨k, rfl, rfl⟩ | ⟨j, rfl, rfl⟩ | ⟨rfl, rfl⟩)
    · match k with
      | 0 => rfl
      | 1 => rfl
    · match j with
      | 0 => rfl
      | 1 => rfl
      | 2 => rfl
      | 3 => rfl
    · rfl

theorem mem_noticeRows (s : State) (i : Instr) : i ∈ s.arb.notices.map (fun n => noticeRow n.slot) ↔
    (∃ k, i = .bellClaimNotice k ∧ ∃ n ∈ s.arb.notices, n.slot = bellSlot k) ∨
    (∃ j, i = .announceClaimNotice j ∧ ∃ n ∈ s.arb.notices, n.slot = annSlot j) ∨
    (i = .drillClaimNotice ∧ ∃ n ∈ s.arb.notices, n.slot = drillSlot) := by
  simp only [List.mem_map, eq_comm (b := i), eq_noticeRow]
  constructor
  · rintro ⟨n, hn, ⟨k, e, h⟩ | ⟨j, e, h⟩ | ⟨e, h⟩⟩
    · exact .inl ⟨k, e, n, hn, h⟩
    · exact .inr (.inl ⟨j, e, n, hn, h⟩)
    · exact .inr (.inr ⟨e, n, hn, h⟩)
  · rintro (⟨k, e, n, hn, h⟩ | ⟨j, e, n, hn, h⟩ | ⟨e, n, hn, h⟩)
    · exact ⟨n, hn, .inl ⟨k, e, h⟩⟩
    · exact ⟨n, hn, .inr (.inl ⟨j, e, h⟩)⟩
    · exact ⟨n, hn, .inr (.inr ⟨e, h⟩)⟩

theorem mem_arbDue (s : State) (i : Instr) : i ∈ arbDue s ↔
    (∃ k, i = .waitDeadline k ∧ ∃ c, claimIn s.arb k = some c ∧ c.passed = false ∧
      DueAt s c.deadline) ∨
    (∃ k, i = .bellClaimNotice k ∧ ∃ n ∈ s.arb.notices, n.slot = bellSlot k) ∨
    (∃ j, i = .announceClaimNotice j ∧ ∃ n ∈ s.arb.notices, n.slot = annSlot j) ∨
    (i = .drillClaimNotice ∧ ∃ n ∈ s.arb.notices, n.slot = drillSlot) := by
  have waits : i ∈ ((List.finRange 7).filter (waitReached s)).map .waitDeadline ↔
      ∃ k, i = .waitDeadline k ∧ ∃ c, claimIn s.arb k = some c ∧ c.passed = false ∧
        DueAt s c.deadline := by
    simp only [List.mem_map, List.mem_filter, List.mem_finRange, true_and, waitReached_iff, eq_comm (b := i)]
    exact exists_congr fun k => and_comm
  rw [arbDue, List.mem_append, waits, mem_noticeRows]

/-- The start trigger of an entry is reached (R138). -/
def TriggerReached (s : State) (e : AnnEntry) : Prop :=
  (e.trigger = .campus ∧ 0 ≤ campusDiff s.time.campus e.start) ∨
    ∃ c, e.trigger = .localAt c ∧ Reached s c

theorem synthDone_iff (s : State) (k : SlotNo) :
    synthDone s k = true ↔ s.synth.complete = true ∧ s.synth.playing.map (·.1) = some k := by
  simp [synthDone]

theorem mem_entryDue_gathering {s : State} {j : TablePos} {e : AnnEntry} (he : s.ann.table[j] = some e)
    (hg : e.state = .gathering) (i : Instr) : i ∈ entryDue s j ↔
    (i = .startTrigger j ∧ TriggerReached s e) ∨
    (i = .gatherLimit j ∧ ¬ TriggerReached s e ∧ DueAt s e.deadline) := by
  unfold entryDue TriggerReached
  rw [he]
  dsimp only
  rw [hg]
  dsimp only
  cases e.trigger with
  | campus =>
    by_cases h : 0 ≤ campusDiff s.time.campus e.start <;>
      simp [campusReached, h, mem_eventIf, deadlineReached_iff]
  | localAt c =>
    by_cases h : Reached s c <;>
      simp [countReached_iff, h, mem_eventIf, deadlineReached_iff]

theorem mem_entryDue_playing {s : State} {j : TablePos} {e : AnnEntry} (he : s.ann.table[j] = some e)
    (hg : e.state = .playing) (i : Instr) : i ∈ entryDue s j ↔
    (i = .endDeadline j ∧ (∃ l, e.kind = .live l) ∧ DueAt s e.deadline) ∨
    (i = .chimeComplete j ∧ (∃ c n, e.kind = .chime c n) ∧ s.synth.complete = true ∧
      s.synth.playing.map (·.1) = some (annSlot j)) := by
  unfold entryDue
  rw [he]
  dsimp only
  rw [hg]
  dsimp only
  cases e.kind <;> simp [isLive, mem_eventIf, deadlineReached_iff, synthDone_iff]

theorem mem_entryDue_none {s : State} {j : TablePos} (he : s.ann.table[j] = none) (i : Instr) : i ∉ entryDue s j := by
  unfold entryDue
  rw [he]
  exact List.not_mem_nil

theorem mem_entryDue (s : State) (j : TablePos) (i : Instr) : i ∈ entryDue s j ↔
    (i = .startTrigger j ∧ ∃ e, s.ann.table[j] = some e ∧ e.state = .gathering ∧ TriggerReached s e) ∨
    (i = .gatherLimit j ∧ ∃ e, s.ann.table[j] = some e ∧ e.state = .gathering ∧ ¬ TriggerReached s e ∧
      DueAt s e.deadline) ∨
    (i = .endDeadline j ∧ ∃ e l, s.ann.table[j] = some e ∧ e.state = .playing ∧ e.kind = .live l ∧
      DueAt s e.deadline) ∨
    (i = .chimeComplete j ∧ ∃ e c n, s.ann.table[j] = some e ∧ e.state = .playing ∧ e.kind = .chime c n ∧
      s.synth.complete = true ∧ s.synth.playing.map (·.1) = some (annSlot j)) := by
  cases he : s.ann.table[j] with
  | none => simp [mem_entryDue_none he]
  | some e =>
    cases hg : e.state with
    | gathering => simp [mem_entryDue_gathering he hg, hg]
    | playing => simp [mem_entryDue_playing he hg, hg]

theorem mem_annDue (s : State) (i : Instr) : i ∈ annDue s ↔
    (∃ j, i = .startTrigger j ∧ ∃ e, s.ann.table[j] = some e ∧ e.state = .gathering ∧ TriggerReached s e) ∨
    (∃ j, i = .gatherLimit j ∧ ∃ e, s.ann.table[j] = some e ∧ e.state = .gathering ∧ ¬ TriggerReached s e ∧
      DueAt s e.deadline) ∨
    (∃ j, i = .endDeadline j ∧ ∃ e l, s.ann.table[j] = some e ∧ e.state = .playing ∧ e.kind = .live l ∧
      DueAt s e.deadline) ∨
    (∃ j, i = .chimeComplete j ∧ ∃ e c n, s.ann.table[j] = some e ∧ e.state = .playing ∧ e.kind = .chime c n ∧
      s.synth.complete = true ∧ s.synth.playing.map (·.1) = some (annSlot j)) ∨
    (i = .liveRecordExpiry ∧ DueAt s (s.ann.live.map (·.expiry))) := by
  have live : (s.ann.live.any fun r => countReached s.time.localCount r.expiry) = true ↔
      DueAt s (s.ann.live.map (·.expiry)) := by
    rw [← deadlineReached_iff]
    cases s.ann.live <;> rfl
  rw [annDue, List.mem_append, mem_eventIf, live]
  simp only [List.mem_flatMap, List.mem_finRange, true_and, mem_entryDue, exists_or, or_assoc]

theorem mem_genDue (s : State) (c : BellNo) (i : Instr) : i ∈ genDue s c ↔
    (i = .pulseOnEnd c ∧ (∃ n, s.bells.gens[c].state = .on n) ∧ DueAt s s.bells.gens[c].deadline) ∨
    (i = .pulseOffEnd c ∧ (∃ n, s.bells.gens[c].state = .off n) ∧ DueAt s s.bells.gens[c].deadline) ∨
    (i = .restEnd c ∧ s.bells.gens[c].state = .rest ∧ DueAt s s.bells.gens[c].deadline) := by
  unfold genDue
  dsimp only
  by_cases h : deadlineReached s.time.localCount s.bells.gens[c].deadline = true
  · rw [if_pos h]
    simp only [(deadlineReached_iff s _).mp h, and_true]
    cases s.bells.gens[c].state <;> simp
  · rw [if_neg h]
    simp only [mt (deadlineReached_iff s _).mpr h, and_false, or_self, List.not_mem_nil]

theorem anyEvac_iff (b : BellUnit) : anyEvac b = true ↔ ∃ c : BellNo, b.gens[c].state = .evac := by
  unfold anyEvac
  simp only [List.any_eq_true, Vector.mem_toList_iff, Vector.mem_iff_getElem, decide_eq_true_eq]
  exact ⟨fun ⟨_, ⟨i, hi, e⟩, h⟩ => ⟨⟨i, hi⟩, e ▸ h⟩, fun ⟨c, h⟩ => ⟨_, ⟨c, c.isLt, rfl⟩, h⟩⟩

theorem mem_bellDue (s : State) (i : Instr) : i ∈ bellDue s ↔
    (∃ c, i = .pulseOnEnd c ∧ (∃ n, s.bells.gens[c].state = .on n) ∧ DueAt s s.bells.gens[c].deadline) ∨
    (∃ c, i = .pulseOffEnd c ∧ (∃ n, s.bells.gens[c].state = .off n) ∧ DueAt s s.bells.gens[c].deadline) ∨
    (∃ c, i = .restEnd c ∧ s.bells.gens[c].state = .rest ∧ DueAt s s.bells.gens[c].deadline) ∨
    (i = .evacPattern ∧ (∃ c : BellNo, s.bells.gens[c].state = .evac) ∧ DueAt s s.bells.evacDeadline) := by
  rw [bellDue, List.mem_append, mem_eventIf, Bool.and_eq_true, anyEvac_iff, deadlineReached_iff]
  simp only [List.mem_flatMap, List.mem_finRange, true_and, mem_genDue, exists_or, or_assoc]

theorem mem_circuitDue (s : State) (c : ClockNo) (i : Instr) : i ∈ circuitDue s c ↔
    (i = .impulseEnd c ∧ s.image.clocks[c].kind = .impulse ∧ s.clocks[c].impulse.cycle = .impulse ∧
      s.clocks[c].impulse.midpoint.isSome = true ∧ DueAt s s.clocks[c].impulse.deadline) ∨
    (i = .impulseRestEnd c ∧ s.image.clocks[c].kind = .impulse ∧ s.clocks[c].impulse.cycle = .rest ∧
      DueAt s s.clocks[c].impulse.deadline) ∨
    (i = .codeFrameEnd c ∧ s.image.clocks[c].kind = .coded ∧ s.clocks[c].coded.sending = true ∧
      6250 * s.clocks[c].coded.frame.length ≤ 12 * s.clocks[c].coded.frameTicks) := by
  unfold circuitDue clockKind
  dsimp only
  cases s.image.clocks[c].kind with
  | absent => simp
  | coded => simp [mem_eventIf, codeSent_iff]
  | impulse =>
    by_cases h : deadlineReached s.time.localCount s.clocks[c].impulse.deadline = true
    · rw [if_pos h]
      simp only [(deadlineReached_iff s _).mp h, and_true]
      cases s.clocks[c].impulse.cycle <;> simp [mem_eventIf]
    · rw [if_neg h]
      simp only [mt (deadlineReached_iff s _).mpr h, and_false, reduceCtorEq, false_and, or_self, List.not_mem_nil]

theorem mem_clockDue (s : State) (i : Instr) : i ∈ clockDue s ↔
    (∃ c, i = .impulseEnd c ∧ s.image.clocks[c].kind = .impulse ∧ s.clocks[c].impulse.cycle = .impulse ∧
      s.clocks[c].impulse.midpoint.isSome = true ∧ DueAt s s.clocks[c].impulse.deadline) ∨
    (∃ c, i = .impulseRestEnd c ∧ s.image.clocks[c].kind = .impulse ∧ s.clocks[c].impulse.cycle = .rest ∧
      DueAt s s.clocks[c].impulse.deadline) ∨
    (∃ c, i = .codeFrameEnd c ∧ s.image.clocks[c].kind = .coded ∧ s.clocks[c].coded.sending = true ∧
      6250 * s.clocks[c].coded.frame.length ≤ 12 * s.clocks[c].coded.frameTicks) := by
  simp only [clockDue, List.mem_flatMap, List.mem_finRange, true_and, mem_circuitDue, exists_or]

theorem mem_drillDue (s : State) (i : Instr) : i ∈ drillDue s ↔
    (i = .evacuationDeadline ∧ ∃ r, s.drill.record = some r ∧ evacuationReached s r = true) ∨
    (i = .assembleDeadline ∧ ∃ r, s.drill.record = some r ∧ assembleReached s r = true) ∨
    (i = .endOfAllClear ∧ ∃ r, s.drill.record = some r ∧ allClearReached s r = true) ∨
    (i = .periodicFrameTimer ∧ s.drill.state ≠ .idle ∧ DueAt s s.drill.periodic) ∨
    (i = .endCopy ∧ ∃ x ∈ s.drill.copies, DueAt s x.nextAt) ∨
    (i = .allClearComplete ∧ allClearHeld s.arb = true ∧ s.synth.complete = true ∧
      s.synth.playing.map (·.1) = some drillSlot) := by
  have records : i ∈ recordDue s ↔
      (i = .evacuationDeadline ∧ ∃ r, s.drill.record = some r ∧ evacuationReached s r = true) ∨
      (i = .assembleDeadline ∧ ∃ r, s.drill.record = some r ∧ assembleReached s r = true) ∨
      (i = .endOfAllClear ∧ ∃ r, s.drill.record = some r ∧ allClearReached s r = true) := by
    unfold recordDue
    cases s.drill.record <;> simp [mem_eventIf]
  simp only [drillDue, List.mem_append, records, mem_eventIf, Bool.and_eq_true, decide_eq_true_eq, deadlineReached_iff,
    List.any_eq_true, synthDone_iff, or_assoc]

theorem mem_portDue (s : State) (i : Instr) :
    i ∈ portDue s ↔ s.port.dispatched = some i ∨ (i = .ownerAnswer ∧ s.port.answer.isSome = true) := by
  simp [portDue, mem_eventIf]

/-! ## Each row belongs to one block -/

/-- The blocks whose rows the bit time queues. -/
inductive RowBlock where
  | inputs
  | time
  | line
  | plan
  | arb
  | ann
  | bells
  | clocks
  | drill
  | port
deriving DecidableEq

/-- The block of a row that a bit time may queue by itself. -/
def rowBlock : Instr → Option RowBlock
  | .powerFailWarning | .pfwEnd | .faActivation | .faRelease | .dkActivation | .bellButtonPress | .minuteMark =>
    some .inputs
  | .secondBoundary | .minuteBoundary | .referenceLapse | .beaconTimer | .settimeCopy => some .time
  | .lineBecomesIdle | .contentionInstant | .deferenceLapse | .stuckWatch | .absenceDeadline _ | .joinTimer =>
    some .line
  | .loadTimer | .noProgressTimer | .servePause => some .plan
  | .waitDeadline _ | .bellClaimNotice _ | .announceClaimNotice _ | .drillClaimNotice => some .arb
  | .startTrigger _ | .gatherLimit _ | .endDeadline _ | .chimeComplete _ | .liveRecordExpiry => some .ann
  | .pulseOnEnd _ | .pulseOffEnd _ | .restEnd _ | .evacPattern => some .bells
  | .impulseEnd _ | .impulseRestEnd _ | .codeFrameEnd _ => some .clocks
  | .evacuationDeadline | .assembleDeadline | .endOfAllClear | .periodicFrameTimer | .endCopy | .allClearComplete =>
    some .drill
  | .ownerAnswer => some .port
  | _ => none

theorem block_of_inputs {img : Image} {b : Bool} {p q : Pins} {i : Instr} (h : i ∈ pinEvents img b p q) :
    rowBlock i = some .inputs := by
  obtain h | h | h | h | h | h | h := (mem_pinEvents ..).mp h <;> rw [h.1] <;> rfl

theorem block_of_time {s : State} {i : Instr} (h : i ∈ timeDue s) : rowBlock i = some .time := by
  obtain h | h | h | h | h := (mem_timeDue ..).mp h <;> rw [h.1] <;> rfl

theorem block_of_line {s : State} {i : Instr} (h : i ∈ lineDue s) : rowBlock i = some .line := by
  obtain ⟨rfl, _⟩ | ⟨rfl, _⟩ | ⟨rfl, _⟩ | ⟨rfl, _⟩ | ⟨_, rfl, _⟩ | ⟨rfl, _⟩ := (mem_lineDue ..).mp h <;> rfl

theorem block_of_plan {s : State} {i : Instr} (h : i ∈ planDue s) : rowBlock i = some .plan := by
  obtain ⟨rfl, _⟩ | ⟨rfl, _⟩ | ⟨rfl, _⟩ := (mem_planDue ..).mp h <;> rfl

theorem block_of_arb {s : State} {i : Instr} (h : i ∈ arbDue s) : rowBlock i = some .arb := by
  obtain ⟨_, rfl, _⟩ | ⟨_, rfl, _⟩ | ⟨_, rfl, _⟩ | ⟨rfl, _⟩ := (mem_arbDue ..).mp h <;> rfl

theorem block_of_ann {s : State} {i : Instr} (h : i ∈ annDue s) : rowBlock i = some .ann := by
  obtain ⟨_, rfl, _⟩ | ⟨_, rfl, _⟩ | ⟨_, rfl, _⟩ | ⟨_, rfl, _⟩ | ⟨rfl, _⟩ := (mem_annDue ..).mp h <;> rfl

theorem block_of_bells {s : State} {i : Instr} (h : i ∈ bellDue s) : rowBlock i = some .bells := by
  obtain ⟨_, rfl, _⟩ | ⟨_, rfl, _⟩ | ⟨_, rfl, _⟩ | ⟨rfl, _⟩ := (mem_bellDue ..).mp h <;> rfl

theorem block_of_clocks {s : State} {i : Instr} (h : i ∈ clockDue s) : rowBlock i = some .clocks := by
  obtain ⟨_, rfl, _⟩ | ⟨_, rfl, _⟩ | ⟨_, rfl, _⟩ := (mem_clockDue ..).mp h <;> rfl

theorem block_of_drill {s : State} {i : Instr} (h : i ∈ drillDue s) : rowBlock i = some .drill := by
  obtain ⟨rfl, _⟩ | ⟨rfl, _⟩ | ⟨rfl, _⟩ | ⟨rfl, _⟩ | ⟨rfl, _⟩ | ⟨rfl, _⟩ := (mem_drillDue ..).mp h <;> rfl

/-- The rows of a block that are due in JOIN and RUN. -/
def blockDue (s : State) : RowBlock → List Instr
  | .inputs | .port => []
  | .time => timeDue s
  | .line => lineDue s
  | .plan => planDue s
  | .arb => arbDue s
  | .ann => annDue s
  | .bells => bellDue s
  | .clocks => clockDue s
  | .drill => drillDue s

theorem block_of_due {s : State} {i : Instr} {b : RowBlock} (h : i ∈ blockDue s b) : rowBlock i = some b := by
  cases b with
  | inputs | port => exact absurd h List.not_mem_nil
  | time => exact block_of_time h
  | line => exact block_of_line h
  | plan => exact block_of_plan h
  | arb => exact block_of_arb h
  | ann => exact block_of_ann h
  | bells => exact block_of_bells h
  | clocks => exact block_of_clocks h
  | drill => exact block_of_drill h

theorem mem_workingDue_iff (s : State) (i : Instr) : i ∈ workingDue s ↔ ∃ b, i ∈ blockDue s b := by
  simp only [workingDue, List.mem_append]
  constructor
  · rintro (((((((h | h) | h) | h) | h) | h) | h) | h)
    · exact ⟨.time, h⟩
    · exact ⟨.line, h⟩
    · exact ⟨.plan, h⟩
    · exact ⟨.arb, h⟩
    · exact ⟨.ann, h⟩
    · exact ⟨.bells, h⟩
    · exact ⟨.clocks, h⟩
    · exact ⟨.drill, h⟩
  · rintro ⟨b, h⟩
    cases b <;> simp only [blockDue, List.not_mem_nil] at h <;> simp only [h, true_or, or_true]

/-- A row is due only where its own block makes it due. -/
theorem mem_workingDue {s : State} {i : Instr} {b : RowBlock} (h : rowBlock i = some b) :
    i ∈ workingDue s ↔ i ∈ blockDue s b := by
  rw [mem_workingDue_iff]
  refine ⟨fun ⟨c, hc⟩ => ?_, fun hb => ⟨b, hb⟩⟩
  have : c = b := Option.some.inj ((block_of_due hc).symm.trans h)
  rwa [← this]

theorem mem_due (s : State) (i : Instr) : i ∈ due s ↔ (working s = true ∧ i ∈ workingDue s) ∨ i ∈ portDue s := by
  unfold due
  cases working s <;> simp

theorem tick_working {s : State} (ha : alive s = true) : working (tick s) = working s := by
  unfold working
  rw [(tick_start ha).1.opState]

/-- A row of a block is queued by a bit time where the station works and the block makes it due. -/
theorem queues_block {s : State} (ha : alive s = true) (hp : s.pending = []) (hw : working s = true)
    (hd : s.port.dispatched = none) {i : Instr} {b : RowBlock} (h : rowBlock i = some b) (hi : b ≠ .inputs)
    (hq : b ≠ .port) : i ∈ (tick s).pending ↔ i ∈ blockDue (tick s) b := by
  have dispatched : (tick s).port.dispatched = none :=
    (congrArg PanelPort.dispatched ((tick_ev s).same .port (by decide))).trans hd
  have notInput {p q : Pins} : i ∉ pinEvents s.image (!beforeImage s) p q := fun k =>
    hi (Option.some.inj (h.symm.trans (block_of_inputs k)))
  have notPort : i ∉ portDue (tick s) := by
    rw [mem_portDue, dispatched]
    rintro (k | ⟨rfl, _⟩)
    · cases k
    · exact hq (Option.some.inj h).symm
  rw [tick_pending ha hp, List.mem_append, mem_due, tick_working ha, mem_workingDue h]
  simp only [notInput, notPort, hw, true_and, false_or, or_false]

/-- A row of an input is queued by its event alone. -/
theorem queues_input {s : State} (ha : alive s = true) (hp : s.pending = []) (hd : s.port.dispatched = none)
    {i : Instr} (h : rowBlock i = some .inputs) :
    i ∈ (tick s).pending ↔ i ∈ pinEvents s.image (!beforeImage s) s.pins (tick s).pins := by
  have dispatched : (tick s).port.dispatched = none :=
    (congrArg PanelPort.dispatched ((tick_ev s).same .port (by decide))).trans hd
  have notPort : i ∉ portDue (tick s) := by
    rw [mem_portDue, dispatched]
    rintro (k | ⟨rfl, _⟩)
    · cases k
    · cases h
  rw [tick_pending ha hp, List.mem_append, mem_due, mem_workingDue h]
  simp only [notPort, blockDue, List.not_mem_nil, and_false, or_false]

/-- The row by which the port takes its answer is queued by the answer alone. -/
theorem queues_answer {s : State} (ha : alive s = true) (hp : s.pending = []) (hd : s.port.dispatched = none) :
    .ownerAnswer ∈ (tick s).pending ↔ s.port.answer.isSome = true := by
  have port : (tick s).port = s.port := (tick_ev s).same .port (by decide)
  have notInput {p q : Pins} : .ownerAnswer ∉ pinEvents s.image (!beforeImage s) p q := fun k => by
    cases block_of_inputs k
  rw [tick_pending ha hp, List.mem_append, mem_due, mem_workingDue (b := .port) rfl, mem_portDue, port, hd]
  simp only [notInput, blockDue, List.not_mem_nil, and_false, false_or, reduceCtorEq, true_and]

/-- A request that is dispatched is queued for its owner. -/
theorem queues_dispatched {s : State} (ha : alive s = true) (hp : s.pending = []) {i : Instr}
    (hd : s.port.dispatched = some i) : i ∈ (tick s).pending := by
  have port : (tick s).port = s.port := (tick_ev s).same .port (by decide)
  rw [tick_pending ha hp, List.mem_append, mem_due, mem_portDue, port]
  exact .inr (.inr (.inl hd))

end Sys2Proof.Proofs
end

section
/-! Every step answers next, and what a bit time does (log 2). -/

namespace Sys2Proof.Proofs

open Sys2Proof Sys2Proof.Machine Sys2Proof.Laws

theorem step_safe (s : State) : stepSafe s := by
  unfold stepSafe
  cases h : s.pending with
  | nil => exact ⟨_, step_nil h⟩
  | cons i rest =>
    rw [step_cons h]
    exact exec_eq_next i _

/-! ## The samples -/

theorem samplePins_spec (op : OpState) (slow : Bool) (p : Pins) : let q := samplePins op slow p
    q.pfw = sampleInput p.pfw ∧ (op = .halt → q = { p with pfw := sampleInput p.pfw }) ∧
    (op ≠ .halt → q.ref = sampleInput p.ref ∧ (slow = false → q.fa = p.fa ∧ q.dk = p.dk ∧ q.bb = p.bb) ∧
      (slow = true → q.fa = sampleInput p.fa ∧ q.dk = sampleInput p.dk ∧ q.bb = sampleInput p.bb)) := by
  intro q
  by_cases h : op = .halt
  · have hq : q = { p with pfw := sampleInput p.pfw } := if_pos h
    exact ⟨by rw [hq], fun _ => hq, fun k => absurd h k⟩
  · cases slow with
    | false =>
      have hq : q = { p with
          pfw := sampleInput p.pfw
          ref := sampleInput p.ref } := if_neg h
      rw [hq]
      exact ⟨rfl, fun k => absurd k h, fun _ => ⟨rfl, fun _ => ⟨rfl, rfl, rfl⟩, nofun⟩⟩
    | true =>
      have hq : q = { p with
          pfw := sampleInput p.pfw
          ref := sampleInput p.ref
          fa := sampleInput p.fa
          dk := sampleInput p.dk
          bb := sampleInput p.bb } := if_neg h
      rw [hq]
      exact ⟨rfl, fun k => absurd k h, fun _ => ⟨rfl, nofun, fun _ => ⟨rfl, rfl, rfl⟩⟩⟩

theorem slowSampleDue_iff (u : StartUnit) : slowSampleDue u = true ↔ 9 ≤ u.inputPhase := by
  unfold slowSampleDue slowSampleMs
  rw [decide_eq_true_iff]
  omega

/-- The inputs after a bit time (R19, R88, R151, R198, log 57). -/
theorem tick_samples {s : State} (ha : alive s = true) (h : MsPassed s) : let p := (tick s).pins
    p.pfw = sampleInput s.pins.pfw ∧
    (s.start.opState = .halt → p = { s.pins with pfw := sampleInput s.pins.pfw }) ∧
    (s.start.opState ≠ .halt → p.ref = sampleInput s.pins.ref ∧
      (s.start.inputPhase < 9 → p.fa = s.pins.fa ∧ p.dk = s.pins.dk ∧ p.bb = s.pins.bb) ∧
      (9 ≤ s.start.inputPhase → p.fa = sampleInput s.pins.fa ∧ p.dk = sampleInput s.pins.dk ∧
        p.bb = sampleInput s.pins.bb)) := by
  intro p
  have hp : p = samplePins s.start.opState (slowSampleDue s.start) s.pins := (tick_pins ha).trans (if_pos h)
  rw [hp]
  obtain ⟨pfw, halt, others⟩ := samplePins_spec s.start.opState (slowSampleDue s.start) s.pins
  refine ⟨pfw, halt, fun k => ?_⟩
  obtain ⟨ref, quick, slow⟩ := others k
  refine ⟨ref, fun n => quick ?_, fun n => slow ((slowSampleDue_iff _).mpr n)⟩
  rw [← Bool.not_eq_true, slowSampleDue_iff]
  omega

theorem tick_localCount {s : State} (ha : alive s = true) : (tick s).time.localCount =
    if MsPassed s then s.time.localCount + 1 else s.time.localCount := by
  rw [tick_time s ha]
  split
  · split <;> rfl
  · rfl

theorem codePassed_eq (x : CodedRecord) :
    codePassed x = { x with frameTicks := if x.sending then x.frameTicks + 1 else x.frameTicks } := by
  unfold codePassed
  split <;> rfl

theorem beforeImage_iff (s : State) :
    beforeImage s = true ↔ s.start.opState = .start ∧ s.store.state = .reading .image := by
  simp [beforeImage]

/-- The rows of the inputs, and the answer's (R19, R88, R151, R190, R198). -/
theorem tick_inputRows {s : State} (ha : alive s = true) (hp : s.pending = []) (hd : s.port.dispatched = none) :
    let t := tick s
    let rises := fun old new : Input => old.valid = some false ∧ new.valid = some true
    let falls := fun old new : Input => old.valid = some true ∧ new.valid = some false
    let queues := fun (i : Instr) (p : Prop) => (i ∈ t.pending ↔ p)
    queues .powerFailWarning (s.pins.pfw.valid ≠ some true ∧ t.pins.pfw.valid = some true) ∧
    queues .pfwEnd (falls s.pins.pfw t.pins.pfw) ∧
    (¬ (s.start.opState = .start ∧ s.store.state = .reading .image) → let active := !s.image.faActiveOpen
      queues .faActivation (s.pins.fa.valid ≠ some active ∧ t.pins.fa.valid = some active) ∧
      queues .faRelease (s.pins.fa.valid = some active ∧ t.pins.fa.valid = some (!active))) ∧
    queues .dkActivation (rises s.pins.dk t.pins.dk) ∧ queues .bellButtonPress (rises s.pins.bb t.pins.bb) ∧
    queues .minuteMark (rises s.pins.ref t.pins.ref) ∧ queues .ownerAnswer (s.port.answer.isSome = true) := by
  have input {i : Instr} (h : rowBlock i = some .inputs) := (queues_input ha hp hd h).trans (mem_pinEvents ..)
  refine ⟨(input rfl).trans ?_, (input rfl).trans ?_, fun h => ⟨(input rfl).trans ?_, (input rfl).trans ?_⟩,
    (input rfl).trans ?_, (input rfl).trans ?_, (input rfl).trans ?_, queues_answer ha hp hd⟩
  case refine_3 | refine_4 =>
    have judged : (!beforeImage s) = true := by
      rw [Bool.not_eq_true', ← Bool.not_eq_true, beforeImage_iff]
      exact h
    simp only [reduceCtorEq, false_and, false_or, or_false, true_and, judged]
  all_goals simp only [reduceCtorEq, false_and, false_or, or_false, true_and]

/-- Settles O2: a step runs one command or passes a bit time, and each row is queued by its own block. -/
theorem everyStepAnswersNext : Obligations.EveryStepAnswersNext := by
  refine ⟨step_safe, fun s hp => ⟨step_nil hp, tick_dead, fun ha => ⟨(tick_ev s).same .mem (by decide),
    tick_localCount ha⟩,
    fun ha => ⟨(tick_ev s).same, fun c => ?_, tick_time s ha⟩, fun ha => ⟨fun h => ?_, fun h => ?_,
      fun i => queues_dispatched ha hp, tick_inputRows ha hp, fun hw hd => ?_⟩⟩⟩
  · rw [tick_clocks ha, codePassed_eq]
  · exact ⟨(tick_pins ha).trans (if_neg h), (tick_start ha).2.trans (if_neg h)⟩
  · obtain ⟨pfw, halt, others⟩ := tick_samples ha h
    exact ⟨pfw, halt, others, (tick_start ha).2.trans (if_pos h)⟩
  · obtain ⟨opState, station, _⟩ := (tick_start ha).1
    have image : (tick s).image = s.image := (tick_ev s).same .image (by decide)
    have time {i : Instr} (h : rowBlock i = some .time) :=
      (queues_block ha hp hw hd h nofun nofun).trans (mem_timeDue ..)
    have line {i : Instr} (h : rowBlock i = some .line) :=
      (queues_block ha hp hw hd h nofun nofun).trans (mem_lineDue ..)
    have plan {i : Instr} (h : rowBlock i = some .plan) :=
      (queues_block ha hp hw hd h nofun nofun).trans (mem_planDue ..)
    have arb {i : Instr} (h : rowBlock i = some .arb) := (queues_block ha hp hw hd h nofun nofun).trans (mem_arbDue ..)
    have ann {i : Instr} (h : rowBlock i = some .ann) := (queues_block ha hp hw hd h nofun nofun).trans (mem_annDue ..)
    have bells {i : Instr} (h : rowBlock i = some .bells) :=
      (queues_block ha hp hw hd h nofun nofun).trans (mem_bellDue ..)
    have clocks {i : Instr} (h : rowBlock i = some .clocks) :=
      (queues_block ha hp hw hd h nofun nofun).trans (mem_clockDue ..)
    have drill {i : Instr} (h : rowBlock i = some .drill) :=
      (queues_block ha hp hw hd h nofun nofun).trans (mem_drillDue ..)
    rw [opState, station, image] at line
    rw [opState] at time
    rw [image] at clocks
    intro now reached due
    refine ⟨(time rfl).trans ?_, (time rfl).trans ?_, (time rfl).trans ?_, (time rfl).trans ?_, (time rfl).trans ?_,
      (line rfl).trans ?_, (line rfl).trans ?_, (line rfl).trans ?_, (line rfl).trans ?_, fun p => (line rfl).trans ?_,
      (line rfl).trans ?_, (plan rfl).trans ?_, (plan rfl).trans ?_, (plan rfl).trans ?_, fun k => (arb rfl).trans ?_,
      fun k => (arb rfl).trans ?_, fun i => (arb rfl).trans ?_, (arb rfl).trans ?_,
      fun i => ⟨(ann rfl).trans ?_, (ann rfl).trans ?_, (ann rfl).trans ?_, (ann rfl).trans ?_⟩, (ann rfl).trans ?_,
      fun c => ⟨(bells rfl).trans ?_, (bells rfl).trans ?_, (bells rfl).trans ?_⟩, (bells rfl).trans ?_,
      fun c => ⟨(clocks rfl).trans ?_, (clocks rfl).trans ?_, (clocks rfl).trans ?_⟩, (drill rfl).trans ?_,
      (drill rfl).trans ?_, (drill rfl).trans ?_, (drill rfl).trans ?_, (drill rfl).trans ?_, (drill rfl).trans ?_⟩
    all_goals simp only [reduceCtorEq, false_and, exists_false, false_or, or_false, true_and, exists_eq_left',
      Instr.absenceDeadline.injEq, Instr.waitDeadline.injEq, Instr.bellClaimNotice.injEq,
      Instr.announceClaimNotice.injEq, Instr.startTrigger.injEq, Instr.gatherLimit.injEq, Instr.endDeadline.injEq,
      Instr.chimeComplete.injEq, Instr.pulseOnEnd.injEq, Instr.pulseOffEnd.injEq, Instr.restEnd.injEq,
      Instr.impulseEnd.injEq, Instr.impulseRestEnd.injEq, Instr.codeFrameEnd.injEq]
    all_goals exact Iff.rfl

end Sys2Proof.Proofs
end

section
/-! The all-clear claim (R168): the level, bus and deadline that a claim is made with. -/

namespace Sys2Proof.Proofs

open Sys2Proof Sys2Proof.Machine Sys2Proof.Laws

/-! ## What requests leave of a claim -/

/-- What a claim is made with: its level, its bus and its wait deadline (R116, R122). -/
def claimTerms (c : Claim) : ClaimLevel × Bus × Option Count := (c.level, c.bus, c.deadline)

/-- Every slot's claim stands with the terms it was made with. -/
def TermsStay (a b : Arbiter) : Prop := ∀ k, (claimIn b k).map claimTerms = (claimIn a k).map claimTerms

theorem TermsStay.refl (a : Arbiter) : TermsStay a a := fun _ => rfl

theorem TermsStay.trans {a b c : Arbiter} (h : TermsStay a b) (k : TermsStay b c) : TermsStay a c :=
  fun x => (k x).trans (h x)

theorem setStatus_terms (a : Arbiter) (slot : SlotNo) (r : ResNo) (st : ResStatus) :
    TermsStay a (setStatus a slot r st) := by
  intro k
  unfold setStatus
  cases h : claimIn a slot with
  | none => rfl
  | some c =>
    dsimp only
    rw [claimIn_setClaim]
    split
    · next e => rw [← e, h]; rfl
    · rfl

theorem setRes_terms (a : Arbiter) (r : ResNo) (x : Resource) : TermsStay a (setRes a r x) := fun _ => rfl

theorem notify_terms (a : Arbiter) (slot : SlotNo) (r : ResNo) (k : ClaimNoticeKind) :
    TermsStay a (notify a slot r k) := fun _ => rfl

theorem preempt_terms (a : Arbiter) (slot holder : SlotNo) (r : ResNo) : TermsStay a (preempt a slot holder r) := by
  unfold preempt
  exact ((setStatus_terms a _ _ _).trans (setRes_terms _ _ _)).trans
    ((setStatus_terms _ _ _ _).trans (notify_terms _ _ _ _))

theorem joinWaiting_terms (a : Arbiter) (slot : SlotNo) (r : ResNo) : TermsStay a (joinWaiting a slot r) := by
  unfold joinWaiting
  dsimp only
  split
  · exact (setRes_terms a _ _).trans (setStatus_terms _ _ _ _)
  · split
    · exact .refl a
    · split
      · exact ((setStatus_terms a _ _ _).trans (notify_terms _ _ _ _)).trans
          ((setRes_terms _ _ _).trans (setStatus_terms _ _ _ _))
      · exact setStatus_terms a _ _ _

theorem request_terms (a : Arbiter) (slot : SlotNo) (r : ResNo) : TermsStay a (request a slot r) := by
  unfold request
  split
  · exact .refl a
  · split
    · exact .refl a
    · exact .refl a
    · split
      · exact (setRes_terms a _ _).trans (setStatus_terms _ _ _ _)
      · split
        · exact setStatus_terms a _ _ _
        · split
          · exact preempt_terms a _ _ _
          · exact joinWaiting_terms a _ _

theorem requestAll_terms (slot : SlotNo) (rs : List ResNo) (a : Arbiter) : TermsStay a (requestAll a slot rs) := by
  unfold requestAll
  induction rs generalizing a with
  | nil => exact .refl a
  | cons r rs ih => exact (request_terms a slot r).trans (ih _)

theorem openClaim_terms (a : Arbiter) (now : Count) (slot : SlotNo) (level : ClaimLevel) (bus : Bus) :
    (claimIn (openClaim a now slot level bus) slot).map claimTerms =
      some (level, bus, (waitLimit level).map (countAfter now)) := by
  unfold claimIn openClaim
  simp [claimTerms]

/-- A claim that is made stands with the terms asked for (R116). -/
theorem makeClaim_terms (a : Arbiter) (now : Count) (slot : SlotNo) (level : ClaimLevel) (bus : Bus)
    (want : ResNo → Bool) : ∃ c, claimIn (makeClaim a now slot level bus want) slot = some c ∧
      c.level = level ∧ c.bus = bus ∧ c.deadline = (waitLimit level).map (countAfter now) := by
  have terms : (claimIn (makeClaim a now slot level bus want) slot).map claimTerms = _ :=
    (requestAll_terms slot _ _ slot).trans (openClaim_terms _ now slot level bus)
  obtain ⟨c, hc, ht⟩ := Option.map_eq_some_iff.mp terms
  unfold claimTerms at ht
  obtain ⟨hl, ht⟩ := Prod.mk.inj ht
  obtain ⟨hb, hd⟩ := Prod.mk.inj ht
  exact ⟨c, hc, hl, hb, hd⟩

/-! ## The claim reported sounding -/

theorem reportSounding_own {a : Arbiter} {slot : SlotNo} {c : Claim} (h : claimIn a slot = some c) (b : Bool) :
    reportSounding a slot a.slots[slot].number b = setClaim a slot (some { c with sounding := b }) := by
  unfold reportSounding
  rw [h]
  exact if_pos rfl

theorem claimIn_sounding {a : Arbiter} {slot : SlotNo} {c : Claim} (h : claimIn a slot = some c) (b : Bool) :
    claimIn (reportSounding a slot a.slots[slot].number b) slot = some { c with sounding := b } := by
  rw [reportSounding_own h, claimIn_setClaim, if_pos rfl]

theorem statusOf_sounding {a : Arbiter} {slot : SlotNo} {c : Claim} (h : claimIn a slot = some c) (b : Bool)
    (r : ResNo) :
    statusOf (reportSounding a slot a.slots[slot].number b) slot r = statusOf a slot r := by
  unfold statusOf
  rw [claimIn_sounding h, h]

/-! ## The all-clear claim -/

theorem drillWants_eq (img : Image) :
    drillWants img = fun r => decide (r = synRes) || decide (r.val < img.zoneCount) := by
  funext r
  unfold drillWants zoneExists synRes
  split
  · next h =>
    have : r ≠ 8 := fun e => by rw [e] at h; exact absurd h (by decide)
    simp [this]
  · next h =>
    have : r = 8 := Fin.ext (by have := r.isLt; show r.val = 8; omega)
    simp [this]

/-- The arbiter with the all-clear claim made and sounding (R168). -/
def allClearMade (s : State) : Arbiter :=
  makeClaim s.arb s.time.localCount drillSlot .urgent .a
    fun r => decide (r = synRes) || decide (r.val < s.image.zoneCount)

theorem drillClaim_arb (s : State) : (drillClaim s .urgent).arb =
    reportSounding (allClearMade s) drillSlot (allClearMade s).slots[drillSlot].number true := by
  unfold drillClaim
  dsimp only
  rw [withArbiter_arb, drillWants_eq]
  rfl

theorem allClearClaim_kept {s : State} (h : statusOf (drillClaim s .urgent).arb drillSlot synRes = .holding ∨
    statusOf (drillClaim s .urgent).arb drillSlot synRes = .waiting) : allClearClaim s = drillClaim s .urgent := by
  unfold allClearClaim
  obtain h | h := h
  · dsimp only
    rw [h]
  · dsimp only
    rw [h]

theorem allClearClaim_dropped {s : State} (h : ¬ (statusOf (drillClaim s .urgent).arb drillSlot synRes = .holding ∨
    statusOf (drillClaim s .urgent).arb drillSlot synRes = .waiting)) :
    allClearClaim s = dropDrillClaim (drillClaim s .urgent) := by
  unfold allClearClaim
  dsimp only
  split
  · next e => exact absurd (.inl e) h
  · next e => exact absurd (.inr e) h
  · rfl

/-- The all-clear claim is made, and withdrawn whole again where SYN is refused (R168). -/
theorem allClearClaim_claims (s : State) :
    AllClearClaimed s.image s.time.localCount s.arb (allClearClaim s).arb := by
  obtain ⟨c, hc, level, bus, deadline⟩ := makeClaim_terms s.arb s.time.localCount drillSlot .urgent .a
    fun r => decide (r = synRes) || decide (r.val < s.image.zoneCount)
  have made : claimIn (allClearMade s) drillSlot = some c := hc
  have status : statusOf (drillClaim s .urgent).arb drillSlot synRes = statusOf (allClearMade s) drillSlot synRes := by
    rw [drillClaim_arb, statusOf_sounding made]
  refine ⟨fun has => ?_, fun hasNot => ?_⟩
  · rw [allClearClaim_kept (by rw [status]; exact has), drillClaim_arb]
    exact ⟨rfl, _, claimIn_sounding made true, level, bus, rfl, deadline⟩
  · rw [allClearClaim_dropped (by rw [status]; exact hasNot), dropDrillClaim, withArbiter_arb, drillClaim_arb]
    exact ⟨rfl, withdrawWhole_free _ _⟩

/-! ## The drill slot's orders -/

theorem dropDrillClaim_arb (s : State) : (dropDrillClaim s).arb = withdrawWhole s.arb drillSlot := withArbiter_arb _ _

end Sys2Proof.Proofs
end

section
/-! The phases of a drill: the state frames, the moves from EVACUATE to ASSEMBLE and to ALL-CLEAR, and the roll (R154,
R155, R160, R166 to R171). -/

namespace Sys2Proof.Proofs

open Sys2Proof Sys2Proof.Machine Sys2Proof.Laws

/-! ## State frames -/

theorem told_drill (s : State) (b : FrameBody) (o : TxOutcome) :
    (told s b o).drill = { s.drill with copies := (told s b o).drill.copies } := by
  unfold told
  split
  · rfl
  · rfl
  · rw [(toldPlan_ev s _ _ _).same .drill (by decide)]
  · rfl

theorem tellAll_drill (s : State) (l : List (FrameBody × TxOutcome)) :
    (tellAll s l).drill = { s.drill with copies := (tellAll s l).drill.copies } := by
  induction l generalizing s with
  | nil => rfl
  | cons x l ih =>
    have := ih (told s x.1 x.2)
    rw [told_drill] at this
    exact this

/-- Of the Drill Unit an offer changes at most the END copies. -/
theorem offer_drill (s : State) (b : FrameBody) :
    (offer s b).drill = { s.drill with copies := (offer s b).drill.copies } := by
  unfold offer
  split
  · have := tellAll_drill (reportRefusals (s.withLine (lineOffer s.line b).line) (lineOffer s.line b).told)
      (lineOffer s.line b).told
    rw [(reportRefusals_ev _ _).same .drill (by decide)] at this
    exact this
  · exact told_drill s b _

/-- The periodic timer of the state frames restarted (R160). -/
def periodicStarted (s : State) : State := s.withDrill { s.drill with
  periodic := some (countAfter s.time.localCount periodicMs) }

theorem offerState_running {s : State} {r : DrillRecord} (hr : s.drill.record = some r) (hs : s.drill.state ≠ .idle) :
    offerState s = offer (periodicStarted s) (.drillState (stateContent s r)) := by
  unfold offerState
  rw [hr]
  exact if_neg hs

/-- What the offer of a state frame leaves of the drill. -/
theorem offerState_keeps (s : State) : let d := (offerState s).drill
    d.state = s.drill.state ∧ d.record = s.drill.record ∧ d.assembleAt = s.drill.assembleAt ∧
    d.allClearAt = s.drill.allClearAt := by
  unfold offerState
  split
  · exact ⟨rfl, rfl, rfl, rfl⟩
  · split
    · exact ⟨rfl, rfl, rfl, rfl⟩
    · dsimp only
      rw [offer_drill]
      exact ⟨rfl, rfl, rfl, rfl⟩

theorem offerState_stays (s : State) : TimeBankStays s (offerState s) := by
  unfold offerState
  split
  · exact .refl s
  · split
    · exact .refl s
    · exact (offer_stays _ _).after (faults_withDrill s _)

theorem offerState_localCount (s : State) : (offerState s).time.localCount = s.time.localCount := by
  unfold offerState
  split
  · rfl
  · split
    · rfl
    · dsimp only
      rw [offer_time]
      rfl

theorem offerState_takesOffers (s : State) : takesOffers (offerState s) = takesOffers s := by
  unfold offerState
  split
  · rfl
  · split
    · rfl
    · exact offer_takesOffers _ _

theorem roomFor_drillState {l : LineUnit} {c d : DrillContent} (h : RoomFor l (.drillState c)) :
    RoomFor l (.drillState d) := by
  obtain h | ⟨e, he, hs⟩ := h
  · exact .inl h
  · refine .inr ⟨e, he, ?_⟩
    obtain ⟨_, _, h, _⟩ | ⟨_, _, _, h⟩ := sameSort_cases hs
    · cases h
    · rw [h]
      rfl

/-- A state frame that finds room is queued, and the next one replaces it there (R39, R160). -/
theorem offerState_queues {s : State} {r : DrillRecord} (hr : s.drill.record = some r) (hs : s.drill.state ≠ .idle)
    (ht : takesOffers s = true) (room : RoomFor s.line (.drillState (stateContent s r))) :
    Queued (offerState s).line (.drillState (stateContent s r)) ∧
    RoomFor (offerState s).line (.drillState (stateContent s r)) := by
  rw [offerState_running hr hs]
  obtain ⟨queued, sort⟩ := offer_room (s := periodicStarted s) ht room
  exact ⟨queued, .inr (sort rfl)⟩

/-! ## Moves of the drill -/

theorem stateContent_congr {u w : State} (r : DrillRecord)
    (state : u.drill.state ≠ .evacuate ↔ w.drill.state ≠ .evacuate) (start : u.start = w.start)
    (image : u.image = w.image) (pins : u.pins = w.pins) : stateContent u r = stateContent w r := by
  simp only [stateContent, ownFaFlag, start, image, pins, state]

/-- The Drill Unit enters a state (R154). -/
def drillEntered (s : State) (new : DrillState) : State := s.withDrill (enterState s.drill new s.time.localCount)

theorem moveDrill_allClear {s : State} (h : s.drill.state = .assemble) :
    moveDrill s .allClear = computeStatus (allClearClaim (drillEntered s .allClear)) := by
  unfold moveDrill
  rw [h]
  rfl

/-- The EVACUATE claim withdrawn, and the EVAC bells stopped (R155). -/
def evacuateLeft (s : State) : State := (dropDrillClaim s).withBells (stopBells (dropDrillClaim s).bells)

theorem evacuateLeft_ev (s : State) : Evolves [.arb, .synth, .bells] s (evacuateLeft s) :=
  (dropDrillClaim_ev s).mono.withBells (stopBells_ok _) (stopBells_hwm _)

theorem evacuateLeft_arb (s : State) : (evacuateLeft s).arb = withdrawWhole s.arb drillSlot := by
  rw [evacuateLeft, arb_withBells, dropDrillClaim_arb]

theorem evacuateLeft_bells (s : State) : (evacuateLeft s).bells = stopBells s.bells := by
  have bells : (dropDrillClaim s).bells = s.bells := (dropDrillClaim_ev s).same .bells (by decide)
  rw [evacuateLeft, bells_withBells, bells]

theorem moveDrill_assemble {s : State} (h : s.drill.state = .evacuate) :
    moveDrill s .assemble = computeStatus (evacuateLeft (drillEntered s .assemble)) := by
  unfold moveDrill
  rw [h]
  rfl

theorem withDrill_changes (s : State) (x : DrillUnit) : Changes [.drill] s (s.withDrill x) := by
  intro f hf
  cases f
  case drill => exact absurd (by decide) hf
  all_goals rfl

theorem moveDrill_allClear_changes {s : State} (h : s.drill.state = .assemble) :
    Changes [.drill, .arb, .synth, .clocks] s (moveDrill s .allClear) ∧
    (moveDrill s .allClear).drill = { s.drill with
      state := .allClear
      allClearAt := some s.time.localCount } ∧
    AllClearClaimed s.image s.time.localCount s.arb (moveDrill s .allClear).arb := by
  rw [moveDrill_allClear h]
  have status := (computeStatus_ev (allClearClaim (drillEntered s .allClear))).same
  have claim := (allClearClaim_ev (drillEntered s .allClear)).same
  refine ⟨?_, ?_, ?_⟩
  · exact changes_trans (changes_mono (withDrill_changes s _))
      (changes_trans (changes_mono claim) (changes_mono status))
  · have drill : (computeStatus (allClearClaim (drillEntered s .allClear))).drill = (drillEntered s .allClear).drill :=
      (status .drill (by decide)).trans (claim .drill (by decide))
    rw [drill]
    rfl
  · rw [status .arb (by decide)]
    exact allClearClaim_claims (drillEntered s .allClear)

theorem moveDrill_assemble_changes {s : State} (h : s.drill.state = .evacuate) :
    Changes [.drill, .arb, .synth, .bells, .clocks] s (moveDrill s .assemble) ∧
    (moveDrill s .assemble).drill = { s.drill with
      state := .assemble
      assembleAt := some s.time.localCount
      allClearAt := none } ∧
    (moveDrill s .assemble).arb = withdrawWhole s.arb drillSlot ∧
    (moveDrill s .assemble).bells = stopBells s.bells := by
  rw [moveDrill_assemble h]
  have status := (computeStatus_ev (evacuateLeft (drillEntered s .assemble))).same
  have left := (evacuateLeft_ev (drillEntered s .assemble)).same
  refine ⟨?_, ?_, ?_, ?_⟩
  · exact changes_trans (changes_mono (withDrill_changes s _)) (changes_trans (changes_mono left) (changes_mono status))
  · have drill : (computeStatus (evacuateLeft (drillEntered s .assemble))).drill = (drillEntered s .assemble).drill :=
      (status .drill (by decide)).trans (left .drill (by decide))
    rw [drill]
    rfl
  · exact (status .arb (by decide)).trans (evacuateLeft_arb _)
  · exact (status .bells (by decide)).trans (evacuateLeft_bells _)

/-! ## The roll -/

theorem rollElapsed_isSome (e : RollEntry) : (rollElapsed e).isSome = true ↔ ∃ n, e = .cleared n := by
  cases e <;> simp [rollElapsed]

theorem rollComplete_iff (roll : Vector RollEntry 16) : rollComplete roll = true ↔
    (∀ p : StationNo, roll[p] ≠ .pending) ∧ ∃ (p : StationNo) (e : Nat), roll[p] = .cleared e := by
  unfold rollComplete
  simp only [Bool.and_eq_true, List.all_eq_true, List.any_eq_true, Vector.mem_toList_iff, Vector.mem_iff_getElem,
    decide_eq_true_eq, rollElapsed_isSome]
  constructor
  · rintro ⟨all, x, ⟨i, hi, rfl⟩, n, hn⟩
    exact ⟨fun p => all _ ⟨p, p.isLt, rfl⟩, ⟨i, hi⟩, n, hn⟩
  · rintro ⟨all, p, n, hn⟩
    refine ⟨?_, _, ⟨p, p.isLt, rfl⟩, n, hn⟩
    rintro x ⟨i, hi, rfl⟩
    exact all ⟨i, hi⟩

/-! ## The ALL-CLEAR test -/

theorem drillNotice_eq (k : DrillKind) : drillNotice k = noticeOf k := by
  cases k <;> rfl

/-- A state in which the ALL-CLEAR test passes (R169). -/
structure TestPasses (w : State) (r : DrillRecord) : Prop where
  record : w.drill.record = some r
  state : w.drill.state = .assemble
  roll : rollComplete r.roll = true

theorem allClearTest_passes {w : State} {r : DrillRecord} (h : TestPasses w r) :
    allClearTest w = offerState (raise (moveDrill w .allClear) (drillNotice r.kind)) := by
  unfold allClearTest
  rw [h.record]
  exact if_pos ⟨h.state, h.roll⟩

theorem allClearTest_waits {w : State} {r : DrillRecord} (hr : w.drill.record = some r)
    (h : ¬ (w.drill.state = .assemble ∧ rollComplete r.roll = true)) : allClearTest w = w := by
  unfold allClearTest
  rw [hr]
  exact if_neg h

/-- From w to v the drill has entered ALL-CLEAR, with its claim. -/
structure AllClearEntered (w v : State) : Prop where
  state : v.drill.state = .allClear
  record : v.drill.record = w.drill.record
  assembleAt : v.drill.assembleAt = w.drill.assembleAt
  allClearAt : v.drill.allClearAt = some w.time.localCount
  claimed : AllClearClaimed w.image w.time.localCount w.arb v.arb
  bells : v.bells = w.bells
  bank : TimeBankStays w v

/-- The state in which the ALL-CLEAR state frame is offered. -/
def allClearRaised (w : State) (k : DrillKind) : State := raise (moveDrill w .allClear) (drillNotice k)

theorem allClearRaised_drill {w : State} (h : w.drill.state = .assemble) (k : DrillKind) :
    (allClearRaised w k).drill = { w.drill with
      state := .allClear
      allClearAt := some w.time.localCount } := (moveDrill_allClear_changes h).2.1

theorem allClearTest_enters {w : State} {r : DrillRecord} (h : TestPasses w r) :
    AllClearEntered w (allClearTest w) := by
  have test : allClearTest w = offerState (allClearRaised w r.kind) := allClearTest_passes h
  obtain ⟨moved, _, claimed⟩ := moveDrill_allClear_changes h.state
  have drill := allClearRaised_drill h.state r.kind
  have raised : Changes [.faults] (moveDrill w .allClear) (allClearRaised w r.kind) := (raise_ev _ _).same
  have offered := (offerState_ev (allClearRaised w r.kind)).same
  have bank : TimeBankStays w (offerState (allClearRaised w r.kind)) :=
    ((TimeBankStays.of_faults (moved .faults (by decide))).trans (raise_stays _ _)).trans (offerState_stays _)
  obtain ⟨state, record, assembleAt, allClearAt⟩ := offerState_keeps (allClearRaised w r.kind)
  rw [test]
  rw [drill] at state record assembleAt allClearAt
  refine ⟨state, record, assembleAt, allClearAt, ?_, ?_, bank⟩
  · rw [offered .arb (by decide), raised .arb (by decide)]
    exact claimed
  · rw [offered .bells (by decide), raised .bells (by decide), moved .bells (by decide)]

/-- The state frame of ALL-CLEAR is queued where its kind finds room. -/
theorem allClearTest_queues {w : State} {r : DrillRecord} (h : TestPasses w r) (ht : takesOffers w = true)
    (room : RoomFor w.line (.drillState (stateContent w r))) :
    Queued (allClearTest w).line (.drillState (stateContent w r)) := by
  have test : allClearTest w = offerState (allClearRaised w r.kind) := allClearTest_passes h
  obtain ⟨moved, _, _⟩ := moveDrill_allClear_changes h.state
  have raised : Changes [.faults] (moveDrill w .allClear) (allClearRaised w r.kind) := (raise_ev _ _).same
  have same := changes_trans (changes_mono moved) (changes_mono (fs := [.drill, .arb, .synth, .clocks, .faults]) raised)
  have drill := allClearRaised_drill h.state r.kind
  have content : stateContent (allClearRaised w r.kind) r = stateContent w r := by
    refine stateContent_congr r ?_ (same .start (by decide)) (same .image (by decide)) (same .pins (by decide))
    rw [drill, h.state]
    exact ⟨nofun, nofun⟩
  have takes : takesOffers (allClearRaised w r.kind) = true := by
    unfold takesOffers working at *
    rw [same .start (by decide), same .line (by decide)]
    exact ht
  have queues := offerState_queues (s := allClearRaised w r.kind) (r := r) (by rw [drill]; exact h.record)
    (by rw [drill]; nofun) takes (by rw [content, same .line (by decide)]; exact room)
  rw [test, ← content]
  exact queues.1

end Sys2Proof.Proofs
end

section
/-! The move from EVACUATE to ASSEMBLE: its record, claim, bells, notice and state frame (R155, R166). -/

namespace Sys2Proof.Proofs

open Sys2Proof Sys2Proof.Machine Sys2Proof.Laws

/-! ## From EVACUATE to ASSEMBLE -/

/-- The record with its signal stop time (R166). -/
def stopped (r : DrillRecord) (stop : Option CampusTime) : DrillRecord := { r with stop := stop }

/-- The drill in ASSEMBLE, with its notice raised, before its state frame. -/
def assembleRaised (s : State) (r : DrillRecord) (stop : Option CampusTime) : State :=
  raise (moveDrill (setRecord s (some (stopped r stop))) .assemble) (drillNotice r.kind)

theorem toAssemble_eq (s : State) (r : DrillRecord) (stop : Option CampusTime) :
    toAssemble s r stop = allClearTest (offerState (assembleRaised s r stop)) := rfl

/-- What the station holds once the drill is in ASSEMBLE. -/
structure AssembleEntered (s u : State) (r : DrillRecord) (stop : Option CampusTime) : Prop where
  state : u.drill.state = .assemble
  record : u.drill.record = some (stopped r stop)
  assembleAt : u.drill.assembleAt = some s.time.localCount
  arb : u.arb = withdrawWhole s.arb drillSlot
  bells : u.bells = stopBells s.bells
  notice : Taking s → Pending u (noticeOf r.kind)
  same : Changes [.drill, .arb, .synth, .bells, .clocks, .faults] s u

theorem assembleRaised_entered {s : State} (r : DrillRecord) (stop : Option CampusTime)
    (h : s.drill.state = .evacuate) :
    AssembleEntered s (assembleRaised s r stop) r stop := by
  obtain ⟨changes, drill, arb, bells⟩ :=
    moveDrill_assemble_changes (s := setRecord s (some (stopped r stop))) h
  have record : Changes [.drill] s (setRecord s (some (stopped r stop))) := withDrill_changes s _
  have raised := (raise_ev (moveDrill (setRecord s (some (stopped r stop))) .assemble) (drillNotice r.kind)).same
  have taking : (moveDrill (setRecord s (some (stopped r stop))) .assemble).faults = s.faults :=
    (changes .faults (by decide)).trans (record .faults (by decide))
  have drill' : (assembleRaised s r stop).drill = _ := (raised .drill (by decide)).trans drill
  refine ⟨?_, ?_, ?_, (raised .arb (by decide)).trans arb, (raised .bells (by decide)).trans bells, fun ht => ?_, ?_⟩
  · rw [drill']
  · rw [drill']
    rfl
  · rw [drill']
    rfl
  · rw [← drillNotice_eq]
    exact (raise_pending _ _ _).mpr (.inl ⟨(congrArg FaultUnit.taking taking).trans ht, rfl⟩)
  · exact changes_trans (changes_mono record) (changes_trans (changes_mono changes) (changes_mono raised))

/-- The offer of the state frame leaves all this. -/
theorem AssembleEntered.offered {s u : State} {r : DrillRecord} {stop : Option CampusTime}
    (h : AssembleEntered s u r stop) : let v := offerState u
    v.drill.state = .assemble ∧ v.drill.record = some (stopped r stop) ∧ v.drill.assembleAt = some s.time.localCount ∧
    v.arb = withdrawWhole s.arb drillSlot ∧ v.bells = stopBells s.bells ∧ v.image = s.image ∧
    v.time.localCount = s.time.localCount ∧ (Taking s → Pending v (noticeOf r.kind)) := by
  intro v
  obtain ⟨state, record, assembleAt, _⟩ := offerState_keeps u
  have ev := (offerState_ev u).same
  exact ⟨state.trans h.state, record.trans h.record, assembleAt.trans h.assembleAt, (ev .arb (by decide)).trans h.arb,
    (ev .bells (by decide)).trans h.bells, (ev .image (by decide)).trans (h.same .image (by decide)),
    (offerState_localCount u).trans (congrArg TimeUnit.localCount (h.same .time (by decide))),
    fun ht => (offerState_stays u).pending _ (h.notice ht)⟩

theorem stopBells_gens (b : BellUnit) (c : BellNo) : (stopBells b).gens[c] =
    if b.gens[c].state = .evac then Generator.initial else b.gens[c] := by
  simp only [stopBells, mapGens, Fin.getElem_fin, Vector.getElem_ofFn]

/-- The drill moved from EVACUATE to ASSEMBLE, and where its roll is complete on to ALL-CLEAR (R166, R169). -/
theorem toAssemble_assembled {s : State} (r : DrillRecord) (stop : Option CampusTime) (h : s.drill.state = .evacuate) :
    Assembled s (toAssemble s r stop) r ∧ (toAssemble s r stop).drill.record = some (stopped r stop) := by
  obtain ⟨state, record, assembleAt, arb, bells, image, count, notice⟩ := (assembleRaised_entered r stop h).offered
  have frame : Changes (.port :: drillFields) s (toAssemble s r stop) := (toAssemble_ev s r stop).mono.same
  rw [toAssemble_eq] at frame ⊢
  generalize offerState (assembleRaised s r stop) = v at *
  by_cases hc : rollComplete r.roll = true
  · have entered := allClearTest_enters (w := v) ⟨record, state, hc⟩
    have claimed := entered.claimed
    rw [image, count, arb] at claimed
    refine ⟨⟨?_, entered.assembleAt.trans assembleAt, fun _ => ⟨entered.allClearAt.trans (by rw [count]), claimed⟩,
      fun k => absurd hc (by rw [k]; exact Bool.false_ne_true), fun c => ?_, ?_,
      fun ht => entered.bank.pending _ (notice ht), frame⟩, entered.record.trans record⟩
    · rw [if_pos hc]
      exact entered.state
    · rw [entered.bells, bells, stopBells_gens]
    · rw [entered.bells, bells]
      rfl
  · have waits : allClearTest v = v := allClearTest_waits record fun k => hc k.2
    rw [waits] at frame ⊢
    refine ⟨⟨?_, assembleAt, fun k => absurd k hc, fun _ => ⟨arb, by rw [arb]; exact withdrawWhole_free _ _⟩,
      fun c => ?_, ?_, notice, frame⟩, record⟩
    · rw [if_neg hc]
      exact state
    · rw [bells, stopBells_gens]
    · rw [bells]
      rfl

theorem takesOffers_congr {s t : State} (start : t.start = s.start) (line : t.line = s.line) :
    takesOffers t = takesOffers s := by
  rw [takesOffers, takesOffers, working, working, start, line]

theorem ownClear_eq (s : State) (r : DrillRecord) : rollElapsed r.roll[s.start.station] = ownClear s r := by
  unfold ownClear rollElapsed
  cases r.roll[s.start.station] <;> rfl

/-- The state frame of a move to ASSEMBLE (R166). -/
theorem toAssemble_queues {s : State} (r : DrillRecord) (stop : Option CampusTime) (h : s.drill.state = .evacuate)
    (room : HasRoom s) : Queued (toAssemble s r stop).line
      (.drillState ⟨r.id, r.start, r.sure, r.kind, true, ownClear s r, ownFaFlag s, stop⟩) := by
  have entered := assembleRaised_entered r stop h
  rw [toAssemble_eq]
  have content : stateContent (assembleRaised s r stop) (stopped r stop) =
      ⟨r.id, r.start, r.sure, r.kind, true, ownClear s r, ownFaFlag s, stop⟩ := by
    have start : (assembleRaised s r stop).start = s.start := entered.same .start (by decide)
    have image : (assembleRaised s r stop).image = s.image := entered.same .image (by decide)
    have pins : (assembleRaised s r stop).pins = s.pins := entered.same .pins (by decide)
    rw [← ownClear_eq]
    simp only [stateContent, stopped, ownFaFlag, entered.state, start, image, pins]
    rfl
  generalize assembleRaised s r stop = u at *
  have line : u.line = s.line := entered.same .line (by decide)
  have takes : takesOffers u = true := (takesOffers_congr (entered.same .start (by decide)) line).trans room.1
  obtain ⟨queued, later⟩ := offerState_queues entered.record (by rw [entered.state]; nofun) takes
    (.inl (by rw [line]; exact room.2))
  rw [content] at queued later
  obtain ⟨state, record, _⟩ := entered.offered
  by_cases hc : rollComplete r.roll = true
  · have same : stateContent (offerState u) (stopped r stop) = stateContent u (stopped r stop) := by
      have ev := (offerState_ev u).same
      refine stateContent_congr _ ?_ (ev .start (by decide)) (ev .image (by decide)) (ev .pins (by decide))
      rw [state, entered.state]
    rw [← content, ← same] at later ⊢
    exact allClearTest_queues ⟨record, state, hc⟩ ((offerState_takesOffers u).trans takes) later
  · rw [allClearTest_waits record fun k => hc k.2]
    exact queued

end Sys2Proof.Proofs
end

section
/-! SIGNAL STOP, BUILDING CLEAR, and the limits of a PRACTICE (R154, R166 to R170). -/

namespace Sys2Proof.Proofs

open Sys2Proof Sys2Proof.Machine Sys2Proof.Laws

/-! ## The limits of a PRACTICE (R154) -/

theorem measuresCampus_iff (s : State) (r : DrillRecord) :
    measuresCampus s r = true ↔ s.time.quality ≠ .unset ∧ r.sure = true := by
  simp only [measuresCampus, currentReading, Bool.and_eq_true, decide_eq_true_eq]

theorem campusReached_iff (now t : CampusTime) : campusReached now t = true ↔ 0 ≤ campusDiff now t := decide_eq_true_iff

theorem countAfter_reached (now : Count) (from_ : Count) (ms : Nat) :
    countReached now (countAfter from_ ms) = true ↔ (now - (from_ + BitVec.ofNat 32 ms)).toNat < 2147483648 :=
  decide_eq_true_iff

theorem deadlineReached_map (now : Count) (c : Option Count) (ms : Nat) :
    deadlineReached now (c.map fun c => countAfter c ms) = true ↔
      ∃ x, c = some x ∧ (now - (x + BitVec.ofNat 32 ms)).toNat < 2147483648 := by
  cases c with
  | none => exact ⟨nofun, nofun⟩
  | some c =>
    rw [deadlineReached, Option.map_some, Option.any_some, countAfter_reached]
    exact ⟨fun h => ⟨c, rfl, h⟩, fun ⟨_, e, h⟩ => by cases e; exact h⟩

theorem evacuationReached_iff (s : State) (r : DrillRecord) : evacuationReached s r = true ↔
    r.kind = .practice ∧ s.drill.state = .evacuate ∧
    (s.time.quality ≠ .unset ∧ r.sure = true →
      0 ≤ campusDiff s.time.campus (campusAdd r.start (1000 * (r.evacLimit : Int)))) ∧
    (¬ (s.time.quality ≠ .unset ∧ r.sure = true) →
      (s.time.localCount - (r.localStart + BitVec.ofNat 32 (1000 * r.evacLimit))).toNat < 2147483648) := by
  rw [← measuresCampus_iff, evacuationReached, Bool.and_eq_true, Bool.and_eq_true, decide_eq_true_eq,
    decide_eq_true_eq, and_assoc]
  split
  · next h => rw [campusReached_iff]; simp [h]
  · next h => rw [countAfter_reached]; simp [h]

theorem assembleReached_iff (s : State) (r : DrillRecord) : assembleReached s r = true ↔
    r.kind = .practice ∧ s.drill.state = .assemble ∧
    (∀ stop, s.time.quality ≠ .unset ∧ r.sure = true → r.stop = some stop →
      0 ≤ campusDiff s.time.campus (campusAdd stop (1000 * (r.assembleLimit : Int)))) ∧
    (¬ ((s.time.quality ≠ .unset ∧ r.sure = true) ∧ r.stop.isSome = true) → ∃ c, s.drill.assembleAt = some c ∧
      (s.time.localCount - (c + BitVec.ofNat 32 (1000 * r.assembleLimit))).toNat < 2147483648) := by
  rw [← measuresCampus_iff, assembleReached, Bool.and_eq_true, Bool.and_eq_true, decide_eq_true_eq,
    decide_eq_true_eq, and_assoc]
  split
  · next stop hm hs =>
    rw [campusReached_iff]
    simp [hm, hs]
  · next hn =>
    rw [deadlineReached_map]
    cases hm : measuresCampus s r with
    | false => simp
    | true =>
      cases hs : r.stop with
      | none => simp
      | some stop => exact absurd hs (hn stop hm)

theorem allClearReached_iff (s : State) (r : DrillRecord) : allClearReached s r = true ↔
    r.kind = .practice ∧ s.drill.state = .allClear ∧ ∃ c, s.drill.allClearAt = some c ∧
      (s.time.localCount - (c + BitVec.ofNat 32 (1000 * 120))).toNat < 2147483648 := by
  have ms : 120000 = 1000 * 120 := by decide
  rw [allClearReached, Bool.and_eq_true, Bool.and_eq_true, decide_eq_true_eq, decide_eq_true_eq, and_assoc, ms,
    deadlineReached_map]

/-! ## Panel commands of the drill (R166, R170) -/

theorem exec_signalStop {s : State} (ha : Active s) :
    exec .signalStop s = .next (answered (signalStopTake s).1 (signalStopTake s).2) :=
  congrArg Host.Outcome.next (panelTake_active ha _)

theorem exec_buildingClear {s : State} (ha : Active s) :
    exec .buildingClear s = .next (answered (buildingClearTake s).1 (buildingClearTake s).2) :=
  congrArg Host.Outcome.next (panelTake_active ha _)

theorem signalStopTake_idle {s : State} (h : s.drill.state = .idle) : signalStopTake s = (s, .refused .noDrill) := by
  unfold signalStopTake
  rw [h]

theorem signalStopTake_evacuate {s : State} {r : DrillRecord} (hr : s.drill.record = some r)
    (h : s.drill.state = .evacuate) : signalStopTake s = (toAssemble s r (stopNow s), done) := by
  unfold signalStopTake
  rw [h, hr]

theorem signalStopTake_later {s : State} {r : DrillRecord} (hr : s.drill.record = some r)
    (hi : s.drill.state ≠ .idle) (h : s.drill.state ≠ .evacuate) : signalStopTake s = (s, .refused .phase) := by
  unfold signalStopTake
  rw [hr]
  cases hs : s.drill.state with
  | idle => exact absurd hs hi
  | evacuate => exact absurd hs h
  | assemble | allClear => rfl

theorem buildingClearTake_idle {s : State} (h : s.drill.state = .idle) :
    buildingClearTake s = (s, .refused .noDrill) := by
  unfold buildingClearTake
  rw [h]

theorem buildingClearTake_allClear {s : State} {r : DrillRecord} (hr : s.drill.record = some r)
    (h : s.drill.state = .allClear) : buildingClearTake s = (s, .refused .phase) := by
  unfold buildingClearTake
  rw [h, hr]

theorem buildingClearTake_running {s : State} {r : DrillRecord} (hr : s.drill.record = some r)
    (hi : s.drill.state ≠ .idle) (h : s.drill.state ≠ .allClear) :
    buildingClearTake s = if (ownClear s r).isSome = true then (s, done) else (clearBuilding s r, done) := by
  unfold buildingClearTake
  rw [hr, ← ownClear_eq]
  cases hs : s.drill.state with
  | idle => exact absurd hs hi
  | allClear => exact absurd hs h
  | evacuate | assemble => rfl

theorem stopNow_eq (s : State) : stopNow s = if s.time.quality = .unset then none else some s.time.campus := by
  unfold stopNow currentReading
  by_cases h : s.time.quality = .unset
  · simp [h]
  · simp [h]

theorem clearElapsed_eq (s : State) (r : DrillRecord) : clearElapsed s r =
    if s.time.quality ≠ .unset ∧ r.sure = true then (campusDiff s.time.campus r.start).toNat
    else (s.time.localCount - r.localStart).toNat := by
  unfold clearElapsed
  simp only [measuresCampus_iff]
  rfl

/-! ## The evacuation deadline (R166) -/

theorem practiceIn_acts {s : State} {r : DrillRecord} (hr : s.drill.record = some r) {st : DrillState}
    (hk : r.kind = .practice) (hs : s.drill.state = st) (f : DrillRecord → State) : practiceIn s st f = f r := by
  unfold practiceIn
  rw [hr]
  exact if_pos ⟨hk, hs⟩

theorem practiceIn_waits {s : State} {st : DrillState}
    (h : ∀ r, s.drill.record = some r → ¬ (r.kind = .practice ∧ s.drill.state = st)) (f : DrillRecord → State) :
    practiceIn s st f = s := by
  unfold practiceIn
  cases hr : s.drill.record with
  | none => rfl
  | some r => exact if_neg (h r hr)

theorem exec_evacuationDeadline {s : State} (ha : Active s) : exec .evacuationDeadline s =
    .next (practiceIn s .evacuate fun r => toAssemble s r (stopNow s)) :=
  exec_whenWorking rfl ha

/-! ## The move answered -/

theorem assembled_answered {s t : State} {r : DrillRecord} (h : Assembled s t r) (x : Response) :
    Assembled s (answered t x) r := by
  obtain ⟨state, at_, complete, incomplete, gens, flag, notice, same⟩ := h
  exact ⟨state, at_, complete, incomplete, gens, flag, notice,
    changes_trans same (changes_mono (answered_changes t x))⟩

/-! ## The own building reported clear (R170) -/

/-- The record with a roll entry written (R170). -/
def rollWritten (r : DrillRecord) (p : StationNo) (e : RollEntry) : DrillRecord := { r with roll := r.roll.set p e }

theorem setRoll_eq (s : State) (r : DrillRecord) (p : StationNo) (e : RollEntry) :
    setRoll s r p e = raise (setRecord s (some (rollWritten r p e))) .rollChange := rfl

theorem setRoll_drill (s : State) (r : DrillRecord) (p : StationNo) (e : RollEntry) :
    (setRoll s r p e).drill = { s.drill with record := some (rollWritten r p e) } := by
  rw [setRoll_eq, (raise_ev _ _).same .drill (by decide)]
  rfl

theorem setRoll_pending {s : State} (r : DrillRecord) (p : StationNo) (e : RollEntry) (ht : Taking s) :
    Pending (setRoll s r p e) .rollChange := by
  rw [setRoll_eq]
  exact (raise_pending _ _ _).mpr (.inl ⟨ht, rfl⟩)

theorem setRoll_content {s : State} (r : DrillRecord) (e : Nat) :
    stateContent (setRoll s r s.start.station (.cleared e)) (rollWritten r s.start.station (.cleared e)) =
      ⟨r.id, r.start, r.sure, r.kind, decide (s.drill.state ≠ .evacuate), some e, ownFaFlag s, r.stop⟩ := by
  have ev := (setRoll_ev s r s.start.station (.cleared e)).same
  have same : stateContent (setRoll s r s.start.station (.cleared e)) (rollWritten r s.start.station (.cleared e)) =
      stateContent s (rollWritten r s.start.station (.cleared e)) := by
    refine stateContent_congr _ ?_ (ev .start (by decide)) (ev .image (by decide)) (ev .pins (by decide))
    rw [setRoll_drill]
  rw [same]
  simp [stateContent, rollWritten, rollElapsed]

/-- From s to t the own building is reported clear in the record r, with this clear elapsed time. -/
structure BuildingCleared (s t : State) (r : DrillRecord) (e : Nat) : Prop where
  record : t.drill.record = some (rollWritten r s.start.station (.cleared e))
  entered : s.drill.state = .assemble → rollComplete (rollWritten r s.start.station (.cleared e)).roll = true →
    t.drill.state = .allClear ∧ AllClearClaimed s.image s.time.localCount s.arb t.arb
  waits : ¬ (s.drill.state = .assemble ∧ rollComplete (rollWritten r s.start.station (.cleared e)).roll = true) →
    t.drill.state = s.drill.state ∧ t.arb = s.arb
  notice : Taking s → Pending t .rollChange
  queued : HasRoom s → Queued t.line (.drillState
    ⟨r.id, r.start, r.sure, r.kind, decide (s.drill.state ≠ .evacuate), some e, ownFaFlag s, r.stop⟩)
  same : Changes drillFields s t

theorem clearBuilding_eq (s : State) (r : DrillRecord) : clearBuilding s r =
    allClearTest (offerState (setRoll s r s.start.station (.cleared (clearElapsed s r)))) := rfl

/-- The state frame and the ALL-CLEAR test after a roll entry is written (R160, R169): from s to t, where u holds the
record r. -/
structure RollSettled (u t : State) (r : DrillRecord) : Prop where
  record : t.drill.record = some r
  entered : TestPasses u r → t.drill.state = .allClear ∧ AllClearClaimed u.image u.time.localCount u.arb t.arb
  waits : ¬ (u.drill.state = .assemble ∧ rollComplete r.roll = true) → t.drill.state = u.drill.state ∧ t.arb = u.arb
  bank : TimeBankStays u t
  queued : takesOffers u = true → RoomFor u.line (.drillState (stateContent u r)) →
    Queued t.line (.drillState (stateContent u r))

theorem rollSettled_of_offer {u : State} {r : DrillRecord} (hr : u.drill.record = some r) (hi : u.drill.state ≠ .idle) :
    RollSettled u (allClearTest (offerState u)) r := by
  obtain ⟨state, record, _⟩ := offerState_keeps u
  have ev := (offerState_ev u).same
  have arb : (offerState u).arb = u.arb := ev .arb (by decide)
  have image : (offerState u).image = u.image := ev .image (by decide)
  by_cases h : u.drill.state = .assemble ∧ rollComplete r.roll = true
  · have passes : TestPasses (offerState u) r := ⟨record.trans hr, state.trans h.1, h.2⟩
    have entered := allClearTest_enters passes
    have claimed := entered.claimed
    rw [image, offerState_localCount, arb] at claimed
    refine ⟨entered.record.trans passes.record, fun _ => ⟨entered.state, claimed⟩, fun k => absurd h k,
      (offerState_stays u).trans entered.bank, fun ht room => ?_⟩
    have content : stateContent (offerState u) r = stateContent u r :=
      stateContent_congr r (by rw [state]) (ev .start (by decide)) (ev .image (by decide)) (ev .pins (by decide))
    have later := (offerState_queues hr hi ht room).2
    rw [← content] at later ⊢
    exact allClearTest_queues passes ((offerState_takesOffers u).trans ht) later
  · have waits : allClearTest (offerState u) = offerState u :=
      allClearTest_waits (record.trans hr) (by rw [state]; exact h)
    rw [waits]
    exact ⟨record.trans hr, fun k => absurd ⟨k.state, k.roll⟩ h, fun _ => ⟨state, arb⟩, offerState_stays u,
      fun ht room => (offerState_queues hr hi ht room).1⟩

theorem clearBuilding_cleared {s : State} (r : DrillRecord) (hi : s.drill.state ≠ .idle) :
    BuildingCleared s (clearBuilding s r) r (clearElapsed s r) := by
  have frame : Changes drillFields s (clearBuilding s r) := (clearBuilding_ev s r).same
  rw [clearBuilding_eq] at frame ⊢
  generalize clearElapsed s r = e at *
  have drill := setRoll_drill s r s.start.station (.cleared e)
  have pending := setRoll_pending (s := s) r s.start.station (.cleared e)
  have content := setRoll_content (s := s) r e
  have ev := (setRoll_ev s r s.start.station (.cleared e)).same
  have line : (setRoll s r s.start.station (.cleared e)).line = s.line := ev .line (by decide)
  have takes := takesOffers_congr (ev .start (by decide)) line
  have image : (setRoll s r s.start.station (.cleared e)).image = s.image := ev .image (by decide)
  have arb : (setRoll s r s.start.station (.cleared e)).arb = s.arb := ev .arb (by decide)
  have time : (setRoll s r s.start.station (.cleared e)).time = s.time := ev .time (by decide)
  generalize setRoll s r s.start.station (.cleared e) = u at *
  have state : u.drill.state = s.drill.state := by rw [drill]
  have record : u.drill.record = some (rollWritten r s.start.station (.cleared e)) := by rw [drill]
  have settled := rollSettled_of_offer record (by rw [state]; exact hi)
  obtain ⟨record', entered, waits, bank, queued⟩ := settled
  rw [content, line, takes] at queued
  rw [image, time, arb] at entered
  rw [state, arb] at waits
  exact ⟨record', fun h k => entered ⟨record, state.trans h, k⟩, waits, fun ht => bank.pending _ (pending ht),
    fun room => queued room.1 (.inl room.2), frame⟩

/-! ## The obligation -/

theorem signalStop_moves {s : State} {r : DrillRecord} (h : s.drill.state = .evacuate) :
    let t := toAssemble s r (stopNow s)
    Assembled s t r ∧ t.drill.record = some (stopped r (stopNow s)) ∧ (HasRoom s → Queued t.line
      (.drillState ⟨r.id, r.start, r.sure, r.kind, true, ownClear s r, ownFaFlag s, stopNow s⟩)) := by
  obtain ⟨assembled, record⟩ := toAssemble_assembled r (stopNow s) h
  exact ⟨assembled, record, toAssemble_queues r _ h⟩

theorem toAssemble_port (s : State) (r : DrillRecord) (stop : Option CampusTime) :
    (toAssemble s r stop).port = s.port := (toAssemble_ev s r stop).same .port (by decide)

theorem clearBuilding_port (s : State) (r : DrillRecord) : (clearBuilding s r).port = s.port :=
  (clearBuilding_ev s r).same .port (by decide)

theorem ownClear_isSome {s : State} {r : DrillRecord} : (ownClear s r).isSome = true ↔ ownClear s r ≠ none :=
  Option.isSome_iff_ne_none

/-- Settles O49: the moves by SIGNAL STOP, by the evacuation deadline and by BUILDING CLEAR, the test of the roll, and
the limits of a PRACTICE. -/
theorem phasesOfADrill : Obligations.PhasesOfADrill := by
  intro s ha
  refine ⟨rollComplete_iff, fun r => ⟨evacuationReached_iff s r, assembleReached_iff s r, allClearReached_iff s r⟩,
    fun hi => ⟨?_, ?_, ?_⟩, fun r hi hr => ?_⟩
  · rw [exec_signalStop ha, signalStopTake_idle hi]
  · rw [exec_buildingClear ha, buildingClearTake_idle hi]
  · rw [exec_evacuationDeadline ha, practiceIn_waits fun _ _ k => by rw [hi] at k; exact nomatch k.2]
  dsimp only
  rw [← stopNow_eq, ← clearElapsed_eq]
  refine ⟨fun h => ?_, fun h => ?_, fun h hk => ?_, fun h => ?_, fun h => ?_, fun h hc => ?_, fun h hc => ?_⟩
  · rw [exec_signalStop ha, signalStopTake_later hr hi h]
  · obtain ⟨assembled, record, queued⟩ := signalStop_moves (r := r) h
    refine ⟨_, exec_signalStop ha, ?_⟩
    rw [signalStopTake_evacuate hr h]
    exact ⟨⟨assembled_answered assembled _, record, queued⟩, answered_port (toAssemble_port s r _) _⟩
  · rw [exec_evacuationDeadline ha, practiceIn_acts hr hk h]
    exact ⟨_, rfl, signalStop_moves h, toAssemble_port s r _⟩
  · rw [exec_evacuationDeadline ha, practiceIn_waits]
    intro q hq ⟨practice, evacuate⟩
    obtain other | real := h
    · exact other evacuate
    · rw [Option.some.inj (hr.symm.trans hq), practice] at real
      exact nomatch real
  · rw [exec_buildingClear ha, buildingClearTake_allClear hr h]
  · rw [exec_buildingClear ha, buildingClearTake_running hr hi h, if_pos (ownClear_isSome.mpr hc)]
    rfl
  · obtain ⟨record, entered, waits, notice, queued, same⟩ := clearBuilding_cleared r hi
    refine ⟨_, exec_buildingClear ha, ?_⟩
    rw [buildingClearTake_running hr hi h, if_neg fun k => ownClear_isSome.mp k hc]
    refine ⟨answered_port (clearBuilding_port s r) _, record, ?_, fun h k => (entered h k).2, fun k => (waits k).2,
      notice, queued, changes_trans (changes_mono same) (changes_mono (answered_changes _ _))⟩
    split
    · next k => exact (entered k.1 k.2).1
    · next k => exact (waits k).1

end Sys2Proof.Proofs
end

section
/-! When a station may begin its head frame (R32, R35, R42). -/

namespace Sys2Proof.Proofs

open Sys2Proof Sys2Proof.Machine Sys2Proof.Laws

theorem mayContend_iff (s : State) : mayContend s = true ↔ s.start.opState = .run ∧ s.line.listenOnly = false ∧
    s.line.activity = .idle ∧ s.line.queue ≠ [] := by
  simp [mayContend, inRun, and_assoc]

theorem beginAttempt_cons {l : LineUnit} {e : TxEntry} {rest : List TxEntry} (h : l.queue = e :: rest) :
    beginAttempt l = { l with
      queue := { e with inFlight := true } :: rest
      activity := .sending
      quiet := 0 } := by
  unfold beginAttempt
  rw [h]

theorem bodyClass_two_le_iff (b : FrameBody) : 2 ≤ bodyClass b ↔ bodyClass b = 2 ∨ bodyClass b = 3 := by
  have := bodyClass_le b
  omega

theorem exec_contentionInstant_begins {s : State} (ha : alive s = true) (h : mayContend s = true) :
    exec .contentionInstant s = .next (s.withLine { beginAttempt s.line with stuckFrom := s.time.localCount }) :=
  congrArg Host.Outcome.next (if_pos (by rw [ha, h]; rfl))

theorem exec_contentionInstant_waits {s : State} (h : ¬ mayContend s = true) : exec .contentionInstant s = .next s :=
  congrArg Host.Outcome.next (if_neg fun k => h (Bool.and_eq_true_iff.mp k).2)

/-- Settles O16: the contention instant as a sum, and the head frame put in flight where contention is allowed. -/
theorem contentionBeginsTheHeadFrame : Obligations.ContentionBeginsTheHeadFrame := by
  refine ⟨fun l st b => ?_, fun s e rest hr listen idle queue => ?_, fun s h => ?_⟩
  · simp only [contentionAt, bodyClass_two_le_iff]
    rfl
  · have run : s.start.opState = .run := of_decide_eq_true hr.2
    have contends : mayContend s = true := (mayContend_iff s).mpr ⟨run, listen, idle, by rw [queue]; exact nofun⟩
    rw [exec_contentionInstant_begins hr.1 contends, beginAttempt_cons queue]
  · refine exec_contentionInstant_waits fun contends => ?_
    obtain ⟨run, listen, idle, queue⟩ := (mayContend_iff s).mp contends
    obtain h | h | h | h := h
    · exact h run
    · exact Bool.false_ne_true (listen.symm.trans h)
    · exact h idle
    · exact queue h

end Sys2Proof.Proofs
end

section
/-! The serve cursor (R75): which fragments it offers, and what becomes of them. -/

namespace Sys2Proof.Proofs

open Sys2Proof Sys2Proof.Machine Sys2Proof.Laws

/-! ## A PLAN frame in the queue -/

theorem queueInsert_last {q : List TxEntry} {e : TxEntry} (h : bodyClass e.body = 3) : queueInsert q e = q ++ [e] := by
  have all : ∀ x ∈ q, decide (bodyClass x.body ≤ bodyClass e.body) = true := fun x _ =>
    decide_eq_true (h ▸ bodyClass_le x.body)
  unfold queueInsert
  rw [List.takeWhile_eq_self_iff.mpr all, List.dropWhile_eq_nil_iff.mpr all]

theorem not_evictable_of_class_three {b : FrameBody} (h : bodyClass b = 3) (e : TxEntry) : evictable b e = false := by
  have := bodyClass_le e.body
  simp [evictable, h, this]

theorem offerNew_room {l : LineUnit} (h : l.queue.length < 12) (b : FrameBody) :
    offerNew l b = ⟨{ l with queue := queueInsert l.queue (newEntry b) }, []⟩ := if_pos h

theorem offerNew_refused {l : LineUnit} {b : FrameBody} (h : ¬ l.queue.length < 12)
    (he : ∀ e ∈ l.queue, evictable b e = false) : offerNew l b = ⟨l, [(b, .refused)]⟩ := by
  have last : l.queue.reverse.find? (evictable b) = none :=
    List.find?_eq_none.mpr fun e hm => by simp [he e (List.mem_reverse.mp hm)]
  unfold offerNew queueMax
  rw [if_neg h, last]

/-! ## The fragments that wait to be served -/

/-- The set fragments that are not queued, lowest first (R75). -/
def servable (p : PlanUnit) : List Nat := (List.range 48).filter fun i => p.serve.getLsbD i && !p.queued.contains i

theorem nextToServe_eq (p : PlanUnit) : nextToServe p = (servable p).head? := (List.head?_filter ..).symm

theorem servable_queued {p : PlanUnit} {i : Nat} {rest : List Nat} (h : servable p = i :: rest) :
    servable { p with queued := p.queued ++ [i] } = rest := by
  have nodup : (i :: rest).Nodup := h ▸ List.nodup_range.filter _
  have less : servable { p with queued := p.queued ++ [i] } = (servable p).filter fun j => decide (j ≠ i) := by
    unfold servable
    rw [List.filter_filter]
    refine List.filter_congr fun j _ => ?_
    by_cases hj : j = i <;> simp [hj]
  have rest_ne : ∀ j ∈ rest, decide (j ≠ i) = true := fun j hj =>
    decide_eq_true fun e => (List.nodup_cons.mp nodup).1 (e ▸ hj)
  rw [less, h, List.filter_cons_of_neg (by simp), List.filter_eq_self.mpr rest_ne]

/-! ## One offer of the cursor -/

/-- A fragment has been queued by the cursor. -/
def fragmentQueued (s : State) (a : ActivePlan) (i : Nat) : State :=
  (s.withLine { s.line with queue := s.line.queue ++ [newEntry (planBody a i)] }).withPlan
    { s.plan with queued := s.plan.queued ++ [i] }

/-- The queue had no room for a fragment of the cursor. -/
def cursorRefused (s : State) : State :=
  report (s.withPlan { s.plan with pausedUntil := some (countAfter s.time.localCount servePauseMs) })
    (.queueOverflow .plan)

/-- The cursor may offer: an active plan, no pause, and the station takes offers. -/
structure CursorOpen (s : State) (a : ActivePlan) : Prop where
  active : s.plan.active = some a
  unpaused : s.plan.pausedUntil = none
  takes : takesOffers s = true

theorem cursorStep_offers {s : State} {a : ActivePlan} {i : Nat} {rest : List Nat} (h : CursorOpen s a)
    (hi : servable s.plan = i :: rest) (hq : s.plan.queued.length < 2) :
    cursorStep s = if s.line.queue.length < 12 then fragmentQueued s a i else cursorRefused s := by
  have next : nextToServe s.plan = some i := by rw [nextToServe_eq, hi]; rfl
  unfold cursorStep
  rw [h.active, next]
  dsimp only
  rw [if_pos ⟨by rw [h.unpaused]; rfl, hq, h.takes⟩]
  by_cases room : s.line.queue.length < 12
  · rw [offerNew_room room, queueInsert_last (e := newEntry (planBody a i)) rfl, if_pos room]
    rfl
  · rw [offerNew_refused room fun e _ => not_evictable_of_class_three (b := planBody a i) rfl e, if_neg room]
    rfl

theorem cursorStep_done {s : State} (h : servable s.plan = [] ∨ 2 ≤ s.plan.queued.length) : cursorStep s = s := by
  unfold cursorStep
  split
  · next a i _ next =>
    refine if_neg fun k => ?_
    obtain h | h := h
    · rw [nextToServe_eq, h] at next
      cases next
    · exact Nat.not_lt.mpr h k.2.1
  · rfl

theorem cursorStep_closed {s : State} (h : s.plan.active = none ∨ s.plan.pausedUntil ≠ none ∨ takesOffers s = false) :
    cursorStep s = s := by
  unfold cursorStep
  split
  · next a _ active _ =>
    refine if_neg fun ⟨unpaused, _, takes⟩ => ?_
    obtain h | h | h := h
    · rw [active] at h
      cases h
    · exact h (Option.isNone_iff_eq_none.mp unpaused)
    · exact Bool.false_ne_true (h.symm.trans takes)
  · rfl

/-! ## A run of the cursor -/

/-- From s to t the cursor has offered these fragments, as `CursorRan` has it. -/
def Served (s t : State) (a : ActivePlan) (offered : List Nat) : Prop :=
  let taken := offered.take (12 - s.line.queue.length)
  t.line = { s.line with queue := s.line.queue ++ taken.map fun i => newEntry (planBody a i) } ∧
  t.plan = { s.plan with
    queued := s.plan.queued ++ taken
    pausedUntil := if taken.length < offered.length then some (s.time.localCount + 1000#32) else none } ∧
  t.faults = if taken.length < offered.length then (report s (.queueOverflow .plan)).faults else s.faults

theorem served_nil {s : State} {a : ActivePlan} (h : s.plan.pausedUntil = none) : Served s s a [] := by
  refine ⟨?_, ?_, rfl⟩
  · simp
  · simp only [List.take_nil, List.append_nil, List.length_nil, Nat.lt_irrefl, if_false, ← h]

theorem served_full {s : State} {a : ActivePlan} {i : Nat} {rest : List Nat} (h : ¬ s.line.queue.length < 12) :
    Served s (cursorRefused s) a (i :: rest) := by
  have none_taken : (i :: rest).take (12 - s.line.queue.length) = [] := by
    rw [Nat.sub_eq_zero_of_le (Nat.not_lt.mp h), List.take_zero]
  unfold Served
  dsimp only
  have fewer : ([] : List Nat).length < (i :: rest).length := Nat.succ_pos _
  rw [none_taken, if_pos fewer, if_pos fewer, List.map_nil, List.append_nil, List.append_nil]
  exact ⟨rfl, rfl, rfl⟩

theorem served_cons {s t : State} {a : ActivePlan} {i : Nat} {rest : List Nat} (h : s.line.queue.length < 12)
    (k : Served (fragmentQueued s a i) t a rest) : Served s t a (i :: rest) := by
  have length : (fragmentQueued s a i).line.queue.length = s.line.queue.length + 1 := by
    simp [fragmentQueued, State.withLine, State.withPlan]
  obtain ⟨n, hn⟩ : ∃ n, 12 - s.line.queue.length = n + 1 := ⟨11 - s.line.queue.length, by omega⟩
  have fewer : 12 - (fragmentQueued s a i).line.queue.length = n := by omega
  obtain ⟨line, plan, faults⟩ := k
  rw [fewer] at line plan faults
  unfold Served
  dsimp only
  rw [hn, List.take_succ_cons]
  simp only [List.length_cons, Nat.add_lt_add_iff_right, List.map_cons]
  refine ⟨line.trans ?_, plan.trans ?_, faults⟩
  · simp [fragmentQueued, State.withLine, State.withPlan]
  · simp [fragmentQueued, State.withLine, State.withPlan]

/-- So many offers of the cursor. -/
def cursorSteps : Nat → State → State
  | 0, s => s
  | n + 1, s => cursorSteps n (cursorStep s)

theorem cursorSteps_same {s : State} (h : cursorStep s = s) (n : Nat) : cursorSteps n s = s := by
  induction n with
  | zero => rfl
  | succ n ih => rw [cursorSteps, h, ih]

/-- The cursor offers the lowest fragments, as many as its steps and its limit of two queued ones allow. -/
theorem cursorSteps_served {a : ActivePlan} (n : Nat) {s : State} (h : CursorOpen s a) :
    Served s (cursorSteps n s) a ((servable s.plan).take (min n (2 - s.plan.queued.length))) := by
  induction n generalizing s with
  | zero => rw [Nat.zero_min, List.take_zero]; exact served_nil h.unpaused
  | succ n ih =>
    by_cases hq : s.plan.queued.length < 2
    · cases hi : servable s.plan with
      | nil =>
        rw [cursorSteps_same (cursorStep_done (.inl hi)), List.take_nil]
        exact served_nil h.unpaused
      | cons i rest =>
        obtain ⟨m, hm⟩ : ∃ m, min (n + 1) (2 - s.plan.queued.length) = m + 1 :=
          ⟨min n (1 - s.plan.queued.length), by omega⟩
        rw [hm, List.take_succ_cons, cursorSteps, cursorStep_offers h hi hq]
        by_cases room : s.line.queue.length < 12
        · rw [if_pos room]
          have later := ih (s := fragmentQueued s a i) ⟨h.active, h.unpaused, h.takes⟩
          have length : (fragmentQueued s a i).plan.queued.length = s.plan.queued.length + 1 := List.length_append
          have fewer : min n (2 - (fragmentQueued s a i).plan.queued.length) = m := by omega
          rw [fewer, show servable (fragmentQueued s a i).plan = rest from servable_queued hi] at later
          exact served_cons room later
        · rw [if_neg room, cursorSteps_same (cursorStep_closed (.inr (.inl (Option.some_ne_none _))))]
          exact served_full room
    · rw [cursorSteps_same (cursorStep_done (.inr (Nat.not_lt.mp hq))), Nat.sub_eq_zero_of_le (Nat.not_lt.mp hq),
        Nat.min_zero, List.take_zero]
      exact served_nil h.unpaused

/-- What a run of the serve cursor does (R75). -/
theorem runCursor_ran (s : State) : CursorRan s (runCursor s) := by
  refine ⟨fun a active unpaused takes => ?_, fun closed => ?_⟩
  · have served := cursorSteps_served 2 ⟨active, unpaused, takes⟩
    rw [Nat.min_eq_right (Nat.sub_le 2 _)] at served
    exact served
  · have same := cursorStep_closed closed
    unfold runCursor
    rw [same, same]
    exact ⟨rfl, rfl, rfl⟩

end Sys2Proof.Proofs
end

section
/-! What the transmit queue does with an offered frame, and what its owners do with the outcome (R38 to R42). -/

namespace Sys2Proof.Proofs

open Sys2Proof Sys2Proof.Machine Sys2Proof.Laws

/-! ## A frame of a sort in the queue -/

theorem find_sort_none {q : List TxEntry} {b : FrameBody} (h : ∀ e ∈ q, sameSort b e.body = false) :
    q.find? (fun e => sameSort b e.body) = none :=
  List.find?_eq_none.mpr fun e he => by simp [h e he]

/-- The queue holds one frame of a sort at most. -/
theorem others_of_sort {pre post : List TxEntry} {e : TxEntry} {b : FrameBody}
    (h : (pre ++ e :: post).Pairwise queuedBefore) (hs : sameSort b e.body = true) :
    (∀ x ∈ pre, sameSort b x.body = false) ∧ ∀ x ∈ post, sameSort b x.body = false := by
  have shape := (sameSort_shape hs).2
  obtain ⟨_, after, before⟩ := List.pairwise_append.mp h
  refine ⟨fun x hx => ?_, fun x hx => ?_⟩
  · rw [(shape x.body).1, sameSort_symm]
    exact (before x hx e List.mem_cons_self).2
  · rw [(shape x.body).1]
    exact ((List.pairwise_cons.mp after).1 x hx).2

theorem find_sort {pre post : List TxEntry} {e : TxEntry} {b : FrameBody}
    (h : (pre ++ e :: post).Pairwise queuedBefore) (hs : sameSort b e.body = true) :
    (pre ++ e :: post).find? (fun e => sameSort b e.body) = some e := by
  rw [List.find?_append, find_sort_none (others_of_sort h hs).1,
    List.find?_cons_of_pos (p := fun e : TxEntry => sameSort b e.body) hs]
  rfl

theorem replaceSort_of_other {q : List TxEntry} {b : FrameBody} (h : ∀ e ∈ q, sameSort b e.body = false) :
    replaceSort q b = q := by
  refine (List.map_congr_left fun e he => ?_).trans (List.map_id q)
  rw [h e he]
  rfl

theorem replaceSort_at {pre post : List TxEntry} {e : TxEntry} {b : FrameBody}
    (h : (pre ++ e :: post).Pairwise queuedBefore) (hs : sameSort b e.body = true) :
    replaceSort (pre ++ e :: post) b = pre ++ newEntry b :: post := by
  obtain ⟨before, after⟩ := others_of_sort h hs
  have split : replaceSort (pre ++ e :: post) b =
      replaceSort pre b ++ (if sameSort b e.body then newEntry b else e) :: replaceSort post b := List.map_append
  rw [split, if_pos hs, replaceSort_of_other before, replaceSort_of_other after]

/-! ## A frame of no sort, or the first of its sort -/

/-- The first frame that an insertion stands before, and so all after it, are less urgent. -/
theorem dropWhile_less_urgent {q : List TxEntry} (n : Nat) (h : q.Pairwise queuedBefore) :
    ∀ x ∈ q.dropWhile (fun x => decide (bodyClass x.body ≤ n)), n < bodyClass x.body := by
  have sorted := h.sublist (List.dropWhile_sublist fun x : TxEntry => decide (bodyClass x.body ≤ n))
  have first := List.head?_dropWhile_not (fun x : TxEntry => decide (bodyClass x.body ≤ n)) q
  generalize q.dropWhile (fun x => decide (bodyClass x.body ≤ n)) = rest at sorted first ⊢
  cases rest with
  | nil => exact nofun
  | cons y rest =>
    have least : n < bodyClass y.body := by simpa using first
    intro x hx
    obtain rfl | hx := List.mem_cons.mp hx
    · exact least
    · exact Nat.lt_of_lt_of_le least ((List.pairwise_cons.mp sorted).1 x hx).1

theorem eraseLast_at {α : Type} {p : α → Bool} {pre post : List α} {e : α} (he : p e = true)
    (h : ∀ x ∈ post, p x = false) : eraseLast p (pre ++ e :: post) = pre ++ post := by
  unfold eraseLast
  have none_after : ∀ x ∈ post.reverse, ¬ p x = true := fun x hx => by simp [h x (List.mem_reverse.mp hx)]
  rw [List.reverse_append, List.reverse_cons, List.append_assoc, List.singleton_append,
    List.eraseP_append_right _ none_after, List.eraseP_cons_of_pos he]
  simp

theorem offerNew_evicts {l : LineUnit} {b : FrameBody} {pre post : List TxEntry} {e : TxEntry}
    (hl : ¬ l.queue.length < 12) (hq : l.queue = pre ++ e :: post) (he : evictable b e = true)
    (h : ∀ x ∈ post, evictable b x = false) : offerNew l b =
      ⟨{ l with queue := queueInsert (pre ++ post) (newEntry b) }, [(e.body, .evicted)]⟩ := by
  have none_after : post.reverse.find? (evictable b) = none :=
    List.find?_eq_none.mpr fun x hx => by simp [h x (List.mem_reverse.mp hx)]
  have last : l.queue.reverse.find? (evictable b) = some e := by
    rw [hq, List.reverse_append, List.reverse_cons, List.append_assoc, List.singleton_append, List.find?_append,
      none_after, List.find?_cons_of_pos he]
    rfl
  unfold offerNew queueMax
  rw [if_neg hl, last]
  dsimp only
  rw [hq, eraseLast_at he h]

theorem lineOffer_new {l : LineUnit} {b : FrameBody} (h : ∀ e ∈ l.queue, sameSort b e.body = false) :
    lineOffer l b = offerNew l b := by
  unfold lineOffer
  rw [find_sort_none h]

/-- A frame that is refused is the offered one, and leaves the line as it is. -/
theorem lineOffer_of_refused {l : LineUnit} {b a : FrameBody} (h : (lineOffer l b).told = [(a, .refused)]) :
    (lineOffer l b).line = l ∧ a = b := by
  unfold lineOffer at h ⊢
  split at h
  · split at h
    · cases held : heldFor l b with
      | none => rw [held] at h; cases h
      | some x => rw [held] at h; cases h
    · cases h
  · unfold offerNew at h ⊢
    split at h
    · cases h
    · next full =>
      split at h
      · cases h
      · rw [if_neg full]
        cases h
        exact ⟨rfl, rfl⟩

/-! ## What the owners do with an outcome -/

/-- The copies of a set after an outcome that counts as sent: the next is due 2 s from now, and none is left after the
third (R26). -/
def settimeSpaced (t : TimeUnit) (k : Key) : Option SetCopies :=
  t.setCopies.bind fun c =>
    if c.key = k then (if c.offered < 3 then some { c with nextAt := some (t.localCount + 2000#32) } else none)
    else some c

theorem toldSettime_spaced (t : TimeUnit) (k : Key) {o : TxOutcome} (h : countsAsSent o = true) :
    toldSettime t k o = { t with setCopies := settimeSpaced t k } := by
  unfold toldSettime settimeSpaced
  cases hc : t.setCopies with
  | none => dsimp only; rw [Option.bind_none, ← hc]
  | some c =>
    simp only [h, true_and, Option.bind_some]
    split
    · split <;> rfl
    · rw [← hc]

theorem toldSettime_ended (t : TimeUnit) (k : Key) : toldSettime t k .discarded =
    { t with setCopies := t.setCopies.filter fun c => decide (c.key ≠ k) } := by
  unfold toldSettime
  cases hc : t.setCopies with
  | none => dsimp only; rw [Option.filter_none, ← hc]
  | some c =>
    by_cases hk : c.key = k
    · simp [hk, countsAsSent, Option.filter]
    · have kept : (some c).filter (fun c => decide (c.key ≠ k)) = some c := by simp [Option.filter, hk]
      rw [kept]
      exact (if_neg hk).trans (by rw [← hc])

/-- The END copies after an outcome of one that counts as sent: the next of its drill is due 4 s from now, and none is
left after the third (R161). -/
def endSpaced (d : DrillUnit) (now : Count) (i : Id) (start : CampusTime) : List EndCopies :=
  d.copies.filterMap fun c =>
    if c.drill.id = i ∧ c.drill.start = start then
      (if c.offered < 3 then some { c with nextAt := some (now + 4000#32) } else none)
    else some c

theorem toldEnd_spaced (d : DrillUnit) (now : Count) (i : Id) (start : CampusTime) {o : TxOutcome}
    (h : countsAsSent o = true) : toldEnd d now i start o = { d with copies := endSpaced d now i start } := by
  unfold toldEnd endSpaced
  simp only [h, true_and]
  rfl

theorem toldEnd_ended (d : DrillUnit) (now : Count) (i : Id) (start : CampusTime) :
    toldEnd d now i start .discarded = { d with
      copies := d.copies.filter fun c => !(decide (c.drill.id = i) && decide (c.drill.start = start)) } := by
  unfold toldEnd
  rw [← List.filterMap_eq_filter]
  congr 2
  funext c
  by_cases hi : c.drill.id = i <;> by_cases hs : c.drill.start = start <;> simp [hi, hs, countsAsSent, Option.guard]

/-- The Plan Unit counts this fragment of its active plan as queued (R75). -/
def CountsFragment (s : State) (k : Key) (i : Nat) : Prop := s.plan.active.map (·.key) = some k ∧ i ∈ s.plan.queued

/-- The Plan Unit without a fragment counted as queued. -/
def fragmentGone (s : State) (i : Nat) : PlanUnit :=
  { s.plan with queued := s.plan.queued.filter fun j => decide (j ≠ i) }

theorem toldPlan_uncounted {s : State} {k : Key} {i : Nat} (h : ¬ CountsFragment s k i) (o : TxOutcome) :
    toldPlan s k i o = s :=
  if_neg fun x => h ⟨x.1, List.contains_iff_mem.mp x.2⟩

theorem CountsFragment.contains {s : State} {k : Key} {i : Nat} (h : CountsFragment s k i) :
    s.plan.active.map (·.key) = some k ∧ s.plan.queued.contains i = true :=
  ⟨h.1, List.contains_iff_mem.mpr h.2⟩

theorem toldPlan_of_sent {s : State} {k : Key} {i : Nat} (h : CountsFragment s k i) : toldPlan s k i .sent =
    runCursor (s.withPlan { fragmentGone s i with serve := s.plan.serve &&& ~~~(1#48 <<< i) }) := if_pos h.contains

theorem toldPlan_of_dropped {s : State} {k : Key} {i : Nat} (h : CountsFragment s k i) :
    toldPlan s k i .dropped = runCursor (s.withPlan (fragmentGone s i)) := if_pos h.contains

theorem toldPlan_of_evicted {s : State} {k : Key} {i : Nat} (h : CountsFragment s k i) :
    toldPlan s k i .evicted = runCursor (s.withPlan (fragmentGone s i)) := if_pos h.contains

theorem toldPlan_of_refused {s : State} {k : Key} {i : Nat} (h : CountsFragment s k i) : toldPlan s k i .refused =
    s.withPlan { fragmentGone s i with pausedUntil := some (s.time.localCount + 1000#32) } := if_pos h.contains

theorem toldPlan_of_discarded {s : State} {k : Key} {i : Nat} (h : CountsFragment s k i) :
    toldPlan s k i .discarded = s.withPlan (fragmentGone s i) := if_pos h.contains

/-- An owner that keeps no count of its frames does nothing with an outcome. -/
theorem told_other {s : State} {b : FrameBody} (hs : ∀ k d, b ≠ .settime k d) (he : ∀ i start x, b ≠ .drillEnd i start x true)
    (hp : ∀ k i n content, b ≠ .plan k i n content) (o : TxOutcome) : told s b o = s := by
  unfold told
  split
  · exact absurd rfl (hs _ _)
  · exact absurd rfl (he _ _ _)
  · exact absurd rfl (hp _ _ _ _)
  · rfl

theorem told_refused_keeps (s : State) (b : FrameBody) :
    (told s b .refused).line = s.line ∧ (told s b .refused).faults = s.faults := by
  unfold told
  split
  · exact ⟨rfl, rfl⟩
  · exact ⟨rfl, rfl⟩
  · unfold toldPlan
    split <;> exact ⟨rfl, rfl⟩
  · exact ⟨rfl, rfl⟩

/-! ## An offer -/

theorem takesOffers_iff (s : State) : takesOffers s = true ↔
    (s.start.opState = .join ∨ s.start.opState = .run) ∧ s.line.listenOnly = false := by
  simp [takesOffers, working]

theorem offer_untold {s : State} {b : FrameBody} (h : takesOffers s = true) (ht : (lineOffer s.line b).told = []) :
    offer s b = s.withLine (lineOffer s.line b).line := by
  unfold offer
  rw [if_pos h]
  dsimp only
  rw [ht]
  rfl

/-- An offer of which one outcome is told: a refusal is recorded first. -/
theorem offer_tells {s : State} {b e : FrameBody} {o : TxOutcome} (h : takesOffers s = true)
    (ht : (lineOffer s.line b).told = [(e, o)]) : let u := s.withLine (lineOffer s.line b).line
    offer s b = told (if o = .refused then report u (.queueOverflow (bodyKind e)) else u) e o := by
  unfold offer
  rw [if_pos h]
  dsimp only
  rw [ht]
  rfl

theorem offer_discards {s : State} {b : FrameBody} (h : ¬ takesOffers s = true) : offer s b = told s b .discarded :=
  if_neg h

/-- An uncorrected fault in an empty bank is its record (R177, R180). -/
theorem report_uncorrected_empty {s : State} {f : FaultCode} (ht : Taking s) (hf : faultEnabled s.image f = true)
    (hu : faultUncorrected f = true) (hb : s.faults.banks[bankIndex (faultBank f)] = Bank.empty) :
    (report s f).faults.banks[bankIndex (faultBank f)] = ⟨true, false, true, faultNumber f, faultDetail f,
      if s.time.quality = .unset then none else some s.time.campus, 0⟩ := by
  have taken : bankTake s.faults.banks[bankIndex (faultBank f)] (currentReading s) f = ⟨true, false, true,
      faultNumber f, faultDetail f, if s.time.quality = .unset then none else some s.time.campus, 0⟩ := by
    rw [hb]
    unfold bankTake
    rw [if_pos hu]
    by_cases q : s.time.quality = .unset <;> simp [q, currentReading, Bank.empty]
  have ht : s.faults.taking = true := ht
  show (faultsReport s.faults s.image (currentReading s) f).banks[_] = _
  simp only [faultsReport, ht, hf, Bool.and_self, if_true, taken, faultsRaise]
  split <;> simp

end Sys2Proof.Proofs
end

section
/-! The offer of a frame, settled: the queue, the holds, and the owners told (R26, R38 to R42, R75, R161, R180). -/

namespace Sys2Proof.Proofs

open Sys2Proof Sys2Proof.Machine Sys2Proof.Laws

/-! ## The queue and the holds -/

theorem lineOffer_inserts {l : LineUnit} {b : FrameBody} (ok : LineOk l) (hs : ∀ e ∈ l.queue, sameSort b e.body = false)
    (room : l.queue.length < 12) : (lineOffer l b).told = [] ∧ ∃ pre post, l.queue = pre ++ post ∧
      (lineOffer l b).line = { l with queue := pre ++ newEntry b :: post } ∧
      (∀ e ∈ pre, bodyClass e.body ≤ bodyClass b) ∧ ∀ e ∈ post, bodyClass b < bodyClass e.body := by
  rw [lineOffer_new hs, offerNew_room room]
  exact ⟨rfl, _, _, List.takeWhile_append_dropWhile.symm, rfl, takeWhile_class (bodyClass b),
    dropWhile_less_urgent (bodyClass b) ok.2⟩

theorem lineOffer_replaces {l : LineUnit} {b : FrameBody} {pre post : List TxEntry} {e : TxEntry} (ok : LineOk l)
    (hq : l.queue = pre ++ e :: post) (hs : sameSort b e.body = true) (hf : e.inFlight = false) :
    lineOffer l b = ⟨{ l with queue := pre ++ newEntry b :: post }, [(e.body, .replaced)]⟩ := by
  have sorted := hq ▸ ok.2
  unfold lineOffer
  rw [hq, find_sort sorted hs]
  dsimp only
  rw [hf, replaceSort_at sorted hs]
  rfl

theorem lineOffer_aside_of_flight {l : LineUnit} {b : FrameBody} {e : TxEntry} (ok : LineOk l) (he : e ∈ l.queue)
    (hs : sameSort b e.body = true) (hf : e.inFlight = true) :
    lineOffer l b = ⟨setHold l b (some b), (heldFor l b).toList.map fun h => (h, TxOutcome.replaced)⟩ := by
  obtain ⟨pre, post, hq⟩ := List.append_of_mem he
  unfold lineOffer
  rw [hq, find_sort (hq ▸ ok.2) hs]
  dsimp only
  rw [if_pos hf]

theorem lineOffer_full {l : LineUnit} {b : FrameBody} (hs : ∀ e ∈ l.queue, sameSort b e.body = false)
    (full : l.queue.length = 12) :
    ((∀ e ∈ l.queue, evictable b e = false) → lineOffer l b = ⟨l, [(b, .refused)]⟩) ∧
    (∀ pre e post, l.queue = pre ++ e :: post → evictable b e = true → (∀ x ∈ post, evictable b x = false) →
      lineOffer l b = ⟨{ l with queue := queueInsert (pre ++ post) (newEntry b) }, [(e.body, .evicted)]⟩) := by
  have noRoom : ¬ l.queue.length < 12 := Nat.not_lt.mpr (Nat.le_of_eq full.symm)
  rw [lineOffer_new hs]
  exact ⟨offerNew_refused noRoom, fun pre e post hq he hp => offerNew_evicts noRoom hq he hp⟩

/-! ## The owners -/

/-- An offer that is refused: the line stays, and the refusal is recorded (R40, R180). -/
theorem offer_refused {s : State} {b : FrameBody} (h : takesOffers s = true)
    (ht : (lineOffer s.line b).told = [(b, .refused)]) : (offer s b).line = s.line ∧
    (offer s b).faults = (report s (.queueOverflow (bodyKind b))).faults ∧
    Changes [.time, .plan, .drill, .faults] s (offer s b) := by
  have tells := offer_tells h ht
  rw [(lineOffer_of_refused ht).1] at tells
  obtain ⟨line, faults⟩ := told_refused_keeps (report s (.queueOverflow (bodyKind b))) b
  have line : (offer s b).line = s.line := (congrArg State.line tells).trans line
  refine ⟨line, (congrArg State.faults tells).trans faults, fun f hf => ?_⟩
  by_cases hl : f = .line
  · rw [hl]
    exact line
  · refine (offer_ev s b).same f fun hm => ?_
    simp only [List.mem_cons, List.not_mem_nil, or_false, not_or] at hm hf
    tauto

theorem toldPlan_evicted {s : State} {k : Key} {i : Nat} (h : CountsFragment s k i) :
    CursorRan (s.withPlan (fragmentGone s i)) (toldPlan s k i .evicted) := by
  rw [toldPlan_of_evicted h]
  exact runCursor_ran _

/-- Settles O17: what the queue and the holds become, and what each owner makes of the outcome. -/
theorem anOfferEntersReplacesEvictsOrIsRefused : Obligations.AnOfferEntersReplacesEvictsOrIsRefused := by
  refine ⟨fun l b ok => ⟨lineOffer_inserts ok, fun pre e post hq hs hf => lineOffer_replaces ok hq hs hf,
    fun e he hs hf => ?_, lineOffer_full⟩, fun s b => ?_⟩
  · rw [lineOffer_aside_of_flight ok he hs hf]
    exact ⟨setHold_queue l b _, heldFor_setHold hs, rfl⟩
  intro takes
  refine ⟨fun ht => offer_untold ((takesOffers_iff s).mpr ht), fun ht told => ?_, fun ht e hs told => ?_,
    fun ht e o told ho => ?_, fun ht => ?_⟩
  · obtain ⟨line, faults, changes⟩ := offer_refused ((takesOffers_iff s).mpr ht) told
    refine ⟨line, faults, changes, fun taking enabled empty => ?_⟩
    rw [faults]
    exact report_uncorrected_empty taking enabled rfl empty
  · rw [offer_tells ((takesOffers_iff s).mpr ht) told, if_neg nofun]
    exact told_sorted hs _
  · have counts : countsAsSent o = true := by obtain rfl | rfl := ho <;> rfl
    intro now u v less counted
    have tells : offer s b = Machine.told v e o := by
      rw [offer_tells ((takesOffers_iff s).mpr ht) told]
      obtain rfl | rfl := ho
      · rfl
      · rw [(lineOffer_of_refused told).2]
    have parts : v.time = s.time ∧ v.drill = s.drill ∧ v.plan = s.plan := by
      show State.time (if _ then _ else _) = _ ∧ State.drill (if _ then _ else _) = _ ∧ State.plan (if _ then _ else _) = _
      split <;> exact ⟨rfl, rfl, rfl⟩
    obtain ⟨time, drill, plan⟩ := parts
    refine ⟨fun k d he => ?_, fun i start x he => ?_, fun k i n content he => ⟨fun hn => ?_, fun hc => ⟨fun hev => ?_, fun hrf => ?_⟩⟩,
      fun hset hend hplan => tells.trans (told_other hset hend hplan o)⟩
    · rw [tells, he]
      refine (congrArg v.withTime (toldSettime_spaced v.time k counts)).trans ?_
      rw [time]
      rfl
    · rw [tells, he]
      refine (congrArg v.withDrill (toldEnd_spaced v.drill v.time.localCount i start counts)).trans ?_
      rw [time, drill]
      rfl
    · rw [tells, he]
      exact toldPlan_uncounted (by rw [CountsFragment, plan]; exact hn) o
    · rw [tells, he]
      subst hev
      exact toldPlan_evicted (s := v) (by rw [CountsFragment, plan]; exact hc)
    · rw [tells, he]
      subst hrf
      refine (toldPlan_of_refused (s := v) (by rw [CountsFragment, plan]; exact hc)).trans ?_
      rw [fragmentGone, plan, time]
  · rw [offer_discards fun h => ht ((takesOffers_iff s).mp h)]
    split
    · exact congrArg s.withTime (toldSettime_ended _ _)
    · exact congrArg s.withDrill (toldEnd_ended _ _ _ _)
    · split
      · next counted => exact toldPlan_of_discarded counted
      · next counted => exact toldPlan_uncounted counted .discarded
    · next hset hend hplan => exact told_other hset hend hplan _

end Sys2Proof.Proofs
end

section
/-! FRAME_SENT and ECHO_MISMATCH of the frame in flight (R9, R26, R34 to R36, R38, R39, R75, R161). -/

namespace Sys2Proof.Proofs

open Sys2Proof Sys2Proof.Machine Sys2Proof.Laws

/-! ## What the owner of a frame does when its life ends -/

/-- The copies of the set and of the drill of a frame are spaced from its outcome on (R26, R161). -/
def CopiesSpaced (s t : State) (b : FrameBody) : Prop :=
  (∀ k d, b = .settime k d → t.time.setCopies = settimeSpaced s.time k) ∧
  ∀ i start o, b = .drillEnd i start o true → t.drill.copies = endSpaced s.drill s.time.localCount i start

/-- Only a BEACON and a DRILL state frame may have one held aside, so that the copies are spaced in any case. -/
theorem copiesSpaced_offerHeld {s u : State} (b : FrameBody) {o : TxOutcome} (h : countsAsSent o = true)
    (copies : u.time.setCopies = s.time.setCopies) (count : u.time.localCount = s.time.localCount)
    (drill : u.drill = s.drill) : CopiesSpaced s (offerHeld (told u b o) b) b := by
  refine ⟨fun k d hb => ?_, fun i start x hb => ?_⟩
  · subst hb
    refine (congrArg TimeUnit.setCopies (toldSettime_spaced u.time k h)).trans ?_
    unfold settimeSpaced
    rw [copies, count]
  · subst hb
    refine (congrArg DrillUnit.copies (toldEnd_spaced u.drill u.time.localCount i start h)).trans ?_
    rw [drill, count]

theorem offerHeld_none {s : State} {b : FrameBody} (h : heldFor s.line b = none) : offerHeld s b = s := by
  unfold offerHeld
  rw [h]

theorem offerHeld_told {s : State} {b : FrameBody} (h : heldFor s.line b = none) (o : TxOutcome) :
    offerHeld (told s b o) b = told s b o :=
  offerHeld_none (((told_moves s b o).holds b).trans h)

/-- But for a PLAN frame, the line, the Plan Unit and the faults stay when the owner is told. -/
theorem told_not_plan {s : State} {b : FrameBody} (h : bodyKind b ≠ .plan) (o : TxOutcome) :
    (told s b o).line = s.line ∧ (told s b o).faults = s.faults := by
  unfold told
  split
  · exact ⟨rfl, rfl⟩
  · exact ⟨rfl, rfl⟩
  · exact absurd rfl h
  · exact ⟨rfl, rfl⟩

/-- The cursor does not touch the serve bitmap. -/
theorem cursorRan_serve {s t : State} (h : CursorRan s t) : t.plan.serve = s.plan.serve := by
  by_cases closed : s.plan.active = none ∨ s.plan.pausedUntil ≠ none ∨ takesOffers s = false
  · rw [(h.2 closed).2.1]
  · simp only [not_or, not_not, Bool.not_eq_false] at closed
    obtain ⟨active, unpaused, takes⟩ := closed
    obtain ⟨a, ha⟩ := Option.ne_none_iff_exists'.mp active
    rw [(h.1 a ha unpaused takes).2.1]

theorem clearedBit (x : BitVec 48) (i : Nat) {j : Nat} (h : j < 48) :
    (x &&& ~~~(1#48 <<< i)).getLsbD j = (x.getLsbD j && decide (j ≠ i)) := by
  simp only [BitVec.getLsbD_and, BitVec.getLsbD_not, h, decide_true, Bool.true_and, BitVec.getLsbD_shiftLeft,
    BitVec.getLsbD_one]
  congr 1
  rw [Bool.eq_iff_iff]
  simp
  omega

/-! ## The two ends of an attempt -/

theorem exec_frameSent {s : State} {e : TxEntry} (ha : Active s) (hs : s.line.activity = .sending)
    (he : inFlight s.line = some e) : exec .frameSent s = .next (frameSent s e) := by
  rw [exec_whenWorking (i := .frameSent) rfl ha, hs, he]

theorem exec_echoMismatch {s : State} {e : TxEntry} (ha : Active s) (hs : s.line.activity = .sending)
    (he : inFlight s.line = some e) : exec .echoMismatch s = .next (attemptFailed s e) := by
  rw [exec_whenWorking (i := .echoMismatch) rfl ha, hs, he]

/-- The station when a frame has been sent, before its owner is told. -/
def sentState (s : State) (e : TxEntry) : State :=
  (s.withLine (sentLine s.line s.time.localCount e.body)).withTime { recordSent s.time e.body with capture := none }

theorem frameSent_eq (s : State) (e : TxEntry) :
    frameSent s e = offerHeld (told (sentState s e) e.body .sent) e.body := rfl

/-- The station when it has stopped driving, and the collision is recorded. -/
def collidedState (s : State) (b : FrameBody) : State :=
  report (dropCapture (s.withLine (stoppedLine s.line))) (.collision (bodyKind b))

/-- The station with a collided frame gone from the queue, before its owner is told. -/
def droppedState (s : State) (b : FrameBody) : State :=
  report ((collidedState s b).withLine { stoppedLine s.line with queue := withoutFlight s.line.queue })
    (.frameDropped (bodyKind b))

/-- The station with a collided frame back in the queue. -/
def failedState (s : State) (b : FrameBody) : State :=
  (collidedState s b).withLine { stoppedLine s.line with queue := failFlight s.line.queue }

theorem attemptFailed_dropped {s : State} {e : TxEntry} (h : 8 ≤ e.attempts + 1) :
    attemptFailed s e = offerHeld (told (droppedState s e.body) e.body .dropped) e.body := if_pos h

theorem attemptFailed_again {s : State} {e : TxEntry} (h : e.attempts + 1 < 8) :
    attemptFailed s e = replaceHeld (failedState s e.body) e.body := if_neg (Nat.not_le.mpr h)

theorem sentState_time (s : State) (e : TxEntry) : (sentState s e).time.setCopies = s.time.setCopies ∧
    (sentState s e).time.localCount = s.time.localCount ∧
    (∀ c, e.body = .beacon c → (sentState s e).time.lastBeacon = some ⟨c.seq, s.time.capture⟩) ∧
    (bodyKind e.body ≠ .beacon → (sentState s e).time.lastBeacon = s.time.lastBeacon) := by
  have record : (sentState s e).time = { recordSent s.time e.body with capture := none } := rfl
  rw [record]
  unfold recordSent
  split
  · next c _ hb =>
    refine ⟨rfl, rfl, fun d hd => ?_, fun h => ?_⟩
    · cases hb.symm.trans hd
      rfl
    · rw [hb] at h
      exact absurd rfl h
  · next hb => exact ⟨rfl, rfl, fun c hc => absurd hc (hb c), fun _ => rfl⟩

theorem sentState_held (s : State) (e : TxEntry) (b : FrameBody) :
    heldFor (sentState s e).line b = heldFor s.line b := by cases b <;> rfl

theorem droppedState_held (s : State) (a b : FrameBody) :
    heldFor (droppedState s a).line b = heldFor s.line b := by cases b <;> rfl

theorem failedState_held (s : State) (a b : FrameBody) :
    heldFor (failedState s a).line b = heldFor s.line b := by cases b <;> rfl

/-- What the Line Unit shows besides queue and holds stays when the owner is told. -/
theorem told_aside (s : State) (b : FrameBody) (o : TxOutcome) : lineAside (told s b o).line = lineAside s.line :=
  (told_moves s b o).aside

/-! ## With no frame held aside -/

theorem frameSent_unheld {s : State} {e : TxEntry} (h : heldFor s.line e.body = none) :
    frameSent s e = told (sentState s e) e.body .sent :=
  offerHeld_told ((sentState_held s e e.body).trans h) _

theorem frameSent_clears {s : State} {e : TxEntry} (h : heldFor s.line e.body = none) : let t := frameSent s e
    t.line.activity = .busy ∧ t.line.quiet = 0 ∧
    t.line.deference = (if bodyClass e.body = 2 ∨ bodyClass e.body = 3 then true else s.line.deference) ∧
    (bodyKind e.body ≠ .plan → t.line.queue = s.line.queue.eraseP (·.inFlight)) ∧
    (∀ c, e.body = .beacon c → t.time.lastBeacon = some ⟨c.seq, s.time.capture⟩) ∧
    (bodyKind e.body ≠ .beacon → t.time.lastBeacon = s.time.lastBeacon) := by
  intro t
  have sent : t = told (sentState s e) e.body .sent := frameSent_unheld h
  have aside := told_aside (sentState s e) e.body .sent
  have time := told_time (sentState s e) e.body .sent
  obtain ⟨_, _, beacon, other⟩ := sentState_time s e
  have last : t.time.lastBeacon = (sentState s e).time.lastBeacon := by rw [sent, time]
  rw [← sent] at aside
  refine ⟨congrArg LineUnit.activity aside, congrArg LineUnit.quiet aside, ?_, fun hp => ?_,
    fun c hc => last.trans (beacon c hc), fun hb => last.trans (other hb)⟩
  · simp only [← bodyClass_two_le_iff]
    exact congrArg LineUnit.deference aside
  · rw [sent, (told_not_plan hp _).1]
    rfl

theorem attemptFailed_retries {s : State} {e : TxEntry} (h : heldFor s.line e.body = none) (hn : e.attempts + 1 < 8) :
    attemptFailed s e = failedState s e.body := by
  rw [attemptFailed_again hn]
  unfold replaceHeld
  rw [failedState_held, h]

theorem attemptFailed_drops {s : State} {e : TxEntry} (h : heldFor s.line e.body = none) (hn : 8 ≤ e.attempts + 1) :
    attemptFailed s e = told (droppedState s e.body) e.body .dropped := by
  rw [attemptFailed_dropped hn]
  exact offerHeld_told ((droppedState_held s e.body e.body).trans h) _

theorem failedState_changes (s : State) (b : FrameBody) : Changes [.line, .time, .faults] s (failedState s b) :=
  changes_trans (changes_mono (withLine_changes s _)) (changes_trans (changes_mono (withTime_changes _ _))
    (changes_trans (changes_mono (report_ev _ _).same) (changes_mono (withLine_changes _ _))))

/-! ## A PLAN frame -/

theorem countsFragment_iff {s u : State} (h : u.plan = s.plan) (k : Key) (i : Nat) :
    CountsFragment u k i ↔ s.plan.active.map (·.key) = some k ∧ i ∈ s.plan.queued := by
  rw [CountsFragment, h]

theorem toldPlan_sent {s u : State} {k : Key} {i : Nat} (h : u.plan = s.plan) :
    let t := toldPlan u k i .sent
    let counted := s.plan.active.map (·.key) = some k ∧ i ∈ s.plan.queued
    (¬ counted → t.plan = s.plan) ∧
    (counted → (∀ j, j < 48 → t.plan.serve.getLsbD j = (s.plan.serve.getLsbD j && decide (j ≠ i))) ∧
      CursorRan (u.withPlan { s.plan with
        serve := s.plan.serve &&& ~~~(1#48 <<< i)
        queued := s.plan.queued.filter fun j => decide (j ≠ i) }) t) := by
  intro t counted
  refine ⟨fun hn => ?_, fun hc => ?_⟩
  · have same : t = u := toldPlan_uncounted (mt (countsFragment_iff h k i).mp hn) _
    rw [same, h]
  · have told := toldPlan_of_sent ((countsFragment_iff h k i).mpr hc)
    have ran := runCursor_ran (u.withPlan { fragmentGone u i with serve := u.plan.serve &&& ~~~(1#48 <<< i) })
    rw [← told] at ran
    rw [fragmentGone, h] at ran
    refine ⟨fun j hj => ?_, ran⟩
    rw [cursorRan_serve ran]
    exact clearedBit _ i hj

theorem toldPlan_dropped {s u : State} {k : Key} {i : Nat} (h : u.plan = s.plan) :
    let t := toldPlan u k i .dropped
    let counted := s.plan.active.map (·.key) = some k ∧ i ∈ s.plan.queued
    (¬ counted → t.plan = s.plan) ∧ t.plan.serve = s.plan.serve ∧
    (counted → CursorRan (u.withPlan { s.plan with queued := s.plan.queued.filter fun j => decide (j ≠ i) }) t) := by
  intro t counted
  by_cases hc : counted
  · have told := toldPlan_of_dropped ((countsFragment_iff h k i).mpr hc)
    have ran := runCursor_ran (u.withPlan (fragmentGone u i))
    rw [← told] at ran
    rw [fragmentGone, h] at ran
    exact ⟨fun hn => absurd hc hn, (cursorRan_serve ran).trans rfl, fun _ => ran⟩
  · have same : t = u := toldPlan_uncounted (mt (countsFragment_iff h k i).mp hc) _
    rw [same, h]
    exact ⟨fun _ => rfl, rfl, fun k => absurd k hc⟩

/-! ## With a frame held aside -/

theorem withoutFlight_split {l : LineUnit} {e : TxEntry} (h : inFlight l = some e) :
    ∃ pre post, l.queue = pre ++ e :: post ∧ withoutFlight l.queue = pre ++ post := by
  obtain ⟨he, pre, post, hq, hp⟩ := List.find?_eq_some_iff_append.mp h
  refine ⟨pre, post, hq, ?_⟩
  unfold withoutFlight
  rw [hq, List.eraseP_append_right _ fun x hx => by simpa using hp x hx, List.eraseP_cons_of_pos he]

/-- With the frame in flight gone, its like finds room and none of its sort. -/
theorem withoutFlight_takes {l : LineUnit} {e : TxEntry} {h : FrameBody} (ok : LineOk l) (he : inFlight l = some e)
    (hs : sameSort e.body h = true) : (∀ x ∈ withoutFlight l.queue, sameSort h x.body = false) ∧
    (withoutFlight l.queue).length < 12 := by
  obtain ⟨pre, post, hq, gone⟩ := withoutFlight_split he
  have like : sameSort h e.body = true := (sameSort_symm h e.body).trans hs
  obtain ⟨before, after⟩ := others_of_sort (hq ▸ ok.2) like
  have length := ok.1
  rw [hq, List.length_append, List.length_cons] at length
  rw [gone, List.length_append]
  exact ⟨fun x hx => (List.mem_append.mp hx).elim (before x) (after x), by omega⟩

theorem heldFor_setHold_none {a h : FrameBody} (hs : sameSort a h = true) (l : LineUnit) :
    heldFor (setHold l a none) a = none := by
  obtain ⟨_, _, rfl, rfl⟩ | ⟨_, _, rfl, rfl⟩ := sameSort_cases hs <;> rfl

/-- A frame held aside enters the queue from which its like has gone (R39). -/
theorem offerHeld_enters {l : LineUnit} {u : State} {e : TxEntry} {h : FrameBody} (ok : LineOk l)
    (he : inFlight l = some e) (hs : sameSort e.body h = true) (held : heldFor u.line e.body = some h)
    (queue : u.line.queue = withoutFlight l.queue) (takes : takesOffers u = true) :
    Queued (offerHeld u e.body).line h ∧ heldFor (offerHeld u e.body).line e.body = none := by
  obtain ⟨noLike, room⟩ := withoutFlight_takes ok he hs
  have enters : offerHeld u e.body = offer (u.withLine (setHold u.line e.body none)) h := by
    unfold offerHeld
    rw [held]
  have emptied : (u.withLine (setHold u.line e.body none)).line.queue = withoutFlight l.queue :=
    (setHold_queue u.line e.body none).trans queue
  have open_ : takesOffers (u.withLine (setHold u.line e.body none)) = true := by
    rw [← takes]
    cases e.body <;> rfl
  rw [enters, offer_enters open_ (find_sort_none (emptied ▸ noLike)) (emptied ▸ room)]
  refine ⟨.inl (List.mem_map.mpr ⟨newEntry h, mem_queueInsert.mpr (.inl rfl), rfl⟩), ?_⟩
  obtain ⟨_, _, hb, rfl⟩ | ⟨_, _, hb, rfl⟩ := sameSort_cases hs <;> rw [hb] <;> rfl

/-- A frame held aside takes the place of its like, whose attempt has failed (R39). -/
theorem replaceHeld_replaces {u : State} {b h : FrameBody} (hs : sameSort b h = true)
    (held : heldFor u.line b = some h) : replaceHeld u b =
      u.withLine { setHold u.line b none with queue := replaceSort u.line.queue h } := by
  unfold replaceHeld
  rw [held]
  exact (told_sorted (sameSort_self hs) _).trans (by rw [setHold_queue])

theorem replaceSort_failFlight (q : List TxEntry) (h : FrameBody) : replaceSort (failFlight q) h =
    q.map fun x => if sameSort h x.body then ⟨h, 0, false⟩
      else if x.inFlight then { x with attempts := x.attempts + 1, inFlight := false } else x := by
  unfold replaceSort failFlight
  rw [List.map_map]
  refine List.map_congr_left fun x _ => ?_
  have body : (if x.inFlight then { x with attempts := x.attempts + 1, inFlight := false } else x).body = x.body := by
    split <;> rfl
  show (if sameSort h (if x.inFlight then _ else x).body then _ else _) = _
  rw [body]
  rfl

/-- Settles O18: the frame sent, the frame dropped and the frame that contends again, each without and with a frame held
aside. -/
theorem anAttemptIsSentOrFails : Obligations.AnAttemptIsSentOrFails := by
  refine ⟨fun s e ha hs he held => ⟨⟨_, exec_frameSent ha hs he, ?_⟩, fun hn => ⟨_, exec_echoMismatch ha hs he, ?_⟩,
    fun hn => ⟨_, exec_echoMismatch ha hs he, ?_⟩⟩, fun s e ha hs he => ?_,
    fun s e h ha hs he ok listen held like => ?_⟩
  · obtain ⟨activity, quiet, deference, queue, beacon, other⟩ := frameSent_clears held
    exact ⟨activity, quiet, deference, queue, beacon, other, changes_mono (frameSent_ev s e).same⟩
  · rw [attemptFailed_retries held hn]
    exact ⟨rfl, rfl, rfl, failedState_changes s _⟩
  · have changes := changes_mono (fs := [.line, .time, .plan, .drill, .faults]) (attemptFailed_ev s e).same
    rw [attemptFailed_drops held hn] at changes ⊢
    refine ⟨congrArg LineUnit.activity (told_aside (droppedState s e.body) e.body .dropped), fun hp => ?_, changes⟩
    obtain ⟨line, faults⟩ := told_not_plan (s := droppedState s e.body) hp .dropped
    rw [line, faults]
    exact ⟨rfl, rfl⟩
  · intro now copies counted
    obtain ⟨setCopies, count, _⟩ := sentState_time s e
    refine ⟨⟨_, exec_frameSent ha hs he, ?_, fun k i n content hb => ?_⟩,
      fun hn => ⟨_, exec_echoMismatch ha hs he, ?_, fun k i n content hb => ?_⟩⟩
    · exact copiesSpaced_offerHeld e.body rfl setCopies count rfl
    · have sent : frameSent s e = toldPlan (sentState s e) k i .sent := by rw [frameSent_eq, hb]; rfl
      have state : sentState s e = (s.withLine { s.line with
          queue := s.line.queue.eraseP (·.inFlight)
          activity := .busy
          quiet := 0
          dominant := false
          deference := true
          stuckFrom := now }).withTime { s.time with capture := none } := by rw [sentState, hb]; rfl
      rw [sent, state]
      exact toldPlan_sent rfl
    · rw [attemptFailed_dropped hn]
      exact copiesSpaced_offerHeld e.body rfl rfl rfl rfl
    · have dropped : attemptFailed s e = toldPlan (droppedState s (.plan k i n content)) k i .dropped := by
        rw [attemptFailed_dropped hn, hb]; rfl
      rw [dropped]
      exact toldPlan_dropped rfl
  · have takes : takesOffers s = true := by rw [takesOffers, ha.2, listen]; rfl
    have self := sameSort_self like
    refine ⟨⟨_, exec_frameSent ha hs he, ?_⟩, fun hn => ⟨_, exec_echoMismatch ha hs he, ?_⟩,
      fun hn => ⟨_, exec_echoMismatch ha hs he, ?_⟩⟩
    · have changes := changes_mono (fs := [.line, .time, .plan, .drill, .faults]) (frameSent_ev s e).same
      rw [frameSent_eq, told_sorted self] at changes ⊢
      obtain ⟨queued, none_held⟩ := offerHeld_enters (u := sentState s e) ok he like
        ((sentState_held s e _).trans held) rfl takes
      exact ⟨queued, none_held, changes⟩
    · have changes := changes_mono (fs := [.line, .time, .plan, .drill, .faults]) (attemptFailed_ev s e).same
      rw [attemptFailed_dropped hn, told_sorted self] at changes ⊢
      obtain ⟨queued, none_held⟩ := offerHeld_enters (u := droppedState s e.body) ok he like
        ((droppedState_held s _ _).trans held) rfl takes
      exact ⟨queued, none_held, changes⟩
    · have changes := changes_mono (fs := [.line, .time, .plan, .drill, .faults]) (attemptFailed_ev s e).same
      rw [attemptFailed_again hn, replaceHeld_replaces like ((failedState_held s _ _).trans held)] at changes ⊢
      refine ⟨?_, replaceSort_failFlight s.line.queue h, changes⟩
      obtain ⟨_, _, hb, rfl⟩ | ⟨_, _, hb, rfl⟩ := sameSort_cases like <;> rw [hb] <;> rfl

end Sys2Proof.Proofs
end

section
/-! The activity of the line, the stuck watch, damaged frames and a second station of the own number (R29, R34, R43,
R45, R47). -/

namespace Sys2Proof.Proofs

open Sys2Proof Sys2Proof.Machine Sys2Proof.Laws

/-! ## The level of a line that is not watched -/

theorem not_active {s : State} (h : ¬ Active s) : (alive s && working s) = false :=
  Bool.eq_false_iff.mpr fun k => h (Bool.and_eq_true_iff.mp k)

theorem whenListening_inactive {s : State} (h : ¬ Active s) (t : State) : whenListening s t = lineLevel s false :=
  if_neg (by rw [not_active h]; exact Bool.false_ne_true)

theorem exec_whenListening {i : Instr} {s t : State} (h : exec i s = .next (whenListening s t)) (ha : Active s) :
    exec i s = .next t :=
  h.trans (congrArg _ (whenListening_active ha t))

theorem exec_unwatched {i : Instr} {s t : State} (h : exec i s = .next (whenListening s t)) (ha : ¬ Active s) :
    exec i s = .next (s.withLine { s.line with dominant := false }) :=
  h.trans (congrArg _ (whenListening_inactive ha t))

theorem exec_lineBecomesBusy_unwatched {s : State} (ha : ¬ Active s) :
    exec .lineBecomesBusy s = .next (s.withLine { s.line with dominant := true }) :=
  congrArg Host.Outcome.next (if_neg (by rw [not_active ha]; exact Bool.false_ne_true))

theorem exec_lineBecomesBusy {s : State} (ha : Active s) : exec .lineBecomesBusy s = .next (lineBusy s) :=
  congrArg Host.Outcome.next (if_pos (by rw [ha.1, ha.2]; rfl))

/-! ## Busy, idle and stuck -/

theorem lineBusy_line {s : State} (h : s.line.activity ≠ .sending) : (lineBusy s).line = { s.line with
    activity := .busy
    quiet := 0
    dominant := true
    stuckFrom := if s.line.activity = .idle then s.time.localCount else s.line.stuckFrom } := by
  unfold lineBusy
  split
  · next k => exact absurd k h
  · next k => rw [if_pos k]; rfl
  · next k => rw [if_neg (by rw [k]; exact nofun), ← k]; rfl

theorem lineIdle_line {s : State} (h : s.line.activity ≠ .sending) : (lineIdle s).line = { s.line with
    activity := .idle
    quiet := max 10 s.line.quiet
    dominant := false
    stuckRecorded := false } := by
  unfold lineIdle
  split
  · next k => exact absurd k h
  · rfl

theorem stuckLine_records {s : State} (hb : s.line.activity = .busy) (hr : s.line.stuckRecorded = false) :
    stuckLine s = report (s.withLine { s.line with stuckRecorded := true }) .lineStuck :=
  if_pos ⟨by rw [hb]; exact nofun, by rw [hr]; rfl⟩

theorem stuckLine_waits {s : State} (h : s.line.activity = .idle ∨ s.line.stuckRecorded = true) : stuckLine s = s :=
  if_neg fun ⟨active, unrecorded⟩ => h.elim active fun k => by
    rw [k] at unrecorded
    exact Bool.false_ne_true unrecorded

/-- A damaged frame that is not the station's own attempt (R43). -/
theorem damagedFrame_received {s : State} (h : s.line.activity ≠ .sending) (d : Damage) : damagedFrame s d =
    report ((s.withLine { s.line with
      quiet := 0
      activity := .busy
      dominant := false
      stuckFrom := if s.line.activity = .idle then s.time.localCount else s.line.stuckFrom }).withTime
        { s.time with capture := none }) (.damagedFrame d) := by
  unfold damagedFrame busyFrom
  split
  · next k _ => exact absurd k h
  · split <;> rfl

/-! ## A bit time -/

theorem passQuiet_line (s : State) : (passQuiet s).line =
    if working s = true ∧ ¬ (s.line.dominant = true ∨ s.line.activity = .sending) then
      { s.line with quiet := s.line.quiet + 1 } else s.line := by
  unfold passQuiet
  have same : ((working s && !s.line.dominant && decide (s.line.activity ≠ .sending)) = true) ↔
      working s = true ∧ ¬ (s.line.dominant = true ∨ s.line.activity = .sending) := by
    simp [and_assoc]
  by_cases h : working s = true ∧ ¬ (s.line.dominant = true ∨ s.line.activity = .sending)
  · rw [if_pos (same.mpr h), if_pos h]
    rfl
  · rw [if_neg (mt same.mp h), if_neg h]

/-- The quiet time is what a bit time changes of the line (R29). -/
theorem tick_line {s : State} (ha : Active s) : (tick s).line =
    if s.line.dominant = true ∨ s.line.activity = .sending then s.line
    else { s.line with quiet := s.line.quiet + 1 } := by
  have codes := (passCodes_ev (passSample (passQuiet (passMillisecond s)))).same .line (by decide)
  have sample := (passSample_ev (passQuiet (passMillisecond s))).same .line (by decide)
  have before : (passMillisecond s).line = s.line := (passMillisecond_ev s).same .line (by decide)
  have passed : (tick s).line = (passQuiet (passMillisecond s)).line := by
    rw [tick_alive ha.1]
    exact codes.trans sample
  have starts := (passMillisecond_start s).1.opState
  have works : working (passMillisecond s) = true := by
    rw [working, starts]
    exact ha.2
  rw [passed, passQuiet_line, before, works]
  by_cases h : s.line.dominant = true ∨ s.line.activity = .sending
  · rw [if_neg fun k => k.2 h, if_pos h]
  · rw [if_pos ⟨rfl, h⟩, if_neg h]

/-! ## A second station of the own number -/

/-- The line when a frame of the own number has ended, its capture gone. -/
def duplicateEnded (s : State) : State := dropCapture (s.withLine (receivedEnd s.line s.time.localCount))

theorem duplicateFrame_silenced {s : State} (h : s.line.listenOnly = false) :
    duplicateFrame s = enterListenOnly (report (duplicateEnded s) .duplicateStation) :=
  if_neg (by rw [h]; exact Bool.false_ne_true)

theorem duplicateFrame_again {s : State} (h : s.line.listenOnly = true) : duplicateFrame s = duplicateEnded s := if_pos h

theorem duplicateFrame_enters {s : State} (h : s.line.listenOnly = false) : let t := duplicateFrame s
    t.line.listenOnly = true ∧ t.line.roster = s.line.roster ∧ t.line.queue = [] ∧ t.line.holdBeacon = none ∧
    t.line.holdDrill = none ∧ t.time.setCopies = none ∧ t.drill.copies = [] ∧ t.plan.serve = 0 ∧
    t.faults = (report s .duplicateStation).faults := by
  rw [duplicateFrame_silenced h]
  exact ⟨rfl, (receivedEnd_keeps s.line s.time.localCount).1, rfl, rfl, rfl, rfl, rfl, rfl, rfl⟩

theorem duplicateFrame_stays {s : State} (h : s.line.listenOnly = true) : let t := duplicateFrame s
    t.line.listenOnly = true ∧ t.line.roster = s.line.roster ∧ t.line.queue = s.line.queue ∧
    t.faults = s.faults ∧ t.plan = s.plan ∧ t.drill = s.drill := by
  obtain ⟨roster, queue, listen⟩ := receivedEnd_keeps s.line s.time.localCount
  rw [duplicateFrame_again h]
  exact ⟨listen.trans h, roster, queue, rfl, rfl, rfl⟩

/-- Settles O19: the watched line, its bit times, the line that is not watched, and the second station. -/
theorem lineActivityAndDuplicates : Obligations.LineActivityAndDuplicates := by
  refine ⟨fun s ha hs => ⟨⟨_, exec_lineBecomesBusy ha, ?_⟩, ⟨_, exec_whenListening (i := .lineBecomesIdle) rfl ha, ?_⟩,
    exec_whenWorking (i := .deferenceLapse) rfl ha, fun hb hr => ?_, fun h => ?_, fun d => ?_⟩,
    fun s ha _ => tick_line ha, fun s ha => ⟨exec_lineBecomesBusy_unwatched ha, exec_unwatched (i := .lineBecomesIdle) rfl ha,
      exec_unwatched (i := .duplicateStation) rfl ha, fun d => exec_unwatched (i := .damagedFrame d) rfl ha⟩,
    fun s ha => ⟨_, exec_whenListening (i := .duplicateStation) rfl ha, ?_⟩⟩
  · rw [lineBusy_line hs]
    exact ⟨rfl, rfl, fun k => if_pos k, rfl, (lineBusy_ev s).same⟩
  · rw [lineIdle_line hs]
    exact ⟨rfl, Nat.le_max_left _ _, rfl, rfl, (lineIdle_ev s).same⟩
  · rw [exec_whenWorking (i := .stuckWatch) rfl ha, stuckLine_records hb hr]
  · rw [exec_whenWorking (i := .stuckWatch) rfl ha, stuckLine_waits h]
  · rw [exec_whenListening (i := .damagedFrame d) rfl ha, damagedFrame_received hs]
  · have changes := changes_mono (fs := [.line, .time, .drill, .plan, .faults]) (duplicateFrame_ev s).same
    cases h : s.line.listenOnly with
    | false =>
      obtain ⟨listen, roster, rest⟩ := duplicateFrame_enters h
      exact ⟨listen, roster, changes, fun _ => rest, nofun⟩
    | true =>
      obtain ⟨listen, roster, queue, faults, plan, drill⟩ := duplicateFrame_stays h
      exact ⟨listen, roster, changes, nofun, fun _ => ⟨faults, plan, drill, queue⟩⟩

end Sys2Proof.Proofs
end

section
/-! What the owners of received frames leave: the pending notices, the deference flag and the presence of the peers (R34,
R46, R52, R183). -/

namespace Sys2Proof.Proofs

open Sys2Proof Sys2Proof.Machine Sys2Proof.Laws

/-! ## The relation -/

/-- The same deference flag, and the same presence of every peer. -/
def HeardAlike (l m : LineUnit) : Prop := m.deference = l.deference ∧
  ∀ p : StationNo, m.roster[p].present = l.roster[p].present ∧ m.roster[p].lastHeard = l.roster[p].lastHeard

/-- From s to t no pending notice has gone, and the line shows the same deference and the same presence. -/
structure StaysHeard (s t : State) : Prop where
  line : HeardAlike s.line t.line
  pending : ∀ k, Pending s k → Pending t k

theorem heardAlike_of_eq {l m : LineUnit} (h : m = l) : HeardAlike l m := by
  subst h
  exact ⟨rfl, fun _ => ⟨rfl, rfl⟩⟩

theorem heardAlike_of_aside {l m : LineUnit} (h : lineAside m = lineAside l) : HeardAlike l m := by
  have roster : (lineAside m).roster = (lineAside l).roster := congrArg LineUnit.roster h
  have deference : (lineAside m).deference = (lineAside l).deference := congrArg LineUnit.deference h
  have roster : m.roster = l.roster := roster
  exact ⟨deference, fun p => by rw [roster]; exact ⟨rfl, rfl⟩⟩

/-- A roster entry that keeps its presence is written. -/
theorem heardAlike_setRoster {l : LineUnit} {p : StationNo} {e : RosterEntry} (present : e.present = l.roster[p].present)
    (heard : e.lastHeard = l.roster[p].lastHeard) : HeardAlike l (setRoster l p e) := by
  refine ⟨rfl, fun q => ?_⟩
  show ((l.roster.set p e)[q]).present = _ ∧ ((l.roster.set p e)[q]).lastHeard = _
  rw [vector_set_at]
  split
  · next h =>
    subst h
    exact ⟨present, heard⟩
  · exact ⟨rfl, rfl⟩

theorem StaysHeard.refl (s : State) : StaysHeard s s := ⟨heardAlike_of_eq rfl, fun _ => id⟩

theorem StaysHeard.trans {s t u : State} (h : StaysHeard s t) (k : StaysHeard t u) : StaysHeard s u :=
  ⟨⟨k.line.1.trans h.line.1, fun p => ⟨(k.line.2 p).1.trans (h.line.2 p).1, (k.line.2 p).2.trans (h.line.2 p).2⟩⟩,
    fun n hn => k.pending n (h.pending n hn)⟩

/-- An operation that leaves the line, and no pending notice goes. -/
theorem StaysHeard.of_line {s t : State} (line : t.line = s.line) (bank : TimeBankStays s t) : StaysHeard s t :=
  ⟨heardAlike_of_eq line, bank.pending⟩

theorem StaysHeard.of_aside {s t : State} (aside : lineAside t.line = lineAside s.line) (bank : TimeBankStays s t) :
    StaysHeard s t := ⟨heardAlike_of_aside aside, bank.pending⟩

theorem StaysHeard.of_ev {fs : List Field} {s t : State} (e : Evolves fs s t) (w : Field.line ∉ fs := by decide)
    (v : Field.faults ∉ fs := by decide) : StaysHeard s t :=
  .of_line (e.same .line w) (.of_faults (e.same .faults v))

theorem staysHeard_ite {p : Prop} [Decidable p] {s t u : State} (h : StaysHeard s t) (k : StaysHeard s u) :
    StaysHeard s (if p then t else u) := by
  split
  · exact h
  · exact k

theorem foldl_staysHeard {α : Type} {f : State → α → State} (k : ∀ s x, StaysHeard s (f s x)) (l : List α) :
    ∀ s, StaysHeard s (l.foldl f s) := by
  induction l with
  | nil => exact .refl
  | cons x l ih => exact fun s => (k s x).trans (ih _)

theorem report_heard (s : State) (c : FaultCode) : StaysHeard s (report s c) :=
  ⟨heardAlike_of_eq rfl, report_pending s c⟩

theorem raise_heard (s : State) (k : NoticeKind) : StaysHeard s (raise s k) := .of_line rfl (raise_stays s k)

theorem offer_heard (s : State) (b : FrameBody) : StaysHeard s (offer s b) := .of_aside (offer_aside s b) (offer_stays s b)

theorem runCursor_heard (s : State) : StaysHeard s (runCursor s) :=
  .of_aside (runCursor_moves s).aside (runCursor_stays s)

theorem told_heard (s : State) (b : FrameBody) (o : TxOutcome) : StaysHeard s (told s b o) :=
  .of_aside (told_aside s b o) (told_stays s b o)

theorem FetchMoves.heard {s t : State} (h : FetchMoves s t) : StaysHeard s t := .of_aside h.aside h.bank

theorem withPlan_heard (s : State) (x : PlanUnit) : StaysHeard s (s.withPlan x) := .of_line rfl (.of_faults rfl)

theorem withAnn_heard (s : State) (x : AnnUnit) : StaysHeard s (s.withAnn x) := .of_line rfl (.of_faults rfl)

theorem withDrill_heard (s : State) (x : DrillUnit) : StaysHeard s (s.withDrill x) := .of_line rfl (.of_faults rfl)

theorem withTime_heard (s : State) (x : TimeUnit) : StaysHeard s (s.withTime x) := .of_line rfl (.of_faults rfl)

/-! ## BEACON and SETTIME -/

theorem establish_heard (s : State) (t : CampusTime) (q : Quality) : StaysHeard s (establish s t q) := by
  refine ⟨heardAlike_of_eq ((establish_changes s t q) .line (by decide)), fun k hk => ?_⟩
  unfold Pending
  rw [establish_faults]
  exact (raise_pending s .timeChange k).mpr (.inr hk)

theorem takeBeacon_heard (s : State) (p : StationNo) (c : BeaconContent) : StaysHeard s (takeBeacon s p c) := by
  have kept : StaysHeard s (beaconKept s p c) := ⟨heardAlike_setRoster rfl rfl, fun _ => id⟩
  rw [takeBeacon_eq]
  split
  · exact kept
  · exact kept.trans (establish_heard _ _ _)

theorem handBeacon_heard (s : State) (p : StationNo) (c : BeaconContent) : StaysHeard s (handBeacon p c s) :=
  (takeBeacon_heard s p c).trans (handBeacon_moves s p c).heard

theorem stepBy_heard (s : State) (c : Int) : StaysHeard s (stepBy s c) := by
  by_cases hc : c = 0
  · rw [hc, stepBy_zero]
    exact .refl s
  · refine ⟨⟨?_, fun p => ?_⟩, stepBy_pending s c⟩ <;> rw [stepBy_line s hc]
    · rfl
    · rw [stepRoster_entry]
      exact ⟨rfl, rfl⟩

theorem takeSettime_heard (s : State) (k : Key) (d : Int) : StaysHeard s (takeSettime s k d) := by
  cases h : newerThanLast s.time k with
  | false =>
    rw [takeSettime_older h]
    exact .refl s
  | true =>
    have applied : StaysHeard s (settimeApplied s k d) := (stepBy_heard s _).trans (withTime_heard _ _)
    rw [takeSettime_newer h]
    exact staysHeard_ite ((applied.trans (report_heard _ _)).trans (raise_heard _ _)) applied

/-! ## PLAN and PLANREQ -/

theorem tellAll_heard (s : State) (l : List (FrameBody × TxOutcome)) : StaysHeard s (tellAll s l) :=
  foldl_staysHeard (fun s (x : FrameBody × TxOutcome) => told_heard s x.1 x.2) l s

theorem suppressPlan_heard (s : State) (k : Key) (i : Nat) : StaysHeard s (suppressPlan s k i) := by
  refine .trans (t := s.withLine { s.line with queue := s.line.queue.filter fun e => !suppressible k i e }) ?_
    (tellAll_heard _ _)
  exact .of_aside rfl (.of_faults rfl)

theorem setStaging_heard (s : State) (x : Staging) : StaysHeard s (setStaging s x) := (setStaging_moves s x).heard

theorem freeStaging_heard (s : State) : StaysHeard s (freeStaging s) :=
  (setStaging_heard s _).trans (evaluateFetch_moves _).heard

theorem completeFetch_heard (s : State) (f : Fetch) : StaysHeard s (completeFetch s f) := by
  unfold completeFetch
  split
  · exact ((report_heard s _).trans (withPlan_heard _ _)).trans (freeStaging_heard _)
  · exact (((setStaging_heard s _).trans (raise_heard _ _)).trans (.of_ev (changePlan_ev _ _))).trans
      (freeStaging_heard _)

theorem fetchFragment_heard (s : State) (f : Fetch) (x : PlanFrame) : StaysHeard s (fetchFragment s f x) := by
  unfold fetchFragment
  dsimp only
  split
  · exact .refl s
  · split
    · split
      · exact setStaging_heard s _
      · exact staysHeard_ite ((setStaging_heard s _).trans (completeFetch_heard _ _)) (setStaging_heard s _)
    · exact .refl s

theorem takePlanFrame_heard (s : State) (x : PlanFrame) : StaysHeard s (takePlanFrame s x) := by
  have cleared : StaysHeard s (if (s.plan.active.map (·.key)) = some x.key then
      s.withPlan { s.plan with serve := s.plan.serve &&& ~~~(1#48 <<< x.index) } else s) :=
    staysHeard_ite (withPlan_heard s _) (.refl s)
  unfold takePlanFrame
  dsimp only
  split
  · exact staysHeard_ite (cleared.trans (fetchFragment_heard _ _ _)) cleared
  · exact cleared

theorem handPlan_heard (s : State) (x : PlanFrame) : StaysHeard s (handPlan x s) :=
  (suppressPlan_heard s _ _).trans (takePlanFrame_heard _ x)

theorem takePlanreq_heard (s : State) (k : Key) (m : FragmentMask) : StaysHeard s (takePlanreq s k m) := by
  unfold takePlanreq
  split
  · exact .refl s
  · exact staysHeard_ite ((withPlan_heard s _).trans (runCursor_heard _)) (.refl s)

/-! ## ANNOUNCE and ANNEND -/

theorem endEntry_heard (s : State) (i : TablePos) (o : AnnOutcome) : StaysHeard s (endEntry s i o) :=
  .of_line ((endEntry_ev s i o).same .line (by decide)) (endEntry_stays s i o)

theorem startEntry_heard (s : State) (i : TablePos) : StaysHeard s (startEntry s i) :=
  .of_line ((startEntry_ev s i).same .line (by decide)) (startEntry_stays s i)

theorem checkHope_heard (s : State) (i : TablePos) (b : Bool) : StaysHeard s (checkHope s i b) := by
  unfold checkHope
  split
  · exact .refl s
  · exact staysHeard_ite (staysHeard_ite (endEntry_heard s i _) ((endEntry_heard s i _).trans (report_heard _ _)))
      (.refl s)

theorem withArbiter_heard (s : State) (a : Arbiter) : StaysHeard s (withArbiter s a) :=
  .of_line ((followSynth_ev (s.withArb a)).same .line (by decide)) (.of_faults (withArbiter_faults s a))

theorem gatherAt_heard (s : State) (i : TablePos) (a : Announcement) : StaysHeard s (gatherAt s i a) :=
  ((withAnn_heard s _).trans (withArbiter_heard _ _)).trans (checkHope_heard _ i false)

theorem admitReceived_heard (s : State) (a : Announcement) : StaysHeard s (admitReceived s a) := by
  unfold admitReceived
  split
  · exact .refl s
  · next i _ =>
    dsimp only
    split
    · exact staysHeard_ite ((gatherAt_heard s i a).trans (startEntry_heard _ i)) (gatherAt_heard s i a)
    · exact gatherAt_heard s i a

theorem admission_heard (s : State) (a : Announcement) : StaysHeard s (admission a s) := by
  unfold admission
  split
  · unfold admissionFault
    split
    · exact report_heard s _
    · exact report_heard s _
    · exact .refl s
  · exact admitReceived_heard s a

theorem cancelEntry_heard (s : State) (i : TablePos) : StaysHeard s (cancelEntry s i) := by
  unfold cancelEntry
  split
  · exact .refl s
  · exact staysHeard_ite (((staysHeard_ite (offer_heard s _) (.refl s)).trans (endEntry_heard _ i _)).trans
      (report_heard _ _)) (.refl s)

theorem judgeReceived_heard (s : State) (a : Announcement) : StaysHeard s (judgeReceived a s) := by
  unfold judgeReceived judgeLive
  split
  · exact staysHeard_ite ((foldl_staysHeard cancelEntry_heard _ s).trans (withAnn_heard _ _)) (.refl s)
  · exact .refl s

theorem handAnnounce_heard (s : State) (p : StationNo) (c : AnnContent) : StaysHeard s (handAnnounce p c s) :=
  staysHeard_ite (.refl s) (staysHeard_ite ((judgeReceived_heard s _).trans (admission_heard _ _))
    (judgeReceived_heard s _))

theorem handAnnend_heard (s : State) (p : StationNo) (x : Byte × CampusTime) : StaysHeard s (handAnnend p x s) := by
  unfold handAnnend endAnnouncement
  dsimp only
  refine .trans ?_ (.of_ev (clearLive_ev _ _ _))
  split
  · exact .refl s
  · exact endEntry_heard s _ _

/-! ## DRILL frames -/

theorem offerState_aside (s : State) : lineAside (offerState s).line = lineAside s.line := by
  unfold offerState
  split
  · rfl
  · split
    · rfl
    · exact offer_aside _ _

theorem offerState_heard (s : State) : StaysHeard s (offerState s) :=
  .of_aside (offerState_aside s) (offerState_stays s)

theorem endAllEntries_heard (s : State) : StaysHeard s (endAllEntries s) :=
  (foldl_staysHeard (fun s i => endEntry_heard s i .preempted) _ s).trans (withAnn_heard _ _)

theorem leaveOrders_heard (s : State) (d : DrillState) : StaysHeard s (leaveOrders s d) := by
  cases d with
  | idle => exact .of_line rfl (.of_faults rfl)
  | evacuate => exact .of_ev (evacuateLeft_ev s)
  | assemble => exact .refl s
  | allClear => exact .of_ev (dropDrillClaim_ev s)

theorem enterOrders_heard (s : State) (d : DrillState) : StaysHeard s (enterOrders s d) := by
  cases d with
  | idle => exact .of_line rfl (.of_faults rfl)
  | evacuate =>
    exact ((StaysHeard.of_ev (drillClaim_ev s .alarm)).trans (.of_ev (evacuateBells_ev _))).trans (endAllEntries_heard _)
  | assemble => exact .refl s
  | allClear => exact .of_ev (allClearClaim_ev s)

theorem moveDrill_heard (s : State) (d : DrillState) : StaysHeard s (moveDrill s d) :=
  staysHeard_ite (.of_ev (computeStatus_ev s)) ((((withDrill_heard s _).trans (leaveOrders_heard _ _)).trans
    (enterOrders_heard _ d)).trans (.of_ev (computeStatus_ev _)))

theorem allClearTest_heard (s : State) : StaysHeard s (allClearTest s) := by
  unfold allClearTest
  split
  · exact .refl s
  · exact staysHeard_ite (((moveDrill_heard s _).trans (raise_heard _ _)).trans (offerState_heard _)) (.refl s)

theorem setRecord_heard (s : State) (r : Option DrillRecord) : StaysHeard s (setRecord s r) := withDrill_heard s _

theorem takeDrill_heard (s : State) (p : StationNo) (c : DrillContent) : StaysHeard s (takeDrill s p c) := by
  have moved := (setRecord_heard s (some (recordFrom s p c))).trans (moveDrill_heard _ (phaseState c))
  exact ((StaysHeard.trans (staysHeard_ite (moved.trans (withDrill_heard _ _)) moved) (raise_heard _ .rollChange)).trans
    (offerState_heard _)).trans (allClearTest_heard _)

theorem mergeDrill_heard (s : State) (r : DrillRecord) (p : StationNo) (c : DrillContent) :
    StaysHeard s (mergeDrill s r p c) := by
  have merged := (report_heard s (.drillMerged r.id)).trans (raise_heard _ .drillChange)
  exact (staysHeard_ite (merged.trans (raise_heard _ _)) merged).trans (takeDrill_heard _ p c)

theorem samePhase_heard (s : State) (r : DrillRecord) (c : DrillContent) : StaysHeard s (samePhase s r c) :=
  staysHeard_ite ((((setRecord_heard s _).trans (moveDrill_heard _ _)).trans (raise_heard _ _)).trans (offerState_heard _))
    (setRecord_heard s _)

theorem setRoll_heard (s : State) (r : DrillRecord) (p : StationNo) (e : RollEntry) : StaysHeard s (setRoll s r p e) :=
  (setRecord_heard s _).trans (raise_heard _ _)

theorem sameClear_heard (s : State) (p : StationNo) (c : DrillContent) : StaysHeard s (sameClear s p c) := by
  unfold sameClear
  split
  · exact staysHeard_ite (.refl s) (setRoll_heard s _ _ _)
  · exact .refl s

theorem takeStateFrame_heard (s : State) (p : StationNo) (c : DrillContent) : StaysHeard s (takeStateFrame s p c) := by
  have adopted : StaysHeard s (adoptDrill s p c) := (takeDrill_heard s p c).trans (raise_heard _ _)
  unfold takeStateFrame
  split
  · exact offer_heard s _
  · split
    · exact adopted
    · exact adopted
    · exact staysHeard_ite (((samePhase_heard s _ c).trans (sameClear_heard _ p c)).trans (allClearTest_heard _))
        (staysHeard_ite (mergeDrill_heard s _ p c) (offerState_heard s))

theorem setFaActive_heard (s : State) (p : StationNo) (f : Option FaActive) : StaysHeard s (setFaActive s p f) :=
  ⟨heardAlike_setRoster rfl rfl, fun _ => id⟩

theorem handDrillState_heard (s : State) (p : StationNo) (c : DrillContent) : StaysHeard s (handDrillState p c s) :=
  (setFaActive_heard s p _).trans (takeStateFrame_heard _ p c)

theorem finishDrill_heard (s : State) (o : DrillOutcome) (here : Bool) : StaysHeard s (finishDrill s o here) := by
  unfold finishDrill
  split
  · exact .refl s
  · next r _ =>
    have listed (x : DrillUnit) : StaysHeard s ((moveDrill (setRecord s (some (closedRecord s r o))) .idle).withDrill x) :=
      ((setRecord_heard s _).trans (moveDrill_heard _ _)).trans (withDrill_heard _ _)
    exact (staysHeard_ite ((listed _).trans ((withDrill_heard _ _).trans (offer_heard _ _))) (listed _)).trans
      (raise_heard _ _)

theorem takeEndFrame_heard (s : State) (e : EndedDrill) : StaysHeard s (takeEndFrame s e) :=
  staysHeard_ite (finishDrill_heard s _ _) (withDrill_heard s _)

theorem enterRun_heard (s : State) : StaysHeard s (enterRun s) := by
  have started (x : StartUnit) : StaysHeard s (startBeaconTimer (s.withStart x)) := .of_line rfl (.of_faults rfl)
  have offered : StaysHeard s (offerBeacon (startBeaconTimer (s.withStart { s.start with
      opState := .run
      joinDeadline := none }))) := ((started _).trans (withTime_heard _ _)).trans (offer_heard _ _)
  exact ((offered.trans (evaluateFetch_moves _).heard).trans (.of_ev (bellEnterRun_ev _))).trans
    (.of_ev (clockAll_ev _ _))

theorem beginDrill_heard (s : State) (k : DrillKind) : StaysHeard s (beginDrill s k) :=
  ((((withDrill_heard s _).trans (moveDrill_heard _ _)).trans (raise_heard _ _)).trans (raise_heard _ _)).trans
    (offerState_heard _)

theorem beginReal_heard (s : State) : StaysHeard s (beginReal s) :=
  staysHeard_ite ((beginDrill_heard s _).trans (enterRun_heard _)) (beginDrill_heard s _)

theorem handEnd_heard (s : State) (p : StationNo) (e : EndedDrill) : StaysHeard s (handEnd p e s) := by
  have taken := (setFaActive_heard s p none).trans (takeEndFrame_heard _ e)
  exact staysHeard_ite (taken.trans (beginReal_heard _)) taken

/-! ## The drill under frames of the other kinds -/

/-- From s to t the drill's state and record stand. -/
def DrillStands (s t : State) : Prop := t.drill.state = s.drill.state ∧ t.drill.record = s.drill.record

theorem drillStands_of_eq {s t : State} (h : t.drill = s.drill) : DrillStands s t := by
  rw [DrillStands, h]
  exact ⟨rfl, rfl⟩

theorem DrillStands.trans {s t u : State} (h : DrillStands s t) (k : DrillStands t u) : DrillStands s u :=
  ⟨k.1.trans h.1, k.2.trans h.2⟩

theorem drillStands_ite {p : Prop} [Decidable p] {s t u : State} (h : DrillStands s t) (k : DrillStands s u) :
    DrillStands s (if p then t else u) := by
  split
  · exact h
  · exact k

theorem offer_drillStands (s : State) (b : FrameBody) : DrillStands s (offer s b) := by
  rw [DrillStands, offer_drill]
  exact ⟨rfl, rfl⟩

theorem FetchMoves.drillStands {s t : State} (h : FetchMoves s t) : DrillStands s t :=
  drillStands_of_eq (h.changes .drill (by decide))

theorem handBeacon_drillStands (s : State) (p : StationNo) (c : BeaconContent) : DrillStands s (handBeacon p c s) := by
  have taken : (takeBeacon s p c).drill = s.drill := (takeBeacon_ev s p c).same .drill (by decide)
  exact (drillStands_of_eq taken).trans (handBeacon_moves s p c).drillStands

theorem freeStaging_drillStands (s : State) : DrillStands s (freeStaging s) :=
  ((setStaging_moves s _).trans (evaluateFetch_moves _)).drillStands

theorem completeFetch_drillStands (s : State) (f : Fetch) : DrillStands s (completeFetch s f) := by
  unfold completeFetch
  split
  · exact freeStaging_drillStands _
  · next frags _ =>
    have changed := (changePlan_ev (raise (setStaging s .free) (adoptionNotice s)) (planOf f.target frags)).same
    exact (drillStands_of_eq (s := s) (changed .drill (by decide))).trans (freeStaging_drillStands _)

theorem fetchFragment_drillStands (s : State) (f : Fetch) (x : PlanFrame) : DrillStands s (fetchFragment s f x) := by
  have staged (y : Staging) : DrillStands s (setStaging s y) := ⟨rfl, rfl⟩
  unfold fetchFragment
  dsimp only
  split
  · exact ⟨rfl, rfl⟩
  · split
    · exact drillStands_ite (staged _) (drillStands_ite ((staged _).trans (completeFetch_drillStands _ _)) (staged _))
    · exact ⟨rfl, rfl⟩

theorem takePlanFrame_drillStands (s : State) (x : PlanFrame) : DrillStands s (takePlanFrame s x) := by
  have cleared : DrillStands s (if (s.plan.active.map (·.key)) = some x.key then
      s.withPlan { s.plan with serve := s.plan.serve &&& ~~~(1#48 <<< x.index) } else s) :=
    drillStands_ite ⟨rfl, rfl⟩ ⟨rfl, rfl⟩
  unfold takePlanFrame
  dsimp only
  split
  · exact drillStands_ite (cleared.trans (fetchFragment_drillStands _ _ _)) cleared
  · exact cleared

theorem suppressPlan_drillStands (s : State) (k : Key) (i : Nat) : DrillStands s (suppressPlan s k i) := by
  unfold suppressPlan DrillStands
  dsimp only
  rw [tellAll_drill]
  exact ⟨rfl, rfl⟩

theorem handPlan_drillStands (s : State) (x : PlanFrame) : DrillStands s (handPlan x s) :=
  (suppressPlan_drillStands s _ _).trans (takePlanFrame_drillStands _ x)

theorem takePlanreq_drillStands (s : State) (k : Key) (m : FragmentMask) : DrillStands s (takePlanreq s k m) := by
  unfold takePlanreq
  split
  · exact ⟨rfl, rfl⟩
  · exact drillStands_ite (drillStands_of_eq ((runCursor_ev (s.withPlan _)).same .drill (by decide))) ⟨rfl, rfl⟩

theorem cancelEntry_drillStands (s : State) (i : TablePos) : DrillStands s (cancelEntry s i) := by
  have ended (u : State) (c : FaultCode) : DrillStands u (report (endEntry u i .cancelled) c) :=
    drillStands_of_eq ((endEntry_ev u i .cancelled).same .drill (by decide))
  unfold cancelEntry
  split
  · exact ⟨rfl, rfl⟩
  · exact drillStands_ite ((drillStands_ite (offer_drillStands s _) ⟨rfl, rfl⟩).trans (ended _ _)) ⟨rfl, rfl⟩

theorem cancelLive_drillStands (s : State) : DrillStands s (cancelLive s) := by
  have fold (l : List TablePos) : ∀ u, DrillStands u (l.foldl cancelEntry u) := by
    induction l with
    | nil => exact fun _ => ⟨rfl, rfl⟩
    | cons i l ih => exact fun u => (cancelEntry_drillStands u i).trans (ih _)
  exact fold _ s

theorem gatherAt_drill (s : State) (i : TablePos) (a : Announcement) : (gatherAt s i a).drill = s.drill :=
  ((checkHope_ev _ i false).same .drill (by decide)).trans ((followSynth_ev _).same .drill (by decide))

theorem admission_drill (s : State) (a : Announcement) : (admission a s).drill = s.drill := by
  unfold admission
  split
  · exact (admissionFault_ev s _ _).same .drill (by decide)
  · unfold admitReceived
    split
    · rfl
    · next i _ =>
      dsimp only
      split
      · split
        · exact ((startEntry_ev (gatherAt s i a) i).same .drill (by decide)).trans (gatherAt_drill s i a)
        · exact gatherAt_drill s i a
      · exact gatherAt_drill s i a

theorem handAnnounce_drillStands (s : State) (p : StationNo) (c : AnnContent) : DrillStands s (handAnnounce p c s) := by
  have judged (a : Announcement) : DrillStands s (judgeReceived a s) := by
    unfold judgeReceived judgeLive
    split
    · exact drillStands_ite (cancelLive_drillStands s) ⟨rfl, rfl⟩
    · exact ⟨rfl, rfl⟩
  exact drillStands_ite ⟨rfl, rfl⟩ (drillStands_ite ((judged _).trans (drillStands_of_eq (admission_drill _ _)))
    (judged _))

end Sys2Proof.Proofs
end

section
/-! Peers that are heard and become absent, and a frame that is taken as a present peer's (R46, R49, R51, R52, R171). -/

namespace Sys2Proof.Proofs

open Sys2Proof Sys2Proof.Machine Sys2Proof.Laws

/-! ## A peer becomes absent -/

/-- The peer's entry with its presence gone, before the roll is told (R51). -/
def peerLost (s : State) (p : StationNo) : State := s.withLine (setRoster s.line p { s.line.roster[p] with
  present := false
  mark := none
  sample := none
  fa := none })

theorem losePeer_eq (s : State) (p : StationNo) : losePeer s p =
    raise (rollPresence (peerLost s p) p false) .peerChange := rfl

theorem exec_absenceDeadline {s : State} {p : StationNo} (ha : Active s) (hp : p ≠ s.start.station)
    (h : s.line.roster[p].present = true) : exec (.absenceDeadline p) s = .next (losePeer s p) :=
  (exec_whenWorking (i := .absenceDeadline p) rfl ha).trans (congrArg _ (if_pos ⟨hp, h⟩))

theorem rollPresence_idle {s : State} (h : s.drill.state = .idle) (p : StationNo) (b : Bool) :
    rollPresence s p b = s := by
  unfold rollPresence
  split
  · rfl
  · exact if_pos h

theorem rollPresence_silent {s : State} {r : DrillRecord} {p : StationNo} (hi : s.drill.state ≠ .idle)
    (hr : s.drill.record = some r) (h : r.roll[p] = .pending) : rollPresence s p false =
      allClearTest (report (setRoll s r p .silent) (.rollStationSilent p)) := by
  unfold rollPresence
  rw [hr]
  dsimp only
  rw [if_neg hi, h]

/-- A peer that becomes absent leaves the roll, or is SILENT in it (R171). -/
theorem rollPresence_absent_cases (s : State) (p : StationNo) : rollPresence s p false = s ∨
    ∃ r, s.drill.record = some r ∧ rollPresence s p false =
      allClearTest (report (setRoll s r p .silent) (.rollStationSilent p)) := by
  unfold rollPresence
  cases hr : s.drill.record with
  | none => exact .inl rfl
  | some r =>
    dsimp only
    split
    · exact .inl rfl
    · split
      · next h => cases h
      · next h => cases h
      · exact .inr ⟨r, rfl, rfl⟩
      · exact .inl rfl

/-- What the ALL-CLEAR test leaves, whether it passes or not. -/
theorem allClearTest_keeps (w : State) : (allClearTest w).drill.record = w.drill.record ∧
    lineAside (allClearTest w).line = lineAside w.line ∧ TimeBankStays w (allClearTest w) := by
  by_cases h : ∃ r, TestPasses w r
  · obtain ⟨r, h⟩ := h
    have entered := allClearTest_enters h
    have moved : (moveDrill w .allClear).line = w.line := (moveDrill_ev w .allClear).same .line (by decide)
    refine ⟨entered.record, ?_, entered.bank⟩
    rw [allClearTest_passes h, offerState_aside]
    exact congrArg lineAside moved
  · have waits : allClearTest w = w := by
      unfold allClearTest
      split
      · rfl
      · next r hr => exact if_neg fun k => h ⟨r, hr, k.1, k.2⟩
    rw [waits]
    exact ⟨rfl, rfl, .refl w⟩

theorem rollPresence_absent_keeps (s : State) (p : StationNo) :
    lineAside (rollPresence s p false).line = lineAside s.line ∧ TimeBankStays s (rollPresence s p false) := by
  obtain e | ⟨r, hr, e⟩ := rollPresence_absent_cases s p <;> rw [e]
  · exact ⟨rfl, .refl s⟩
  · obtain ⟨_, aside, bank⟩ := allClearTest_keeps (report (setRoll s r p .silent) (.rollStationSilent p))
    exact ⟨aside, ((setRoll_hears hr p .silent).bank.trans (report_stays _ _)).trans bank⟩

/-- Of a present peer that becomes absent (R51, R171). -/
theorem losePeer_absent (s : State) (p : StationNo) : let t := losePeer s p
    t.line.roster = s.line.roster.set p { s.line.roster[p] with
      present := false
      mark := none
      sample := none
      fa := none } ∧
    (Taking s → Pending t .peerChange) ∧ (s.drill.state = .idle → Changes [.line, .faults] s t) ∧
    ∀ r, s.drill.state ≠ .idle → s.drill.record = some r → r.roll[p] = .pending →
      t.drill.record = some { r with roll := r.roll.set p .silent } := by
  obtain ⟨aside, bank⟩ := rollPresence_absent_keeps (peerLost s p) p
  have roster : (lineAside (rollPresence (peerLost s p) p false).line).roster = (lineAside (peerLost s p).line).roster :=
    congrArg LineUnit.roster aside
  intro t
  refine ⟨roster, fun taking => (raise_pending _ _ _).mpr (.inl ⟨bank.taking.trans taking, rfl⟩), fun idle => ?_,
    fun r running hr pending => ?_⟩
  · have lost : t = raise (peerLost s p) .peerChange := congrArg (raise · .peerChange) (rollPresence_idle (s := peerLost s p) idle p false)
    rw [lost]
    exact changes_trans (changes_mono (withLine_changes s _)) (changes_mono (raise_ev _ _).same)
  · have silent := rollPresence_silent (s := peerLost s p) running hr pending
    show (rollPresence (peerLost s p) p false).drill.record = _
    rw [silent, (allClearTest_keeps _).1]
    rfl

/-! ## A peer becomes present -/

theorem rollPresence_pends {s : State} {r : DrillRecord} {p : StationNo} (hi : s.drill.state ≠ .idle)
    (hr : s.drill.record = some r) (h : r.roll[p] = .silent ∨ r.roll[p] = .notExpected) :
    rollPresence s p true = setRoll s r p .pending := by
  unfold rollPresence
  rw [hr]
  dsimp only
  rw [if_neg hi]
  obtain h | h := h <;> rw [h] <;> exact allClearTest_pending s r p

theorem rollPresence_expected {s : State} {r : DrillRecord} {p : StationNo} (hr : s.drill.record = some r)
    (h : ¬ (r.roll[p] = .silent ∨ r.roll[p] = .notExpected)) : rollPresence s p true = s := by
  unfold rollPresence
  rw [hr]
  dsimp only
  split
  · rfl
  · split
    · next k _ => exact absurd (.inr k) h
    · next k _ => exact absurd (.inl k) h
    · next k => cases k
    · rfl

/-- The roll after a peer has become present, before a fetch evaluation (R52, R171). -/
def rollHeard (s : State) (p : StationNo) : State := rollPresence (peerKept (frameReceived s) p) p true

/-- The fetch evaluation of a peer that becomes present, where it held a plan key (R52, R69). -/
def planHeard (s : State) (p : StationNo) : State :=
  if s.line.roster[p].plan.isSome then evaluateFetch (rollHeard s p) else rollHeard s p

theorem frameReceived_roster (s : State) : (frameReceived s).line.roster = s.line.roster :=
  (receivedEnd_keeps s.line s.time.localCount).1

theorem frameHeard_absent {s : State} {p : StationNo} (h : s.line.roster[p].present = false) :
    frameHeard s p = deferenceCleared (raise (planHeard s p) .peerChange) := by
  have absent : ¬ (frameReceived s).line.roster[p].present = true := by
    rw [frameReceived_roster, h]
    exact Bool.false_ne_true
  have heard : hearPeer (frameReceived s) p = raise (if (frameReceived s).line.roster[p].plan.isSome then
      evaluateFetch (rollHeard s p) else rollHeard s p) .peerChange := if_neg absent
  rw [frameHeard_eq, heard, frameReceived_roster]
  rfl

theorem peerKept_changes (s : State) (p : StationNo) : Changes [.line] s (peerKept (frameReceived s) p) :=
  changes_trans (withLine_changes s _) (withLine_changes _ _)

theorem rollHeard_moves (s : State) (p : StationNo) : HearMoves (peerKept (frameReceived s) p) (rollHeard s p) :=
  rollPresence_hears _ p

theorem planHeard_moves (s : State) (p : StationNo) : FetchMoves (rollHeard s p) (planHeard s p) := by
  unfold planHeard
  split
  · exact evaluateFetch_moves _
  · exact .refl _

/-- The roll entry of a peer that becomes present in a running drill (R171). -/
theorem rollHeard_entry {s : State} {r : DrillRecord} (p : StationNo) (hi : s.drill.state ≠ .idle)
    (hr : s.drill.record = some r) :
    ((r.roll[p] = .silent ∨ r.roll[p] = .notExpected) →
      (rollHeard s p).drill.record = some { r with roll := r.roll.set p .pending } ∧
      (Taking s → Pending (rollHeard s p) .rollChange)) ∧
    (¬ (r.roll[p] = .silent ∨ r.roll[p] = .notExpected) → (rollHeard s p).drill.record = some r) := by
  refine ⟨fun h => ?_, fun h => ?_⟩
  · rw [rollHeard, rollPresence_pends (s := peerKept (frameReceived s) p) hi hr h]
    exact ⟨congrArg DrillUnit.record (setRoll_drill _ r p .pending), setRoll_pending r p .pending⟩
  · rw [rollHeard, rollPresence_expected (s := peerKept (frameReceived s) p) hr h]
    exact hr

/-- The fetch evaluation reads the plan, the count and the queue as they were before the frame. -/
theorem rollHeard_reports {s : State} {p : StationNo} {k : Key} {d : Digest} (hp : p ≠ s.start.station)
    (hk : s.line.roster[p].plan = some (k, d)) : Reports s (rollHeard s p) p k d := by
  have kept := peerKept_changes s p
  have rolled : Changes [.drill, .faults] (peerKept (frameReceived s) p) (rollHeard s p) := by
    obtain e | ⟨r, _, e⟩ := rollPresence_cases (peerKept (frameReceived s) p) p <;> rw [rollHeard, e]
    · exact fun f _ => by cases f <;> rfl
    · exact setRoll_changes _ _ _ _
  have all : Changes [.line, .drill, .faults] s (rollHeard s p) :=
    changes_trans (changes_mono kept) (changes_mono rolled)
  have line : (rollHeard s p).line = (peerKept (frameReceived s) p).line := rolled .line (by decide)
  have entries (q : StationNo) : (rollHeard s p).line.roster[q] =
      if p = q then heardEntry (frameReceived s) p else s.line.roster[q] := by
    rw [line]
    show ((frameReceived s).line.roster.set p _)[q] = _
    rw [vector_set_at, frameReceived_roster]
  have start : (rollHeard s p).start = s.start := all .start (by decide)
  obtain ⟨_, queue, listen⟩ := receivedEnd_keeps s.line s.time.localCount
  refine ⟨all .plan (by decide), congrArg TimeUnit.localCount (all .time (by decide)), start, ?_, fun q hq => ?_,
    hasRoom_of start (by rw [line]; exact queue) (by rw [line]; exact listen)⟩
  · unfold reportOf
    rw [entries, if_pos rfl, start, if_pos ⟨rfl, hp⟩]
    unfold heardEntry
    rw [frameReceived_roster]
    exact hk
  · unfold reportOf
    rw [entries, if_neg (Ne.symm hq), start]

/-- What a peer's presence does where no fetch evaluation follows (R46, R52). -/
theorem frameHeard_unfetched {s : State} {p : StationNo} (h : s.line.roster[p].present = false)
    (hf : s.start.opState = .join ∨ s.line.roster[p].plan = none) : let u := frameHeard s p
    u.plan = s.plan ∧ u.time = s.time ∧ u.line.queue = s.line.queue ∧
    (s.drill.state = .idle → u.drill = s.drill ∧ u.faults = (raise s .peerChange).faults) := by
  have start : (rollHeard s p).start = s.start :=
    ((rollHeard_moves s p).changes .start (by decide)).trans (peerKept_changes s p .start (by decide))
  have unfetched : planHeard s p = rollHeard s p := by
    unfold planHeard
    obtain join | none := hf
    · have idle : evaluateFetch (rollHeard s p) = rollHeard s p :=
        evaluateFetch_notRun (by rw [inRun, start, join]; rfl)
      rw [idle, ite_self]
    · rw [none]
      rfl
  intro u
  have heard : u = deferenceCleared (raise (rollHeard s p) .peerChange) := by rw [← unfetched]; exact frameHeard_absent h
  have rolled : (rollHeard s p).plan = s.plan ∧ (rollHeard s p).time = s.time ∧
      (rollHeard s p).line.queue = (receivedEnd s.line s.time.localCount).queue := by
    obtain e | ⟨r, _, e⟩ := rollPresence_cases (peerKept (frameReceived s) p) p <;> rw [rollHeard, e] <;>
      exact ⟨rfl, rfl, rfl⟩
  rw [heard]
  refine ⟨rolled.1, rolled.2.1, rolled.2.2.trans (receivedEnd_keeps _ _).2.1, fun idle => ?_⟩
  rw [rollHeard, rollPresence_idle (s := peerKept (frameReceived s) p) idle]
  exact ⟨rfl, rfl⟩

/-! ## The frame of a present peer -/

/-- A line that shows the end of a frame at this moment shows it again after another one. -/
theorem receivedEnd_again {l m : LineUnit} {now : Count} (activity : m.activity = (receivedEnd l now).activity)
    (quiet : m.quiet = (receivedEnd l now).quiet) (dominant : m.dominant = (receivedEnd l now).dominant)
    (stuck : m.stuckFrom = (receivedEnd l now).stuckFrom) : receivedEnd m now = m := by
  unfold receivedEnd at *
  by_cases h : l.activity = .sending
  · rw [if_pos h] at activity stuck
    rw [if_pos (activity.trans h), ← show m.stuckFrom = now from stuck]
  · rw [if_neg h] at activity quiet dominant stuck
    have busy : m.activity = .busy := activity
    rw [if_neg (by rw [busy]; exact nofun)]
    show { m with
      quiet := (validFrameEnded l now).quiet
      activity := (validFrameEnded l now).activity
      dominant := (validFrameEnded l now).dominant
      stuckFrom := (validFrameEnded l now).stuckFrom } = m
    rw [← activity, ← quiet, ← dominant, ← stuck]

theorem set_own_entry (v : Vector RosterEntry 16) (p : StationNo) : v.set p v[p] = v := by
  refine Vector.ext fun i hi => ?_
  have := vector_set_at v p ⟨i, hi⟩ v[p]
  refine this.trans ?_
  split
  · next h => rw [h]; rfl
  · rfl

/-- A second frame of the peer at the same moment changes nothing. -/
theorem frameHeard_again (s : State) (p : StationNo) : frameHeard (frameHeard s p) p = frameHeard s p := by
  have heard := frameHeard_hears s p
  have aside : lineAside (hearPeer (frameReceived s) p).line = lineAside (peerKept (frameReceived s) p).line :=
    (hearPeer_moves (frameReceived s) p).aside
  have count : (frameHeard s p).time.localCount = s.time.localCount := congrArg TimeUnit.localCount heard.time
  have entry := heard.entry p
  rw [if_pos rfl] at entry
  have ended : receivedEnd (frameHeard s p).line s.time.localCount = (frameHeard s p).line :=
    receivedEnd_again (l := s.line) (congrArg LineUnit.activity aside :) (congrArg LineUnit.quiet aside :)
      (congrArg LineUnit.dominant aside :) (congrArg LineUnit.stuckFrom aside :)
  have deference : (frameHeard s p).line.deference = false := rfl
  generalize frameHeard s p = u at *
  have received : frameReceived u = u := by
    unfold frameReceived
    rw [count, ended]
    rfl
  have present : u.line.roster[p].present = true := by rw [entry]
  have kept : peerKept u p = u := by
    have own : heardEntry u p = u.line.roster[p] := by
      unfold heardEntry
      rw [entry, count]
    unfold peerKept setRoster
    rw [own, set_own_entry]
    rfl
  rw [frameHeard_eq, received, hearPeer_present present, kept]
  unfold deferenceCleared
  rw [← deference]
  rfl

end Sys2Proof.Proofs
end

section
/-! Every valid frame of a peer is heard, and then taken as a present peer's (R46, R52). -/

namespace Sys2Proof.Proofs

open Sys2Proof Sys2Proof.Machine Sys2Proof.Laws

/-- A row that carries a frame of peer p: how it is received, and what its owner leaves. -/
structure FrameRow (i : Instr) (p : StationNo) where
  kind : FrameKind
  payload : List Byte
  hand : Option (State → State)
  received : ∀ u, exec i u = .next (whenListening u (receive u kind p payload hand))
  allowed : lengthAllowed kind payload = true
  heard : ∀ u, StaysHeard u (hand.getD id u)
  drill : (∀ x, i ≠ .drillStateFrame p x) → (∀ x, i ≠ .endFrame p x) → ∀ u, DrillStands u (hand.getD id u)

theorem map_heard {α : Type} {x : Option α} {f : α → State → State} (h : ∀ a u, StaysHeard u (f a u)) (u : State) :
    StaysHeard u ((x.map f).getD id u) := by
  cases x with
  | none => exact .refl u
  | some a => exact h a u

theorem map_drillStands {α : Type} {x : Option α} {f : α → State → State} (h : ∀ a u, DrillStands u (f a u))
    (u : State) : DrillStands u ((x.map f).getD id u) := by
  cases x with
  | none => exact ⟨rfl, rfl⟩
  | some a => exact h a u

theorem drillPayload_of_form {form : Nat} {payload : List Byte} (h : fieldValue payload 0 1 = form) :
    drillPayload form payload = payload := if_pos h

/-- The rows of the eight kinds of frame. -/
theorem frameRow_of {i : Instr} {p : StationNo} {payload : List Byte}
    (h : (i = .beacon p payload ∧ lengthAllowed .beacon payload = true) ∨
      (i = .settime p payload ∧ lengthAllowed .settime payload = true) ∨
      (i = .plan p payload ∧ lengthAllowed .plan payload = true) ∨
      (i = .planreq p payload ∧ lengthAllowed .planreq payload = true) ∨
      (i = .announceFrame p payload ∧ lengthAllowed .announce payload = true) ∨
      (i = .annend p payload ∧ lengthAllowed .annend payload = true) ∨
      (i = .drillStateFrame p payload ∧ payload.length = 20 ∧ fieldValue payload 0 1 = 0) ∨
      (i = .endFrame p payload ∧ payload.length = 10 ∧ fieldValue payload 0 1 = 1)) : Nonempty (FrameRow i p) := by
  obtain ⟨rfl, hl⟩ | ⟨rfl, hl⟩ | ⟨rfl, hl⟩ | ⟨rfl, hl⟩ | ⟨rfl, hl⟩ | ⟨rfl, hl⟩ | ⟨rfl, hl, hf⟩ | ⟨rfl, hl, hf⟩ := h
  · exact ⟨⟨.beacon, payload, _, fun _ => rfl, hl, map_heard fun c u => handBeacon_heard u p c,
      fun _ _ => map_drillStands fun c u => handBeacon_drillStands u p c⟩⟩
  · exact ⟨⟨.settime, payload, _, fun _ => rfl, hl, map_heard fun x u => takeSettime_heard u x.1 x.2,
      fun _ _ => map_drillStands fun x u => drillStands_of_eq ((takeSettime_ev u x.1 x.2).same .drill (by decide))⟩⟩
  · exact ⟨⟨.plan, payload, _, fun _ => rfl, hl, map_heard fun x u => handPlan_heard u x,
      fun _ _ => map_drillStands fun x u => handPlan_drillStands u x⟩⟩
  · exact ⟨⟨.planreq, payload, _, fun _ => rfl, hl, map_heard fun x u => takePlanreq_heard u x.1 x.2,
      fun _ _ => map_drillStands fun x u => takePlanreq_drillStands u x.1 x.2⟩⟩
  · exact ⟨⟨.announce, payload, _, fun _ => rfl, hl, map_heard fun c u => handAnnounce_heard u p c,
      fun _ _ => map_drillStands fun c u => handAnnounce_drillStands u p c⟩⟩
  · exact ⟨⟨.annend, payload, _, fun _ => rfl, hl, map_heard fun x u => handAnnend_heard u p x,
      fun _ _ => map_drillStands fun x u => drillStands_of_eq ((handAnnend_ev u p x).same .drill (by decide))⟩⟩
  · exact ⟨⟨.drill, drillPayload 0 payload, _, fun _ => rfl,
      by rw [drillPayload_of_form hf]; simp [lengthAllowed, hl, hf],
      map_heard fun c u => handDrillState_heard u p c, fun other _ => absurd rfl (other payload)⟩⟩
  · exact ⟨⟨.drill, drillPayload 1 payload, _, fun _ => rfl,
      by rw [drillPayload_of_form hf]; simp [lengthAllowed, hl, hf],
      map_heard fun e u => handEnd_heard u p e, fun _ other => absurd rfl (other payload)⟩⟩

/-- A frame of right length of another station is heard, and handed to its owner where it has a meaning (R46). -/
theorem receive_heard {s : State} {kind : FrameKind} {p : StationNo} {payload : List Byte}
    (hl : lengthAllowed kind payload = true) (hp : p ≠ s.start.station) (hand : Option (State → State)) :
    receive s kind p payload hand = dropCapture (hand.getD id (frameHeard s p)) := by
  unfold receive
  rw [hl, if_neg (by decide), if_neg hp]
  cases hand <;> rfl

theorem exec_frameRow {i : Instr} {s : State} {p : StationNo} (row : FrameRow i p) (ha : Active s)
    (hp : p ≠ s.start.station) : exec i s = .next (dropCapture (row.hand.getD id (frameHeard s p))) := by
  rw [row.received, whenListening_active ha, receive_heard row.allowed hp]

/-- The frame has the effect that it has once its sender is present (R46, R52). -/
theorem exec_frameRow_heard {i : Instr} {s : State} {p : StationNo} (row : FrameRow i p) (ha : Active s)
    (hp : p ≠ s.start.station) : exec i s = exec i (frameHeard s p) := by
  have start : (frameHeard s p).start = s.start := (frameHeard_hears s p).changes .start (by decide)
  have active : Active (frameHeard s p) := by
    unfold Active alive working at *
    rw [start]
    exact ha
  rw [exec_frameRow row ha hp, exec_frameRow row active (start ▸ hp), frameHeard_again]

/-- What hearing an absent peer does to the notices and to a running drill (R52, R171). -/
theorem frameHeard_present_anew {s : State} {p : StationNo} (h : s.line.roster[p].present = false) :
    let u := frameHeard s p
    (Taking s → Pending u .peerChange) ∧ ∀ r, s.drill.state ≠ .idle → s.drill.record = some r →
      ((r.roll[p] = .silent ∨ r.roll[p] = .notExpected) →
        u.drill.record = some { r with roll := r.roll.set p .pending } ∧ (Taking s → Pending u .rollChange)) ∧
      (¬ (r.roll[p] = .silent ∨ r.roll[p] = .notExpected) → u.drill.record = some r) := by
  have rolled := (rollHeard_moves s p).bank
  have planned := planHeard_moves s p
  have drill : (planHeard s p).drill = (rollHeard s p).drill := planned.changes .drill (by decide)
  have taking : (planHeard s p).faults.taking = s.faults.taking := planned.bank.taking.trans rolled.taking
  intro u
  have heard : u = deferenceCleared (raise (planHeard s p) .peerChange) := frameHeard_absent h
  rw [heard]
  refine ⟨fun ht => (raise_pending (planHeard s p) _ _).mpr (.inl ⟨taking.trans ht, rfl⟩), fun r hi hr => ?_⟩
  obtain ⟨pends, expected⟩ := rollHeard_entry p hi hr
  refine ⟨fun k => ⟨(congrArg DrillUnit.record drill).trans (pends k).1, fun ht => ?_⟩,
    fun k => (congrArg DrillUnit.record drill).trans (expected k)⟩
  exact (raise_pending (planHeard s p) _ _).mpr (.inr (planned.bank.pending _ ((pends k).2 ht)))

/-- Where an absent peer held a plan key, the fetch evaluation in RUN is that of R69. -/
theorem frameHeard_fetches {s : State} {p : StationNo} (hp : p ≠ s.start.station)
    (h : s.line.roster[p].present = false) {k : Key} {d : Digest} (hr : s.start.opState = .run)
    (hk : s.line.roster[p].plan = some (k, d)) : FetchEvaluated s (frameHeard s p) p k d := by
  have reports := rollHeard_reports hp hk
  have run : inRun (rollHeard s p) = true := by
    rw [inRun, reports.start, hr]
    rfl
  have planned : planHeard s p = evaluateFetch (rollHeard s p) := if_pos (by rw [hk]; rfl)
  rw [frameHeard_absent h, planned]
  exact reports.evaluated run

/-- Settles O20: the absence of a peer, the first step of a frame's handling, and the frame taken after it. -/
theorem peersAreHeardAndBecomeAbsent : Obligations.PeersAreHeardAndBecomeAbsent := by
  refine ⟨fun s p ha hp present => ⟨_, exec_absenceDeadline ha hp present, ?_⟩, fun s p ha hp => ?_,
    fun s p payload i ha hp hi => ?_⟩
  · obtain ⟨roster, notice, idle, silent⟩ := losePeer_absent s p
    rw [roster]
    refine ⟨(vector_set_at ..).trans (if_pos rfl), fun q hq => (vector_set_at ..).trans (if_neg (Ne.symm hq)), notice,
      idle, silent⟩
  · intro e u
    have heard := frameHeard_hears s p
    refine ⟨heard.roster, rfl, fun present => ?_, fun absent => ?_⟩
    · obtain ⟨changes, queue, _⟩ := frameHeard_present present
      exact ⟨queue, changes⟩
    · obtain ⟨notice, roll⟩ := frameHeard_present_anew absent
      refine ⟨notice, ?_, congrArg TimeUnit.localCount heard.time, congrArg TimeUnit.capture heard.time, heard.active,
        heard.drill.1, roll, frameHeard_unfetched absent, fun k d run plan => frameHeard_fetches hp absent run plan,
        changes_mono heard.changes⟩
      unfold currentReading
      rw [heard.time]
  · obtain ⟨row⟩ := frameRow_of hi
    have heard := frameHeard_hears s p
    have stays := row.heard (frameHeard s p)
    have entry := heard.entry p
    rw [if_pos rfl] at entry
    obtain ⟨deference, roster⟩ := stays.line
    obtain ⟨present, lastHeard⟩ := roster p
    rw [entry] at present lastHeard
    refine ⟨exec_frameRow_heard row ha hp, _, exec_frameRow row ha hp, present, lastHeard, deference, fun absent => ?_⟩
    obtain ⟨notice, roll⟩ := frameHeard_present_anew absent
    refine ⟨fun ht => stays.pending _ (notice ht), fun hs he r hi hr => ?_⟩
    obtain ⟨state, record⟩ := row.drill hs he (frameHeard s p)
    obtain ⟨pends, expected⟩ := roll r hi hr
    refine ⟨state.trans heard.drill.1, fun k => ⟨record.trans (pends k).1, fun ht => stays.pending _ ((pends k).2 ht)⟩,
      fun n cleared => record.trans (expected ?_)⟩
    rw [cleared]
    exact nofun

end Sys2Proof.Proofs
end

section
/-! Announcements that end, and LIVE announcements that are cancelled (R136, R143): what the table, the claim, the last
own outcome and the AUDIO bank become. -/

namespace Sys2Proof.Proofs

open Sys2Proof Sys2Proof.Machine Sys2Proof.Laws

/-! ## An entry that ends -/

/-- The station with an entry gone and its claim withdrawn, before the owner is told. -/
def entryGone (s : State) (i : TablePos) : State := setEntry (withArbiter s (withdrawWhole s.arb (annSlot i))) i none

theorem setEntry_ann (s : State) (i : TablePos) (x : Option AnnEntry) :
    (setEntry s i x).ann = { s.ann with table := s.ann.table.set i x } := rfl

theorem setEntry_arb (s : State) (i : TablePos) (x : Option AnnEntry) : (setEntry s i x).arb = s.arb := rfl

theorem entryGone_ann (s : State) (i : TablePos) :
    (entryGone s i).ann = { s.ann with table := s.ann.table.set i none } := by
  rw [entryGone, setEntry_ann, withArbiter_ann]

theorem entryGone_arb (s : State) (i : TablePos) : (entryGone s i).arb = withdrawWhole s.arb (annSlot i) := by
  rw [entryGone, setEntry_arb, withArbiter_arb]

theorem entryGone_faults (s : State) (i : TablePos) : (entryGone s i).faults = s.faults := by
  rw [entryGone, setEntry_faults, withArbiter_faults]

/-- The owner of an own entry is told that it has ended with an outcome. -/
def toldEnded (s : State) (e : AnnEntry) (o : AnnOutcome) : State :=
  raise (s.withAnn { s.ann with lastOwn := some ⟨e.id.seq, e.start, e.kind, o⟩ }) .announceEnded

theorem toldEnded_ann (s : State) (e : AnnEntry) (o : AnnOutcome) :
    (toldEnded s e o).ann = { s.ann with lastOwn := some ⟨e.id.seq, e.start, e.kind, o⟩ } := rfl

theorem toldEnded_arb (s : State) (e : AnnEntry) (o : AnnOutcome) : (toldEnded s e o).arb = s.arb := rfl

theorem toldEnded_bank (s : State) (e : AnnEntry) (o : AnnOutcome) :
    (toldEnded s e o).faults.taking = s.faults.taking ∧ (toldEnded s e o).faults.banks = s.faults.banks :=
  ⟨raise_taking _ _, raise_banks _ _⟩

theorem toldEnded_pending {s : State} (ht : Taking s) (e : AnnEntry) (o : AnnOutcome) :
    Pending (toldEnded s e o) .announceEnded := (raise_pending _ _ _).mpr (.inl ⟨ht, rfl⟩)

theorem endEntry_eq {s : State} {i : TablePos} {e : AnnEntry} (he : s.ann.table[i] = some e) (o : AnnOutcome) :
    endEntry s i o = if e.id.origin = s.start.station then toldEnded (entryGone s i) e o else entryGone s i := by
  unfold endEntry
  rw [he]
  rfl

theorem endEntry_own {s : State} {i : TablePos} {e : AnnEntry} (he : s.ann.table[i] = some e)
    (own : e.id.origin = s.start.station) (o : AnnOutcome) : endEntry s i o = toldEnded (entryGone s i) e o :=
  (endEntry_eq he o).trans (if_pos own)

theorem endEntry_other {s : State} {i : TablePos} {e : AnnEntry} (he : s.ann.table[i] = some e)
    (own : e.id.origin ≠ s.start.station) (o : AnnOutcome) : endEntry s i o = entryGone s i :=
  (endEntry_eq he o).trans (if_neg own)

theorem endEntry_none {s : State} {i : TablePos} (he : s.ann.table[i] = none) (o : AnnOutcome) :
    endEntry s i o = s := by
  unfold endEntry
  rw [he]

theorem endEntry_ended {s : State} {i : TablePos} {e : AnnEntry} (he : s.ann.table[i] = some e) (o : AnnOutcome) :
    EntryEnded s (endEntry s i o) i e o := by
  have taking (ht : Taking s) : Taking (entryGone s i) := by
    unfold Taking
    rw [entryGone_faults]
    exact ht
  by_cases own : e.id.origin = s.start.station
  · rw [endEntry_own he own]
    unfold EntryEnded
    rw [toldEnded_ann, toldEnded_arb, entryGone_ann, entryGone_arb, if_pos own]
    exact ⟨rfl, rfl, rfl, rfl, fun _ ht => toldEnded_pending (taking ht) e o⟩
  · rw [endEntry_other he own]
    unfold EntryEnded
    rw [entryGone_ann, entryGone_arb, if_neg own]
    exact ⟨rfl, rfl, rfl, rfl, fun h => absurd h own⟩

/-- An entry that ends leaves the campus live record, and the AUDIO bank with the others. -/
theorem endEntry_keeps (s : State) (i : TablePos) (o : AnnOutcome) : (endEntry s i o).ann.live = s.ann.live ∧
    (endEntry s i o).faults.taking = s.faults.taking ∧ (endEntry s i o).faults.banks = s.faults.banks := by
  cases he : s.ann.table[i] with
  | none =>
    rw [endEntry_none he]
    exact ⟨rfl, rfl, rfl⟩
  | some e =>
    by_cases own : e.id.origin = s.start.station
    · obtain ⟨taking, banks⟩ := toldEnded_bank (entryGone s i) e o
      rw [endEntry_own he own, taking, banks, toldEnded_ann, entryGone_ann, entryGone_faults]
      exact ⟨rfl, rfl, rfl⟩
    · rw [endEntry_other he own, entryGone_ann, entryGone_faults]
      exact ⟨rfl, rfl, rfl⟩

theorem endEntry_faults_other {s : State} {i : TablePos} {e : AnnEntry} (he : s.ann.table[i] = some e)
    (own : e.id.origin ≠ s.start.station) (o : AnnOutcome) : (endEntry s i o).faults = s.faults := by
  rw [endEntry_other he own, entryGone_faults]

/-! ## The AUDIO bank -/

/-- From s to t the Fault Unit takes as before, and the AUDIO bank stands. -/
structure AudioStays (s t : State) : Prop where
  taking : t.faults.taking = s.faults.taking
  bank : t.faults.banks[bankIndex .audio] = s.faults.banks[bankIndex .audio]

theorem AudioStays.of_faults {s t : State} (h : t.faults = s.faults) : AudioStays s t := ⟨by rw [h], by rw [h]⟩

theorem AudioStays.trans {s t u : State} (h : AudioStays s t) (k : AudioStays t u) : AudioStays s u :=
  ⟨k.taking.trans h.taking, k.bank.trans h.bank⟩

theorem AudioStays.after {s t u : State} (k : AudioStays t u) (h : t.faults = s.faults) : AudioStays s u :=
  (AudioStays.of_faults h).trans k

theorem AudioStays.foldl {α : Type} {f : State → α → State} (k : ∀ s x, AudioStays s (f s x)) (l : List α) :
    ∀ s, AudioStays s (l.foldl f s) := by
  induction l with
  | nil => exact fun s => .of_faults rfl
  | cons x l ih => exact fun s => (k s x).trans (ih _)

theorem endEntry_audio (s : State) (i : TablePos) (o : AnnOutcome) : AudioStays s (endEntry s i o) := by
  obtain ⟨_, taking, banks⟩ := endEntry_keeps s i o
  exact ⟨taking, by rw [banks]⟩

theorem overflow_audio (s : State) (k : FrameKind) : AudioStays s (report s (.queueOverflow k)) :=
  ⟨report_taking s _, report_banks s _ (show bankIndex .line ≠ bankIndex .audio by decide)⟩

theorem cursorStep_audio (s : State) : AudioStays s (cursorStep s) := by
  unfold cursorStep
  split
  · split
    · dsimp only
      split
      · exact .of_faults rfl
      · exact (overflow_audio _ .plan).after rfl
    · exact .of_faults rfl
  · exact .of_faults rfl

theorem runCursor_audio (s : State) : AudioStays s (runCursor s) := (cursorStep_audio s).trans (cursorStep_audio _)

theorem toldPlan_audio (s : State) (k : Key) (i : Nat) (o : TxOutcome) : AudioStays s (toldPlan s k i o) := by
  have run (p : PlanUnit) : AudioStays s (runCursor (s.withPlan p)) := (runCursor_audio _).after rfl
  unfold toldPlan
  split
  · cases o with
    | sent | suppressed | dropped | evicted | replaced => exact run _
    | refused | discarded => exact .of_faults rfl
  · exact .of_faults rfl

theorem told_audio (s : State) (b : FrameBody) (o : TxOutcome) : AudioStays s (told s b o) := by
  unfold told
  split
  · exact .of_faults rfl
  · exact .of_faults rfl
  · exact toldPlan_audio s _ _ _
  · exact .of_faults rfl

theorem reportRefusals_audio (s : State) (l : List (FrameBody × TxOutcome)) : AudioStays s (reportRefusals s l) := by
  refine AudioStays.foldl (fun s x => ?_) l s
  split
  · exact overflow_audio s _
  · exact .of_faults rfl

theorem tellAll_audio (s : State) (l : List (FrameBody × TxOutcome)) : AudioStays s (tellAll s l) :=
  AudioStays.foldl (α := FrameBody × TxOutcome) (fun s x => told_audio s x.1 x.2) l s

/-- An offer records a fault of the LINE bank at most. -/
theorem offer_audio (s : State) (b : FrameBody) : AudioStays s (offer s b) := by
  unfold offer
  split
  · exact AudioStays.after ((reportRefusals_audio _ _).trans (tellAll_audio _ _)) rfl
  · exact told_audio s b _

/-- What a fault writes depends on the Fault Unit, the image and the reading alone. -/
theorem report_faults_congr {s t : State} (c : FaultCode) (faults : t.faults = s.faults) (image : t.image = s.image)
    (reading : currentReading t = currentReading s) : (report t c).faults = (report s c).faults := by
  show faultsReport t.faults t.image (currentReading t) c = faultsReport s.faults s.image (currentReading s) c
  rw [faults, image, reading]

/-- A corrected AUDIO fault, reported where image, time and AUDIO bank are those of s. -/
theorem audioRecorded_report {s t : State} {f : FaultCode} {id : Id} {code : Nat} (stays : AudioStays s t)
    (image : t.image = s.image) (quality : t.time.quality = s.time.quality) (campus : t.time.campus = s.time.campus)
    (bank : faultBank f = .audio) (corrects : faultUncorrected f = false) (number : faultNumber f = code)
    (detail : faultDetail f = some (.announcement id)) : AudioRecorded s (report t f) f code id := by
  intro taking b
  have recorded := report_corrected t f (stays.taking.trans taking) corrects
  simp only [bank, number, detail, stays.bank, image, quality, campus] at recorded
  exact recorded

end Sys2Proof.Proofs
end

section
/-! LIVE precedence (R136): who wins, the LIVE entry that gives way, and the record that is set. -/

namespace Sys2Proof.Proofs

open Sys2Proof Sys2Proof.Machine Sys2Proof.Laws

/-! ## The announcements that a station knows -/

theorem isLive_iff (k : AnnKind) : isLive k = true ↔ ∃ l, k = .live l := by
  cases k with
  | live l => exact ⟨fun _ => ⟨l, rfl⟩, fun _ => rfl⟩
  | chime c n => exact ⟨nofun, nofun⟩

theorem isLive_live (l : Nat) : isLive (.live l) = true := rfl

theorem findEntry_isSome_iff (a : AnnUnit) (id : Id) (start : CampusTime) : (findEntry a id start).isSome = true ↔
    ∃ (i : TablePos) (e : AnnEntry), a.table[i] = some e ∧ e.id = id ∧ e.start = start := by
  unfold findEntry
  rw [List.find?_isSome]
  constructor
  · rintro ⟨i, _, hi⟩
    cases he : a.table[i] with
    | none => rw [he] at hi; cases hi
    | some e =>
      rw [he] at hi
      have hi : (decide (e.id = id) && decide (e.start = start)) = true := hi
      simp only [Bool.and_eq_true, decide_eq_true_eq] at hi
      exact ⟨i, e, he, hi⟩
  · rintro ⟨i, e, he, rfl, rfl⟩
    refine ⟨i, List.mem_finRange i, ?_⟩
    rw [he]
    simp

theorem isLiveRecord_iff (a : AnnUnit) (id : Id) (start : CampusTime) : isLiveRecord a id start = true ↔
    ∃ r, a.live = some r ∧ r.id = id ∧ r.start = start := by
  unfold isLiveRecord
  cases a.live with
  | none => exact ⟨nofun, fun ⟨r, h, _⟩ => nomatch h⟩
  | some r => simp

theorem winsLive_iff (s : State) (id : Id) (start : CampusTime) :
    winsLive s.ann id start = true ↔ LiveWins s start id.origin := by
  unfold winsLive LiveWins
  cases s.ann.live with
  | none => exact ⟨fun _ r h => (nomatch h), fun _ => rfl⟩
  | some x =>
    simp only [startPrecedes_iff, Option.some.injEq]
    exact ⟨fun h r e => e ▸ h, fun h => h x rfl⟩

/-! ## The LIVE entry that is cancelled -/

/-- The offer of the ANNEND for an own entry before it is cancelled. -/
def cancelTold (s : State) (e : AnnEntry) : State :=
  if e.id.origin = s.start.station then offer s (.annend e.id.seq e.start) else s

theorem cancelEntry_of_live {s : State} {i : TablePos} {e : AnnEntry} (he : s.ann.table[i] = some e)
    (hl : isLive e.kind = true) :
    cancelEntry s i = report (endEntry (cancelTold s e) i .cancelled) (.liveConflict e.id) := by
  unfold cancelEntry
  rw [he]
  exact if_pos hl

theorem cancelEntry_of_other {s : State} {i : TablePos} (h : ∀ e, s.ann.table[i] = some e → isLive e.kind = false) :
    cancelEntry s i = s := by
  unfold cancelEntry
  split
  · rfl
  · next e he => exact if_neg (by rw [h e he]; exact Bool.false_ne_true)

theorem foldl_cancelEntry_of_others {s : State} {l : List TablePos}
    (h : ∀ i ∈ l, ∀ e, s.ann.table[i] = some e → isLive e.kind = false) : l.foldl cancelEntry s = s := by
  induction l with
  | nil => rfl
  | cons i l ih =>
    rw [List.foldl_cons, cancelEntry_of_other (h i List.mem_cons_self)]
    exact ih fun j hj => h j (List.mem_cons_of_mem i hj)

theorem noLiveEntry_iff (s : State) : NoLiveEntry s ↔ liveEntry s.ann = none := by
  rw [liveEntry_none]
  refine ⟨fun h i e he => ?_, fun h i e l he hk => ?_⟩
  · cases hk : e.kind with
    | live l => exact absurd hk (h i e l he)
    | chime c n => rfl
  · have := h i e he
    rw [hk] at this
    cases this

theorem cancelLive_of_noLiveEntry {s : State} (h : NoLiveEntry s) : cancelLive s = s :=
  foldl_cancelEntry_of_others fun i _ => liveEntry_none.mp ((noLiveEntry_iff s).mp h) i

/-- The one LIVE entry of the table is the one that is cancelled (R132). -/
theorem cancelLive_of_live {s : State} (ok : AnnOk s.ann) {i : TablePos} {e : AnnEntry} (he : s.ann.table[i] = some e)
    (hl : isLive e.kind = true) : cancelLive s = cancelEntry s i := by
  have others (j : TablePos) (hj : j ≠ i) (d : AnnEntry) (hd : s.ann.table[j] = some d) : isLive d.kind = false :=
    Bool.eq_false_iff.mpr fun k => hj (ok.2 j i d e hd he k hl)
  have gone (j : TablePos) (d : AnnEntry) (hd : (cancelEntry s i).ann.table[j] = some d) : isLive d.kind = false := by
    rw [cancelEntry_at, he] at hd
    by_cases hij : i = j
    · rw [if_pos ⟨hij, hl⟩] at hd
      cases hd
    · rw [if_neg fun k => hij k.1] at hd
      exact others j (fun k => hij k.symm) d hd
  obtain ⟨pre, post, split, fresh⟩ := List.eq_append_cons_of_mem (List.mem_finRange i)
  unfold cancelLive
  rw [split, List.foldl_append, List.foldl_cons,
    foldl_cancelEntry_of_others fun j hj => others j fun k => fresh (k ▸ hj)]
  exact foldl_cancelEntry_of_others fun j _ => gone j

theorem cancelTold_changes (s : State) (e : AnnEntry) :
    Changes [.line, .plan, .time, .drill, .faults] s (cancelTold s e) := by
  unfold cancelTold
  split
  · exact (offer_ev s _).same
  · exact fun f _ => by cases f <;> rfl

theorem cancelTold_audio (s : State) (e : AnnEntry) : AudioStays s (cancelTold s e) := by
  unfold cancelTold
  split
  · exact offer_audio s _
  · exact .of_faults rfl

theorem cancelTold_time (s : State) (e : AnnEntry) :
    (cancelTold s e).time = { s.time with setCopies := (cancelTold s e).time.setCopies } := by
  unfold cancelTold
  split
  · exact offer_time s _
  · rfl

/-- The record set at u for a LIVE announcement. -/
def recordSet (s u : State) (id : Id) (start : CampusTime) (limit : Nat) : State :=
  u.withAnn { u.ann with live := some (liveRecordAt s id start limit) }

theorem recordSet_changes (s u : State) (id : Id) (start : CampusTime) (limit : Nat) :
    Changes [.ann] u (recordSet s u id start limit) := by
  intro f hf
  cases f
  case ann => exact absurd (by decide) hf
  all_goals rfl

/-- A LIVE announcement that wins: the LIVE entry is cancelled, then the record is set (R136). -/
theorem judgeLive_eq {s : State} {id : Id} {start : CampusTime} (h : LiveWins s start id.origin) (limit : Nat) :
    judgeLive s id start limit = recordSet s (cancelLive s) id start limit :=
  if_pos ((winsLive_iff s id start).mpr h)

theorem entryEnded_recordSet {s u v : State} {i : TablePos} {e : AnnEntry} {o : AnnOutcome} (h : EntryEnded s u i e o)
    (id : Id) (start : CampusTime) (limit : Nat) : EntryEnded s (recordSet v u id start limit) i e o := h

theorem entryEnded_reported {s u : State} {i : TablePos} {e : AnnEntry} {o : AnnOutcome} (h : EntryEnded s u i e o)
    (c : FaultCode) : EntryEnded s (report u c) i e o := by
  obtain ⟨table, seq, arb, own, pending⟩ := h
  exact ⟨table, seq, arb, own, fun ho ht => report_pending u c _ (pending ho ht)⟩

theorem cancelTold_ended {s : State} {i : TablePos} {e : AnnEntry} (he : s.ann.table[i] = some e) (o : AnnOutcome) :
    EntryEnded s (endEntry (cancelTold s e) i o) i e o := by
  have changes := cancelTold_changes s e
  have ann : (cancelTold s e).ann = s.ann := changes .ann (by decide)
  have arb : (cancelTold s e).arb = s.arb := changes .arb (by decide)
  have start : (cancelTold s e).start = s.start := changes .start (by decide)
  have ended := endEntry_ended (s := cancelTold s e) (by rw [ann]; exact he) o
  have taking := (cancelTold_audio s e).taking
  unfold EntryEnded Taking at ended
  rw [ann, arb, start, taking] at ended
  exact ended

/-- The LIVE entry at position i gives way to the announcement whose record is set (R136). -/
theorem liveTakes_cancelEntry {s : State} {i : TablePos} {e : AnnEntry} (he : s.ann.table[i] = some e)
    (hl : isLive e.kind = true) (id : Id) (start : CampusTime) (limit : Nat) :
    LiveTakes s (recordSet s (cancelEntry s i) id start limit) i e id start limit := by
  have told := cancelTold_changes s e
  have ann : (cancelTold s e).ann = s.ann := told .ann (by decide)
  have time := cancelTold_time s e
  have ending := (endEntry_ev (cancelTold s e) i .cancelled).same
  have endTime : (endEntry (cancelTold s e) i .cancelled).time = (cancelTold s e).time := ending .time (by decide)
  have image : (endEntry (cancelTold s e) i .cancelled).image = s.image :=
    (ending .image (by decide)).trans (told .image (by decide))
  have audio : AudioStays s (endEntry (cancelTold s e) i .cancelled) :=
    (cancelTold_audio s e).trans (endEntry_audio _ i _)
  have count : (endEntry (cancelTold s e) i .cancelled).time.localCount = s.time.localCount := by rw [endTime, time]
  have campus : (endEntry (cancelTold s e) i .cancelled).time.campus = s.time.campus := by rw [endTime, time]
  have quality : (endEntry (cancelTold s e) i .cancelled).time.quality = s.time.quality := by rw [endTime, time]
  have changes : Changes [.ann, .arb, .synth, .faults, .line, .plan, .time, .drill] s (cancelEntry s i) :=
    changes_mono (cancelEntry_ev s i).same
  rw [cancelEntry_of_live he hl] at changes ⊢
  refine ⟨entryEnded_recordSet (entryEnded_reported (cancelTold_ended he _) _) _ _ _, rfl, fun own room => ?_,
    fun other => ?_, audioRecorded_report audio image quality campus rfl rfl rfl rfl, count, campus, quality,
    changes_trans changes (changes_mono (recordSet_changes _ _ _ _ _))⟩
  · have line : (endEntry (cancelTold s e) i .cancelled).line = (offer s (.annend e.id.seq e.start)).line :=
      (ending .line (by decide)).trans (congrArg State.line (if_pos own))
    show Queued (endEntry (cancelTold s e) i .cancelled).line _
    rw [line]
    exact (offer_room room.1 (.inl room.2)).1
  · have untold : cancelTold s e = s := if_neg other
    have faults : (endEntry s i .cancelled).faults = s.faults := endEntry_faults_other he other _
    show (report (endEntry (cancelTold s e) i .cancelled) _).faults = _
    rw [untold] at image endTime ⊢
    exact report_faults_congr _ faults image (by unfold currentReading; rw [endTime])

end Sys2Proof.Proofs
end

section
/-! Admission (R135), and the announcement that is admitted (R137 to R140). -/

namespace Sys2Proof.Proofs

open Sys2Proof Sys2Proof.Machine Sys2Proof.Laws

/-! ## The conditions of admission -/

theorem getLsbD_foldl_zones (m : ZoneMask) (i : Nat) (l : List ZoneNo) (acc : ZoneMask) :
    (l.foldl (fun acc (z : ZoneNo) => if m.getLsbD z.val then acc ||| (1#8 <<< z.val) else acc) acc).getLsbD i = true ↔
      acc.getLsbD i = true ∨ ∃ z ∈ l, m.getLsbD z.val = true ∧ z.val = i := by
  induction l generalizing acc with
  | nil => simp
  | cons z l ih =>
    rw [List.foldl_cons, ih]
    by_cases hz : m.getLsbD z.val = true
    · have bit : (1#8 <<< z.val).getLsbD i = true ↔ z.val = i := by
        have := z.isLt
        simp only [BitVec.getLsbD_shiftLeft, BitVec.getLsbD_one, Bool.and_eq_true, Bool.not_eq_true',
          decide_eq_true_eq, decide_eq_false_iff_not]
        omega
      rw [if_pos hz, BitVec.getLsbD_or, Bool.or_eq_true, bit]
      simp [hz, or_assoc]
    · rw [if_neg hz]
      simp only [List.mem_cons, exists_eq_or_imp, hz, Bool.false_eq_true, false_and, false_or]

/-- The mask of existing zones is empty when no existing zone is named (R130, R135). -/
theorem maskZones_eq_zero_iff (s : State) (m : ZoneMask) : maskZones s.image m = 0 ↔ ¬ NamesZone s m := by
  have bit (i : Nat) : (maskZones s.image m).getLsbD i = true ↔
      ∃ z : ZoneNo, z.val < s.image.zoneCount ∧ m.getLsbD z.val = true ∧ z.val = i := by
    unfold maskZones existingZones
    rw [getLsbD_foldl_zones]
    simp [zoneExists]
  constructor
  · rintro h ⟨z, hz, hm⟩
    have := (bit z.val).mpr ⟨z, hz, hm, rfl⟩
    rw [h] at this
    simp at this
  · refine fun h => BitVec.eq_of_getLsbD_eq fun i _ => ?_
    have clear : (maskZones s.image m).getLsbD i = false :=
      Bool.eq_false_iff.mpr fun k => h (by obtain ⟨z, hz, hm, _⟩ := (bit i).mp k; exact ⟨z, hz, hm⟩)
    rw [clear]
    simp

theorem drillAdmits_iff (s : State) (l : AnnLevel) : drillAdmits s.drill.state l = true ↔ DrillAllows s l := by
  unfold DrillAllows
  cases s.drill.state with
  | idle => exact ⟨fun _ => trivial, fun _ => rfl⟩
  | evacuate => exact ⟨nofun, nofun⟩
  | assemble => exact decide_eq_true_iff
  | allClear => exact decide_eq_true_iff

theorem periodAdmits_iff (s : State) (l : AnnLevel) :
    periodAdmits (effectiveKind s.plan (currentReading s)) l = true ↔ PeriodAllows s l := by
  unfold periodAdmits PeriodAllows
  simp

/-- The announcement names this building and an existing zone, and drill and period let its level through: the first
four conditions of R135. -/
structure ToHere (s : State) (p : AnnPost) : Prop where
  building : p.buildings.getLsbD s.start.station = true
  zone : NamesZone s p.zones
  drill : DrillAllows s p.level
  period : PeriodAllows s p.level

theorem admissionRefusal_of_toHere {s : State} {p : AnnPost} (h : ToHere s p) (liveOk : Bool) :
    admissionRefusal s p liveOk = if (freePosition s.ann).isNone then some .tableFull
      else if isLive p.kind && !liveOk then some .liveConflict else none := by
  have building : addressed s p.buildings = true := h.building
  have zone : ¬ maskZones s.image p.zones = 0 := fun k => (maskZones_eq_zero_iff s _).mp k h.zone
  unfold admissionRefusal
  rw [building, if_neg zone, (drillAdmits_iff s _).mpr h.drill, (periodAdmits_iff s _).mpr h.period]
  rfl

/-- An announcement that is not to here is refused without a fault (R135). -/
theorem admission_of_not_toHere {s : State} {a : Announcement} (h : ¬ ToHere s a.post) : admission a s = s := by
  unfold admission admissionRefusal
  by_cases building : addressed s a.post.buildings = true
  · by_cases zone : maskZones s.image a.post.zones = 0
    · rw [building, if_pos zone]
      rfl
    · by_cases drill : drillAdmits s.drill.state a.post.level = true
      · by_cases period : periodAdmits (effectiveKind s.plan (currentReading s)) a.post.level = true
        · exact absurd ⟨building, not_not.mp fun k => zone ((maskZones_eq_zero_iff s _).mpr k),
            (drillAdmits_iff s _).mp drill, (periodAdmits_iff s _).mp period⟩ h
        · rw [building, if_neg zone, drill, Bool.eq_false_iff.mpr period]
          rfl
      · rw [building, if_neg zone, Bool.eq_false_iff.mpr drill]
        rfl
  · rw [Bool.eq_false_iff.mpr building]
    rfl

theorem freePosition_isNone_iff (a : AnnUnit) :
    (freePosition a).isNone = true ↔ ∀ i : TablePos, a.table[i] ≠ none := by
  unfold freePosition
  rw [Option.isNone_iff_eq_none, List.find?_eq_none]
  simp [List.mem_finRange]

theorem freePosition_eq_some {a : AnnUnit} {i : TablePos} (free : a.table[i] = none)
    (lowest : ∀ j : TablePos, j < i → a.table[j] ≠ none) : freePosition a = some i := by
  cases h : freePosition a with
  | none => exact absurd free ((freePosition_isNone_iff a).mp (by rw [h]; rfl) i)
  | some j =>
    unfold freePosition at h
    obtain ⟨hj, pre, post, split, taken⟩ := List.find?_eq_some_iff_append.mp h
    have later := (List.pairwise_append.mp (split ▸ List.pairwise_lt_finRange 4)).2.1
    have mem : i ∈ pre ++ j :: post := split ▸ List.mem_finRange i
    obtain before | rfl | after := (List.mem_append.mp mem).imp_right List.mem_cons.mp
    · have := taken i before
      rw [free] at this
      cases this
    · rfl
    · exact absurd (Option.isNone_iff_eq_none.mp hj) (lowest j ((List.pairwise_cons.mp later).1 i after))

/-! ## The outcome of admission -/

theorem admission_refused {s : State} {a : Announcement} {r : Reason}
    (h : admissionRefusal s a.post (isLiveRecord s.ann a.id a.start) = some r) :
    admission a s = admissionFault s r a.id := by
  unfold admission
  rw [h]

theorem admission_full {s : State} {a : Announcement} (h : ToHere s a.post) (full : ∀ i : TablePos, s.ann.table[i] ≠ none) :
    admission a s = report s (.announcementTableFull a.id) := by
  refine admission_refused (r := .tableFull) ?_
  rw [admissionRefusal_of_toHere h, if_pos ((freePosition_isNone_iff s.ann).mpr full)]

theorem admission_conflict {s : State} {a : Announcement} (h : ToHere s a.post) {i : TablePos}
    (free : s.ann.table[i] = none) (live : isLive a.post.kind = true)
    (other : isLiveRecord s.ann a.id a.start = false) : admission a s = report s (.liveConflict a.id) := by
  refine admission_refused (r := .liveConflict) ?_
  rw [admissionRefusal_of_toHere h, if_neg fun k => (freePosition_isNone_iff s.ann).mp k i free, live, other]
  rfl

/-- A LIVE announcement that is not the campus live record is not admitted. -/
theorem admission_of_loser {s : State} {a : Announcement} (live : isLive a.post.kind = true)
    (other : isLiveRecord s.ann a.id a.start = false) : Changes [.faults] s (admission a s) := by
  cases h : admissionRefusal s a.post (isLiveRecord s.ann a.id a.start) with
  | none =>
    have := admissionRefusal_live h live
    rw [other] at this
    cases this
  | some r =>
    rw [admission_refused h]
    exact (admissionFault_ev s r a.id).same

theorem admission_admits {s : State} {a : Announcement} (h : ToHere s a.post) {i : TablePos}
    (free : s.ann.table[i] = none) (wins : isLive a.post.kind = true → isLiveRecord s.ann a.id a.start = true) :
    admission a s = admitReceived s a := by
  have noConflict : ¬ (isLive a.post.kind && !isLiveRecord s.ann a.id a.start) = true := fun k => by
    obtain ⟨live, lost⟩ := Bool.and_eq_true_iff.mp k
    rw [wins live] at lost
    cases lost
  have taken : admissionRefusal s a.post (isLiveRecord s.ann a.id a.start) = none := by
    rw [admissionRefusal_of_toHere h, if_neg fun k => (freePosition_isNone_iff s.ann).mp k i free, if_neg noConflict]
  unfold admission
  rw [taken]

/-! ## The entry that gathers -/

/-- The claim of an announcement admitted at position i. -/
def gatherClaim (s : State) (i : TablePos) (a : Announcement) : Arbiter :=
  makeClaim s.arb s.time.localCount (annSlot i) (annClaimLevel a.post.level) (if isLive a.post.kind then .b else .a)
    (annWants a.post.kind (maskZones s.image a.post.zones))

/-- The entry of an announcement admitted at position i, with what the arbiter has answered. -/
def gatherEntry (s : State) (i : TablePos) (a : Announcement) : AnnEntry :=
  { newAnnEntry s a (s.arb.slots[annSlot i].number + 1) with known := knownFrom (gatherClaim s i a) (annSlot i) }

/-- The station with the entry made and its claim answered, before the check for hope. -/
def claimed (s : State) (i : TablePos) (a : Announcement) : State :=
  withArbiter (setEntry s i (some (gatherEntry s i a))) (gatherClaim s i a)

theorem gatherAt_eq (s : State) (i : TablePos) (a : Announcement) :
    gatherAt s i a = checkHope (claimed s i a) i false := rfl

theorem claimed_ann (s : State) (i : TablePos) (a : Announcement) :
    (claimed s i a).ann = { s.ann with table := s.ann.table.set i (some (gatherEntry s i a)) } := by
  rw [claimed, withArbiter_ann, setEntry_ann]

theorem claimed_arb (s : State) (i : TablePos) (a : Announcement) : (claimed s i a).arb = gatherClaim s i a :=
  withArbiter_arb _ _

theorem claimed_at (s : State) (i : TablePos) (a : Announcement) :
    (claimed s i a).ann.table[i] = some (gatherEntry s i a) := by
  rw [claimed, withArbiter_ann]
  exact setEntry_at s i _

theorem claimed_changes (s : State) (i : TablePos) (a : Announcement) :
    Changes [.ann, .arb, .synth] s (claimed s i a) := by
  have set : Changes [.ann, .arb, .synth] s (setEntry s i (some (gatherEntry s i a))) := by
    intro f hf
    cases f
    case ann => exact absurd (by decide) hf
    all_goals rfl
  have followed (u : State) (b : Arbiter) : Changes [.ann, .arb, .synth] u (withArbiter u b) := by
    have arb : Changes [.ann, .arb, .synth] u (u.withArb b) := by
      intro f hf
      cases f
      case arb => exact absurd (by decide) hf
      all_goals rfl
    exact changes_trans arb (changes_mono (followSynth_ev _).same)
  exact changes_trans set (followed _ _)

theorem gatherAt_changes (s : State) (i : TablePos) (a : Announcement) :
    Changes [.ann, .arb, .synth, .faults] s (gatherAt s i a) := by
  rw [gatherAt_eq]
  exact changes_trans (changes_mono (claimed_changes s i a)) (checkHope_ev _ i false).same

theorem gatherAt_hopeful {s : State} {i : TablePos} {a : Announcement} (h : hopeless (gatherEntry s i a) = false) :
    gatherAt s i a = claimed s i a := by
  rw [gatherAt_eq]
  unfold checkHope
  rw [claimed_at]
  exact if_neg (by rw [h]; exact Bool.false_ne_true)

theorem gatherAt_hopeless {s : State} {i : TablePos} {a : Announcement} (h : hopeless (gatherEntry s i a) = true) :
    gatherAt s i a = report (endEntry (claimed s i a) i .zonesUnavailable) (.zonesUnavailable a.id) := by
  rw [gatherAt_eq]
  unfold checkHope
  rw [claimed_at]
  exact if_pos h

end Sys2Proof.Proofs
end

section
/-! The announcement that is admitted: it gathers, ends for want of hope, or starts at once (R137 to R140). -/

namespace Sys2Proof.Proofs

open Sys2Proof Sys2Proof.Machine Sys2Proof.Laws

theorem hopeless_eq_false_iff (e : AnnEntry) : hopeless e = false ↔
    (∃ z : ZoneNo, e.known[zoneRes z] ≠ .nothing) ∧ ∀ c n, e.kind = .chime c n → e.known[synRes] ≠ .nothing := by
  unfold hopeless knowsZone knowsSyn
  cases e.kind with
  | live l => simp [isLive]
  | chime c n => simp [isLive]

/-- The trigger of a received announcement (R137). -/
def receivedTrigger (s : State) : AnnTrigger :=
  if s.time.quality = .unset then .localAt (s.time.localCount + 3000#32) else .campus

theorem gatherEntry_fields (s : State) (i : TablePos) (a : Announcement) : gatherEntry s i a =
    ⟨a.id, a.start, a.post.level, a.post.kind, maskZones s.image a.post.zones, s.arb.slots[annSlot i].number + 1,
      .gathering, receivedTrigger s, some (s.time.localCount + 10000#32), knownFrom (gatherClaim s i a) (annSlot i)⟩ :=
  rfl

/-- What becomes of an admitted announcement, by the hope that the arbiter's answer leaves. -/
structure GatherOutcome (s t : State) (i : TablePos) (a : Announcement) : Prop where
  gathers : hopeless (gatherEntry s i a) = false → t.arb = gatherClaim s i a ∧
    t.ann.table = s.ann.table.set i (some (gatherEntry s i a))
  ends : hopeless (gatherEntry s i a) = true → t.arb = withdrawWhole (gatherClaim s i a) (annSlot i) ∧
    t.ann.table = s.ann.table ∧ AudioRecorded s t (.zonesUnavailable a.id) 2 a.id ∧
    (a.id.origin = s.start.station → t.ann.lastOwn = some ⟨a.id.seq, a.start, a.post.kind, .zonesUnavailable⟩) ∧
    (a.id.origin ≠ s.start.station → t.faults = (report s (.zonesUnavailable a.id)).faults)

/-- The outcome as the spec words it, with the terms of the claim written out. -/
theorem GatherOutcome.spec {s t : State} {i : TablePos} {a : Announcement} (h : GatherOutcome s t i a) :
    Gathers s t i a.id a.start a.post (receivedTrigger s) := by
  obtain ⟨gathers, ends⟩ := h
  have hope := hopeless_eq_false_iff (gatherEntry s i a)
  rw [← Bool.not_eq_false, hope] at ends
  rw [hope] at gathers
  obtain ⟨id, start, kind, level, buildings, zones⟩ := a
  cases kind <;> cases level <;> exact ⟨gathers, ends⟩

theorem gatherAt_outcome {s : State} {i : TablePos} (free : s.ann.table[i] = none) (a : Announcement) :
    GatherOutcome s (gatherAt s i a) i a := by
  refine ⟨fun hope => ?_, fun none_left => ?_⟩
  · rw [gatherAt_hopeful hope, claimed_arb, claimed_ann]
    exact ⟨rfl, rfl⟩
  · rw [gatherAt_hopeless none_left]
    have changes := claimed_changes s i a
    have start : (claimed s i a).start = s.start := changes .start (by decide)
    have image : (claimed s i a).image = s.image := changes .image (by decide)
    have time : (claimed s i a).time = s.time := changes .time (by decide)
    have faults : (claimed s i a).faults = s.faults := changes .faults (by decide)
    have ending := (endEntry_ev (claimed s i a) i .zonesUnavailable).same
    have endImage := (ending .image (by decide)).trans image
    have endTime := (ending .time (by decide)).trans time
    obtain ⟨table, _, arb, lastOwn, _⟩ := endEntry_ended (claimed_at s i a) .zonesUnavailable
    rw [claimed_ann] at table lastOwn
    rw [claimed_arb] at arb
    rw [start] at lastOwn
    have restored : (s.ann.table.set i (some (gatherEntry s i a))).set i none = s.ann.table := by
      rw [Vector.set_set]
      exact (congrArg (s.ann.table.set i) free.symm).trans (Vector.set_getElem_self _)
    refine ⟨arb, table.trans restored, ?_, fun own => lastOwn.trans (if_pos own), fun other => ?_⟩
    · exact audioRecorded_report (.trans (.of_faults faults) (endEntry_audio _ i _)) endImage
        (congrArg TimeUnit.quality endTime) (congrArg TimeUnit.campus endTime) rfl rfl rfl rfl
    · have untold := endEntry_faults_other (claimed_at s i a) (by rw [start]; exact other) .zonesUnavailable
      exact report_faults_congr _ (untold.trans faults) endImage (by unfold currentReading; rw [endTime])

theorem gatherAt_gathers {s : State} {i : TablePos} (free : s.ann.table[i] = none) (a : Announcement) :
    Gathers s (gatherAt s i a) i a.id a.start a.post (receivedTrigger s) := (gatherAt_outcome free a).spec

theorem checkHope_live (s : State) (i : TablePos) (p : Bool) : (checkHope s i p).ann.live = s.ann.live := by
  unfold checkHope
  split
  · rfl
  · split
    · split
      · exact (endEntry_keeps s i _).1
      · exact (endEntry_keeps s i _).1
    · rfl

theorem gatherAt_live (s : State) (i : TablePos) (a : Announcement) : (gatherAt s i a).ann.live = s.ann.live := by
  rw [gatherAt_eq, checkHope_live, claimed_ann]

theorem playEntry_live (s : State) (i : TablePos) (e : AnnEntry) : (playEntry s i e).ann.live = s.ann.live := by
  have set (b : Arbiter) : (withArbiter (setEntry s i (some (playedEntry s e))) b).ann.live = s.ann.live := by
    rw [withArbiter_ann, setEntry_ann]
  unfold playEntry
  dsimp only
  split
  · exact set _
  · exact set _

theorem startEntry_live (s : State) (i : TablePos) : (startEntry s i).ann.live = s.ann.live := by
  cases he : s.ann.table[i] with
  | none => unfold startEntry; rw [he]
  | some e =>
    by_cases hg : e.state = .gathering
    · unfold startEntry
      rw [he]
      dsimp only
      rw [if_pos hg]
      generalize hu : withArbiter (setEntry s i (some { e with known := withoutWaits e.known })) _ = u
      have live : u.ann.live = s.ann.live := by rw [← hu, withArbiter_ann, setEntry_ann]
      split
      · exact (endEntry_keeps u i _).1.trans live
      · split
        · exact (endEntry_keeps u i _).1.trans live
        · split
          · exact (endEntry_keeps u i _).1.trans live
          · exact (playEntry_live u i _).trans live
    · rw [startEntry_playing he hg]

/-! ## An announcement of a peer -/

/-- The start time of an announcement has passed at a station with campus time (R138). -/
def StartPassed (s : State) (start : CampusTime) : Prop := s.time.quality ≠ .unset ∧ 0 ≤ campusDiff s.time.campus start

theorem receivedTrigger_campus (s : State) : receivedTrigger s = .campus ↔ s.time.quality ≠ .unset := by
  unfold receivedTrigger
  split
  · next h => exact ⟨nofun, fun k => absurd h k⟩
  · next h => exact ⟨fun _ => h, fun _ => rfl⟩

theorem gatherAt_at {s : State} {i : TablePos} (free : s.ann.table[i] = none) (a : Announcement) :
    (gatherAt s i a).ann.table[i] =
      if hopeless (gatherEntry s i a) = true then none else some (gatherEntry s i a) := by
  obtain ⟨gathers, ends⟩ := gatherAt_outcome free a
  by_cases h : hopeless (gatherEntry s i a) = true
  · rw [(ends h).2.1, if_pos h, free]
  · rw [(gathers (Bool.eq_false_iff.mpr h)).2, if_neg h, vector_set_at, if_pos rfl]

/-- A received announcement starts at once where its start time has passed; where it has ended for want of hope there
is nothing to start (R138). -/
theorem admitReceived_eq {s : State} {i : TablePos} (free : s.ann.table[i] = none)
    (lowest : ∀ j : TablePos, j < i → s.ann.table[j] ≠ none) (a : Announcement) :
    (¬ StartPassed s a.start → admitReceived s a = gatherAt s i a) ∧
    (StartPassed s a.start → admitReceived s a = startEntry (gatherAt s i a) i) := by
  have time : (gatherAt s i a).time = s.time := gatherAt_changes s i a .time (by decide)
  have at_ := gatherAt_at free a
  unfold admitReceived
  rw [freePosition_eq_some free lowest]
  dsimp only
  by_cases h : hopeless (gatherEntry s i a) = true
  · rw [if_pos h] at at_
    rw [at_]
    exact ⟨fun _ => rfl, fun _ => by unfold startEntry; rw [at_]⟩
  · rw [if_neg h] at at_
    rw [at_, time]
    have passed : ((gatherEntry s i a).trigger = .campus ∧
        campusReached s.time.campus (gatherEntry s i a).start = true) ↔ StartPassed s a.start :=
      and_congr (receivedTrigger_campus s) decide_eq_true_iff
    exact ⟨fun n => if_neg fun k => n (passed.mp k), fun k => if_pos (passed.mpr k)⟩

theorem admitReceived_admitted {s : State} (ha : Active s) {i : TablePos} (free : s.ann.table[i] = none)
    (lowest : ∀ j : TablePos, j < i → s.ann.table[j] ≠ none) (a : Announcement) :
    Admitted s (admitReceived s a) i a.id a.start a.post := by
  obtain ⟨gathers, starts⟩ := admitReceived_eq free lowest a
  have spec := gatherAt_gathers free a
  have changes := gatherAt_changes s i a
  have time : (gatherAt s i a).time = s.time := changes .time (by decide)
  refine ⟨fun h => ?_, fun h => ?_⟩
  · rw [gathers h]
    exact spec
  · rw [starts h]
    rw [(receivedTrigger_campus s).mpr h.1] at spec
    refine ⟨gatherAt s i a, startEntry (gatherAt s i a) i, spec, changes_mono changes, ?_, by rw [time], fun entry => ?_,
      exec_whenWorking rfl (active_of_changes changes (by decide) ha), rfl, rfl, rfl, rfl⟩
    · unfold currentReading
      rw [time]
    · have hope : hopeless (gatherEntry s i a) = false := Bool.eq_false_iff.mpr fun k => entry (by
        rw [gatherAt_at free a, if_pos k])
      rw [gatherAt_hopeful hope]
      exact ⟨by rw [claimed_ann], claimed_changes s i a .faults (by decide)⟩

theorem admitReceived_live (s : State) (a : Announcement) : (admitReceived s a).ann.live = s.ann.live := by
  cases free : freePosition s.ann with
  | none => unfold admitReceived; rw [free]
  | some i =>
    unfold admitReceived
    rw [free]
    dsimp only
    split
    · split
      · rw [startEntry_live, gatherAt_live]
      · exact gatherAt_live s i a
    · exact gatherAt_live s i a

theorem admissionFault_live (s : State) (r : Reason) (id : Id) : (admissionFault s r id).ann.live = s.ann.live :=
  congrArg AnnUnit.live ((admissionFault_ev s r id).same .ann (by decide))

theorem admission_live (s : State) (a : Announcement) : (admission a s).ann.live = s.ann.live := by
  unfold admission
  split
  · exact admissionFault_live s _ _
  · exact admitReceived_live s a

end Sys2Proof.Proofs
end

section
/-! An ANNOUNCE frame (R46, R134 to R140): what the station makes of it, by whether it knows the announcement, by LIVE
precedence, and by the conditions of admission. -/

namespace Sys2Proof.Proofs

open Sys2Proof Sys2Proof.Machine Sys2Proof.Laws

/-- The station knows the announcement: it stands in the table, or in the campus live record (R134). -/
def KnownHere (s : State) (id : Id) (start : CampusTime) : Prop :=
  (∃ (i : TablePos) (e : AnnEntry), s.ann.table[i] = some e ∧ e.id = id ∧ e.start = start) ∨
    ∃ r, s.ann.live = some r ∧ r.id = id ∧ r.start = start

/-- The announcement that an ANNOUNCE frame of p carries. -/
abbrev received (p : StationNo) (c : AnnContent) : Announcement := ⟨⟨p, c.seq⟩, c.start, c.post⟩

theorem knownHere_iff (s : State) (id : Id) (start : CampusTime) :
    ((findEntry s.ann id start).isSome || isLiveRecord s.ann id start) = true ↔ KnownHere s id start := by
  rw [Bool.or_eq_true, findEntry_isSome_iff, isLiveRecord_iff]
  rfl

theorem isLiveRecord_of_new {s : State} {id : Id} {start : CampusTime} (h : ¬ KnownHere s id start) :
    isLiveRecord s.ann id start = false :=
  Bool.eq_false_iff.mpr fun k => h (.inr ((isLiveRecord_iff s.ann id start).mp k))

section
variable {s : State} {p : StationNo} {c : AnnContent}

theorem handAnnounce_known (h : KnownHere s ⟨p, c.seq⟩ c.start) : handAnnounce p c s = s :=
  if_pos ((knownHere_iff s _ _).mpr h)

theorem handAnnounce_new (h : ¬ KnownHere s ⟨p, c.seq⟩ c.start) : handAnnounce p c s =
    if inRun s then admission (received p c) (judgeReceived (received p c) s) else judgeReceived (received p c) s :=
  if_neg fun k => h ((knownHere_iff s _ _).mp k)

theorem handAnnounce_join (h : ¬ KnownHere s ⟨p, c.seq⟩ c.start) (join : s.start.opState = .join) :
    handAnnounce p c s = judgeReceived (received p c) s := by
  rw [handAnnounce_new h]
  refine if_neg fun k => ?_
  have : s.start.opState = .run := of_decide_eq_true k
  rw [join] at this
  cases this

theorem handAnnounce_run (h : ¬ KnownHere s ⟨p, c.seq⟩ c.start) (run : s.start.opState = .run) :
    handAnnounce p c s = admission (received p c) (judgeReceived (received p c) s) := by
  rw [handAnnounce_new h]
  exact if_pos (decide_eq_true run)

/-- A CHIME, and a LIVE announcement that loses, leave the judgement without effect (R136). -/
theorem judgeReceived_stays {a : Announcement}
    (h : (¬ ∃ l, a.post.kind = .live l) ∨ ¬ LiveWins s a.start a.id.origin) : judgeReceived a s = s := by
  unfold judgeReceived
  split
  · next l hk =>
    have loses := h.resolve_left fun k => k ⟨l, hk⟩
    exact judgeLive_loses (Bool.eq_false_iff.mpr fun k => loses ((winsLive_iff s _ _).mp k))
  · rfl

theorem judgeReceived_wins {a : Announcement} {l : Nat} (hk : a.post.kind = .live l)
    (wins : LiveWins s a.start a.id.origin) :
    judgeReceived a s = recordSet s (cancelLive s) a.id a.start l := by
  unfold judgeReceived
  rw [hk]
  exact judgeLive_eq wins l

end

/-! ## What admission reads -/

/-- The two states do not differ in what the first four conditions of admission read (R135). -/
structure AdmitsAlike (s t : State) : Prop where
  start : t.start = s.start
  image : t.image = s.image
  drill : t.drill.state = s.drill.state
  active : t.plan.active = s.plan.active
  reading : currentReading t = currentReading s

theorem AdmitsAlike.trans {s t u : State} (h : AdmitsAlike s t) (k : AdmitsAlike t u) : AdmitsAlike s u :=
  ⟨k.start.trans h.start, k.image.trans h.image, k.drill.trans h.drill, k.active.trans h.active,
    k.reading.trans h.reading⟩

theorem AdmitsAlike.toHere {s t : State} (h : AdmitsAlike s t) {p : AnnPost} (k : ToHere s p) : ToHere t p := by
  obtain ⟨building, zone, drill, period⟩ := k
  refine ⟨by rw [h.start]; exact building, ?_, ?_, ?_⟩
  · unfold NamesZone
    rw [h.image]
    exact zone
  · unfold DrillAllows
    rw [h.drill]
    exact drill
  · unfold PeriodAllows
    rw [h.reading, effectiveKind_congr h.active]
    exact period

theorem AdmitsAlike.symm {s t : State} (h : AdmitsAlike s t) : AdmitsAlike t s :=
  ⟨h.start.symm, h.image.symm, h.drill.symm, h.active.symm, h.reading.symm⟩

theorem AdmitsAlike.of_changes {s t : State} (h : Changes [.ann, .arb, .synth, .faults] s t) : AdmitsAlike s t :=
  ⟨h .start (by decide), h .image (by decide), congrArg DrillUnit.state (h .drill (by decide)),
    congrArg PlanUnit.active (h .plan (by decide)), by unfold currentReading; rw [h .time (by decide)]⟩

theorem offer_admitsAlike (s : State) (b : FrameBody) : AdmitsAlike s (offer s b) := by
  refine ⟨(offer_ev s b).same .start (by decide), (offer_ev s b).same .image (by decide), ?_,
    (offer_onlyServed s b).active, ?_⟩
  · rw [offer_drill]
  · unfold currentReading
    rw [offer_time]

theorem cancelTold_admitsAlike (s : State) (e : AnnEntry) : AdmitsAlike s (cancelTold s e) := by
  unfold cancelTold
  split
  · exact offer_admitsAlike s _
  · exact ⟨rfl, rfl, rfl, rfl, rfl⟩

theorem cancelEntry_admitsAlike (s : State) (i : TablePos) : AdmitsAlike s (cancelEntry s i) := by
  by_cases h : ∀ e, s.ann.table[i] = some e → isLive e.kind = false
  · rw [cancelEntry_of_other h]
    exact ⟨rfl, rfl, rfl, rfl, rfl⟩
  · simp only [not_forall, Bool.not_eq_false] at h
    obtain ⟨e, he, hl⟩ := h
    rw [cancelEntry_of_live he hl]
    exact (cancelTold_admitsAlike s e).trans (.of_changes (changes_trans (changes_mono (endEntry_ev _ i _).same)
      (changes_mono (report_ev _ _).same)))

theorem recordSet_admitsAlike (s u : State) (id : Id) (start : CampusTime) (limit : Nat) :
    AdmitsAlike u (recordSet s u id start limit) := ⟨rfl, rfl, rfl, rfl, rfl⟩

theorem isLiveRecord_recordSet (s u : State) (id : Id) (start : CampusTime) (limit : Nat) :
    isLiveRecord (recordSet s u id start limit).ann id start = true :=
  (isLiveRecord_iff _ id start).mpr ⟨_, rfl, rfl, rfl⟩

/-! ## From the state handed over to the state in which the frame has been heard -/

theorem withLine_of_changes {s t : State} (h : Changes [.line] s t) : t = s.withLine t.line := by
  have start := h .start (by decide)
  have image := h .image (by decide)
  have time := h .time (by decide)
  have plan := h .plan (by decide)
  have bells := h .bells (by decide)
  have clocks := h .clocks (by decide)
  have arb := h .arb (by decide)
  have synth := h .synth (by decide)
  have ann := h .ann (by decide)
  have drill := h .drill (by decide)
  have faults := h .faults (by decide)
  have port := h .port (by decide)
  have store := h .store (by decide)
  have mem := h .mem (by decide)
  have pins := h .pins (by decide)
  have fresh := h .fresh (by decide)
  have pending := h .pending (by decide)
  cases s
  cases t
  simp only [Field.Same] at *
  subst_vars
  rfl

theorem liveTakes_of_withLine {s t : State} {l : LineUnit} {i : TablePos} {e : AnnEntry} {id : Id} {start : CampusTime}
    {limit : Nat} (h : LiveTakes (s.withLine l) t i e id start limit) (room : HasRoom s → HasRoom (s.withLine l)) :
    LiveTakes s t i e id start limit := by
  obtain ⟨ended, live, queued, faults, audio, count, campus, quality, changes⟩ := h
  exact ⟨ended, live, fun own hr => queued own (room hr), faults, audio, count, campus, quality,
    changes_trans (changes_mono (withLine_changes s l)) changes⟩

theorem liveTakes_dropCapture {s t : State} {i : TablePos} {e : AnnEntry} {id : Id} {start : CampusTime}
    {limit : Nat} (h : LiveTakes s t i e id start limit) : LiveTakes s (dropCapture t) i e id start limit := by
  obtain ⟨ended, live, queued, faults, audio, count, campus, quality, changes⟩ := h
  exact ⟨ended, live, queued, faults, audio, count, campus, quality,
    changes_trans changes (changes_mono (dropCapture_changes t))⟩

theorem gathers_dropCapture {s t : State} {i : TablePos} {id : Id} {start : CampusTime} {p : AnnPost}
    {trigger : AnnTrigger} (h : Gathers s t i id start p trigger) : Gathers s (dropCapture t) i id start p trigger := h

theorem admitted_dropCapture {s t : State} {i : TablePos} {id : Id} {start : CampusTime} {p : AnnPost}
    (h : Admitted s t i id start p) : Admitted s (dropCapture t) i id start p :=
  ⟨fun k => gathers_dropCapture (h.1 k), h.2⟩

/-- Admission reads neither the line nor the campus live record. -/
theorem admitted_of_record {s t : State} {l : LineUnit} {x : Option LiveRecord} {i : TablePos} {id : Id}
    {start : CampusTime} {p : AnnPost}
    (h : Admitted ((s.withLine l).withAnn { s.ann with live := x }) t i id start p) : Admitted s t i id start p := by
  refine ⟨h.1, fun passed => ?_⟩
  obtain ⟨u, v, gathers, changes, reading, count, stays, starts, same⟩ := h.2 passed
  refine ⟨u, v, gathers, changes_trans ?_ changes, reading, count, stays, starts, same⟩
  intro f hf
  cases f
  case line => exact absurd (by decide) hf
  case ann => exact absurd (by decide) hf
  all_goals rfl

theorem exec_announceFrame {s : State} (ha : Active s) {p : StationNo} {payload : List Byte} {c : AnnContent}
    (hp : p ≠ s.start.station) (hl : lengthAllowed .announce payload = true) (hx : announceOf payload = some c) :
    exec (.announceFrame p payload) s = .next (dropCapture (handAnnounce p c (frameHeard s p))) := by
  refine congrArg Host.Outcome.next ((whenListening_active ha _).trans ?_)
  rw [hx]
  exact receive_hands hl hp _

end Sys2Proof.Proofs
end

section
/-! Settles O43: an ANNOUNCE frame of a peer is judged, then admitted in RUN. -/

namespace Sys2Proof.Proofs

open Sys2Proof Sys2Proof.Machine Sys2Proof.Laws

theorem active_cases {s : State} (ha : Active s) : s.start.opState = .join ∨ s.start.opState = .run := by
  have h : working s = true := ha.2
  simpa [working] using h

/-! ## A frame whose judgement changes nothing -/

section
variable {s : State} {p : StationNo} {c : AnnContent}

/-- The announcement is no LIVE one, or one that loses. -/
abbrev NotTaken (s : State) (p : StationNo) (c : AnnContent) : Prop :=
  (¬ ∃ l, c.post.kind = .live l) ∨ ¬ LiveWins s c.start p

theorem handAnnounce_idle (h : ¬ KnownHere s ⟨p, c.seq⟩ c.start) (stays : NotTaken s p c)
    (join : s.start.opState = .join) : handAnnounce p c s = s := by
  rw [handAnnounce_join h join]
  exact judgeReceived_stays stays

theorem handAnnounce_admission (h : ¬ KnownHere s ⟨p, c.seq⟩ c.start) (stays : NotTaken s p c)
    (run : s.start.opState = .run) : handAnnounce p c s = admission (received p c) s := by
  rw [handAnnounce_run h run, judgeReceived_stays stays]

theorem handAnnounce_won {l : Nat} (h : ¬ KnownHere s ⟨p, c.seq⟩ c.start) (hk : c.post.kind = .live l)
    (wins : LiveWins s c.start p) :
    (s.start.opState = .join → handAnnounce p c s = recordSet s (cancelLive s) ⟨p, c.seq⟩ c.start l) ∧
    (s.start.opState = .run →
      handAnnounce p c s = admission (received p c) (recordSet s (cancelLive s) ⟨p, c.seq⟩ c.start l)) := by
  have judged := judgeReceived_wins (a := received p c) hk wins
  exact ⟨fun join => (handAnnounce_join h join).trans judged, fun run => by rw [handAnnounce_run h run, judged]⟩

/-- A LIVE announcement that loses changes neither the table nor a claim (R136). -/
theorem handAnnounce_loses (ha : Active s) (h : ¬ KnownHere s ⟨p, c.seq⟩ c.start)
    (live : ∃ l, c.post.kind = .live l) (loses : ¬ LiveWins s c.start p) : Changes [.faults] s (handAnnounce p c s) ∧
    (s.start.opState = .join → handAnnounce p c s = s) := by
  have idle := handAnnounce_idle h (.inr loses)
  refine ⟨?_, idle⟩
  obtain join | run := active_cases ha
  · rw [idle join]
    exact fun f _ => by cases f <;> rfl
  · rw [handAnnounce_admission h (.inr loses) run]
    exact admission_of_loser ((isLive_iff _).mpr live) (isLiveRecord_of_new h)

/-- The record of a LIVE announcement that wins is set, whatever admission makes of it (R136). -/
theorem handAnnounce_record (ha : Active s) {l : Nat} (h : ¬ KnownHere s ⟨p, c.seq⟩ c.start)
    (hk : c.post.kind = .live l) (wins : LiveWins s c.start p) :
    (handAnnounce p c s).ann.live = some (liveRecordAt s ⟨p, c.seq⟩ c.start l) := by
  obtain ⟨joins, runs⟩ := handAnnounce_won h hk wins
  obtain join | run := active_cases ha
  · rw [joins join]
    rfl
  · rw [runs run, admission_live]
    rfl

/-- A LIVE announcement that wins while one stands in the table: where it is not admitted, that entry has given way and
no more has happened. -/
theorem handAnnounce_replaces (h : ¬ KnownHere s ⟨p, c.seq⟩ c.start) {l : Nat} (hk : c.post.kind = .live l)
    (wins : LiveWins s c.start p) (ok : AnnOk s.ann) {i : TablePos} {e : AnnEntry} (he : s.ann.table[i] = some e)
    (hl : isLive e.kind = true) (ha : Active s) (idle : s.start.opState = .join ∨ ¬ ToHere s c.post) :
    handAnnounce p c s = recordSet s (cancelEntry s i) ⟨p, c.seq⟩ c.start l := by
  obtain ⟨joins, runs⟩ := handAnnounce_won h hk wins
  rw [cancelLive_of_live ok he hl] at joins runs
  obtain join | run := active_cases ha
  · exact joins join
  · rw [runs run]
    have away : ¬ ToHere s c.post := idle.resolve_left fun join => by
      rw [run] at join
      cases join
    have alike := (cancelEntry_admitsAlike s i).trans
      (recordSet_admitsAlike s (cancelEntry s i) ⟨p, c.seq⟩ c.start l)
    exact admission_of_not_toHere fun k => away (alike.symm.toHere k)

/-- A LIVE announcement that wins while one stands in the table, and is to here: it is admitted to the first free
position once that entry has given way. -/
theorem handAnnounce_replaces_admitted (h : ¬ KnownHere s ⟨p, c.seq⟩ c.start) {l : Nat} (hk : c.post.kind = .live l)
    (wins : LiveWins s c.start p) (ok : AnnOk s.ann) {i : TablePos} {e : AnnEntry} (he : s.ann.table[i] = some e)
    (hl : isLive e.kind = true) (ha : Active s) (run : s.start.opState = .run) (here : ToHere s c.post) :
    let v := recordSet s (cancelEntry s i) ⟨p, c.seq⟩ c.start l
    (handAnnounce p c s).line = v.line ∧
    ∀ j : TablePos, v.ann.table[j] = none → (∀ k : TablePos, k < j → v.ann.table[k] ≠ none) →
      Admitted v (handAnnounce p c s) j ⟨p, c.seq⟩ c.start c.post := by
  intro v
  have admits : handAnnounce p c s = admission (received p c) v := by
    rw [(handAnnounce_won h hk wins).2 run, cancelLive_of_live ok he hl]
  have alike := (cancelEntry_admitsAlike s i).trans
    (recordSet_admitsAlike s (cancelEntry s i) ⟨p, c.seq⟩ c.start l)
  have record := isLiveRecord_recordSet s (cancelEntry s i) ⟨p, c.seq⟩ c.start l
  have active : Active v := by
    unfold Active alive working at ha ⊢
    rw [alike.start]
    exact ha
  refine ⟨?_, fun j free lowest => ?_⟩
  · rw [admits]
    refine (admission_ev v (received p c) fun _ _ => ?_).same .line (by decide)
    have gone := cancelLive_none s
    rw [cancelLive_of_live ok he hl] at gone
    exact gone
  · rw [admits, admission_admits (alike.toHere here) free fun _ => record]
    exact admitReceived_admitted active free lowest (received p c)

/-- A LIVE announcement that wins while none stands in the table. -/
theorem handAnnounce_uncontested (h : ¬ KnownHere s ⟨p, c.seq⟩ c.start) {l : Nat} (hk : c.post.kind = .live l)
    (wins : LiveWins s c.start p) (none_live : NoLiveEntry s) (run : s.start.opState = .run) :
    handAnnounce p c s = admission (received p c) (recordSet s s ⟨p, c.seq⟩ c.start l) := by
  rw [(handAnnounce_won h hk wins).2 run, cancelLive_of_noLiveEntry none_live]

theorem handAnnounce_away (h : ¬ KnownHere s ⟨p, c.seq⟩ c.start) (run : s.start.opState = .run)
    (away : ¬ ToHere s c.post) (stays : NotTaken s p c) : handAnnounce p c s = s :=
  (handAnnounce_admission h stays run).trans (admission_of_not_toHere away)

theorem handAnnounce_full (h : ¬ KnownHere s ⟨p, c.seq⟩ c.start) (run : s.start.opState = .run)
    (here : ToHere s c.post) (full : ∀ i : TablePos, s.ann.table[i] ≠ none) :
    (NotTaken s p c → handAnnounce p c s = report s (.announcementTableFull ⟨p, c.seq⟩)) ∧
    (∀ l, c.post.kind = .live l → LiveWins s c.start p → NoLiveEntry s → handAnnounce p c s =
      report (recordSet s s ⟨p, c.seq⟩ c.start l) (.announcementTableFull ⟨p, c.seq⟩)) := by
  refine ⟨fun stays => ?_, fun l hk wins none_live => ?_⟩
  · exact (handAnnounce_admission h stays run).trans (admission_full here full)
  · have alike := recordSet_admitsAlike s s ⟨p, c.seq⟩ c.start l
    exact (handAnnounce_uncontested h hk wins none_live run).trans (admission_full (alike.toHere here) full)

theorem handAnnounce_conflict (h : ¬ KnownHere s ⟨p, c.seq⟩ c.start) (run : s.start.opState = .run)
    (here : ToHere s c.post) {i : TablePos} (free : s.ann.table[i] = none) (live : ∃ l, c.post.kind = .live l)
    (loses : ¬ LiveWins s c.start p) : handAnnounce p c s = report s (.liveConflict ⟨p, c.seq⟩) :=
  (handAnnounce_admission h (.inr loses) run).trans
    (admission_conflict here free ((isLive_iff _).mpr live) (isLiveRecord_of_new h))

/-- The announcement is admitted at the first free position (R135, R137). -/
theorem handAnnounce_admitted (ha : Active s) (h : ¬ KnownHere s ⟨p, c.seq⟩ c.start) (run : s.start.opState = .run)
    (here : ToHere s c.post) (taken : (¬ ∃ l, c.post.kind = .live l) ∨ (LiveWins s c.start p ∧ NoLiveEntry s))
    {i : TablePos} (free : s.ann.table[i] = none) (lowest : ∀ j : TablePos, j < i → s.ann.table[j] ≠ none) :
    ∃ x, Admitted (s.withAnn { s.ann with live := x }) (handAnnounce p c s) i ⟨p, c.seq⟩ c.start c.post := by
  by_cases live : ∃ l, c.post.kind = .live l
  · obtain ⟨l, hk⟩ := live
    obtain ⟨wins, none_live⟩ := taken.resolve_left fun k => k ⟨l, hk⟩
    rw [handAnnounce_uncontested h hk wins none_live run,
      admission_admits ((recordSet_admitsAlike s s ⟨p, c.seq⟩ c.start l).toHere here) (i := i) free fun _ =>
        isLiveRecord_recordSet s s ⟨p, c.seq⟩ c.start l]
    exact ⟨_, admitReceived_admitted (s := recordSet s s ⟨p, c.seq⟩ c.start l) ha free lowest (received p c)⟩
  · rw [handAnnounce_admission h (.inl live) run,
      admission_admits here free fun k => absurd ((isLive_iff _).mp k) live]
    exact ⟨s.ann.live, admitReceived_admitted ha free lowest (received p c)⟩

end

/-! ## The frame heard -/

theorem dropCapture_heard_changes {s u : State} {fs : List Field} (heard : Changes [.line] s u) {t : State}
    (h : Changes fs u t) (line : within [.line] fs = true := by decide) (time : within [.time] fs = true := by decide) :
    Changes fs s (dropCapture t) :=
  changes_trans (changes_mono heard line) (changes_trans h (changes_mono (dropCapture_changes t) time))

theorem toHere_iff (s : State) (p : AnnPost) : ToHere s p ↔ p.buildings.getLsbD s.start.station = true ∧
    NamesZone s p.zones ∧ DrillAllows s p.level ∧ PeriodAllows s p.level :=
  ⟨fun ⟨b, z, d, k⟩ => ⟨b, z, d, k⟩, fun ⟨b, z, d, k⟩ => ⟨b, z, d, k⟩⟩

/-- Settles O43: the frame heard, the LIVE judgement, and admission in RUN. -/
theorem anAnnounceFrameIsJudgedAndAdmitted : Obligations.AnAnnounceFrameIsJudgedAndAdmitted := by
  intro s p payload c active hp hl hx u id known live toHere
  refine ⟨_, exec_announceFrame active hp hl hx, ?_⟩
  obtain ⟨heard, room, _⟩ := handOver_heard s p
  have start : (frameHeard s p).start = s.start := (frameHeard_hears s p).changes .start (by decide)
  have ha : Active (frameHeard s p) := by
    unfold Active alive working at active ⊢
    rw [start]
    exact active
  have eq := withLine_of_changes heard
  change HasRoom u → HasRoom _ at room
  change Changes [.line] u _ at heard
  change _ = u.withLine _ at eq
  generalize (frameHeard s p).line = l at eq
  generalize frameHeard s p = w at *
  subst eq
  have here : toHere ↔ ToHere (u.withLine l) c.post := (toHere_iff (u.withLine l) c.post).symm
  have new : ¬ known → ¬ KnownHere (u.withLine l) id c.start := fun h => h
  refine ⟨dropCapture_heard_changes heard (changes_mono (handAnnounce_ev _ p c).same), fun h => ?_, fun h hlive lost => ?_,
    fun h wins => ⟨fun n hk => handAnnounce_record ha (new h) hk (wins n hk), fun i e n m hk ok he hm => ?_⟩,
    fun h run => ⟨fun away stays => ?_, fun hh full => ⟨fun stays => ?_, fun n hk wins none_live => ?_⟩,
      fun hh free hlive lost => ?_, fun hh taken i free lowest => ?_⟩⟩
  · have same : handAnnounce p c (u.withLine l) = u.withLine l := by
      by_cases hk : KnownHere (u.withLine l) id c.start
      · exact handAnnounce_known hk
      · obtain ⟨join, chime⟩ := h.resolve_left hk
        exact handAnnounce_idle hk (.inl chime) join
    rw [same]
    exact ⟨rfl, dropCapture_heard_changes heard fun f _ => by cases f <;> rfl⟩
  · obtain ⟨keeps, idle⟩ := handAnnounce_loses ha (new h) hlive lost
    exact ⟨keeps .ann (by decide), keeps .arb (by decide), fun join => by rw [idle join]; rfl⟩
  · have entry_live : isLive e.kind = true := by rw [hm]; rfl
    have takes := liveTakes_of_withLine (liveTakes_cancelEntry (s := u.withLine l) he entry_live id c.start n) room
    refine ⟨fun idle => ?_, fun run hh => ⟨_, takes, ?_⟩⟩
    · rw [handAnnounce_replaces (new h) hk (wins n hk) ok he entry_live ha (idle.imp_right fun k j => k (here.mpr j))]
      exact liveTakes_dropCapture takes
    · obtain ⟨line, admits⟩ :=
        handAnnounce_replaces_admitted (new h) hk (wins n hk) ok he entry_live ha run (here.mp hh)
      obtain ⟨_, _, queued, _⟩ := takes
      refine ⟨fun own hr => ?_, fun j free lowest => admitted_dropCapture (admits j free lowest)⟩
      show Queued (handAnnounce p c (u.withLine l)).line _
      rw [line]
      exact queued own hr
  · rw [handAnnounce_away (new h) run (fun k => away (here.mpr k)) stays]
    exact ⟨rfl, rfl⟩
  · rw [(handAnnounce_full (new h) run (here.mp hh) full).1 stays]
    exact ⟨rfl, rfl⟩
  · rw [(handAnnounce_full (new h) run (here.mp hh) full).2 n hk wins none_live]
    exact ⟨rfl, rfl⟩
  · obtain ⟨i, free⟩ := free
    rw [handAnnounce_conflict (new h) run (here.mp hh) free hlive lost]
    rfl
  · obtain ⟨x, admits⟩ := handAnnounce_admitted ha (new h) run (here.mp hh) taken free lowest
    exact admitted_dropCapture (admitted_of_record admits)

end Sys2Proof.Proofs
end

section
/-! The staging area under LOAD BEGIN, LOAD FRAGMENT and LOAD ABORT (R62, R63, R65). -/

namespace Sys2Proof.Proofs

open Sys2Proof Sys2Proof.Machine Sys2Proof.Laws

/-! ## The load timer -/

theorem overtakes_of_free {s : State} (h : s.plan.staging = .free) (x : Staging) : overtakes s x = false := by
  unfold overtakes
  rw [h]
  rfl

/-- A load begun in FREE overtakes no expiry: no timer ran (log 55). -/
theorem loadingNow_of_free {s : State} (h : s.plan.staging = .free) (f : Fragments) : loadingNow s f =
    s.withPlan { s.plan with staging := .loading f (s.time.localCount + 60000#32) } := by
  rw [loadingNow_eq, overtakes_of_free h, Bool.or_false]

/-- The load timer, restarted at a reached deadline, runs to another one, 60 s later (R3, R63). -/
theorem loadTimer_moves {now t : Count} (h : countReached now t = true) : now + 60000#32 ≠ t := by
  rintro rfl
  have later : countSince now (now + 60000#32) < 2147483648 := of_decide_eq_true h
  unfold countSince at later
  bv_omega

theorem loadingNow_overtakes {s : State} {f : Fragments} {t : Count} (h : s.plan.staging = .loading f t)
    (due : countReached s.time.localCount t = true) (g : Fragments) : (loadingNow s g).plan.overtaken = true := by
  have overtakes : overtakes s (.loading g (s.time.localCount + 60000#32)) = true := by
    unfold Machine.overtakes
    rw [h]
    simp [stagingTimer, deadlineReached, due, loadTimer_moves due]
  rw [loadingNow_eq, overtakes, Bool.or_true]
  rfl

/-! ## LOAD BEGIN -/

theorem exec_loadBegin {s : State} (h : Active s) (c : LoadChoice) : exec (.loadBegin c) s =
    .next (answered (loadBeginTake c s).1 (loadBeginTake c s).2) :=
  congrArg Host.Outcome.next (panelTake_active h _)

theorem loadBeginTake_empty {s : State} (h : s.plan.staging = .free) :
    loadBeginTake .empty s = (loadingNow s (Vector.replicate 41 none), .done .nothing) := by
  unfold loadBeginTake
  rw [h]
  rfl

theorem loadBeginTake_copy {s : State} (h : s.plan.staging = .free) {a : ActivePlan} (ha : s.plan.active = some a) :
    loadBeginTake .copy s = (loadingNow s (stagedCopy a), .done .nothing) := by
  unfold loadBeginTake
  rw [h, ha]
  rfl

theorem loadBeginTake_noPlan {s : State} (h : s.plan.staging = .free) (ha : s.plan.active = none) :
    loadBeginTake .copy s = (s, .refused .noPlan) := by
  unfold loadBeginTake
  rw [h, ha]

theorem loadBeginTake_busy {s : State} (h : s.plan.staging ≠ .free) (c : LoadChoice) :
    loadBeginTake c s = (s, .busy) := by
  unfold loadBeginTake
  split
  · next free => exact absurd free h
  · rfl

theorem stagedCopy_at (a : ActivePlan) (i : Fin 41) : (stagedCopy a)[i] = a.frags[i.val]? := by
  simp [stagedCopy]

/-! ## LOAD FRAGMENT -/

theorem exec_loadFragment {s : State} (h : Active s) (n : Nat) (content : List Byte) : exec (.loadFragment n content) s =
    .next (answered (loadFragmentTake n content s).1 (loadFragmentTake n content s).2) :=
  congrArg Host.Outcome.next (panelTake_active h _)

theorem loadFragmentTake_bad {n : Nat} {content : List Byte} (h : 40 < n ∨ sectionOf content = none) (s : State) :
    loadFragmentTake n content s = (s, .bad .argument) := by
  unfold loadFragmentTake
  obtain h | h := h
  · rw [dif_neg (Nat.not_lt.mpr h)]
    rfl
  · rw [h]
    split <;> rfl

/-- A section of right shape is taken or refused by the staging state (R63). -/
theorem loadFragmentTake_shaped {n : Nat} (h : n < 41) {content : List Byte} (hc : sectionOf content ≠ none) (s : State) :
    loadFragmentTake n content s = match s.plan.staging with
      | .loading f _ => (loadingNow s (f.set n (some content)), .done .nothing)
      | .free => (s, .refused .notLoading)
      | .fetching _ => (s, .busy) := by
  unfold loadFragmentTake
  rw [dif_pos h, if_pos (Option.isSome_iff_ne_none.mpr hc)]
  cases s.plan.staging <;> rfl

theorem loadFragmentTake_loading {n : Nat} (h : n < 41) {content : List Byte} (hc : sectionOf content ≠ none) {s : State}
    {f : Fragments} {t : Count} (loading : s.plan.staging = .loading f t) :
    loadFragmentTake n content s = (loadingNow s (f.set n (some content)), .done .nothing) := by
  rw [loadFragmentTake_shaped h hc, loading]

/-- Settles O22: the branches of both commands, in each state of the staging area. -/
theorem loadBeginAndLoadFragment : Obligations.LoadBeginAndLoadFragment := by
  refine ⟨fun s ha => ⟨fun free => ⟨?_, fun none => ?_, fun a active => ⟨stagedCopy a, stagedCopy_at a, ?_⟩⟩,
    fun taken c => ?_⟩, fun s n content ha => ⟨fun h => ?_,
    fun h hc => ⟨fun f t loading => ?_, fun free => ?_, fun f fetching => ?_⟩⟩⟩
  · rw [exec_loadBegin ha, loadBeginTake_empty free, loadingNow_of_free free]
  · rw [exec_loadBegin ha, loadBeginTake_noPlan free none]
  · rw [exec_loadBegin ha, loadBeginTake_copy free active, loadingNow_of_free free]
  · rw [exec_loadBegin ha, loadBeginTake_busy taken]
  · rw [exec_loadFragment ha, loadFragmentTake_bad h]
  · exact ⟨_, by rw [exec_loadFragment ha, loadFragmentTake_loading h hc loading, loadingNow_eq]⟩
  · rw [exec_loadFragment ha, loadFragmentTake_shaped h hc, free]
  · rw [exec_loadFragment ha, loadFragmentTake_shaped h hc, fetching]

end Sys2Proof.Proofs
end

section
/-! OVERRIDE ADD and OVERRIDE REMOVE: the active plan with another override list, validated and made the active plan
under a new key (R64, R66, R67). -/

namespace Sys2Proof.Proofs

open Sys2Proof Sys2Proof.Machine Sys2Proof.Laws

/-! ## The copy of the active plan -/

theorem commitOverrides_invalid {s : State} {a : ActivePlan} {l : List Span} {r : PlanFault}
    (h : validate ((withOverrides a l).map some) none none = .error r) :
    commitOverrides s a l = (s, .refused (.validation r)) := by
  unfold commitOverrides
  rw [h]

theorem commitOverrides_valid {s : State} {a : ActivePlan} {l : List Span} {frags : List (List Byte)}
    (h : validate ((withOverrides a l).map some) none none = .ok frags) :
    commitOverrides s a l = commitPlan s frags false := by
  unfold commitOverrides
  rw [h]

/-- A new key that is newer, the staging area left as it is (R66). -/
theorem commitPlan_kept {s : State} (h : newerThanActive s.plan (newPlanKey s) = true) (frags : List (List Byte)) :
    commitPlan s frags false = (changePlan s (planOf (newPlanKey s) frags),
      .done (.planKey (newPlanKey s) (planDigest frags))) :=
  if_pos h

/-- What a command with this outcome does and answers when it puts other overrides into the active plan: a copy that
fails validation and a key that is not newer are refused, any other copy becomes the active plan (R64, R66, R67). -/
structure OverridesCommitted (s : State) (frags : List (List Byte)) (x : Host.Outcome State Fault Refusal) : Prop where
  invalid : ∀ r, validate (frags.map some) none none = .error r → x = .next (answered s (.refused (.validation r)))
  old : ∀ g, validate (frags.map some) none none = .ok g → newerThanActive s.plan (newPlanKey s) = false →
    x = .next (answered s (.refused .generation))
  taken : s.plan.staging = .free → validate (frags.map some) none none = .ok frags →
    newerThanActive s.plan (newPlanKey s) = true → ∃ t, x = .next t ∧
      t.plan.active = some ⟨newPlanKey s, planDigest frags, frags.length, frags⟩ ∧ t.plan.staging = .free ∧
      t.port = (answered s (.done (.planKey (newPlanKey s) (planDigest frags)))).port ∧
      Changes [.plan, .store, .bells, .clocks, .port] s t

theorem commitOverrides_committed (s : State) (a : ActivePlan) (l : List Span) :
    OverridesCommitted s (withOverrides a l)
      (.next (answered (commitOverrides s a l).1 (commitOverrides s a l).2)) where
  invalid r h := by rw [commitOverrides_invalid h]
  old g h hk := by rw [commitOverrides_valid h, commitPlan_old hk]
  taken free h hk := by
    have changes := changePlan_ev s (planOf (newPlanKey s) (withOverrides a l))
    have plan := changePlan_plan s (planOf (newPlanKey s) (withOverrides a l))
    rw [commitOverrides_valid h, commitPlan_kept hk]
    dsimp only
    generalize changePlan s (planOf (newPlanKey s) (withOverrides a l)) = t at changes plan ⊢
    refine ⟨_, rfl, congrArg PlanUnit.active plan, (congrArg PlanUnit.staging plan).trans free,
      answered_port (changes.same .port (by decide)) _,
      changes_trans changes.mono.same (changes_mono (answered_changes _ _))⟩

/-! ## OVERRIDE ADD -/

theorem exec_overrideAdd {s : State} (h : Active s) (first last : Nat) (kind : PeriodKind) :
    exec (.overrideAdd first last kind) s = .next (answered (overrideAddTake ⟨first, last, periodCode kind⟩ s).1
      (overrideAddTake ⟨first, last, periodCode kind⟩ s).2) :=
  congrArg Host.Outcome.next (panelTake_active h _)

theorem spanOk_period (first last : Nat) (kind : PeriodKind) :
    spanOk minuteBound ⟨first, last, periodCode kind⟩ = true ↔ first < last ∧ last ≤ 94371840 := by
  have code : periodCode kind ≤ 4 := by cases kind <;> decide
  rw [spanOk_iff]
  exact ⟨fun ⟨order, bound, _⟩ => ⟨order, bound⟩, fun ⟨order, bound⟩ => ⟨order, bound, code⟩⟩

theorem overrideAddTake_bad {o : Span} (h : ¬ spanOk minuteBound o = true) (s : State) :
    overrideAddTake o s = (s, .bad .argument) :=
  if_pos (by simp [h])

/-- An override in its ranges is appended, or refused, by the staging state and the active plan (R66). -/
theorem overrideAddTake_ok {o : Span} (h : spanOk minuteBound o = true) (s : State) : overrideAddTake o s =
    match s.plan.staging, s.plan.active with
    | .free, none => (s, .refused .noPlan)
    | .free, some a => if 4 ≤ (planOverrides a).length then (s, .refused .overridesFull)
        else commitOverrides s a (planOverrides a ++ [o])
    | _, _ => (s, .busy) := by
  unfold overrideAddTake
  rw [if_neg (by simp [h])]
  cases s.plan.staging <;> cases s.plan.active <;> rfl

/-! ## OVERRIDE REMOVE -/

theorem exec_overrideRemove {s : State} (h : Active s) (n : Nat) : exec (.overrideRemove n) s =
    .next (answered (overrideRemoveTake n s).1 (overrideRemoveTake n s).2) :=
  congrArg Host.Outcome.next (panelTake_active h _)

theorem overrideRemoveTake_bad {n : Nat} (h : 3 < n) (s : State) : overrideRemoveTake n s = (s, .bad .argument) :=
  if_pos h

/-- The override at a position is removed, or the command refused, by the staging state and the active plan (R67). -/
theorem overrideRemoveTake_ok {n : Nat} (h : n ≤ 3) (s : State) : overrideRemoveTake n s =
    match s.plan.staging, s.plan.active with
    | .free, none => (s, .refused .noPlan)
    | .free, some a => if (planOverrides a).length ≤ n then (s, .refused .noSuchItem)
        else commitOverrides s a ((planOverrides a).eraseIdx n)
    | _, _ => (s, .busy) := by
  unfold overrideRemoveTake
  rw [if_neg (Nat.not_lt.mpr h)]
  cases s.plan.staging <;> cases s.plan.active <;> rfl

/-! ## The obligation -/

theorem exec_overrideAdd_commits {s : State} (ha : Active s) {first last : Nat} (kind : PeriodKind)
    (order : first < last) (bound : last ≤ 94371840) (free : s.plan.staging = .free) {a : ActivePlan}
    (active : s.plan.active = some a) (room : (planOverrides a).length < 4) :
    OverridesCommitted s (withOverrides a (planOverrides a ++ [⟨first, last, periodCode kind⟩]))
      (exec (.overrideAdd first last kind) s) := by
  rw [exec_overrideAdd ha, overrideAddTake_ok ((spanOk_period first last kind).mpr ⟨order, bound⟩), free, active]
  dsimp only
  rw [if_neg (Nat.not_le.mpr room)]
  exact commitOverrides_committed s a _

theorem exec_overrideRemove_commits {s : State} (ha : Active s) {n : Nat} (h : n ≤ 3) (free : s.plan.staging = .free)
    {a : ActivePlan} (active : s.plan.active = some a) (there : n < (planOverrides a).length) :
    OverridesCommitted s (withOverrides a ((planOverrides a).eraseIdx n)) (exec (.overrideRemove n) s) := by
  rw [exec_overrideRemove ha, overrideRemoveTake_ok h, free, active]
  dsimp only
  rw [if_neg (Nat.not_le.mpr there)]
  exact commitOverrides_committed s a _

/-- Settles O24: the arguments, the staging state and the active plan decide; what is left is the commit of the copy. -/
theorem overrideCommandsRebuildThePlan : Obligations.OverrideCommandsRebuildThePlan := by
  refine ⟨fun s first last kind ha => ⟨fun h => ?_, fun order bound => ⟨fun taken => ?_, fun free =>
      ⟨fun none => ?_, fun a active => ⟨fun full => ?_, fun frags room he => ?_, fun frags room he => ?_⟩⟩⟩⟩,
    fun s n ha h => ?_, fun s n ha h => ⟨fun taken => ?_, fun free =>
      ⟨fun none => ?_, fun a active => ⟨fun beyond => ?_, fun frags there he => ?_, fun frags there he => ?_⟩⟩⟩⟩
  · rw [exec_overrideAdd ha, overrideAddTake_bad (mt (spanOk_period first last kind).mp h)]
  · rw [exec_overrideAdd ha, overrideAddTake_ok ((spanOk_period first last kind).mpr ⟨order, bound⟩)]
    cases hs : s.plan.staging with
    | free => exact absurd hs taken
    | loading | fetching => rfl
  · rw [exec_overrideAdd ha, overrideAddTake_ok ((spanOk_period first last kind).mpr ⟨order, bound⟩), free, none]
  · rw [exec_overrideAdd ha, overrideAddTake_ok ((spanOk_period first last kind).mpr ⟨order, bound⟩), free, active]
    dsimp only
    rw [if_pos full]
  · obtain ⟨invalid, old, _⟩ := exec_overrideAdd_commits ha kind order bound free active room
    exact he ▸ ⟨invalid, old⟩
  · exact he ▸ (exec_overrideAdd_commits ha kind order bound free active room).taken free
  · rw [exec_overrideRemove ha, overrideRemoveTake_bad h]
  · rw [exec_overrideRemove ha, overrideRemoveTake_ok h]
    cases hs : s.plan.staging with
    | free => exact absurd hs taken
    | loading | fetching => rfl
  · rw [exec_overrideRemove ha, overrideRemoveTake_ok h, free, none]
  · rw [exec_overrideRemove ha, overrideRemoveTake_ok h, free, active]
    dsimp only
    rw [if_pos beyond]
  · obtain ⟨invalid, old, _⟩ := exec_overrideRemove_commits ha h free active there
    exact he ▸ ⟨invalid, old⟩
  · exact he ▸ (exec_overrideRemove_commits ha h free active there).taken free

end Sys2Proof.Proofs
end

section
/-! What a fetch evaluation and the serve cursor leave (R61, R69, R70, R75): one relation for each, from which the frames,
timers and commands of the Plan Unit take what they need. -/

namespace Sys2Proof.Proofs

open Sys2Proof Sys2Proof.Machine Sys2Proof.Laws

/-! ## Overflows of the queue -/

/-- From s to t the Fault Unit takes as before, every bank but LINE stands, and no pending notice has gone. -/
structure OverflowsOnly (s t : State) : Prop where
  taking : t.faults.taking = s.faults.taking
  banks : ∀ b, b ≠ .line → t.faults.banks[bankIndex b] = s.faults.banks[bankIndex b]
  pending : ∀ k, Pending s k → Pending t k

theorem OverflowsOnly.of_faults {s t : State} (h : t.faults = s.faults) : OverflowsOnly s t :=
  ⟨by rw [h], fun _ _ => by rw [h], fun _ hk => by unfold Pending at *; rw [h]; exact hk⟩

theorem OverflowsOnly.trans {s t u : State} (h : OverflowsOnly s t) (k : OverflowsOnly t u) : OverflowsOnly s u :=
  ⟨k.taking.trans h.taking, fun b hb => (k.banks b hb).trans (h.banks b hb), fun n hn => k.pending n (h.pending n hn)⟩

theorem OverflowsOnly.after {s t u : State} (k : OverflowsOnly t u) (h : t.faults = s.faults) : OverflowsOnly s u :=
  (OverflowsOnly.of_faults h).trans k

theorem report_overflowsOnly (s : State) (k : FrameKind) : OverflowsOnly s (report s (.queueOverflow k)) :=
  ⟨report_taking s _, fun _ hb => report_banks s _ fun h => hb (bankIndex_inj h).symm, fun n => report_pending s _ n⟩

theorem cursorRan_overflowsOnly {s t : State} (h : CursorRan s t) : OverflowsOnly s t := by
  by_cases closed : s.plan.active = none ∨ s.plan.pausedUntil ≠ none ∨ takesOffers s = false
  · exact .of_faults (h.2 closed).2.2
  · simp only [not_or, not_not, Bool.not_eq_false] at closed
    obtain ⟨active, unpaused, takes⟩ := closed
    obtain ⟨a, ha⟩ := Option.ne_none_iff_exists'.mp active
    obtain ⟨_, _, faults⟩ := h.1 a ha unpaused takes
    split at faults
    · exact (report_overflowsOnly s .plan).trans (.of_faults faults)
    · exact .of_faults faults

/-! ## What the cursor has queued -/

/-- The fragments that a run of the cursor has queued have their serve bit set, and their frames are those of the active
plan (R75). -/
theorem cursorRan_queued {s t : State} (h : CursorRan s t) : ∃ taken : List Nat,
    (∀ i ∈ taken, s.plan.serve.getLsbD i = true) ∧ t.plan.queued = s.plan.queued ++ taken ∧
    ∀ e ∈ t.line.queue, e ∈ s.line.queue ∨ ∃ a, s.plan.active = some a ∧ ∃ i ∈ taken, e.body = planBody a i := by
  by_cases closed : s.plan.active = none ∨ s.plan.pausedUntil ≠ none ∨ takesOffers s = false
  · obtain ⟨line, plan, _⟩ := h.2 closed
    exact ⟨[], nofun, by rw [plan, List.append_nil], fun e he => .inl (by rwa [line] at he)⟩
  · simp only [not_or, not_not, Bool.not_eq_false] at closed
    obtain ⟨active, unpaused, takes⟩ := closed
    obtain ⟨a, ha⟩ := Option.ne_none_iff_exists'.mp active
    obtain ⟨line, plan, _⟩ := h.1 a ha unpaused takes
    refine ⟨_, fun i hi => ?_, congrArg PlanUnit.queued plan, fun e he => ?_⟩
    · have waits := List.mem_of_mem_take (List.mem_of_mem_take hi)
      exact (Bool.and_eq_true_iff.mp (List.mem_filter.mp waits).2).1
    · rw [line] at he
      refine (List.mem_append.mp he).imp id fun he => ?_
      obtain ⟨i, hi, rfl⟩ := List.mem_map.mp he
      exact ⟨a, ha, i, hi, rfl⟩

/-! ## A fetch evaluation -/

theorem foldl_newerOf_mem {x : Key} (l : List Key) (o : Option Key) (h : l.foldl newerOf o = some x) :
    x ∈ l ∨ o = some x := by
  induction l generalizing o with
  | nil => exact .inr h
  | cons k l ih =>
    obtain there | here := ih _ h
    · exact .inl (List.mem_cons_of_mem _ there)
    · exact (newerOf_mem here).imp (fun e => List.mem_cons.mpr (.inl e)) id

/-- The target of a fetch is a candidate: newer than the active plan, and not the unobtainable key (R69). -/
theorem fetchTarget_candidate {s : State} {k : Key} {d : Digest} (h : fetchTarget s = some (k, d)) :
    fetchCandidate s.plan k = true := by
  obtain ⟨x, target, found⟩ := Option.bind_eq_some_iff.mp h
  have key : k = x := of_decide_eq_true (List.find?_some (p := fun y : Key × Digest => decide (y.1 = x)) found)
  obtain listed | none := foldl_newerOf_mem _ _ target
  · exact key ▸ (List.mem_filter.mp listed).2
  · cases none

theorem evaluateFetch_cases (s : State) : evaluateFetch s = s ∨
    ∃ k d, fetchTarget s = some (k, d) ∧ evaluateFetch s = startFetch s k d := by
  cases run : inRun s with
  | false => exact .inl (evaluateFetch_notRun run)
  | true =>
    cases target : fetchTarget s with
    | none => unfold evaluateFetch; rw [if_pos run, target]; exact .inl rfl
    | some x =>
      cases staging : s.plan.staging with
      | free => exact .inr ⟨x.1, x.2, rfl, evaluateFetch_free run target staging⟩
      | loading f t => exact .inl (evaluateFetch_loading run target staging)
      | fetching f =>
        rw [evaluateFetch_fetching run target staging]
        split
        · exact .inr ⟨x.1, x.2, rfl, rfl⟩
        · exact .inl rfl

theorem evaluateFetch_untargeted {s : State} (h : fetchTarget s = none) : evaluateFetch s = s := by
  obtain e | ⟨k, d, target, _⟩ := evaluateFetch_cases s
  · exact e
  · rw [h] at target
    cases target

/-- From s to t a fetch evaluation has been made: of the Plan Unit the staging area alone can differ, which is as it was
or fetches a candidate; the queue has taken a PLANREQ at most (R69, R70). -/
structure Refetched (s t : State) : Prop where
  changes : Changes [.plan, .line, .faults] s t
  plan : t.plan = { s.plan with
    staging := t.plan.staging
    overtaken := t.plan.overtaken }
  staging : t.plan.staging = s.plan.staging ∨
    ∃ g, t.plan.staging = .fetching g ∧ fetchCandidate s.plan g.target = true
  queue : ∀ e ∈ t.line.queue, e ∈ s.line.queue ∨ ∃ k m, e.body = .planreq k m
  faults : OverflowsOnly s t

theorem offer_planreq_queue (s : State) (k : Key) (m : FragmentMask) : OverflowsOnly s (offer s (.planreq k m)) ∧
    ∀ e ∈ (offer s (.planreq k m)).line.queue, e ∈ s.line.queue ∨ ∃ k m, e.body = .planreq k m := by
  obtain e | e | e := offer_planreq s k m <;> rw [e]
  · refine ⟨.of_faults rfl, fun x hx => ?_⟩
    obtain rfl | there := mem_queueInsert.mp hx
    · exact .inr ⟨k, m, rfl⟩
    · exact .inl there
  · exact ⟨report_overflowsOnly s _, fun _ => .inl⟩
  · exact ⟨.of_faults rfl, fun _ => .inl⟩

theorem startFetch_refetched {s : State} {k : Key} {d : Digest} (h : fetchTarget s = some (k, d)) :
    Refetched s (startFetch s k d) := by
  have queue := offer_planreq_queue (setStaging s (.fetching (newFetch s k d))) k (BitVec.allOnes 48)
  have plan := (offer_planreq_moves (setStaging s (.fetching (newFetch s k d))) k (BitVec.allOnes 48)).2
  have moves := (startFetch_moves s k d).changes
  rw [← startFetch_eq] at queue plan
  exact ⟨moves, by rw [plan]; rfl, .inr ⟨newFetch s k d, by rw [plan]; rfl, fetchTarget_candidate h⟩, queue.2,
    queue.1.after rfl⟩

theorem evaluateFetch_refetched (s : State) : Refetched s (evaluateFetch s) := by
  obtain e | ⟨k, d, target, e⟩ := evaluateFetch_cases s <;> rw [e]
  · exact ⟨fun f _ => by cases f <;> rfl, rfl, .inl rfl, fun _ => .inl, .of_faults rfl⟩
  · exact startFetch_refetched target

/-- The staging area given back, with the fetch evaluation that follows (R61). -/
theorem freeStaging_refetched (s : State) : Refetched (setStaging s .free) (freeStaging s) :=
  evaluateFetch_refetched (setStaging s .free)

theorem freeStaging_staging (s : State) : (freeStaging s).plan.staging = .free ∨
    ∃ g, (freeStaging s).plan.staging = .fetching g ∧ fetchCandidate s.plan g.target = true :=
  (freeStaging_refetched s).staging

theorem freeStaging_overflowsOnly (s : State) : OverflowsOnly s (freeStaging s) :=
  (freeStaging_refetched s).faults.after rfl

/-- Where no key is reported that a fetch could go to, FREE is all. -/
theorem freeStaging_untargeted {s : State} (h : fetchTarget s = none) : freeStaging s = setStaging s .free :=
  evaluateFetch_untargeted h

/-! ## A fetch that fails -/

/-- An uncorrected fault: its bank holds an uncorrected record, the fault's own where the bank was empty (R177, R178). -/
theorem report_uncorrected {s : State} {f : FaultCode} {i : BankId} (hi : faultBank f = i) (ht : Taking s)
    (hf : faultEnabled s.image f = true) (hu : faultUncorrected f = true) :
    let b := (report s f).faults.banks[bankIndex i]
    b.valid = true ∧ b.uncorrected = true ∧
      (s.faults.banks[bankIndex i].valid = false → b.code = faultNumber f ∧ b.detail = faultDetail f) := by
  subst hi
  have ht : s.faults.taking = true := ht
  have taken : (report s f).faults.banks[bankIndex (faultBank f)] =
      bankTake s.faults.banks[bankIndex (faultBank f)] (currentReading s) f := by
    show (faultsReport s.faults s.image (currentReading s) f).banks[_] = _
    simp only [faultsReport, ht, hf, Bool.and_self, if_true, faultsRaise]
    split <;> simp
  dsimp only
  rw [taken]
  unfold bankTake
  rw [if_pos hu]
  cases s.faults.banks[bankIndex (faultBank f)].valid with
  | false => simp
  | true => cases s.faults.banks[bankIndex (faultBank f)].uncorrected <;> simp

theorem candidate_not_unobtainable {p : PlanUnit} {k : Key} (h : p.unobtainable = some k) {j : Key}
    (hj : fetchCandidate p j = true) : j ≠ k := by
  rintro rfl
  exact ((fetchCandidate_iff p j).mp hj).2 h

/-- A fetch that has failed: its target is the unobtainable key, and no further fetch goes toward it (R69, R72, R73). -/
theorem failFetch_plan (s : State) (k : Key) (c : FaultCode) : let t := failFetch s k c
    t.plan.active = s.plan.active ∧ t.plan.unobtainable = some k ∧
    (t.plan.staging = .free ∨ ∃ g, t.plan.staging = .fetching g ∧ g.target ≠ k) := by
  intro t
  have freed := freeStaging_refetched ((report s c).withPlan { s.plan with unobtainable := some k })
  have plan : t.plan = { s.plan with
      unobtainable := some k
      staging := t.plan.staging
      overtaken := t.plan.overtaken } := freed.plan
  refine ⟨by rw [plan], by rw [plan], freed.staging.imp id fun ⟨g, hg, candidate⟩ => ⟨g, hg, ?_⟩⟩
  exact candidate_not_unobtainable rfl candidate

theorem failFetch_overflowsOnly (s : State) (k : Key) (c : FaultCode) : OverflowsOnly (report s c) (failFetch s k c) :=
  (freeStaging_overflowsOnly ((report s c).withPlan { s.plan with unobtainable := some k })).after rfl

/-- The record of a fetch that has failed (R72, R73, R180). -/
theorem failFetch_recorded {s : State} {c : FaultCode} (hb : faultBank c = .plan) (ht : Taking s)
    (hf : faultEnabled s.image c = true) (hu : faultUncorrected c = true) (k : Key) :
    let b := (failFetch s k c).faults.banks[bankIndex .plan]
    b.valid = true ∧ b.uncorrected = true ∧
      (s.faults.banks[bankIndex .plan].valid = false → b.code = faultNumber c ∧ b.detail = faultDetail c) := by
  dsimp only
  rw [(failFetch_overflowsOnly s k c).banks .plan (by decide)]
  exact report_uncorrected hb ht hf hu

end Sys2Proof.Proofs
end

section
/-! PLANREQ frames and the pause of the serve cursor (R74, R75). -/

namespace Sys2Proof.Proofs

open Sys2Proof Sys2Proof.Machine Sys2Proof.Laws

/-! ## A frame is heard -/

theorem rollPresence_plan (s : State) (p : StationNo) : (rollPresence s p true).plan = s.plan := by
  obtain e | ⟨r, _, e⟩ := rollPresence_cases s p <;> rw [e]
  rfl

/-- A peer that is heard may bring about a fetch; the serve bitmap stands (R46, R52). -/
theorem hearPeer_serve (s : State) (p : StationNo) : (hearPeer s p).plan.serve = s.plan.serve := by
  have rolled := congrArg PlanUnit.serve (rollPresence_plan (peerKept s p) p)
  unfold hearPeer
  dsimp only
  split
  · rfl
  · split
    · exact (congrArg PlanUnit.serve (evaluateFetch_refetched _).plan).trans rolled
    · exact rolled

theorem frameHeard_serve (s : State) (p : StationNo) : (frameHeard s p).plan.serve = s.plan.serve :=
  hearPeer_serve (frameReceived s) p

theorem frameHeard_listenOnly (s : State) (p : StationNo) : (frameHeard s p).line.listenOnly = s.line.listenOnly := by
  have aside := congrArg LineUnit.listenOnly (hearPeer_moves (frameReceived s) p).aside
  exact aside.trans (receivedEnd_keeps s.line s.time.localCount).2.2

/-! ## A PLANREQ taken -/

theorem exec_planreq {s : State} (ha : Active s) {p : StationNo} {payload : List Byte} {k : Key} {m : FragmentMask}
    (hp : p ≠ s.start.station) (hl : payload.length = 9) (hx : planreqOf payload = some (k, m)) :
    exec (.planreq p payload) s = .next (dropCapture (takePlanreq (frameHeard s p) k m)) := by
  refine congrArg Host.Outcome.next ((whenListening_active ha _).trans ?_)
  rw [hx]
  exact receive_hands (by simp [lengthAllowed, hl]) hp _

/-- The serve bits that a PLANREQ sets (R74). -/
def requestTaken (s : State) (a : ActivePlan) (m : FragmentMask) : State :=
  s.withPlan { s.plan with serve := s.plan.serve ||| (m &&& bitsBelow a.total) }

theorem bitsBelow_get (n : Nat) {i : Nat} (h : i < 48) : (bitsBelow n).getLsbD i = decide (i < n) := by
  have size : 2 ^ min n 48 ≤ 2 ^ 48 := Nat.pow_le_pow_right (by decide) (Nat.min_le_right n 48)
  simp only [bitsBelow, BitVec.getLsbD_ofNat, h, decide_true, Bool.true_and, Nat.testBit_two_pow_sub_one]
  exact decide_eq_decide.mpr (by omega)

theorem requestTaken_serve (s : State) (a : ActivePlan) (m : FragmentMask) {i : Nat} (h : i < 48) :
    (requestTaken s a m).plan.serve.getLsbD i = (s.plan.serve.getLsbD i || (m.getLsbD i && decide (i < a.total))) := by
  show (s.plan.serve ||| (m &&& bitsBelow a.total)).getLsbD i = _
  rw [BitVec.getLsbD_or, BitVec.getLsbD_and, bitsBelow_get _ h]

theorem takePlanreq_served {s : State} {a : ActivePlan} (active : s.plan.active = some a)
    (listens : s.line.listenOnly = false) (m : FragmentMask) :
    takePlanreq s a.key m = runCursor (requestTaken s a m) := by
  unfold takePlanreq
  rw [active]
  exact if_pos ⟨rfl, by rw [listens]; rfl⟩

theorem takePlanreq_passed {s : State} {k : Key}
    (h : (∀ a, s.plan.active = some a → a.key ≠ k) ∨ s.line.listenOnly = true) (m : FragmentMask) :
    takePlanreq s k m = s := by
  unfold takePlanreq
  split
  · rfl
  · next a active =>
    refine if_neg fun ⟨key, listens⟩ => ?_
    obtain other | only := h
    · exact other a active key
    · rw [only] at listens
      cases listens

/-! ## The pause -/

theorem exec_servePause {s : State} (ha : Active s) : exec .servePause s = .next (if s.plan.pausedUntil.isSome then
    runCursor (s.withPlan { s.plan with pausedUntil := none }) else s) :=
  exec_whenWorking rfl ha

/-- What the serve cursor changes when it runs at the end of the pause or after a request. -/
theorem runCursor_withPlan_changes (s : State) (x : PlanUnit) :
    Changes [.plan, .line, .faults] s (runCursor (s.withPlan x)) :=
  changes_trans (changes_mono (withPlan_changes s x)) (runCursor_ev _).mono.same

theorem takePlanreq_changes (s : State) (k : Key) (m : FragmentMask) :
    Changes [.plan, .line, .faults] s (takePlanreq s k m) := by
  unfold takePlanreq
  split
  · exact fun f _ => by cases f <;> rfl
  · split
    · exact runCursor_withPlan_changes s _
    · exact fun f _ => by cases f <;> rfl

theorem takePlanreq_active (s : State) (k : Key) (m : FragmentMask) :
    (takePlanreq s k m).plan.active = s.plan.active := by
  unfold takePlanreq
  split
  · rfl
  · split
    · exact (runCursor_onlyServed _).active
    · rfl

/-- The request of a present peer is taken in a state that differs from the one before it in the line alone. -/
theorem requestTaken_heard {s : State} {p : StationNo} (h : s.line.roster[p].present = true) (a : ActivePlan)
    (m : FragmentMask) : let w := requestTaken (frameHeard s p) a m
    w = (s.withLine w.line).withPlan { s.plan with serve := w.plan.serve } := by
  have eq := withLine_of_changes (frameHeard_present h).1
  generalize (frameHeard s p).line = l at eq
  dsimp only
  rw [eq]
  rfl

/-- Settles O27: the frame heard, the bits of the request, and the run of the cursor. -/
theorem planRequestsAreServed : Obligations.PlanRequestsAreServed := by
  refine ⟨fun s p payload k m ha hp hl hx => ⟨_, exec_planreq ha hp hl hx, ?_⟩,
    fun s ha => ⟨fun unpaused => ?_, fun paused => ?_⟩⟩
  · have active_heard := (frameHeard_hears s p).active
    have only := frameHeard_listenOnly s p
    refine ⟨(takePlanreq_active _ k m).trans active_heard, fun a active key listens i hi => ?_, fun passed => ?_,
      fun present => ?_⟩
    · subst key
      show (takePlanreq (frameHeard s p) a.key m).plan.serve.getLsbD i = _
      rw [takePlanreq_served (active_heard.trans active) (only.trans listens), cursorRan_serve (runCursor_ran _),
        requestTaken_serve _ a m hi, frameHeard_serve]
    · show (takePlanreq (frameHeard s p) k m).plan.serve = _
      rw [takePlanreq_passed (by rwa [active_heard, only]), frameHeard_serve]
    · obtain ⟨line, queue, listen⟩ := frameHeard_present present
      refine ⟨dropCapture_heard_changes line (changes_mono (fs := [.line, .time, .plan, .faults])
        (takePlanreq_changes _ k m)), fun passed => ?_, fun a active key listens => ?_⟩
      · rw [takePlanreq_passed (by rwa [active_heard, only])]
        exact ⟨line .plan (by decide), queue, line .faults (by decide)⟩
      · subst key
        rw [takePlanreq_served (active_heard.trans active) (only.trans listens)]
        have ran := runCursor_ran (requestTaken (frameHeard s p) a m)
        refine ⟨requestTaken (frameHeard s p) a m, ?_, queue, listen.trans listens, ran⟩
        show _ = State.withPlan _ { s.plan with serve := (runCursor _).plan.serve }
        rw [cursorRan_serve ran]
        exact requestTaken_heard present a m
  · rw [exec_servePause ha, unpaused]
    rfl
  · have ran := runCursor_ran (s.withPlan { s.plan with pausedUntil := none })
    exact ⟨_, by rw [exec_servePause ha, if_pos paused], (cursorRan_serve ran :), ran, runCursor_withPlan_changes s _⟩

end Sys2Proof.Proofs
end

section
/-! LOAD ABORT, and the two timers of the staging area (R65, R69, R72). -/

namespace Sys2Proof.Proofs

open Sys2Proof Sys2Proof.Machine Sys2Proof.Laws

/-! ## LOAD ABORT -/

theorem exec_loadAbort {s : State} (h : Active s) : exec .loadAbort s =
    .next (answered (loadAbortTake s).1 (loadAbortTake s).2) :=
  congrArg Host.Outcome.next (panelTake_active h _)

theorem loadAbortTake_eq (s : State) : loadAbortTake s = match s.plan.staging with
    | .free => (s, .refused .notLoading)
    | .fetching _ => (s, .busy)
    | .loading _ _ => (freeStaging s, .done .nothing) := rfl

theorem exec_loadAbort_loading {s : State} (ha : Active s) {f : Fragments} {t : Count}
    (h : s.plan.staging = .loading f t) : exec .loadAbort s = .next (answered (freeStaging s) (.done .nothing)) := by
  rw [exec_loadAbort ha, loadAbortTake_eq, h]

/-! ## An expiry -/

/-- An expiry that has not been overtaken, or whose timer has run out all the same, has its effect (log 55). -/
theorem stagingExpiry_acts {s act : State} {c : Count}
    (h : s.plan.overtaken = false ∨ countReached s.time.localCount c = true) :
    stagingExpiry s c act = act.withPlan { act.plan with overtaken := false } := by
  unfold stagingExpiry
  dsimp only
  rw [if_neg]
  obtain h | h := h <;> simp [h]

theorem exec_loadTimer {s : State} (ha : Active s) {f : Fragments} {t : Count} (h : s.plan.staging = .loading f t) :
    exec .loadTimer s = .next (stagingExpiry s t (abandonLoad s f)) := by
  have row : exec .loadTimer s = .next (whenWorking s (match s.plan.staging with
    | .loading f t => stagingExpiry s t (abandonLoad s f)
    | _ => s)) := rfl
  rw [exec_whenWorking row ha, h]

theorem exec_noProgressTimer {s : State} (ha : Active s) {f : Fetch} (h : s.plan.staging = .fetching f) :
    exec .noProgressTimer s = .next (stagingExpiry s f.timer (fetchExpired s f)) := by
  have row : exec .noProgressTimer s = .next (whenWorking s (match s.plan.staging with
    | .fetching f => stagingExpiry s f.timer (fetchExpired s f)
    | _ => s)) := rfl
  rw [exec_whenWorking row ha, h]

/-! ## The load timer -/

/-- A load is abandoned: the record and the notice, before the staging area is given back (R65). -/
def abandonRecorded (s : State) (f : Fragments) : State :=
  raise (report s (.loadAbandoned (heldCount f))) .loadAbandoned

theorem abandonLoad_eq (s : State) (f : Fragments) : abandonLoad s f = freeStaging (abandonRecorded s f) := rfl

theorem abandonRecorded_target (s : State) (f : Fragments) : fetchTarget (abandonRecorded s f) = fetchTarget s := rfl

/-- The notice and the record of an abandoned load (R65, R180). -/
theorem abandonLoad_recorded {s : State} (ht : Taking s) (f : Fragments) : Pending (abandonLoad s f) .loadAbandoned ∧
    (abandonLoad s f).faults.banks[bankIndex .plan] = if faultEnabled s.image (.loadAbandoned 0) = true then
      corrected s.faults.banks[bankIndex .plan] 1 (some (.number (f.toList.filter (·.isSome)).length))
        (if s.time.quality = .unset then none else some s.time.campus)
    else s.faults.banks[bankIndex .plan] := by
  have freed := freeStaging_overflowsOnly (abandonRecorded s f)
  rw [abandonLoad_eq]
  refine ⟨freed.pending _ ((raise_pending _ _ _).mpr (.inl ⟨(report_taking s _).trans ht, rfl⟩)), ?_⟩
  rw [freed.banks .plan (by decide), abandonRecorded, raise_banks]
  exact report_corrected s (.loadAbandoned (heldCount f)) ht rfl

/-! ## The no-progress timer -/

/-- The fetch with one more request, and the timer restarted (R72). -/
def requestedAgain (s : State) (f : Fetch) : Fetch := { f with
  requests := f.requests + 1
  timer := s.time.localCount + 10000#32 }

theorem fetchExpired_requests {s : State} {f : Fetch} (h : f.requests < 6) : fetchExpired s f =
    offer (setStaging s (.fetching (requestedAgain s f))) (.planreq f.target (missingMask f)) := if_pos h

theorem fetchExpired_fails {s : State} {f : Fetch} (h : 6 ≤ f.requests) : fetchExpired s f =
    failFetch s f.target (.fetchFailed f.target.gen) := if_neg (Nat.not_lt.mpr h)

/-- Settles O28: the command and the two expiries, each in its branches. -/
theorem loadAndFetchTimers : Obligations.LoadAndFetchTimers := by
  intro s ha
  refine ⟨fun free => ?_, fun f fetching => ?_,
    fun f t0 loading => ⟨_, exec_loadAbort_loading ha loading, ?_, fun none => ?_,
      (freeStaging_staging s).imp id fun ⟨g, hg, _⟩ => ⟨g, hg⟩⟩,
    fun f t0 loading due => ?_, fun timer runs overtaken later => ?_,
    fun f t0 loading reached n content hn hc => ?_, fun f fetching few room due => ?_, fun f fetching many due => ?_⟩
  · rw [exec_loadAbort ha, loadAbortTake_eq, free]
  · rw [exec_loadAbort ha, loadAbortTake_eq, fetching]
  · exact answered_port ((freeStaging_ev s).same .port (by decide)) _
  · rw [freeStaging_untargeted none]
    exact ⟨_, rfl⟩
  · rw [exec_loadTimer ha loading, stagingExpiry_acts due]
    refine ⟨_, rfl, fun ht => ?_, fun none => ?_, ?_⟩
    · obtain ⟨pending, bank⟩ := abandonLoad_recorded ht f
      exact ⟨pending, fun enabled => bank.trans (if_pos enabled)⟩
    · rw [abandonLoad_eq, freeStaging_untargeted ((abandonRecorded_target s f).trans none)]
      rfl
    · exact (freeStaging_staging (abandonRecorded s f)).imp id fun ⟨g, hg, _⟩ => ⟨g, hg⟩
  · refine ⟨fun ⟨f, loading⟩ => ?_, fun ⟨f, fetching⟩ => ?_⟩
    · obtain ⟨g, hg⟩ | ⟨g, hg, _⟩ := runs <;> rw [loading] at hg <;> cases hg
      rw [exec_loadTimer ha loading, stagingExpiry_void overtaken later]
    · obtain ⟨g, hg⟩ | ⟨g, hg, rfl⟩ := runs <;> rw [fetching] at hg <;> cases hg
      rw [exec_noProgressTimer ha fetching, stagingExpiry_void overtaken later]
  · rw [exec_loadFragment ha, loadFragmentTake_loading (Nat.lt_succ_of_le hn) hc loading]
    exact ⟨_, rfl, loadingNow_overtakes loading reached _, _, rfl⟩
  · have later : HasRoom (setStaging s (.fetching (requestedAgain s f))) := room
    have offered := offer_enters later.1 (find_planreq _ f.target (missingMask f)) later.2
    rw [exec_noProgressTimer ha fetching, stagingExpiry_acts due, fetchExpired_requests few, offered]
    refine ⟨_, rfl, .inl (List.mem_map.mpr ⟨_, mem_queueInsert.mpr (.inl rfl), rfl⟩), rfl, ?_⟩
    intro x hx
    cases x
    case plan | line => exact absurd (by decide) hx
    all_goals rfl
  · rw [exec_noProgressTimer ha fetching, stagingExpiry_acts due, fetchExpired_fails many]
    obtain ⟨_, unobtainable, staging⟩ := failFetch_plan s f.target (.fetchFailed f.target.gen)
    refine ⟨_, rfl, unobtainable, staging, fun ht enabled => ?_⟩
    obtain ⟨_, recorded⟩ := failFetch_recorded rfl ht enabled rfl f.target
    exact recorded

end Sys2Proof.Proofs
end

section
/-! A PLAN frame that another station has sent: the queued copies that it suppresses, and the serve bit (R41, R74, R75). -/

namespace Sys2Proof.Proofs

open Sys2Proof Sys2Proof.Machine Sys2Proof.Laws

/-! ## Suppression -/

/-- No PLAN frame of this key and index waits in the queue but one in flight. -/
def NoneWaits (q : List TxEntry) (k : Key) (i : Nat) : Prop :=
  ∀ e ∈ q, e.inFlight = false → ∀ n c, e.body ≠ .plan k i n c

/-- The queue without the frames that are suppressed (R41). -/
def unsuppressed (s : State) (k : Key) (i : Nat) : State :=
  s.withLine { s.line with queue := s.line.queue.filter fun e => !suppressible k i e }

theorem suppressible_iff (k : Key) (i : Nat) (e : TxEntry) : suppressible k i e = true ↔
    e.inFlight = false ∧ ∃ n c, e.body = .plan k i n c := by
  unfold suppressible
  rw [Bool.and_eq_true, Bool.not_eq_true']
  refine and_congr_right fun _ => ?_
  cases e.body <;> simp

theorem unsuppressed_noneWaits (s : State) (k : Key) (i : Nat) : NoneWaits (unsuppressed s k i).line.queue k i := by
  intro e he waits n c body
  have stays := (List.mem_filter.mp he).2
  rw [(suppressible_iff k i e).mpr ⟨waits, n, c, body⟩] at stays
  cases stays

/-- The Plan Unit's fragment i suppressed: no longer queued, and its serve bit cleared (R75). -/
def fragmentSuppressed (s : State) (i : Nat) : State :=
  s.withPlan { fragmentGone s i with serve := s.plan.serve &&& ~~~(1#48 <<< i) }

/-- Every outcome of the list is that a PLAN frame of this key and index has been suppressed. -/
def AllSuppressed (k : Key) (i : Nat) (l : List (FrameBody × TxOutcome)) : Prop :=
  ∀ x ∈ l, ∃ n c, x = (.plan k i n c, .suppressed)

theorem tellAll_uncounted {s : State} {k : Key} {i : Nat} (h : ¬ CountsFragment s k i)
    {l : List (FrameBody × TxOutcome)} (hl : AllSuppressed k i l) : tellAll s l = s := by
  induction l with
  | nil => rfl
  | cons x l ih =>
    obtain ⟨n, c, rfl⟩ := hl x List.mem_cons_self
    have told : told s (.plan k i n c) .suppressed = s := toldPlan_uncounted h .suppressed
    show tellAll (Machine.told s (.plan k i n c) .suppressed) l = s
    rw [told, ih fun y hy => hl y (List.mem_cons_of_mem _ hy)]

/-- A bit that has been taken off is clear. -/
theorem clearedBit_self (x : BitVec 48) (i : Nat) : (x &&& ~~~(1#48 <<< i)).getLsbD i = false := by
  by_cases h : i < 48
  · rw [clearedBit x i h]
    simp
  · exact BitVec.getLsbD_of_ge _ _ (Nat.not_lt.mp h)

/-- A fragment whose bit is clear is not queued by the cursor. -/
theorem cursorRan_unqueued {s t : State} (h : CursorRan s t) {i : Nat} (bit : s.plan.serve.getLsbD i = false)
    (hi : i ∉ s.plan.queued) : i ∉ t.plan.queued := by
  obtain ⟨taken, bits, queued, _⟩ := cursorRan_queued h
  rw [queued, List.mem_append]
  rintro (there | here)
  · exact hi there
  · exact Bool.false_ne_true (bit.symm.trans (bits i here))

/-- The first suppression of a fragment clears its bit, after which no more is queued of it. -/
theorem tellAll_suppressed {s : State} {k : Key} {i : Nat} {l : List (FrameBody × TxOutcome)}
    (hl : AllSuppressed k i l) : tellAll s l = s ∨
      CountsFragment s k i ∧ tellAll s l = runCursor (fragmentSuppressed s i) := by
  by_cases counts : CountsFragment s k i
  · cases l with
    | nil => exact .inl rfl
    | cons x l =>
      refine .inr ⟨counts, ?_⟩
      obtain ⟨n, c, rfl⟩ := hl x List.mem_cons_self
      have told : told s (.plan k i n c) .suppressed = runCursor (fragmentSuppressed s i) := if_pos counts.contains
      have gone : i ∉ (fragmentSuppressed s i).plan.queued := fun h =>
        of_decide_eq_true (List.mem_filter.mp h).2 rfl
      have spent : ¬ CountsFragment (runCursor (fragmentSuppressed s i)) k i := fun h =>
        cursorRan_unqueued (runCursor_ran _) (clearedBit_self s.plan.serve i) gone h.2
      show tellAll (Machine.told s (.plan k i n c) .suppressed) l = _
      rw [told, tellAll_uncounted spent fun y hy => hl y (List.mem_cons_of_mem _ hy)]
  · exact .inl (tellAll_uncounted counts hl)

theorem suppressPlan_cases (s : State) (k : Key) (i : Nat) : let w := unsuppressed s k i
    suppressPlan s k i = w ∨ CountsFragment w k i ∧ suppressPlan s k i = runCursor (fragmentSuppressed w i) := by
  refine tellAll_suppressed fun x hx => ?_
  obtain ⟨e, he, rfl⟩ := List.mem_map.mp hx
  obtain ⟨_, n, c, body⟩ := (suppressible_iff k i e).mp (List.mem_filter.mp he).2
  exact ⟨n, c, by rw [body]⟩

/-- From s to t the Plan Unit has served or taken back a fragment, and no PLAN frame of this key and index waits any
more. -/
structure Suppresses (s t : State) (k : Key) (i : Nat) : Prop where
  changes : Changes [.line, .plan, .faults] s t
  served : OnlyServed s.plan t.plan
  faults : OverflowsOnly s t
  gone : NoneWaits t.line.queue k i

/-- Serve bits taken off, whatever else of the fragments queued (R75). -/
theorem onlyServed_of_cleared (p : PlanUnit) (q : List Nat) (m : FragmentMask) :
    OnlyServed p { p with
      queued := q
      serve := p.serve &&& m } :=
  ⟨rfl, rfl, fun j hj => (Bool.and_eq_true_iff.mp (BitVec.getLsbD_and ▸ hj)).1⟩

theorem suppressPlan_suppresses (s : State) (k : Key) (i : Nat) : Suppresses s (suppressPlan s k i) k i := by
  have line : Changes [.line, .plan, .faults] s (unsuppressed s k i) := changes_mono (withLine_changes s _)
  obtain e | ⟨counts, e⟩ := suppressPlan_cases s k i <;> rw [e]
  · exact ⟨line, .refl _, .of_faults rfl, unsuppressed_noneWaits s k i⟩
  · have ran := runCursor_ran (fragmentSuppressed (unsuppressed s k i) i)
    have cleared : OnlyServed s.plan (fragmentSuppressed (unsuppressed s k i) i).plan := onlyServed_of_cleared _ _ _
    refine ⟨changes_trans line (changes_mono (runCursor_withPlan_changes _ _)),
      cleared.trans (runCursor_onlyServed _), (cursorRan_overflowsOnly ran).after rfl, fun e he waits n c body => ?_⟩
    obtain ⟨taken, bits, _, queue⟩ := cursorRan_queued ran
    obtain there | ⟨a, _, j, hj, own⟩ := queue e he
    · exact unsuppressed_noneWaits s k i e there waits n c body
    · have index : i = j := by
        rw [own] at body
        cases body
        rfl
      have clear : (fragmentSuppressed (unsuppressed s k i) i).plan.serve.getLsbD i = false := clearedBit_self _ i
      exact Bool.false_ne_true (clear.symm.trans (index ▸ bits j hj))

/-! ## The serve bit -/

/-- The serve bit of the frame's fragment cleared, where the frame is one of the active plan (R74). -/
def serveCleared (s : State) (x : PlanFrame) : State :=
  if (s.plan.active.map (·.key)) = some x.key then
    s.withPlan { s.plan with serve := s.plan.serve &&& ~~~(1#48 <<< x.index) } else s

/-- The station before the frame reaches a fetch. -/
def planFrameKept (s : State) (x : PlanFrame) : State := serveCleared (suppressPlan s x.key x.index) x

theorem handPlan_eq (x : PlanFrame) (s : State) : handPlan x s = match (planFrameKept s x).plan.staging with
    | .fetching f => if f.target = x.key then fetchFragment (planFrameKept s x) f x else planFrameKept s x
    | _ => planFrameKept s x := rfl

theorem serveCleared_suppresses (s : State) (x : PlanFrame) (i : Nat) (h : NoneWaits s.line.queue x.key i) :
    Suppresses s (serveCleared s x) x.key i := by
  unfold serveCleared
  split
  · exact ⟨changes_mono (withPlan_changes s _), onlyServed_of_cleared s.plan s.plan.queued _, .of_faults rfl, h⟩
  · exact ⟨fun f _ => by cases f <;> rfl, .refl _, .of_faults rfl, h⟩

theorem planFrameKept_suppresses (s : State) (x : PlanFrame) : Suppresses s (planFrameKept s x) x.key x.index := by
  have first := suppressPlan_suppresses s x.key x.index
  have second := serveCleared_suppresses _ x x.index first.gone
  exact ⟨changes_trans first.changes second.changes, first.served.trans second.served, first.faults.trans second.faults,
    second.gone⟩

theorem planFrameKept_bit (s : State) (x : PlanFrame) {a : ActivePlan} (active : s.plan.active = some a)
    (key : a.key = x.key) : (planFrameKept s x).plan.serve.getLsbD x.index = false := by
  have kept := (suppressPlan_suppresses s x.key x.index).served.active
  unfold planFrameKept serveCleared
  rw [if_pos (by rw [kept, active]; exact congrArg some key)]
  exact clearedBit_self _ x.index

end Sys2Proof.Proofs
end

section
/-! A PLAN frame that reaches a fetch, and the fetch that it completes (R71, R73, R76). -/

namespace Sys2Proof.Proofs

open Sys2Proof Sys2Proof.Machine Sys2Proof.Laws

/-! ## A frame that reaches a fetch -/

/-- The frame's total and index fit the fetch (R71). -/
structure Fits (f : Fetch) (x : PlanFrame) : Prop where
  least : 7 ≤ x.total
  most : x.total ≤ 41
  index : x.index < x.total
  total : f.total = none ∨ f.total = some x.total

theorem not_fits_iff (f : Fetch) (x : PlanFrame) : ¬ Fits f x ↔ x.total < 7 ∨ 41 < x.total ∨ x.total ≤ x.index ∨
    (f.total ≠ none ∧ f.total ≠ some x.total) := by
  have fits : Fits f x ↔ 7 ≤ x.total ∧ x.total ≤ 41 ∧ x.index < x.total ∧ (f.total = none ∨ f.total = some x.total) :=
    ⟨fun ⟨a, b, c, d⟩ => ⟨a, b, c, d⟩, fun ⟨a, b, c, d⟩ => ⟨a, b, c, d⟩⟩
  rw [fits]
  simp only [not_and_or, not_or, Nat.not_le, Nat.not_lt, ne_eq]

theorem fetchFragment_unfit {f : Fetch} {x : PlanFrame} (h : ¬ Fits f x) (s : State) : fetchFragment s f x = s :=
  if_pos ((not_fits_iff f x).mp h)

/-- The fetch with a new fragment (R71). -/
def fragmentAdded (s : State) (f : Fetch) (x : PlanFrame) (h : x.index < 41) : Fetch := { f with
  total := some x.total
  requests := 0
  frags := f.frags.set x.index (some x.content)
  timer := s.time.localCount + 10000#32 }

theorem fetchFragment_held {f : Fetch} {x : PlanFrame} (fits : Fits f x) (h : x.index < 41)
    (held : f.frags[x.index].isSome = true) (s : State) :
    fetchFragment s f x = setStaging s (.fetching { f with total := some x.total }) := by
  have : f.frags[(⟨x.index, h⟩ : Fin 41)].isSome = true := held
  unfold fetchFragment
  rw [if_neg (mt (not_fits_iff f x).mpr (not_not.mpr fits)), dif_pos h]
  exact if_pos this

theorem fetchFragment_new {f : Fetch} {x : PlanFrame} (fits : Fits f x) (h : x.index < 41)
    (missing : f.frags[x.index] = none) (s : State) : fetchFragment s f x =
      let g := fragmentAdded s f x h
      if allHeld g.frags x.total = true then completeFetch (setStaging s (.fetching g)) g
      else setStaging s (.fetching g) := by
  have : f.frags[(⟨x.index, h⟩ : Fin 41)] = none := missing
  unfold fetchFragment
  rw [if_neg (mt (not_fits_iff f x).mpr (not_not.mpr fits)), dif_pos h]
  dsimp only
  rw [if_neg (by rw [this]; exact Bool.false_ne_true)]
  rfl

/-! ## A complete fetch -/

theorem completeFetch_invalid {f : Fetch} {r : PlanFault}
    (h : validate f.frags.toList f.total (some f.digest) = .error r) (s : State) :
    completeFetch s f = failFetch s f.target (.receivedPlanInvalid r) := by
  unfold completeFetch
  rw [h]

/-- The plan of a fetch is adopted, before the staging area is given back (R73, R76). -/
def planAdoptedAt (s : State) (f : Fetch) (l : List (List Byte)) : State :=
  changePlan (raise (setStaging s .free) (adoptionNotice s)) (planOf f.target l)

theorem completeFetch_valid {f : Fetch} {l : List (List Byte)}
    (h : validate f.frags.toList f.total (some f.digest) = .ok l) (s : State) :
    completeFetch s f = freeStaging (planAdoptedAt s f l) := by
  unfold completeFetch
  rw [h]
  rfl

/-- A change of the plan asks an idle Record Store for a save, which begins (R76, R206). -/
theorem changePlan_store {s : State} (hw : working s = true) (idle : s.store.state = .idle) (a : ActivePlan) :
    (changePlan s a).store = ⟨.saving a false, false⟩ := by
  have status (t : State) : (computeStatus t).store = t.store := (computeStatus_ev t).same .store (by decide)
  have working (p : PlanUnit) : working (s.withPlan p) = true := hw
  unfold changePlan requestSave
  dsimp only
  rw [status, store_withPlan, idle]
  dsimp only
  rw [if_pos (working _)]
  rfl

theorem adoptionNotice_eq (s : State) : adoptionNotice s =
    if s.plan.active.map (·.key.origin) = some s.start.station then .planSuperseded else .planAdopted := by
  unfold adoptionNotice
  cases s.plan.active <;> simp

/-- From s to t the plan l, fetched, has become the active plan (R73, R76). -/
structure Adopted (s t : State) (f : Fetch) (l : List (List Byte)) : Prop where
  active : t.plan.active = some (planOf f.target l)
  serve : t.plan.serve = 0
  staging : t.plan.staging = .free ∨ ∃ g, t.plan.staging = .fetching g
  store : working s = true → s.store.state = .idle → t.store = ⟨.saving (planOf f.target l) false, false⟩
  notice : Taking s → Pending t (adoptionNotice s)

theorem completeFetch_adopts {f : Fetch} {l : List (List Byte)}
    (h : validate f.frags.toList f.total (some f.digest) = .ok l) (s : State) : Adopted s (completeFetch s f) f l := by
  have changed := changePlan_plan (raise (setStaging s .free) (adoptionNotice s)) (planOf f.target l)
  have kept := changePlan_ev (raise (setStaging s .free) (adoptionNotice s)) (planOf f.target l)
  have saved (hw : working s = true) (idle : s.store.state = .idle) :=
    changePlan_store (s := raise (setStaging s .free) (adoptionNotice s)) hw idle (planOf f.target l)
  rw [completeFetch_valid h, planAdoptedAt]
  generalize changePlan (raise (setStaging s .free) (adoptionNotice s)) (planOf f.target l) = v at changed kept saved ⊢
  have freed := freeStaging_refetched v
  refine ⟨(congrArg PlanUnit.active freed.plan).trans (congrArg PlanUnit.active changed :),
    (congrArg PlanUnit.serve freed.plan).trans (congrArg PlanUnit.serve changed :),
    (freeStaging_staging v).imp id fun ⟨g, hg, _⟩ => ⟨g, hg⟩, fun hw idle => ?_, fun ht => ?_⟩
  · have store : (freeStaging v).store = v.store := freed.changes .store (by decide)
    rw [store, saved hw idle]
  · have raised : Pending (raise (setStaging s .free) (adoptionNotice s)) (adoptionNotice s) :=
      (raise_pending _ _ _).mpr (.inl ⟨ht, rfl⟩)
    exact ((freeStaging_overflowsOnly v).after (kept.same .faults (by decide))).pending _ raised

/-! ## What every frame leaves -/

/-- From s to t a fetch has gone on, failed or ended: the serve bitmap stands or is clear, and the queue has taken a
PLANREQ at most. -/
structure FetchGoesOn (s t : State) : Prop where
  serve : t.plan.serve = s.plan.serve ∨ t.plan.serve = 0
  queue : ∀ e ∈ t.line.queue, e ∈ s.line.queue ∨ ∃ k m, e.body = .planreq k m

theorem failFetch_goesOn (s : State) (k : Key) (c : FaultCode) : FetchGoesOn s (failFetch s k c) := by
  have freed := freeStaging_refetched ((report s c).withPlan { s.plan with unobtainable := some k })
  exact ⟨.inl (congrArg PlanUnit.serve freed.plan :), freed.queue⟩

theorem completeFetch_goesOn (s : State) (f : Fetch) : FetchGoesOn s (completeFetch s f) := by
  cases valid : validate f.frags.toList f.total (some f.digest) with
  | error r =>
    rw [completeFetch_invalid valid]
    exact failFetch_goesOn s _ _
  | ok l =>
    refine ⟨.inr (completeFetch_adopts valid s).serve, fun e he => ?_⟩
    rw [completeFetch_valid valid] at he
    have line : (planAdoptedAt s f l).line = s.line := (changePlan_ev _ _).same .line (by decide)
    refine ((freeStaging_refetched _).queue e he).imp (fun there => ?_) id
    have there : e ∈ (planAdoptedAt s f l).line.queue := there
    rwa [line] at there

theorem fetchFragment_goesOn (s : State) (f : Fetch) (x : PlanFrame) : FetchGoesOn s (fetchFragment s f x) := by
  have stays (y : Staging) : FetchGoesOn s (setStaging s y) := ⟨.inl rfl, fun _ => .inl⟩
  by_cases fits : Fits f x
  · have h : x.index < 41 := Nat.lt_of_lt_of_le fits.index fits.most
    cases held : f.frags[x.index] with
    | some _ =>
      rw [fetchFragment_held fits h (by rw [held]; rfl)]
      exact stays _
    | none =>
      rw [fetchFragment_new fits h held]
      dsimp only
      split
      · have done := completeFetch_goesOn (setStaging s (.fetching (fragmentAdded s f x h))) (fragmentAdded s f x h)
        exact ⟨done.serve, done.queue⟩
      · exact stays _
  · rw [fetchFragment_unfit fits]
    exact ⟨.inl rfl, fun _ => .inl⟩

theorem handPlan_goesOn (s : State) (x : PlanFrame) : FetchGoesOn (planFrameKept s x) (handPlan x s) := by
  rw [handPlan_eq]
  split
  · split
    · exact fetchFragment_goesOn _ _ x
    · exact ⟨.inl rfl, fun _ => .inl⟩
  · exact ⟨.inl rfl, fun _ => .inl⟩

/-- The copies are gone and the serve bit is clear, whatever becomes of a fetch (R41, R74). -/
theorem handPlan_suppresses (s : State) (x : PlanFrame) : NoneWaits (handPlan x s).line.queue x.key x.index ∧
    ∀ a, s.plan.active = some a → a.key = x.key → (handPlan x s).plan.serve.getLsbD x.index = false := by
  obtain ⟨serve, queue⟩ := handPlan_goesOn s x
  refine ⟨fun e he waits n c body => ?_, fun a active key => ?_⟩
  · obtain there | ⟨k, m, request⟩ := queue e he
    · exact (planFrameKept_suppresses s x).gone e there waits n c body
    · rw [request] at body
      cases body
  · obtain stands | clear := serve
    · rw [stands, planFrameKept_bit s x active key]
    · rw [clear]
      exact BitVec.getLsbD_zero

end Sys2Proof.Proofs
end

section
/-! Settles O26: a PLAN frame of a peer, the fetch that it reaches, and the fetch that it completes. -/

namespace Sys2Proof.Proofs

open Sys2Proof Sys2Proof.Machine Sys2Proof.Laws

theorem exec_plan {s : State} (ha : Active s) {p : StationNo} {payload : List Byte} {x : PlanFrame}
    (hp : p ≠ s.start.station) (least : 6 ≤ payload.length) (most : payload.length ≤ 48)
    (hx : planFrameOf payload = some x) :
    exec (.plan p payload) s = .next (dropCapture (handPlan x (frameHeard s p))) := by
  refine congrArg Host.Outcome.next ((whenListening_active ha _).trans ?_)
  rw [hx]
  exact receive_hands (by simp [lengthAllowed, least, most]) hp _

/-- The state in which the frame reaches a fetch, from the one handed over. -/
structure Reaches (u m : State) : Prop where
  changes : Changes [.line, .plan, .faults] u m
  active : m.plan.active = u.plan.active
  staging : m.plan.staging = u.plan.staging
  faults : OverflowsOnly u m

theorem planFrameKept_reaches (s : State) (p : StationNo) (x : PlanFrame) :
    Reaches (handOver s p) (planFrameKept (frameHeard s p) x) := by
  have heard := (handOver_heard s p).1
  have plan : (frameHeard s p).plan = (handOver s p).plan := heard .plan (by decide)
  have kept := planFrameKept_suppresses (frameHeard s p) x
  exact ⟨changes_trans (changes_mono heard) kept.changes, by rw [kept.served.active, plan],
    by rw [kept.served.staging, plan], kept.faults.after (heard .faults (by decide))⟩

section Fetching

variable {s u : State} {f : Fetch} {x : PlanFrame}

theorem handPlan_fetching (reach : Reaches u (planFrameKept s x)) (hf : u.plan.staging = .fetching f) :
    handPlan x s = if f.target = x.key then fetchFragment (planFrameKept s x) f x else planFrameKept s x := by
  rw [handPlan_eq, reach.staging, hf]

theorem fragmentAdded_count (reach : Reaches u (planFrameKept s x)) (h : x.index < 41) :
    fragmentAdded (planFrameKept s x) f x h = fragmentAdded u f x h := by
  unfold fragmentAdded
  rw [show (planFrameKept s x).time = u.time from reach.changes .time (by decide)]

/-- The first frame of a fragment, others still missing (R71). -/
theorem handPlan_stores (reach : Reaches u (planFrameKept s x)) (hf : u.plan.staging = .fetching f)
    (key : f.target = x.key) (fits : Fits f x) (h : x.index < 41) (missing : f.frags[x.index] = none)
    (more : allHeld (f.frags.set x.index (some x.content)) x.total = false) :
    (handPlan x s).plan.staging = .fetching (fragmentAdded u f x h) := by
  have incomplete : ¬ allHeld (fragmentAdded u f x h).frags x.total = true := by
    show ¬ allHeld (f.frags.set x.index (some x.content)) x.total = true
    rw [more]
    exact Bool.false_ne_true
  rw [handPlan_fetching reach hf, if_pos key, fetchFragment_new fits h missing, fragmentAdded_count reach]
  dsimp only
  rw [if_neg incomplete]
  rfl

/-- The frame that brings the last missing fragment (R71, R73). -/
theorem handPlan_completes (reach : Reaches u (planFrameKept s x)) (hf : u.plan.staging = .fetching f)
    (key : f.target = x.key) (fits : Fits f x) (h : x.index < 41) (missing : f.frags[x.index] = none)
    (all : allHeld (f.frags.set x.index (some x.content)) x.total = true) : let g := fragmentAdded u f x h
    handPlan x s = completeFetch (setStaging (planFrameKept s x) (.fetching g)) g := by
  have full : allHeld (fragmentAdded u f x h).frags x.total = true := all
  rw [handPlan_fetching reach hf, if_pos key, fetchFragment_new fits h missing, fragmentAdded_count reach]
  dsimp only
  rw [if_pos full]

/-- The plan that the last fragment makes valid is adopted (R73, R76). -/
theorem handPlan_adopts (reach : Reaches u (planFrameKept s x)) (hf : u.plan.staging = .fetching f)
    (key : f.target = x.key) (fits : Fits f x) (h : x.index < 41) (missing : f.frags[x.index] = none)
    (all : allHeld (f.frags.set x.index (some x.content)) x.total = true) {l : List (List Byte)}
    (valid : validate (f.frags.set x.index (some x.content)).toList (some x.total) (some f.digest) = .ok l) :
    Adopted u (handPlan x s) f l := by
  rw [handPlan_completes reach hf key fits h missing all]
  generalize planFrameKept s x = m at reach
  obtain ⟨active, serve, staging, store, notice⟩ :=
    completeFetch_adopts (f := fragmentAdded u f x h) valid (setStaging m (.fetching (fragmentAdded u f x h)))
  have start : m.start = u.start := reach.changes .start (by decide)
  refine ⟨active, serve, staging, fun hw idle => ?_, fun ht => ?_⟩
  · refine store ?_ ((congrArg RecordStore.state (reach.changes .store (by decide) : m.store = u.store)).trans idle)
    show working m = true
    rw [working, start]
    exact hw
  · have same : adoptionNotice (setStaging m (.fetching (fragmentAdded u f x h))) = adoptionNotice u := by
      rw [adoptionNotice_eq, adoptionNotice_eq]
      show (if m.plan.active.map (·.key.origin) = some m.start.station then _ else _) = _
      rw [reach.active, start]
    exact same ▸ notice (reach.faults.taking.trans ht)

/-- The fetch that the last fragment makes invalid has failed (R73). -/
theorem handPlan_fails (reach : Reaches u (planFrameKept s x)) (hf : u.plan.staging = .fetching f)
    (key : f.target = x.key) (fits : Fits f x) (h : x.index < 41) (missing : f.frags[x.index] = none)
    (all : allHeld (f.frags.set x.index (some x.content)) x.total = true) {r : PlanFault}
    (invalid : validate (f.frags.set x.index (some x.content)).toList (some x.total) (some f.digest) = .error r) :
    let t := handPlan x s
    t.plan.active = u.plan.active ∧ t.plan.unobtainable = some f.target ∧
    (t.plan.staging = .free ∨ ∃ g, t.plan.staging = .fetching g ∧ g.target ≠ f.target) ∧
    (Taking u → faultEnabled u.image (.receivedPlanInvalid r) = true → let b := t.faults.banks[bankIndex .plan]
      b.valid = true ∧ b.uncorrected = true ∧ (u.faults.banks[bankIndex .plan].valid = false →
        b.code = 4 ∧ b.detail = some (.validation r))) := by
  rw [handPlan_completes reach hf key fits h missing all]
  generalize planFrameKept s x = m at reach
  rw [completeFetch_invalid (f := fragmentAdded u f x h) invalid]
  obtain ⟨active, unobtainable, staging⟩ := failFetch_plan
    (setStaging m (.fetching (fragmentAdded u f x h))) f.target (.receivedPlanInvalid r)
  refine ⟨active.trans reach.active, unobtainable, staging, fun ht enabled => ?_⟩
  have image : m.image = u.image := reach.changes .image (by decide)
  obtain ⟨valid, uncorrected, record⟩ := failFetch_recorded (s := setStaging m (.fetching (fragmentAdded u f x h)))
    (c := .receivedPlanInvalid r) rfl (reach.faults.taking.trans ht) (image ▸ enabled) rfl f.target
  refine ⟨valid, uncorrected, fun empty => record ?_⟩
  exact (congrArg Bank.valid (reach.faults.banks .plan (by decide))).trans empty

end Fetching

/-- Settles O26: what every frame leaves, then the branches of a fetch that the frame reaches, and its completion. -/
theorem planFramesFillTheFetch : Obligations.PlanFramesFillTheFetch := by
  intro s p payload x ha hp least most hx u
  have reach : Reaches u (planFrameKept (frameHeard s p) x) := planFrameKept_reaches s p x
  obtain ⟨gone, bit⟩ := handPlan_suppresses (frameHeard s p) x
  refine ⟨_, exec_plan ha hp least most hx, gone, fun a active => bit a ((frameHeard_hears s p).active.trans active),
    fun f h hf key l7 m41 below known missing more => ?_, fun f hf => ⟨fun other => ?_, fun key unfit => ?_,
      fun h key l7 m41 below known held => ?_⟩, fun f h hf key l7 m41 below known missing all =>
      ⟨fun l valid => ?_, fun r invalid => ?_⟩⟩
  · exact handPlan_stores reach hf key ⟨l7, m41, below, known⟩ h missing more
  · show (handPlan x (frameHeard s p)).plan.staging = _
    rw [handPlan_fetching reach hf, if_neg other, reach.staging, hf]
  · have unfits : ¬ Fits f x := (not_fits_iff f x).mpr (unfit.imp_right (.imp_right (.imp_right
      fun ⟨n, hn, differs⟩ => by simp [hn, differs])))
    show (handPlan x (frameHeard s p)).plan.staging = _
    rw [handPlan_fetching reach hf, if_pos key, fetchFragment_unfit unfits, reach.staging, hf]
  · show (handPlan x (frameHeard s p)).plan.staging = _
    rw [handPlan_fetching reach hf, if_pos key, fetchFragment_held ⟨l7, m41, below, known⟩ h held]
    rfl
  · have adopted := handPlan_adopts reach hf key ⟨l7, m41, below, known⟩ h missing all valid
    have start : u.start = s.start :=
      ((handOver_heard s p).1 .start (by decide)).symm.trans ((frameHeard_hears s p).changes .start (by decide))
    have working : working u = true := by
      rw [working, start]
      exact ha.2
    rw [← adoptionNotice_eq u]
    generalize handPlan x (frameHeard s p) = t at adopted ⊢
    exact ⟨adopted.active, adopted.serve, adopted.staging, adopted.store working, adopted.notice⟩
  · exact handPlan_fails reach hf key ⟨l7, m41, below, known⟩ h missing all invalid

end Sys2Proof.Proofs
end

section
/-! The order and counts of a plan's sections (R59): the assembly of a plan takes the sections of `LaidOut`, and no
others. -/

namespace Sys2Proof.Proofs

open Sys2Proof Sys2Proof.Machine Sys2Proof.Laws

/-! ## CALENDAR sections -/

/-- The list does not begin with a CALENDAR section. -/
def NoCalendar (l : List Section) : Prop := ∀ w e rest, l ≠ .calendar w e :: rest

theorem takeCalendars_of_none {l : List Section} (h : NoCalendar l) : takeCalendars l = ([], l) := by
  unfold takeCalendars
  split
  · exact absurd rfl (h _ _ _)
  · rfl

theorem takeCalendars_append (cs : List (List Nat × List (Nat × Nat))) {r : List Section} (h : NoCalendar r) :
    takeCalendars (cs.map (fun x => .calendar x.1 x.2) ++ r) = (cs, r) := by
  induction cs with
  | nil => exact takeCalendars_of_none h
  | cons x cs ih => simp only [List.map_cons, List.cons_append, takeCalendars, ih]

theorem append_takeCalendars (l : List Section) :
    (takeCalendars l).1.map (fun x => .calendar x.1 x.2) ++ (takeCalendars l).2 = l := by
  induction l with
  | nil => rfl
  | cons s l ih =>
    cases s with
    | calendar w e => exact congrArg (Section.calendar w e :: ·) ih
    | header | ranges | bells | overrides => rfl

theorem filledBut_iff {α : Type} (n : Nat) (l : List (List α)) :
    filledBut n l = true ↔ ∀ x ∈ l.dropLast, x.length = n := by
  simp [filledBut]

/-! ## BELLS sections -/

/-- The BELLS sections of a program, each with the index of its first entry (R59). -/
def bellSections (p : Nat) (x : List (List BellEntry)) : List Section := x.mapIdx fun j y => .bells p (6 * j) y

/-- The BELLS sections of a program are at most eight, filled with six entries but for the last (R59). -/
def FilledBells (x : List (List BellEntry)) : Prop := x.length ≤ 8 ∧ ∀ y ∈ x.dropLast, y.length = 6

/-- The list does not begin with a BELLS section of this program. -/
def NoBells (p : Nat) (l : List Section) : Prop := ∀ f es rest, l ≠ .bells p f es :: rest

theorem noBells_append {p q : Nat} (h : q ≠ p) (x : List (List BellEntry)) {r : List Section} (hr : NoBells p r) :
    NoBells p (bellSections q x ++ r) := by
  cases x with
  | nil => exact hr
  | cons y x =>
    intro f es rest e
    have first : Section.bells q (6 * 0) y = .bells p f es := by
      rw [bellSections, List.mapIdx_cons] at e
      exact (List.cons.inj e).1
    exact h (Section.bells.inj first).1

theorem takeBells_append {p : Nat} (bs : List (Nat × List BellEntry)) {r : List Section} (h : NoBells p r) :
    takeBells p (bs.map (fun x => .bells p x.1 x.2) ++ r) = (bs, r) := by
  induction bs with
  | nil =>
    rw [List.map_nil, List.nil_append]
    unfold takeBells
    split
    · next q f es rest =>
      by_cases hq : q = p
      · subst hq
        exact absurd rfl (h _ _ _)
      · exact if_neg hq
    · rfl
  | cons x bs ih => simp only [List.map_cons, List.cons_append, takeBells, if_true, ih]

theorem append_takeBells (p : Nat) (l : List Section) :
    (takeBells p l).1.map (fun x => .bells p x.1 x.2) ++ (takeBells p l).2 = l := by
  induction l with
  | nil => rfl
  | cons s l ih =>
    cases s with
    | bells q f es =>
      by_cases hq : q = p
      · subst hq
        rw [takeBells, if_pos rfl]
        exact congrArg (Section.bells q f es :: ·) ih
      · rw [takeBells, if_neg hq]
        rfl
    | header | calendar | ranges | overrides => rfl

/-- The BELLS sections of a program stand right when they are those of a list of entry lists (R59). -/
theorem bellsFilled_iff (l : List (Nat × List BellEntry)) : bellsFilled l = true ↔
    ∃ x, l = x.mapIdx (fun j y => (6 * j, y)) ∧ FilledBells x := by
  unfold bellsFilled FilledBells
  rw [Bool.and_eq_true, Bool.and_eq_true, decide_eq_true_eq, decide_eq_true_eq, filledBut_iff]
  constructor
  · rintro ⟨⟨length, filled⟩, rising⟩
    refine ⟨l.map (·.2), ?_, by rwa [List.length_map], filled⟩
    refine List.ext_getElem (by simp) fun i h1 h2 => ?_
    have first : (l.map (·.1))[i]'(by simpa using h1) = 6 * i := by simp [rising]
    simp only [List.getElem_map] at first
    simp [← first]
  · rintro ⟨x, rfl, length, filled⟩
    have seconds : (x.mapIdx fun j y => (6 * j, y)).map (·.2) = x := by
      refine List.ext_getElem (by simp) fun i h1 h2 => by simp
    refine ⟨⟨by simpa using length, by rwa [seconds]⟩, ?_⟩
    exact List.ext_getElem (by simp) fun i h1 h2 => by simp

theorem bellSections_eq (p : Nat) (x : List (List BellEntry)) :
    bellSections p x = (x.mapIdx fun j y => (6 * j, y)).map fun z => .bells p z.1 z.2 := by
  exact List.ext_getElem (by simp [bellSections]) fun i h1 h2 => by simp [bellSections]

theorem entries_mapIdx (x : List (List BellEntry)) : (x.mapIdx fun j y => (6 * j, y)).flatMap (·.2) = x.flatten := by
  have seconds : (x.mapIdx fun j y => (6 * j, y)).map (·.2) = x :=
    List.ext_getElem (by simp) fun i h1 h2 => by simp
  rw [List.flatMap_def, seconds]

/-! ## The four programs -/

/-- The BELLS of one more program, with what follows. -/
theorem takePrograms_cons_some {p d : Nat} {rs : List Span} {ps : List (Nat × Nat × List Span)} {l r : List Section}
    {qs : List Program} (h : takePrograms ((p, d, rs) :: ps) l = some (qs, r)) : ∃ x m ms,
      FilledBells x ∧ l = bellSections p x ++ m ∧ takePrograms ps m = some (ms, r) ∧ qs = ⟨d, rs, x.flatten⟩ :: ms := by
  unfold takePrograms at h
  dsimp only at h
  split at h
  · next filled =>
    obtain ⟨x, hx, fx⟩ := (bellsFilled_iff _).mp filled
    obtain ⟨⟨ms, r'⟩, later, e⟩ := Option.map_eq_some_iff.mp h
    cases e
    refine ⟨x, _, ms, fx, ?_, later, ?_⟩
    · rw [bellSections_eq, ← hx, append_takeBells]
    · rw [hx, entries_mapIdx]
  · cases h

theorem takePrograms_cons {p d : Nat} {rs : List Span} {ps : List (Nat × Nat × List Span)} {m r : List Section}
    {ms : List Program} {x : List (List BellEntry)} (fx : FilledBells x) (hm : NoBells p m)
    (later : takePrograms ps m = some (ms, r)) :
    takePrograms ((p, d, rs) :: ps) (bellSections p x ++ m) = some (⟨d, rs, x.flatten⟩ :: ms, r) := by
  unfold takePrograms
  rw [bellSections_eq, takeBells_append _ hm]
  dsimp only
  rw [if_pos ((bellsFilled_iff _).mpr ⟨x, rfl, fx⟩), later, entries_mapIdx]
  rfl

/-! ## A whole plan -/

/-- The BELLS of the four programs, at the end of a plan (R59). -/
theorem takePrograms_four {d : Fin 4 → Nat} {r : Fin 4 → List Span} {l : List Section} {qs : List Program}
    {os : List Span} : takePrograms [(0, d 0, r 0), (1, d 1, r 1), (2, d 2, r 2), (3, d 3, r 3)] l =
      some (qs, [.overrides os]) ↔ ∃ x : Fin 4 → List (List BellEntry), (∀ p, FilledBells (x p)) ∧
      l = bellSections 0 (x 0) ++ (bellSections 1 (x 1) ++ (bellSections 2 (x 2) ++ (bellSections 3 (x 3) ++
        [.overrides os]))) ∧ qs = List.ofFn fun p => ⟨d p, r p, (x p).flatten⟩ := by
  constructor
  · intro h
    obtain ⟨x0, m0, q0, f0, rfl, h0, rfl⟩ := takePrograms_cons_some h
    obtain ⟨x1, m1, q1, f1, rfl, h1, rfl⟩ := takePrograms_cons_some h0
    obtain ⟨x2, m2, q2, f2, rfl, h2, rfl⟩ := takePrograms_cons_some h1
    obtain ⟨x3, m3, q3, f3, rfl, h3, rfl⟩ := takePrograms_cons_some h2
    cases h3
    refine ⟨![x0, x1, x2, x3], fun p => ?_, rfl, rfl⟩
    fin_cases p
    exacts [f0, f1, f2, f3]
  · rintro ⟨x, filled, rfl, rfl⟩
    have last (p : Nat) : NoBells p [.overrides os] := nofun
    have three (p : Nat) (h : 3 ≠ p) := noBells_append h (x 3) (last p)
    have two (p : Nat) (h : 2 ≠ p) (k : 3 ≠ p) := noBells_append h (x 2) (three p k)
    have one := noBells_append (p := 0) (q := 1) (by decide) (x 1) (two 0 (by decide) (by decide))
    have closes : takePrograms [] [.overrides os] = some ([], [.overrides os]) := rfl
    exact takePrograms_cons (filled 0) one (takePrograms_cons (filled 1) (two 1 (by decide) (by decide))
      (takePrograms_cons (filled 2) (three 2 (by decide)) (takePrograms_cons (filled 3) (last 3) closes)))

theorem assemblePlan_laidOut {l : List Section} {c : PlanContent} (h : assemblePlan l = some c) : LaidOut l c := by
  unfold assemblePlan at h
  split at h
  · next total patterns evac asm rest =>
    dsimp only at h
    have cals := append_takeCalendars rest
    generalize takeCalendars rest = taken at h cals
    obtain ⟨cs, rest1⟩ := taken
    split at h
    · cases h
    · next counts =>
      simp only [not_or, Nat.not_lt, Bool.not_eq_true', Bool.not_eq_false, filledBut_iff] at counts
      obtain ⟨one, three, filled⟩ := counts
      split at h
      · next p0 d0 r0 p1 d1 r1 p2 d2 r2 p3 d3 r3 rest2 heads =>
        split at h
        · next numbers =>
          obtain ⟨rfl, rfl, rfl, rfl⟩ := numbers
          split at h
          · next programs os found =>
            cases h
            obtain ⟨x, fx, rfl, rfl⟩ := (takePrograms_four (d := ![d0, d1, d2, d3]) (r := ![r0, r1, r2, r3])).mp found
            refine ⟨cs.map (·.2), List.ofFn x, by simpa using one, by simpa using three, by simp, filled,
              List.flatMap_def.symm, rfl, rfl, rfl, fun y hy => ?_, ?_⟩
            · obtain ⟨p, rfl⟩ := (List.mem_ofFn' _ _).mp hy
              exact fx p
            · rw [← cals]
              dsimp only at heads
              subst heads
              simp [bellSections, List.ofFn_succ]
          · cases h
        · cases h
      · cases h
  · cases h

theorem exists_ofFn {α : Type} {n : Nat} {l : List α} (h : l.length = n) : ∃ f : Fin n → α, l = List.ofFn f := by
  subst h
  exact ⟨l.get, (List.ofFn_get l).symm⟩

theorem zipWith_calendar (weekdays : List (List Nat)) (exceptions : List (List (Nat × Nat))) :
    List.zipWith Section.calendar weekdays exceptions =
      (weekdays.zip exceptions).map fun z => .calendar z.1 z.2 := by
  rw [List.zip, List.map_zipWith]

/-- The assembly of sections in the order of R59: of one to three CALENDAR sections, well filled, and of the BELLS of
the four programs. -/
theorem assemblePlan_of_parts {total evac asm : Nat} {patterns : List (Option (List Pulse))}
    {cs : List (List Nat × List (Nat × Nat))} (one : 1 ≤ cs.length) (three : cs.length ≤ 3)
    (filled : ∀ x ∈ (cs.map (·.2)).dropLast, x.length = 8) {d : Fin 4 → Nat} {r : Fin 4 → List Span}
    {m : List Section} {qs : List Program} {os : List Span}
    (found : takePrograms [(0, d 0, r 0), (1, d 1, r 1), (2, d 2, r 2), (3, d 3, r 3)] m = some (qs, [.overrides os])) :
    assemblePlan (.header total patterns evac asm :: (cs.map (fun x => .calendar x.1 x.2) ++
      .ranges 0 (d 0) (r 0) :: .ranges 1 (d 1) (r 1) :: .ranges 2 (d 2) (r 2) :: .ranges 3 (d 3) (r 3) :: m)) =
      some ⟨total, patterns, evac, asm, cs.map (·.1), cs.flatMap (·.2), qs, os⟩ := by
  have counts : ¬ (cs.length < 1 ∨ 3 < cs.length ∨ (!filledBut 8 (cs.map (·.2))) = true) := by
    rw [(filledBut_iff 8 _).mpr filled]
    simp only [Bool.not_true, Bool.false_eq_true, or_false]
    omega
  have noCalendar (n k : Nat) (spans : List Span) (l : List Section) : NoCalendar (.ranges n k spans :: l) :=
    fun _ _ _ e => by cases e
  unfold assemblePlan
  dsimp only
  rw [takeCalendars_append cs (noCalendar _ _ _ _)]
  dsimp only
  rw [if_neg counts, if_pos ⟨rfl, rfl, rfl, rfl⟩, found]

theorem laidOut_assemblePlan {l : List Section} {c : PlanContent} (h : LaidOut l c) : assemblePlan l = some c := by
  obtain ⟨exceptions, bells, one, three, paired, filled, days, four, four', entries, fx, rfl⟩ := h
  obtain ⟨total, patterns, evac, asm, weekdays, exs, programs, os⟩ := c
  obtain ⟨q, rfl⟩ := exists_ofFn four
  obtain ⟨x, rfl⟩ := exists_ofFn four'
  dsimp only at *
  subst days
  have own (p : Fin 4) : (x p).flatten = (q p).bells := by
    rw [List.map_ofFn, List.map_ofFn] at entries
    exact congrFun (List.ofFn_injective entries) p
  have found := (takePrograms_four (d := fun p => (q p).default) (r := fun p => (q p).ranges) (os := os)).mpr
    ⟨x, fun p => fx _ ((List.mem_ofFn' _ _).mpr ⟨p, rfl⟩), rfl, rfl⟩
  have firsts : (weekdays.zip exceptions).map (·.1) = weekdays := List.map_fst_zip paired.ge
  have seconds : (weekdays.zip exceptions).map (·.2) = exceptions := List.map_snd_zip paired.le
  have length : (weekdays.zip exceptions).length = exceptions.length := by simp [paired]
  have assembled := assemblePlan_of_parts (total := total) (patterns := patterns) (evac := evac) (asm := asm)
    (d := fun p => (q p).default) (r := fun p => (q p).ranges) (by rwa [length]) (by rwa [length]) (by rwa [seconds]) found
  rw [firsts, List.flatMap_def, seconds] at assembled
  simp only [own] at assembled
  rw [zipWith_calendar]
  simpa [bellSections, List.ofFn_succ] using assembled

/-- The content of a plan is that of its sections, where they stand in the order and counts of R59. -/
theorem contentOf_eq_some_iff (frags : List (List Byte)) (c : PlanContent) : contentOf frags = some c ↔
    ∃ sections, frags.map sectionOf = sections.map some ∧ LaidOut sections c := by
  unfold contentOf
  rw [Option.bind_eq_some_iff]
  simp only [allOptions_eq_some]
  exact exists_congr fun l => and_congr_right fun _ => ⟨assemblePlan_laidOut, laidOut_assemblePlan⟩

end Sys2Proof.Proofs
end

section
/-! READ PLAN ITEM (R68). -/

namespace Sys2Proof.Proofs

open Sys2Proof Sys2Proof.Machine Sys2Proof.Laws

theorem exec_readPlanItem {s : State} (h : Active s) (item : PlanItem) :
    exec (.readPlanItem item) s = .next (answered s (planItemAnswer item s.plan)) :=
  congrArg Host.Outcome.next (panelTake_active h _)

theorem planItemAnswer_bad {item : PlanItem} (h : itemInRange item = false) (p : PlanUnit) :
    planItemAnswer item p = .bad .argument :=
  if_pos (by rw [h]; rfl)

theorem planItemAnswer_staging (p : PlanUnit) : planItemAnswer .staging p =
    .done (.planItem (.staging ⟨p.staging, p.unobtainable, p.serve⟩)) := rfl

theorem planItemAnswer_noPlan {item : PlanItem} (hs : item ≠ .staging) (h : itemInRange item = true) {p : PlanUnit}
    (none : p.active = none) : planItemAnswer item p = .refused .noPlan := by
  unfold planItemAnswer
  rw [if_neg (by rw [h]; exact Bool.false_ne_true), if_neg hs, none]

/-- An item of a plan that has content is returned, or there is no such item (R68). -/
theorem planItemAnswer_item {item : PlanItem} (hs : item ≠ .staging) (h : itemInRange item = true) {p : PlanUnit}
    {a : ActivePlan} (active : p.active = some a) {c : PlanContent} (content : contentOf a.frags = some c) :
    planItemAnswer item p = match planItem a c item with
      | none => .refused .noSuchItem
      | some d => .done (.planItem d) := by
  unfold planItemAnswer
  rw [if_neg (by rw [h]; exact Bool.false_ne_true), if_neg hs, active]
  dsimp only
  rw [content]
  rfl

theorem exec_readPlanItem_bad {s : State} (ha : Active s) {item : PlanItem} (h : itemInRange item = false) :
    exec (.readPlanItem item) s = .next (answered s (.bad .argument)) := by
  rw [exec_readPlanItem ha, planItemAnswer_bad h]

/-- An index pair out of range is out of one of its two ranges. -/
theorem outOfRange {p i m n : Nat} (h : m < p ∨ n < i) : (decide (p ≤ m) && decide (i ≤ n)) = false := by
  simp only [Bool.and_eq_false_iff, decide_eq_false_iff_not, Nat.not_le]
  exact h

/-- Settles O25: the assembly of a plan, the arguments of the command, and each item of a plan that has content. -/
theorem readPlanItemReturnsTheItem : Obligations.ReadPlanItemReturnsTheItem := by
  refine ⟨contentOf_eq_some_iff, fun s ha => ⟨fun i hi => ?_, fun p i hi => ?_, fun p hp => ?_, fun p i hi => ?_,
    fun i hi => ?_, fun n hn => ?_, exec_readPlanItem ha _, fun item hs hr none => ?_, fun a c active content => ?_⟩⟩
  · exact exec_readPlanItem_bad ha (decide_eq_false (Nat.not_le.mpr hi))
  · exact exec_readPlanItem_bad ha (outOfRange hi)
  · exact exec_readPlanItem_bad ha (decide_eq_false (Nat.not_le.mpr hp))
  · exact exec_readPlanItem_bad ha (outOfRange hi)
  · exact exec_readPlanItem_bad ha (decide_eq_false (Nat.not_le.mpr hi))
  · exact exec_readPlanItem_bad ha (decide_eq_false (Nat.not_le.mpr hn))
  · rw [exec_readPlanItem ha, planItemAnswer_noPlan hs hr none]
  · have item (x : PlanItem) (hs : x ≠ .staging) (hr : itemInRange x = true) : exec (.readPlanItem x) s =
        .next (answered s (match planItem a c x with
          | none => .refused .noSuchItem
          | some d => .done (.planItem d))) := by
      rw [exec_readPlanItem ha, planItemAnswer_item hs hr active content]
    refine ⟨item .key nofun rfl, item .drill nofun rfl, fun w hw => ?_, fun i hi => ?_, fun p i q hp hi hq => ?_,
      fun p q hp hq => ?_, fun p i q hp hi hq => ?_, fun i hi => ?_, fun n hn => ?_⟩
    · rw [item .weekday nofun rfl, planItem, hw]
      rfl
    · rw [item (.exception i) nofun (decide_eq_true hi), planItem]
      cases c.exceptions[i]? <;> rfl
    · rw [item (.range p i) nofun (by simp [itemInRange, hp, hi]), planItem, hq, Option.bind_some]
      cases q.ranges[i]? <;> rfl
    · rw [item (.default p) nofun (decide_eq_true hp), planItem, hq]
      rfl
    · rw [item (.bell p i) nofun (by simp [itemInRange, hp, hi]), planItem, hq, Option.bind_some]
      cases q.bells[i]? <;> rfl
    · rw [item (.override i) nofun (decide_eq_true hi), planItem]
      cases c.overrides[i]? <;> rfl
    · exact item (.pattern n) nofun (decide_eq_true hn)

end Sys2Proof.Proofs
end

section
/-! What reports of sounding and withdrawals leave of the arbiter's claims, and the bell claims after a report
(R90, R121, R124). -/

namespace Sys2Proof.Proofs

open Sys2Proof Sys2Proof.Machine Sys2Proof.Laws

/-! ## Reports of sounding -/

/-- A report of sounding changes at most the sounding flag of the slot's claim (R124). -/
theorem reportSounding_cases (a : Arbiter) (slot : SlotNo) (n : Byte) (b : Bool) :
    reportSounding a slot n b = a ∨ ∃ c, claimIn a slot = some c ∧
      reportSounding a slot n b = setClaim a slot (some { c with sounding := b }) := by
  unfold reportSounding
  split
  · exact .inl rfl
  · next c hc =>
    split
    · exact .inr ⟨c, hc, rfl⟩
    · exact .inl rfl

@[simp] theorem res_reportSounding (a : Arbiter) (slot : SlotNo) (n : Byte) (b : Bool) :
    (reportSounding a slot n b).res = a.res := by
  obtain h | ⟨c, _, h⟩ := reportSounding_cases a slot n b
  · rw [h]
  · rw [h]; rfl

@[simp] theorem notices_reportSounding (a : Arbiter) (slot : SlotNo) (n : Byte) (b : Bool) :
    (reportSounding a slot n b).notices = a.notices := by
  obtain h | ⟨c, _, h⟩ := reportSounding_cases a slot n b
  · rw [h]
  · rw [h]; rfl

theorem slots_reportSounding_other (a : Arbiter) {slot k : SlotNo} (hk : slot ≠ k) (n : Byte) (b : Bool) :
    (reportSounding a slot n b).slots[k] = a.slots[k] := by
  obtain h | ⟨c, _, h⟩ := reportSounding_cases a slot n b
  · rw [h]
  · rw [h, setClaim, vector_set_at, if_neg hk]

theorem claimIn_reportSounding_none {a : Arbiter} {k : SlotNo} (hk : claimIn a k = none) (slot : SlotNo) (n : Byte)
    (b : Bool) : claimIn (reportSounding a slot n b) k = none := by
  obtain h | ⟨c, hc, h⟩ := reportSounding_cases a slot n b
  · rw [h, hk]
  · have other : slot ≠ k := fun e => by rw [e, hk] at hc; cases hc
    rw [h, claimIn_setClaim, if_neg other, hk]

/-! ## Withdrawals -/

theorem TermsStay.none {a b : Arbiter} (h : TermsStay a b) {k : SlotNo} (hk : claimIn a k = none) :
    claimIn b k = none := by
  have := h k
  rw [hk] at this
  exact Option.map_eq_none_iff.mp this

theorem release_terms (a : Arbiter) (r : ResNo) : TermsStay a (release a r) := by
  unfold release
  split
  · exact setRes_terms a _ _
  · exact ((setRes_terms a _ _).trans (setStatus_terms _ _ _ _)).trans (notify_terms _ _ _ _)

theorem withdrawFrom_terms (a : Arbiter) (slot : SlotNo) (r : ResNo) : TermsStay a (withdrawFrom a slot r) := by
  unfold withdrawFrom
  split
  · exact (setStatus_terms a _ _ _).trans (release_terms _ _)
  · exact (setStatus_terms a _ _ _).trans (setRes_terms _ _ _)
  · exact .refl a

theorem withdrawAll_terms (slot : SlotNo) (rs : List ResNo) (a : Arbiter) :
    TermsStay a (rs.foldl (fun a r => withdrawFrom a slot r) a) := by
  induction rs generalizing a with
  | nil => exact .refl a
  | cons r rs ih => exact (withdrawFrom_terms a slot r).trans (ih _)

/-- A withdrawal makes no claim in a slot that has none. -/
theorem claimIn_withdrawWhole_none {a : Arbiter} {k : SlotNo} (hk : claimIn a k = none) (slot : SlotNo) :
    claimIn (withdrawWhole a slot) k = none := by
  unfold withdrawWhole
  rw [claimIn_setClaim]
  split
  · rfl
  · exact (withdrawAll_terms slot resOrder a).none hk

/-! ## Both bell claims reported -/

theorem bellSlot_inj {j k : BellSlotNo} (h : bellSlot j = bellSlot k) : j = k := by
  have := congrArg Fin.val h
  exact Fin.ext (Nat.add_left_cancel this)

/-- From s to t only the sounding of claims has been reported: the Bell Unit, the holders, the waiting lists and the
notices are as they were, and no claim has come. -/
structure SoundsOnly (s t : State) : Prop where
  bells : t.bells = s.bells
  res : t.arb.res = s.arb.res
  notices : t.arb.notices = s.arb.notices
  free : ∀ k, claimIn s.arb k = none → claimIn t.arb k = none
  faults : t.faults = s.faults

theorem SoundsOnly.refl (s : State) : SoundsOnly s s := ⟨rfl, rfl, rfl, fun _ h => h, rfl⟩

theorem SoundsOnly.trans {s t u : State} (h : SoundsOnly s t) (k : SoundsOnly t u) : SoundsOnly s u :=
  ⟨k.bells.trans h.bells, k.res.trans h.res, k.notices.trans h.notices, fun j hj => k.free j (h.free j hj),
    k.faults.trans h.faults⟩

theorem reportBell_free {s : State} {k : BellSlotNo} (h : s.bells.slots[k] = none) : reportBell s k = s := by
  unfold reportBell
  rw [h]

theorem reportBell_used {s : State} {k : BellSlotNo} {x : BellSlot} (h : s.bells.slots[k] = some x) :
    reportBell s k = withArbiter s (reportSounding s.arb (bellSlot k) x.claimNo (slotSounds s.bells x)) := by
  unfold reportBell
  rw [h]

theorem reportBell_only (s : State) (k : BellSlotNo) : SoundsOnly s (reportBell s k) := by
  cases h : s.bells.slots[k] with
  | none => rw [reportBell_free h]; exact .refl s
  | some x =>
    rw [reportBell_used h]
    refine ⟨withArbiter_bells _ _, ?_, ?_, fun j hj => ?_, withArbiter_faults _ _⟩
    · rw [withArbiter_arb, res_reportSounding]
    · rw [withArbiter_arb, notices_reportSounding]
    · rw [withArbiter_arb]
      exact claimIn_reportSounding_none hj _ _ _

theorem reportBells_only (s : State) : SoundsOnly s (reportBells s) :=
  (reportBell_only s 0).trans (reportBell_only _ 1)

theorem slots_reportBell_other (s : State) {k : BellSlotNo} {j : SlotNo} (h : bellSlot k ≠ j) :
    (reportBell s k).arb.slots[j] = s.arb.slots[j] := by
  cases hs : s.bells.slots[k] with
  | none => rw [reportBell_free hs]
  | some x => rw [reportBell_used hs, withArbiter_arb, slots_reportSounding_other _ h]

/-- Whether a slot's claim sounds as the slot plays depends on the generators, the slot and its claim alone. -/
theorem bellSounding_congr {s t : State} {k : BellSlotNo} (gens : t.bells.gens = s.bells.gens)
    (slot : t.bells.slots[k] = s.bells.slots[k]) (claim : t.arb.slots[bellSlot k] = s.arb.slots[bellSlot k])
    (h : BellSounding s k) : BellSounding t k := by
  intro x q hx hq hn
  unfold claimIn at hq
  rw [claim] at hq hn
  have plays : BellPlays t x ↔ BellPlays s x := by
    unfold BellPlays
    rw [gens]
  exact (h x q (slot.symm.trans hx) hq hn).trans plays.symm

theorem reportBells_sounding (s : State) : BellsSounding (reportBells s) := by
  have first : BellSounding (reportBells s) 0 :=
    bellSounding_congr (s := reportBell s 0) (by rw [reportBells, (reportBell_only _ 1).bells])
      (by rw [reportBells, (reportBell_only _ 1).bells])
      (slots_reportBell_other _ fun e => absurd (bellSlot_inj e) (by decide)) (reportBell_sounding s 0)
  exact Fin.forall_fin_two.mpr ⟨first, reportBell_sounding _ 1⟩

end Sys2Proof.Proofs
end

section
/-! Ring requests (R78 to R80, R84, R87 to R89): what a ring's start, the claim that carries it and a request leave of
the generators. -/

namespace Sys2Proof.Proofs

open Sys2Proof Sys2Proof.Machine Sys2Proof.Laws

theorem withBells_changes (s : State) (x : BellUnit) (mark : x.hwm = s.bells.hwm) :
    Changes [.bells] s (s.withBells x) := by
  intro f hf
  cases f
  case bells => exact absurd (List.mem_singleton_self _) hf
  case mark => exact mark
  all_goals rfl

/-! ## The claim slots -/

/-- From s to t no part of the Bell Unit other than its claim slots has changed. -/
def SlotsMove (s t : State) : Prop := t.bells = { s.bells with slots := t.bells.slots }

theorem SlotsMove.of_eq {s t : State} (h : t.bells = s.bells) : SlotsMove s t := by
  unfold SlotsMove
  rw [h]

theorem SlotsMove.trans {s t u : State} (h : SlotsMove s t) (k : SlotsMove t u) : SlotsMove s u := by
  unfold SlotsMove at h k ⊢
  rw [k, h]

theorem SlotsMove.gens {s t : State} (h : SlotsMove s t) : t.bells.gens = s.bells.gens := by
  unfold SlotsMove at h
  rw [h]

theorem setSlot_moves (s : State) (k : BellSlotNo) (x : Option BellSlot) :
    SlotsMove s (s.withBells (setSlot s.bells k x)) := rfl

theorem withArbiter_moves (s : State) (a : Arbiter) : SlotsMove s (withArbiter s a) := .of_eq (withArbiter_bells s a)

theorem freeBellSlot_free {s : State} {k : BellSlotNo} (h : s.bells.slots[k] = none) : freeBellSlot s k = s := by
  unfold freeBellSlot
  rw [h]

theorem freeBellSlot_used {s : State} {k : BellSlotNo} {x : BellSlot} (h : s.bells.slots[k] = some x) :
    freeBellSlot s k =
      withArbiter (s.withBells (setSlot s.bells k none)) (withdrawWhole s.arb (bellSlot k)) := by
  unfold freeBellSlot
  rw [h]

theorem freeBellSlot_moves (s : State) (k : BellSlotNo) : SlotsMove s (freeBellSlot s k) := by
  cases h : s.bells.slots[k] with
  | none => rw [freeBellSlot_free h]; exact .of_eq rfl
  | some x =>
    rw [freeBellSlot_used h]
    exact (setSlot_moves s k none).trans (withArbiter_moves _ _)

theorem checkBellSlot_moves (s : State) (k : BellSlotNo) : SlotsMove s (checkBellSlot s k) := by
  unfold checkBellSlot
  split
  · exact .of_eq rfl
  · split
    · exact .of_eq rfl
    · exact freeBellSlot_moves s k

theorem joinSlot_moves (s : State) (k : BellSlotNo) (c : BellNo) (z : ZoneNo) : SlotsMove s (joinSlot s k c z) := by
  unfold joinSlot
  split
  · exact .of_eq rfl
  · split
    · exact setSlot_moves s k _
    · exact ((setSlot_moves s k _).trans (withArbiter_moves _ _)).trans (checkBellSlot_moves _ k)

theorem takeSlot_moves (s : State) (k : BellSlotNo) (c : BellNo) (z : ZoneNo) (p n : Nat) :
    SlotsMove s (takeSlot s k c z p n) :=
  ((setSlot_moves s k _).trans (withArbiter_moves _ _)).trans (checkBellSlot_moves _ k)

theorem carryTone_moves (s : State) (c : BellNo) (z : ZoneNo) (p : Nat) : SlotsMove s (carryTone s c z p) := by
  unfold carryTone
  dsimp only
  split
  · exact joinSlot_moves s _ c z
  · split
    · exact takeSlot_moves s _ c z p _
    · exact .of_eq rfl

/-! ## A ring starts -/

/-- The generator of a ring that starts: in its first ON, with the pulses of the pattern (R79). -/
def startedGen (s : State) (c : BellNo) (r : RingRequest) : Generator := { s.bells.gens[c] with
  state := .on 0
  pulses := ringPulses s.plan r.pattern
  running := some r
  deadline := (ringPulses s.plan r.pattern).head?.map fun p => s.time.localCount + BitVec.ofNat 32 (p.on * 100) }

/-- The station with a ring started and not yet carried. -/
def ringOn (s : State) (c : BellNo) (r : RingRequest) : State := s.withBells (setGen s.bells c (startedGen s c r))

theorem ringStart_silent {s : State} {c : BellNo} (h : usableZone s.image c = none) (r : RingRequest) :
    ringStart s c r = ringOn s c r := by
  unfold ringStart
  rw [h]
  rfl

theorem ringStart_tone {s : State} {c : BellNo} {z : ZoneNo} (h : usableZone s.image c = some z) (r : RingRequest) :
    ringStart s c r = reportBells (carryTone (ringOn s c r) c z r.pattern) := by
  unfold ringStart
  rw [h]
  rfl

theorem ringStart_moves (s : State) (c : BellNo) (r : RingRequest) : SlotsMove (ringOn s c r) (ringStart s c r) := by
  cases h : usableZone s.image c with
  | none => rw [ringStart_silent h]; exact .of_eq rfl
  | some z =>
    rw [ringStart_tone h]
    exact (carryTone_moves _ c z _).trans (.of_eq (reportBells_only _).bells)

theorem gens_ringStart (s : State) (c : BellNo) (r : RingRequest) :
    (ringStart s c r).bells.gens = s.bells.gens.set c (startedGen s c r) := (ringStart_moves s c r).gens

/-! ## A request -/

theorem bellExists_iff (img : Image) (c : BellNo) : bellExists img c = true ↔ img.bells[c].kind ≠ .absent :=
  decide_eq_true_iff

theorem sameRequest_iff (r q : RingRequest) :
    sameRequest r q = true ↔ q = r ∧ ∃ k p i n, r.source = .scheduled k p i n := by
  obtain ⟨n, source⟩ := r
  obtain ⟨m, source'⟩ := q
  cases source with
  | scheduled k p i n =>
    cases source' with
    | scheduled k' p' i' n' =>
      refine (decide_eq_true_iff).trans ⟨fun e => ⟨e.symm, k, p, i, _, rfl⟩, fun e => e.1.symm⟩
    | panel | button => simp [sameRequest]
  | panel | button => simp [sameRequest]

/-- The generator's running request, or the one in its pending slot, is equal to this one (R78, R80). -/
def Repeats (g : Generator) (r : RingRequest) : Prop :=
  ∃ q, (g.running = some q ∨ g.waiting = some q) ∧ q = r ∧ ∃ k p i n, r.source = .scheduled k p i n

theorem repeats_iff (g : Generator) (r : RingRequest) :
    (g.running.any (sameRequest r) || g.waiting.any (sameRequest r)) = true ↔ Repeats g r := by
  unfold Repeats
  simp only [Bool.or_eq_true, Option.any_eq_true, sameRequest_iff]
  grind

theorem not_repeats_of_unscheduled {r : RingRequest} (h : ∀ k p i n, r.source ≠ .scheduled k p i n) (g : Generator) :
    ¬ Repeats g r := fun ⟨_, _, _, k, p, i, n, e⟩ => h k p i n e

theorem takeRequest_absent {s : State} {c : BellNo} (h : bellExists s.image c = false) (r : RingRequest) :
    takeRequest s c r = s := if_neg (by rw [h]; exact Bool.false_ne_true)

theorem takeRequest_idle {s : State} {c : BellNo} (h : bellExists s.image c = true)
    (hs : s.bells.gens[c].state = .idle) (r : RingRequest) : takeRequest s c r = ringStart s c r := by
  unfold takeRequest
  rw [if_pos h]
  dsimp only
  rw [hs]

theorem takeRequest_evac {s : State} {c : BellNo} (hs : s.bells.gens[c].state = .evac) (r : RingRequest) :
    takeRequest s c r = s := by
  unfold takeRequest
  split
  · dsimp only
    rw [hs]
  · rfl

/-- A busy generator: in ON, OFF or REST (R79). -/
abbrev Busy (g : Generator) : Prop := g.state ≠ .idle ∧ g.state ≠ .evac

/-- The station with a request in the pending slot of a generator. -/
def requestHeld (s : State) (c : BellNo) (r : RingRequest) : State :=
  s.withBells (setGen s.bells c { s.bells.gens[c] with waiting := some r })

theorem takeRequest_busy {s : State} {c : BellNo} (h : bellExists s.image c = true) (hs : Busy s.bells.gens[c])
    (r : RingRequest) : takeRequest s c r =
      if s.bells.gens[c].running.any (sameRequest r) || s.bells.gens[c].waiting.any (sameRequest r) then s
      else if s.bells.gens[c].waiting.isSome then report (requestHeld s c r) (.ringMerged c)
      else requestHeld s c r := by
  obtain ⟨idle, evac⟩ := hs
  unfold takeRequest
  rw [if_pos h]
  dsimp only
  split
  · next e => exact absurd e idle
  · next e => exact absurd e evac
  · rfl

theorem takeRequest_repeated {s : State} {c : BellNo} (h : bellExists s.image c = true) (hs : Busy s.bells.gens[c])
    {r : RingRequest} (hr : Repeats s.bells.gens[c] r) : takeRequest s c r = s := by
  rw [takeRequest_busy h hs, if_pos ((repeats_iff _ _).mpr hr)]

theorem takeRequest_pends {s : State} {c : BellNo} (h : bellExists s.image c = true) (hs : Busy s.bells.gens[c])
    {r : RingRequest} (hr : ¬ Repeats s.bells.gens[c] r) : takeRequest s c r =
      if s.bells.gens[c].waiting.isSome then report (requestHeld s c r) (.ringMerged c) else requestHeld s c r := by
  rw [takeRequest_busy h hs, if_neg fun k => hr ((repeats_iff _ _).mp k)]

theorem requestHeld_changes (s : State) (c : BellNo) (r : RingRequest) :
    Changes [.bells, .faults] s (requestHeld s c r) := changes_mono (withBells_changes s _ rfl)

/-- A request other than a repeated one is held; one that it displaces is recorded RING MERGED (R80). -/
theorem takeRequest_pends_spec {s : State} {c : BellNo} (h : bellExists s.image c = true) (hs : Busy s.bells.gens[c])
    {r : RingRequest} (hr : ¬ Repeats s.bells.gens[c] r) : let t := takeRequest s c r
    t.bells = { s.bells with gens := s.bells.gens.set c { s.bells.gens[c] with waiting := some r } } ∧
    t.faults = (if s.bells.gens[c].waiting.isSome then (report s (.ringMerged c)).faults else s.faults) ∧
    Changes [.bells, .faults] s t := by
  intro t
  have ht : t = if s.bells.gens[c].waiting.isSome then report (requestHeld s c r) (.ringMerged c)
      else requestHeld s c r := takeRequest_pends h hs hr
  by_cases w : s.bells.gens[c].waiting.isSome
  · rw [if_pos w] at ht
    rw [ht, if_pos w]
    exact ⟨rfl, rfl, changes_trans (requestHeld_changes s c r) (changes_mono (report_ev _ _).same)⟩
  · rw [if_neg w] at ht
    rw [ht, if_neg w]
    exact ⟨rfl, rfl, requestHeld_changes s c r⟩

/-- Settles O30: the generator's states, each by its own rule. -/
theorem aRingRequestIsTakenByItsGenerator : Obligations.ARingRequestIsTakenByItsGenerator := by
  intro s c r h
  refine ⟨fun idle => ?_, fun evac => takeRequest_evac evac r, fun idle evac => ⟨fun same => ?_, fun other => ?_⟩⟩
  · rw [takeRequest_idle h idle, gens_ringStart, vector_set_at, if_pos rfl]
    rfl
  · exact takeRequest_repeated h ⟨idle, evac⟩ same
  · exact takeRequest_pends_spec h ⟨idle, evac⟩ other

end Sys2Proof.Proofs
end

section
/-! RING and BELL_BUTTON_PRESS (R87, R88): requests given to several circuits in turn. -/

namespace Sys2Proof.Proofs

open Sys2Proof Sys2Proof.Machine Sys2Proof.Laws

/-- The request comes from the panel or from the button, so that no request equals it (R78). -/
def Unscheduled (r : RingRequest) : Prop := ∀ k p i n, r.source ≠ .scheduled k p i n

theorem panel_unscheduled (n : Nat) : Unscheduled ⟨n, .panel⟩ := fun _ _ _ _ => nofun

theorem button_unscheduled : Unscheduled ⟨0, .button⟩ := fun _ _ _ _ => nofun

/-- What a request makes of a circuit's generator, when it equals no other request (R80). -/
def requestedGen (s : State) (c : BellNo) (r : RingRequest) : Generator :=
  match s.bells.gens[c].state with
  | .idle => startedGen s c r
  | .evac => s.bells.gens[c]
  | _ => { s.bells.gens[c] with waiting := some r }

theorem requestedGen_busy {s : State} {c : BellNo} (h : Busy s.bells.gens[c]) (r : RingRequest) :
    requestedGen s c r = { s.bells.gens[c] with waiting := some r } := by
  obtain ⟨idle, evac⟩ := h
  unfold requestedGen
  split
  · next e => exact absurd e idle
  · next e => exact absurd e evac
  · rfl

theorem takeRequest_gen_other (s : State) {c d : BellNo} (h : c ≠ d) (r : RingRequest) :
    (takeRequest s c r).bells.gens[d] = s.bells.gens[d] := by
  by_cases hx : bellExists s.image c = true
  · by_cases idle : s.bells.gens[c].state = .idle
    · rw [takeRequest_idle hx idle, gens_ringStart, vector_set_at, if_neg h]
    · by_cases evac : s.bells.gens[c].state = .evac
      · rw [takeRequest_evac evac]
      · by_cases same : Repeats s.bells.gens[c] r
        · rw [takeRequest_repeated hx ⟨idle, evac⟩ same]
        · rw [(takeRequest_pends_spec hx ⟨idle, evac⟩ same).1, vector_set_at, if_neg h]
  · rw [takeRequest_absent (Bool.eq_false_iff.mpr hx)]

theorem takeRequest_gen_self {s : State} {c : BellNo} {r : RingRequest} (hr : Unscheduled r) :
    (takeRequest s c r).bells.gens[c] = if bellExists s.image c = true then requestedGen s c r else s.bells.gens[c] := by
  by_cases hx : bellExists s.image c = true
  · rw [if_pos hx]
    by_cases idle : s.bells.gens[c].state = .idle
    · rw [takeRequest_idle hx idle, gens_ringStart, vector_set_at, if_pos rfl]
      unfold requestedGen
      rw [idle]
    · by_cases evac : s.bells.gens[c].state = .evac
      · rw [takeRequest_evac evac]
        unfold requestedGen
        rw [evac]
      · rw [(takeRequest_pends_spec hx ⟨idle, evac⟩ (not_repeats_of_unscheduled hr _)).1, vector_set_at, if_pos rfl,
          requestedGen_busy ⟨idle, evac⟩]
  · rw [if_neg hx, takeRequest_absent (Bool.eq_false_iff.mpr hx)]

/-- What a request makes of a generator reads the generator, the plan and the local count alone. -/
theorem requestedGen_congr {s t : State} {c : BellNo} (gen : t.bells.gens[c] = s.bells.gens[c]) (plan : t.plan = s.plan)
    (time : t.time = s.time) (r : RingRequest) : requestedGen t c r = requestedGen s c r := by
  unfold requestedGen startedGen
  rw [gen, plan, time]

/-- Each existing circuit of a list takes the request once, and no other generator changes (R87, R88). -/
theorem gens_giveRequests {r : RingRequest} (hr : Unscheduled r) {l : List BellNo} (hl : l.Nodup) (s : State)
    (c : BellNo) : (giveRequests s l r).bells.gens[c] =
      if c ∈ l ∧ bellExists s.image c = true then requestedGen s c r else s.bells.gens[c] := by
  induction l generalizing s with
  | nil => simp [giveRequests]
  | cons d l ih =>
    obtain ⟨fresh, rest⟩ := List.nodup_cons.mp hl
    have e := (takeRequest_ev s d r).same
    show (giveRequests (takeRequest s d r) l r).bells.gens[c] = _
    rw [ih rest, show (takeRequest s d r).image = s.image from e .image (by decide)]
    by_cases hd : d = c
    · subst hd
      rw [if_neg fun h => fresh h.1, takeRequest_gen_self hr]
      simp
    · have gen := takeRequest_gen_other s hd r
      rw [gen, requestedGen_congr gen (e .plan (by decide)) (e .time (by decide))]
      simp [Ne.symm hd]

theorem mem_circuitsOf (m : CircuitMask) (c : BellNo) : c ∈ circuitsOf m ↔ m.getLsbD c.val = true := by
  simp [circuitsOf]

theorem circuitsOf_nodup (m : CircuitMask) : (circuitsOf m).Nodup := (List.nodup_finRange 6).filter _

theorem mem_buttonCircuits (img : Image) (c : BellNo) : c ∈ buttonCircuits img ↔ img.bells[c].button = true := by
  simp [buttonCircuits]

theorem buttonCircuits_nodup (img : Image) : (buttonCircuits img).Nodup := (List.nodup_finRange 6).filter _

/-! ## RING -/

theorem exec_ring {s : State} (ha : Active s) (m : CircuitMask) (n : Nat) :
    exec (.ring m n) s = .next (answered (ringTake m n s).1 (ringTake m n s).2) :=
  congrArg Host.Outcome.next (panelTake_active ha _)

theorem ringTake_bad {n : Nat} (h : 7 < n) (m : CircuitMask) (s : State) : ringTake m n s = (s, .bad .argument) :=
  if_pos h

theorem ringTake_busy {n : Nat} (h : n ≤ 7) {s : State} (hs : s.start.opState = .join ∨ s.bells.drillFlag = true)
    (m : CircuitMask) : ringTake m n s = (s, .busy) := by
  unfold ringTake
  rw [if_neg (Nat.not_lt.mpr h), if_pos]
  obtain join | flag := hs
  · simp [inRun, join]
  · simp [flag]

theorem ringTake_run {n : Nat} (h : n ≤ 7) {s : State} (run : s.start.opState = .run) (flag : s.bells.drillFlag = false)
    (m : CircuitMask) : ringTake m n s = if (patternQuery s.plan n).isNone then (s, .refused .noSuchItem)
      else (giveRequests s (circuitsOf m) ⟨n, .panel⟩, .done .nothing) := by
  unfold ringTake
  rw [if_neg (Nat.not_lt.mpr h), if_neg (by simp [inRun, run, flag])]
  rfl

theorem ring_gives {s : State} {n : Nat} (hn : patternQuery s.plan n ≠ none) (h : n ≤ 7) (run : s.start.opState = .run)
    (flag : s.bells.drillFlag = false) (m : CircuitMask) :
    ringTake m n s = (giveRequests s (circuitsOf m) ⟨n, .panel⟩, .done .nothing) := by
  rw [ringTake_run h run flag, if_neg fun e => hn (Option.isNone_iff_eq_none.mp e)]

/-! ## BELL_BUTTON_PRESS -/

theorem exec_bellButtonPress {s : State} (ha : alive s = true) (ho : s.start.opState ≠ .halt) :
    exec .bellButtonPress s = .next (pressRings (buttonPressed s)) :=
  congrArg Host.Outcome.next (if_pos ⟨ha, ho⟩)

theorem pressRings_run {s : State} (run : s.start.opState = .run) (flag : s.bells.drillFlag = false) :
    pressRings s = giveRequests s (buttonCircuits s.image) ⟨0, .button⟩ := by
  unfold pressRings
  rw [if_pos (by simp [inRun, run, flag])]

theorem pressRings_silent {s : State} (h : s.start.opState ≠ .run ∨ s.bells.drillFlag = true) : pressRings s = s := by
  unfold pressRings
  rw [if_neg]
  obtain run | flag := h
  · simp [inRun, run]
  · simp [flag]

theorem buttonPressed_changes (s : State) : Changes [.pins] s (buttonPressed s) :=
  (Evolves.refl [.pins] s).withPins.same

theorem pressRings_changes (s : State) : Changes [.bells, .arb, .synth, .faults] s (pressRings s) := by
  unfold pressRings
  split
  · exact (giveRequests_ev _ _ _).same
  · exact (Evolves.refl _ s).same

/-- Settles O31: the checks of RING in their order, and a press in RUN and elsewhere. -/
theorem ringAndTheBellButton : Obligations.RingAndTheBellButton := by
  refine ⟨fun s m n ha => ⟨fun bad => ?_, fun hn busy => ?_, fun hn run flag => ⟨fun none => ?_, fun some => ?_⟩⟩,
    fun s ha ho => ⟨_, exec_bellButtonPress ha ho, ?_, fun run flag c => ?_, fun silent => ?_, ?_⟩⟩
  · rw [exec_ring ha, ringTake_bad bad]
  · rw [exec_ring ha, ringTake_busy hn busy]
  · rw [exec_ring ha, ringTake_run hn run flag, none]
    rfl
  · have given := (giveRequests_ev s (circuitsOf m) ⟨n, .panel⟩).same
    refine ⟨_, by rw [exec_ring ha, ring_gives some hn run flag], answered_port (given .port (by decide)) _,
      fun c => ?_, changes_trans (changes_mono given) (changes_mono (answered_changes _ _))⟩
    show (giveRequests s (circuitsOf m) ⟨n, .panel⟩).bells.gens[c] = _
    rw [gens_giveRequests (panel_unscheduled n) (circuitsOf_nodup m)]
    simp only [mem_circuitsOf, bellExists_iff]
    rfl
  · exact (pressRings_changes (buttonPressed s)) .pins (by decide)
  · rw [pressRings_run (s := buttonPressed s) run flag, gens_giveRequests button_unscheduled (buttonCircuits_nodup _)]
    simp only [mem_buttonCircuits, bellExists_iff]
    rfl
  · rw [pressRings_silent (s := buttonPressed s) silent]
    rfl
  · exact changes_trans (changes_mono (buttonPressed_changes s)) (changes_mono (pressRings_changes _))

end Sys2Proof.Proofs
end

section
/-! The orders of a drill to the bells (R93 to R95), and the evacuation pattern. -/

namespace Sys2Proof.Proofs

open Sys2Proof Sys2Proof.Machine Sys2Proof.Laws

theorem mapGens_gen (b : BellUnit) (f : BellNo → Generator → Generator) (c : BellNo) :
    (mapGens b f).gens[c] = f c b.gens[c] := Vector.getElem_ofFn _

/-! ## The claim slots freed -/

theorem slots_freeBellSlot (s : State) (k : BellSlotNo) : (freeBellSlot s k).bells.slots = s.bells.slots.set k none := by
  cases h : s.bells.slots[k] with
  | none =>
    rw [freeBellSlot_free h]
    refine Vector.ext fun i hi => ?_
    rw [Vector.getElem_set]
    split
    · next e => subst e; exact h
    · rfl
  | some x => rw [freeBellSlot_used h, withArbiter_bells]; rfl

theorem freeBellSlot_claim {s : State} {k : BellSlotNo} (h : s.bells.slots[k] ≠ none) :
    claimIn (freeBellSlot s k).arb (bellSlot k) = none := by
  obtain ⟨x, hx⟩ := Option.ne_none_iff_exists'.mp h
  rw [freeBellSlot_used hx, withArbiter_arb]
  exact withdrawWhole_free _ _

theorem freeBellSlot_claim_none {s : State} {j : SlotNo} (h : claimIn s.arb j = none) (k : BellSlotNo) :
    claimIn (freeBellSlot s k).arb j = none := by
  cases hk : s.bells.slots[k] with
  | none => rw [freeBellSlot_free hk, h]
  | some x => rw [freeBellSlot_used hk, withArbiter_arb]; exact claimIn_withdrawWhole_none h _

/-- Both bell claims withdrawn, as the evacuation order does it (R94). -/
def bellsFreed (s : State) : State := freeBellSlot (freeBellSlot s 0) 1

theorem bellsFreed_ev (s : State) : Evolves [.bells, .arb, .synth] s (bellsFreed s) :=
  (freeBellSlot_ev s 0).then (freeBellSlot_ev _ 1)

theorem bellsFreed_moves (s : State) : SlotsMove s (bellsFreed s) :=
  (freeBellSlot_moves s 0).trans (freeBellSlot_moves _ 1)

theorem bellsFreed_slots (s : State) (k : BellSlotNo) : (bellsFreed s).bells.slots[k] = none := by
  rw [bellsFreed, slots_freeBellSlot, slots_freeBellSlot, vector_set_at, vector_set_at]
  revert k
  exact Fin.forall_fin_two.mpr ⟨rfl, rfl⟩

theorem bellsFreed_claims (s : State) : ∀ k : BellSlotNo, s.bells.slots[k] ≠ none →
    claimIn (bellsFreed s).arb (bellSlot k) = none := by
  refine Fin.forall_fin_two.mpr ⟨fun h => freeBellSlot_claim_none (freeBellSlot_claim h) 1, fun h => ?_⟩
  refine freeBellSlot_claim ?_
  rw [slots_freeBellSlot, vector_set_at, if_neg (by decide)]
  exact h

/-! ## The evacuation order -/

theorem evacuateBells_eq (s : State) : evacuateBells s =
    let b := mapGens (bellsFreed s).bells (evacGen (bellsFreed s).image)
    (bellsFreed s).withBells { b with
      evacPhase := 0
      evacDeadline := if anyEvac b then some ((bellsFreed s).time.localCount + 500#32) else none } := rfl

theorem evacuated_gen (b : BellUnit) (img : Image) (c : BellNo) : (mapGens b (evacGen img)).gens[c] =
    if img.bells[c].kind = .relay ∧ img.bells[c].alarmCapable = true then ⟨.evac, [], none, none, none⟩
    else ⟨.idle, [], none, none, none⟩ := mapGens_gen _ _ _

theorem anyEvac_evacuated {img : Image} (h : ∃ c : BellNo, img.bells[c].kind = .relay ∧ img.bells[c].alarmCapable = true)
    (b : BellUnit) : anyEvac (mapGens b (evacGen img)) = true := by
  obtain ⟨c, hc⟩ := h
  exact (anyEvac_iff _).mpr ⟨c, by rw [evacuated_gen, if_pos hc]⟩

theorem evacuateBells_spec (s : State) : let t := evacuateBells s
    (∀ c : BellNo, t.bells.gens[c] = if s.image.bells[c].kind = .relay ∧ s.image.bells[c].alarmCapable = true
      then ⟨.evac, [], none, none, none⟩ else ⟨.idle, [], none, none, none⟩) ∧
    (∀ k : BellSlotNo, t.bells.slots[k] = none) ∧
    (∀ k : BellSlotNo, s.bells.slots[k] ≠ none → claimIn t.arb (bellSlot k) = none) ∧
    t.bells.evacPhase = 0 ∧
    ((∃ c : BellNo, s.image.bells[c].kind = .relay ∧ s.image.bells[c].alarmCapable = true) →
      t.bells.evacDeadline = some (s.time.localCount + 500#32)) ∧
    t.bells.drillFlag = s.bells.drillFlag ∧ t.bells.hwm = s.bells.hwm ∧ Changes [.bells, .arb, .synth] s t := by
  intro t
  have freed := (bellsFreed_ev s).same
  have image : (bellsFreed s).image = s.image := freed .image (by decide)
  refine ⟨fun c => ?_, bellsFreed_slots s, bellsFreed_claims s, rfl, fun some => ?_, ?_,
    (evacuateBells_ev s).same .mark (by decide), (evacuateBells_ev s).same⟩
  · show (mapGens (bellsFreed s).bells (evacGen (bellsFreed s).image)).gens[c] = _
    rw [evacuated_gen, image]
  · show (if anyEvac (mapGens (bellsFreed s).bells (evacGen (bellsFreed s).image)) = true
      then Option.some ((bellsFreed s).time.localCount + 500#32) else none) = _
    rw [if_pos (anyEvac_evacuated (by rw [image]; exact some) _),
      show (bellsFreed s).time = s.time from freed .time (by decide)]
  · have moves : (bellsFreed s).bells = _ := bellsFreed_moves s
    have flag := congrArg BellUnit.drillFlag moves
    exact flag

/-! ## The other orders -/

theorem exec_suppressOrder {s : State} (ha : Active s) :
    exec .suppressOrder s = .next (s.withBells (suppressBells s.bells)) := exec_whenWorking rfl ha

theorem suppressBells_gens (b : BellUnit) (c : BellNo) :
    (suppressBells b).gens[c] = { b.gens[c] with waiting := none } := mapGens_gen b (fun _ g => { g with waiting := none }) c

theorem exec_resumeOrder {s : State} (ha : Active s) :
    exec .resumeOrder s = .next (s.withBells (resumeBells s.bells)) := exec_whenWorking rfl ha

theorem exec_evacuationOrder {s : State} (ha : Active s) : exec .evacuationOrder s = .next (evacuateBells s) :=
  exec_whenWorking rfl ha

theorem exec_stopOrder {s : State} (ha : Active s) : exec .stopOrder s = .next (s.withBells (stopBells s.bells)) :=
  exec_whenWorking rfl ha

theorem exec_evacPattern {s : State} (ha : Active s) :
    exec .evacPattern s = .next (s.withBells (evacStep s.bells s.time.localCount)) := exec_whenWorking rfl ha

theorem countAfter_evacTime (now : Count) (n : Nat) :
    countAfter now (evacTime n) = now + if n = 5 then 1500#32 else 500#32 := by
  unfold countAfter evacTime
  split <;> rfl

theorem evacStep_moves {b : BellUnit} (h : ∃ c : BellNo, b.gens[c].state = .evac) (now : Count) : evacStep b now =
    { b with
      evacPhase := (b.evacPhase + 1) % 6
      evacDeadline := some (now + if (b.evacPhase + 1) % 6 = 5 then 1500#32 else 500#32) } := by
  unfold evacStep
  rw [if_pos ((anyEvac_iff b).mpr h)]
  dsimp only
  rw [countAfter_evacTime]

/-- Settles O33: each order by what it leaves of the Bell Unit. -/
theorem drillOrdersToTheBells : Obligations.DrillOrdersToTheBells := by
  intro s ha
  refine ⟨⟨_, exec_suppressOrder ha, rfl, suppressBells_gens s.bells, rfl⟩, exec_resumeOrder ha,
    ⟨_, exec_evacuationOrder ha, evacuateBells_spec s⟩, ⟨_, exec_stopOrder ha, fun c => ?_, rfl⟩,
    fun evac => ?_⟩
  · rw [bells_withBells]
    exact stopBells_gens s.bells c
  · rw [exec_evacPattern ha, evacStep_moves evac]

end Sys2Proof.Proofs
end

section
/-! PULSE_ON_END, PULSE_OFF_END and REST_END (R79 to R81), and the end of a circuit's part in a bell claim (R92). -/

namespace Sys2Proof.Proofs

open Sys2Proof Sys2Proof.Machine Sys2Proof.Laws

/-! ## A circuit leaves its slot -/

theorem slots_setSlot_self (b : BellUnit) (k : BellSlotNo) (x : Option BellSlot) : (setSlot b k x).slots[k] = x :=
  (vector_set_at _ _ _ _).trans (if_pos rfl)

theorem slots_setSlot_other (b : BellUnit) {k j : BellSlotNo} (h : k ≠ j) (x : Option BellSlot) :
    (setSlot b k x).slots[j] = b.slots[j] := (vector_set_at _ _ _ _).trans (if_neg h)

theorem setSlot_setSlot (b : BellUnit) (k : BellSlotNo) (x y : Option BellSlot) :
    setSlot (setSlot b k x) k y = setSlot b k y :=
  congrArg (fun v => { b with slots := v }) (Vector.set_set ..)

/-- The slot in use has the circuit as its last member (R92). -/
def Ends (s : State) (c : BellNo) (k : BellSlotNo) : Prop :=
  ∃ x, s.bells.slots[k] = some x ∧ c ∈ x.members ∧ ∀ d ∈ x.members, d = c

/-- The slot without the circuit among its members. -/
def withoutMember (c : BellNo) (x : BellSlot) : BellSlot :=
  { x with members := x.members.filter fun d => decide (d ≠ c) }

theorem withoutMember_of_not_mem {c : BellNo} {x : BellSlot} (h : c ∉ x.members) : withoutMember c x = x := by
  have same : x.members.filter (fun d => decide (d ≠ c)) = x.members :=
    List.filter_eq_self.mpr fun d hd => decide_eq_true fun e => h (e ▸ hd)
  unfold withoutMember
  rw [same]

theorem withoutMember_empty_iff (c : BellNo) (x : BellSlot) :
    (withoutMember c x).members = [] ↔ ∀ d ∈ x.members, d = c := by
  simp [withoutMember, List.filter_eq_nil_iff]

theorem not_ends_of_free {s : State} {c : BellNo} {k : BellSlotNo} (h : s.bells.slots[k] = none) : ¬ Ends s c k :=
  fun ⟨x, hx, _⟩ => by rw [h] at hx; cases hx

theorem ends_congr {s t : State} {k : BellSlotNo} (h : t.bells.slots[k] = s.bells.slots[k]) (c : BellNo) :
    Ends t c k ↔ Ends s c k := by
  unfold Ends
  rw [h]

theorem endMembership_ends {s : State} {c : BellNo} {k : BellSlotNo} (h : Ends s c k) :
    (endMembership s k c).bells = setSlot s.bells k none ∧
    (endMembership s k c).arb = withdrawWhole s.arb (bellSlot k) := by
  obtain ⟨x, hx, mem, last⟩ := h
  have e : endMembership s k c = freeBellSlot (s.withBells (setSlot s.bells k (some (withoutMember c x)))) k := by
    unfold endMembership
    rw [hx]
    dsimp only
    rw [if_pos (List.contains_iff_mem.mpr mem)]
    exact if_pos ((withoutMember_empty_iff c x).mpr last)
  rw [e, freeBellSlot_used (slots_setSlot_self _ _ _), withArbiter_bells, withArbiter_arb]
  exact ⟨setSlot_setSlot _ _ _ _, rfl⟩

theorem endMembership_stays {s : State} {c : BellNo} {k : BellSlotNo} (h : ¬ Ends s c k) :
    (∀ j : BellSlotNo, (endMembership s k c).bells.slots[j] =
      if k = j then s.bells.slots[k].map (withoutMember c) else s.bells.slots[j]) ∧
    (endMembership s k c).arb = s.arb := by
  cases hx : s.bells.slots[k] with
  | none =>
    have e : endMembership s k c = s := by
      unfold endMembership
      rw [hx]
    rw [e]
    refine ⟨fun j => ?_, rfl⟩
    split
    · next same => rw [← same]; exact hx
    · rfl
  | some x =>
    by_cases mem : c ∈ x.members
    · have e : endMembership s k c = s.withBells (setSlot s.bells k (some (withoutMember c x))) := by
        unfold endMembership
        rw [hx]
        dsimp only
        rw [if_pos (List.contains_iff_mem.mpr mem)]
        exact if_neg fun empty => h ⟨x, hx, mem, (withoutMember_empty_iff c x).mp empty⟩
      rw [e]
      exact ⟨fun j => vector_set_at _ _ _ _, rfl⟩
    · have e : endMembership s k c = s := by
        unfold endMembership
        rw [hx]
        exact if_neg fun k => mem (List.contains_iff_mem.mp k)
      rw [e]
      refine ⟨fun j => ?_, rfl⟩
      split
      · next same => rw [← same, hx, Option.map_some, withoutMember_of_not_mem mem]
      · rfl

theorem endMembership_moves (s : State) (k : BellSlotNo) (c : BellNo) : SlotsMove s (endMembership s k c) := by
  unfold endMembership
  split
  · exact .of_eq rfl
  · split
    · dsimp only
      split
      · exact (setSlot_moves s k _).trans (freeBellSlot_moves _ k)
      · exact setSlot_moves s k _
    · exact .of_eq rfl

theorem endMembership_other (s : State) (c : BellNo) {k j : BellSlotNo} (h : k ≠ j) :
    (endMembership s k c).bells.slots[j] = s.bells.slots[j] := by
  by_cases he : Ends s c k
  · rw [(endMembership_ends he).1]
    exact slots_setSlot_other _ h _
  · rw [(endMembership_stays he).1, if_neg h]

theorem leaveSlots_moves (s : State) (c : BellNo) : SlotsMove s (leaveSlots s c) :=
  (endMembership_moves s 0 c).trans (endMembership_moves _ 1 c)

/-- The second slot is as it was when the first has been left. -/
theorem ends_second (s : State) (c : BellNo) : Ends (endMembership s 0 c) c 1 ↔ Ends s c 1 :=
  ends_congr (endMembership_other s c (by decide)) c

theorem leaveSlots_ends (s : State) (c : BellNo) : ∀ k : BellSlotNo, Ends s c k →
    (leaveSlots s c).bells.slots[k] = none ∧ claimIn (leaveSlots s c).arb (bellSlot k) = none := by
  refine Fin.forall_fin_two.mpr ⟨fun h => ?_, fun h => ?_⟩
  · have first := endMembership_ends h
    have gone : claimIn (endMembership s 0 c).arb (bellSlot 0) = none := by
      rw [first.2]
      exact withdrawWhole_free _ _
    constructor
    · rw [leaveSlots, endMembership_other _ c (by decide), first.1, slots_setSlot_self]
    · rw [leaveSlots]
      by_cases second : Ends (endMembership s 0 c) c 1
      · rw [(endMembership_ends second).2]
        exact claimIn_withdrawWhole_none gone _
      · rw [(endMembership_stays second).2, gone]
  · have second := endMembership_ends ((ends_second s c).mpr h)
    rw [leaveSlots, second.1, second.2, slots_setSlot_self]
    exact ⟨rfl, withdrawWhole_free _ _⟩

theorem leaveSlots_stays (s : State) (c : BellNo) : ∀ k : BellSlotNo, ¬ Ends s c k →
    (leaveSlots s c).bells.slots[k] = s.bells.slots[k].map (withoutMember c) := by
  refine Fin.forall_fin_two.mpr ⟨fun h => ?_, fun h => ?_⟩
  · rw [leaveSlots, endMembership_other _ c (by decide), (endMembership_stays h).1, if_pos rfl]
  · rw [leaveSlots, (endMembership_stays fun k => h ((ends_second s c).mp k)).1, if_pos rfl,
      endMembership_other _ c (by decide)]

theorem leaveSlots_arb_none {s : State} {c : BellNo} (h : ∀ k, ¬ Ends s c k) : (leaveSlots s c).arb = s.arb := by
  rw [leaveSlots, (endMembership_stays fun k => h 1 ((ends_second s c).mp k)).2, (endMembership_stays (h 0)).2]

theorem leaveSlots_arb_one {s : State} {c : BellNo} : ∀ k : BellSlotNo, Ends s c k → (∀ j, Ends s c j → j = k) →
    (leaveSlots s c).arb = withdrawWhole s.arb (bellSlot k) := by
  refine Fin.forall_fin_two.mpr ⟨fun h only => ?_, fun h only => ?_⟩
  · have second : ¬ Ends (endMembership s 0 c) c 1 := fun k => absurd (only 1 ((ends_second s c).mp k)) (by decide)
    rw [leaveSlots, (endMembership_stays second).2, (endMembership_ends h).2]
  · have first : ¬ Ends s c 0 := fun k => absurd (only 0 k) (by decide)
    rw [leaveSlots, (endMembership_ends ((ends_second s c).mpr h)).2, (endMembership_stays first).2]

/-! ## The generator's own part -/

/-- The station with one generator replaced. -/
def genSet (s : State) (c : BellNo) (g : Generator) : State := s.withBells (setGen s.bells c g)

theorem pulseOnEnd_on {s : State} {c : BellNo} {i : Nat} (h : s.bells.gens[c].state = .on i) :
    pulseOnEnd s c = reportBells (genSet s c { s.bells.gens[c] with
      state := .off i
      deadline := (s.bells.gens[c].pulses[i]?).map fun p => s.time.localCount + BitVec.ofNat 32 (p.off * 100) }) := by
  unfold pulseOnEnd
  dsimp only
  rw [h]
  rfl

theorem pulseOffEnd_next {s : State} {c : BellNo} {i : Nat} (h : s.bells.gens[c].state = .off i) {p : Pulse}
    (hp : s.bells.gens[c].pulses[i + 1]? = some p) :
    pulseOffEnd s c = reportBells (genSet s c { s.bells.gens[c] with
      state := .on (i + 1)
      deadline := some (s.time.localCount + BitVec.ofNat 32 (p.on * 100)) }) := by
  unfold pulseOffEnd
  dsimp only
  rw [h]
  dsimp only
  rw [hp]
  rfl

theorem pulseOffEnd_last {s : State} {c : BellNo} {i : Nat} (h : s.bells.gens[c].state = .off i)
    (hp : s.bells.gens[c].pulses[i + 1]? = none) :
    pulseOffEnd s c = leaveSlots (genSet s c { s.bells.gens[c] with
      state := .rest
      deadline := some (s.time.localCount + 1000#32) }) c := by
  unfold pulseOffEnd
  dsimp only
  rw [h]
  dsimp only
  rw [hp]
  rfl

theorem genRestEnd_idle {s : State} {c : BellNo} (h : s.bells.gens[c].state = .rest)
    (hw : s.bells.gens[c].waiting = none ∨ s.bells.drillFlag = true) :
    genRestEnd s c = genSet s c Generator.initial := by
  unfold genRestEnd
  dsimp only
  rw [h]
  dsimp only
  split
  · rfl
  · next r hr =>
    obtain none | flag := hw
    · rw [hr] at none; cases none
    · rw [if_pos flag]
      rfl

theorem genRestEnd_rings {s : State} {c : BellNo} (h : s.bells.gens[c].state = .rest) {r : RingRequest}
    (hr : s.bells.gens[c].waiting = some r) (flag : s.bells.drillFlag = false) :
    genRestEnd s c = ringStart (genSet s c Generator.initial) c r := by
  unfold genRestEnd
  dsimp only
  rw [h]
  dsimp only
  rw [hr]
  dsimp only
  rw [flag]
  rfl

theorem gens_set_set (v : Vector Generator 6) (c : BellNo) (g h : Generator) : (v.set c g).set c h = v.set c h :=
  Vector.set_set ..

theorem gens_genRestEnd {s : State} {c : BellNo} (h : s.bells.gens[c].state = .rest) {r : RingRequest}
    (hr : s.bells.gens[c].waiting = some r) (flag : s.bells.drillFlag = false) :
    (genRestEnd s c).bells.gens = s.bells.gens.set c ⟨.on 0, ringPulses s.plan r.pattern, some r, none,
      (ringPulses s.plan r.pattern).head?.map fun p => s.time.localCount + BitVec.ofNat 32 (p.on * 100)⟩ := by
  have at_c : (genSet s c Generator.initial).bells.gens[c] = Generator.initial :=
    (vector_set_at _ _ _ _).trans (if_pos rfl)
  rw [genRestEnd_rings h hr flag, gens_ringStart, startedGen, at_c]
  exact gens_set_set _ _ _ _

/-! ## The three rows -/

theorem exec_pulseOnEnd {s : State} (ha : Active s) (c : BellNo) : exec (.pulseOnEnd c) s = .next (pulseOnEnd s c) :=
  exec_whenWorking rfl ha

theorem exec_pulseOffEnd {s : State} (ha : Active s) (c : BellNo) : exec (.pulseOffEnd c) s = .next (pulseOffEnd s c) :=
  exec_whenWorking rfl ha

theorem exec_restEnd {s : State} (ha : Active s) (c : BellNo) : exec (.restEnd c) s = .next (genRestEnd s c) :=
  exec_whenWorking rfl ha

/-- A pulse that begins or ends: the generator changes, and the claims sound as their slots play (R79, R90). -/
theorem pulseReported {s t : State} {c : BellNo} {g : Generator} (h : t = reportBells (genSet s c g)) :
    t.bells = { s.bells with gens := s.bells.gens.set c g } ∧
    t.arb.res = s.arb.res ∧ t.arb.notices = s.arb.notices ∧ BellsSounding t := by
  subst h
  have only := reportBells_only (genSet s c g)
  exact ⟨only.bells, only.res, only.notices, reportBells_sounding _⟩

/-- Settles O32: each row by the state of its generator. -/
theorem pulsesOfARing : Obligations.PulsesOfARing := by
  intro s c ha
  refine ⟨fun i on => ⟨_, exec_pulseOnEnd ha c, ?_⟩, fun i off => ⟨_, exec_pulseOffEnd ha c, fun p hp => ?_,
    fun last => ?_, (pulseOffEnd_ev s c).same⟩, fun rest => ⟨_, exec_restEnd ha c, genRestEnd_idle rest,
    fun r hr flag => ⟨gens_genRestEnd rest hr flag, fun exists_ => ?_⟩, (genRestEnd_ev s c).same⟩⟩
  · obtain ⟨bells, res, notices, sounding⟩ := pulseReported (pulseOnEnd_on on)
    exact ⟨bells, res, notices, sounding, (pulseOnEnd_ev s c).same⟩
  · exact pulseReported (pulseOffEnd_next off hp)
  · rw [pulseOffEnd_last off last]
    generalize hu : genSet s c _ = u
    have slots : ∀ k : BellSlotNo, u.bells.slots[k] = s.bells.slots[k] := fun k => by rw [← hu]; rfl
    have ends : ∀ k, Ends u c k ↔ Ends s c k := fun k => ends_congr (slots k) c
    have arb : u.arb = s.arb := by rw [← hu]; rfl
    refine ⟨?_, fun k free => ?_, fun k x hx stays => ?_, fun k he => ?_, fun none => ?_⟩
    · have moves : (leaveSlots u c).bells = { u.bells with slots := (leaveSlots u c).bells.slots } := leaveSlots_moves u c
      rw [moves, ← hu]
      rfl
    · rw [leaveSlots_stays u c k (not_ends_of_free ((slots k).trans free)), slots, free]
      rfl
    · rw [leaveSlots_stays u c k fun e => stays ((ends k).mp e), slots, hx]
      rfl
    · obtain ⟨free, gone⟩ := leaveSlots_ends u c k ((ends k).mpr he)
      exact ⟨free, gone, fun only => by
        rw [leaveSlots_arb_one k ((ends k).mpr he) fun j hj => only j ((ends j).mp hj), arb]⟩
    · rw [leaveSlots_arb_none fun k e => none k ((ends k).mp e), arb]
  · have idle : (genSet s c Generator.initial).bells.gens[c].state = .idle :=
      congrArg Generator.state ((vector_set_at _ _ _ _).trans (if_pos rfl))
    exact (genRestEnd_rings rest hr flag).trans (takeRequest_idle (s := genSet s c .initial)
      ((bellExists_iff _ _).mpr exists_) idle r).symm

end Sys2Proof.Proofs
end

section
/-! The bell claim of a starting ring (R89), and the notices of the Zone Arbiter taken by their owners (R91, R123,
R168). -/

namespace Sys2Proof.Proofs

open Sys2Proof Sys2Proof.Machine Sys2Proof.Laws

theorem withArb_changes (s : State) (x : Arbiter) : Changes [.arb] s (s.withArb x) := by
  intro f hf
  cases f
  case arb => exact absurd (List.mem_singleton_self _) hf
  all_goals rfl

/-! ## Which slot carries a ring -/

/-- The first that a search through all numbers below n finds is the lowest that satisfies it. -/
theorem find_finRange_lowest {n : Nat} {p : Fin n → Bool} {k : Fin n} (hk : p k = true) (low : ∀ j < k, p j = false) :
    (List.finRange n).find? p = some k :=
  List.find?_eq_some_iff_getElem.mpr ⟨hk, k.val, by simp, by simp, fun j hj => by
    simpa using low ⟨j, hj.trans k.isLt⟩ hj⟩

/-- The slot carries rings of this pattern and campus second (R89). -/
abbrev Carries (x : BellSlot) (pattern second : Nat) : Prop := x.pattern = pattern ∧ x.second = second

theorem matchingSlot_some {b : BellUnit} {k : BellSlotNo} {x : BellSlot} {p n : Nat} (hx : b.slots[k] = some x)
    (h : Carries x p n) (low : ∀ j y, j < k → b.slots[j] = some y → ¬ Carries y p n) : matchingSlot b p n = some k := by
  obtain ⟨hp, hn⟩ := h
  refine find_finRange_lowest ?_ fun j hj => ?_
  · rw [hx]
    simp [hp, hn]
  · split
    · rfl
    · next y hy =>
      rw [← Bool.decide_and]
      exact decide_eq_false (low j y hj hy)

theorem matchingSlot_none {b : BellUnit} {p n : Nat}
    (h : ∀ (k : BellSlotNo) (x : BellSlot), b.slots[k] = some x → ¬ Carries x p n) : matchingSlot b p n = none := by
  refine List.find?_eq_none.mpr fun k _ => ?_
  split
  · exact Bool.false_ne_true
  · next x hx =>
    rw [← Bool.decide_and, decide_eq_true_iff]
    exact h k x hx

theorem freeSlot_some {b : BellUnit} {k : BellSlotNo} (h : b.slots[k] = none) (low : ∀ j, j < k → b.slots[j] ≠ none) :
    freeSlot b = some k :=
  find_finRange_lowest (Option.isNone_iff_eq_none.mpr h) fun j hj =>
    Bool.eq_false_iff.mpr fun e => low j hj (Option.isNone_iff_eq_none.mp e)

theorem freeSlot_none {b : BellUnit} (h : ∀ k : BellSlotNo, b.slots[k] ≠ none) : freeSlot b = none :=
  List.find?_eq_none.mpr fun k _ e => h k (Option.isNone_iff_eq_none.mp e)

/-! ## A claim that the arbiter has answered -/

/-- The claim knows of a zone and of SYN, so that its slot goes on (R91). -/
abbrev Hopeful (known : Vector Known 9) : Prop := knowsZone known = true ∧ knowsSyn known = true

theorem checkBellSlot_hopeful {s : State} {k : BellSlotNo} {x : BellSlot} (hx : s.bells.slots[k] = some x)
    (h : Hopeful x.known) : checkBellSlot s k = s := by
  unfold checkBellSlot
  rw [hx]
  exact if_pos (Bool.and_eq_true_iff.mpr h)

theorem checkBellSlot_lost {s : State} {k : BellSlotNo} {x : BellSlot} (hx : s.bells.slots[k] = some x)
    (h : ¬ Hopeful x.known) : checkBellSlot s k = freeBellSlot s k := by
  unfold checkBellSlot
  rw [hx]
  exact if_neg fun e => h (Bool.and_eq_true_iff.mp e)

/-- The station after the arbiter's answer to a bell claim, with the slot as it stands then. -/
def slotAnswered (s : State) (k : BellSlotNo) (x : BellSlot) (a : Arbiter) : State :=
  withArbiter (s.withBells (setSlot s.bells k (some x))) a

theorem slotAnswered_bells (s : State) (k : BellSlotNo) (x : BellSlot) (a : Arbiter) :
    (slotAnswered s k x a).bells = setSlot s.bells k (some x) := withArbiter_bells _ _

theorem slotAnswered_at (s : State) (k : BellSlotNo) (x : BellSlot) (a : Arbiter) :
    (slotAnswered s k x a).bells.slots[k] = some x := by rw [slotAnswered_bells, slots_setSlot_self]

/-- A claim with SYN and a zone stands, and any other is withdrawn whole, its slot free (R91). -/
theorem slotAnswered_checked (s : State) (k : BellSlotNo) (x : BellSlot) (a : Arbiter) :
    let t := checkBellSlot (slotAnswered s k x a) k
    (Hopeful x.known → t.arb = a ∧ t.bells.slots = s.bells.slots.set k (some x)) ∧
    (¬ Hopeful x.known → t.bells.slots = s.bells.slots.set k none ∧ claimIn t.arb (bellSlot k) = none) := by
  have at_k := slotAnswered_at s k x a
  refine ⟨fun h => ?_, fun h => ?_⟩
  · rw [checkBellSlot_hopeful at_k h, slotAnswered_bells]
    exact ⟨withArbiter_arb _ _, rfl⟩
  · rw [checkBellSlot_lost at_k h, slots_freeBellSlot, slotAnswered_bells]
    exact ⟨congrArg BellUnit.slots (setSlot_setSlot s.bells k (some x) none),
      freeBellSlot_claim (by rw [at_k]; exact Option.some_ne_none x)⟩

theorem joinSlot_known {s : State} {k : BellSlotNo} {x : BellSlot} (hx : s.bells.slots[k] = some x) {z : ZoneNo}
    (hz : z ∈ x.zones) (c : BellNo) :
    joinSlot s k c z = s.withBells (setSlot s.bells k (some { x with members := x.members ++ [c] })) := by
  unfold joinSlot
  rw [hx]
  exact if_pos (List.contains_iff_mem.mpr hz)

theorem joinSlot_asks {s : State} {k : BellSlotNo} {x : BellSlot} (hx : s.bells.slots[k] = some x) {z : ZoneNo}
    (hz : z ∉ x.zones) (c : BellNo) : let a := request s.arb (bellSlot k) (zoneRes z)
    joinSlot s k c z = checkBellSlot (slotAnswered s k { x with
      members := x.members ++ [c]
      zones := x.zones ++ [z]
      known := x.known.set (zoneRes z) (knownFrom a (bellSlot k))[zoneRes z] } a) k := by
  intro a
  unfold joinSlot
  rw [hx]
  exact if_neg fun e => hz (List.contains_iff_mem.mp e)

/-- The claim of a ring that takes a free slot (R89, step 2). -/
def ringClaim (s : State) (k : BellSlotNo) (z : ZoneNo) : Arbiter :=
  makeClaim s.arb s.time.localCount (bellSlot k) .bell .a fun q => decide (q = zoneRes z) || decide (q = synRes)

theorem takeSlot_eq (s : State) (k : BellSlotNo) (c : BellNo) (z : ZoneNo) (p n : Nat) : let a := ringClaim s k z
    takeSlot s k c z p n = checkBellSlot
      (slotAnswered s k ⟨p, n, [c], [z], a.slots[bellSlot k].number, knownFrom a (bellSlot k)⟩ a) k := rfl

/-! ## The ring carried -/

section Carrying

variable {s : State} {c : BellNo} {z : ZoneNo} {p : Nat}

theorem carryTone_joins {k : BellSlotNo} (h : matchingSlot s.bells p (absSecond s.time.campus) = some k) :
    carryTone s c z p = joinSlot s k c z := by
  unfold carryTone
  dsimp only
  rw [h]

theorem carryTone_takes (h : matchingSlot s.bells p (absSecond s.time.campus) = none) {k : BellSlotNo}
    (hk : freeSlot s.bells = some k) : carryTone s c z p = takeSlot s k c z p (absSecond s.time.campus) := by
  unfold carryTone
  dsimp only
  rw [h]
  dsimp only
  rw [hk]

theorem carryTone_lost (h : matchingSlot s.bells p (absSecond s.time.campus) = none) (hk : freeSlot s.bells = none) :
    carryTone s c z p = report s (.toneRingLost c) := by
  unfold carryTone
  dsimp only
  rw [h]
  dsimp only
  rw [hk]

end Carrying

theorem usableZone_tone {img : Image} {c : BellNo} (tone : img.bells[c].kind = .tone)
    (zone : img.bells[c].zone.val < img.zoneCount) : usableZone img c = some img.bells[c].zone :=
  if_pos ⟨tone, decide_eq_true zone⟩

theorem usableZone_unusable {img : Image} {c : BellNo} (zone : img.zoneCount ≤ img.bells[c].zone.val) :
    usableZone img c = none :=
  if_neg fun h => absurd (of_decide_eq_true h.2) (Nat.not_lt.mpr zone)

theorem takeRequest_tone {s : State} {c : BellNo} (tone : s.image.bells[c].kind = .tone)
    (idle : s.bells.gens[c].state = .idle) (r : RingRequest) : takeRequest s c r = ringStart s c r :=
  takeRequest_idle ((bellExists_iff _ _).mpr (by rw [tone]; nofun)) idle r

/-- A ring that starts on a TONE circuit with a usable zone, carried and then reported (R89, R90). -/
theorem toneRing_reports {s : State} {c : BellNo} (tone : s.image.bells[c].kind = .tone)
    (idle : s.bells.gens[c].state = .idle) (zone : s.image.bells[c].zone.val < s.image.zoneCount) (r : RingRequest) :
    takeRequest s c r = reportBells (carryTone (ringOn s c r) c s.image.bells[c].zone r.pattern) := by
  rw [takeRequest_tone tone idle, ringStart_tone (usableZone_tone tone zone)]

theorem toneRing_silent {s : State} {c : BellNo} (tone : s.image.bells[c].kind = .tone)
    (idle : s.bells.gens[c].state = .idle) (zone : s.image.zoneCount ≤ s.image.bells[c].zone.val) (r : RingRequest) :
    takeRequest s c r = ringOn s c r := by
  rw [takeRequest_tone tone idle, ringStart_silent (usableZone_unusable zone)]

/-- What a claim that the arbiter has answered leaves, once the sounding of the claims is reported. -/
theorem answered_reported {s t : State} {k : BellSlotNo} {x : BellSlot} {a : Arbiter}
    (only : SoundsOnly (checkBellSlot (slotAnswered s k x a) k) t) :
    (Hopeful x.known → t.arb.res = a.res ∧ t.arb.notices = a.notices ∧
      t.bells.slots = s.bells.slots.set k (some x)) ∧
    (¬ Hopeful x.known → t.bells.slots = s.bells.slots.set k none ∧ claimIn t.arb (bellSlot k) = none) := by
  obtain ⟨stands, ends⟩ := slotAnswered_checked s k x a
  refine ⟨fun h => ?_, fun h => ?_⟩
  · obtain ⟨arb, slots⟩ := stands h
    rw [only.res, only.notices, only.bells, arb]
    exact ⟨rfl, rfl, slots⟩
  · obtain ⟨slots, free⟩ := ends h
    rw [only.bells]
    exact ⟨slots, only.free _ free⟩

theorem slots_set_none {v : Vector (Option BellSlot) 2} {k : BellSlotNo} (h : v[k] = none) : v.set k none = v := by
  refine Vector.ext fun i hi => ?_
  rw [Vector.getElem_set]
  split
  · next e => subst e; exact h.symm
  · rfl

/-! ## Notices taken -/

section Notices

variable {s : State} {slot : SlotNo} {n : ClaimNotice} {act : State → ClaimNotice → State}

theorem takeNotice_none (h : firstNotice s.arb slot = none) : takeNotice s slot act = s := by
  unfold takeNotice
  rw [h]

theorem takeNotice_dead (h : firstNotice s.arb slot = some n) (dead : noticeLive s.arb n = false) :
    takeNotice s slot act = s.withArb (dropNotice s.arb slot) := by
  unfold takeNotice
  rw [h]
  exact if_neg (by rw [dead]; exact Bool.false_ne_true)

theorem takeNotice_live (h : firstNotice s.arb slot = some n) (live : noticeLive s.arb n = true) :
    takeNotice s slot act = act (s.withArb (dropNotice s.arb slot)) n := by
  unfold takeNotice
  rw [h]
  exact if_pos live

/-- A notice that its owner lets pass, live or not, is taken and nothing else happens. -/
theorem takeNotice_passes (h : firstNotice s.arb slot = some n)
    (passes : act (s.withArb (dropNotice s.arb slot)) n = s.withArb (dropNotice s.arb slot)) :
    takeNotice s slot act = s.withArb (dropNotice s.arb slot) := by
  cases live : noticeLive s.arb n with
  | false => exact takeNotice_dead h live
  | true => rw [takeNotice_live h live, passes]

end Notices

theorem exec_bellClaimNotice {s : State} (ha : Active s) (k : BellSlotNo) : exec (.bellClaimNotice k) s =
    .next (takeNotice s (bellSlot k) fun s n => bellNotice s k n) := exec_whenWorking rfl ha

theorem exec_announceClaimNotice {s : State} (ha : Active s) (i : TablePos) : exec (.announceClaimNotice i) s =
    .next (takeNotice s (annSlot i) fun s n => annNotice s i n) := exec_whenWorking rfl ha

theorem exec_drillClaimNotice {s : State} (ha : Active s) : exec .drillClaimNotice s =
    .next (takeNotice s drillSlot drillClaimNotice) := exec_whenWorking rfl ha

/-! ## A notice to a bell slot -/

theorem bellNotice_free {s : State} {k : BellSlotNo} (h : s.bells.slots[k] = none) (n : ClaimNotice) :
    bellNotice s k n = s := by
  unfold bellNotice
  rw [h]

/-- The slot with what its owner knows after a notice (R123). -/
def noticedSlot (x : BellSlot) (n : ClaimNotice) : BellSlot := { x with known := knownAfter x.known n }

/-- The station with the notice entered in the slot. -/
def slotNoticed (s : State) (k : BellSlotNo) (y : BellSlot) : State := s.withBells (setSlot s.bells k (some y))

theorem slotNoticed_at (s : State) (k : BellSlotNo) (y : BellSlot) : (slotNoticed s k y).bells.slots[k] = some y :=
  slots_setSlot_self _ _ _

theorem bellNotice_used {s : State} {k : BellSlotNo} {x : BellSlot} (h : s.bells.slots[k] = some x) (n : ClaimNotice) :
    bellNotice s k n = reportBell (checkBellSlot (slotNoticed s k (noticedSlot x n)) k) k := by
  unfold bellNotice
  rw [h]
  rfl

/-- A slot that goes on after a notice: its claim sounds as it plays, and no other slot or claim changes (R91, R124). -/
theorem reportBell_noticed (s : State) (k : BellSlotNo) (y : BellSlot) : let t := reportBell (slotNoticed s k y) k
    t.bells = { s.bells with slots := s.bells.slots.set k (some y) } ∧
    (∃ b, (b = true ↔ BellPlays s y) ∧ t.arb = reportSounding s.arb (bellSlot k) y.claimNo b) ∧
    t.synth = (withArbiter s t.arb).synth ∧ BellSounding t k ∧ (BellsSounding s → BellsSounding t) := by
  intro t
  have e : t = withArbiter (slotNoticed s k y)
      (reportSounding s.arb (bellSlot k) y.claimNo (slotSounds (slotNoticed s k y).bells y)) :=
    reportBell_used (slotNoticed_at s k y)
  have bells : t.bells = setSlot s.bells k (some y) := by rw [e, withArbiter_bells]; rfl
  have arb : t.arb = reportSounding s.arb (bellSlot k) y.claimNo (slotSounds (slotNoticed s k y).bells y) := by
    rw [e, withArbiter_arb]
  refine ⟨bells, ⟨_, slotSounds_iff (slotNoticed s k y) y, arb⟩, ?_, reportBell_sounding _ k, fun sounding j => ?_⟩
  · rw [arb, e]
    exact withArbiter_synth s _ _ rfl rfl
  · by_cases hj : k = j
    · exact hj ▸ reportBell_sounding _ k
    · refine bellSounding_congr (s := s) (by rw [bells]; rfl) (by rw [bells, slots_setSlot_other _ hj]) ?_ (sounding j)
      rw [arb, slots_reportSounding_other _ fun same => hj (bellSlot_inj same)]

/-- A slot that ends with a notice: its claim is withdrawn whole (R91). -/
theorem freeBellSlot_noticed (s : State) (k : BellSlotNo) (y : BellSlot) :
    let t := reportBell (freeBellSlot (slotNoticed s k y) k) k
    t.bells = { s.bells with slots := s.bells.slots.set k none } ∧ t.arb = withdrawWhole s.arb (bellSlot k) ∧
    t.synth = (withArbiter s t.arb).synth := by
  intro t
  have free : (freeBellSlot (slotNoticed s k y) k).bells.slots[k] = none := by
    rw [slots_freeBellSlot, vector_set_at, if_pos rfl]
  have e : t = withArbiter ((slotNoticed s k y).withBells (setSlot (slotNoticed s k y).bells k none))
      (withdrawWhole s.arb (bellSlot k)) :=
    (reportBell_free free).trans (freeBellSlot_used (slotNoticed_at s k y))
  have arb : t.arb = withdrawWhole s.arb (bellSlot k) := by rw [e, withArbiter_arb]
  refine ⟨?_, arb, ?_⟩
  · rw [e, withArbiter_bells]
    exact setSlot_setSlot s.bells k (some y) none
  · rw [arb, e]
    exact withArbiter_synth s _ _ rfl rfl

end Sys2Proof.Proofs
end

section
/-! Settles O37: the claim of a starting ring, and the notices taken by the owners of the arbiter's claims. -/

namespace Sys2Proof.Proofs

open Sys2Proof Sys2Proof.Machine Sys2Proof.Laws

/-! ## The claim of a starting ring -/

section Starting

variable {s : State} {c : BellNo} {r : RingRequest} {k : BellSlotNo} {x : BellSlot} {z : ZoneNo}

/-- A ring that joins a slot whose claim has its zone (R89, step 1). -/
theorem reported_join_known (hx : s.bells.slots[k] = some x) (hz : z ∈ x.zones) {t : State}
    (only : SoundsOnly (joinSlot (ringOn s c r) k c z) t) :
    t.arb.res = s.arb.res ∧ t.arb.notices = s.arb.notices ∧
    t.bells.slots = s.bells.slots.set k (some { x with members := x.members ++ [c] }) := by
  rw [joinSlot_known (s := ringOn s c r) hx hz] at only
  rw [only.res, only.notices, only.bells]
  exact ⟨rfl, rfl, rfl⟩

/-- A ring that joins a slot whose claim asks for its zone (R89, step 1). -/
theorem reported_join_asks (hx : s.bells.slots[k] = some x) (hz : z ∉ x.zones) {t : State}
    (only : SoundsOnly (joinSlot (ringOn s c r) k c z) t) :
    let a := request s.arb (bellSlot k) (zoneRes z)
    let known := x.known.set (zoneRes z) (knownFrom a (bellSlot k))[zoneRes z]
    (Hopeful known → t.arb.res = a.res ∧ t.arb.notices = a.notices ∧
      t.bells.slots = s.bells.slots.set k (some { x with
        members := x.members ++ [c]
        zones := x.zones ++ [z]
        known := known })) ∧
    (¬ Hopeful known → t.bells.slots = s.bells.slots.set k none ∧ claimIn t.arb (bellSlot k) = none) := by
  rw [joinSlot_asks (s := ringOn s c r) hx hz] at only
  exact answered_reported only

/-- A ring that takes a free slot (R89, step 2). -/
theorem reported_take (free : s.bells.slots[k] = none) (p n : Nat) {t : State}
    (only : SoundsOnly (takeSlot (ringOn s c r) k c z p n) t) :
    let a := ringClaim s k z
    let known := knownFrom a (bellSlot k)
    (Hopeful known → t.arb.res = a.res ∧ t.arb.notices = a.notices ∧
      t.bells.slots = s.bells.slots.set k (some ⟨p, n, [c], [z], a.slots[bellSlot k].number, known⟩)) ∧
    (¬ Hopeful known → t.bells.slots = s.bells.slots ∧ claimIn t.arb (bellSlot k) = none) := by
  rw [takeSlot_eq] at only
  obtain ⟨stands, ends⟩ := answered_reported only
  refine ⟨stands, fun h => ?_⟩
  obtain ⟨slots, gone⟩ := ends h
  exact ⟨slots.trans (slots_set_none free), gone⟩

end Starting

/-- The claims of the other slots and the record of a lost ring, by the slot that a ring on a usable zone finds. -/
theorem toneRing_carried {s : State} {c : BellNo} {r : RingRequest} (tone : s.image.bells[c].kind = .tone)
    (idle : s.bells.gens[c].state = .idle) (zone : s.image.bells[c].zone.val < s.image.zoneCount) :
    let z := s.image.bells[c].zone
    let t := takeRequest s c r
    let second := absSecond s.time.campus
    BellsSounding t ∧
    (∀ (k : BellSlotNo) (x : BellSlot), s.bells.slots[k] = some x → Carries x r.pattern second →
      (∀ j y, j < k → s.bells.slots[j] = some y → ¬ Carries y r.pattern second) →
      t.faults = s.faults ∧ SoundsOnly (joinSlot (ringOn s c r) k c z) t) ∧
    ((∀ (k : BellSlotNo) (x : BellSlot), s.bells.slots[k] = some x → ¬ Carries x r.pattern second) →
      (∀ k : BellSlotNo, s.bells.slots[k] = none → (∀ j, j < k → s.bells.slots[j] ≠ none) →
        t.faults = s.faults ∧ SoundsOnly (takeSlot (ringOn s c r) k c z r.pattern second) t) ∧
      ((∀ k : BellSlotNo, s.bells.slots[k] ≠ none) → SoundsOnly (report (ringOn s c r) (.toneRingLost c)) t)) := by
  intro z t second
  have reports : t = reportBells (carryTone (ringOn s c r) c z r.pattern) := toneRing_reports tone idle zone r
  have only := reportBells_only (carryTone (ringOn s c r) c z r.pattern)
  rw [← reports] at only
  refine ⟨by rw [reports]; exact reportBells_sounding _, fun k x hx carries low => ?_, fun none =>
    ⟨fun k free low => ?_, fun used => ?_⟩⟩
  · rw [carryTone_joins (s := ringOn s c r) (matchingSlot_some hx carries low)] at only
    exact ⟨only.faults.trans ((joinSlot_ev (ringOn s c r) k c z).same .faults (by decide)), only⟩
  · rw [carryTone_takes (s := ringOn s c r) (matchingSlot_none none) (freeSlot_some free low)] at only
    exact ⟨only.faults.trans ((takeSlot_ev (ringOn s c r) k c z _ _).same .faults (by decide)), only⟩
  · rw [carryTone_lost (s := ringOn s c r) (matchingSlot_none none) (freeSlot_none used)] at only
    exact only

/-! ## A notice to a bell slot -/

theorem knownAfter_eq (k : Vector Known 9) (n : ClaimNotice) : knownAfter k n = k.set n.res
    (if n.kind = .granted then (if k[n.res] = .waits then .holds else k[n.res]) else .nothing) := by
  unfold knownAfter
  cases n.kind <;> rfl

theorem noticedSlot_eq (x : BellSlot) (n : ClaimNotice) : noticedSlot x n = { x with
    known := x.known.set n.res (if n.kind = .granted then
      (if x.known[n.res] = .waits then .holds else x.known[n.res]) else .nothing) } := by
  rw [noticedSlot, knownAfter_eq]

/-- A live notice to a slot in use is taken: the slot goes on or its claim ends (R91, R123). -/
theorem bellNotice_taken {s : State} {k : BellSlotNo} {x : BellSlot} (hx : s.bells.slots[k] = some x) (n : ClaimNotice) :
    let d := dropNotice s.arb (bellSlot k)
    let t := bellNotice (s.withArb d) k n
    let y := noticedSlot x n
    t.synth = (withArbiter s t.arb).synth ∧
    (Hopeful y.known → t.bells = { s.bells with slots := s.bells.slots.set k (some y) } ∧
      (∃ b, (b = true ↔ BellPlays s y) ∧ t.arb = reportSounding d (bellSlot k) x.claimNo b) ∧
      BellSounding t k ∧ (BellsSounding s → BellsSounding t)) ∧
    (¬ Hopeful y.known → t.bells = { s.bells with slots := s.bells.slots.set k none } ∧
      t.arb = withdrawWhole d (bellSlot k) ∧ claimIn t.arb (bellSlot k) = none) := by
  intro d t y
  have at_k := slotNoticed_at (s.withArb d) k y
  have used : t = reportBell (checkBellSlot (slotNoticed (s.withArb d) k y) k) k :=
    bellNotice_used (s := s.withArb d) hx n
  have synth (h : t.synth = (withArbiter (s.withArb d) t.arb).synth) : t.synth = (withArbiter s t.arb).synth :=
    h.trans (withArbiter_synth s _ _ rfl rfl)
  by_cases h : Hopeful y.known
  · rw [checkBellSlot_hopeful at_k h] at used
    obtain ⟨bells, arb, follows, sounding, others⟩ := reportBell_noticed (s.withArb d) k y
    rw [← used] at bells arb follows sounding others
    exact ⟨synth follows, fun _ => ⟨bells, arb, sounding, others⟩, fun k => absurd h k⟩
  · rw [checkBellSlot_lost at_k h] at used
    obtain ⟨bells, arb, follows⟩ := freeBellSlot_noticed (s.withArb d) k y
    rw [← used] at bells arb follows
    refine ⟨synth follows, fun k => absurd k h, fun _ => ⟨bells, arb, ?_⟩⟩
    rw [arb]
    exact withdrawWhole_free _ _

/-! ## A notice to the drill slot -/

theorem drillClaimNotice_passes {s : State} {n : ClaimNotice}
    (h : n.res ≠ synRes ∨ n.kind = .granted ∨ allClearHeld s.arb = false) : drillClaimNotice s n = s := by
  refine if_neg fun ⟨res, kind, held⟩ => ?_
  obtain other | granted | none := h
  · exact other res
  · exact kind granted
  · rw [none] at held
    cases held

theorem drillClaimNotice_ends {s : State} {n : ClaimNotice} (res : n.res = synRes) (kind : n.kind ≠ .granted)
    (held : allClearHeld s.arb = true) : drillClaimNotice s n = dropDrillClaim s := if_pos ⟨res, kind, held⟩

/-- Settles O37: the slot that a starting ring finds, then each owner's notice by whether it is live. -/
theorem takenNoticesOfTheArbiter : Obligations.TakenNoticesOfTheArbiter := by
  refine ⟨fun s c r tone idle => ⟨?_, (takeRequest_ev s c r).same, fun unusable => ?_, fun zone => ?_⟩, fun s ha =>
    ⟨fun k => ⟨fun none => ?_, fun n hn => ⟨fun dead => ?_, fun free => ?_, fun x live hx => ?_⟩⟩,
      fun i => ⟨fun none => ?_, fun n hn dead => ?_⟩, fun none => ?_, fun n hn => ⟨fun passes => ?_, fun live res kind held => ?_⟩⟩⟩
  · rw [takeRequest_tone tone idle, gens_ringStart, vector_set_at, if_pos rfl]
    rfl
  · rw [toneRing_silent tone idle unusable]
    exact ⟨rfl, rfl, rfl⟩
  · obtain ⟨sounding, joins, takes⟩ := toneRing_carried (r := r) tone idle zone
    refine ⟨sounding, fun k x hx carries low => ?_, fun none => ⟨fun k free low => ?_, fun used => ?_⟩⟩
    · obtain ⟨faults, only⟩ := joins k x hx carries low
      exact ⟨faults, fun hz => reported_join_known hx hz only, fun hz => reported_join_asks hx hz only⟩
    · obtain ⟨faults, only⟩ := (takes none).1 k free low
      exact ⟨faults, reported_take free _ _ only⟩
    · have only := (takes none).2 used
      rw [only.bells, only.res, only.notices, only.faults]
      exact ⟨rfl, rfl, rfl, rfl⟩
  · rw [exec_bellClaimNotice ha, takeNotice_none none]
  · rw [exec_bellClaimNotice ha, takeNotice_dead hn dead]
  · have passes := bellNotice_free (s := s.withArb (dropNotice s.arb (bellSlot k))) free n
    rw [exec_bellClaimNotice ha, takeNotice_passes hn passes]
  · obtain ⟨synth, goes, ends⟩ := bellNotice_taken hx n
    rw [noticedSlot_eq] at goes ends
    refine ⟨_, by rw [exec_bellClaimNotice ha, takeNotice_live hn live], ?_, synth, goes, ends⟩
    exact changes_trans (changes_mono (withArb_changes s _)) (bellNotice_ev _ k n).same
  · rw [exec_announceClaimNotice ha, takeNotice_none none]
  · rw [exec_announceClaimNotice ha, takeNotice_dead hn dead]
  · rw [exec_drillClaimNotice ha, takeNotice_none none]
  · rw [exec_drillClaimNotice ha]
    obtain dead | passes := passes
    · rw [takeNotice_dead hn dead]
    · rw [takeNotice_passes hn (drillClaimNotice_passes passes)]
  · have ends := drillClaimNotice_ends (s := s.withArb (dropNotice s.arb drillSlot)) res kind held
    refine ⟨_, by rw [exec_drillClaimNotice ha, takeNotice_live hn live, ends], ?_⟩
    have arb := dropDrillClaim_arb (s.withArb (dropNotice s.arb drillSlot))
    refine ⟨arb, ?_, ?_, changes_trans (changes_mono (withArb_changes s _)) (dropDrillClaim_ev _).same⟩
    · rw [arb]
      exact withdrawWhole_free _ _
    · rw [arb]
      exact withArbiter_synth s _ _ rfl rfl

end Sys2Proof.Proofs
end

section
/-! A scheduled entry that fires (R84), and the effective kind of a reading (R53, R55, R57). -/

namespace Sys2Proof.Proofs

open Sys2Proof Sys2Proof.Machine Sys2Proof.Laws

/-! ## The effective kind -/

theorem foldl_max_eq {m : Nat} (l : List Nat) (c : Nat) (mem : m ∈ c :: l) (top : ∀ x ∈ c :: l, x ≤ m) :
    l.foldl max c = m := by
  induction l generalizing c with
  | nil => exact (List.mem_singleton.mp mem).symm
  | cons d l ih =>
    have hc : c ≤ m := top c (by simp)
    have hd : d ≤ m := top d (by simp)
    refine ih (max c d) ?_ fun x hx => ?_
    · obtain rfl | rfl | rest : m = c ∨ m = d ∨ m ∈ l := by simpa using mem
      · rw [max_eq_left hd]
        exact List.mem_cons_self
      · rw [max_eq_right hc]
        exact List.mem_cons_self
      · exact List.mem_cons_of_mem _ rest
    · obtain rfl | rest := List.mem_cons.mp hx
      · exact max_le hc hd
      · exact top x (by simp [rest])

theorem periodOf_periodCode (k : PeriodKind) : periodOf (periodCode k) = some k := by
  cases k <;> rfl

theorem highestKind_eq {l : List Nat} {k : PeriodKind} (mem : periodCode k ∈ l) (top : ∀ x ∈ l, x ≤ periodCode k) :
    highestKind l = some k := by
  cases l with
  | nil => cases mem
  | cons c l =>
    show periodOf (l.foldl max c) = some k
    rw [foldl_max_eq l c mem top, periodOf_periodCode]

theorem mem_covering (spans : List Span) (m x : Nat) : x ∈ covering spans m ↔ ∃ o ∈ spans, Covers o m ∧ o.kind = x := by
  simp only [covering, List.mem_map, List.mem_filter, Bool.and_eq_true, decide_eq_true_eq, Covers, and_assoc]

theorem covering_highest {spans : List Span} {m : Nat} {k : PeriodKind} (h : HighestOf spans m k) :
    highestKind (covering spans m) = some k := by
  obtain ⟨some, top⟩ := h
  refine highestKind_eq ((mem_covering _ _ _).mpr some) fun x hx => ?_
  obtain ⟨o, ho, covers, rfl⟩ := (mem_covering _ _ _).mp hx
  exact top o ho covers

theorem covering_none {spans : List Span} {m : Nat} (h : ∀ o ∈ spans, ¬ Covers o m) :
    highestKind (covering spans m) = none := by
  have empty : covering spans m = [] := List.eq_nil_iff_forall_not_mem.mpr fun x hx =>
    have ⟨o, ho, covers, _⟩ := (mem_covering _ _ _).mp hx
    h o ho covers
  rw [empty]
  rfl

theorem effectiveKindIn_override {c : PlanContent} {t : CampusTime} {k : PeriodKind}
    (h : HighestOf c.overrides (absMinute t) k) : effectiveKindIn c t = k := by
  unfold effectiveKindIn
  rw [covering_highest h]

section Unruled

variable {c : PlanContent} {t : CampusTime} (free : ∀ o ∈ c.overrides, ¬ Covers o (absMinute t))
include free

theorem effectiveKindIn_closed (none : c.programs[programOfDay c t.day]? = none) : effectiveKindIn c t = .closed := by
  unfold effectiveKindIn
  rw [covering_none free]
  dsimp only
  rw [none]

theorem effectiveKindIn_range {q : Program} (hq : c.programs[programOfDay c t.day]? = some q) {k : PeriodKind}
    (h : HighestOf q.ranges (minuteOfDay t) k) : effectiveKindIn c t = k := by
  unfold effectiveKindIn
  rw [covering_none free]
  dsimp only
  rw [hq]
  dsimp only
  rw [covering_highest h]

theorem effectiveKindIn_default {q : Program} (hq : c.programs[programOfDay c t.day]? = some q)
    (h : ∀ o ∈ q.ranges, ¬ Covers o (minuteOfDay t)) {k : PeriodKind} (hk : q.default = periodCode k) :
    effectiveKindIn c t = k := by
  unfold effectiveKindIn
  rw [covering_none free]
  dsimp only
  rw [hq]
  dsimp only
  rw [covering_none h, hk]
  dsimp only
  rw [periodOf_periodCode]
  rfl

end Unruled

/-- A day's program is its exception's, and without an exception its weekday's (R53). -/
theorem programOfDay_eq {c : PlanContent} {d : BitVec 16} {n : Nat} (h : DayProgram c d.toNat n) :
    programOfDay c d = n := by
  unfold programOfDay
  obtain ⟨mem, nodup⟩ | ⟨none, weekly⟩ := h
  · cases found : c.exceptions.find? fun e => decide (e.1 = d.toNat) with
    | none => exact absurd rfl (of_decide_eq_false (Bool.eq_false_iff.mpr (List.find?_eq_none.mp found _ mem)))
    | some e =>
      have day : e.1 = d.toNat := by simpa using List.find?_some found
      have same : e = (d.toNat, n) :=
        List.inj_on_of_nodup_map nodup (List.mem_of_find?_eq_some found) mem day
      exact congrArg Prod.snd same
  · rw [List.find?_eq_none.mpr fun e he => by simpa using none e he]
    show ((c.weekdays.head?).bind (·[d.toNat % 7]?)).getD 4 = n
    rw [weekly]
    rfl

/-- A plan has four programs, so that NONE names none of them (R59). -/
theorem programs_of_content {l : List (List Byte)} {c : PlanContent} (h : contentOf l = some c) : c.programs.length = 4 := by
  obtain ⟨_, _, _, _, _, _, _, _, _, four, _⟩ := (contentOf_eq_some_iff l c).mp h
  exact four

theorem effectiveKind_unruled {p : PlanUnit} {r : Reading} (h : r.valid = false ∨ p.active = none) :
    effectiveKind p r = .teaching := by
  unfold effectiveKind planContent
  obtain invalid | none := h
  · rw [invalid]
    rfl
  · rw [none]
    split <;> rfl

theorem effectiveKind_content {p : PlanUnit} {r : Reading} (valid : r.valid = true) {a : ActivePlan}
    (active : p.active = some a) {c : PlanContent} (content : contentOf a.frags = some c) :
    effectiveKind p r = effectiveKindIn c r.time := by
  have held : planContent p = some c := by
    unfold planContent
    rw [active]
    exact content
  unfold effectiveKind
  rw [if_pos valid, held]

/-! ## The four checks -/

theorem addressed_iff (s : State) (m : BuildingMask) : addressed s m = true ↔ m.getLsbD s.start.station.val = true :=
  Iff.rfl

/-- The kind of an entry's own second keeps it silent, unless its ALWAYS flag is set (R84). -/
def Quieted (s : State) (e : Scheduled) : Prop :=
  let k := effectiveKind s.plan ⟨⟨e.day, e.entry.second * 1000⟩, true⟩
  (k = .quiet ∨ k = .closed) ∧ e.entry.always = false

theorem quieted_iff (s : State) (e : Scheduled) :
    (quietKind (effectiveKind s.plan ⟨secondTime e.day e.entry.second, true⟩) && !e.entry.always) = true ↔
      Quieted s e := by
  rw [Bool.and_eq_true, Bool.not_eq_true', quietKind, Bool.or_eq_true, decide_eq_true_iff, decide_eq_true_iff]
  rfl

theorem fireEntry_skips {s : State} {e : Scheduled} (h : e.entry.buildings.getLsbD s.start.station.val = false) :
    fireEntry s e = s := if_neg (by rw [addressed_iff, h]; exact Bool.false_ne_true)

section Addressed

variable {s : State} {e : Scheduled} (here : e.entry.buildings.getLsbD s.start.station.val = true)
include here

theorem fireEntry_drill (flag : s.bells.drillFlag = true) : fireEntry s e =
    s.withBells { s.bells with drillCount := min 65535 (s.bells.drillCount + 1) } := by
  unfold fireEntry
  rw [if_pos ((addressed_iff _ _).mpr here), if_pos flag]
  rfl

theorem fireEntry_quiet (flag : s.bells.drillFlag = false) (quiet : Quieted s e) : fireEntry s e =
    s.withBells { s.bells with quietCount := min 65535 (s.bells.quietCount + 1) } := by
  unfold fireEntry
  rw [if_pos ((addressed_iff _ _).mpr here), if_neg (by rw [flag]; exact Bool.false_ne_true),
    if_pos ((quieted_iff s e).mpr quiet)]
  rfl

theorem fireEntry_rings (flag : s.bells.drillFlag = false) (loud : ¬ Quieted s e) {a : ActivePlan}
    (active : s.plan.active = some a) : fireEntry s e = giveRequests s (circuitsOf e.entry.circuits)
      ⟨e.entry.pattern, .scheduled a.key e.program e.index (scheduledSecond e)⟩ := by
  unfold fireEntry
  rw [if_pos ((addressed_iff _ _).mpr here), if_neg (by rw [flag]; exact Bool.false_ne_true), 
    if_neg fun k => loud ((quieted_iff s e).mp k), active]

end Addressed

/-- Settles O34: the four checks in their order, and the effective kind by its precedence. -/
theorem aScheduledEntryFires : Obligations.AScheduledEntryFires := by
  refine ⟨fun s e => ⟨fireEntry_skips, fun here => ⟨fireEntry_drill here, fun flag quiet always =>
    fireEntry_quiet here flag ⟨quiet, always⟩, fun flag loud a active => fireEntry_rings here flag loud active⟩⟩,
    fun p r => ⟨effectiveKind_unruled, fun a c valid active content => ?_⟩⟩
  dsimp only
  rw [effectiveKind_content valid active content]
  refine ⟨fun k => effectiveKindIn_override, fun free n day => ?_⟩
  have program := programOfDay_eq day
  refine ⟨fun none => effectiveKindIn_closed free ?_, fun q hq => ⟨fun k => ?_, fun bare k hk => ?_⟩⟩
  · rw [program, none, List.getElem?_eq_none_iff, programs_of_content content]
  · exact effectiveKindIn_range free (program ▸ hq)
  · exact effectiveKindIn_default free (program ▸ hq) bare hk

end Sys2Proof.Proofs
end

section
/-! The scheduler (R82 to R86): second boundaries, steps of campus time, and SET TIME. -/

namespace Sys2Proof.Proofs

open Sys2Proof Sys2Proof.Machine Sys2Proof.Laws

/-! ## The day of program -/

section Day

variable {b : BellUnit} {p : PlanUnit} {d : BitVec 16}

theorem takeDay_day : (takeDay b p d).dayOfProgram = some d := by
  unfold takeDay
  split
  · next h => exact h
  · rfl

theorem takeDay_same (h : b.dayOfProgram = some d) : takeDay b p d = b := if_pos h

theorem takeDay_other (h : b.dayOfProgram ≠ some d) : (takeDay b p d).today = programQuery p d ∧
    (takeDay b p d).drillCount = 0 ∧ (takeDay b p d).quietCount = 0 := by
  rw [takeDay, if_neg h]
  exact ⟨rfl, rfl, rfl⟩

theorem takeDay_gens : (takeDay b p d).gens = b.gens := by
  unfold takeDay
  split <;> rfl

end Day

/-! ## The entries between two seconds -/

theorem dayOfSecond_absSecond {t : CampusTime} (h : t.ms < 86400000) : dayOfSecond (absSecond t) = t.day := by
  have day : absSecond t / 86400 = t.day.toNat := by
    unfold absSecond
    omega
  rw [dayOfSecond, day, BitVec.ofNat_toNat, BitVec.setWidth_eq]

/-- The entry lies in the interval of a pass: later than its low end, and not later than its high end (R83). -/
def inInterval (lo hi : Nat) (e : Scheduled) : Bool :=
  secondLater (scheduledSecond e) lo && !secondLater (scheduledSecond e) hi

theorem entriesBetween_days (b : BellUnit) (p : PlanUnit) {lo hi k : Nat} (hk : k < 65536)
    (h : dayOfSecond hi = dayOfSecond lo + BitVec.ofNat 16 k) : entriesBetween b p lo hi =
      (List.range (k + 1)).flatMap fun j =>
        (dayEntries b p (dayOfSecond lo + BitVec.ofNat 16 j)).filter (inInterval lo hi) := by
  have days : (dayOfSecond hi - dayOfSecond lo).toNat = k := by
    rw [h, BitVec.add_comm, BitVec.add_sub_cancel, BitVec.toNat_ofNat, Nat.mod_eq_of_lt hk]
  unfold entriesBetween
  dsimp only
  rw [days, List.filter_flatMap]
  rfl

theorem entriesBetween_sameDay (b : BellUnit) (p : PlanUnit) {lo hi : Nat} (h : dayOfSecond hi = dayOfSecond lo) :
    entriesBetween b p lo hi = (dayEntries b p (dayOfSecond lo)).filter (inInterval lo hi) := by
  rw [entriesBetween_days b p (k := 0) (by decide) (by rw [h]; simp)]
  simp

theorem entriesBetween_midnight (b : BellUnit) (p : PlanUnit) {lo hi : Nat} (h : dayOfSecond hi = dayOfSecond lo + 1) :
    entriesBetween b p lo hi = (dayEntries b p (dayOfSecond lo)).filter (inInterval lo hi) ++
      (dayEntries b p (dayOfSecond hi)).filter (inInterval lo hi) := by
  rw [entriesBetween_days b p (k := 1) (by decide) h, h]
  simp [List.range_succ]

theorem dayEntries_day {b : BellUnit} {p : PlanUnit} {d : BitVec 16} {e : Scheduled} (h : e ∈ dayEntries b p d) :
    e.day = d := by
  unfold dayEntries at h
  split at h
  · cases h
  · obtain ⟨x, _, rfl⟩ := List.mem_map.mp h
    rfl

theorem mem_entriesBetween {b : BellUnit} {p : PlanUnit} {lo hi : Nat} {e : Scheduled} (h : e ∈ entriesBetween b p lo hi) :
    secondLater (scheduledSecond e) lo = true ∧ secondLater (scheduledSecond e) hi = false ∧
      e ∈ dayEntries b p e.day := by
  obtain ⟨mem, inside⟩ := List.mem_filter.mp h
  obtain ⟨later, notLater⟩ := Bool.and_eq_true_iff.mp inside
  obtain ⟨k, _, hk⟩ := List.mem_flatMap.mp mem
  exact ⟨later, by simpa using notLater, dayEntries_day hk ▸ hk⟩

/-! ## A second boundary -/

theorem secondReading_due {s : State} {r : Reading} (h : s.time.secondDue = some r) : secondReading s = r := by
  unfold secondReading
  rw [h]
  rfl

theorem active_of_running {s : State} (h : Running s) : Active s := by
  refine ⟨h.1, ?_⟩
  have run : s.start.opState = .run := of_decide_eq_true h.2
  simp [working, run]

theorem exec_secondBoundary {s : State} (h : Running s) {r : Reading} (hr : s.time.secondDue = some r) :
    exec .secondBoundary s = .next (bellSecond (clearSecond s) r) := by
  rw [exec_whenWorking (t := bellSecond (clearSecond s) (secondReading s)) rfl (active_of_running h),
    secondReading_due hr]

section Boundary

variable {s : State} {r : Reading}

theorem bellSecond_invalid (h : r.valid = false) : bellSecond s r = s :=
  if_neg (by rw [h, Bool.and_false]; exact Bool.false_ne_true)

theorem bellSecond_unset (run : inRun s = true) (valid : r.valid = true) (hm : s.bells.hwm = none) :
    bellSecond s r = schedulerDay s r.time.day := by
  have mark := (schedulerDay_hwm s r.time.day).trans hm
  unfold bellSecond
  rw [if_pos (Bool.and_eq_true_iff.mpr ⟨run, valid⟩)]
  dsimp only
  rw [mark]

theorem bellSecond_set (run : inRun s = true) (valid : r.valid = true) {h : Nat} (hm : s.bells.hwm = some h) :
    bellSecond s r = if secondLater (absSecond r.time) h then
      fireUpTo (schedulerDay s r.time.day) h (absSecond r.time) else schedulerDay s r.time.day := by
  have mark := (schedulerDay_hwm s r.time.day).trans hm
  unfold bellSecond
  rw [if_pos (Bool.and_eq_true_iff.mpr ⟨run, valid⟩)]
  dsimp only
  rw [mark]

end Boundary

/-- Settles O35: the day of program, the mark, and the entries between the mark and the reading's second. -/
theorem theSchedulerFiresOnceForEachSecond : Obligations.TheSchedulerFiresOnceForEachSecond := by
  intro s r run due inDay
  have day : dayOfSecond (absSecond r.time) = r.time.day := dayOfSecond_absSecond inDay
  rw [exec_secondBoundary run due]
  refine ⟨fun invalid => ?_, fun valid => ⟨takeDay_day, fun same => ?_, takeDay_other, fun unset => ?_, fun h set =>
    ⟨fun past => ?_, fun later => ⟨?_, fun e => mem_entriesBetween, fun sameDay => ?_, fun midnight => ?_,
      fun k hk days => ?_⟩⟩, fun b d => rfl⟩⟩
  · rw [bellSecond_invalid invalid]
    rfl
  · rw [takeDay_same same]
    rfl
  · rw [bellSecond_unset (s := clearSecond s) run.2 valid unset]
    rfl
  · rw [bellSecond_set (s := clearSecond s) run.2 valid set]
    exact congrArg Host.Outcome.next (if_neg (ne_true_of_eq_false past))
  · rw [bellSecond_set (s := clearSecond s) run.2 valid set]
    exact congrArg Host.Outcome.next (if_pos later)
  · exact entriesBetween_sameDay _ _ (day.trans sameDay)
  · have next := entriesBetween_midnight (takeDay s.bells s.plan r.time.day) s.plan (day.trans midnight)
    rw [day] at next
    exact next
  · exact entriesBetween_days _ _ hk (day.trans days)

/-! ## A step notice -/

section Step

variable {s : State} {old new : CampusTime}

theorem bellStep_ignored (h : inRun s = false ∨ s.bells.hwm = none) : bellStep s old new = s := by
  unfold bellStep
  obtain idle | unset := h
  · rw [idle]
    rfl
  · split
    · rw [unset]
    · rfl

theorem bellStep_set (run : inRun s = true) {h : Nat} (hm : s.bells.hwm = some h) : bellStep s old new =
    if 0 < campusDiff new old ∧ secondLater (absSecond new) h then
      if campusDiff new old ≤ 120000 then fireUpTo (schedulerDay s new.day) h (absSecond new)
      else skipUpTo (schedulerDay s new.day) h (absSecond new)
    else schedulerDay s new.day := by
  unfold bellStep
  rw [if_pos run, hm]

end Step

/-- The step notice that a step of campus time gives the Bell Unit is taken in this state (R17, log 13). -/
theorem stepBy_bells (s : State) {c : Int} (hc : c ≠ 0) : ∃ u : State, u.bells = s.bells ∧ u.plan = s.plan ∧
    u.arb = s.arb ∧ u.start = s.start ∧ u.image = s.image ∧ u.time.campus = campusAdd s.time.campus c ∧
    u.time.localCount = s.time.localCount ∧
    (stepBy s c).bells = (bellStep u s.time.campus (campusAdd s.time.campus c)).bells := by
  refine ⟨(s.withTime (steppedTime s.time c)).withLine (stepRoster s.line), rfl, rfl, rfl, rfl, rfl, rfl, rfl, ?_⟩
  rw [stepBy_eq s c hc]
  generalize bellStep ((s.withTime (steppedTime s.time c)).withLine (stepRoster s.line)) _ _ = w
  exact ((((clockAll_ev w _).mono (fs := [.clocks, .ann, .arb, .synth, .faults])).then (annStep_ev _ _)).then
    (report_ev _ _)).then (raise_ev _ _) |>.same .bells (by decide)

theorem campusDiff_ne_zero {s t : CampusTime} (hs : s.ms < 86400000) (ht : t.ms < 86400000) (h : t ≠ s) :
    campusDiff t s ≠ 0 := by
  intro zero
  have back := campusAdd_campusDiff s ht
  rw [zero, campusAdd_zero hs] at back
  exact h back.symm

/-- SET TIME at a station whose time is valid steps campus time, and the Bell Unit takes that step alone (R24). -/
theorem setTime_bells {s : State} {t : CampusTime} (ht : t.ms ≤ 86399999) (hq : s.time.quality ≠ .unset) :
    (answered (setTimeTake t s).1 (setTimeTake t s).2).bells =
      (stepBy (s.withTime { s.time with setCopies := none }) (campusDiff t s.time.campus)).bells := by
  rw [setTimeTake, if_neg (by omega), if_neg hq, makeSet_eq]
  exact setOffered_changes s _ _ .bells (by decide)

/-- Settles O36: the notice by the direction and length of the step, and the steps that give it. -/
theorem stepsOfTimeAndTheScheduler : Obligations.StepsOfTimeAndTheScheduler := by
  refine ⟨fun s old new => bellStep_ignored, fun s old new h mark run => ⟨takeDay_day, takeDay_gens,
    (takeDay_hwm _ _ _).trans mark, fun same => ?_, takeDay_other, fun back => ?_, fun forward later =>
      ⟨fun short => ?_, fun long => ?_⟩⟩, fun s c hc => stepBy_bells s hc, fun s t ha ok ht hq moved => ?_⟩
  · rw [takeDay_same same]
    rfl
  · rw [bellStep_set run mark, if_neg]
    · rfl
    · rintro ⟨forward, later⟩
      obtain back | past := back
      · omega
      · exact absurd later (ne_true_of_eq_false past)
  · rw [bellStep_set run mark, if_pos ⟨forward, later⟩, if_pos short]
    rfl
  · rw [bellStep_set run mark, if_pos ⟨forward, later⟩, if_neg (by omega)]
    rfl
  · have day : s.time.campus.ms < 86400000 := ok.1
    have inDay : t.ms < 86400000 := by omega
    obtain ⟨u, bells, plan, arb, start, image, campus, count, steps⟩ :=
      stepBy_bells (s.withTime { s.time with setCopies := none }) (campusDiff_ne_zero day inDay moved)
    have there : campusAdd s.time.campus (campusDiff t s.time.campus) = t := campusAdd_campusDiff s.time.campus inDay
    refine ⟨u, _, bells, plan, arb, start, image, campus.trans there, count, exec_setTime ha t, ?_⟩
    rw [setTime_bells ht hq, steps]
    exact congrArg (fun x => (bellStep u s.time.campus x).bells) there

end Sys2Proof.Proofs
end

section
/-! The outputs (R77, R94, R100, R108, R125 to R127, R184): what each follows from. -/

namespace Sys2Proof.Proofs

open Sys2Proof Sys2Proof.Machine Sys2Proof.Laws

/-! ## Bells and clock drives -/

theorem bellOutput_iff (s : State) (c : BellNo) : bellOutput s c = true ↔
    alive s = true ∧ s.image.bells[c].kind = .relay ∧ ((s.start.opState = .run ∧ ∃ i, s.bells.gens[c].state = .on i) ∨
      (working s = true ∧ s.bells.gens[c].state = .evac ∧ s.bells.evacPhase % 2 = 0)) := by
  unfold bellOutput
  rw [Bool.and_eq_true, Bool.and_eq_true, decide_eq_true_iff, and_assoc]
  refine and_congr_right fun _ => and_congr_right fun _ => ?_
  cases s.bells.gens[c].state with
  | on i => simp [inRun]
  | evac => simp
  | idle | off i | rest => simp

theorem impulseDrive_iff (s : State) (c : ClockNo) (p : Polarity) : impulseDrive s c = some p ↔
    Running s ∧ s.image.clocks[c].kind = .impulse ∧ s.clocks[c].impulse.cycle = .impulse ∧
      s.clocks[c].impulse.polarity = p := by
  unfold impulseDrive clockKind
  simp [and_assoc]

theorem codeDrive_iff (s : State) (c : ClockNo) (b : Bool) : let x := s.clocks[c].coded
    let n := 12 * x.frameTicks / 625
    codeDrive s c = some b ↔ Running s ∧ s.image.clocks[c].kind = .coded ∧ x.sending = true ∧
      ∃ byte, x.frame[n / 10]? = some byte ∧
        b = if n % 10 = 0 then false else if n % 10 = 9 then true else byte.getLsbD (n % 10 - 1) := by
  intro x n
  have now : codeBitNow x.frameTicks = n := by rw [codeBitNow, Nat.mul_comm]
  have bit : (codeBits x.frame)[codeBitNow x.frameTicks]? = some b ↔ ∃ byte, x.frame[n / 10]? = some byte ∧
      b = if n % 10 = 0 then false else if n % 10 = 9 then true else byte.getLsbD (n % 10 - 1) := by
    rw [now, codeBits_get, Option.map_eq_some_iff]
    exact exists_congr fun byte => and_congr_right fun _ => eq_comm
  rw [← bit]
  unfold codeDrive clockKind
  simp [x, and_assoc]

/-! ## Zones -/

theorem gatesFor_iff (op : OpState) (slot : SlotNo) :
    gatesFor op slot = true ↔ op = .run ∨ (op = .join ∧ slot = drillSlot) := by
  cases op <;> simp [gatesFor]

theorem soundsOut_iff (a : Arbiter) (slot : SlotNo) : soundsOut a slot = true ↔
    ∃ c, claimIn a slot = some c ∧ c.sounding = true ∧ (c.bus = .b ∨ c.status[synRes] = .holding) := by
  unfold soundsOut
  cases claimIn a slot <;> simp

theorem zoneGate_iff (s : State) (z : ZoneNo) : zoneGate s z = true ↔ z.val < s.image.zoneCount ∧ alive s = true ∧
    ∃ h c, s.arb.res[zoneRes z].holder = some h ∧ claimIn s.arb h = some c ∧ c.sounding = true ∧
      (c.bus = .b ∨ c.status[synRes] = .holding) ∧
      (s.start.opState = .run ∨ (s.start.opState = .join ∧ h = drillSlot)) := by
  unfold zoneGate zoneExists
  rw [Bool.and_eq_true, Bool.and_eq_true, decide_eq_true_iff, and_assoc]
  refine and_congr_right fun _ => and_congr_right fun _ => ?_
  cases s.arb.res[zoneRes z].holder with
  | none => simp
  | some h =>
    simp only [Bool.and_eq_true, gatesFor_iff, soundsOut_iff, Option.some.injEq]
    constructor
    · rintro ⟨gates, c, claim, sounding, heard⟩
      exact ⟨h, c, rfl, claim, sounding, heard, gates⟩
    · rintro ⟨_, c, rfl, claim, sounding, heard, gates⟩
      exact ⟨gates, c, claim, sounding, heard⟩

theorem busSelect_off {s : State} {z : ZoneNo} (h : zoneGate s z = false) : busSelect s z = .a :=
  if_neg (by rw [h]; exact Bool.false_ne_true)

theorem busSelect_on {s : State} {z : ZoneNo} {h : SlotNo} {c : Claim} (on : zoneGate s z = true)
    (holder : s.arb.res[zoneRes z].holder = some h) (claim : claimIn s.arb h = some c) : busSelect s z = c.bus := by
  unfold busSelect
  rw [if_pos on, holder, Option.bind_some, claim]

theorem pairGate_iff (s : State) : pairGate s = true ↔ ∃ z, zoneGate s z = true ∧ busSelect s z = .b := by
  simp [pairGate]

/-! ## The notice line -/

theorem mem_noticeKinds (k : NoticeKind) : k ∈ noticeKinds := by
  cases k <;> decide

theorem ntc_iff (s : State) : ntc s = true ↔ s.start.powered = true ∧ s.start.opState ≠ .halt ∧
    ∃ k, Pending s k ∧ s.image.threshold ≤ noticeLevel s.image k := by
  unfold ntc
  simp [and_assoc, mem_noticeKinds]

/-! ## The sample period -/

theorem passMillisecond_sample (s : State) : (passMillisecond s).start.samplePhase = s.start.samplePhase := by
  have seen (u : StartUnit) (b : Bool) (fa : Input) : (faSeen u b fa).samplePhase = u.samplePhase := by
    unfold faSeen
    split <;> rfl
  by_cases h : MsPassed s
  · obtain ⟨n, e⟩ := passMillisecond_whole h
    rw [e]
    exact seen _ _ _
  · obtain ⟨n, e⟩ := passMillisecond_part h
    rw [e]
    rfl

theorem passSample_synth (s : State) : (passSample s).synth =
    if 125 ≤ s.start.samplePhase + 32 then synthSample s.start.opState s.synth else s.synth := by
  unfold passSample
  dsimp only
  split <;> rfl

/-- The synth takes one sample at each end of a sample period (R148). -/
theorem tick_synth {s : State} (ha : alive s = true) : (tick s).synth =
    if 125 ≤ s.start.samplePhase + 32 then synthSample s.start.opState s.synth else s.synth := by
  have start : (passQuiet (passMillisecond s)).start = (passMillisecond s).start := (passQuiet_ev _).same .start (by decide)
  have quiet : (passQuiet (passMillisecond s)).synth = (passMillisecond s).synth := (passQuiet_ev _).same .synth (by decide)
  have first : (passMillisecond s).synth = s.synth := (passMillisecond_ev s).same .synth (by decide)
  have codes : (tickPassed s).synth = (passSample (passQuiet (passMillisecond s))).synth :=
    (passCodes_ev _).same .synth (by decide)
  rw [tick_alive ha, synth_withPending, codes, passSample_synth, start, quiet, first, passMillisecond_sample,
    (passMillisecond_start s).1.opState]

end Sys2Proof.Proofs
end

section
/-! The synth follows the holder of SYN (R126, R147). -/

namespace Sys2Proof.Proofs

open Sys2Proof Sys2Proof.Machine Sys2Proof.Laws

/-! ## The program of a holder -/

theorem synSounding_iff (a : Arbiter) : synSounding a = true ↔
    ∃ h c, a.res[synRes].holder = some h ∧ claimIn a h = some c ∧ c.sounding = true := by
  unfold synSounding
  cases holder : a.res[synRes].holder with
  | none => simp
  | some h => cases claim : claimIn a h <;> simp [claim]

theorem programFor_drill {s : State} {c : Claim} (claim : claimIn s.arb drillSlot = some c) :
    programFor s drillSlot = (some (if c.level = .alarm then .evacuation else .allClear), 1) := by
  unfold programFor
  rw [if_pos rfl, claim]

theorem programFor_bell (s : State) {k : SlotNo} (bell : k = bellSlot 0 ∨ k = bellSlot 1) :
    programFor s k = (some .bellTone, 1) := by
  rcases bell with rfl | rfl
  · rfl
  · rfl

theorem programFor_chime {s : State} {i : TablePos} {e : AnnEntry} {x : Chime} {n : Nat}
    (entry : s.ann.table[i] = some e) (chime : e.kind = .chime x n) :
    programFor s (annSlot i) = (some (.chime x), n) := by
  have drill : ¬ annSlot i = drillSlot := fun same => by
    have := congrArg Fin.val same
    simp [annSlot, drillSlot] at this
  have bell : ¬ (annSlot i).val ≤ 2 := by
    simp only [annSlot]
    omega
  have place : (⟨(annSlot i).val - 3, by omega⟩ : TablePos) = i := Fin.ext (by simp [annSlot])
  have found : s.ann.table[(⟨(annSlot i).val - 3, by omega⟩ : TablePos)] = some e :=
    (congrArg (fun j : TablePos => s.ann.table[j]) place).trans entry
  unfold programFor
  rw [if_neg drill, if_neg bell]
  dsimp only
  rw [found]
  dsimp only
  rw [chime]

/-! ## The synth after the arbiter changed -/

/-- The program and the repetitions of a holder of SYN; without a holder there is no program (R147). -/
def holderProgram (s : State) : Option (SlotNo × Byte) → Option SynthProgram × Nat
  | none => (none, 1)
  | some (slot, _) => programFor s slot

theorem withArbiter_newHolder {s : State} {a : Arbiter} (new : synHolder a ≠ s.synth.playing) :
    (withArbiter s a).synth = { Synth.initial with
      playing := synHolder a, sounding := synSounding a,
      program := (holderProgram (s.withArb a) (synHolder a)).1,
      repeats := (holderProgram (s.withArb a) (synHolder a)).2 } := by
  have new' : synHolder (s.withArb a).arb ≠ (s.withArb a).synth.playing := new
  unfold withArbiter followSynth
  rw [if_pos new']
  cases holder : synHolder a <;> simp [holder, holderProgram]

/-- The synth with another sounding flag: silent, and BELL TONE from its beginning when it begins to sound. -/
def soundingTurned (y : Synth) (b : Bool) : Synth :=
  let quiet := { y with sounding := b, env1 := 0, env2 := 0, out := 0 }
  if b ∧ y.program = some .bellTone then noteBegin quiet 0 else quiet

theorem withArbiter_turned {s : State} {a : Arbiter} (same : synHolder a = s.synth.playing)
    (turned : synSounding a ≠ s.synth.sounding) :
    (withArbiter s a).synth = soundingTurned s.synth (synSounding a) := by
  have same' : ¬ synHolder (s.withArb a).arb ≠ (s.withArb a).synth.playing := not_not.mpr same
  have turned' : synSounding (s.withArb a).arb ≠ (s.withArb a).synth.sounding := turned
  unfold withArbiter followSynth
  rw [if_neg same', if_pos turned']
  rfl

theorem withArbiter_unturned {s : State} {a : Arbiter} (same : synHolder a = s.synth.playing)
    (unturned : synSounding a = s.synth.sounding) : (withArbiter s a).synth = s.synth := by
  have same' : ¬ synHolder (s.withArb a).arb ≠ (s.withArb a).synth.playing := not_not.mpr same
  have unturned' : ¬ synSounding (s.withArb a).arb ≠ (s.withArb a).synth.sounding := not_not.mpr unturned
  unfold withArbiter followSynth
  rw [if_neg same', if_neg unturned']
  rfl

theorem withArbiter_changes (s : State) (a : Arbiter) : Changes [.arb, .synth] s (withArbiter s a) :=
  changes_trans (changes_mono (withArb_changes s a)) (changes_mono (followSynth_ev _).same)

/-- Another sounding flag leaves the program and its repetitions. -/
theorem soundingTurned_keeps (y : Synth) (b : Bool) : (soundingTurned y b).playing = y.playing ∧
    (soundingTurned y b).sounding = b ∧ (soundingTurned y b).program = y.program ∧
    (soundingTurned y b).repeats = y.repeats ∧ (soundingTurned y b).repetition = y.repetition ∧
    (soundingTurned y b).complete = y.complete := by
  unfold soundingTurned
  dsimp only
  split
  · exact ⟨rfl, rfl, rfl, rfl, rfl, rfl⟩
  · exact ⟨rfl, rfl, rfl, rfl, rfl, rfl⟩

/-- A program other than BELL TONE keeps its place when the sounding flag turns (R147). -/
theorem soundingTurned_place {y : Synth} (b : Bool) (other : y.program ≠ some .bellTone) :
    soundingTurned y b = { y with sounding := b, env1 := 0, env2 := 0, out := 0 } :=
  if_neg fun h => other h.2

/-- BELL TONE begins again when its holder begins to sound (R147). -/
theorem soundingTurned_bellTone {y : Synth} (tone : y.program = some .bellTone) :
    soundingTurned y true = noteBegin { y with sounding := true, env1 := 0, env2 := 0, out := 0 } 0 :=
  if_pos ⟨rfl, tone⟩

/-! ## The two cases of the holder -/

/-- Both the holder of SYN and its sounding flag are the arbiter's. -/
theorem withArbiter_plays (s : State) (a : Arbiter) : (withArbiter s a).synth.playing = synHolder a ∧
    (withArbiter s a).synth.sounding = synSounding a := by
  by_cases same : synHolder a = s.synth.playing
  · by_cases unturned : synSounding a = s.synth.sounding
    · rw [withArbiter_unturned same unturned]
      exact ⟨same.symm, unturned.symm⟩
    · obtain ⟨playing, sounding, _⟩ := soundingTurned_keeps s.synth (synSounding a)
      rw [withArbiter_turned same unturned]
      exact ⟨playing.trans same.symm, sounding⟩
  · rw [withArbiter_newHolder same]
    exact ⟨rfl, rfl⟩

/-- A new holder: its program begins at its first note (R147). -/
theorem withArbiter_begins {s : State} {a : Arbiter} (new : synHolder a ≠ s.synth.playing) :
    let y := (withArbiter s a).synth
    (y.repetition, y.note, y.sample, y.phase1, y.phase2) = (0, 0, 0, 0, 0) ∧ y.out = 0 ∧ y.complete = false ∧
      (synHolder a = none → y.program = none) ∧
      ∀ k c, a.res[synRes].holder = some k → claimIn a k = some c →
        (k = bellSlot 0 ∨ k = bellSlot 1 → y.program = some .bellTone) ∧
        (k = drillSlot → y.program = some (if c.level = .alarm then .evacuation else .allClear)) ∧
        (∀ (i : TablePos) (e : AnnEntry) (x : Chime) (n : Nat), k = annSlot i → s.ann.table[i] = some e →
          e.kind = .chime x n → y.program = some (.chime x) ∧ y.repeats = n) := by
  intro y
  have begun : y = _ := withArbiter_newHolder new
  refine ⟨by rw [begun]; rfl, by rw [begun]; rfl, by rw [begun]; rfl, fun none => ?_, fun k c holder claim => ?_⟩
  · rw [begun, none]
    rfl
  · have slot : synHolder a = some (k, a.slots[k].number) := by rw [synHolder, holder]; rfl
    have program : y.program = (programFor (s.withArb a) k).1 := by rw [begun, slot]; rfl
    have repeats : y.repeats = (programFor (s.withArb a) k).2 := by rw [begun, slot]; rfl
    refine ⟨fun bell => ?_, fun drill => ?_, fun i e x n ann entry chime => ?_⟩
    · rw [program, programFor_bell _ bell]
    · subst drill
      rw [program, programFor_drill claim]
    · subst ann
      have found : programFor (s.withArb a) (annSlot i) = (some (.chime x), n) := programFor_chime entry chime
      rw [program, repeats, found]
      exact ⟨rfl, rfl⟩

/-- The same holder: its program goes on where it was, but BELL TONE begins again (R126, R147). -/
theorem withArbiter_goesOn {s : State} {a : Arbiter} (same : synHolder a = s.synth.playing) :
    let y := (withArbiter s a).synth
    y.program = s.synth.program ∧ y.repeats = s.synth.repeats ∧ y.repetition = s.synth.repetition ∧
      y.complete = s.synth.complete ∧ ((synSounding a = true ↔ s.synth.sounding = true) → y = s.synth) ∧
      (s.synth.program ≠ some .bellTone → y.note = s.synth.note ∧ y.sample = s.synth.sample ∧
        y.phase1 = s.synth.phase1 ∧ y.phase2 = s.synth.phase2) ∧
      (s.synth.program = some .bellTone → synSounding a = true → s.synth.sounding = false →
        (y.note, y.sample, y.phase1, y.phase2) = (0, 0, 0, 0)) := by
  intro y
  by_cases unturned : synSounding a = s.synth.sounding
  · have still : y = s.synth := withArbiter_unturned same unturned
    rw [still]
    refine ⟨rfl, rfl, rfl, rfl, fun _ => rfl, fun _ => ⟨rfl, rfl, rfl, rfl⟩, fun _ sounds silent => ?_⟩
    rw [← unturned, sounds] at silent
    exact absurd silent (by decide)
  · have turned : y = soundingTurned s.synth (synSounding a) := withArbiter_turned same unturned
    obtain ⟨_, _, program, repeats, repetition, complete⟩ := soundingTurned_keeps s.synth (synSounding a)
    rw [turned]
    refine ⟨program, repeats, repetition, complete, fun h => absurd (Bool.eq_iff_iff.mpr h) unturned,
      fun other => ?_, fun tone sounds _ => ?_⟩
    · rw [soundingTurned_place _ other]
      exact ⟨rfl, rfl, rfl, rfl⟩
    · rw [sounds, soundingTurned_bellTone tone]
      rfl

end Sys2Proof.Proofs
end

section
/-! A sample of the chime synth (R126, R127, R147 to R150). -/

namespace Sys2Proof.Proofs

open Sys2Proof Sys2Proof.Machine Sys2Proof.Laws

/-! ## The oscillator -/

/-- The four quarters of a sine, from one table (R148). -/
theorem oscillator_quarters (phase : BitVec 16) : oscillator phase =
    let entry := fun j => ((sineTable.map Int.ofNat)[j]?).getD 0
    if phase.toNat / 16384 = 0 then entry (phase.toNat / 256 % 64)
    else if phase.toNat / 16384 = 1 then entry (63 - phase.toNat / 256 % 64)
    else if phase.toNat / 16384 = 2 then -entry (phase.toNat / 256 % 64)
    else -entry (63 - phase.toNat / 256 % 64) := by
  have entry (j : Nat) : ((sineTable.map Int.ofNat)[j]?).getD 0 = ((sineTable[j]?.getD 0 : Nat) : Int) := by
    rw [List.getElem?_map]
    cases sineTable[j]? <;> rfl
  simp only [entry]
  unfold oscillator
  dsimp only
  generalize phase.toNat / 16384 = q
  match q with
  | 0 => rfl
  | 1 => rfl
  | 2 => rfl
  | _ + 3 => rfl

/-! ## The envelope -/

/-- A search bit by bit from the top, below the bound P. -/
def greedy (P : Nat → Prop) [DecidablePred P] (n e : Nat) : Nat :=
  match n with
  | 0 => e
  | n + 1 => greedy P n (if P (e + 2 ^ n) then e + 2 ^ n else e)

/-- The search ends at the last number that satisfies P, where it begins at most 2 ^ n before it. -/
theorem greedy_last {P : Nat → Prop} [DecidablePred P] {n e : Nat} (low : P e) (high : ¬ P (e + 2 ^ n)) :
    P (greedy P n e) ∧ ¬ P (greedy P n e + 1) := by
  induction n generalizing e with
  | zero => exact ⟨low, high⟩
  | succ n ih =>
    unfold greedy
    by_cases taken : P (e + 2 ^ n)
    · rw [if_pos taken]
      exact ih taken (by rwa [Nat.add_assoc, ← Nat.two_mul, ← Nat.pow_succ'])
    · rw [if_neg taken]
      exact ih low taken

/-- e is an envelope factor at most 4096 × 2^(−m / h). -/
abbrev Decays (h m e : Nat) : Prop := e ≤ 4096 ∧ belowDecay h m e = true

theorem belowDecay_iff (h m e : Nat) : belowDecay h m e = true ↔ e ^ h * 2 ^ m ≤ 4096 ^ h := by
  rw [belowDecay, decide_eq_true_iff, Nat.pow_mul]

theorem decayed_greedy {h m : Nat} (within : ¬ 12 * h < m) : decayed h m = greedy (Decays h m) 13 0 := by
  unfold decayed
  rw [if_neg within]
  simp only [greedy, List.foldl_cons, List.foldl_nil, Nat.reducePow]

/-- A decayed factor is the last one below the exponential (R149). -/
theorem decayed_last {h : Nat} (m : Nat) (positive : 1 ≤ h) : decayed h m ^ h * 2 ^ m ≤ 4096 ^ h ∧
    4096 ^ h < (decayed h m + 1) ^ h * 2 ^ m := by
  by_cases beyond : 12 * h < m
  · have zero : decayed h m = 0 := if_pos beyond
    have bound : 4096 ^ h < 2 ^ m := calc
      4096 ^ h = 2 ^ (12 * h) := (Nat.pow_mul 2 12 h).symm
      _ < 2 ^ m := Nat.pow_lt_pow_right (by decide) beyond
    rw [zero, Nat.zero_pow positive, Nat.zero_mul, Nat.zero_add, Nat.one_pow, Nat.one_mul]
    exact ⟨Nat.zero_le _, bound⟩
  · have low : Decays h m 0 := ⟨Nat.zero_le _, (belowDecay_iff h m 0).mpr
      (by rw [Nat.zero_pow positive, Nat.zero_mul]; exact Nat.zero_le _)⟩
    have high : ¬ Decays h m (0 + 2 ^ 13) := fun d => absurd d.1 (by decide)
    obtain ⟨⟨bound, below⟩, last⟩ := greedy_last low high
    rw [decayed_greedy beyond]
    refine ⟨(belowDecay_iff _ _ _).mp below, ?_⟩
    by_cases full : greedy (Decays h m) 13 0 + 1 ≤ 4096
    · exact Nat.lt_of_not_le fun le => last ⟨full, (belowDecay_iff _ _ _).mpr le⟩
    · have top : greedy (Decays h m) 13 0 = 4096 := by omega
      rw [top]
      calc 4096 ^ h < 4097 ^ h := Nat.pow_lt_pow_left (by decide) (by omega)
        _ ≤ 4097 ^ h * 2 ^ m := Nat.le_mul_of_pos_right _ (Nat.two_pow_pos m)

theorem envelope_silent {n : Note} (k : Nat) (silent : n.silent = true) : envelope n k = 0 := if_pos silent

theorem envelope_attack {n : Note} {k : Nat} (tone : n.silent = false) (attack : k < 160) :
    envelope n k = 4096 * k / 160 := by
  rw [envelope, tone, if_neg Bool.false_ne_true, if_pos attack]

theorem envelope_held {n : Note} {k : Nat} (tone : n.silent = false) (after : 160 ≤ k) (held : n.decay = none) :
    envelope n k = 4096 := by
  rw [envelope, tone, if_neg Bool.false_ne_true, if_neg (Nat.not_lt.mpr after), held]

theorem envelope_decay {n : Note} {k h : Nat} (tone : n.silent = false) (after : 160 ≤ k) (decay : n.decay = some h) :
    envelope n k = decayed h (k - 160) := by
  rw [envelope, tone, if_neg Bool.false_ne_true, if_neg (Nat.not_lt.mpr after), decay]

/-! ## A sample -/

theorem synthAudible_iff (op : OpState) (y : Synth) : synthAudible op y = true ↔
    y.sounding = true ∧ y.complete = false ∧
      ∃ k q, y.playing = some (k, q) ∧ (op = .run ∨ (op = .join ∧ k = drillSlot)) := by
  unfold synthAudible
  cases y.playing with
  | none => simp
  | some holder => simp [gatesFor_iff, and_assoc, Prod.ext_iff]

theorem synthSample_note {op : OpState} {y : Synth} {p : SynthProgram} {n : Note} (program : y.program = some p)
    (note : (programNotes p)[y.note]? = some n) : synthSample op y =
      if synthAudible op y then
        let e := envelope n y.sample
        let e2 := if n.step2 = 0 then 0 else e
        let v := (scaled n.step1 y.phase1 e + scaled n.step2 y.phase2 e2).tdiv 2
        let y1 := { y with sample := y.sample + 1, phase1 := y.phase1 + n.step1, phase2 := y.phase2 + n.step2 }
        let y2 := if n.length = some (y.sample + 1) then noteEnd y1 p else y1
        { y2 with env1 := e, env2 := e2, out := v }
      else { y with env1 := 0, env2 := 0, out := 0 } := by
  unfold synthSample
  rw [program, Option.bind_some, note, Option.map_some]

/-- An oscillator that the note does not use has no value at any envelope factor. -/
theorem scaled_unused (step phase : BitVec 16) (e : Nat) :
    scaled step phase (if step = 0 then 0 else e) = scaled step phase e := by
  unfold scaled
  by_cases unused : step = 0
  · rw [if_pos unused, if_pos unused]
  · rw [if_neg unused, if_neg unused, if_neg unused]

/-- The position one sample on. -/
def sampleOn (y : Synth) (n : Note) : Synth :=
  { y with sample := y.sample + 1, phase1 := y.phase1 + n.step1, phase2 := y.phase2 + n.step2 }

/-- An audible sample: its value, and the next position (R147 to R149). -/
theorem synthSample_audible {op : OpState} {y : Synth} {p : SynthProgram} {n : Note} (program : y.program = some p)
    (note : (programNotes p)[y.note]? = some n) (audible : synthAudible op y = true) :
    ∃ f1 f2, synthSample op y =
      { (if n.length = some (y.sample + 1) then noteEnd (sampleOn y n) p else sampleOn y n) with
        env1 := f1, env2 := f2,
        out := (scaled n.step1 y.phase1 (envelope n y.sample) +
          scaled n.step2 y.phase2 (envelope n y.sample)).tdiv 2 } := by
  rw [synthSample_note program note, if_pos audible]
  dsimp only
  rw [scaled_unused]
  exact ⟨_, _, rfl⟩

theorem synthSample_silent {op : OpState} {y : Synth} {p : SynthProgram} {n : Note} (program : y.program = some p)
    (note : (programNotes p)[y.note]? = some n) (silent : ¬ synthAudible op y = true) :
    synthSample op y = { y with env1 := 0, env2 := 0, out := 0 } := by
  rw [synthSample_note program note, if_neg silent]

/-! ## The end of a note -/

/-- The end of a note leaves the holder, its sounding flag and its program. -/
theorem noteEnd_keeps (y : Synth) (p : SynthProgram) : (noteEnd y p).playing = y.playing ∧
    (noteEnd y p).sounding = y.sounding ∧ (noteEnd y p).program = y.program ∧ (noteEnd y p).repeats = y.repeats := by
  cases p with
  | chime c =>
    unfold noteEnd
    dsimp only
    split
    · exact ⟨rfl, rfl, rfl, rfl⟩
    · split
      · exact ⟨rfl, rfl, rfl, rfl⟩
      · exact ⟨rfl, rfl, rfl, rfl⟩
  | bellTone | evacuation | allClear => exact ⟨rfl, rfl, rfl, rfl⟩

/-- EVACUATION goes round its six parts (R150). -/
theorem noteEnd_evacuation {y : Synth} (part : y.note < 6) : noteEnd y .evacuation = noteBegin y ((y.note + 1) % 6) := by
  have count : (programNotes .evacuation).length = 6 := rfl
  unfold noteEnd
  dsimp only
  rw [count]
  by_cases more : y.note + 1 < 6
  · rw [if_pos more, Nat.mod_eq_of_lt more]
  · rw [if_neg more, show y.note + 1 = 6 by omega]

/-- The last note of the last repetition completes a chime (R147). -/
theorem noteEnd_chime_last {y : Synth} {c : Chime} (last : y.note + 2 = (programNotes (.chime c)).length)
    (final : y.repeats ≤ y.repetition + 1) : noteEnd y (.chime c) = { y with complete := true } :=
  if_pos ⟨last, final⟩

theorem noteEnd_chime_next {y : Synth} {c : Chime} (more : y.note + 1 < (programNotes (.chime c)).length)
    (goesOn : ¬ (y.note + 2 = (programNotes (.chime c)).length ∧ y.repeats ≤ y.repetition + 1)) :
    noteEnd y (.chime c) = noteBegin y (y.note + 1) :=
  (if_neg goesOn).trans (if_pos more)

/-- After the silence a chime repeats (R150). -/
theorem noteEnd_chime_repeat {y : Synth} {c : Chime} (silence : y.note + 1 = (programNotes (.chime c)).length) :
    noteEnd y (.chime c) = noteBegin { y with repetition := y.repetition + 1 } 0 :=
  (if_neg fun h => by omega).trans (if_neg (by omega))

end Sys2Proof.Proofs
end

section
/-! The outputs follow the state (R77, R94, R100, R108, R125 to R127, R147 to R150, R184). -/

namespace Sys2Proof.Proofs

open Sys2Proof Sys2Proof.Machine Sys2Proof.Laws

/-! ## The place after an audible sample -/

/-- The part of a sample that does not depend on the place: its value, the holder and the program. -/
theorem synthSample_value {op : OpState} {y : Synth} {p : SynthProgram} {n : Note} (program : y.program = some p)
    (note : (programNotes p)[y.note]? = some n) (audible : synthAudible op y = true) :
    (synthSample op y).out = (scaled n.step1 y.phase1 (envelope n y.sample) +
      scaled n.step2 y.phase2 (envelope n y.sample)).tdiv 2 ∧ (synthSample op y).playing = y.playing ∧
    (synthSample op y).sounding = y.sounding ∧ (synthSample op y).program = y.program ∧
    (synthSample op y).repeats = y.repeats := by
  obtain ⟨f1, f2, sample⟩ := synthSample_audible program note audible
  rw [sample]
  split
  · obtain ⟨playing, sounding, program, repeats⟩ := noteEnd_keeps (sampleOn y n) p
    exact ⟨rfl, playing, sounding, program, repeats⟩
  · exact ⟨rfl, rfl, rfl, rfl, rfl⟩

/-- A position of the synth in its program: the sample in the note with its phases, the note, the repetition, and
whether the program is complete. -/
def position (y : Synth) : (Nat × BitVec 16 × BitVec 16) × Nat × Nat × Bool :=
  ((y.sample, y.phase1, y.phase2), y.note, y.repetition, y.complete)

theorem synthSample_within {op : OpState} {y : Synth} {p : SynthProgram} {n : Note} (program : y.program = some p)
    (note : (programNotes p)[y.note]? = some n) (audible : synthAudible op y = true)
    (within : n.length ≠ some (y.sample + 1)) : position (synthSample op y) = position (sampleOn y n) := by
  obtain ⟨f1, f2, sample⟩ := synthSample_audible program note audible
  rw [sample, if_neg within]
  rfl

theorem synthSample_end {op : OpState} {y : Synth} {p : SynthProgram} {n : Note} (program : y.program = some p)
    (note : (programNotes p)[y.note]? = some n) (audible : synthAudible op y = true)
    (last : n.length = some (y.sample + 1)) :
    position (synthSample op y) = position (noteEnd (sampleOn y n) p) := by
  obtain ⟨f1, f2, sample⟩ := synthSample_audible program note audible
  rw [sample, if_pos last]
  rfl

theorem position_iff (u : Synth) (k : Nat) (a b : BitVec 16) (m r : Nat) (c : Bool) :
    position u = ((k, a, b), m, r, c) ↔
      u.sample = k ∧ u.phase1 = a ∧ u.phase2 = b ∧ u.note = m ∧ u.repetition = r ∧ u.complete = c := by
  simp [position, and_assoc]

/-- The next note at the end of a note: a chime goes to its next note, to its next repetition or is complete,
EVACUATION goes round, and ALL CLEAR is complete (R147, R150). -/
theorem synthSample_place {op : OpState} {y : Synth} {p : SynthProgram} {n : Note} (program : y.program = some p)
    (note : (programNotes p)[y.note]? = some n) (audible : synthAudible op y = true) (sounds : y.complete = false) :
    let u := synthSample op y
    let begun := u.sample = 0 ∧ u.phase1 = 0 ∧ u.phase2 = 0 ∧ u.complete = false
    (n.length ≠ some (y.sample + 1) → u.sample = y.sample + 1 ∧ u.phase1 = y.phase1 + n.step1 ∧
      u.phase2 = y.phase2 + n.step2 ∧ u.note = y.note ∧ u.repetition = y.repetition ∧ u.complete = false) ∧
    (n.length = some (y.sample + 1) →
      (p = .allClear → u.complete = true) ∧
      (p = .evacuation → begun ∧ u.note = (y.note + 1) % 6 ∧ u.repetition = y.repetition) ∧
      (∀ c, p = .chime c → let last := (programNotes p).length - 1
        (y.note + 1 = last → y.repeats ≤ y.repetition + 1 → u.complete = true) ∧
        (y.note + 1 < last ∨ (y.note + 1 = last ∧ y.repetition + 1 < y.repeats) →
          begun ∧ u.note = y.note + 1 ∧ u.repetition = y.repetition) ∧
        (y.note = last → begun ∧ u.note = 0 ∧ u.repetition = y.repetition + 1))) := by
  intro u begun
  have inside : y.note < (programNotes p).length := (List.getElem?_eq_some_iff.mp note).1
  have begins {m r : Nat} (h : position u = ((0, 0, 0), m, r, y.complete)) : begun ∧ u.note = m ∧ u.repetition = r := by
    obtain ⟨sample, phase1, phase2, there, repetition, complete⟩ := (position_iff u 0 0 0 m r y.complete).mp h
    exact ⟨⟨sample, phase1, phase2, complete.trans sounds⟩, there, repetition⟩
  have completes {z : Synth} (h : position u = position { z with complete := true }) : u.complete = true :=
    congrArg (·.2.2.2) h
  refine ⟨fun within => ?_, fun ends => ?_⟩
  · rw [← sounds]
    exact (position_iff u _ _ _ _ _ _).mp (synthSample_within program note audible within)
  · have place : position u = position (noteEnd (sampleOn y n) p) := synthSample_end program note audible ends
    refine ⟨?_, ?_, ?_⟩
    · rintro rfl
      exact completes (z := sampleOn y n) place
    · rintro rfl
      rw [noteEnd_evacuation (y := sampleOn y n) inside] at place
      exact begins place
    · rintro c rfl last
      have count : (programNotes (.chime c)).length = last + 1 := by omega
      refine ⟨fun final repeats => ?_, fun next => ?_, fun silence => ?_⟩
      · rw [noteEnd_chime_last (y := sampleOn y n) (by rw [count, ← final]; rfl) repeats] at place
        exact completes place
      · rw [noteEnd_chime_next (y := sampleOn y n) (by show y.note + 1 < _; omega)
          (by show ¬ (y.note + 2 = _ ∧ y.repeats ≤ y.repetition + 1); omega)] at place
        exact begins place
      · rw [noteEnd_chime_repeat (y := sampleOn y n) (by rw [count, ← silence]; rfl)] at place
        exact begins place

/-! ## The obligation -/

/-- Settles O29: each output is read off the state, the synth follows the arbiter, and a sample moves it on by its
program. -/
theorem outputsFollowTheState : Obligations.OutputsFollowTheState := by
  unfold Obligations.OutputsFollowTheState
  intro s
  refine ⟨bellOutput_iff s, impulseDrive_iff s, codeDrive_iff s, zoneGate_iff s, fun z => ⟨busSelect_off, fun h c =>
    busSelect_on⟩, pairGate_iff s, ntc_iff s, tick_synth, rfl, fun a => ?follows, fun op y p n program note => ?sample,
    ⟨rfl, rfl, rfl, rfl, rfl, rfl⟩, oscillator_quarters, fun n k => ⟨envelope_silent k, fun tone =>
      ⟨envelope_attack tone, envelope_held tone, fun h after decay positive => ?decay⟩⟩⟩
  case follows =>
    obtain ⟨playing, sounding⟩ := withArbiter_plays s a
    dsimp only
    rw [← synSounding_iff]
    exact ⟨withArbiter_arb s a, withArbiter_changes s a, playing, by rw [sounding], withArbiter_begins,
      withArbiter_goesOn⟩
  case sample =>
    dsimp only
    rw [← synthAudible_iff]
    refine ⟨synthSample_silent program note, fun audible => ?_⟩
    obtain ⟨sounding, sounds, _⟩ := (synthAudible_iff op y).mp audible
    obtain ⟨out, playing, sounding', program', repeats⟩ := synthSample_value program note audible
    exact ⟨out, playing, sounding'.trans sounding, program'.trans program, repeats,
      synthSample_place program note audible sounds⟩
  case decay =>
    rw [envelope_decay tone after decay]
    exact decayed_last _ positive

end Sys2Proof.Proofs
end

section
/-! The circuits of the Clock Unit: a record replaced, and the evaluation of an IMPULSE circuit (R97, R98, R107). -/

namespace Sys2Proof.Proofs

open Sys2Proof Sys2Proof.Machine Sys2Proof.Laws

/-! ## A record replaced -/

theorem setImpulse_at (s : State) (c : ClockNo) (r : ImpulseRecord) : (setImpulse s c r).clocks[c].impulse = r :=
  congrArg ClockCircuit.impulse ((vector_set_at _ _ _ _).trans (if_pos rfl))

theorem setCoded_at (s : State) (c : ClockNo) (r : CodedRecord) : (setCoded s c r).clocks[c].coded = r :=
  congrArg ClockCircuit.coded ((vector_set_at _ _ _ _).trans (if_pos rfl))

theorem setImpulse_again (s : State) (c : ClockNo) (q r : ImpulseRecord) :
    setImpulse (setImpulse s c q) c r = setImpulse s c r := by
  have circuit : (setImpulse s c q).clocks[c] = { s.clocks[c] with impulse := q } :=
    (vector_set_at _ _ _ _).trans (if_pos rfl)
  unfold setImpulse at circuit ⊢
  rw [circuit]
  exact congrArg s.withClocks (Vector.set_set ..)

theorem setImpulse_self (s : State) (c : ClockNo) : setImpulse s c s.clocks[c].impulse = s :=
  congrArg s.withClocks (clocks_set_self s.clocks c)

/-- The circuits other than this one stay as they are. -/
def OthersKept (c : ClockNo) (s t : State) : Prop := ∀ e : ClockNo, e ≠ c → t.clocks[e] = s.clocks[e]

theorem OthersKept.trans {c : ClockNo} {s t u : State} (h : OthersKept c s t) (k : OthersKept c t u) :
    OthersKept c s u := fun e other => (k e other).trans (h e other)

theorem othersKept_of_clocks {c : ClockNo} {s t : State} (h : t.clocks = s.clocks) : OthersKept c s t :=
  fun e _ => congrArg (·[e]) h

theorem setImpulse_others (s : State) (c : ClockNo) (r : ImpulseRecord) : OthersKept c s (setImpulse s c r) :=
  fun _ other => (vector_set_at _ _ _ _).trans (if_neg other.symm)

theorem setCoded_others (s : State) (c : ClockNo) (r : CodedRecord) : OthersKept c s (setCoded s c r) :=
  fun _ other => (vector_set_at _ _ _ _).trans (if_neg other.symm)

/-! ## The record that an evaluation makes -/

theorem dialDistance_eq {t : CampusTime} {p d : Nat} (hp : p < 720) (hd : d < 720)
    (h : (p + d) % 720 = (t.ms / 60000) % 720) : dialDistance t p = d := by
  unfold dialDistance minuteOfDay
  omega

/-- The row of R98's table that a distance from the target falls in. -/
def distanceState (d hold : Nat) : ClockState :=
  if d ≤ 1 then .running else if d + hold ≤ 719 then .advancing else .holding

theorem evaluationOf_eq (d hold : Nat) :
    evaluationOf d hold = (distanceState d hold, decide (d = 1 ∨ distanceState d hold = .advancing)) := by
  unfold evaluationOf distanceState
  obtain rfl | rfl | far : d = 0 ∨ d = 1 ∨ 2 ≤ d := by omega
  · simp
  · simp
  · rw [if_neg (by omega), if_neg (by omega), if_neg (by omega : ¬ d ≤ 1)]
    by_cases ahead : d + hold ≤ 719
    · rw [if_pos ahead, if_pos (by omega)]
      simp
    · rw [if_neg ahead, if_neg (by omega)]
      simp [show d ≠ 1 by omega]

theorem evaluated_faulted {r : ImpulseRecord} (h : r.state = .faulted) (cfg : ClockConfig) (now : Count) (run : Bool)
    (t : Reading) : evaluated r cfg now run t = r := if_pos h

theorem evaluated_unknown {r : ImpulseRecord} (h : r.state ≠ .faulted) {t : Reading}
    (unknown : t.valid = false ∨ r.position = none) (cfg : ClockConfig) (now : Count) (run : Bool) :
    evaluated r cfg now run t = { r with state := .stopped } := by
  unfold evaluated
  rw [if_neg h]
  cases position : r.position with
  | none => rfl
  | some p =>
    obtain invalid | none := unknown
    · rw [invalid]
      rfl
    · cases position.symm.trans none

/-- An impulse begins where the distance asks for one, the cycle is NONE and the station is in RUN. -/
theorem evaluated_known {r : ImpulseRecord} (h : r.state ≠ .faulted) {t : Reading} (valid : t.valid = true) {p d : Nat}
    (position : r.position = some p) {cfg : ClockConfig} (distance : dialDistance t.time p = d) (now : Count)
    (run : Bool) : let st := distanceState d cfg.holdLimit
    evaluated r cfg now run t = if (d = 1 ∨ st = .advancing) ∧ r.cycle = .none ∧ run = true
      then impulseBegun { r with state := st } now cfg.impulseLength else { r with state := st } := by
  unfold evaluated
  rw [if_neg h, position]
  simp only [valid, if_true, distance, evaluationOf_eq, Bool.and_eq_true, decide_eq_true_eq, and_assoc]

/-! ## The evaluation of a circuit -/

theorem evaluate_impulse {s : State} {c : ClockNo} (h : s.image.clocks[c].kind = .impulse) (t : Reading) :
    evaluate s c t =
      setImpulse s c (evaluated s.clocks[c].impulse s.image.clocks[c] s.time.localCount (inRun s) t) := if_pos h

/-- A record replaced before the evaluation is the record evaluated. -/
theorem evaluate_setImpulse {s : State} {c : ClockNo} (h : s.image.clocks[c].kind = .impulse) (q : ImpulseRecord)
    (t : Reading) : evaluate (setImpulse s c q) c t =
      setImpulse s c (evaluated q s.image.clocks[c] s.time.localCount (inRun s) t) := by
  rw [evaluate_impulse (s := setImpulse s c q) h, setImpulse_at, setImpulse_again]
  rfl

theorem evaluate_others (s : State) (c : ClockNo) (t : Reading) : OthersKept c s (evaluate s c t) := by
  unfold evaluate
  split
  · exact setImpulse_others _ _ _
  · exact othersKept_of_clocks rfl

/-- Settles O38: a FAULTED record, one without a reading or a position, and one at a known distance. -/
theorem anEvaluationSetsTheClockState : Obligations.AnEvaluationSetsTheClockState := by
  unfold Obligations.AnEvaluationSetsTheClockState
  intro s c t kind _ r x
  have record : x = evaluated r s.image.clocks[c] s.time.localCount (inRun s) t :=
    (congrArg (·.clocks[c].impulse) (evaluate_impulse kind t)).trans (setImpulse_at ..)
  rw [record]
  refine ⟨fun faulted => evaluated_faulted faulted .., fun whole unknown => evaluated_unknown whole unknown ..,
    fun p d whole valid position hp hd target => ?known, evaluate_others s c t, (evaluate_ev s c t).same⟩
  case known =>
    have inRun_iff : inRun s = true ↔ s.start.opState = .run := decide_eq_true_iff
    rw [evaluated_known whole valid position (dialDistance_eq hp hd target)]
    exact ⟨fun wants idle run => if_pos ⟨wants, idle, inRun_iff.mpr run⟩,
      fun no => if_neg fun ⟨wants, idle, run⟩ => no ⟨wants, idle, inRun_iff.mp run⟩⟩

end Sys2Proof.Proofs
end

section
/-! The cycle of an IMPULSE circuit (R100 to R102): the midpoint, the end of an impulse and the end of a rest. -/

namespace Sys2Proof.Proofs

open Sys2Proof Sys2Proof.Machine Sys2Proof.Laws

/-! ## The other circuits -/

theorem endImpulse_others (s : State) (c : ClockNo) (x : SenseResult) : OthersKept c s (endImpulse s c x) := by
  cases x with
  | delivered => exact setImpulse_others _ _ _
  | openLine | short =>
    dsimp only [endImpulse]
    split
    · exact setImpulse_others s c _
    · exact setImpulse_others s c _

theorem impulseMid_others (s : State) (c : ClockNo) (x : SenseResult) : OthersKept c s (impulseMid s c x) := by
  unfold impulseMid
  split
  · dsimp only
    split
    · exact (setImpulse_others _ _ _).trans (endImpulse_others _ _ _)
    · exact setImpulse_others _ _ _
  · exact othersKept_of_clocks rfl

theorem impulseOver_others (s : State) (c : ClockNo) : OthersKept c s (impulseOver s c) := by
  unfold impulseOver
  split
  · split
    · exact othersKept_of_clocks rfl
    · exact endImpulse_others _ _ _
  · exact othersKept_of_clocks rfl

theorem restOver_others (s : State) (c : ClockNo) : OthersKept c s (restOver s c) := by
  unfold restOver
  split
  · exact (setImpulse_others _ _ _).trans (evaluate_others _ _ _)
  · exact othersKept_of_clocks rfl

/-! ## The end of an impulse -/

/-- What a failed impulse of a circuit with this record leads to (R101, R102). -/
structure ImpulseFailed (s : State) (c : ClockNo) (r : ImpulseRecord) (x : SenseResult) (t : State) : Prop where
  rests : r.failCount + 1 < 3 →
    t.clocks[c].impulse = resting { r with failCount := r.failCount + 1 } s.time.localCount
      s.image.clocks[c].impulseLength ∧
    t.faults = (report s (.clockImpulseFailed c x)).faults
  faults : 3 ≤ r.failCount + 1 →
    t.clocks[c].impulse = cycleOver { r with failCount := r.failCount + 1, state := .faulted } ∧
    t.faults = (raise (report (report s (.clockImpulseFailed c x)) (.clockCircuitFaulted c)) .clockAttention).faults

theorem endImpulse_failed (s : State) (c : ClockNo) (r : ImpulseRecord) {x : SenseResult} (h : x ≠ .delivered) :
    ImpulseFailed s c r x (endImpulse (setImpulse s c r) c x) := by
  have ends : endImpulse (setImpulse s c r) c x = if r.failCount + 1 < 3 then
        report (setImpulse s c (resting { r with failCount := r.failCount + 1 } s.time.localCount
          s.image.clocks[c].impulseLength)) (.clockImpulseFailed c x)
      else raise (report (report (setImpulse s c (cycleOver { r with
          failCount := r.failCount + 1
          state := .faulted })) (.clockImpulseFailed c x)) (.clockCircuitFaulted c)) .clockAttention := by
    unfold endImpulse
    simp only [setImpulse_at, setImpulse_again]
    cases x with
    | delivered => exact absurd rfl h
    | openLine | short => rfl
  rw [ends]
  constructor
  · intro below
    rw [if_pos below]
    exact ⟨setImpulse_at .., rfl⟩
  · intro third
    rw [if_neg (Nat.not_lt.mpr third)]
    exact ⟨setImpulse_at .., rfl⟩

/-! ## The rows -/

theorem exec_impulseMidpoint {s : State} (ha : Active s) (c : ClockNo) (x : SenseResult) :
    exec (.impulseMidpoint c x) s = .next (impulseMid s c x) := exec_whenWorking rfl ha

theorem exec_impulseEnd {s : State} (ha : Active s) (c : ClockNo) : exec (.impulseEnd c) s = .next (impulseOver s c) :=
  exec_whenWorking rfl ha

theorem exec_impulseRestEnd {s : State} (ha : Active s) (c : ClockNo) :
    exec (.impulseRestEnd c) s = .next (restOver s c) := exec_whenWorking rfl ha

section
variable {s : State} {c : ClockNo} (kind : s.image.clocks[c].kind = .impulse)
include kind

theorem impulseRunning_of_cycle (cycle : s.clocks[c].impulse.cycle = .impulse) : impulseRunning s c = true :=
  Bool.and_eq_true_iff.mpr ⟨decide_eq_true kind, decide_eq_true cycle⟩

theorem impulseMid_held (cycle : s.clocks[c].impulse.cycle = .impulse) (unsensed : s.clocks[c].impulse.midpoint = none)
    {x : SenseResult} (h : x ≠ .short) : impulseMid s c x =
      setImpulse s c { s.clocks[c].impulse with midpoint := some x, midAt := none } :=
  (if_pos ⟨impulseRunning_of_cycle kind cycle, unsensed⟩).trans (if_neg h)

theorem impulseMid_short (cycle : s.clocks[c].impulse.cycle = .impulse)
    (unsensed : s.clocks[c].impulse.midpoint = none) : impulseMid s c .short =
      endImpulse (setImpulse s c { s.clocks[c].impulse with midpoint := some .short, midAt := none }) c .short :=
  (if_pos ⟨impulseRunning_of_cycle kind cycle, unsensed⟩).trans (if_pos rfl)

theorem impulseOver_held (cycle : s.clocks[c].impulse.cycle = .impulse) {x : SenseResult}
    (held : s.clocks[c].impulse.midpoint = some x) : impulseOver s c = endImpulse s c x := by
  unfold impulseOver
  rw [if_pos (impulseRunning_of_cycle kind cycle), held]

theorem restOver_rest (cycle : s.clocks[c].impulse.cycle = .rest) : restOver s c =
    setImpulse s c (evaluated (cycleOver s.clocks[c].impulse) s.image.clocks[c] s.time.localCount (inRun s)
      (currentReading s)) :=
  (if_pos ⟨kind, cycle⟩).trans (evaluate_setImpulse kind _ _)

end

end Sys2Proof.Proofs
end

section
/-! The frames of a CODED circuit (R108 to R110, 12.6). -/

namespace Sys2Proof.Proofs

open Sys2Proof Sys2Proof.Machine Sys2Proof.Laws

/-! ## The bytes of a frame -/

theorem byteSum_toNat (bs : List Byte) : (byteSum bs).toNat = (bs.map BitVec.toNat).sum % 256 := by
  have summed (x : Byte) : (bs.foldl (· + ·) x).toNat = (x.toNat + (bs.map BitVec.toNat).sum) % 256 := by
    induction bs generalizing x with
    | nil => exact (Nat.mod_eq_of_lt x.isLt).symm
    | cons b bs ih =>
      rw [List.foldl_cons, ih, BitVec.toNat_add, List.map_cons, List.sum_cons]
      omega
  rw [byteSum, summed]
  exact congrArg (· % 256) (Nat.zero_add _)

/-- The last byte of a frame makes the sum of its bytes 0. -/
theorem sum_with_check (front : List Byte) : ((front ++ [0 - byteSum front]).map BitVec.toNat).sum % 256 = 0 := by
  have sum := byteSum_toNat front
  have check : (0 - byteSum front).toNat = (256 - (byteSum front).toNat) % 256 := by
    rw [BitVec.toNat_sub]
    rfl
  rw [List.map_append, List.sum_append, List.map_singleton, List.sum_singleton, check]
  omega

/-- The reading as a code frame carries it (12.6). -/
def readingBytes (r : Reading) : List Byte :=
  if r.valid = true then [1, BitVec.ofNat 8 (r.time.ms / 3600000), BitVec.ofNat 8 (r.time.ms / 60000 % 60),
    BitVec.ofNat 8 (r.time.day.toNat % 7)] else [0, 0xFF, 0xFF, 0xFF]

/-- A code frame without its last byte. -/
def codeFront (r : Reading) (status : CodeStatus) (n : StationNo) : List Byte :=
  [0x3A] ++ readingBytes r ++ [BitVec.ofNat 8 (codeStatusCode status), BitVec.ofNat 8 n.val]

theorem beBytes_one (n : Nat) : beBytes 1 n = [BitVec.ofNat 8 n] := by
  simp [beBytes]

theorem codeFrameBytes_eq (r : Reading) (status : CodeStatus) (n : StationNo) :
    codeFrameBytes r status n = codeFront r status n ++ [0 - byteSum (codeFront r status n)] := by
  have hour : minuteOfDay r.time / 60 = r.time.ms / 3600000 := Nat.div_div_eq_div_mul ..
  have reading : readingBytes r = if r.valid then [1] ++ beBytes 1 (minuteOfDay r.time / 60) ++
      beBytes 1 (minuteOfDay r.time % 60) ++ beBytes 1 (weekday r.time.day) else [0, 0xFF, 0xFF, 0xFF] := by
    simp only [beBytes_one, hour]
    rfl
  have front : codeFront r status n =
      [0x3A] ++ readingBytes r ++ beBytes 1 (codeStatusCode status) ++ beBytes 1 n.val := by
    rw [beBytes_one, beBytes_one, List.append_assoc _ [_] [_]]
    rfl
  rw [front, reading]
  rfl

/-! ## The status -/

theorem codeStatus_idle {s : State} (h : s.drill.state = .idle) (r : Reading) : codeStatus s r =
    if s.time.quality = .unset ∨ s.time.quality = .isolated then .timeUnsure
    else if effectiveKind s.plan r = .closed then .closed
    else if effectiveKind s.plan r = .quiet then .quiet
    else .normal := by
  unfold codeStatus
  rw [h]
  cases effectiveKind s.plan r <;> rfl

theorem codeStatus_in_drill {s : State} (h : s.drill.state ≠ .idle) {d : DrillRecord} (record : s.drill.record = some d)
    (r : Reading) : codeStatus s r = if d.kind = .real then .alarm else .drill := by
  unfold codeStatus
  rw [record]
  cases state : s.drill.state with
  | idle => exact absurd state h
  | evacuate | assemble | allClear => rfl

/-! ## The end of a frame -/

theorem beginCode_others (s : State) (r : Reading) (c : ClockNo) : OthersKept c s (beginCode s r c) := by
  unfold beginCode
  dsimp only
  split
  · split
    · exact setCoded_others _ _ _
    · exact setCoded_others _ _ _
  · exact othersKept_of_clocks rfl

theorem codeEnd_others (s : State) (c : ClockNo) : OthersKept c s (codeEnd s c) := by
  unfold codeEnd
  dsimp only
  split
  · split
    · exact (setCoded_others _ _ _).trans (beginCode_others _ _ _)
    · exact setCoded_others _ _ _
  · exact othersKept_of_clocks rfl

theorem exec_codeFrameEnd {s : State} (ha : Active s) (c : ClockNo) : exec (.codeFrameEnd c) s = .next (codeEnd s c) :=
  exec_whenWorking rfl ha

section
variable {s : State} {c : ClockNo} (kind : s.image.clocks[c].kind = .coded)
  (sending : s.clocks[c].coded.sending = true)
include kind sending

theorem codeEnd_last (h : s.clocks[c].coded.resend = false ∨ s.start.opState = .join) :
    codeEnd s c = setCoded s c (codeOff s.clocks[c].coded) := by
  refine (if_pos ⟨kind, sending⟩).trans (ite_eq_right_iff.mpr fun flag => ?_)
  obtain unflagged | join := h
  · cases unflagged.symm.trans flag
  · refine if_neg fun ⟨_, run⟩ => ?_
    cases join.symm.trans (of_decide_eq_true run)

theorem codeEnd_next (flag : s.clocks[c].coded.resend = true) (run : s.start.opState = .run) :
    (codeEnd s c).clocks[c].coded = codeBegun (codeOff s.clocks[c].coded) (currentReading s)
      (codeStatus s (currentReading s)) s.start.station := by
  have off := setCoded_at s c (codeOff s.clocks[c].coded)
  have begins : codeEnd s c = beginCode (setCoded s c (codeOff s.clocks[c].coded)) (currentReading s) c :=
    (if_pos ⟨kind, sending⟩).trans (if_pos flag)
  rw [begins, beginCode, off, if_pos ⟨kind, decide_eq_true run⟩, if_neg (by nofun : ¬ (codeOff _).sending = true)]
  exact setCoded_at ..

end

end Sys2Proof.Proofs
end

section
/-! The rows of the Clock Unit (R100 to R102, R108 to R110): what each leaves unchanged, and what it does. -/

namespace Sys2Proof.Proofs

open Sys2Proof Sys2Proof.Machine Sys2Proof.Laws

/-- The four rows change their own circuit and the Fault Unit alone. -/
theorem clockRow_frame {s t : State} {c : ClockNo} (ha : Active s)
    (h : (∃ x, exec (.impulseMidpoint c x) s = .next t) ∨ exec (.impulseEnd c) s = .next t ∨
      exec (.impulseRestEnd c) s = .next t ∨ exec (.codeFrameEnd c) s = .next t) :
    OthersKept c s t ∧ Changes [.clocks, .faults] s t := by
  obtain ⟨x, h⟩ | h | h | h := h
  · cases (exec_impulseMidpoint ha c x).symm.trans h
    exact ⟨impulseMid_others s c x, (impulseMid_ev s c x).same⟩
  · cases (exec_impulseEnd ha c).symm.trans h
    exact ⟨impulseOver_others s c, (impulseOver_ev s c).same⟩
  · cases (exec_impulseRestEnd ha c).symm.trans h
    exact ⟨restOver_others s c, changes_mono (restOver_ev s c).same⟩
  · cases (exec_codeFrameEnd ha c).symm.trans h
    exact ⟨codeEnd_others s c, changes_mono (codeEnd_ev s c).same⟩

section
variable {s : State} {c : ClockNo} (ha : Active s) (kind : s.image.clocks[c].kind = .impulse)
include ha kind

theorem exec_impulseMidpoint_held (cycle : s.clocks[c].impulse.cycle = .impulse)
    (unsensed : s.clocks[c].impulse.midpoint = none) {x : SenseResult} (h : x ≠ .short) :
    ∃ t, exec (.impulseMidpoint c x) s = .next t ∧ t.faults = s.faults ∧
      t.clocks[c].impulse = { s.clocks[c].impulse with midpoint := some x, midAt := none } :=
  ⟨_, (exec_impulseMidpoint ha c x).trans (congrArg _ (impulseMid_held kind cycle unsensed h)), rfl, setImpulse_at ..⟩

/-- SHORT ends the impulse at the midpoint (R101). -/
theorem exec_impulseMidpoint_short (cycle : s.clocks[c].impulse.cycle = .impulse)
    (unsensed : s.clocks[c].impulse.midpoint = none) : ∃ t, exec (.impulseMidpoint c .short) s = .next t ∧
      ImpulseFailed s c { s.clocks[c].impulse with midpoint := some .short, midAt := none } .short t :=
  ⟨_, (exec_impulseMidpoint ha c _).trans (congrArg _ (impulseMid_short kind cycle unsensed)),
    endImpulse_failed s c _ nofun⟩

theorem exec_impulseEnd_delivered (cycle : s.clocks[c].impulse.cycle = .impulse)
    (held : s.clocks[c].impulse.midpoint = some .delivered) : ∃ t, exec (.impulseEnd c) s = .next t ∧
      t.faults = s.faults ∧ t.clocks[c].impulse =
        resting (delivered s.clocks[c].impulse) s.time.localCount s.image.clocks[c].impulseLength :=
  ⟨_, (exec_impulseEnd ha c).trans (congrArg _ (impulseOver_held kind cycle held)), rfl, setImpulse_at ..⟩

theorem exec_impulseEnd_failed (cycle : s.clocks[c].impulse.cycle = .impulse) {x : SenseResult}
    (held : s.clocks[c].impulse.midpoint = some x) (h : x ≠ .delivered) : ∃ t, exec (.impulseEnd c) s = .next t ∧
      ImpulseFailed s c s.clocks[c].impulse x t := by
  have failed := endImpulse_failed s c s.clocks[c].impulse h
  rw [setImpulse_self] at failed
  exact ⟨_, (exec_impulseEnd ha c).trans (congrArg _ (impulseOver_held kind cycle held)), failed⟩

theorem exec_impulseRestEnd_rest (cycle : s.clocks[c].impulse.cycle = .rest) :
    ∃ t, exec (.impulseRestEnd c) s = .next t ∧ t.faults = s.faults ∧ t.clocks[c].impulse =
      evaluated (cycleOver s.clocks[c].impulse) s.image.clocks[c] s.time.localCount (inRun s) (currentReading s) :=
  ⟨_, (exec_impulseRestEnd ha c).trans (congrArg _ (restOver_rest kind cycle)), rfl, setImpulse_at ..⟩

end

/-! ## The obligation -/

/-- Settles O39: the rows of an impulse by its cycle and midpoint result, the end of a code frame by its resend flag,
the frame byte by byte, and the status by the drill. -/
theorem theImpulseCycleAndTheCodeFrame : Obligations.TheImpulseCycleAndTheCodeFrame := by
  unfold Obligations.TheImpulseCycleAndTheCodeFrame
  refine ⟨fun s c ha => ⟨fun d t h => ?frame, fun kind cycle unsensed => ⟨fun x held => ?held, ?short⟩,
    fun kind cycle => ⟨fun delivered => ?delivered, fun x sensed lost => ?failed⟩, fun kind cycle => ?rest,
    fun kind sending => ?coded⟩, fun r status n => ?bytes, fun s r present => ?status⟩
  case frame =>
    obtain ⟨others, changes⟩ := clockRow_frame ha h
    exact ⟨others d, changes⟩
  case held => exact exec_impulseMidpoint_held ha kind cycle unsensed held
  case short =>
    obtain ⟨t, row, failed⟩ := exec_impulseMidpoint_short ha kind cycle unsensed
    exact ⟨t, row, failed.rests, failed.faults⟩
  case delivered => exact exec_impulseEnd_delivered ha kind cycle delivered
  case failed =>
    obtain ⟨t, row, failed⟩ := exec_impulseEnd_failed ha kind cycle sensed lost
    exact ⟨t, row, failed.rests, failed.faults⟩
  case rest => exact exec_impulseRestEnd_rest ha kind cycle
  case coded =>
    refine ⟨codeEnd s c, exec_codeFrameEnd ha c, (codeEnd_ev s c).same .faults (by decide), fun last => ?_,
      codeEnd_next kind sending⟩
    rw [codeEnd_last kind sending last]
    exact setCoded_at ..
  case bytes =>
    rw [codeFrameBytes_eq]
    refine ⟨0 - byteSum (codeFront r status n), ?_, sum_with_check _⟩
    rw [codeFront, List.append_assoc _ [_, _] [_]]
    cases status <;> rfl
  case status =>
    by_cases idle : s.drill.state = .idle
    · have calm : ¬ s.drill.state ≠ .idle := not_not_intro idle
      rw [codeStatus_idle idle, if_neg (not_and_of_not_left _ calm), if_neg calm]
    · obtain ⟨d, record⟩ := Option.ne_none_iff_exists'.mp (present idle)
      rw [codeStatus_in_drill idle record, record, if_pos idle]
      cases kind : d.kind <;> simp [idle, kind]

end Sys2Proof.Proofs
end

section
/-! READ CLOCK CIRCUIT, DIAL SET and CLOCK CLEAR (R104 to R106). -/

namespace Sys2Proof.Proofs

open Sys2Proof Sys2Proof.Machine Sys2Proof.Laws

/-! ## The rows -/

theorem exec_readClockCircuit {s : State} (ha : Active s) (n : Nat) :
    exec (.readClockCircuit n) s = .next (answered s (clockAnswer n s)) :=
  congrArg Host.Outcome.next (panelTake_active ha _)

theorem exec_dialSet {s : State} (ha : Active s) (n : Nat) (p : Option Nat) (x : Polarity) :
    exec (.dialSet n p x) s = .next (answered (dialSetTake n p x s).1 (dialSetTake n p x s).2) :=
  congrArg Host.Outcome.next (panelTake_active ha _)

theorem exec_clockClear {s : State} (ha : Active s) (n : Nat) : exec (.clockClear n) s =
    .next (answered (onImpulse s n (clockClearOn s)).1 (onImpulse s n (clockClearOn s)).2) :=
  congrArg Host.Outcome.next (panelTake_active ha _)

/-! ## The circuit that a command names -/

theorem onImpulse_bad {n : Nat} (h : 3 < n) (s : State) (f : ClockNo → State × Response) :
    onImpulse s n f = (s, .bad .argument) := dif_neg (Nat.not_lt.mpr h)

theorem onImpulse_other {s : State} {c : ClockNo} (h : s.image.clocks[c].kind ≠ .impulse)
    (f : ClockNo → State × Response) : onImpulse s c.val f = (s, .refused .noSuchItem) :=
  (dif_pos c.isLt).trans (if_neg h)

theorem onImpulse_impulse {s : State} {c : ClockNo} (h : s.image.clocks[c].kind = .impulse)
    (f : ClockNo → State × Response) : onImpulse s c.val f = f c :=
  (dif_pos c.isLt).trans (if_pos h)

theorem clockAnswer_bad {n : Nat} (h : 3 < n) (s : State) : clockAnswer n s = .bad .argument :=
  dif_neg (Nat.not_lt.mpr h)

theorem clockAnswer_circuit (s : State) (c : ClockNo) : clockAnswer c.val s = .done (.clock (clockData s c)) :=
  dif_pos c.isLt

/-! ## DIAL SET -/

/-- A position of DIAL SET that is a minute of the dial, or UNKNOWN. -/
def OnDial (position : Option Nat) : Prop := ∀ p, position = some p → p ≤ 719

theorem onDial_iff (position : Option Nat) : OnDial position ↔ ¬ position.any (fun p => decide (720 ≤ p)) = true := by
  cases position with
  | none => simp [OnDial]
  | some p => simp [OnDial]; omega

theorem dialSetTake_far {position : Option Nat} (h : ¬ OnDial position) (n : Nat) (x : Polarity) (s : State) :
    dialSetTake n position x s = (s, .bad .argument) :=
  if_pos (not_not.mp (mt (onDial_iff position).mpr h))

theorem dialSetTake_small {position : Option Nat} (h : OnDial position) (n : Nat) (x : Polarity) (s : State) :
    dialSetTake n position x s = onImpulse s n (dialSetOn position x s) :=
  if_neg ((onDial_iff position).mp h)

theorem dialSetTake_bad {n : Nat} {position : Option Nat} (h : 3 < n ∨ ¬ OnDial position) (x : Polarity) (s : State) :
    dialSetTake n position x s = (s, .bad .argument) := by
  by_cases small : OnDial position
  · rw [dialSetTake_small small, onImpulse_bad (h.resolve_right (not_not_intro small))]
  · exact dialSetTake_far small n x s

theorem dialSetOn_busy {s : State} {c : ClockNo} (h : s.clocks[c].impulse.cycle = .impulse) (position : Option Nat)
    (x : Polarity) : dialSetOn position x s c = (s, .busy) := if_pos h

theorem dialSetOn_set {s : State} {c : ClockNo} (kind : s.image.clocks[c].kind = .impulse)
    (h : s.clocks[c].impulse.cycle ≠ .impulse) (position : Option Nat) (x : Polarity) :
    dialSetOn position x s c = (setImpulse s c (evaluated { s.clocks[c].impulse with
      position := position
      polarity := x } s.image.clocks[c] s.time.localCount (inRun s) (currentReading s)), .done .nothing) :=
  (if_neg h).trans (congrArg (·, Response.done .nothing) (evaluate_setImpulse kind _ _))

/-! ## CLOCK CLEAR -/

theorem clockClearOn_eq {s : State} {c : ClockNo} (kind : s.image.clocks[c].kind = .impulse) :
    clockClearOn s c = (setImpulse s c (evaluated { s.clocks[c].impulse with
      failCount := 0
      state := if s.clocks[c].impulse.state = .faulted then .stopped else s.clocks[c].impulse.state }
      s.image.clocks[c] s.time.localCount (inRun s) (currentReading s)), .done .nothing) :=
  congrArg (·, Response.done .nothing) (evaluate_setImpulse kind _ _)

/-! ## The obligation -/

/-- Settles O40: each command by its circuit number, the position, the kind of the circuit and its cycle. -/
theorem clockCommands : Obligations.ClockCommands := by
  unfold Obligations.ClockCommands
  intro s n position polarity ha
  refine ⟨fun large => ⟨?readBad, ?clearBad⟩, fun bad => ?dialBad, fun h => ?_⟩
  case readBad => rw [exec_readClockCircuit ha, clockAnswer_bad large]
  case clearBad => rw [exec_clockClear ha, onImpulse_bad large]
  case dialBad => rw [exec_dialSet ha, dialSetTake_bad bad]
  intro c r eval
  have number : n = c.val := rfl
  refine ⟨?read, fun other => ⟨?clearOther, fun small => ?dialOther⟩,
    fun kind => ⟨fun small cycle => ?busy, fun small cycle => ?set, ?clear⟩⟩
  case read =>
    exact (exec_readClockCircuit ha n).trans
      (congrArg (fun x => Host.Outcome.next (answered s x)) (clockAnswer_circuit s c))
  case clearOther => rw [exec_clockClear ha, number, onImpulse_other other]
  case dialOther => rw [exec_dialSet ha, dialSetTake_small small, number, onImpulse_other other]
  case busy => rw [exec_dialSet ha, dialSetTake_small small, number, onImpulse_impulse kind, dialSetOn_busy cycle]
  case set => rw [exec_dialSet ha, dialSetTake_small small, number, onImpulse_impulse kind, dialSetOn_set kind cycle]
  case clear => rw [exec_clockClear ha, number, onImpulse_impulse kind, clockClearOn_eq kind]

end Sys2Proof.Proofs
end

section
/-! The Zone Arbiter's operations one resource at a time (R116 to R122): what each leaves of the arbiter, and what it
does in each of its cases. -/

namespace Sys2Proof.Proofs

open Sys2Proof Sys2Proof.Machine Sys2Proof.Laws

/-! ## The primitives -/

theorem statusOf_claim {a : Arbiter} {k : SlotNo} {c : Claim} (h : claimIn a k = some c) (q : ResNo) :
    statusOf a k q = c.status[q] := by
  unfold statusOf
  rw [h]

theorem slotRank_claim {a : Arbiter} {k : SlotNo} {c : Claim} (h : claimIn a k = some c) :
    slotRank a k = levelRank c.level := by
  unfold slotRank
  rw [h]

theorem levelRank_le_one {l : ClaimLevel} : levelRank l ≤ 1 ↔ l = .alarm ∨ l = .urgent := by
  cases l <;> decide

@[simp] theorem claimIn_setRes (a : Arbiter) (r : ResNo) (x : Resource) (k : SlotNo) :
    claimIn (setRes a r x) k = claimIn a k := rfl

@[simp] theorem statusOf_setRes (a : Arbiter) (r : ResNo) (x : Resource) (k : SlotNo) (q : ResNo) :
    statusOf (setRes a r x) k q = statusOf a k q := rfl

@[simp] theorem notices_setRes (a : Arbiter) (r : ResNo) (x : Resource) : (setRes a r x).notices = a.notices := rfl

theorem number_setRes (a : Arbiter) (r : ResNo) (x : Resource) (k : SlotNo) :
    (setRes a r x).slots[k].number = a.slots[k].number := rfl

@[simp] theorem claimIn_notify (a : Arbiter) (slot : SlotNo) (r : ResNo) (n : ClaimNoticeKind) (k : SlotNo) :
    claimIn (notify a slot r n) k = claimIn a k := rfl

@[simp] theorem statusOf_notify (a : Arbiter) (slot : SlotNo) (r : ResNo) (n : ClaimNoticeKind) (k : SlotNo)
    (q : ResNo) : statusOf (notify a slot r n) k q = statusOf a k q := rfl

@[simp] theorem res_notify (a : Arbiter) (slot : SlotNo) (r : ResNo) (n : ClaimNoticeKind) :
    (notify a slot r n).res = a.res := rfl

@[simp] theorem notices_notify (a : Arbiter) (slot : SlotNo) (r : ResNo) (n : ClaimNoticeKind) :
    (notify a slot r n).notices = a.notices ++ [⟨slot, a.slots[slot].number, r, n⟩] := rfl

theorem number_setClaim (a : Arbiter) (slot : SlotNo) (c : Option Claim) (k : SlotNo) :
    (setClaim a slot c).slots[k].number = a.slots[k].number := by
  unfold setClaim
  dsimp only
  rw [vector_set_at]
  split
  · next e => rw [e]
  · rfl

theorem number_setStatus (a : Arbiter) (slot : SlotNo) (r : ResNo) (st : ResStatus) (k : SlotNo) :
    (setStatus a slot r st).slots[k].number = a.slots[k].number := by
  unfold setStatus
  split
  · rfl
  · exact number_setClaim ..

@[simp] theorem notices_setStatus (a : Arbiter) (slot : SlotNo) (r : ResNo) (st : ResStatus) :
    (setStatus a slot r st).notices = a.notices := by
  unfold setStatus
  split <;> rfl

@[simp] theorem isSome_setStatus (a : Arbiter) (slot : SlotNo) (r : ResNo) (st : ResStatus) (k : SlotNo) :
    (claimIn (setStatus a slot r st) k).isSome = (claimIn a k).isSome :=
  isSome_of_lev (lev_setStatus a slot r st k)

theorem claimIn_setStatus_other (a : Arbiter) {slot k : SlotNo} (h : slot ≠ k) (r : ResNo) (st : ResStatus) :
    claimIn (setStatus a slot r st) k = claimIn a k := by
  unfold setStatus
  split
  · rfl
  · rw [claimIn_setClaim, if_neg h]

/-- The status of a claim's slot after it has been set. -/
theorem statusOf_setStatus_own {a : Arbiter} {slot : SlotNo} (h : (claimIn a slot).isSome = true) (r : ResNo)
    (st : ResStatus) : statusOf (setStatus a slot r st) slot r = st := by
  rw [statusOf_setStatus, if_pos ⟨rfl, rfl, h⟩]

theorem statusOf_setStatus_other (a : Arbiter) {slot k : SlotNo} {r q : ResNo} (h : slot ≠ k ∨ r ≠ q)
    (st : ResStatus) : statusOf (setStatus a slot r st) k q = statusOf a k q := by
  rw [statusOf_setStatus, if_neg fun ⟨e, f, _⟩ => h.elim (· e) (· f)]

/-- A record set beside the status of a claim: the status, and the record. -/
theorem statusOf_put_own {a : Arbiter} {slot : SlotNo} (h : (claimIn a slot).isSome = true) (r : ResNo) (x : Resource)
    (st : ResStatus) : statusOf (setStatus (setRes a r x) slot r st) slot r = st :=
  statusOf_setStatus_own (a := setRes a r x) h r st

theorem res_put_own (a : Arbiter) (slot : SlotNo) (r : ResNo) (x : Resource) (st : ResStatus) :
    (setStatus (setRes a r x) slot r st).res[r] = x := by
  rw [res_put, if_pos rfl]

/-! ## Operations confined to some resources -/

/-- A claim without its statuses. -/
def blank (c : Claim) : Claim := { c with status := Vector.replicate 9 .notAsked }

theorem eq_of_blank {c d : Claim} (h : blank d = blank c) : d = { c with status := d.status } := by
  unfold blank at h
  cases c
  cases d
  cases h
  rfl

/-- From a to b nothing has changed but the records of the resources in rs, the statuses of claims for them, and the
notices. -/
structure Confined (rs : List ResNo) (a b : Arbiter) : Prop where
  res : ∀ q, q ∉ rs → b.res[q] = a.res[q]
  status : ∀ q, q ∉ rs → ∀ k, statusOf b k q = statusOf a k q
  number : ∀ k : SlotNo, b.slots[k].number = a.slots[k].number
  claim : ∀ k, (claimIn b k).map blank = (claimIn a k).map blank

namespace Confined

variable {rs : List ResNo} {a b c : Arbiter}

theorem refl (rs : List ResNo) (a : Arbiter) : Confined rs a a :=
  ⟨fun _ _ => rfl, fun _ _ _ => rfl, fun _ => rfl, fun _ => rfl⟩

theorem trans (h : Confined rs a b) (k : Confined rs b c) : Confined rs a c where
  res q hq := (k.res q hq).trans (h.res q hq)
  status q hq x := (k.status q hq x).trans (h.status q hq x)
  number x := (k.number x).trans (h.number x)
  claim x := (k.claim x).trans (h.claim x)

theorem mono {qs : List ResNo} (h : Confined rs a b) (sub : rs ⊆ qs) : Confined qs a b where
  res q hq := h.res q fun hx => hq (sub hx)
  status q hq := h.status q fun hx => hq (sub hx)
  number := h.number
  claim := h.claim

theorem setStatus (h : Confined rs a b) {r : ResNo} (hr : r ∈ rs) (slot : SlotNo) (st : ResStatus) :
    Confined rs a (setStatus b slot r st) := by
  refine h.trans ⟨fun q _ => by rw [res_setStatus], fun q hq k => ?_, number_setStatus b slot r st, fun k => ?_⟩
  · exact statusOf_setStatus_other b (.inr fun e : r = q => hq (e ▸ hr)) st
  · unfold Machine.setStatus
    cases hc : claimIn b slot with
    | none => rfl
    | some d =>
      dsimp only
      rw [claimIn_setClaim]
      split
      · next e => rw [← e, hc]; rfl
      · rfl

theorem setRes (h : Confined rs a b) {r : ResNo} (hr : r ∈ rs) (x : Resource) : Confined rs a (setRes b r x) :=
  h.trans ⟨fun q hq => by rw [res_setRes, if_neg fun e : r = q => hq (e ▸ hr)], fun _ _ _ => rfl, fun _ => rfl,
    fun _ => rfl⟩

theorem notify (h : Confined rs a b) (slot : SlotNo) (r : ResNo) (n : ClaimNoticeKind) :
    Confined rs a (notify b slot r n) :=
  h.trans ⟨fun _ _ => rfl, fun _ _ _ => rfl, fun _ => rfl, fun _ => rfl⟩

/-- A claim stands after the operation, with other statuses at most. -/
theorem claimIn_some (h : Confined rs a b) {k : SlotNo} {c : Claim} (hc : claimIn a k = some c) :
    ∃ x, claimIn b k = some { c with status := x } := by
  have same := h.claim k
  rw [hc] at same
  obtain ⟨d, hd, e⟩ := Option.map_eq_some_iff.mp same
  exact ⟨d.status, hd.trans (congrArg some (eq_of_blank e))⟩

theorem foldl {f : Arbiter → ResNo → Arbiter} (step : ∀ a r, Confined [r] a (f a r)) (rs : List ResNo)
    (a : Arbiter) : Confined rs a (rs.foldl f a) := by
  induction rs generalizing a with
  | nil => exact refl _ a
  | cons r rs ih =>
    exact ((step a r).mono (List.cons_subset_cons r (List.nil_subset rs))).trans
      ((ih (f a r)).mono (List.subset_cons_self r rs))

/-- Of operations on distinct resources in turn, the one on r finds r as it was at the start, and it stays as that
one leaves it. -/
theorem foldl_at {f : Arbiter → ResNo → Arbiter} (step : ∀ a r, Confined [r] a (f a r)) {rs : List ResNo}
    (distinct : rs.Nodup) {r : ResNo} (hr : r ∈ rs) (a : Arbiter) : ∃ b front back, r ∉ front ∧ r ∉ back ∧
      Confined front a b ∧ Confined back (f b r) (rs.foldl f a) := by
  obtain ⟨front, back, rfl⟩ := List.append_of_mem hr
  obtain ⟨_, behind, apart⟩ := List.nodup_append.mp distinct
  refine ⟨front.foldl f a, front, back, fun h => apart r h r List.mem_cons_self rfl, (List.nodup_cons.mp behind).1,
    foldl step front a, ?_⟩
  rw [List.foldl_append, List.foldl_cons]
  exact foldl step back _

end Confined

/-! ## Joining a waiting list (R119) -/

section
variable {a : Arbiter} {slot : SlotNo} {r : ResNo}

theorem joinWaiting_room (h : a.res[r].waiting.length < 4) : joinWaiting a slot r =
    setStatus (setRes a r ⟨a.res[r].holder, insertWaiter a slot a.res[r].waiting⟩) slot r .waiting := by
  unfold joinWaiting
  exact if_pos h

section
variable {front : List SlotNo} {w : SlotNo} (list : a.res[r].waiting = front ++ [w])
  (full : ¬ a.res[r].waiting.length < 4)
include list full

theorem joinWaiting_evicts (h : slotRank a slot < slotRank a w) : joinWaiting a slot r =
    setStatus (setRes (notify (setStatus a w r (.lost .evicted)) w r .evicted) r
      ⟨a.res[r].holder, insertWaiter a slot front⟩) slot r .waiting := by
  have last : a.res[r].waiting.getLast? = some w := by rw [list, List.getLast?_concat]
  have ranks (k : SlotNo) : slotRank (notify (setStatus a w r (.lost .evicted)) w r .evicted) k = slotRank a k :=
    slotRank_lev (lev_setStatus a w r _ k)
  have place : insertWaiter (notify (setStatus a w r (.lost .evicted)) w r .evicted) slot front =
      insertWaiter a slot front := by
    unfold insertWaiter
    simp only [ranks]
  unfold joinWaiting
  simp only [if_neg full, last, if_pos h, res_notify, res_setStatus]
  rw [list, List.dropLast_concat, place]

theorem joinWaiting_refused (h : slotRank a w ≤ slotRank a slot) :
    joinWaiting a slot r = setStatus a slot r (.lost .refused) := by
  have last : a.res[r].waiting.getLast? = some w := by rw [list, List.getLast?_concat]
  unfold joinWaiting
  simp only [if_neg full, last, if_neg (Nat.not_lt.mpr h)]

end

/-- A claim that joins a list, or is refused, has been told so by its status, and the holder stays. -/
theorem joinWaiting_answers (hc : (claimIn a slot).isSome = true) :
    Confined [r] a (joinWaiting a slot r) ∧ statusOf (joinWaiting a slot r) slot r ≠ .notAsked ∧
      (joinWaiting a slot r).res[r].holder = a.res[r].holder := by
  have mem : r ∈ [r] := List.mem_singleton_self r
  by_cases room : a.res[r].waiting.length < 4
  · rw [joinWaiting_room room, statusOf_put_own hc, res_put_own]
    exact ⟨((Confined.refl _ a).setRes mem _).setStatus mem _ _, nofun, rfl⟩
  obtain ⟨front, w, list⟩ : ∃ front w, a.res[r].waiting = front ++ [w] := by
    refine (List.eq_nil_or_concat' _).resolve_left fun empty => room ?_
    rw [empty]
    decide
  by_cases lower : slotRank a slot < slotRank a w
  · rw [joinWaiting_evicts list room lower, statusOf_put_own (by simpa using hc), res_put_own]
    exact ⟨((((Confined.refl _ a).setStatus mem _ _).notify _ _ _).setRes mem _).setStatus mem _ _, nofun, rfl⟩
  · rw [joinWaiting_refused list room (Nat.le_of_not_lt lower), statusOf_setStatus_own hc, res_setStatus]
    exact ⟨(Confined.refl _ a).setStatus mem _ _, nofun, rfl⟩

end

/-! ## Requests (R117, R118) -/

section
variable {a : Arbiter} {slot : SlotNo} {r : ResNo}

theorem preempt_eq (a : Arbiter) (slot holder : SlotNo) (r : ResNo) : preempt a slot holder r =
    notify (setStatus (setRes (setStatus a holder r (.lost .preempted)) r ⟨some slot, a.res[r].waiting⟩)
      slot r .holding) holder r .preempted := by
  unfold preempt
  simp only [res_setStatus]

theorem preempt_answers (hc : (claimIn a slot).isSome = true) (holder : SlotNo) :
    Confined [r] a (preempt a slot holder r) ∧ statusOf (preempt a slot holder r) slot r ≠ .notAsked := by
  have mem : r ∈ [r] := List.mem_singleton_self r
  rw [preempt_eq, statusOf_notify, statusOf_put_own (by simpa using hc)]
  exact ⟨((((Confined.refl _ a).setStatus mem _ _).setRes mem _).setStatus mem _ _).notify _ _ _, nofun⟩

section
variable {c : Claim} (hc : claimIn a slot = some c)
include hc

theorem request_asked (h : c.status[r] = .holding ∨ c.status[r] = .waiting) : request a slot r = a := by
  unfold request
  rw [hc]
  obtain h | h := h <;> simp only [h]

section
variable (new : c.status[r] ≠ .holding ∧ c.status[r] ≠ .waiting)
include new

theorem request_free (h : a.res[r].holder = none) :
    request a slot r = setStatus (setRes a r ⟨some slot, a.res[r].waiting⟩) slot r .holding := by
  simp [-Fin.getElem_fin, request, hc, new, h]

theorem request_passed {h0 : SlotNo} (h : a.res[r].holder = some h0) (passed : c.passed = true) :
    request a slot r = setStatus a slot r (.lost .expired) := by
  simp [-Fin.getElem_fin, request, hc, new, h, passed]

theorem request_preempts {h0 : SlotNo} (h : a.res[r].holder = some h0) (passed : c.passed = false)
    (urgent : c.level = .alarm ∨ c.level = .urgent) (more : slotRank a slot < slotRank a h0) :
    request a slot r = preempt a slot h0 r := by
  rw [slotRank_claim hc] at more
  simp [-Fin.getElem_fin, request, hc, new, h, passed, levelRank_le_one.mpr urgent, more]

theorem request_joins {h0 : SlotNo} (h : a.res[r].holder = some h0) (passed : c.passed = false)
    (kept : ¬ ((c.level = .alarm ∨ c.level = .urgent) ∧ slotRank a slot < slotRank a h0)) :
    request a slot r = joinWaiting a slot r := by
  rw [slotRank_claim hc, ← levelRank_le_one] at kept
  simp [-Fin.getElem_fin, request, hc, new, h, passed, kept]

end

/-- A request concerns its resource alone, and the claim is answered by its status. -/
theorem request_answers : Confined [r] a (request a slot r) ∧ statusOf (request a slot r) slot r ≠ .notAsked := by
  have some : (claimIn a slot).isSome = true := by rw [hc]; rfl
  have mem : r ∈ [r] := List.mem_singleton_self r
  by_cases asked : c.status[r] = .holding ∨ c.status[r] = .waiting
  · rw [request_asked hc asked, statusOf_claim hc]
    exact ⟨.refl _ a, by obtain h | h := asked <;> rw [h] <;> nofun⟩
  have new := not_or.mp asked
  cases holder : a.res[r].holder with
  | none =>
    rw [request_free hc new holder, statusOf_put_own some]
    exact ⟨((Confined.refl _ a).setRes mem _).setStatus mem _ _, nofun⟩
  | some h0 =>
    cases passed : c.passed with
    | true =>
      rw [request_passed hc new holder passed, statusOf_setStatus_own some]
      exact ⟨(Confined.refl _ a).setStatus mem _ _, nofun⟩
    | false =>
      by_cases more : (c.level = .alarm ∨ c.level = .urgent) ∧ slotRank a slot < slotRank a h0
      · rw [request_preempts hc new holder passed more.1 more.2]
        exact preempt_answers some h0
      · rw [request_joins hc new holder passed more]
        obtain ⟨confined, told, _⟩ := joinWaiting_answers (r := r) some
        exact ⟨confined, told⟩

end

theorem request_confined (a : Arbiter) (slot : SlotNo) (r : ResNo) : Confined [r] a (request a slot r) := by
  cases hc : claimIn a slot with
  | none =>
    have same : request a slot r = a := by
      unfold request
      rw [hc]
    rw [same]
    exact .refl _ a
  | some c => exact (request_answers hc).1

end

/-! ## Releases and withdrawals (R120, R121) -/

section
variable {a : Arbiter} {slot : SlotNo} {r : ResNo}

theorem release_empty (h : a.res[r].waiting = []) : release a r = setRes a r ⟨none, []⟩ := by
  unfold release
  rw [h]

theorem release_grants {g : SlotNo} {rest : List SlotNo} (h : a.res[r].waiting = g :: rest) :
    release a r = notify (setStatus (setRes a r ⟨some g, rest⟩) g r .holding) g r .granted := by
  unfold release
  rw [h]

theorem withdrawFrom_holding (h : statusOf a slot r = .holding) :
    withdrawFrom a slot r = release (setStatus a slot r (.lost .withdrawn)) r := by
  unfold withdrawFrom
  rw [h]

theorem withdrawFrom_waiting (h : statusOf a slot r = .waiting) : withdrawFrom a slot r =
    setStatus (setRes a r ⟨a.res[r].holder, a.res[r].waiting.filter fun w => decide (w ≠ slot)⟩) slot r
      (.lost .withdrawn) := by
  unfold withdrawFrom
  rw [h]
  dsimp only
  rw [setRes_setStatus, res_setStatus]

theorem withdrawFrom_neither (h : statusOf a slot r ≠ .holding) (w : statusOf a slot r ≠ .waiting) :
    withdrawFrom a slot r = a := by
  unfold withdrawFrom
  split
  · next holds => exact absurd holds h
  · next waits => exact absurd waits w
  · rfl

theorem release_confined (a : Arbiter) (r : ResNo) : Confined [r] a (release a r) := by
  have mem : r ∈ [r] := List.mem_singleton_self r
  cases list : a.res[r].waiting with
  | nil =>
    rw [release_empty list]
    exact (Confined.refl _ a).setRes mem _
  | cons g rest =>
    rw [release_grants list]
    exact (((Confined.refl _ a).setRes mem _).setStatus mem _ _).notify _ _ _

theorem withdrawFrom_confined (a : Arbiter) (slot : SlotNo) (r : ResNo) : Confined [r] a (withdrawFrom a slot r) := by
  have mem : r ∈ [r] := List.mem_singleton_self r
  by_cases holding : statusOf a slot r = .holding
  · rw [withdrawFrom_holding holding]
    exact ((Confined.refl _ a).setStatus mem _ _).trans (release_confined _ r)
  by_cases waiting : statusOf a slot r = .waiting
  · rw [withdrawFrom_waiting waiting]
    exact ((Confined.refl _ a).setRes mem _).setStatus mem _ _
  · rw [withdrawFrom_neither holding waiting]
    exact .refl _ a

theorem number_withdrawWhole (a : Arbiter) (slot k : SlotNo) :
    (withdrawWhole a slot).slots[k].number = a.slots[k].number :=
  (number_setClaim ..).trans ((Confined.foldl (fun a r => withdrawFrom_confined a slot r) resOrder a).number k)

end

/-! ## Wait deadlines (R122) -/

section
variable {a : Arbiter} {slot : SlotNo} {r : ResNo}

theorem expireOne_waiting (h : statusOf a slot r = .waiting) : expireOne a slot r =
    notify (setStatus (setRes a r ⟨a.res[r].holder, a.res[r].waiting.filter fun w => decide (w ≠ slot)⟩) slot r
      (.lost .expired)) slot r .expired := by
  unfold expireOne
  rw [h]

theorem expireOne_stays (h : statusOf a slot r ≠ .waiting) : expireOne a slot r = a := by
  unfold expireOne
  split
  · next waits => exact absurd waits h
  · rfl

theorem expireOne_confined (a : Arbiter) (slot : SlotNo) (r : ResNo) : Confined [r] a (expireOne a slot r) := by
  have mem : r ∈ [r] := List.mem_singleton_self r
  by_cases waiting : statusOf a slot r = .waiting
  · rw [expireOne_waiting waiting]
    exact (((Confined.refl _ a).setRes mem _).setStatus mem _ _).notify _ _ _
  · rw [expireOne_stays waiting]
    exact .refl _ a

theorem claimIn_expireOne_other (a : Arbiter) {slot k : SlotNo} (hk : k ≠ slot) (r : ResNo) :
    claimIn (expireOne a slot r) k = claimIn a k := by
  by_cases waiting : statusOf a slot r = .waiting
  · rw [expireOne_waiting waiting, claimIn_notify, claimIn_setStatus_other _ hk.symm, claimIn_setRes]
  · rw [expireOne_stays waiting]

/-- What a wait deadline leaves at one resource: the holder, the list without the claim, and the status EXPIRED in
place of WAITING. -/
structure ExpiredAt (slot : SlotNo) (q : ResNo) (a b : Arbiter) : Prop where
  holder : b.res[q].holder = a.res[q].holder
  waiting : b.res[q].waiting = if statusOf a slot q = .waiting then
    a.res[q].waiting.filter (fun w => decide (w ≠ slot)) else a.res[q].waiting
  status : statusOf b slot q = if statusOf a slot q = .waiting then .lost .expired else statusOf a slot q

theorem expireOne_at (a : Arbiter) (slot : SlotNo) (r : ResNo) : ExpiredAt slot r a (expireOne a slot r) := by
  by_cases waiting : statusOf a slot r = .waiting
  · have some : (claimIn a slot).isSome = true := claim_of_status (r := r) (by rw [waiting]; nofun)
    rw [expireOne_waiting waiting]
    refine ⟨?_, ?_, ?_⟩
    · rw [res_notify, res_put_own]
    · rw [if_pos waiting, res_notify, res_put_own]
    · rw [if_pos waiting, statusOf_notify, statusOf_put_own some]
  · rw [expireOne_stays waiting]
    exact ⟨rfl, (if_neg waiting).symm, (if_neg waiting).symm⟩

/-- The waits of a slot's claim for these resources end in turn (R122). -/
def expireAll (a : Arbiter) (slot : SlotNo) (rs : List ResNo) : Arbiter := rs.foldl (fun a r => expireOne a slot r) a

theorem expireAll_confined (a : Arbiter) (slot : SlotNo) (rs : List ResNo) : Confined rs a (expireAll a slot rs) :=
  .foldl (fun a r => expireOne_confined a slot r) rs a

theorem expireAll_at (a : Arbiter) (slot : SlotNo) {rs : List ResNo} (distinct : rs.Nodup) (hr : r ∈ rs) :
    ExpiredAt slot r a (expireAll a slot rs) := by
  obtain ⟨b, front, back, notFront, notBack, before, after⟩ :=
    Confined.foldl_at (fun a r => expireOne_confined a slot r) distinct hr a
  obtain ⟨holder, waiting, status⟩ := expireOne_at b slot r
  rw [before.res r notFront, ← after.res r notBack] at holder waiting
  rw [before.status r notFront] at waiting status
  rw [← after.status r notBack] at status
  exact ⟨holder, waiting, status⟩

theorem claimIn_expireAll_other (a : Arbiter) {slot k : SlotNo} (hk : k ≠ slot) (rs : List ResNo) :
    claimIn (expireAll a slot rs) k = claimIn a k := by
  induction rs generalizing a with
  | nil => rfl
  | cons r rs ih => exact (ih _).trans (claimIn_expireOne_other a hk r)

/-- A notice EXPIRED for each wait that ends, in the order of the resources (R122, R123). -/
theorem notices_expireAll (a : Arbiter) (slot : SlotNo) {rs : List ResNo} (distinct : rs.Nodup) :
    (expireAll a slot rs).notices = a.notices ++ (rs.filter fun q => decide (statusOf a slot q = .waiting)).map
      fun q => ⟨slot, a.slots[slot].number, q, .expired⟩ := by
  induction rs generalizing a with
  | nil => exact (List.append_nil _).symm
  | cons r rs ih =>
    obtain ⟨apart, distinct⟩ := List.nodup_cons.mp distinct
    have one := expireOne_confined a slot r
    have later : (rs.filter fun q => decide (statusOf (expireOne a slot r) slot q = .waiting)) =
        rs.filter fun q => decide (statusOf a slot q = .waiting) := by
      refine List.filter_congr fun q hq => ?_
      rw [one.status q fun e => apart (List.mem_singleton.mp e ▸ hq)]
    have tail : (expireAll a slot (r :: rs)).notices = _ := ih (expireOne a slot r) distinct
    rw [tail, later, one.number slot]
    by_cases waiting : statusOf a slot r = .waiting
    · rw [expireOne_waiting waiting, List.filter_cons_of_pos (by simpa using waiting), notices_notify,
        notices_setStatus, notices_setRes, number_setStatus, number_setRes, List.append_assoc, List.map_cons,
        List.singleton_append]
    · rw [expireOne_stays waiting, List.filter_cons_of_neg (by simpa using waiting)]

end

end Sys2Proof.Proofs
end

section
/-! What becomes of claims, requests, releases and withdrawals at an arbiter in order (R116 to R121), and of a wait
deadline (R122). -/

namespace Sys2Proof.Proofs

open Sys2Proof Sys2Proof.Machine Sys2Proof.Laws

/-! ## A claim made, and one withdrawn whole -/

theorem resOrder_nodup : resOrder.Nodup := List.nodup_finRange 9

theorem mem_resOrder (q : ResNo) : q ∈ resOrder := List.mem_finRange q

section
variable (a : Arbiter) (now : Count) (slot : SlotNo) (level : ClaimLevel) (bus : Bus)

/-- The wait deadline of a claim made now, by its level (R116). -/
def claimDeadline (now : Count) : ClaimLevel → Option Count
  | .alarm => none
  | .urgent => some (now + 10000#32)
  | .bell => some (now + 5000#32)
  | .normal => some (now + 60000#32)

theorem waitLimit_after : (waitLimit level).map (countAfter now) = claimDeadline now level := by
  cases level <;> rfl

/-- A claim as it is made, before its requests (R116, step 3). -/
def freshClaim : Claim := ⟨level, bus, Vector.replicate 9 .notAsked, claimDeadline now level, false, false⟩

/-- The arbiter after the slot's earlier claim has been withdrawn (R116, step 1). -/
def cleared : Arbiter := if (claimIn a slot).isSome = true then withdrawWhole a slot else a

theorem number_cleared (k : SlotNo) : (cleared a slot).slots[k].number = a.slots[k].number := by
  unfold cleared
  split
  · exact number_withdrawWhole a slot k
  · rfl

theorem openClaim_cleared : openClaim (cleared a slot) now slot level bus = { cleared a slot with
    slots := (cleared a slot).slots.set slot ⟨a.slots[slot].number + 1, some (freshClaim now level bus)⟩ } := by
  unfold openClaim
  dsimp only
  rw [number_cleared, waitLimit_after]
  rfl

theorem slots_openClaim : (openClaim (cleared a slot) now slot level bus).slots[slot] =
    ⟨a.slots[slot].number + 1, some (freshClaim now level bus)⟩ := by
  rw [openClaim_cleared, vector_set_at, if_pos rfl]

/-- A request is answered, also after other requests and before others. -/
theorem requestAll_answers {b : Arbiter} {c : Claim} (hc : claimIn b slot = some c) {rs : List ResNo}
    (distinct : rs.Nodup) {r : ResNo} (hr : r ∈ rs) : statusOf (requestAll b slot rs) slot r ≠ .notAsked := by
  obtain ⟨d, front, back, _, notBack, before, after⟩ :=
    Confined.foldl_at (fun a r => request_confined a slot r) distinct hr b
  obtain ⟨x, hd⟩ := before.claimIn_some hc
  have told := (request_answers (r := r) hd).2
  rwa [← after.status r notBack slot] at told

/-- What a claim made in a slot is, by what it asks for (R116). -/
theorem makeClaim_made (want : ResNo → Bool) : ∃ x,
    (makeClaim a now slot level bus want).slots[slot].number = a.slots[slot].number + 1 ∧
    claimIn (makeClaim a now slot level bus want) slot = some { freshClaim now level bus with status := x } ∧
    (∀ q : ResNo, want q = true → x[q] ≠ .notAsked) ∧
    ∀ q : ResNo, want q = false → x[q] = .notAsked ∧
      (makeClaim a now slot level bus want).res[q] = (cleared a slot).res[q] := by
  have made : makeClaim a now slot level bus want =
      requestAll (openClaim (cleared a slot) now slot level bus) slot (resOrder.filter want) := rfl
  have opened := slots_openClaim a now slot level bus
  have claim : claimIn (openClaim (cleared a slot) now slot level bus) slot = _ := congrArg OwnerSlot.claim opened
  have requests : Confined (resOrder.filter want) (openClaim (cleared a slot) now slot level bus)
      (makeClaim a now slot level bus want) := .foldl (fun a r => request_confined a slot r) _ _
  obtain ⟨x, hx⟩ := requests.claimIn_some claim
  refine ⟨x, ?_, hx, fun q asked => ?_, fun q not => ?_⟩
  · rw [requests.number, opened]
  · have told := requestAll_answers slot claim (resOrder_nodup.filter want)
      (List.mem_filter.mpr ⟨mem_resOrder q, asked⟩)
    rwa [← made, statusOf_claim hx] at told
  · have out : q ∉ resOrder.filter want := fun h => by
      rw [(List.mem_filter.mp h).2] at not
      cases not
    refine ⟨?_, requests.res q out⟩
    have same := requests.status q out slot
    rw [statusOf_claim hx, statusOf_claim claim] at same
    exact same.trans (Vector.getElem_replicate _)

theorem withdrawWhole_eq : let b := resOrder.foldl (fun b q => withdrawFrom b slot q) a
    withdrawWhole a slot = { b with slots := b.slots.set slot ⟨a.slots[slot].number, none⟩ } := by
  intro b
  have number : b.slots[slot].number = a.slots[slot].number :=
    (Confined.foldl (fun a r => withdrawFrom_confined a slot r) resOrder a).number slot
  exact congrArg (fun n => { b with slots := b.slots.set slot ⟨n, none⟩ }) number

end

/-! ## A request for a resource that the claim neither holds nor waits for -/

theorem not_room_of_concat {l front : List SlotNo} {w : SlotNo} (list : l = front ++ [w]) (three : front.length = 3) :
    ¬ l.length < 4 := by
  rw [list, List.length_append, three]
  exact Nat.lt_irrefl 4

section
variable {a : Arbiter} {slot : SlotNo} {r : ResNo} {c : Claim} (hc : claimIn a slot = some c)
  (new : c.status[r] ≠ .holding ∧ c.status[r] ≠ .waiting)
include hc new

theorem request_takes (ok : ArbOk a) (free : a.res[r].holder = none) :
    (request a slot r).res[r] = ⟨some slot, []⟩ ∧ statusOf (request a slot r) slot r = .holding ∧
      (request a slot r).notices = a.notices := by
  rw [request_free hc new free, res_put_own, statusOf_put_own (Option.isSome_of_eq_some hc), notices_setStatus,
    (ok.1 r).free free]
  exact ⟨rfl, rfl, rfl⟩

variable {h : SlotNo} (held : a.res[r].holder = some h)
include held

theorem request_expires (passed : c.passed = true) : (request a slot r).res = a.res ∧
    statusOf (request a slot r) slot r = .lost .expired ∧ (request a slot r).notices = a.notices := by
  rw [request_passed hc new held passed, res_setStatus, statusOf_setStatus_own (Option.isSome_of_eq_some hc),
    notices_setStatus]
  exact ⟨rfl, rfl, rfl⟩

theorem request_preempts_holder (ok : ArbOk a) (passed : c.passed = false)
    (urgent : c.level = .alarm ∨ c.level = .urgent) (more : slotRank a slot < slotRank a h) :
    (request a slot r).res[r] = ⟨some slot, a.res[r].waiting⟩ ∧
      statusOf (request a slot r) slot r = .holding ∧ statusOf (request a slot r) h r = .lost .preempted ∧
      (request a slot r).notices = a.notices ++ [⟨h, a.slots[h].number, r, .preempted⟩] := by
  have holds : statusOf a h r = .holding := ((ok.1 r).holding h).mpr held
  have holder : (claimIn a h).isSome = true := claim_of_status (r := r) (by rw [holds]; nofun)
  have other : slot ≠ h := fun e => new.1 (by rw [← statusOf_claim hc, e, holds])
  rw [request_preempts hc new held passed urgent more, preempt_eq]
  refine ⟨?record, ?own, ?lost, ?told⟩
  case record => rw [res_notify, res_put_own]
  case own => exact statusOf_put_own ((isSome_setStatus ..).trans (Option.isSome_of_eq_some hc)) ..
  case lost =>
    rw [statusOf_notify, statusOf_setStatus_other _ (.inl other), statusOf_setRes, statusOf_setStatus_own holder]
  case told =>
    rw [notices_notify, notices_setStatus, notices_setRes, notices_setStatus, number_setStatus, number_setRes,
      number_setStatus]

section
variable (passed : c.passed = false)
  (kept : ¬ ((c.level = .alarm ∨ c.level = .urgent) ∧ slotRank a slot < slotRank a h))
include passed kept

theorem request_keeps_holder : (request a slot r).res[r].holder = some h := by
  obtain ⟨_, _, holder⟩ := joinWaiting_answers (r := r) (Option.isSome_of_eq_some hc)
  rw [request_joins hc new held passed kept, holder, held]

theorem request_waits (ok : ArbOk a) (room : a.res[r].waiting.length < 4) : ∃ pre post,
    a.res[r].waiting = pre ++ post ∧ (request a slot r).res[r].waiting = pre ++ slot :: post ∧
    (∀ w ∈ pre, slotRank a w ≤ slotRank a slot) ∧ (∀ w ∈ post, slotRank a slot < slotRank a w) ∧
    statusOf (request a slot r) slot r = .waiting ∧ (request a slot r).notices = a.notices := by
  obtain ⟨pre, post, list, place, before, after⟩ := insertWaiter_place a slot a.res[r].waiting (ok.1 r).sorted
  rw [request_joins hc new held passed kept, joinWaiting_room room, res_put_own,
    statusOf_put_own (Option.isSome_of_eq_some hc), notices_setStatus]
  exact ⟨pre, post, list, place, before, after, rfl, rfl⟩

section
variable {front : List SlotNo} {w : SlotNo} (list : a.res[r].waiting = front ++ [w]) (three : front.length = 3)
include list three

theorem request_evicts (ok : ArbOk a) (lower : slotRank a slot < slotRank a w) :
    (∃ pre post, front = pre ++ post ∧ (request a slot r).res[r].waiting = pre ++ slot :: post ∧
      (∀ v ∈ pre, slotRank a v ≤ slotRank a slot) ∧ (∀ v ∈ post, slotRank a slot < slotRank a v)) ∧
    statusOf (request a slot r) slot r = .waiting ∧ statusOf (request a slot r) w r = .lost .evicted ∧
    (request a slot r).notices = a.notices ++ [⟨w, a.slots[w].number, r, .evicted⟩] := by
  have waits : statusOf a w r = .waiting := ((ok.1 r).waiting w).mpr (by rw [list]; exact List.mem_concat_self)
  have waiter : (claimIn a w).isSome = true := claim_of_status (r := r) (by rw [waits]; nofun)
  have other : slot ≠ w := fun e => Nat.lt_irrefl _ (e ▸ lower)
  have sorted := (ok.1 r).sorted
  rw [list] at sorted
  obtain ⟨pre, post, split, place, before, after⟩ :=
    insertWaiter_place a slot front (sorted.sublist (List.sublist_append_left ..))
  rw [request_joins hc new held passed kept, joinWaiting_evicts list (not_room_of_concat list three) lower]
  refine ⟨⟨pre, post, split, ?record, before, after⟩, ?own, ?lost, ?told⟩
  case record => rw [res_put_own, place]
  case own => rw [statusOf_put_own (by rw [claimIn_notify, isSome_setStatus, hc]; rfl)]
  case lost =>
    rw [statusOf_setStatus_other _ (.inl other), statusOf_setRes, statusOf_notify, statusOf_setStatus_own waiter]
  case told => rw [notices_setStatus, notices_setRes, notices_notify, notices_setStatus, number_setStatus]

theorem request_refused (higher : slotRank a w ≤ slotRank a slot) : (request a slot r).res = a.res ∧
    statusOf (request a slot r) slot r = .lost .refused ∧ (request a slot r).notices = a.notices := by
  rw [request_joins hc new held passed kept, joinWaiting_refused list (not_room_of_concat list three) higher,
    res_setStatus, statusOf_setStatus_own (Option.isSome_of_eq_some hc), notices_setStatus]
  exact ⟨rfl, rfl, rfl⟩

end

end

end

/-! ## A withdrawal from one resource -/

section
variable {a : Arbiter} {slot : SlotNo} {r : ResNo}

section
variable (holds : statusOf a slot r = .holding)
include holds

theorem withdrawFrom_leaves_free (empty : a.res[r].waiting = []) : (withdrawFrom a slot r).res[r] = ⟨none, []⟩ ∧
    statusOf (withdrawFrom a slot r) slot r = .lost .withdrawn ∧ (withdrawFrom a slot r).notices = a.notices := by
  have some : (claimIn a slot).isSome = true := claim_of_status (r := r) (by rw [holds]; nofun)
  rw [withdrawFrom_holding holds, release_empty (by rw [res_setStatus, empty]), res_setRes, if_pos rfl,
    statusOf_setRes, statusOf_setStatus_own some, notices_setRes, notices_setStatus]
  exact ⟨rfl, rfl, rfl⟩

theorem withdrawFrom_grants (ok : ArbOk a) {g : SlotNo} {rest : List SlotNo} (list : a.res[r].waiting = g :: rest) :
    (withdrawFrom a slot r).res[r] = ⟨some g, rest⟩ ∧ statusOf (withdrawFrom a slot r) slot r = .lost .withdrawn ∧
      statusOf (withdrawFrom a slot r) g r = .holding ∧
      (withdrawFrom a slot r).notices = a.notices ++ [⟨g, a.slots[g].number, r, .granted⟩] := by
  have some : (claimIn a slot).isSome = true := claim_of_status (r := r) (by rw [holds]; nofun)
  have waits : statusOf a g r = .waiting := ((ok.1 r).waiting g).mpr (by rw [list]; exact List.mem_cons_self)
  have waiter : (claimIn a g).isSome = true := claim_of_status (r := r) (by rw [waits]; nofun)
  have other : g ≠ slot := fun e => by
    rw [e, holds] at waits
    cases waits
  rw [withdrawFrom_holding holds, release_grants (by rw [res_setStatus, list])]
  refine ⟨?record, ?own, ?granted, ?told⟩
  case record => rw [res_notify, res_put_own]
  case own =>
    rw [statusOf_notify, statusOf_setStatus_other _ (.inl other), statusOf_setRes, statusOf_setStatus_own some]
  case granted => exact statusOf_put_own ((isSome_setStatus ..).trans waiter) ..
  case told =>
    rw [notices_notify, notices_setStatus, notices_setRes, notices_setStatus, number_setStatus, number_setRes,
      number_setStatus]

theorem withdrawFrom_tells (ok : ArbOk a) : statusOf (withdrawFrom a slot r) slot r = .lost .withdrawn := by
  cases list : a.res[r].waiting with
  | nil =>
    obtain ⟨_, told, _⟩ := withdrawFrom_leaves_free holds list
    exact told
  | cons g rest =>
    obtain ⟨_, told, _⟩ := withdrawFrom_grants holds ok list
    exact told

end

theorem withdrawFrom_leaves_list (waits : statusOf a slot r = .waiting) :
    (withdrawFrom a slot r).res[r] = ⟨a.res[r].holder, a.res[r].waiting.filter fun w => decide (w ≠ slot)⟩ ∧
    statusOf (withdrawFrom a slot r) slot r = .lost .withdrawn ∧
    (∀ k q, k ≠ slot ∨ q ≠ r → statusOf (withdrawFrom a slot r) k q = statusOf a k q) ∧
    (withdrawFrom a slot r).notices = a.notices := by
  have some : (claimIn a slot).isSome = true := claim_of_status (r := r) (by rw [waits]; nofun)
  rw [withdrawFrom_waiting waits, res_put_own, statusOf_put_own some, notices_setStatus]
  refine ⟨rfl, rfl, fun k q other => ?_, rfl⟩
  exact statusOf_setStatus_other _ (other.imp Ne.symm Ne.symm) _

end

/-! ## A wait deadline (R122) -/

/-- The arbiter with the claim's wait deadline passed, before its waits end. -/
abbrev deadlinePassed (a : Arbiter) (slot : SlotNo) (c : Claim) : Arbiter :=
  setClaim a slot (some { c with passed := true })

theorem claimIn_deadlinePassed (a : Arbiter) (slot : SlotNo) (c : Claim) :
    claimIn (deadlinePassed a slot c) slot = some { c with passed := true } := by
  rw [claimIn_setClaim, if_pos rfl]

section
variable {a : Arbiter} {slot : SlotNo} {c : Claim} (hc : claimIn a slot = some c)
include hc

theorem expireWaits_eq (deadline : c.deadline ≠ none) :
    expireWaits a slot = expireAll (deadlinePassed a slot c) slot resOrder := by
  unfold expireWaits
  rw [hc]
  exact if_neg fun e => deadline (Option.isNone_iff_eq_none.mp e)

variable (deadline : c.deadline ≠ none)
include deadline

/-- At a resource the claim leaves the list it waits in, EXPIRED, and keeps what it holds. -/
theorem expireWaits_at (ok : ArbOk a) (q : ResNo) : (expireWaits a slot).res[q].holder = a.res[q].holder ∧
    (expireWaits a slot).res[q].waiting = a.res[q].waiting.filter (fun w => decide (w ≠ slot)) ∧
    statusOf (expireWaits a slot) slot q = if c.status[q] = .waiting then .lost .expired else c.status[q] := by
  obtain ⟨holder, waiting, status⟩ :=
    expireAll_at (deadlinePassed a slot c) slot resOrder_nodup (mem_resOrder q)
  rw [statusOf_claim (claimIn_deadlinePassed a slot c)] at waiting status
  rw [expireWaits_eq hc deadline]
  refine ⟨holder, waiting.trans ?_, status⟩
  split
  · rfl
  · next away =>
    refine (List.filter_eq_self.mpr fun w hw => ?_).symm
    rw [decide_eq_true_iff]
    rintro rfl
    exact away ((statusOf_claim hc q).symm.trans (((ok.1 q).waiting w).mpr hw))

theorem claimIn_expireWaits :
    ∃ x, claimIn (expireWaits a slot) slot = some { c with passed := true, status := x } := by
  rw [expireWaits_eq hc deadline]
  exact (expireAll_confined (deadlinePassed a slot c) slot resOrder).claimIn_some (claimIn_deadlinePassed a slot c)

theorem number_expireWaits (k : SlotNo) : (expireWaits a slot).slots[k].number = a.slots[k].number := by
  rw [expireWaits_eq hc deadline, (expireAll_confined _ slot resOrder).number, number_setClaim]

theorem claimIn_expireWaits_other {k : SlotNo} (hk : k ≠ slot) : claimIn (expireWaits a slot) k = claimIn a k := by
  rw [expireWaits_eq hc deadline, claimIn_expireAll_other _ hk, claimIn_setClaim, if_neg hk.symm]

theorem notices_expireWaits : (expireWaits a slot).notices =
    a.notices ++ (((List.finRange 9).filter fun q => decide (c.status[q] = .waiting)).map
      fun q => ⟨slot, a.slots[slot].number, q, .expired⟩) := by
  rw [expireWaits_eq hc deadline, notices_expireAll _ slot resOrder_nodup, number_setClaim]
  simp only [statusOf_claim (claimIn_deadlinePassed a slot c)]
  rfl

end

theorem exec_waitDeadline {s : State} (ha : Active s) (slot : SlotNo) :
    exec (.waitDeadline slot) s = .next (withArbiter s (expireWaits s.arb slot)) :=
  exec_whenWorking rfl ha

/-! ## The obligation -/

/-- Settles O41: a claim through its requests one after another, a request, a release and a withdrawal by the claim's
status and the holder, and a wait deadline resource by resource. -/
theorem requestsReleasesAndWaitDeadlines : Obligations.RequestsReleasesAndWaitDeadlines := by
  unfold Obligations.RequestsReleasesAndWaitDeadlines
  refine ⟨fun a now slot level bus want => ?claim, withdrawWhole_eq, fun a slot r c ok hc =>
    ⟨request_asked hc, fun hold wait => ?request, fun holding => ?holding, fun waiting => ?waiting,
      fun hold wait => ?neither, fun s ha arb deadline => ?deadline⟩⟩
  case claim =>
    obtain ⟨x, number, claim, asked, others⟩ := makeClaim_made a now slot level bus want
    exact ⟨congrArg (requestAll · slot (resOrder.filter want)) (openClaim_cleared a now slot level bus), number,
      _, claim, rfl, rfl, rfl, rfl, rfl, asked, others⟩
  case request =>
    have new := And.intro hold wait
    refine ⟨fun q hq => (request_confined a slot r).res q (List.mem_singleton.not.mpr hq), request_takes hc new ok,
      fun h held => ⟨request_expires hc new held, request_preempts_holder hc new held ok, fun passed kept => ?_⟩⟩
    exact ⟨request_keeps_holder hc new held passed kept, request_waits hc new held passed kept ok,
      fun front w list three => ⟨request_evicts hc new held passed kept list three ok,
        request_refused hc new held passed kept list three⟩⟩
  case holding =>
    have holds := (statusOf_claim hc r).trans holding
    refine ⟨fun q hq => (withdrawFrom_confined a slot r).res q (List.mem_singleton.not.mpr hq),
      withdrawFrom_tells holds ok, fun empty => ?_, fun g rest list => ?_⟩
    · obtain ⟨record, _, notices⟩ := withdrawFrom_leaves_free holds empty
      exact ⟨record, notices⟩
    · obtain ⟨record, _, granted, notices⟩ := withdrawFrom_grants holds ok list
      exact ⟨record, granted, notices⟩
  case waiting =>
    exact ⟨fun q hq => (withdrawFrom_confined a slot r).res q (List.mem_singleton.not.mpr hq),
      withdrawFrom_leaves_list ((statusOf_claim hc r).trans waiting)⟩
  case neither =>
    rw [← statusOf_claim hc] at hold wait
    exact withdrawFrom_neither hold wait
  case deadline =>
    subst arb
    obtain ⟨x, claim⟩ := claimIn_expireWaits hc deadline
    refine ⟨_, exec_waitDeadline ha slot, ?_, ?_, ?_, ?_, (withArbiter_ev s _ expireWaits_ok).same⟩ <;>
      rw [withArbiter_arb]
    · exact expireWaits_at hc deadline ok
    · exact ⟨_, claim, rfl, rfl, rfl, rfl, rfl⟩
    · exact fun k => ⟨number_expireWaits hc deadline k, claimIn_expireWaits_other hc deadline⟩
    · exact notices_expireWaits hc deadline

end Sys2Proof.Proofs
end

section
/-! Announcements that end by their deadline, their last note, or a notice of the arbiter (R140 to R143). -/

namespace Sys2Proof.Proofs

open Sys2Proof Sys2Proof.Machine Sys2Proof.Laws

/-! ## The ending ZONES UNAVAILABLE -/

/-- From s to t the entry e at position i has ended ZONES UNAVAILABLE, and the AUDIO bank has taken it (R139, R140). -/
structure EndsUnavailable (s t : State) (i : TablePos) (e : AnnEntry) : Prop where
  ended : EntryEnded s t i e .zonesUnavailable
  live : t.ann.live = s.ann.live
  recorded : AudioRecorded s t (.zonesUnavailable e.id) 2 e.id
  other : e.id.origin ≠ s.start.station → t.faults = (report s (.zonesUnavailable e.id)).faults

theorem endUnavailable_ends {s : State} {i : TablePos} {e : AnnEntry} (he : s.ann.table[i] = some e) :
    EndsUnavailable s (endUnavailable s i e.id) i e := by
  have ending := (endEntry_ev s i .zonesUnavailable).same
  have image : (endEntry s i .zonesUnavailable).image = s.image := ending .image (by decide)
  have time : (endEntry s i .zonesUnavailable).time = s.time := ending .time (by decide)
  obtain ⟨live, _, _⟩ := endEntry_keeps s i .zonesUnavailable
  refine ⟨entryEnded_reported (endEntry_ended he _) _, live, ?recorded, fun own => ?other⟩
  case recorded =>
    exact audioRecorded_report (endEntry_audio s i _) image (congrArg TimeUnit.quality time)
      (congrArg TimeUnit.campus time) rfl rfl rfl rfl
  case other =>
    exact report_faults_congr _ (endEntry_faults_other he own _) image (by unfold currentReading; rw [time])

/-! ## The check for hope -/

section
variable {s : State} {i : TablePos} {e : AnnEntry} (he : s.ann.table[i] = some e)
include he

theorem checkHope_hopeful (hope : hopeless e = false) (p : Bool) : checkHope s i p = s := by
  unfold checkHope
  rw [he]
  exact if_neg (by rw [hope]; exact Bool.false_ne_true)

theorem checkHope_hopeless (lost : hopeless e = true) (p : Bool) :
    checkHope s i p = if p then endEntry s i .preempted else endUnavailable s i e.id := by
  unfold checkHope
  rw [he]
  exact if_pos lost

end

/-! ## Playing entries that end (R141, R142) -/

theorem endPlaying_ends {s : State} {i : TablePos} {e : AnnEntry} (he : s.ann.table[i] = some e)
    (playing : e.state = .playing) (o : AnnOutcome) : endPlaying s i (isLive e.kind) o = endEntry s i o := by
  unfold endPlaying
  rw [he]
  exact if_pos ⟨playing, rfl⟩

theorem endPlaying_stays {s : State} {i : TablePos} (h : ∀ e, s.ann.table[i] = some e → e.state ≠ .playing)
    (live : Bool) (o : AnnOutcome) : endPlaying s i live o = s := by
  unfold endPlaying
  split
  · rfl
  · next e he => exact if_neg fun k => h e he k.1

theorem exec_endDeadline {s : State} (ha : Active s) (i : TablePos) :
    exec (.endDeadline i) s = .next (endPlaying s i true .limit) := exec_whenWorking rfl ha

theorem exec_chimeComplete {s : State} (ha : Active s) (i : TablePos) :
    exec (.chimeComplete i) s = .next (endPlaying s i false .completed) := exec_whenWorking rfl ha

/-- What the end of a playing entry leaves, in the words of the statements. -/
theorem endPlaying_ended {s : State} {i : TablePos} {e : AnnEntry} (he : s.ann.table[i] = some e)
    (playing : e.state = .playing) {live : Bool} (kind : isLive e.kind = live) (o : AnnOutcome) :
    let t := endPlaying s i live o
    EntryEnded s t i e o ∧ t.ann.live = s.ann.live ∧ Changes [.ann, .arb, .synth, .faults] s t := by
  subst kind
  rw [endPlaying_ends he playing]
  obtain ⟨live, _, _⟩ := endEntry_keeps s i o
  exact ⟨endEntry_ended he o, live, (endEntry_ev s i o).same⟩

/-! ## A notice to an announcement slot (R123, R140) -/

theorem noticeLive_iff {a : Arbiter} {slot : SlotNo} {n : ClaimNotice} (h : firstNotice a slot = some n) :
    noticeLive a n = true ↔ claimIn a slot ≠ none ∧ a.slots[slot].number = n.number := by
  have sent : n.slot = slot := of_decide_eq_true (List.find?_some (p := fun n : ClaimNotice => decide (n.slot = slot)) h)
  subst sent
  unfold noticeLive
  rw [Bool.and_eq_true, decide_eq_true_eq, Option.isSome_iff_ne_none]

/-- The entry with what its owner knows after a notice (R123). -/
def noticedEntry (e : AnnEntry) (n : ClaimNotice) : AnnEntry := { e with
  known := e.known.set n.res (if n.kind = .granted then
    (if e.known[n.res] = .waits then .holds else e.known[n.res]) else .nothing) }

theorem annNotice_eq {s : State} {i : TablePos} {e : AnnEntry} (he : s.ann.table[i] = some e) (n : ClaimNotice) :
    annNotice s i n = checkHope (setEntry s i (some (noticedEntry e n))) i (decide (n.kind = .preempted)) := by
  unfold annNotice noticedEntry
  rw [he, ← knownAfter_eq]

/-- An entry that ends after another value has been put for it ends as it would without that. -/
theorem entryEnded_of_set {s t : State} {i : TablePos} {x : AnnEntry} {o : AnnOutcome}
    (h : EntryEnded (setEntry s i (some x)) t i x o) : EntryEnded s t i x o := by
  obtain ⟨table, rest⟩ := h
  rw [setEntry_ann, Vector.set_set] at table
  exact ⟨table, rest⟩

/-- What a live notice does to the entry of the slot: it goes on with what it knows now, or it ends (R140, R143). -/
theorem annNotice_taken {s : State} {i : TablePos} {e : AnnEntry} (he : s.ann.table[i] = some e) (n : ClaimNotice) :
    let x := noticedEntry e n
    (hopeless x = false → annNotice s i n = setEntry s i (some x)) ∧
    (hopeless x = true → (n.kind = .preempted → EntryEnded s (annNotice s i n) i e .preempted) ∧
      (n.kind ≠ .preempted → EndsUnavailable s (annNotice s i n) i e)) := by
  intro x
  have at_i := setEntry_at s i (some x)
  rw [annNotice_eq he]
  refine ⟨fun hope => checkHope_hopeful at_i hope _, fun lost => ?_⟩
  rw [checkHope_hopeless at_i lost]
  refine ⟨fun preempted => ?_, fun other => ?_⟩
  · rw [if_pos (decide_eq_true preempted)]
    exact entryEnded_of_set (x := x) (endEntry_ended at_i .preempted)
  · rw [if_neg fun k => other (of_decide_eq_true k)]
    obtain ⟨ended, live, recorded, faults⟩ := endUnavailable_ends at_i
    exact ⟨entryEnded_of_set (x := x) ended, live, recorded, faults⟩

theorem annNotice_live (s : State) (i : TablePos) (n : ClaimNotice) : (annNotice s i n).ann.live = s.ann.live := by
  unfold annNotice
  split
  · rfl
  · exact checkHope_live _ i _

/-- Settles O46: a playing entry's end, and a notice by whether it is live and what hope it leaves. -/
theorem endsAndLossesOfAnEntry : Obligations.EndsAndLossesOfAnEntry := by
  intro s i ha
  refine ⟨fun e l he playing kind => ?limit, fun e c n he playing kind => ?completed, fun h => ?stays, fun n hn => ?notice⟩
  case limit =>
    exact ⟨_, exec_endDeadline ha i, endPlaying_ended he playing (by rw [kind]; rfl) .limit⟩
  case completed =>
    exact ⟨_, exec_chimeComplete ha i, endPlaying_ended he playing (by rw [kind]; rfl) .completed⟩
  case stays =>
    rw [exec_endDeadline ha, exec_chimeComplete ha, endPlaying_stays h, endPlaying_stays h]
    exact ⟨rfl, rfl⟩
  case notice =>
    have live_iff := noticeLive_iff hn
    rw [exec_announceClaimNotice ha]
    refine ⟨fun dead => ?_, fun e claim number he => ?_⟩
    · rw [takeNotice_dead hn (Bool.eq_false_iff.mpr fun k => ?_)]
      obtain ⟨claim, number⟩ := live_iff.mp k
      exact dead.elim claim (absurd number)
    · rw [takeNotice_live hn (live_iff.mpr ⟨claim, number⟩)]
      obtain ⟨goes, ends⟩ := annNotice_taken (s := s.withArb (dropNotice s.arb (annSlot i))) he n
      have hope := hopeless_eq_false_iff (noticedEntry e n)
      rw [← Bool.not_eq_false, hope] at ends
      rw [hope] at goes
      refine ⟨fun h => congrArg Host.Outcome.next (goes h), fun h => ⟨_, rfl, annNotice_live _ i n, ?_, ?_⟩⟩
      · exact changes_trans (changes_mono (withArb_changes s _)) (annNotice_ev _ i n).same
      · obtain ⟨preempted, other⟩ := ends h
        refine ⟨preempted, fun k => ?_⟩
        obtain ⟨ended, _, recorded, faults⟩ := other k
        exact ⟨ended, recorded, faults⟩

end Sys2Proof.Proofs
end

section
/-! The start of a GATHERING entry (R138, R139): its waits are withdrawn, then it ends for want of hope, is cancelled, or
plays. -/

namespace Sys2Proof.Proofs

open Sys2Proof Sys2Proof.Machine Sys2Proof.Laws

/-! ## The waits withdrawn (R139, step 1) -/

/-- The arbiter once a claim is withdrawn from the resources for which its owner knows that it waits. -/
def waitsDropped (known : Vector Known 9) (slot : SlotNo) (a : Arbiter) : Arbiter :=
  resOrder.foldl (dropWait known slot) a

section
variable (known : Vector Known 9) (slot : SlotNo)

theorem dropWait_confined (a : Arbiter) (r : ResNo) : Confined [r] a (dropWait known slot a r) := by
  unfold dropWait
  split
  · exact withdrawFrom_confined a slot r
  · exact .refl _ a

theorem waitsDropped_confined (a : Arbiter) : Confined resOrder a (waitsDropped known slot a) :=
  .foldl (dropWait_confined known slot) resOrder a

theorem waitsDropped_ok {a : Arbiter} (ok : ArbOk a) : ArbOk (waitsDropped known slot a) :=
  foldl_arbOk (fun _ _ => dropWait_ok) resOrder a ok

variable {known slot}

/-- A claim withdrawn from r in turn with others does not wait for r afterwards. -/
theorem foldl_dropWait_gone {r : ResNo} (waits : known[r] = .waits) (rs : List ResNo) (a : Arbiter) (ok : ArbOk a)
    (h : r ∈ rs ∨ statusOf a slot r ≠ .waiting) : statusOf (rs.foldl (dropWait known slot) a) slot r ≠ .waiting := by
  induction rs generalizing a with
  | nil => exact h.resolve_left List.not_mem_nil
  | cons q rs ih =>
    refine ih _ (dropWait_ok ok) ?_
    by_cases own : q = r
    · subst own
      have withdrawn : dropWait known slot a q = withdrawFrom a slot q := if_pos waits
      rw [withdrawn]
      exact .inr (withdrawFrom_gone ok).2
    · rw [(dropWait_confined known slot a q).status r (by simpa using Ne.symm own)]
      exact h.imp_left fun mem => (List.mem_cons.mp mem).resolve_left (Ne.symm own)

theorem not_listed_of_status {a : Arbiter} (ok : ArbOk a) {r : ResNo} (h : statusOf a slot r ≠ .waiting) :
    slot ∉ a.res[r].waiting := fun mem => h (((ok.1 r).waiting slot).mpr mem)

theorem waitsDropped_unlisted {a : Arbiter} (ok : ArbOk a) {r : ResNo} (waits : known[r] = .waits) :
    slot ∉ (waitsDropped known slot a).res[r].waiting :=
  not_listed_of_status (waitsDropped_ok known slot ok)
    (foldl_dropWait_gone waits resOrder a ok (.inl (mem_resOrder r)))

theorem withdrawWhole_unlisted {a : Arbiter} (ok : ArbOk a) (r : ResNo) :
    slot ∉ (withdrawWhole a slot).res[r].waiting := by
  refine not_listed_of_status (withdrawWhole_ok ok) ?_
  unfold statusOf
  rw [withdrawWhole_free]
  exact nofun

end

/-! ## What the owner knows without its waits -/

/-- The entry with what its owner knows once its waits are withdrawn. -/
def keptEntry (e : AnnEntry) : AnnEntry := { e with known := withoutWaits e.known }

theorem withoutWaits_holds (k : Vector Known 9) (r : ResNo) : (withoutWaits k)[r] ≠ .nothing ↔ k[r] = .holds := by
  have at_r : (withoutWaits k)[r] = if k[r] = .waits then .nothing else k[r] := Vector.getElem_ofFn _
  rw [at_r]
  cases k[r] <;> decide

/-- An entry without its waits has hope where its owner knows that it holds a zone, and for a CHIME SYN (R139). -/
theorem keptEntry_hopeful_iff (e : AnnEntry) : hopeless (keptEntry e) = false ↔
    (∃ z : ZoneNo, e.known[zoneRes z] = .holds) ∧ ∀ c n, e.kind = .chime c n → e.known[synRes] = .holds := by
  simp only [hopeless_eq_false_iff, keptEntry, withoutWaits_holds]

/-! ## The branches of a start -/

/-- The station with the entry's waits withdrawn and forgotten. -/
def waitsGone (s : State) (i : TablePos) (e : AnnEntry) : State :=
  withArbiter (setEntry s i (some (keptEntry e))) (waitsDropped e.known (annSlot i) s.arb)

/-- A NORMAL entry does not start while a drill runs or in a QUIET or CLOSED period (R139, steps 3 and 4). -/
def StartCancelled (s : State) (e : AnnEntry) : Prop :=
  e.level = .normal ∧ (s.drill.state ≠ .idle ∨ quietKind (effectiveKind s.plan (currentReading s)) = true)

theorem setEntry_changes (s : State) (i : TablePos) (x : Option AnnEntry) : Changes [.ann] s (setEntry s i x) := by
  intro f hf
  cases f
  case ann => exact absurd (List.mem_singleton_self _) hf
  all_goals rfl

section
variable (s : State) (i : TablePos) (e : AnnEntry)

theorem waitsGone_changes : Changes [.ann, .arb, .synth] s (waitsGone s i e) :=
  changes_trans (changes_mono (setEntry_changes s i _)) (changes_mono (withArbiter_changes _ _))

theorem waitsGone_ann : (waitsGone s i e).ann = { s.ann with table := s.ann.table.set i (some (keptEntry e)) } :=
  withArbiter_ann _ _

theorem waitsGone_arb : (waitsGone s i e).arb = waitsDropped e.known (annSlot i) s.arb := withArbiter_arb _ _

theorem waitsGone_at : (waitsGone s i e).ann.table[i] = some (keptEntry e) := by
  rw [waitsGone_ann, vector_set_at, if_pos rfl]

theorem startCancelled_waitsGone : StartCancelled (waitsGone s i e) (keptEntry e) ↔ StartCancelled s e := by
  have changes := waitsGone_changes s i e
  have drill : (waitsGone s i e).drill = s.drill := changes .drill (by decide)
  have plan : (waitsGone s i e).plan = s.plan := changes .plan (by decide)
  have time : (waitsGone s i e).time = s.time := changes .time (by decide)
  unfold StartCancelled currentReading keptEntry
  rw [drill, plan, time]

end

section
variable {s : State} {i : TablePos} {e : AnnEntry} (he : s.ann.table[i] = some e) (gathering : e.state = .gathering)
include he gathering

theorem startEntry_eq : let u := waitsGone s i e
    startEntry s i = if hopeless (keptEntry e) then endUnavailable u i e.id
      else if u.drill.state ≠ .idle ∧ e.level = .normal then endEntry u i .cancelled
      else if quietKind (effectiveKind u.plan (currentReading u)) ∧ e.level = .normal then endEntry u i .cancelled
      else playEntry u i (keptEntry e) := by
  intro u
  unfold startEntry
  rw [he]
  exact if_pos gathering

theorem startEntry_hopeless (lost : hopeless (keptEntry e) = true) :
    startEntry s i = endUnavailable (waitsGone s i e) i e.id := by
  rw [startEntry_eq he gathering]
  exact if_pos lost

section
variable (hope : hopeless (keptEntry e) = false)
include hope

theorem startEntry_cancelled (h : StartCancelled s e) : startEntry s i = endEntry (waitsGone s i e) i .cancelled := by
  obtain ⟨normal, running | quiet⟩ := (startCancelled_waitsGone s i e).mpr h
  · rw [startEntry_eq he gathering, hope, if_neg Bool.false_ne_true]
    exact if_pos ⟨running, normal⟩
  · rw [startEntry_eq he gathering, hope, if_neg Bool.false_ne_true]
    exact (congrArg _ (if_pos ⟨quiet, normal⟩)).trans (ite_self _)

theorem startEntry_plays (h : ¬ StartCancelled s e) : startEntry s i = playEntry (waitsGone s i e) i (keptEntry e) := by
  have goes := mt (startCancelled_waitsGone s i e).mp h
  rw [startEntry_eq he gathering, hope, if_neg Bool.false_ne_true]
  rw [if_neg fun k => goes ⟨k.2, .inl k.1⟩, if_neg fun k => goes ⟨k.2, .inr k.1⟩]

end

end

/-! ## An entry that ends at its start -/

theorem entryEnded_congr {s u t : State} {i : TablePos} {e : AnnEntry} {o : AnnOutcome} (ann : u.ann = s.ann)
    (arb : u.arb = s.arb) (start : u.start = s.start) (taking : u.faults.taking = s.faults.taking)
    (h : EntryEnded u t i e o) : EntryEnded s t i e o := by
  unfold EntryEnded Taking at h ⊢
  rw [ann, arb, start, taking] at h
  exact h

theorem audioRecorded_congr {s u t : State} {f : FaultCode} {code : Nat} {id : Id} (faults : u.faults = s.faults)
    (image : u.image = s.image) (time : u.time = s.time) (h : AudioRecorded u t f code id) :
    AudioRecorded s t f code id := by
  unfold AudioRecorded Taking at h ⊢
  rw [faults, image, time] at h
  exact h

/-- An entry that ends once its waits are withdrawn ends as it would there, had they not been forgotten. -/
theorem entryEnded_of_waitsGone {s t : State} {i : TablePos} {e : AnnEntry} {o : AnnOutcome}
    (h : EntryEnded (waitsGone s i e) t i (keptEntry e) o) :
    EntryEnded (s.withArb (waitsDropped e.known (annSlot i) s.arb)) t i e o := by
  have changes := waitsGone_changes s i e
  have faults : (waitsGone s i e).faults = s.faults := changes .faults (by decide)
  exact entryEnded_of_set (x := keptEntry e) (entryEnded_congr (waitsGone_ann s i e) (waitsGone_arb s i e)
    (changes .start (by decide)) (congrArg FaultUnit.taking faults) h)

/-- What the end of an entry at its start leaves: its waits, and then its claim, are withdrawn. -/
structure EndedAtStart (s t : State) (i : TablePos) (e : AnnEntry) (o : AnnOutcome) : Prop where
  ended : EntryEnded (s.withArb (waitsDropped e.known (annSlot i) s.arb)) t i e o
  live : t.ann.live = s.ann.live

theorem EndedAtStart.unlisted {s t : State} {i : TablePos} {e : AnnEntry} {o : AnnOutcome}
    (h : EndedAtStart s t i e o) (ok : ArbOk s.arb) (r : ResNo) : annSlot i ∉ t.arb.res[r].waiting := by
  obtain ⟨_, _, arb, _⟩ := h.ended
  rw [arb]
  exact withdrawWhole_unlisted (waitsDropped_ok e.known (annSlot i) ok) r

theorem EndedAtStart.free {s t : State} {i : TablePos} {e : AnnEntry} {o : AnnOutcome} (h : EndedAtStart s t i e o) :
    t.ann.table[i] = none ∧ claimIn t.arb (annSlot i) = none := by
  obtain ⟨table, _, arb, _⟩ := h.ended
  rw [table, arb, vector_set_at, if_pos rfl]
  exact ⟨rfl, withdrawWhole_free _ _⟩

section
variable (s : State) (i : TablePos) (e : AnnEntry)

theorem waitsGone_cancelled : EndedAtStart s (endEntry (waitsGone s i e) i .cancelled) i e .cancelled ∧
    (e.id.origin ≠ s.start.station → (endEntry (waitsGone s i e) i .cancelled).faults = s.faults) := by
  have at_i := waitsGone_at s i e
  have changes := waitsGone_changes s i e
  have start : (waitsGone s i e).start = s.start := changes .start (by decide)
  obtain ⟨live, _, _⟩ := endEntry_keeps (waitsGone s i e) i .cancelled
  refine ⟨⟨entryEnded_of_waitsGone (endEntry_ended at_i .cancelled), ?_⟩, fun other => ?_⟩
  · rw [live, waitsGone_ann]
  · rw [endEntry_faults_other at_i (by rw [start]; exact other)]
    exact changes .faults (by decide)

theorem waitsGone_unavailable : let t := endUnavailable (waitsGone s i e) i e.id
    EndedAtStart s t i e .zonesUnavailable ∧ AudioRecorded s t (.zonesUnavailable e.id) 2 e.id ∧
    (e.id.origin ≠ s.start.station → t.faults = (report s (.zonesUnavailable e.id)).faults) := by
  have changes := waitsGone_changes s i e
  have start : (waitsGone s i e).start = s.start := changes .start (by decide)
  have faults : (waitsGone s i e).faults = s.faults := changes .faults (by decide)
  have image : (waitsGone s i e).image = s.image := changes .image (by decide)
  have time : (waitsGone s i e).time = s.time := changes .time (by decide)
  obtain ⟨ended, live, recorded, other⟩ := endUnavailable_ends (waitsGone_at s i e)
  refine ⟨⟨entryEnded_of_waitsGone ended, ?_⟩, audioRecorded_congr faults image time recorded, fun h => ?_⟩
  · rw [waitsGone_ann] at live
    exact live
  · rw [start] at other
    exact (other h).trans (report_faults_congr _ faults image (by unfold currentReading; rw [time]))

end

/-! ## An entry that plays (R139, steps 5 and 6) -/

/-- The station with the entry playing and its claim sounding, before its owner is told. -/
def entryPlays (s : State) (i : TablePos) (e : AnnEntry) : State :=
  withArbiter (setEntry s i (some (playedEntry s e))) (reportSounding s.arb (annSlot i) e.claimNo true)

section
variable (s : State) (i : TablePos) (e : AnnEntry)

theorem playEntry_eq : playEntry s i e =
    if e.id.origin = s.start.station then raise (entryPlays s i e) .announceGo else entryPlays s i e := rfl

theorem entryPlays_faults : (entryPlays s i e).faults = s.faults := by
  rw [entryPlays, withArbiter_faults, setEntry_faults]

theorem playEntry_ann : (playEntry s i e).ann =
    { s.ann with table := s.ann.table.set i (some (playedEntry s e)) } := by
  have plays : (entryPlays s i e).ann = _ := withArbiter_ann _ _
  rw [playEntry_eq]
  split
  · exact plays
  · exact plays

theorem playEntry_arb : (playEntry s i e).arb = reportSounding s.arb (annSlot i) e.claimNo true := by
  have plays : (entryPlays s i e).arb = _ := withArbiter_arb _ _
  rw [playEntry_eq]
  split
  · exact plays
  · exact plays

/-- The owner of an own entry is told that it plays; nothing is reported of another (R139, step 6). -/
theorem playEntry_told : (e.id.origin = s.start.station → Taking s → Pending (playEntry s i e) .announceGo) ∧
    (e.id.origin ≠ s.start.station → (playEntry s i e).faults = s.faults) := by
  rw [playEntry_eq]
  refine ⟨fun own taking => ?_, fun other => ?_⟩
  · rw [if_pos own]
    refine (raise_pending _ _ _).mpr (.inl ⟨?_, rfl⟩)
    unfold Taking
    rw [entryPlays_faults]
    exact taking
  · rw [if_neg other, entryPlays_faults]

end

theorem playingLimit_eq (level : AnnLevel) (k : PeriodKind) (l : Nat) : playingLimit level k l =
    if level = .normal ∧ k = .teaching ∧ 60 < l then 60 else l := by
  unfold playingLimit
  by_cases cut : level = .normal ∧ k = .teaching
  · rw [if_pos cut]
    split
    · next h => exact Nat.min_eq_right (Nat.le_of_lt h.2.2)
    · next h => exact Nat.min_eq_left (Nat.le_of_not_lt fun k => h ⟨cut.1, cut.2, k⟩)
  · rw [if_neg cut, if_neg fun h => cut ⟨h.1, h.2.1⟩]

/-- The limit of a LIVE entry as it plays at s, in seconds (R139). -/
def cutLimit (s : State) (level : AnnLevel) (l : Nat) : Nat :=
  if level = .normal ∧ effectiveKind s.plan (currentReading s) = .teaching ∧ 60 < l then 60 else l

theorem playedEntry_eq (s : State) (e : AnnEntry) : playedEntry s (keptEntry e) = { e with
    kind := match e.kind with
      | .chime x n => .chime x n
      | .live l => .live (cutLimit s e.level l)
    state := .playing
    deadline := match e.kind with
      | .chime _ _ => none
      | .live l => some (s.time.localCount + BitVec.ofNat 32 (1000 * cutLimit s e.level l))
    known := withoutWaits e.known } := by
  unfold playedEntry keptEntry
  cases e.kind with
  | chime c n => rfl
  | live l =>
    dsimp only [playingKind]
    rw [playingLimit_eq]
    rfl

theorem playedEntry_waitsGone (s : State) (i : TablePos) (e : AnnEntry) :
    playedEntry (waitsGone s i e) (keptEntry e) = playedEntry s (keptEntry e) := by
  have changes := waitsGone_changes s i e
  have plan : (waitsGone s i e).plan = s.plan := changes .plan (by decide)
  have time : (waitsGone s i e).time = s.time := changes .time (by decide)
  unfold playedEntry currentReading
  rw [plan, time]

/-- An entry that plays once its waits are withdrawn, from the state before that. -/
theorem playEntry_waitsGone (s : State) (i : TablePos) (e : AnnEntry) :
    let t := playEntry (waitsGone s i e) i (keptEntry e)
    t.ann.lastOwn = s.ann.lastOwn ∧ t.ann.table[i] = some (playedEntry s (keptEntry e)) ∧
    t.arb = reportSounding (waitsDropped e.known (annSlot i) s.arb) (annSlot i) e.claimNo true ∧
    (e.id.origin = s.start.station → Taking s → Pending t .announceGo) ∧
    (e.id.origin ≠ s.start.station → t.faults = s.faults) := by
  have changes := waitsGone_changes s i e
  have start : (waitsGone s i e).start = s.start := changes .start (by decide)
  have faults : (waitsGone s i e).faults = s.faults := changes .faults (by decide)
  obtain ⟨own, other⟩ := playEntry_told (waitsGone s i e) i (keptEntry e)
  unfold Taking at own
  rw [start, faults] at own other
  refine ⟨?_, ?_, ?_, own, other⟩
  · rw [playEntry_ann, waitsGone_ann]
  · rw [playEntry_ann, playedEntry_waitsGone, vector_set_at, if_pos rfl]
  · rw [playEntry_arb, waitsGone_arb]
    rfl

/-- The claim of an entry that plays is sounding, at its level and on its bus (R124, R139). -/
theorem claimIn_plays {a : Arbiter} {slot : SlotNo} {c : Claim} (hc : claimIn a slot = some c) (known : Vector Known 9) :
    ∃ d, claimIn (reportSounding (waitsDropped known slot a) slot a.slots[slot].number true) slot = some d ∧
      d.sounding = true ∧ d.level = c.level ∧ d.bus = c.bus := by
  have dropped := waitsDropped_confined known slot a
  obtain ⟨x, hx⟩ := dropped.claimIn_some hc
  rw [← dropped.number slot]
  exact ⟨_, claimIn_sounding hx true, rfl, rfl, rfl⟩

/-! ## The obligation -/

theorem exec_startTrigger {s : State} (ha : Active s) (i : TablePos) :
    exec (.startTrigger i) s = .next (startEntry s i) := exec_whenWorking rfl ha

theorem startEntry_idle {s : State} {i : TablePos} (h : ∀ e, s.ann.table[i] = some e → e.state ≠ .gathering) :
    startEntry s i = s := by
  cases he : s.ann.table[i] with
  | none =>
    unfold startEntry
    rw [he]
  | some e => exact startEntry_playing he (h e he)

theorem startEntry_ownSeq (s : State) (i : TablePos) : (startEntry s i).ann.ownSeq = s.ann.ownSeq := by
  by_cases idle : ∀ e, s.ann.table[i] = some e → e.state ≠ .gathering
  · rw [startEntry_idle idle]
  · simp only [not_forall, not_not] at idle
    obtain ⟨e, he, gathering⟩ := idle
    cases hope : hopeless (keptEntry e) with
    | true =>
      rw [startEntry_hopeless he gathering hope]
      obtain ⟨_, seq, _⟩ := (waitsGone_unavailable s i e).1.ended
      exact seq
    | false =>
      by_cases h : StartCancelled s e
      · rw [startEntry_cancelled he gathering hope h]
        obtain ⟨_, seq, _⟩ := (waitsGone_cancelled s i e).1.ended
        exact seq
      · rw [startEntry_plays he gathering hope h, playEntry_ann, waitsGone_ann]

theorem startEntry_others (s : State) {i j : TablePos} (h : j ≠ i) :
    (startEntry s i).ann.table[j] = s.ann.table[j] := by
  by_cases idle : ∀ e, s.ann.table[i] = some e → e.state ≠ .gathering
  · rw [startEntry_idle idle]
  · simp only [not_forall, not_not] at idle
    obtain ⟨e, he, gathering⟩ := idle
    obtain ⟨x, table, _⟩ := startEntry_table s i he gathering
    rw [table, vector_set_at, if_neg h.symm]

/-- Settles O45: by hope, and by what cancels a NORMAL entry. -/
theorem startOfAnEntry : Obligations.StartOfAnEntry := by
  intro s i ha
  refine ⟨rfl, fun idle => ?idle, fun e he gathering => ?_⟩
  case idle => rw [exec_startTrigger ha, startEntry_idle idle]
  intro held kind cancelled
  refine ⟨_, exec_startTrigger ha i, (startEntry_ev s i).same, startEntry_live s i, startEntry_ownSeq s i,
    fun j => startEntry_others s, ?_⟩
  have hope : hopeless (keptEntry e) = false ↔ held := keptEntry_hopeful_iff e
  by_cases holds : held
  · have hopeful := hope.mpr holds
    by_cases stopped : cancelled
    · rw [startEntry_cancelled he gathering hopeful stopped]
      obtain ⟨ends, faults⟩ := waitsGone_cancelled s i e
      obtain ⟨table, claim⟩ := ends.free
      obtain ⟨_, _, _, lastOwn, told⟩ := ends.ended
      refine ⟨fun ok r _ => ends.unlisted ok r, absurd holds, fun _ => ⟨table, claim, fun own => ?_, fun other => ?_⟩,
        fun _ goes => absurd stopped goes⟩
      · exact ⟨told own, fun _ => lastOwn.trans (if_pos own), absurd holds⟩
      · exact ⟨lastOwn.trans (if_neg other), fun _ => faults other, absurd holds⟩
    · rw [startEntry_plays he gathering hopeful stopped]
      obtain ⟨lastOwn, entry, arb, own, other⟩ := playEntry_waitsGone s i e
      rw [lastOwn, entry, playedEntry_eq, arb, res_reportSounding]
      refine ⟨fun ok r => waitsDropped_unlisted ok, absurd holds, fun k => (k.elim (absurd holds) (absurd · stopped)),
        fun _ _ => ⟨rfl, rfl, fun c hc number => ?_, own, other⟩⟩
      rw [← number]
      exact claimIn_plays hc e.known
  · have lost : hopeless (keptEntry e) = true := by rwa [← Bool.not_eq_false, hope]
    rw [startEntry_hopeless he gathering lost]
    obtain ⟨ends, recorded, faults⟩ := waitsGone_unavailable s i e
    obtain ⟨table, claim⟩ := ends.free
    obtain ⟨_, _, _, lastOwn, told⟩ := ends.ended
    refine ⟨fun ok r _ => ends.unlisted ok r, fun _ => recorded, fun _ => ⟨table, claim, fun own => ?_, fun other => ?_⟩,
      fun h => absurd h holds⟩
    · exact ⟨told own, fun h => absurd h holds, fun _ => lastOwn.trans (if_pos own)⟩
    · exact ⟨lastOwn.trans (if_neg other), fun h => absurd h holds, fun _ => faults other⟩

end Sys2Proof.Proofs
end

section
/-! Announcements ended by ANNOUNCE END and ANNEND, and the campus live record that they clear (R132, R144, R145). -/

namespace Sys2Proof.Proofs

open Sys2Proof Sys2Proof.Machine Sys2Proof.Laws

/-! ## The entries that an id, or a sequence, names -/

section
variable {a : AnnUnit} {id : Id} {start : CampusTime}

theorem findEntry_lowest {i : TablePos} {e : AnnEntry} (he : a.table[i] = some e) (named : e.id = id ∧ e.start = start)
    (low : ∀ (j : TablePos) (x : AnnEntry), j < i → a.table[j] = some x → ¬ (x.id = id ∧ x.start = start)) :
    findEntry a id start = some i := by
  refine find_finRange_lowest ?_ fun j hj => ?_
  · simp [he, named]
  · cases hx : a.table[j] with
    | none => simp
    | some x => simpa using low j x hj hx

theorem findEntry_none (h : ∀ (i : TablePos) (e : AnnEntry), a.table[i] = some e → ¬ (e.id = id ∧ e.start = start)) :
    findEntry a id start = none :=
  Option.not_isSome_iff_eq_none.mp fun k => by
    obtain ⟨i, e, he, named⟩ := (findEntry_isSome_iff a id start).mp k
    exact h i e he named

theorem findEntry_named {i : TablePos} (h : findEntry a id start = some i) :
    ∃ e, a.table[i] = some e ∧ e.id = id ∧ e.start = start := by
  have found := List.find?_some h
  cases he : a.table[i] with
  | none => simp [he] at found
  | some e => exact ⟨e, rfl, by simpa [he] using found⟩

end

section
variable {s : State} {seq : Byte}

theorem ownEntry_lowest {i : TablePos} {e : AnnEntry} (he : s.ann.table[i] = some e)
    (named : e.id = ⟨s.start.station, seq⟩)
    (low : ∀ (j : TablePos) (x : AnnEntry), j < i → s.ann.table[j] = some x → x.id ≠ ⟨s.start.station, seq⟩) :
    ownEntry s seq = some i := by
  refine find_finRange_lowest ?_ fun j hj => ?_
  · simp [he, named]
  · cases hx : s.ann.table[j] with
    | none => simp
    | some x => simpa using low j x hj hx

theorem ownEntry_none
    (h : ∀ (i : TablePos) (e : AnnEntry), s.ann.table[i] = some e → e.id ≠ ⟨s.start.station, seq⟩) :
    ownEntry s seq = none := by
  refine List.find?_eq_none.mpr fun i _ => ?_
  cases he : s.ann.table[i] with
  | none => simp
  | some e => simpa using h i e he

/-- An own entry of the table gives the start time of its sequence (R144, log 63). -/
theorem ownStart_entry {i : TablePos} {e : AnnEntry} (he : s.ann.table[i] = some e)
    (named : e.id = ⟨s.start.station, seq⟩)
    (low : ∀ (j : TablePos) (x : AnnEntry), j < i → s.ann.table[j] = some x → x.id ≠ ⟨s.start.station, seq⟩) :
    ownStart s seq = some e.start := by
  unfold ownStart
  rw [ownEntry_lowest he named low, Option.bind_some, he]

/-- Where no own entry has the sequence, the last own outcome may (R144). -/
theorem ownStart_outcome
    (h : ∀ (i : TablePos) (e : AnnEntry), s.ann.table[i] = some e → e.id ≠ ⟨s.start.station, seq⟩) :
    (∀ o, s.ann.lastOwn = some o → o.seq = seq → ownStart s seq = some o.start) ∧
    ((∀ o, s.ann.lastOwn = some o → o.seq ≠ seq) → ownStart s seq = none) := by
  unfold ownStart
  rw [ownEntry_none h, Option.bind_none]
  refine ⟨fun o ho named => ?_, fun other => ?_⟩
  · rw [ho]
    exact if_pos named
  · cases ho : s.ann.lastOwn with
    | none => rfl
    | some o => exact if_neg (other o ho)

end

/-! ## The campus live record cleared (R132, log 58) -/

/-- The campus live record, none where it holds this announcement. -/
def clearedRecord (a : AnnUnit) (id : Id) (start : CampusTime) : Option LiveRecord :=
  a.live.filter fun r => !(decide (r.id = id) && decide (r.start = start))

theorem clearedRecord_eq (a : AnnUnit) (id : Id) (start : CampusTime) :
    clearedRecord a id start = if isLiveRecord a id start then none else a.live := by
  unfold clearedRecord isLiveRecord
  cases a.live with
  | none => rfl
  | some r => by_cases h : (decide (r.id = id) && decide (r.start = start)) = true <;> simp [Option.filter, h]

theorem dropLive_cases (s : State) : (NoLiveEntry s → dropLive s = s.withAnn { s.ann with live := none }) ∧
    (¬ NoLiveEntry s → dropLive s = s) := by
  unfold dropLive
  rw [noLiveEntry_iff, ← Option.not_isSome_iff_eq_none]
  exact ⟨fun h => if_neg h, fun h => if_pos (not_not.mp h)⟩

theorem clearLive_cases (s : State) (id : Id) (start : CampusTime) :
    (NoLiveEntry s → clearLive s id start = s.withAnn { s.ann with live := clearedRecord s.ann id start }) ∧
    (¬ NoLiveEntry s → clearLive s id start = s) := by
  obtain ⟨dropped, kept⟩ := dropLive_cases s
  unfold clearLive
  rw [clearedRecord_eq]
  by_cases record : isLiveRecord s.ann id start = true
  · rw [if_pos record, if_pos record]
    exact ⟨dropped, kept⟩
  · rw [if_neg record, if_neg record]
    exact ⟨fun _ => rfl, fun _ => rfl⟩

/-! ## An announcement that ends -/

/-- A LIVE entry stands in the table at another position. -/
def OtherLive (s : State) (i : TablePos) : Prop :=
  ∃ (j : TablePos) (x : AnnEntry) (l : Nat), j ≠ i ∧ s.ann.table[j] = some x ∧ x.kind = .live l

theorem noLiveEntry_endEntry (s : State) (i : TablePos) (o : AnnOutcome) :
    NoLiveEntry (endEntry s i o) ↔ ¬ OtherLive s i := by
  have at_j (j : TablePos) : (endEntry s i o).ann.table[j] = if i = j then none else s.ann.table[j] := by
    rw [endEntry_table, vector_set_at]
  unfold NoLiveEntry OtherLive
  simp only [at_j, not_exists, not_and]
  refine ⟨fun h j x l hj hx => h j x l (by rw [if_neg hj.symm, hx]), fun h j x l hx => ?_⟩
  by_cases hj : i = j
  · rw [if_pos hj] at hx
    cases hx
  · rw [if_neg hj] at hx
    exact h j x l (Ne.symm hj) hx

section
variable {s : State} {id : Id} {start : CampusTime}

theorem endAnnouncement_found {i : TablePos} (h : findEntry s.ann id start = some i) :
    endAnnouncement s id start = clearLive (endEntry s i .ended) id start := by
  unfold endAnnouncement
  rw [h]

theorem endAnnouncement_unknown (h : findEntry s.ann id start = none) :
    endAnnouncement s id start = clearLive s id start := by
  unfold endAnnouncement
  rw [h]

/-- The entry that is named ends; the record is cleared, unless another LIVE entry stands (R132, R144, R145). -/
theorem endAnnouncement_ended {i : TablePos} {e : AnnEntry} (he : s.ann.table[i] = some e)
    (found : findEntry s.ann id start = some i) : let t := endAnnouncement s id start
    EntryEnded s t i e .ended ∧ (¬ OtherLive s i → t.ann.live = clearedRecord s.ann id start) ∧
      (OtherLive s i → t.ann.live = s.ann.live) := by
  obtain ⟨live, _, _⟩ := endEntry_keeps s i .ended
  have record : clearedRecord (endEntry s i .ended).ann id start = clearedRecord s.ann id start := by
    unfold clearedRecord
    rw [live]
  have ended := endEntry_ended he .ended
  obtain ⟨cleared, kept⟩ := clearLive_cases (endEntry s i .ended) id start
  rw [noLiveEntry_endEntry] at cleared kept
  rw [not_not] at kept
  rw [endAnnouncement_found found]
  by_cases others : OtherLive s i
  · rw [kept others]
    exact ⟨ended, absurd others, fun _ => live⟩
  · rw [cleared others, record]
    exact ⟨ended, fun _ => rfl, fun h => absurd h others⟩

theorem endAnnouncement_other (other : id.origin ≠ s.start.station) : let t := endAnnouncement s id start
    Changes [.ann, .arb, .synth] s t ∧ t.ann.ownSeq = s.ann.ownSeq ∧ t.ann.lastOwn = s.ann.lastOwn := by
  have cleared (u : State) : Changes [.ann, .arb, .synth] u (clearLive u id start) ∧
      (clearLive u id start).ann.ownSeq = u.ann.ownSeq ∧ (clearLive u id start).ann.lastOwn = u.ann.lastOwn := by
    obtain ⟨none_live, live⟩ := clearLive_cases u id start
    refine ⟨changes_mono (clearLive_ev u id start).same, ?_⟩
    by_cases h : NoLiveEntry u
    · rw [none_live h]
      exact ⟨rfl, rfl⟩
    · rw [live h]
      exact ⟨rfl, rfl⟩
  cases found : findEntry s.ann id start with
  | none =>
    rw [endAnnouncement_unknown found]
    exact cleared s
  | some i =>
    obtain ⟨e, he, rfl, _⟩ := findEntry_named found
    have gone : Changes [.ann, .arb, .synth] s (entryGone s i) :=
      changes_trans (changes_mono (withArbiter_changes s _)) (changes_mono (setEntry_changes _ i none))
    obtain ⟨changes, seq, own⟩ := cleared (entryGone s i)
    rw [endAnnouncement_found found, endEntry_other he other]
    rw [entryGone_ann] at seq own
    exact ⟨changes_trans gone changes, seq, own⟩

end

/-! ## ANNOUNCE END (R144) -/

theorem exec_announceEnd {s : State} (ha : Active s) (seq : Byte) :
    exec (.announceEnd seq) s = .next (answered (announceEndTake seq s).1 (announceEndTake seq s).2) :=
  congrArg Host.Outcome.next (panelTake_active ha _)

section
variable {s : State} {seq : Byte}

theorem announceEndTake_join (join : s.start.opState = .join) : announceEndTake seq s = (s, .busy) := by
  unfold announceEndTake inRun
  rw [join]
  rfl

theorem announceEndTake_run (run : s.start.opState = .run) : announceEndTake seq s =
    match ownStart s seq with
    | none => (s, .refused .noSuchItem)
    | some start => (endOwn s seq start, done) := by
  unfold announceEndTake inRun
  rw [run]
  rfl

theorem announceEndTake_unknown (run : s.start.opState = .run) (h : ownStart s seq = none) :
    announceEndTake seq s = (s, .refused .noSuchItem) := by
  rw [announceEndTake_run run, h]

theorem announceEndTake_known (run : s.start.opState = .run) {start : CampusTime} (h : ownStart s seq = some start) :
    announceEndTake seq s = (endOwn s seq start, done) := by
  rw [announceEndTake_run run, h]

end

section
variable (s : State) (seq : Byte) (start : CampusTime)

theorem offer_ann (b : FrameBody) : (offer s b).ann = s.ann := (offer_ev s b).same .ann (by decide)

/-- The ANNEND is queued when there is room; what follows it does not touch the line (R144). -/
theorem endOwn_queued (room : HasRoom s) : Queued (endOwn s seq start).line (.annend seq start) := by
  have line : (endOwn s seq start).line = (offer s (.annend seq start)).line :=
    (endAnnouncement_ev _ _ _).same .line (by decide)
  rw [line]
  exact (offer_room room.1 (.inl room.2)).1

theorem endOwn_port : (endOwn s seq start).port = s.port := (endOwn_ev s seq start).same .port (by decide)

end

/-- An own entry ended from the panel (R144). -/
theorem endOwn_ended {s : State} {seq : Byte} {i : TablePos} {e : AnnEntry} (he : s.ann.table[i] = some e)
    (found : findEntry s.ann ⟨s.start.station, seq⟩ e.start = some i) : let t := endOwn s seq e.start
    EntryEnded s t i e .ended ∧
    (¬ OtherLive s i → t.ann.live = clearedRecord s.ann ⟨s.start.station, seq⟩ e.start) ∧
    (OtherLive s i → t.ann.live = s.ann.live) := by
  have offered := (offer_ev s (.annend seq e.start)).same
  have ann := offer_ann s (.annend seq e.start)
  rw [← ann] at he found
  obtain ⟨ended, live⟩ := endAnnouncement_ended he found
  unfold OtherLive at live ⊢
  rw [ann] at live
  exact ⟨entryEnded_congr ann (offered .arb (by decide)) (offered .start (by decide))
    (offer_audio s (.annend seq e.start)).taking ended, live⟩

/-- An own announcement that has ended already, ended from the panel again: the record is cleared (R144). -/
theorem endOwn_unknown {s : State} {seq : Byte} {start : CampusTime}
    (h : findEntry s.ann ⟨s.start.station, seq⟩ start = none) : let t := endOwn s seq start
    (NoLiveEntry s → t.ann = { s.ann with live := clearedRecord s.ann ⟨s.start.station, seq⟩ start }) ∧
    (¬ NoLiveEntry s → t.ann = s.ann) ∧ Changes [.ann, .faults, .line, .plan, .time, .drill] s t := by
  have ann := offer_ann s (.annend seq start)
  rw [← ann] at h
  obtain ⟨none_live, live⟩ := clearLive_cases (offer s (.annend seq start)) ⟨s.start.station, seq⟩ start
  unfold NoLiveEntry at none_live live ⊢
  rw [ann] at none_live live
  unfold endOwn
  rw [endAnnouncement_unknown h]
  exact ⟨fun k => by rw [none_live k]; rfl, fun k => by rw [live k, ann],
    changes_trans (changes_mono (offer_ev s _).same) (changes_mono (clearLive_ev _ _ _).same)⟩

/-! ## ANNEND (R145) -/

theorem exec_annend {s : State} (ha : Active s) {p : StationNo} {payload : List Byte} {seq : Byte} {start : CampusTime}
    (hp : p ≠ s.start.station) (hl : lengthAllowed .annend payload = true)
    (hx : annendOf payload = some (seq, start)) :
    exec (.annend p payload) s = .next (dropCapture (endAnnouncement (frameHeard s p) ⟨p, seq⟩ start)) := by
  refine congrArg Host.Outcome.next ((whenListening_active ha _).trans ?_)
  rw [hx]
  exact receive_hands hl hp _

/-! ## LIVE_RECORD_EXPIRY (R132) -/

theorem exec_liveRecordExpiry {s : State} (ha : Active s) : exec .liveRecordExpiry s = .next (dropLive s) :=
  exec_whenWorking rfl ha

end Sys2Proof.Proofs
end

section
/-! The drill's end-all order (R146), and the obligation about the ways in which announcements are ended. -/

namespace Sys2Proof.Proofs

open Sys2Proof Sys2Proof.Machine Sys2Proof.Laws

/-! ## Entries that end one after the other -/

/-- The entries at these positions end PREEMPTED, in order (R146). -/
def preemptEach (s : State) (l : List TablePos) : State := l.foldl (fun s i => endEntry s i .preempted) s

theorem preemptEach_append (s : State) (l m : List TablePos) :
    preemptEach s (l ++ m) = preemptEach (preemptEach s l) m := List.foldl_append

theorem preemptEach_ev (s : State) (l : List TablePos) : Evolves [.ann, .arb, .synth, .faults] s (preemptEach s l) :=
  foldl_evolves (fun s i => endEntry_ev s i .preempted) l s

theorem preemptEach_at (s : State) (l : List TablePos) (j : TablePos) :
    (preemptEach s l).ann.table[j] = if j ∈ l then none else s.ann.table[j] := foldl_endEntry_at .preempted j l s

theorem preemptEach_stays (s : State) (l : List TablePos) : TimeBankStays s (preemptEach s l) :=
  foldl_timeBankStays (fun s i => endEntry_stays s i .preempted) l s

theorem endEntry_ownSeq (s : State) (i : TablePos) (o : AnnOutcome) :
    (endEntry s i o).ann.ownSeq = s.ann.ownSeq := by
  cases he : s.ann.table[i] with
  | none => rw [endEntry_none he]
  | some e =>
    obtain ⟨_, seq, _⟩ := endEntry_ended he o
    exact seq

theorem preemptEach_ownSeq (s : State) (l : List TablePos) : (preemptEach s l).ann.ownSeq = s.ann.ownSeq := by
  induction l generalizing s with
  | nil => rfl
  | cons i l ih => exact (ih _).trans (endEntry_ownSeq s i .preempted)

theorem endEntry_claim_none {s : State} {k : SlotNo} (h : claimIn s.arb k = none) (i : TablePos) (o : AnnOutcome) :
    claimIn (endEntry s i o).arb k = none := by
  cases he : s.ann.table[i] with
  | none => rw [endEntry_none he, h]
  | some e =>
    obtain ⟨_, _, arb, _⟩ := endEntry_ended he o
    rw [arb]
    exact claimIn_withdrawWhole_none h _

theorem preemptEach_claim_none {s : State} {k : SlotNo} (h : claimIn s.arb k = none) (l : List TablePos) :
    claimIn (preemptEach s l).arb k = none := by
  induction l generalizing s with
  | nil => exact h
  | cons i l ih => exact ih (endEntry_claim_none h i .preempted)

/-- Entries of other stations leave the last own outcome. -/
theorem preemptEach_lastOwn {s : State} {l : List TablePos}
    (h : ∀ j ∈ l, ∀ x, s.ann.table[j] = some x → x.id.origin ≠ s.start.station) :
    (preemptEach s l).ann.lastOwn = s.ann.lastOwn := by
  induction l generalizing s with
  | nil => rfl
  | cons i l ih =>
    have start : (endEntry s i .preempted).start = s.start := (endEntry_ev s i _).same .start (by decide)
    refine (ih fun j hj x hx => ?_).trans ?_
    · rw [endEntry_table, vector_set_at] at hx
      rw [start]
      by_cases hij : i = j
      · rw [if_pos hij] at hx
        cases hx
      · rw [if_neg hij] at hx
        exact h j (List.mem_cons_of_mem i hj) x hx
    · show (endEntry s i .preempted).ann.lastOwn = _
      cases he : s.ann.table[i] with
      | none => rw [endEntry_none he]
      | some e =>
        obtain ⟨_, _, _, lastOwn, _⟩ := endEntry_ended he .preempted
        rw [lastOwn, if_neg (h i List.mem_cons_self e he)]

/-! ## The end-all order -/

/-- The positions before one of the table and those after it. -/
theorem positions_split (i : TablePos) : ∃ pre post : List TablePos, List.finRange 4 = pre ++ i :: post ∧ i ∉ pre ∧
    ∀ j ∈ post, i < j := by
  obtain ⟨pre, post, split, fresh⟩ := List.eq_append_cons_of_mem (List.mem_finRange i)
  have later := (List.pairwise_append.mp (split ▸ List.pairwise_lt_finRange 4)).2.1
  exact ⟨pre, post, split, fresh, (List.pairwise_cons.mp later).1⟩

/-- Of the entries of the table, the one at i ends when those before it have, and before those after it. -/
theorem preemptAll_split {s : State} {i : TablePos} {e : AnnEntry} (he : s.ann.table[i] = some e) :
    ∃ pre post, let v := preemptEach s pre
      preemptEach s (List.finRange 4) = preemptEach (endEntry v i .preempted) post ∧ v.ann.table[i] = some e ∧
      (∀ j ∈ post, i < j) := by
  obtain ⟨pre, post, split, fresh, later⟩ := positions_split i
  refine ⟨pre, post, ?_, ?_, later⟩
  · rw [split, preemptEach_append]
    rfl
  · rw [preemptEach_at, if_neg fresh, he]

theorem preemptAll_claim {s : State} {i : TablePos} {e : AnnEntry} (he : s.ann.table[i] = some e) :
    claimIn (preemptEach s (List.finRange 4)).arb (annSlot i) = none := by
  obtain ⟨pre, post, split, at_i, _⟩ := preemptAll_split he
  obtain ⟨_, _, arb, _⟩ := endEntry_ended at_i .preempted
  rw [split]
  exact preemptEach_claim_none (by rw [arb]; exact withdrawWhole_free _ _) post

/-- The last own entry of the table is the last own outcome, and its owner is told of it (R143, R146). -/
theorem preemptAll_own {s : State} {i : TablePos} {e : AnnEntry} (he : s.ann.table[i] = some e)
    (own : e.id.origin = s.start.station)
    (last : ∀ (j : TablePos) (x : AnnEntry), i < j → s.ann.table[j] = some x → x.id.origin ≠ s.start.station) :
    let t := preemptEach s (List.finRange 4)
    t.ann.lastOwn = some ⟨e.id.seq, e.start, e.kind, .preempted⟩ ∧ (Taking s → Pending t .announceEnded) := by
  obtain ⟨pre, post, split, at_i, later⟩ := preemptAll_split he
  have start : (preemptEach s pre).start = s.start := (preemptEach_ev s pre).same .start (by decide)
  obtain ⟨table, _, _, lastOwn, told⟩ := endEntry_ended at_i .preempted
  have endStart : (endEntry (preemptEach s pre) i .preempted).start = s.start :=
    ((endEntry_ev _ i _).same .start (by decide)).trans start
  rw [start, if_pos own] at lastOwn
  rw [split]
  refine ⟨(preemptEach_lastOwn fun j hj x hx => ?_).trans lastOwn, fun taking => ?_⟩
  · rw [endStart]
    rw [table, vector_set_at, if_neg (later j hj).ne, preemptEach_at] at hx
    refine last j x (later j hj) ?_
    split at hx
    · cases hx
    · exact hx
  · exact (preemptEach_stays _ post).pending _ (told (by rw [start]; exact own)
      ((preemptEach_stays s pre).taking.trans taking))

theorem exec_endAllOrder {s : State} (ha : Active s) : exec .endAllOrder s = .next (endAllEntries s) :=
  exec_whenWorking rfl ha

theorem endAllEntries_eq {s u : State} (h : preemptEach s (List.finRange 4) = u) :
    endAllEntries s = u.withAnn { u.ann with live := none } := h ▸ rfl

/-! ## The obligation -/

/-- Settles O44: ANNOUNCE END by what its sequence names, ANNEND by the entry that it names, the expiry of the record,
and the end-all order entry by entry. -/
theorem endingsFromThePanelTheLineAndTheDrill : Obligations.EndingsFromThePanelTheLineAndTheDrill := by
  intro s ha others
  refine ⟨fun seq => ?panel, fun p payload seq start hp hl hx present => ?frame, fun h => ?_, fun h => ?_, ?all⟩
  case panel =>
    intro id cleared
    refine ⟨fun join => ?_, fun run => ⟨fun i e he named low => ?_, fun unknown => ?_⟩⟩
    · rw [exec_announceEnd ha, announceEndTake_join join]
    · have found : findEntry s.ann id e.start = some i :=
        findEntry_lowest he ⟨named, rfl⟩ fun j x hj hx k => low j x hj hx k.1
      obtain ⟨ended, record, stays⟩ := endOwn_ended he found
      refine ⟨_, exec_announceEnd ha seq, ?_⟩
      rw [announceEndTake_known run (ownStart_entry he named low)]
      exact ⟨answered_port (endOwn_port s seq e.start) _, ended, record, stays, endOwn_queued s seq e.start,
        changes_trans (changes_mono (endOwn_ev s seq e.start).same) (changes_mono (answered_changes _ _))⟩
    · obtain ⟨outcome, nothing⟩ := ownStart_outcome unknown
      refine ⟨fun o ho hseq => ?_, fun other => ?_⟩
      · obtain ⟨record, stays, changes⟩ :=
          endOwn_unknown (findEntry_none (start := o.start) fun i e he k => unknown i e he k.1)
        refine ⟨_, exec_announceEnd ha seq, ?_⟩
        rw [announceEndTake_known run (outcome o ho hseq)]
        exact ⟨answered_port (endOwn_port s seq o.start) _, record, stays, endOwn_queued s seq o.start,
          changes_trans (changes_mono changes) (changes_mono (answered_changes _ _))⟩
      · rw [exec_announceEnd ha, announceEndTake_unknown run (nothing other)]
  case frame =>
    intro id
    refine ⟨_, exec_annend ha hp hl hx, ?_⟩
    obtain ⟨heard, _, _⟩ := frameHeard_present present
    rw [withLine_of_changes heard]
    generalize (frameHeard s p).line = l
    obtain ⟨changes, seq_stays, own⟩ :=
      endAnnouncement_other (s := s.withLine l) (id := id) (start := start) hp
    refine ⟨fun i e he named hstart low => ?_, fun unknown => ?_, seq_stays, own, ?_⟩
    · exact endAnnouncement_ended (s := s.withLine l) he (findEntry_lowest he ⟨named, hstart⟩ low)
    · obtain ⟨record, stays⟩ := clearLive_cases (s.withLine l) id start
      rw [endAnnouncement_unknown (s := s.withLine l) (findEntry_none unknown)]
      by_cases none_live : NoLiveEntry s
      · rw [record none_live]
        exact ⟨rfl, rfl, fun _ => rfl, fun k => absurd none_live k⟩
      · rw [stays none_live]
        exact ⟨rfl, rfl, fun k => absurd k none_live, fun _ => rfl⟩
    · exact changes_trans (changes_mono (withLine_changes s l)) (changes_trans (changes_mono changes)
        (changes_mono (dropCapture_changes _)))
  · rw [exec_liveRecordExpiry ha, (dropLive_cases s).1 h]
  · rw [exec_liveRecordExpiry ha, (dropLive_cases s).2 h]
  case all =>
    have seq := preemptEach_ownSeq s (List.finRange 4)
    have free (i : TablePos) := (preemptEach_at s (List.finRange 4) i).trans (if_pos (List.mem_finRange i))
    have claim {i : TablePos} {e : AnnEntry} := preemptAll_claim (s := s) (i := i) (e := e)
    have own {i : TablePos} {e : AnnEntry} := preemptAll_own (s := s) (i := i) (e := e)
    have changes := (endAllEntries_ev s).same
    refine ⟨_, exec_endAllOrder ha, ?_⟩
    generalize all : preemptEach s (List.finRange 4) = u at seq free claim own
    rw [endAllEntries_eq all] at changes ⊢
    exact ⟨rfl, seq, free, fun i e => claim, fun i e => own, changes⟩

end Sys2Proof.Proofs
end

section
/-! The panel command ANNOUNCE: its checks in order, and what a refused post does (R133, R135). -/

namespace Sys2Proof.Proofs

open Sys2Proof Sys2Proof.Machine Sys2Proof.Laws

/-! ## The order of the checks (R133) -/

theorem exec_announce {s : State} (ha : Active s) (p : AnnPost) :
    exec (.announce p) s = .next (answered (announceTake p s).1 (announceTake p s).2) :=
  congrArg Host.Outcome.next (panelTake_active ha _)

/-- The id that a post made now takes when it is admitted (R133, step 6). -/
abbrev postId (s : State) : Id := ⟨s.start.station, s.ann.ownSeq + 1⟩

theorem postInRange_iff (p : AnnPost) : postInRange p = true ↔ match p.kind with
    | .chime _ n => 1 ≤ n ∧ n ≤ 3
    | .live l => 1 ≤ l ∧ l ≤ 300 := by
  unfold postInRange
  cases p.kind with
  | chime c n => simp
  | live l => simp

/-- The post has passed the checks that come before the conditions of admission (R133, steps 1 to 4). -/
structure PostJudged (s : State) (p : AnnPost) : Prop where
  range : postInRange p = true
  run : s.start.opState = .run
  sends : s.line.listenOnly = false
  time : s.time.quality ≠ .unset

theorem inRun_iff (s : State) : inRun s = true ↔ s.start.opState = .run := decide_eq_true_iff

section
variable {s : State} {p : AnnPost}

theorem announceTake_outOfRange (h : postInRange p = false) : announceTake p s = (s, .bad .argument) := by
  unfold announceTake
  rw [h]
  rfl

section
variable (range : postInRange p = true)
include range

theorem announceTake_join (join : s.start.opState = .join) : announceTake p s = (s, .busy) := by
  unfold announceTake inRun
  rw [range, join]
  rfl

variable (run : s.start.opState = .run)
include run

theorem announceTake_listenOnly (listen : s.line.listenOnly = true) : announceTake p s = (s, .refused .listenOnly) := by
  unfold announceTake
  rw [range, (inRun_iff s).mpr run, listen]
  rfl

theorem announceTake_unset (sends : s.line.listenOnly = false) (unset : s.time.quality = .unset) :
    announceTake p s = (s, .refused .timeUnset) := by
  unfold announceTake
  rw [range, (inRun_iff s).mpr run, sends]
  exact if_pos unset

end

theorem announceTake_judged (h : PostJudged s p) : announceTake p s =
    match admissionRefusal s p (winsLive s.ann (postId s) (postStart s)) with
    | some r => (refusePost s r, .refused r)
    | none => admitPost s p := by
  unfold announceTake
  rw [h.range, (inRun_iff s).mpr h.run, h.sends]
  exact if_neg h.time

theorem announceTake_refused (h : PostJudged s p) {r : Reason}
    (refused : admissionRefusal s p (winsLive s.ann (postId s) (postStart s)) = some r) :
    announceTake p s = (refusePost s r, .refused r) := by
  rw [announceTake_judged h, refused]

theorem announceTake_admitted (h : PostJudged s p)
    (admitted : admissionRefusal s p (winsLive s.ann (postId s) (postStart s)) = none) :
    announceTake p s = admitPost s p := by
  rw [announceTake_judged h, admitted]

/-! ## The conditions of admission in order (R135) -/

theorem admissionRefusal_elsewhere (h : p.buildings.getLsbD s.start.station = false) (liveOk : Bool) :
    admissionRefusal s p liveOk = some .notAddressed := by
  have building : addressed s p.buildings = false := h
  unfold admissionRefusal
  rw [building]
  rfl

section
variable (building : p.buildings.getLsbD s.start.station = true)
include building

theorem admissionRefusal_noZone (h : ¬ NamesZone s p.zones) (liveOk : Bool) :
    admissionRefusal s p liveOk = some .noZones := by
  have here : addressed s p.buildings = true := building
  unfold admissionRefusal
  rw [here]
  exact if_pos ((maskZones_eq_zero_iff s _).mpr h)

variable (zone : NamesZone s p.zones)
include zone

theorem admissionRefusal_drill (h : ¬ DrillAllows s p.level) (liveOk : Bool) :
    admissionRefusal s p liveOk = some .drill := by
  have here : addressed s p.buildings = true := building
  have stops : drillAdmits s.drill.state p.level = false :=
    Bool.eq_false_iff.mpr fun k => h ((drillAdmits_iff s _).mp k)
  unfold admissionRefusal
  rw [here, if_neg fun k => (maskZones_eq_zero_iff s _).mp k zone, stops]
  rfl

theorem admissionRefusal_period (drill : DrillAllows s p.level) (h : ¬ PeriodAllows s p.level) (liveOk : Bool) :
    admissionRefusal s p liveOk = some .period := by
  have here : addressed s p.buildings = true := building
  have stops : periodAdmits (effectiveKind s.plan (currentReading s)) p.level = false :=
    Bool.eq_false_iff.mpr fun k => h ((periodAdmits_iff s _).mp k)
  unfold admissionRefusal
  rw [here, if_neg fun k => (maskZones_eq_zero_iff s _).mp k zone, (drillAdmits_iff s _).mpr drill, stops]
  rfl

end

theorem admissionRefusal_full (here : ToHere s p) (full : ∀ i : TablePos, s.ann.table[i] ≠ none) (liveOk : Bool) :
    admissionRefusal s p liveOk = some .tableFull := by
  rw [admissionRefusal_of_toHere here, if_pos ((freePosition_isNone_iff s.ann).mpr full)]

/-- With a free position it is the LIVE precedence alone that decides (R135, condition 6). -/
theorem admissionRefusal_free (here : ToHere s p) {i : TablePos} (free : s.ann.table[i] = none) (liveOk : Bool) :
    admissionRefusal s p liveOk = if isLive p.kind && !liveOk then some .liveConflict else none := by
  rw [admissionRefusal_of_toHere here, if_neg fun k => (freePosition_isNone_iff s.ann).mp k i free]

/-- The post is a CHIME, or a LIVE one that wins (R136). -/
def PostWins (s : State) (p : AnnPost) : Prop := ∀ l, p.kind = .live l → LiveWins s (postStart s) s.start.station

theorem post_loses_iff (s : State) (p : AnnPost) :
    (isLive p.kind && !winsLive s.ann (postId s) (postStart s)) = true ↔ ¬ PostWins s p := by
  have wins := winsLive_iff s (postId s) (postStart s)
  unfold PostWins
  rw [Bool.and_eq_true, Bool.not_eq_true', ← Bool.not_eq_true, wins, isLive_iff]
  exact ⟨fun ⟨⟨l, hk⟩, loses⟩ h => loses (h l hk), fun h => by simpa using h⟩

end

/-! ## A refused post -/

theorem refusePost_silent (s : State) {r : Reason} (h : r ≠ .tableFull ∧ r ≠ .liveConflict) : refusePost s r = s :=
  if_neg fun k => k.elim h.1 h.2

/-- A post refused for want of a position, or by LIVE precedence: the fault, with a free sequence (log 15). -/
theorem refusePost_faulted (s : State) : let id : Id := ⟨s.start.station, Config.refusedPostSequence s.fresh⟩
    refusePost s .tableFull = report (s.withFresh (s.fresh + 1)) (.announcementTableFull id) ∧
    refusePost s .liveConflict = report (s.withFresh (s.fresh + 1)) (.liveConflict id) := ⟨rfl, rfl⟩

/-- What a refused post that is recorded answers and leaves. -/
theorem faultedPost {s : State} (c : FaultCode) (r : Reason) :
    let t := answered (report (s.withFresh (s.fresh + 1)) c) (.refused r)
    t.port = (answered s (.refused r)).port ∧ t.faults = (report s c).faults ∧ Changes [.faults, .port, .fresh] s t := by
  have fresh : Changes [.faults, .port, .fresh] s (s.withFresh (s.fresh + 1)) := by
    intro f hf
    cases f
    case fresh => exact absurd (by decide) hf
    all_goals rfl
  exact ⟨rfl, rfl, changes_trans fresh (changes_trans (changes_mono (report_ev _ c).same)
    (changes_mono (answered_changes _ _)))⟩

end Sys2Proof.Proofs
end

section
/-! An admitted post (R133, step 6): its sequence, its LIVE judgement, its entry, and its ANNOUNCE frame. -/

namespace Sys2Proof.Proofs

open Sys2Proof Sys2Proof.Machine Sys2Proof.Laws

/-! ## The own sequence -/

theorem checkHope_ownSeq (s : State) (i : TablePos) (preempted : Bool) :
    (checkHope s i preempted).ann.ownSeq = s.ann.ownSeq := by
  unfold checkHope
  split
  · rfl
  · split
    · split
      · exact endEntry_ownSeq s i _
      · exact endEntry_ownSeq s i _
    · rfl

theorem gatherAt_ownSeq (s : State) (i : TablePos) (a : Announcement) :
    (gatherAt s i a).ann.ownSeq = s.ann.ownSeq := by
  rw [gatherAt_eq, checkHope_ownSeq, claimed_ann]

theorem cancelEntry_ownSeq (s : State) (i : TablePos) : (cancelEntry s i).ann.ownSeq = s.ann.ownSeq := by
  by_cases h : ∀ e, s.ann.table[i] = some e → isLive e.kind = false
  · rw [cancelEntry_of_other h]
  · simp only [not_forall, Bool.not_eq_false] at h
    obtain ⟨e, he, hl⟩ := h
    have told : (cancelTold s e).ann = s.ann := cancelTold_changes s e .ann (by decide)
    rw [cancelEntry_of_live he hl]
    exact (endEntry_ownSeq (cancelTold s e) i .cancelled).trans (congrArg AnnUnit.ownSeq told)

theorem cancelLive_ownSeq (s : State) : (cancelLive s).ann.ownSeq = s.ann.ownSeq := by
  unfold cancelLive
  induction List.finRange 4 generalizing s with
  | nil => rfl
  | cons i l ih => exact (ih _).trans (cancelEntry_ownSeq s i)

/-! ## The entry taken -/

theorem takeAnnouncement_at {s : State} {i : TablePos} (free : s.ann.table[i] = none)
    (lowest : ∀ j : TablePos, j < i → s.ann.table[j] ≠ none) (a : Announcement) :
    takeAnnouncement s a = gatherAt s i a := by
  unfold takeAnnouncement
  rw [freePosition_eq_some free lowest]

section
variable (s : State) (a : Announcement)

theorem takeAnnouncement_changes : Changes [.ann, .arb, .synth, .faults] s (takeAnnouncement s a) := by
  unfold takeAnnouncement
  split
  · exact (Evolves.refl _ s).same
  · exact gatherAt_changes s _ a

theorem takeAnnouncement_keeps : (takeAnnouncement s a).ann.ownSeq = s.ann.ownSeq ∧
    (takeAnnouncement s a).ann.live = s.ann.live := by
  unfold takeAnnouncement
  split
  · exact ⟨rfl, rfl⟩
  · exact ⟨gatherAt_ownSeq s _ a, gatherAt_live s _ a⟩

end

/-! ## The LIVE judgement of a post -/

/-- The station with the next own sequence taken. -/
abbrev numbered (s : State) : State := s.withAnn { s.ann with ownSeq := s.ann.ownSeq + 1 }

/-- The announcement that a post makes. -/
abbrev posted (s : State) (p : AnnPost) : Announcement := ⟨postId s, postStart s, p⟩

/-- The ANNOUNCE frame of a post. -/
abbrev postFrame (s : State) (p : AnnPost) : FrameBody := .announce ⟨s.ann.ownSeq + 1, postStart s, p⟩

/-- The station once a post has its sequence and, when LIVE, has been judged. -/
def judgedPost (s : State) (p : AnnPost) : State :=
  match p.kind with
  | .live limit => judgeLive (numbered s) (postId s) (postStart s) limit
  | .chime _ _ => numbered s

theorem admitPost_eq (s : State) (p : AnnPost) : admitPost s p =
    (offer (takeAnnouncement (judgedPost s p) (posted s p)) (postFrame s p),
      .done (.announcement (s.ann.ownSeq + 1) (postStart s))) := rfl

section
variable {s : State} {p : AnnPost}

theorem judgedPost_chime (h : ∀ l, p.kind ≠ .live l) : judgedPost s p = numbered s := by
  unfold judgedPost
  split
  · next l hk => exact absurd hk (h l)
  · rfl

theorem judgedPost_live {l : Nat} (hk : p.kind = .live l) (wins : LiveWins s (postStart s) s.start.station) :
    judgedPost s p = recordSet (numbered s) (cancelLive (numbered s)) (postId s) (postStart s) l := by
  unfold judgedPost
  rw [hk]
  exact judgeLive_eq (s := numbered s) (id := postId s) wins l

theorem judgedPost_ownSeq (wins : PostWins s p) : (judgedPost s p).ann.ownSeq = s.ann.ownSeq + 1 := by
  by_cases h : ∃ l, p.kind = .live l
  · obtain ⟨l, hk⟩ := h
    rw [judgedPost_live hk (wins l hk)]
    exact cancelLive_ownSeq (numbered s)
  · exact congrArg (·.ann.ownSeq) (judgedPost_chime fun l hk => h ⟨l, hk⟩)

/-- Without a LIVE entry to cancel, the judgement sets the record at most. -/
theorem judgedPost_uncontested (wins : PostWins s p) (h : (∀ l, p.kind ≠ .live l) ∨ NoLiveEntry s) :
    ∃ x, judgedPost s p = (numbered s).withAnn { (numbered s).ann with live := x } := by
  by_cases live : ∃ l, p.kind = .live l
  · obtain ⟨l, hk⟩ := live
    have none_live : NoLiveEntry (numbered s) := h.resolve_left fun k => k l hk
    rw [judgedPost_live hk (wins l hk), cancelLive_of_noLiveEntry none_live]
    exact ⟨_, rfl⟩
  · exact ⟨s.ann.live, judgedPost_chime fun l hk => live ⟨l, hk⟩⟩

end

/-! ## The frame offered (R38, R40) -/

theorem sameSort_announce (c : AnnContent) (b : FrameBody) : sameSort (.announce c) b = false := by cases b <;> rfl

theorem sameSort_annend (seq : Byte) (start : CampusTime) (b : FrameBody) :
    sameSort (.annend seq start) b = false := by cases b <;> rfl

/-- A frame of no sort enters a queue with room, beside the frames that it holds. -/
theorem offer_unsorted {s : State} {b : FrameBody} (sort : ∀ x, sameSort b x = false) (takes : takesOffers s = true)
    (room : s.line.queue.length < 12) : (offer s b).line.queue.length = s.line.queue.length + 1 ∧
    ∀ x, x = b ∨ x ∈ s.line.queue.map (·.body) → x ∈ (offer s b).line.queue.map (·.body) := by
  rw [offer_enters takes (find_sort_none fun e _ => sort e.body) room]
  refine ⟨queueInsert_length _ _, fun x hx => ?_⟩
  obtain rfl | hx := hx
  · exact List.mem_map_of_mem (mem_queueInsert.mpr (.inl rfl))
  · obtain ⟨e, he, rfl⟩ := List.mem_map.mp hx
    exact List.mem_map_of_mem (mem_queueInsert.mpr (.inr he))

/-- The ANNEND for an own entry that is cancelled leaves room for another frame where the queue had room for two. -/
theorem cancelTold_room {s : State} (takes : takesOffers s = true) (room : s.line.queue.length ≤ 10) (e : AnnEntry) :
    takesOffers (cancelTold s e) = true ∧ (cancelTold s e).line.queue.length < 12 ∧
    (e.id.origin = s.start.station →
      .annend e.id.seq e.start ∈ (cancelTold s e).line.queue.map (·.body)) := by
  unfold cancelTold
  by_cases own : e.id.origin = s.start.station
  · rw [if_pos own, offer_takesOffers]
    obtain ⟨length, queued⟩ := offer_unsorted (sameSort_annend e.id.seq e.start) takes (by omega)
    exact ⟨takes, by omega, fun _ => queued _ (.inl rfl)⟩
  · rw [if_neg own]
    exact ⟨takes, by omega, fun k => absurd k own⟩

/-- Both frames of a post that replaces a LIVE entry are queued where the queue had room for two (R136, R140). -/
theorem cancelTold_queues {s u : State} {e : AnnEntry} (start : u.start = s.start)
    (line : u.line = (cancelTold s e).line) (takes : takesOffers s = true) (room : s.line.queue.length ≤ 10)
    (c : AnnContent) : Queued (offer u (.announce c)).line (.announce c) ∧
    (e.id.origin = s.start.station → Queued (offer u (.announce c)).line (.annend e.id.seq e.start)) := by
  obtain ⟨open_, short, told⟩ := cancelTold_room takes room e
  have toldStart : (cancelTold s e).start = s.start := cancelTold_changes s e .start (by decide)
  rw [← takesOffers_congr (start.trans toldStart.symm) line] at open_
  rw [← line] at short told
  obtain ⟨_, queued⟩ := offer_unsorted (sameSort_announce c) open_ short
  exact ⟨.inl (queued _ (.inl rfl)), fun own => .inl (queued _ (.inr (told own)))⟩

theorem cancelEntry_line {s : State} {i : TablePos} {e : AnnEntry} (he : s.ann.table[i] = some e)
    (hl : isLive e.kind = true) : (cancelEntry s i).line = (cancelTold s e).line := by
  rw [cancelEntry_of_live he hl]
  exact (endEntry_ev (cancelTold s e) i .cancelled).same .line (by decide)

/-! ## What the offer and the answer leave -/

/-- The offer of the ANNOUNCE frame and the answer leave the entry that an own post has taken (R133, R137). -/
theorem gathers_offered {v t : State} {i : TablePos} {id : Id} {start : CampusTime} {p : AnnPost} {x : AnnTrigger}
    (own : id.origin = v.start.station) (h : Gathers v t i id start p x) (b : FrameBody) (r : Response) :
    Gathers v (answered (offer t b) r) i id start p x := by
  have ann : (answered (offer t b) r).ann = t.ann := offer_ann t b
  have arb : (answered (offer t b) r).arb = t.arb := (offer_ev t b).same .arb (by decide)
  have bank : (answered (offer t b) r).faults.banks[bankIndex .audio] = t.faults.banks[bankIndex .audio] :=
    (offer_audio t b).bank
  obtain ⟨gathers, ends⟩ := h
  refine ⟨fun hope => ?_, fun lost => ?_⟩
  · rw [ann, arb]
    exact gathers hope
  · obtain ⟨claim, table, recorded, lastOwn, _⟩ := ends lost
    rw [ann, arb]
    exact ⟨claim, table, fun taking => bank.trans (recorded taking), lastOwn, absurd own⟩

/-- A post that is taken at the first free position gathers there, its trigger campus time (R137). -/
theorem post_gathers {v : State} {a : Announcement} (own : a.id.origin = v.start.station)
    (time : v.time.quality ≠ .unset) {i : TablePos} (free : v.ann.table[i] = none)
    (lowest : ∀ j : TablePos, j < i → v.ann.table[j] ≠ none) (b : FrameBody) (r : Response) :
    Gathers v (answered (offer (takeAnnouncement v a) b) r) i a.id a.start a.post .campus := by
  rw [takeAnnouncement_at free lowest, ← (receivedTrigger_campus v).mpr time]
  exact gathers_offered own (gatherAt_gathers free a) b r

/-- A post that wins, admitted: the answer, its sequence, the record, and the parts that may change. -/
theorem admitPost_keeps {s : State} {p : AnnPost} (wins : PostWins s p) : let t := (admitPost s p).1
    t.port = s.port ∧ t.ann.ownSeq = s.ann.ownSeq + 1 ∧ t.ann.live = (judgedPost s p).ann.live ∧
    Changes [.ann, .arb, .synth, .line, .plan, .time, .drill, .faults] s t := by
  have winsLive : isLive p.kind = true → winsLive s.ann (postId s) (postStart s) = true := fun live => by
    obtain ⟨l, hk⟩ := (isLive_iff _).mp live
    exact (winsLive_iff s (postId s) (postStart s)).mpr (wins l hk)
  have changes := (admitPost_ev s p winsLive).same
  have offered : (admitPost s p).1.ann = (takeAnnouncement (judgedPost s p) (posted s p)).ann := offer_ann _ _
  obtain ⟨seq, live⟩ := takeAnnouncement_keeps (judgedPost s p) (posted s p)
  refine ⟨changes .port (by decide), ?_, ?_, changes⟩
  · rw [offered, seq, judgedPost_ownSeq wins]
  · rw [offered, live]

/-- A post without a LIVE entry to cancel: it gathers at the first free position, and its frame is queued. -/
theorem admitPost_uncontested {s : State} {p : AnnPost} (wins : PostWins s p) (time : s.time.quality ≠ .unset)
    (h : (∀ l, p.kind ≠ .live l) ∨ NoLiveEntry s) (r : Response) : let t := answered (admitPost s p).1 r
    (∀ i : TablePos, s.ann.table[i] = none → (∀ j : TablePos, j < i → s.ann.table[j] ≠ none) →
      Gathers s t i (postId s) (postStart s) p .campus) ∧
    (HasRoom s → Queued t.line (postFrame s p)) := by
  obtain ⟨x, judged⟩ := judgedPost_uncontested wins h
  have taken := takeAnnouncement_changes (judgedPost s p) (posted s p)
  have start : (takeAnnouncement (judgedPost s p) (posted s p)).start = s.start :=
    (taken .start (by decide)).trans (congrArg State.start judged :)
  have line : (takeAnnouncement (judgedPost s p) (posted s p)).line = s.line :=
    (taken .line (by decide)).trans (congrArg State.line judged :)
  rw [admitPost_eq]
  refine ⟨fun i free lowest => ?_, fun room => ?_⟩
  · rw [judged]
    exact post_gathers (v := (numbered s).withAnn { (numbered s).ann with live := x }) (a := posted s p) rfl time free
      lowest (postFrame s p) r
  · obtain ⟨takes, short⟩ := room
    rw [← line] at short
    exact (offer_room ((takesOffers_congr start line).trans takes) (.inl short)).1

/-- A LIVE post that wins while a LIVE entry stands at i: that entry gives way, then the post gathers at the first
position free after it, and both frames are queued (R136). -/
theorem admitPost_replaces {s : State} {p : AnnPost} {l m : Nat} (hk : p.kind = .live l) (wins : PostWins s p)
    (time : s.time.quality ≠ .unset) (ok : AnnOk s.ann) {i : TablePos} {e : AnnEntry} (he : s.ann.table[i] = some e)
    (hm : e.kind = .live m) (r : Response) : let t := answered (admitPost s p).1 r
    ∃ u, LiveTakes (numbered s) u i e (postId s) (postStart s) l ∧
      (∀ j : TablePos, u.ann.table[j] = none → (∀ k : TablePos, k < j → u.ann.table[k] ≠ none) →
        Gathers u t j (postId s) (postStart s) p .campus) ∧
      (takesOffers s = true → s.line.queue.length ≤ 10 → Queued t.line (postFrame s p) ∧
        (e.id.origin = s.start.station → Queued t.line (.annend e.id.seq e.start))) := by
  have live : isLive e.kind = true := by rw [hm]; rfl
  have judged : judgedPost s p =
      recordSet (numbered s) (cancelEntry (numbered s) i) (postId s) (postStart s) l := by
    rw [judgedPost_live hk (wins l hk), cancelLive_of_live (s := numbered s) ok he live]
  have takes := liveTakes_cancelEntry (s := numbered s) he live (postId s) (postStart s) l
  have line : (judgedPost s p).line = (cancelTold (numbered s) e).line := by
    rw [judged]
    exact cancelEntry_line (s := numbered s) he live
  rw [← judged] at takes
  rw [admitPost_eq]
  generalize judgedPost s p = v at takes line
  refine ⟨v, takes, ?_⟩
  obtain ⟨_, _, _, _, _, _, _, quality, changes⟩ := takes
  have start : v.start = s.start := changes .start (by decide)
  refine ⟨fun j free lowest => ?_, fun open_ room => ?_⟩
  · exact post_gathers (a := posted s p) (congrArg StartUnit.station start.symm) (by rw [quality]; exact time) free lowest
      (postFrame s p) r
  · have taken := takeAnnouncement_changes v (posted s p)
    exact cancelTold_queues (s := numbered s) ((taken .start (by decide) : _ = v.start).trans start)
      ((taken .line (by decide) : _ = v.line).trans line) open_ room _

/-- Settles O42: the checks in order, then the post admitted, without and with a LIVE entry to cancel. -/
theorem aPostIsCheckedAndAdmitted : Obligations.APostIsCheckedAndAdmitted := by
  intro s p ha id start inRange wins turned faulted
  have range : postInRange p = true ↔ inRange := postInRange_iff p
  have answers {x : State × Response} (h : announceTake p s = x) :
      exec (.announce p) s = .next (answered x.1 x.2) := h ▸ exec_announce ha p
  refine ⟨fun h => answers (announceTake_outOfRange (Bool.eq_false_iff.mpr (mt range.mp h))),
    fun h join => answers (announceTake_join (range.mpr h) join), fun h run =>
    ⟨fun listen => answers (announceTake_listenOnly (range.mpr h) run listen), fun sends =>
    ⟨fun unset => answers (announceTake_unset (range.mpr h) run sends unset), fun time => ?_⟩⟩⟩
  have judged : PostJudged s p := ⟨range.mpr h, run, sends, time⟩
  have silent {r : Reason} (quiet : r ≠ .tableFull ∧ r ≠ .liveConflict)
      (refused : admissionRefusal s p (winsLive s.ann (postId s) (postStart s)) = some r) : turned (.refused r) := by
    have refusal := answers (announceTake_refused judged refused)
    rw [refusePost_silent s quiet] at refusal
    exact refusal
  refine ⟨fun building => silent (by decide) (admissionRefusal_elsewhere building _), fun building =>
    ⟨fun zone => silent (by decide) (admissionRefusal_noZone building zone _), fun zone =>
    ⟨fun drill => silent (by decide) (admissionRefusal_drill building zone drill _), fun drill =>
    ⟨fun period => silent (by decide) (admissionRefusal_period building zone drill period _), fun period => ?_⟩⟩⟩⟩
  have here : ToHere s p := ⟨building, zone, drill, period⟩
  have loses := post_loses_iff s p
  refine ⟨fun full => ?_, fun free => ⟨fun lost => ?_, fun won => ?_⟩⟩
  · have refusal := answers (announceTake_refused judged (admissionRefusal_full here full _))
    obtain ⟨port, faults, changes⟩ := faultedPost (s := s) (.announcementTableFull _) .tableFull
    exact ⟨_, refusal, port, ⟨_, faults⟩, changes⟩
  · obtain ⟨i, free⟩ := free
    have refused := (admissionRefusal_free here free _).trans (if_pos (loses.mpr lost))
    obtain ⟨port, faults, changes⟩ := faultedPost (s := s) (.liveConflict _) .liveConflict
    exact ⟨_, answers (announceTake_refused judged refused), port, ⟨_, faults⟩, changes⟩
  · obtain ⟨i, free⟩ := free
    have wins : PostWins s p := won
    have admitted := (admissionRefusal_free here free _).trans (if_neg fun k => loses.mp k wins)
    obtain ⟨port, seq, live, changes⟩ := admitPost_keeps wins
    refine ⟨_, answers (announceTake_admitted judged admitted), answered_port port _, seq, live.trans ?_,
      fun h => admitPost_uncontested wins time h _, fun i e l m hk ok he hm => admitPost_replaces hk wins time ok he hm _,
      changes_trans (changes_mono changes) (changes_mono (answered_changes _ _))⟩
    cases hk : p.kind with
    | chime c n => exact congrArg (·.ann.live) (judgedPost_chime fun l k => by rw [hk] at k; cases k)
    | live l => exact congrArg (·.ann.live) (judgedPost_live hk (wins l hk))

end Sys2Proof.Proofs
end
